-- ==== Sys2Proof/Word.lean ====
section
/-! DEFINITION. The words, the enumerations and the plain names the spec gives the WinOFED transport core. Nothing here
computes: encodings of these names stand in Sys2Proof/Decode.lean and Sys2Proof/Machine/Operands.lean. -/

namespace Sys2Proof

/-- One byte of host memory (spec/20_memory.md R70: the unit of host memory is the byte). -/
abbrev Byte := BitVec 8

/-- One 32-bit word of a wire structure, a doorbell or the command port. -/
abbrev Word := BitVec 32

/-- The 24-bit number of an object (R103: `qpn`, `cqn`, `srqn`). -/
abbrev Num24 := BitVec 24

/-- The doorbell generation (R3): legacy (Tavor) or memory-free (Arbel). -/
inductive Mode where
  | legacy
  | memfree
  deriving DecidableEq, Repr, Inhabited

/-- The three kinds of object, hence of handle and of lookup table (R24, R340). -/
inductive Kind where
  | qp
  | cq
  | srq
  deriving DecidableEq, Repr, Inhabited

/-- The eight QP states of R27, in the order of their codes 0 to 7. -/
inductive QpState where
  | reset
  | init
  | rtr
  | rts
  | sqd
  | sqe
  | err
  | draining
  deriving DecidableEq, Repr, Inhabited

/-- The four transports of R28, in the order of their codes 0 to 3. -/
inductive Transport where
  | rc
  | uc
  | ud
  | mlx
  deriving DecidableEq, Repr, Inhabited

/-- The command statuses of R400, in the order of their codes 0 to 17. -/
inductive Status where
  | ok
  | illegalCommand
  | notStarted
  | alreadyStarted
  | invalidHandle
  | outOfRange
  | invalidTransition
  | missingAttr
  | extraAttr
  | invalidQpState
  | queueFull
  | tooManySge
  | inlineTooLong
  | invalidOpcode
  | noResources
  | busy
  | mailboxFail
  | deviceFatal
  deriving DecidableEq, Repr, Inhabited

/-- The completion statuses of R132, in the order of their codes 0 to 19. -/
inductive CompStatus where
  | success
  | locLenErr
  | locQpOpErr
  | locEecOpErr
  | locProtErr
  | wrFlushErr
  | mwBindErr
  | badRespErr
  | locAccessErr
  | remInvReqErr
  | remAccessErr
  | remOpErr
  | retryExcErr
  | rnrRetryExcErr
  | locRddViolErr
  | remInvRdReqErr
  | remAbortErr
  | invEecnErr
  | invEecStateErr
  | generalErr
  deriving DecidableEq, Repr, Inhabited

/-- The completion types of R133 (codes 0 to 7, and 255 for `none`). -/
inductive CompType where
  | send
  | rdmaWrite
  | rdmaRead
  | compSwap
  | fetchAdd
  | bindMw
  | recv
  | recvRdmaWithImm
  | none
  deriving DecidableEq, Repr, Inhabited

/-- The symbolic firmware transitions of R159. -/
inductive Transition where
  | rst2init
  | init2init
  | init2rtr
  | rtr2rts
  | rts2rts
  | rts2sqd
  | sqd2rts
  | sqd2sqd
  | sqerr2rts
  | any2err
  | any2rst
  deriving DecidableEq, Repr, Inhabited

/-- The attributes of `MODIFY_QP`, in the order of their mask bits 0 to 20 (R105). -/
inductive Attr where
  | state
  | curState
  | enSqdAsyncNotify
  | accessFlags
  | pkeyIndex
  | port
  | qkey
  | av
  | pathMtu
  | timeout
  | retryCnt
  | rnrRetry
  | rqPsn
  | maxQpRdAtomic
  | altPath
  | minRnrTimer
  | sqPsn
  | maxDestRdAtomic
  | pathMigState
  | cap
  | destQpn
  deriving DecidableEq, Repr, Inhabited

/-- The three registers of the doorbell window (R76, R435), by name: their offsets are parameters. -/
inductive DbReg where
  | send
  | recv
  | cq
  deriving DecidableEq, Repr, Inhabited

end Sys2Proof
end

