-- ==== Sys2Proof/Syntax.lean ====
section
/-! DEFINITION. The instruction set: one constructor of Instr per row of spec/opcode_table.json, and the operand record a
command reads (spec/30_encoding.md R103, R106, R107, R109). A command word has no operand bits but `sol`; its operands
are the operand record the requester writes when it issues the command (R20). The other rows are the words of the core's
other formats: send work-request opcodes (R108), WQE link words (R112, R118), CQE opcode bytes (R123 to R125), event
words (R140) and doorbells (R126 to R130). -/

namespace Sys2Proof

/-- A handle (R24, R103): the kind, the lookup index and the generation of an object. -/
structure Handle where
  kind  : Kind := .qp
  index : BitVec 24 := 0
  gen   : BitVec 32 := 0
  deriving DecidableEq, Repr, Inhabited

/-- One scatter/gather entry (R107). -/
structure Sge where
  addr   : BitVec 64 := 0
  length : Word := 0
  lkey   : Word := 0
  deriving DecidableEq, Repr, Inhabited

/-- A send work request (R107). `num_sge` is the length of `sg`. -/
structure SendWr where
  wrId       : BitVec 64 := 0
  opcode     : BitVec 3 := 0
  signaled   : Bool := false
  solicited  : Bool := false
  fence      : Bool := false
  inl        : Bool := false
  imm        : Word := 0
  sg         : List Sge := []
  remoteAddr : BitVec 64 := 0
  rkey       : Word := 0
  compareAdd : BitVec 64 := 0
  swap       : BitVec 64 := 0
  avLkey     : Word := 0
  avAddr     : BitVec 64 := 0
  av         : BitVec 256 := 0
  dqpn       : Num24 := 0
  qkey       : Word := 0
  deriving DecidableEq, Repr, Inhabited

/-- A receive work request (R109). `num_sge` is the length of `sg`. -/
structure RecvWr where
  wrId : BitVec 64 := 0
  sg   : List Sge := []
  deriving DecidableEq, Repr, Inhabited

/-- The attribute values of `MODIFY_QP` (R106): each is read only when its mask bit is set. -/
structure AttrValues where
  qpState          : QpState := .reset
  curQpState       : QpState := .reset
  enSqdAsyncNotify : BitVec 1 := 0
  accessFlags      : BitVec 8 := 0
  pkeyIndex        : BitVec 16 := 0
  portNum          : BitVec 8 := 0
  qkey             : BitVec 32 := 0
  av               : BitVec 256 := 0
  pathMtu          : BitVec 3 := 0
  timeout          : BitVec 5 := 0
  retryCnt         : BitVec 3 := 0
  rnrRetry         : BitVec 3 := 0
  rqPsn            : BitVec 24 := 0
  maxRdAtomic      : BitVec 8 := 0
  altPath          : BitVec 320 := 0
  minRnrTimer      : BitVec 5 := 0
  sqPsn            : BitVec 24 := 0
  maxDestRdAtomic  : BitVec 8 := 0
  pathMigState     : BitVec 2 := 0
  cap              : BitVec 128 := 0
  destQpNum        : BitVec 24 := 0
  deriving DecidableEq, Repr, Inhabited

/-- The operand record of a command (R20, R103): the union of the fields the commands read. -/
structure Operands where
  mode       : Mode := .legacy
  dbRecBase  : BitVec 64 := 0
  qpn        : Num24 := 0
  cqn        : Num24 := 0
  srqn       : Num24 := 0
  transport  : Transport := .rc
  sendCq     : Handle := { kind := .cq }
  recvCq     : Handle := { kind := .cq }
  srq        : Option Handle := none
  pd         : Word := 0
  sqDepth    : Word := 0
  rqDepth    : Word := 0
  srqDepth   : Word := 0
  cqDepth    : Word := 0
  sqMaxGs    : BitVec 8 := 0
  rqMaxGs    : BitVec 8 := 0
  maxGs      : BitVec 8 := 0
  maxInline  : Word := 0
  sigAll     : Bool := false
  bufBase    : BitVec 64 := 0
  qp         : Handle := {}
  cq         : Handle := { kind := .cq }
  mask       : Word := 0
  attrs      : AttrValues := {}
  sendWrs    : List SendWr := []
  recvWrs    : List RecvWr := []
  maxEntries : Word := 0
  deriving DecidableEq, Repr, Inhabited

/-- One constructor per row of spec/opcode_table.json. -/
inductive Instr where
  -- command words (R101, R104)
  | deviceStart
  | deviceStop
  | createQp
  | modifyQp
  | queryQp
  | destroyQp
  | postSend
  | postRecv
  | createCq
  | pollCq
  | reqNotifyCq (sol : Bool)
  | destroyCq
  | createSrq
  | postSrqRecv
  | destroySrq
  /-- any command word not matched by a command (R110) -/
  | illegalCommand (w : Word)
  -- send work-request opcodes (R108)
  | wrRdmaWrite
  | wrRdmaWriteImm
  | wrSend
  | wrSendImm
  | wrRdmaRead
  | wrAtomicCs
  | wrAtomicFa
  | wrReserved7
  -- WQE link words: `nda` is bits 31 to 6 of the `nda_op` word (R112, R118)
  | wqeOpNop (nda : BitVec 26)
  | wqeOpRecvLink (nda : BitVec 26)
  | wqeOpRdmaWrite (nda : BitVec 26)
  | wqeOpRdmaWriteImm (nda : BitVec 26)
  | wqeOpSend (nda : BitVec 26)
  | wqeOpSendImm (nda : BitVec 26)
  | wqeOpRdmaRead (nda : BitVec 26)
  | wqeOpAtomicCs (nda : BitVec 26)
  | wqeOpAtomicFa (nda : BitVec 26)
  -- CQE opcode bytes (R123 to R125): an error byte with its send bit; `hi` is bits 7 to 5 of a receive byte
  | cqeError (send : Bool)
  | cqeSend08
  | cqeSend09
  | cqeSend0A
  | cqeSend0B
  | cqeSend10
  | cqeSend11
  | cqeSend12
  | cqeSend18
  | cqeSendOther (opcode : Byte)
  | cqeRecv03 (hi : BitVec 3)
  | cqeRecv05 (hi : BitVec 3)
  | cqeRecv09 (hi : BitVec 3)
  | cqeRecv0B (hi : BitVec 3)
  | cqeRecvOther (opcode : Byte)
  -- device event words (R140)
  | eventCompletion (num : Num24)
  | eventQp (num : Num24) (ty : Byte)
  | eventFatal
  | eventOther (kind : Byte)
  -- doorbells (R126 to R130): `wqe` is a WQE offset divided by 64
  | dbLegacySend (wqe : BitVec 26) (fence : Bool) (op : BitVec 5) (qpn : Num24) (size : Byte)
  | dbLegacyRecv (wqe : BitVec 26) (size : BitVec 6) (qpn : Num24) (n : Byte)
  | dbLegacySrq (wqe : BitVec 26) (srqn : Num24) (n : Byte)
  | dbLegacyCqInc (cqn : Num24) (countLess1 : Word)
  | dbLegacyCqArm (sol : Bool) (cqn : Num24)
  | dbMemfreeSend (n : Byte) (head0 : BitVec 16) (fence : Bool) (op : BitVec 5) (qpn : Num24) (size : Byte)
  | dbMemfreeCqArm (sn : BitVec 2) (sol : Bool) (cqn : Num24) (ci : Word)
  /-- record `r`: word 0, and word 1 as number, type and low five bits (R130) -/
  | dbrecMemfree (r : Word) (word0 : Word) (num : Num24) (ty : BitVec 3) (low : BitVec 5)
  deriving DecidableEq, Repr, Inhabited

end Sys2Proof
end

