-- ==== Sys2Proof/Config.lean ====
section
/-! DEFINITION. The implementation parameters of spec/00_scope.md R7. "A model takes every OPEN parameter as an argument":
the argument is the value of Config that stands in State and that no step changes, so a statement about every state holds for
every value of every parameter. The two OPEN function parameters, `ENCODE_QP_CONTEXT` and `MLX_HEADER`, are the opaque
constants of Sys2Proof/Machine/Objects.lean. The defaults and the values of spec/95_test_vectors.md stand in
Sys2Proof/Machine/Tables.lean. -/

namespace Sys2Proof

/-- One row of `LEGALITY_TABLE` (R151): for (current, requested, transport), the required and the optional mask. -/
structure LegalityRow where
  cur       : QpState
  new       : QpState
  transport : Transport
  required  : Word
  opt       : Word
  deriving DecidableEq, Repr, Inhabited

/-- The implementation parameters (R7). -/
structure Config where
  /-- `HOST_ADDR_BITS`, at most 64 -/
  hostAddrBits : Nat
  /-- `NUM_QPS`, a power of two -/
  numQps : Nat
  /-- `NUM_CQS`, a power of two -/
  numCqs : Nat
  /-- `NUM_SRQS`, a power of two -/
  numSrqs : Nat
  /-- `SHARD_SHIFT` -/
  shardShift : Nat
  /-- `MAX_WQES` -/
  maxWqes : Nat
  /-- `MAX_SGE` -/
  maxSge : Nat
  /-- `MAX_SRQ_SGE` -/
  maxSrqSge : Nat
  /-- `MAX_SRQ_WQES` -/
  maxSrqWqes : Nat
  /-- `MAX_INLINE` -/
  maxInline : Nat
  /-- `MAX_CQES` -/
  maxCqes : Nat
  /-- `NUM_PORTS` -/
  numPorts : Nat
  /-- `PKEY_TABLE_LEN` -/
  pkeyTableLen : Nat
  /-- `MAX_QP_INIT_RDMA` -/
  maxQpInitRdma : Nat
  /-- `MAX_QP_RESP_RDMA` -/
  maxQpRespRdma : Nat
  /-- `QP0_OF(p)` for `p = 1, 2, …, NUM_PORTS` -/
  qp0Of : List Num24
  /-- `DB_REC_COUNT` -/
  dbRecCount : Nat
  /-- `MAX_WR_LIST` -/
  maxWrList : Nat
  /-- `LEGACY_SEND_DB_BATCH` -/
  legacySendDbBatch : Nat
  /-- `LEGACY_RECV_DB_BATCH` -/
  legacyRecvDbBatch : Nat
  /-- `MF_SEND_DB_BATCH` -/
  mfSendDbBatch : Nat
  /-- `MF_RECV_MMIO`; R255: "A model with `MF_RECV_MMIO = true` is outside this spec" (Config.wf) -/
  mfRecvMmio : Bool
  /-- `MIN_WQE_SHIFT` -/
  minWqeShift : Nat
  /-- `SEND_DB_OFF` -/
  sendDbOff : BitVec 8
  /-- `RECV_DB_OFF` -/
  recvDbOff : BitVec 8
  /-- `CQ_DB_OFF` -/
  cqDbOff : BitVec 8
  /-- `LEGALITY_TABLE` (R151); a (current, requested, transport) triple without a row is `invalid` -/
  legality : List LegalityRow
  /-- `OPTPAR_MAP` (R163); an attribute without an entry maps to 0 -/
  optpar : List (Attr × Word)
  /-- `SYNDROME_TABLE` (R131); a syndrome without an entry maps to `GENERAL_ERR` -/
  syndromes : List (Byte × CompStatus)
  /-- `POST_STATE_OK(_, send)` (R212) -/
  postSendStates : List QpState
  /-- `POST_STATE_OK(_, receive)` (R212) -/
  postRecvStates : List QpState
  deriving DecidableEq, Repr, Inhabited

end Sys2Proof
end

