-- ==== Sys2Proof/Decode.lean ====
section
/-! DEFINITION. The decoder, total on any bytes and rejecting by name, and the encoder, both written from the encoding tables
of spec/30_encoding.md. The core has no instruction memory (R21): a word reaches it on one of several inputs, and the format
of a word is that of the input it comes in on. So the decoder takes the format and the bytes; every word is laid out most
significant byte first (R72). -/

namespace Sys2Proof

/-! ### Words and bytes (R72: big-endian) -/

/-- The four bytes of a word, most significant first (R72). -/
def wordBytes (w : Word) : List Byte :=
  [w.extractLsb' 24 8, w.extractLsb' 16 8, w.extractLsb' 8 8, w.extractLsb' 0 8]

/-- The word whose bytes are `a b c d`, most significant first (R72). -/
def bytesWord (a b c d : Byte) : Word := a ++ b ++ c ++ d

/-- One bit of a Bool. -/
def bit (b : Bool) : BitVec 1 := BitVec.ofBool b

/-! ### Formats -/

/-- The format of a word: the input it comes in on. A CQE opcode byte is read with the send flag of its CQE (R123), a
doorbell with the protocol and the register it is written to (R250, R435), a doorbell record with its index (R130). -/
inductive Format where
  | command
  | sendWr
  | link
  | cqe (isSend : Bool)
  | event
  | doorbell (mode : Mode) (reg : DbReg)
  | dbrec (r : Word)
  deriving DecidableEq, Repr, Inhabited

/-- Why the decoder refuses bytes. -/
inductive DecodeError where
  /-- the format's word has another number of bytes -/
  | wrongLength
  /-- a work-request opcode has three bits (R107) and the byte has more -/
  | fieldTooWide
  /-- a 6-bit WQE opcode that R118 reserves and the opcode table does not list -/
  | reservedLinkOpcode
  /-- no doorbell of this protocol and register has these words (R126 to R130) -/
  | noSuchDoorbell
  deriving DecidableEq, Repr, Inhabited

/-! ### The decoder -/

/-- `i` where `sol` is clear; a command with `sol` set that is not `REQ_NOTIFY_CQ` is illegal (R101, R110). -/
def unlessSol (w : Word) (i : Instr) : Instr :=
  if w.getLsbD 8 then .illegalCommand w else i

/-- The command word (R101, R104, R110): every word is some command or `ILLEGAL_COMMAND`. -/
def decodeCommand (w : Word) : Instr :=
  if w.extractLsb' 9 23 ≠ 0 then .illegalCommand w
  else match (w.extractLsb' 0 8).toNat with
    | 0x01 => unlessSol w .deviceStart
    | 0x02 => unlessSol w .deviceStop
    | 0x10 => unlessSol w .createQp
    | 0x11 => unlessSol w .modifyQp
    | 0x12 => unlessSol w .queryQp
    | 0x13 => unlessSol w .destroyQp
    | 0x14 => unlessSol w .postSend
    | 0x15 => unlessSol w .postRecv
    | 0x20 => unlessSol w .createCq
    | 0x21 => unlessSol w .pollCq
    | 0x22 => .reqNotifyCq (w.getLsbD 8)
    | 0x23 => unlessSol w .destroyCq
    | 0x30 => unlessSol w .createSrq
    | 0x31 => unlessSol w .postSrqRecv
    | 0x32 => unlessSol w .destroySrq
    | _ => .illegalCommand w

/-- The send work-request opcode (R108), one byte of which the low three bits are the field. -/
def decodeSendWr (b : Byte) : Except DecodeError Instr :=
  match b.toNat with
  | 0 => .ok .wrRdmaWrite
  | 1 => .ok .wrRdmaWriteImm
  | 2 => .ok .wrSend
  | 3 => .ok .wrSendImm
  | 4 => .ok .wrRdmaRead
  | 5 => .ok .wrAtomicCs
  | 6 => .ok .wrAtomicFa
  | 7 => .ok .wrReserved7
  | _ => .error .fieldTooWide

/-- The `nda_op` word of a link (R112, R118). -/
def decodeLink (w : Word) : Except DecodeError Instr :=
  let nda := w.extractLsb' 6 26
  match (w.extractLsb' 0 6).toNat with
  | 0x00 => .ok (.wqeOpNop nda)
  | 0x01 => .ok (.wqeOpRecvLink nda)
  | 0x08 => .ok (.wqeOpRdmaWrite nda)
  | 0x09 => .ok (.wqeOpRdmaWriteImm nda)
  | 0x0A => .ok (.wqeOpSend nda)
  | 0x0B => .ok (.wqeOpSendImm nda)
  | 0x10 => .ok (.wqeOpRdmaRead nda)
  | 0x11 => .ok (.wqeOpAtomicCs nda)
  | 0x12 => .ok (.wqeOpAtomicFa nda)
  | _ => .error .reservedLinkOpcode

/-- The opcode byte of a success send CQE (R124). -/
def decodeSendCqe (b : Byte) : Instr :=
  match b.toNat with
  | 0x08 => .cqeSend08
  | 0x09 => .cqeSend09
  | 0x0A => .cqeSend0A
  | 0x0B => .cqeSend0B
  | 0x10 => .cqeSend10
  | 0x11 => .cqeSend11
  | 0x12 => .cqeSend12
  | 0x18 => .cqeSend18
  | _ => .cqeSendOther b

/-- The opcode byte of a success receive CQE (R125: bits 4 to 0 select). -/
def decodeRecvCqe (b : Byte) : Instr :=
  let hi := b.extractLsb' 5 3
  match (b.extractLsb' 0 5).toNat with
  | 0x03 => .cqeRecv03 hi
  | 0x05 => .cqeRecv05 hi
  | 0x09 => .cqeRecv09 hi
  | 0x0B => .cqeRecv0B hi
  | _ => .cqeRecvOther b

/-- The opcode byte of a CQE (R123): an error byte has its bits 7 to 1 all set and carries its own send bit. -/
def decodeCqe (isSend : Bool) (b : Byte) : Instr :=
  if b &&& 0xFE = 0xFE then .cqeError (b.getLsbD 0)
  else if isSend then decodeSendCqe b else decodeRecvCqe b

/-- The event word (R140): word 1 matters to QP events alone, and of it bits 7 to 0. -/
def decodeEvent (w0 w1 : Word) : Instr :=
  match (w0.extractLsb' 24 8).toNat with
  | 0x80 => .eventCompletion (w0.extractLsb' 0 24)
  | 0x81 => .eventQp (w0.extractLsb' 0 24) (w1.extractLsb' 0 8)
  | 0x82 => .eventFatal
  | _ => .eventOther (w0.extractLsb' 24 8)

/-- A doorbell of the legacy protocol (R126 to R128). -/
def decodeLegacyDoorbell (reg : DbReg) (w0 w1 : Word) : Except DecodeError Instr :=
  match reg with
  | .send => .ok (.dbLegacySend (w0.extractLsb' 6 26) (w0.getLsbD 5) (w0.extractLsb' 0 5)
      (w1.extractLsb' 8 24) (w1.extractLsb' 0 8))
  | .recv =>
    if w0.extractLsb' 0 6 = 0 then
      .ok (.dbLegacySrq (w0.extractLsb' 6 26) (w1.extractLsb' 8 24) (w1.extractLsb' 0 8))
    else
      .ok (.dbLegacyRecv (w0.extractLsb' 6 26) (w0.extractLsb' 0 6) (w1.extractLsb' 8 24) (w1.extractLsb' 0 8))
  | .cq =>
    match (w0.extractLsb' 24 8).toNat with
    | 1 => .ok (.dbLegacyCqInc (w0.extractLsb' 0 24) w1)
    | 2 => if w1 = 0xFFFFFFFF then .ok (.dbLegacyCqArm false (w0.extractLsb' 0 24)) else .error .noSuchDoorbell
    | 3 => if w1 = 0xFFFFFFFF then .ok (.dbLegacyCqArm true (w0.extractLsb' 0 24)) else .error .noSuchDoorbell
    | _ => .error .noSuchDoorbell

/-- A doorbell of the memory-free protocol (R129): sends and CQ arms alone ring one. -/
def decodeMemfreeDoorbell (reg : DbReg) (w0 w1 : Word) : Except DecodeError Instr :=
  match reg with
  | .send =>
    if w0.extractLsb' 6 2 = 0 then
      .ok (.dbMemfreeSend (w0.extractLsb' 24 8) (w0.extractLsb' 8 16) (w0.getLsbD 5) (w0.extractLsb' 0 5)
        (w1.extractLsb' 8 24) (w1.extractLsb' 0 8))
    else .error .noSuchDoorbell
  | .recv => .error .noSuchDoorbell
  | .cq =>
    if w0.extractLsb' 30 2 = 0 then
      match (w0.extractLsb' 24 4).toNat with
      | 1 => .ok (.dbMemfreeCqArm (w0.extractLsb' 28 2) true (w0.extractLsb' 0 24) w1)
      | 2 => .ok (.dbMemfreeCqArm (w0.extractLsb' 28 2) false (w0.extractLsb' 0 24) w1)
      | _ => .error .noSuchDoorbell
    else .error .noSuchDoorbell

/-- The decoder, on a two-word form. -/
def decodePair (f : Format) (w0 w1 : Word) : Except DecodeError Instr :=
  match f with
  | .event => .ok (decodeEvent w0 w1)
  | .doorbell .legacy reg => decodeLegacyDoorbell reg w0 w1
  | .doorbell .memfree reg => decodeMemfreeDoorbell reg w0 w1
  | .dbrec r => .ok (.dbrecMemfree r w0 (w1.extractLsb' 8 24) (w1.extractLsb' 5 3) (w1.extractLsb' 0 5))
  | _ => .error .wrongLength

/-- The decoder: the instruction that the bytes stand for on an input of the format, or why there is none. -/
def decode (f : Format) (bytes : List Byte) : Except DecodeError Instr :=
  match bytes with
  | [a] =>
    match f with
    | .sendWr => decodeSendWr a
    | .cqe isSend => .ok (decodeCqe isSend a)
    | _ => .error .wrongLength
  | [a, b, c, d] =>
    match f with
    | .command => .ok (decodeCommand (bytesWord a b c d))
    | .link => decodeLink (bytesWord a b c d)
    | _ => .error .wrongLength
  | [a, b, c, d, e, g, h, i] => decodePair f (bytesWord a b c d) (bytesWord e g h i)
  | _ => .error .wrongLength

/-! ### The encoder -/

/-- The `nda_op` word of a link: the next WQE's offset in bits 31 to 6, its opcode in bits 5 to 0 (R112). -/
def linkWord (nda : BitVec 26) (op : BitVec 6) : Word := nda ++ op

/-- The two words of an event (R140). -/
def eventWords (kind : Byte) (num : Num24) (ty : Byte) : Word × Word := (kind ++ num, ty.setWidth 32)

/-- The command word of a command (R101, R104). -/
def commandWord (sol : Bool) (opc : BitVec 8) : Word := (0 : BitVec 23) ++ bit sol ++ opc

/-- The two words of a doorbell or a doorbell record (R126 to R130); the pair (0, 0) for what is neither. -/
def doorbellWords (i : Instr) : Word × Word :=
  match i with
  | .dbLegacySend wqe fence op qpn size => (wqe ++ bit fence ++ op, qpn ++ size)
  | .dbLegacyRecv wqe size qpn n => (wqe ++ size, qpn ++ n)
  | .dbLegacySrq wqe srqn n => (wqe ++ (0 : BitVec 6), srqn ++ n)
  | .dbLegacyCqInc cqn c => ((1 : BitVec 8) ++ cqn, c)
  | .dbLegacyCqArm sol cqn => ((if sol then (3 : BitVec 8) else 2) ++ cqn, 0xFFFFFFFF)
  | .dbMemfreeSend n head0 fence op qpn size => (n ++ head0 ++ (0 : BitVec 2) ++ bit fence ++ op, qpn ++ size)
  | .dbMemfreeCqArm sn sol cqn ci => ((0 : BitVec 2) ++ sn ++ (if sol then (1 : BitVec 4) else 2) ++ cqn, ci)
  | .dbrecMemfree _ word0 num ty low => (word0, num ++ ty ++ low)
  | _ => (0, 0)

/-- Both words of a pair, laid out. -/
def pairBytes (p : Word × Word) : List Byte := wordBytes p.1 ++ wordBytes p.2

/-- The opcode byte of a CQE row (R123 to R125). -/
def cqeOpcode (i : Instr) : Byte :=
  match i with
  | .cqeError send => if send then 0xFF else 0xFE
  | .cqeSend08 => 0x08
  | .cqeSend09 => 0x09
  | .cqeSend0A => 0x0A
  | .cqeSend0B => 0x0B
  | .cqeSend10 => 0x10
  | .cqeSend11 => 0x11
  | .cqeSend12 => 0x12
  | .cqeSend18 => 0x18
  | .cqeSendOther b => b
  | .cqeRecv03 hi => hi ++ (0x03 : BitVec 5)
  | .cqeRecv05 hi => hi ++ (0x05 : BitVec 5)
  | .cqeRecv09 hi => hi ++ (0x09 : BitVec 5)
  | .cqeRecv0B hi => hi ++ (0x0B : BitVec 5)
  | .cqeRecvOther b => b
  | _ => 0

/-- The 6-bit WQE opcode of a link row (R118). -/
def linkOpcode (i : Instr) : BitVec 6 :=
  match i with
  | .wqeOpRecvLink _ => 0x01
  | .wqeOpRdmaWrite _ => 0x08
  | .wqeOpRdmaWriteImm _ => 0x09
  | .wqeOpSend _ => 0x0A
  | .wqeOpSendImm _ => 0x0B
  | .wqeOpRdmaRead _ => 0x10
  | .wqeOpAtomicCs _ => 0x11
  | .wqeOpAtomicFa _ => 0x12
  | _ => 0x00

/-- The encoder: the format of an instruction and its bytes. -/
def encode (i : Instr) : Format × List Byte :=
  match i with
  | .deviceStart => (.command, wordBytes (commandWord false 0x01))
  | .deviceStop => (.command, wordBytes (commandWord false 0x02))
  | .createQp => (.command, wordBytes (commandWord false 0x10))
  | .modifyQp => (.command, wordBytes (commandWord false 0x11))
  | .queryQp => (.command, wordBytes (commandWord false 0x12))
  | .destroyQp => (.command, wordBytes (commandWord false 0x13))
  | .postSend => (.command, wordBytes (commandWord false 0x14))
  | .postRecv => (.command, wordBytes (commandWord false 0x15))
  | .createCq => (.command, wordBytes (commandWord false 0x20))
  | .pollCq => (.command, wordBytes (commandWord false 0x21))
  | .reqNotifyCq sol => (.command, wordBytes (commandWord sol 0x22))
  | .destroyCq => (.command, wordBytes (commandWord false 0x23))
  | .createSrq => (.command, wordBytes (commandWord false 0x30))
  | .postSrqRecv => (.command, wordBytes (commandWord false 0x31))
  | .destroySrq => (.command, wordBytes (commandWord false 0x32))
  | .illegalCommand w => (.command, wordBytes w)
  | .wrRdmaWrite => (.sendWr, [0])
  | .wrRdmaWriteImm => (.sendWr, [1])
  | .wrSend => (.sendWr, [2])
  | .wrSendImm => (.sendWr, [3])
  | .wrRdmaRead => (.sendWr, [4])
  | .wrAtomicCs => (.sendWr, [5])
  | .wrAtomicFa => (.sendWr, [6])
  | .wrReserved7 => (.sendWr, [7])
  | .wqeOpNop nda => (.link, wordBytes (linkWord nda 0x00))
  | .wqeOpRecvLink nda => (.link, wordBytes (linkWord nda 0x01))
  | .wqeOpRdmaWrite nda => (.link, wordBytes (linkWord nda 0x08))
  | .wqeOpRdmaWriteImm nda => (.link, wordBytes (linkWord nda 0x09))
  | .wqeOpSend nda => (.link, wordBytes (linkWord nda 0x0A))
  | .wqeOpSendImm nda => (.link, wordBytes (linkWord nda 0x0B))
  | .wqeOpRdmaRead nda => (.link, wordBytes (linkWord nda 0x10))
  | .wqeOpAtomicCs nda => (.link, wordBytes (linkWord nda 0x11))
  | .wqeOpAtomicFa nda => (.link, wordBytes (linkWord nda 0x12))
  | .cqeError send => (.cqe send, [cqeOpcode (.cqeError send)])
  | .cqeSend08 => (.cqe true, [cqeOpcode .cqeSend08])
  | .cqeSend09 => (.cqe true, [cqeOpcode .cqeSend09])
  | .cqeSend0A => (.cqe true, [cqeOpcode .cqeSend0A])
  | .cqeSend0B => (.cqe true, [cqeOpcode .cqeSend0B])
  | .cqeSend10 => (.cqe true, [cqeOpcode .cqeSend10])
  | .cqeSend11 => (.cqe true, [cqeOpcode .cqeSend11])
  | .cqeSend12 => (.cqe true, [cqeOpcode .cqeSend12])
  | .cqeSend18 => (.cqe true, [cqeOpcode .cqeSend18])
  | .cqeSendOther b => (.cqe true, [cqeOpcode (.cqeSendOther b)])
  | .cqeRecv03 hi => (.cqe false, [cqeOpcode (.cqeRecv03 hi)])
  | .cqeRecv05 hi => (.cqe false, [cqeOpcode (.cqeRecv05 hi)])
  | .cqeRecv09 hi => (.cqe false, [cqeOpcode (.cqeRecv09 hi)])
  | .cqeRecv0B hi => (.cqe false, [cqeOpcode (.cqeRecv0B hi)])
  | .cqeRecvOther b => (.cqe false, [cqeOpcode (.cqeRecvOther b)])
  | .eventCompletion num => (.event, pairBytes (eventWords 0x80 num 0))
  | .eventQp num ty => (.event, pairBytes (eventWords 0x81 num ty))
  | .eventFatal => (.event, pairBytes (eventWords 0x82 0 0))
  | .eventOther kind => (.event, pairBytes (eventWords kind 0 0))
  | .dbLegacySend wqe fence op qpn size =>
      (.doorbell .legacy .send, pairBytes (doorbellWords (.dbLegacySend wqe fence op qpn size)))
  | .dbLegacyRecv wqe size qpn n =>
      (.doorbell .legacy .recv, pairBytes (doorbellWords (.dbLegacyRecv wqe size qpn n)))
  | .dbLegacySrq wqe srqn n => (.doorbell .legacy .recv, pairBytes (doorbellWords (.dbLegacySrq wqe srqn n)))
  | .dbLegacyCqInc cqn c => (.doorbell .legacy .cq, pairBytes (doorbellWords (.dbLegacyCqInc cqn c)))
  | .dbLegacyCqArm sol cqn => (.doorbell .legacy .cq, pairBytes (doorbellWords (.dbLegacyCqArm sol cqn)))
  | .dbMemfreeSend n head0 fence op qpn size =>
      (.doorbell .memfree .send, pairBytes (doorbellWords (.dbMemfreeSend n head0 fence op qpn size)))
  | .dbMemfreeCqArm sn sol cqn ci =>
      (.doorbell .memfree .cq, pairBytes (doorbellWords (.dbMemfreeCqArm sn sol cqn ci)))
  | .dbrecMemfree r word0 num ty low =>
      (.dbrec r, pairBytes (doorbellWords (.dbrecMemfree r word0 num ty low)))

/-! ### The words of the opcode table -/

/-- The 32-bit word of a table row: a command where it is one, else an event of kinds 0x80 to 0x82, else a link word, else
an illegal command. A number alone does not say which input a word comes in on: this order is a convention of the model
(notes/assumptions/4.md). -/
def tableWord32 (w : Word) : Format × List Byte :=
  match decodeCommand w with
  | .illegalCommand _ =>
    match decodeEvent w 0 with
    | .eventOther _ =>
      match decodeLink w with
      | .ok _ => (.link, wordBytes w)
      | .error _ => (.command, wordBytes w)
    | _ => (.event, pairBytes (w, 0))
  | _ => (.command, wordBytes w)

/-- The 8-bit word of a table row: a work-request opcode where it is one, else a send CQE opcode byte
(notes/assumptions/4.md). -/
def tableWord8 (b : Byte) : Format × List Byte :=
  match decodeSendWr b with
  | .ok _ => (.sendWr, [b])
  | .error _ => (.cqe true, [b])

/-- The format and the bytes of a table word of `nbits` bits: 8 or fewer, 32 or fewer, or more (two words, the first in the
low bits: an event where its kind is one, and otherwise nothing). -/
def tableFormat (nbits w : Nat) : Format × List Byte :=
  if nbits ≤ 8 then tableWord8 (BitVec.ofNat 8 w)
  else if nbits ≤ 32 then tableWord32 (BitVec.ofNat 32 w)
  else (.event, pairBytes (BitVec.ofNat 32 w, BitVec.ofNat 32 (w / 4294967296)))

/-- The instruction the decoder reads from a word of spec/opcode_table.json. -/
def decodeTableWord (nbits w : Nat) : Option Instr :=
  match decode (tableFormat nbits w).1 (tableFormat nbits w).2 with
  | .ok i => some i
  | .error _ => none

end Sys2Proof
end

