-- ==== Sys2Proof/WellFormed.lean ====
section
/-! DEFINITION. When an instruction is well formed (the checks its constructor's types do not already make), when an operand
record is (the lengths of R103 and R107), and when the parameters are (the constraints of R7). -/

namespace Sys2Proof

/-- The opcode bytes with a row of their own in R124. -/
def listedSendCqe : List Byte := [0x08, 0x09, 0x0A, 0x0B, 0x10, 0x11, 0x12, 0x18]

/-- The values of bits 4 to 0 with a row of their own in R125. -/
def listedRecvCqe : List (BitVec 5) := [0x03, 0x05, 0x09, 0x0B]

/-- Is `w` a command word (R101, R104)? -/
def isCommandWord (w : Word) : Bool :=
  match decodeCommand w with
  | .illegalCommand _ => false
  | _ => true

/-- The well-formed instructions: an `OTHER` row holds no word of another row, an illegal command is no command, and a
legacy receive doorbell names a WQE size of at least one unit (R119). -/
def Instr.wf (i : Instr) : Bool :=
  match i with
  | .illegalCommand w => !isCommandWord w
  | .cqeSendOther b => !decide (b ∈ listedSendCqe) && decide (b &&& 0xFE ≠ 0xFE)
  | .cqeRecvOther b => !decide (b.extractLsb' 0 5 ∈ listedRecvCqe) && decide (b &&& 0xFE ≠ 0xFE)
  | .eventOther kind => decide (kind ≠ 0x80 ∧ kind ≠ 0x81 ∧ kind ≠ 0x82)
  | .dbLegacyRecv _ size _ _ => decide (size ≠ 0)
  | _ => true

/-- The operand records a requester can write (R103, R107): list lengths are what their fields can express. -/
def Operands.wf (cfg : Config) (op : Operands) : Bool :=
  decide (op.sendWrs.length ≤ cfg.maxWrList) && decide (op.recvWrs.length ≤ cfg.maxWrList)
    && op.sendWrs.all (fun wr => decide (wr.sg.length < 256))
    && op.recvWrs.all (fun wr => decide (wr.sg.length < 256))

/-- Is `n` a power of two (R7)? -/
def isPow2 (n : Nat) : Bool := decide (n ≠ 0 ∧ 2 ^ Nat.log2 n = n)

/-- Has a legality table a row for a pair of states on every transport? -/
def legalOnAll (l : List LegalityRow) (cur new : QpState) : Bool :=
  [Transport.rc, .uc, .ud, .mlx].all fun t => l.any fun r => decide (r.cur = cur ∧ r.new = new ∧ r.transport = t)

/-- The conditions (a) to (f) that R153 puts on every `LEGALITY_TABLE`, in its order. `DEST_QPN` is mask bit 20, `STATE` bit 0
(R105). -/
def legalityOk (l : List LegalityRow) : Bool :=
  [(QpState.reset, QpState.init), (.init, .rtr), (.rtr, .rts), (.rts, .sqd), (.sqd, .rts), (.sqe, .rts)].all
      (fun e => legalOnAll l e.1 e.2)
    && [QpState.reset, .init, .rtr, .rts, .sqd, .sqe, .err].all (fun st => legalOnAll l st .reset && legalOnAll l st .err)
    && l.all (fun r => decide (r.cur = .err → r.new = .reset ∨ r.new = .err))
    && l.all (fun r => decide (r.cur = .init ∧ r.new = .rtr ∧ r.transport = .rc → r.required.getLsbD 20 = true))
    && l.all (fun r => decide ((r.required ||| r.opt) &&& 0xFFE00001 = 0))
    && l.all (fun r => decide (r.required &&& r.opt = 0))

/-- The constraints R7, R153, R255, R465 and R468 put on the parameters, in a mode. -/
def Config.wf (cfg : Config) (mode : Mode) : Bool :=
  decide (cfg.hostAddrBits ≤ 64) && isPow2 cfg.numQps && isPow2 cfg.numCqs && isPow2 cfg.numSrqs
    && decide (cfg.numQps ≤ 2 ^ 24 ∧ cfg.numCqs ≤ 2 ^ 24 ∧ cfg.numSrqs ≤ 2 ^ 24)
    && decide (2 ^ cfg.shardShift ≤ cfg.numQps ∧ 2 ^ cfg.shardShift ≤ cfg.numCqs ∧ 2 ^ cfg.shardShift ≤ cfg.numSrqs)
    && (match mode with
        | .memfree => decide (cfg.maxWqes ≤ 65536 ∧ cfg.maxSrqWqes ≤ 65536)
        | .legacy => decide (cfg.maxWqes ≤ 2 ^ 20 ∧ cfg.maxSrqWqes ≤ 2 ^ 20))
    && decide (1 ≤ cfg.legacySendDbBatch ∧ 1 ≤ cfg.legacyRecvDbBatch ∧ cfg.legacyRecvDbBatch ≤ 256)
    && decide (1 ≤ cfg.mfSendDbBatch ∧ cfg.mfSendDbBatch ≤ 255)
    && decide (6 ≤ cfg.minWqeShift ∧ cfg.qp0Of.length = cfg.numPorts)
    && !cfg.mfRecvMmio && legalityOk cfg.legality

end Sys2Proof
end

