-- ==== Sys2Proof/Machine/Objects.lean ====
section
/-! DEFINITION. The records of the machine's objects (spec/10_state.md R23 to R45), the response and completion records
(spec/30_encoding.md R102, R134), the per-agent record of a command in progress (R20, R21, R252), the traces of what the core
puts out, the inputs it takes, and the two OPEN function parameters of R7. Slot counts and slot indices that the spec gives
32 bits are natural numbers here: every rule keeps them below a capacity of at most 2^20 (R468); what wraps is a bit vector. -/

namespace Sys2Proof.Machine

open Sys2Proof

/-- An entry of a lookup table (R23): the generation, and while the entry is live the number and the object that occupy it.
The object is named by its place in the arena of its kind (R24: "index into the relevant arena"). -/
structure Occupant where
  num : Num24
  obj : Nat
  deriving DecidableEq, Repr, Inhabited

/-- An entry of a lookup table (R23); it is live exactly when it is occupied. -/
structure Entry where
  gen : BitVec 32 := 0
  occ : Option Occupant := none
  deriving DecidableEq, Repr, Inhabited

/-- A lock of the core (R50, R30, R25, R40, R45, R22): of a QP (modify, send ring, receive ring), of a CQ, of an SRQ, of a
shard of a lookup table, or of the doorbell-record table. Objects are named by their arena index. -/
inductive Lock where
  | mlock (q : Nat)
  | sq (q : Nat)
  | rq (q : Nat)
  | cq (c : Nat)
  | srq (r : Nat)
  | shard (k : Kind) (sh : Nat)
  | dbRec
  deriving DecidableEq, Repr, Inhabited

/-- A ring (R31). An element of `wrid` that no post has written holds no value (R34). The fields from `live` on are the model's
own; they number the WQEs from 1 on since the last reset of the ring: how many have a live link to them (R222 step 7), the first one
that the device may read, 0 for none (R86), how many it has passed in the completions it has reported (R85), where the newest error
CQE that waits stands in its chain, as the number of a WQE and a doorbell credit (R308), and the WQE opcode of each slot, which the
device echoes (R242). -/
structure Ring where
  capacity : Nat := 0
  shift    : Nat := 0
  maxGs    : Nat := 0
  head     : Word := 0
  tail     : Word := 0
  lastComp : Nat := 0
  nextInd  : Nat := 0
  lastIdx  : Nat := 0
  wrid     : List (Option (BitVec 64)) := []
  live     : Nat := 0
  first    : Nat := 0
  devDone  : Nat := 0
  chain    : Option (Nat × Nat) := none
  ops      : List (BitVec 6) := []
  deriving DecidableEq, Repr, Inhabited

/-- A Queue Pair (R25). `self` and `srqDone` are the model's own: the handle the lookup table gave the object, which completion
records and events report (R134, R425), and which post of its SRQ the device last completed for the QP (R85). -/
structure Qp where
  self          : Handle := {}
  qpn           : Num24 := 0
  transport     : Transport := .rc
  state         : QpState := .reset
  port          : BitVec 8 := 0
  accessFlags   : BitVec 8 := 0
  respDepth     : BitVec 8 := 0
  attrCache     : List (Attr × BitVec 320) := []
  pd            : Word := 0
  sendCq        : Handle := {}
  recvCq        : Handle := {}
  srq           : Option Handle := none
  sigAll        : Bool := false
  maxInline     : Word := 0
  bufBase       : BitVec 64 := 0
  sendWqeOffset : Nat := 0
  sq            : Ring := {}
  rq            : Ring := {}
  sqDbRec       : Option Nat := none
  rqDbRec       : Option Nat := none
  refcount      : Nat := 0
  srqDone       : Nat := 0
  deriving DecidableEq, Repr, Inhabited

/-- An arm of a CQ as the device has it (R262, R263): solicited only or not, in `MEMFREE` its sequence number, and, once the
device has taken it, whether a CQE that satisfies a solicited-only arm has come. -/
structure Arm where
  sol : Bool := false
  sn  : Option (BitVec 2) := none
  met : Bool := false
  deriving DecidableEq, Repr, Inhabited

/-- A Completion Queue (R40). `self` and the fields from `devProd` on are the model's own: the handle the lookup table gave the
object, the device's producer index (R87), the consumer index published to it (R89: it frees slots up to that), the arms issued
that it has not taken yet, the arm it holds, and its sequence number of the CQ (R263). -/
structure Cq where
  self         : Handle := {}
  cqn          : Num24 := 0
  capacity     : Nat := 0
  bufBase      : BitVec 64 := 0
  consIndex    : Word := 0
  armSn        : Word := 0
  setCiRec     : Option Nat := none
  armRec       : Option Nat := none
  attach       : Nat := 0
  decodeErrors : Word := 0
  devProd      : Word := 0
  devCons      : Word := 0
  arms         : List Arm := []
  armed        : Option Arm := none
  devSn        : Word := 1
  deriving DecidableEq, Repr, Inhabited

/-- A Shared Receive Queue (R45). The end sentinel -1 of the free list is `none`. `self` is the model's own, as in Qp; so are
`live`, how many WQEs have had a live link to them, `first`, the number of the first that the device may read, 0 for none (R86), and
`queue`, the slots of the live WQEs whose completion the device has not reported, oldest first, each with the number of its WQE from
1 on (R85). -/
structure Srq where
  self        : Handle := {}
  srqn        : Num24 := 0
  pd          : Word := 0
  capacity    : Nat := 0
  shift       : Nat := 0
  maxGs       : Nat := 0
  bufBase     : BitVec 64 := 0
  freeHead    : Option Nat := none
  freeTail    : Option Nat := none
  link        : List (Option Nat) := []
  lastIdx     : Nat := 0
  outstanding : Nat := 0
  counter     : BitVec 16 := 0
  wrid        : List (Option (BitVec 64)) := []
  posted      : List Bool := []
  dbRec       : Option Nat := none
  attach      : Nat := 0
  live        : Nat := 0
  first       : Nat := 0
  queue       : List (Nat × Nat) := []
  deriving DecidableEq, Repr, Inhabited

/-- A completion record (R134); a field no rule sets is 0 (R306). -/
structure CompRec where
  wrId       : BitVec 64 := 0
  status     : CompStatus := .success
  type       : CompType := .send
  immPresent : Bool := false
  grh        : Bool := false
  imm        : Word := 0
  byteLen    : Word := 0
  qp         : Handle := {}
  qpn        : Num24 := 0
  srcQp      : Num24 := 0
  slid       : BitVec 16 := 0
  sl         : BitVec 4 := 0
  pathBits   : BitVec 7 := 0
  pkeyIndex  : BitVec 16 := 0
  vendorErr  : Byte := 0
  isSend     : Bool := false
  deriving DecidableEq, Repr, Inhabited

/-- A response record (R102): a field that no rule has written is `none`. -/
structure Response where
  status        : Option Status := none
  badIndex      : Option Word := none
  qp            : Option Handle := none
  cq            : Option Handle := none
  srq           : Option Handle := none
  sqCapacity    : Option Nat := none
  rqCapacity    : Option Nat := none
  sqShift       : Option Nat := none
  rqShift       : Option Nat := none
  sendWqeOffset : Option Nat := none
  capacity      : Option Nat := none
  shift         : Option Nat := none
  fwStatus      : Option Byte := none
  portFwStatus  : Option Byte := none
  state         : Option QpState := none
  draining      : Option Bool := none
  port          : Option (BitVec 8) := none
  accessFlags   : Option (BitVec 8) := none
  respDepth     : Option (BitVec 8) := none
  attrCache     : Option (List (Attr × BitVec 320)) := none
  context       : Option (List Byte) := none
  n             : Option Word := none
  wc            : List CompRec := []
  decodeErrors  : Option Word := none
  deriving DecidableEq, Repr, Inhabited

/-- A ring that posts go to. -/
inductive RingRef where
  | sq (q : Nat)
  | rq (q : Nat)
  | srq (r : Nat)
  deriving DecidableEq, Repr, Inhabited

/-- The per-call batch state of the doorbell controller (R252): the WQEs published since the last doorbell, and the slot,
fence, opcode, size and `head` of the first of them. `ring` is `none` outside a post. `num` is the model's own: the number of the
first WQE in its ring (R86). -/
structure Batch where
  ring     : Option RingRef := none
  cnt      : Nat := 0
  firstInd : Nat := 0
  f0       : Bool := false
  op0      : BitVec 6 := 0
  size0    : Nat := 0
  head0    : Word := 0
  num      : Nat := 0
  deriving DecidableEq, Repr, Inhabited

/-- An agent of the core (R78, R436): its operand and response records (R20), the command it has in progress (R21), and what
that command has done so far. `log` holds the answers its steps have had, newest first, and with the operand record it says
where the command stands; `uses` the handles the command resolved (R430), `destroying` those it removed, `racing` those of the
QPs whose `DESTROY_QP` has resolved since the command began (R182), `batch` the doorbell batch of a post, `recs` the doorbell
records a create took, `fwOut` what the firmware returned, `freed` the buffers of the objects a destroy has taken out of their
arenas, which stay mapped until it has returned (R431). -/
structure Agent where
  op         : Operands := {}
  resp       : Response := {}
  cmd        : Option Instr := none
  log        : List Nat := []
  uses       : List Handle := []
  destroying : List Handle := []
  racing     : List Handle := []
  batch      : Batch := {}
  recs       : List Nat := []
  fwOut      : List Byte := []
  freed      : List (Nat × Nat) := []
  deriving DecidableEq, Repr, Inhabited

/-- The arguments of `ENCODE_QP_CONTEXT` (R160). -/
structure ContextArgs where
  transition : Transition
  qpn        : Num24
  transport  : Transport
  new        : QpState
  pd         : Word
  sendCq     : Handle
  recvCq     : Handle
  srq        : Option Handle
  sq         : Ring
  rq         : Ring
  values     : List (Attr × BitVec 320)
  optpar     : Word
  deriving DecidableEq, Repr, Inhabited

/-- A QP-context mailbox image (R160): what it was built from, and its bytes. -/
structure ContextImage where
  args  : ContextArgs
  bytes : List Byte
  deriving DecidableEq, Repr, Inhabited

/-- A call on the mailbox port (R420, R421). `CONF_SPECIAL_QP` is never called. -/
inductive MailboxCall where
  | modifyQp (t : Transition) (qpn : Num24) (image : Option ContextImage)
  | queryQp (qpn : Num24)
  | sw2hwCq (cqn : Num24) (capacity : Nat) (bufBase : BitVec 64) (ciRec armRec : Option Nat)
  | hw2swCq (cqn : Num24)
  | sw2hwSrq (srqn : Num24) (capacity shift : Nat) (bufBase : BitVec 64) (pd : Word) (rec : Option Nat)
  | hw2swSrq (srqn : Num24)
  | initIb (port : BitVec 8)
  | closeIb (port : BitVec 8)
  deriving DecidableEq, Repr, Inhabited

/-- What an agent issues to the host bus, the doorbell window and the mailbox port, in issue order (R79 to R81, R75, R420):
a write of bytes at an address (one aligned write of 1, 2, 4 or 8 bytes, or a run of byte writes, R74), a fill of a buffer
with one byte, a 64-bit doorbell write, the two barriers, and a mailbox call. `commandEnd` marks where a command of the agent
ends: the epochs of R79 order "a later epoch of the same command" only. -/
inductive BusEvent where
  | write (agent addr : Nat) (bytes : List Byte)
  | fill (agent addr len : Nat) (byte : Byte)
  | mmio (agent : Nat) (off : BitVec 8) (w0 w1 : Word)
  | wmb (agent : Nat)
  | rmb (agent : Nat)
  | mailbox (agent : Nat) (call : MailboxCall)
  | commandEnd (agent : Nat)
  deriving DecidableEq, Repr, Inhabited

/-- A record of the event output (R425). -/
inductive EventRec where
  | completion (h : Handle)
  | qpEvent (h : Handle) (ty : Byte)
  | fatal
  deriving DecidableEq, Repr, Inhabited

/-- An answer of the firmware (R420): its status, and the bytes it returns to `QUERY_QP`. -/
structure FwAnswer where
  status : Byte := 0
  out    : List Byte := []
  deriving DecidableEq, Repr, Inhabited

/-- What can arrive at the core, one input a step. The scheduler's choices are inputs too (R351): `slice` is how many steps
of its command the agent may run before another agent runs (`none`: until the command ends or has to wait). -/
inductive Input where
  /-- an agent issues a word, with a new operand record where there is one (R20) -/
  | issue (agent : Nat) (fmt : Format) (bytes : List Byte) (op : Option Operands) (slice : Option Nat)
  /-- an agent whose command stopped at the end of its slice, or that waits, runs on; the idle event agent takes the next event -/
  | resume (agent : Nat) (slice : Option Nat)
  /-- the device raises an event (R140, R423); the event agent starts on it at once where it is idle -/
  | event (bytes : List Byte) (slice : Option Nat)
  /-- the firmware answers a mailbox call (R420) -/
  | firmware (ans : FwAnswer)
  /-- the device writes bytes, from an offset on, of the CQE in the slot at its producer index: any but the owner byte (R87) -/
  | deviceCqe (cqn : Num24) (off : Nat) (bytes : List Byte)
  /-- the device, after its write barrier, writes the owner byte of that slot, and the CQE is the core's (R87) -/
  | deviceOwner (cqn : Num24) (owner : Byte)
  /-- the device takes the `k`th of the arms of a CQ that it has not taken yet (R79: "at any later time"; R263) -/
  | deviceArm (cqn : Num24) (k : Nat)
  /-- a requester writes its own memory (payload, a buffer) -/
  | hostWrite (addr : Nat) (bytes : List Byte)
  /-- a requester comes to own, or gives up, a range of host memory (R430 `BAD_BUFFER`) -/
  | mapRegion (base len : Nat)
  | unmapRegion (base len : Nat)
  /-- a requester takes the oldest record from the event output (R425) -/
  | takeEvent
  deriving DecidableEq, Repr, Inhabited

end Sys2Proof.Machine

namespace Sys2Proof

/-- `ENCODE_QP_CONTEXT` (R7, R160): an OPEN parameter, "an opaque function of its arguments". -/
opaque Config.encodeQpContext : Machine.ContextArgs → List Byte

/-- `MLX_HEADER` (R7, R202): an OPEN parameter. It returns a whole number of 16-byte units, of which the first four count
("at most 64 bytes", Sys2Proof.Machine.mlxUnits). -/
opaque Config.mlxHeader : Machine.Qp → SendWr → List (BitVec 128)

end Sys2Proof
end

