-- ==== Sys2Proof/Machine/Tables.lean ====
section
/-! DEFINITION. The encodings of the enumerations, the default tables of spec/00_scope.md R7 (`LEGALITY_TABLE`, `OPTPAR_MAP`,
`SYNDROME_TABLE`, `POST_STATE_OK`), and the parameter values of spec/95_test_vectors.md section 0. -/

namespace Sys2Proof.Machine

open Sys2Proof

/-! ### Codes of the enumerations -/

/-- The mask bit of an attribute (R105). -/
def attrBit (a : Attr) : Nat :=
  match a with
  | .state => 0
  | .curState => 1
  | .enSqdAsyncNotify => 2
  | .accessFlags => 3
  | .pkeyIndex => 4
  | .port => 5
  | .qkey => 6
  | .av => 7
  | .pathMtu => 8
  | .timeout => 9
  | .retryCnt => 10
  | .rnrRetry => 11
  | .rqPsn => 12
  | .maxQpRdAtomic => 13
  | .altPath => 14
  | .minRnrTimer => 15
  | .sqPsn => 16
  | .maxDestRdAtomic => 17
  | .pathMigState => 18
  | .cap => 19
  | .destQpn => 20

/-- The attributes, in the order of their mask bits (R105). -/
def allAttrs : List Attr :=
  [.state, .curState, .enSqdAsyncNotify, .accessFlags, .pkeyIndex, .port, .qkey, .av, .pathMtu, .timeout, .retryCnt,
   .rnrRetry, .rqPsn, .maxQpRdAtomic, .altPath, .minRnrTimer, .sqPsn, .maxDestRdAtomic, .pathMigState, .cap, .destQpn]

/-- The mask of a list of attributes. -/
def maskOf (l : List Attr) : Word := l.foldr (fun a m => m ||| (1#32 <<< attrBit a)) 0

/-- Is the mask bit of the attribute set? -/
def hasAttr (mask : Word) (a : Attr) : Bool := mask.getLsbD (attrBit a)

/-- The code of a QP state (R27). -/
def qpStateCode (st : QpState) : Nat :=
  match st with
  | .reset => 0
  | .init => 1
  | .rtr => 2
  | .rts => 3
  | .sqd => 4
  | .sqe => 5
  | .err => 6
  | .draining => 7

/-- The QP state of a code (R27); codes have three bits. -/
def qpStateOf (n : Nat) : QpState :=
  match n with
  | 0 => .reset
  | 1 => .init
  | 2 => .rtr
  | 3 => .rts
  | 4 => .sqd
  | 5 => .sqe
  | 6 => .err
  | _ => .draining

/-- The code of a mode (R103: "0 = LEGACY, 1 = MEMFREE"). -/
def modeCode (m : Mode) : BitVec 1 :=
  match m with
  | .legacy => 0
  | .memfree => 1

/-- The mode of a code (R103). -/
def modeOf (c : BitVec 1) : Mode := if c = 0 then .legacy else .memfree

/-- The code of a transport (R28). -/
def transportCode (t : Transport) : BitVec 2 :=
  match t with
  | .rc => 0
  | .uc => 1
  | .ud => 2
  | .mlx => 3

/-- The code of a command status (R400). -/
def statusCode (st : Status) : BitVec 8 :=
  match st with
  | .ok => 0
  | .illegalCommand => 1
  | .notStarted => 2
  | .alreadyStarted => 3
  | .invalidHandle => 4
  | .outOfRange => 5
  | .invalidTransition => 6
  | .missingAttr => 7
  | .extraAttr => 8
  | .invalidQpState => 9
  | .queueFull => 10
  | .tooManySge => 11
  | .inlineTooLong => 12
  | .invalidOpcode => 13
  | .noResources => 14
  | .busy => 15
  | .mailboxFail => 16
  | .deviceFatal => 17

/-- The code of a completion status (R132). -/
def compStatusCode (st : CompStatus) : BitVec 8 :=
  match st with
  | .success => 0
  | .locLenErr => 1
  | .locQpOpErr => 2
  | .locEecOpErr => 3
  | .locProtErr => 4
  | .wrFlushErr => 5
  | .mwBindErr => 6
  | .badRespErr => 7
  | .locAccessErr => 8
  | .remInvReqErr => 9
  | .remAccessErr => 10
  | .remOpErr => 11
  | .retryExcErr => 12
  | .rnrRetryExcErr => 13
  | .locRddViolErr => 14
  | .remInvRdReqErr => 15
  | .remAbortErr => 16
  | .invEecnErr => 17
  | .invEecStateErr => 18
  | .generalErr => 19

/-- The code of a completion type (R133). -/
def compTypeCode (t : CompType) : BitVec 8 :=
  match t with
  | .send => 0
  | .rdmaWrite => 1
  | .rdmaRead => 2
  | .compSwap => 3
  | .fetchAdd => 4
  | .bindMw => 5
  | .recv => 6
  | .recvRdmaWithImm => 7
  | .none => 255

/-! ### The default tables -/

/-- The four transports. -/
def allTransports : List Transport := [.rc, .uc, .ud, .mlx]

/-- The states a table row may name (R151: RESET to ERR). -/
def tableStates : List QpState := [.reset, .init, .rtr, .rts, .sqd, .sqe, .err]

/-- One row of R152 from its two attribute lists. -/
def legalityRow (cur new : QpState) (t : Transport) (req opt : List Attr) : LegalityRow :=
  { cur, new, transport := t, required := maskOf req, opt := maskOf opt }

/-- The rows "any → RESET" and "any → ERR" of R152. -/
def legalityAny : List LegalityRow :=
  [QpState.reset, QpState.err].flatMap fun new =>
    tableStates.flatMap fun cur => allTransports.map fun t => legalityRow cur new t [] []

/-- The rows of R152 from RESET and INIT. -/
def legalityBringUp : List LegalityRow :=
  [ legalityRow .reset .init .rc [.pkeyIndex, .port, .accessFlags] [],
    legalityRow .reset .init .uc [.pkeyIndex, .port, .accessFlags] [],
    legalityRow .reset .init .ud [.pkeyIndex, .port, .qkey] [],
    legalityRow .reset .init .mlx [.pkeyIndex, .qkey] [.port],
    legalityRow .init .init .rc [] [.pkeyIndex, .port, .accessFlags],
    legalityRow .init .init .uc [] [.pkeyIndex, .port, .accessFlags],
    legalityRow .init .init .ud [] [.pkeyIndex, .port, .qkey],
    legalityRow .init .init .mlx [] [.pkeyIndex, .qkey],
    legalityRow .init .rtr .rc [.av, .pathMtu, .destQpn, .rqPsn, .maxDestRdAtomic, .minRnrTimer]
      [.altPath, .accessFlags, .pkeyIndex],
    legalityRow .init .rtr .uc [.av, .pathMtu, .destQpn, .rqPsn] [.altPath, .accessFlags, .pkeyIndex],
    legalityRow .init .rtr .ud [] [.pkeyIndex, .qkey],
    legalityRow .init .rtr .mlx [] [.pkeyIndex, .qkey] ]

/-- The rows of R152 from RTR and RTS. -/
def legalityRun : List LegalityRow :=
  [ legalityRow .rtr .rts .rc [.timeout, .retryCnt, .rnrRetry, .sqPsn, .maxQpRdAtomic]
      [.curState, .altPath, .accessFlags, .pkeyIndex, .minRnrTimer, .pathMigState],
    legalityRow .rtr .rts .uc [.sqPsn] [.curState, .altPath, .accessFlags, .pkeyIndex, .pathMigState],
    legalityRow .rtr .rts .ud [.sqPsn] [.curState, .qkey],
    legalityRow .rtr .rts .mlx [.sqPsn] [.curState, .qkey],
    legalityRow .rts .rts .rc [] [.curState, .accessFlags, .altPath, .pathMigState, .minRnrTimer],
    legalityRow .rts .rts .uc [] [.curState, .accessFlags, .altPath, .pathMigState],
    legalityRow .rts .rts .ud [] [.curState, .qkey],
    legalityRow .rts .rts .mlx [] [.curState, .qkey],
    legalityRow .rts .sqd .rc [] [.enSqdAsyncNotify],
    legalityRow .rts .sqd .uc [] [.enSqdAsyncNotify],
    legalityRow .rts .sqd .ud [] [.enSqdAsyncNotify],
    legalityRow .rts .sqd .mlx [] [.enSqdAsyncNotify] ]

/-- The rows of R152 from SQD and SQE. -/
def legalityDrain : List LegalityRow :=
  [ legalityRow .sqd .rts .rc [] [.curState, .altPath, .accessFlags, .minRnrTimer, .pathMigState],
    legalityRow .sqd .rts .uc [] [.curState, .altPath, .accessFlags, .pathMigState],
    legalityRow .sqd .rts .ud [] [.curState, .qkey],
    legalityRow .sqd .rts .mlx [] [.curState, .qkey],
    legalityRow .sqd .sqd .rc [] [.av, .timeout, .retryCnt, .rnrRetry, .maxQpRdAtomic, .maxDestRdAtomic, .curState,
      .altPath, .accessFlags, .pkeyIndex, .minRnrTimer, .pathMigState],
    legalityRow .sqd .sqd .uc [] [.av, .curState, .altPath, .accessFlags, .pkeyIndex, .pathMigState],
    legalityRow .sqd .sqd .ud [] [.pkeyIndex, .qkey],
    legalityRow .sqd .sqd .mlx [] [.pkeyIndex, .qkey],
    legalityRow .sqe .rts .rc [] [.curState, .minRnrTimer],
    legalityRow .sqe .rts .uc [] [.curState, .accessFlags],
    legalityRow .sqe .rts .ud [] [.curState, .qkey],
    legalityRow .sqe .rts .mlx [] [.curState, .qkey] ]

/-- The default `LEGALITY_TABLE` (R152). -/
def defaultLegality : List LegalityRow := legalityAny ++ legalityBringUp ++ legalityRun ++ legalityDrain

/-- The default `OPTPAR_MAP` (R163). -/
def defaultOptpar : List (Attr × Word) :=
  [ (.altPath, 0x0001), (.accessFlags, 0x000E), (.pkeyIndex, 0x0010), (.qkey, 0x0020), (.minRnrTimer, 0x0040),
    (.av, 0x0080), (.maxQpRdAtomic, 0x0100), (.maxDestRdAtomic, 0x0200), (.pathMigState, 0x0400), (.port, 0x0800),
    (.retryCnt, 0x1000), (.timeout, 0x4000), (.rnrRetry, 0xA000) ]

/-- The default `SYNDROME_TABLE` (R131). -/
def defaultSyndromes : List (Byte × CompStatus) :=
  [ (0x01, .locLenErr), (0x02, .locQpOpErr), (0x03, .locEecOpErr), (0x04, .locProtErr), (0x05, .wrFlushErr),
    (0x06, .mwBindErr), (0x10, .badRespErr), (0x11, .locAccessErr), (0x12, .remInvReqErr), (0x13, .remAccessErr),
    (0x14, .remOpErr), (0x15, .retryExcErr), (0x16, .rnrRetryExcErr), (0x20, .locRddViolErr),
    (0x21, .remInvRdReqErr), (0x22, .remAbortErr), (0x23, .invEecnErr), (0x24, .invEecStateErr) ]

/-- The default of `POST_STATE_OK` for sends (R212). -/
def defaultPostSendStates : List QpState := [.rts, .sqd, .draining]

/-- The default of `POST_STATE_OK` for receives (R212). -/
def defaultPostRecvStates : List QpState := [.init, .rtr, .rts, .sqd, .draining, .sqe]

/-- The parameters after reset: the defaults of R7, and for each OPEN parameter the value that section 0 of
spec/95_test_vectors.md takes. DESIGN CHOICE (notes/assumptions/1.md): no rule gives an OPEN parameter a value. -/
def vectorConfig : Config where
  hostAddrBits := 64
  numQps := 64
  numCqs := 64
  numSrqs := 64
  shardShift := 0
  maxWqes := 1024
  maxSge := 63
  maxSrqSge := 63
  maxSrqWqes := 1024
  maxInline := 512
  maxCqes := 4096
  numPorts := 1
  pkeyTableLen := 64
  maxQpInitRdma := 4
  maxQpRespRdma := 4
  qp0Of := [0]
  dbRecCount := 64
  maxWrList := 1024
  legacySendDbBatch := 256
  legacyRecvDbBatch := 256
  mfSendDbBatch := 255
  mfRecvMmio := false
  minWqeShift := 6
  sendDbOff := 0x10
  recvDbOff := 0x18
  cqDbOff := 0x20
  legality := defaultLegality
  optpar := defaultOptpar
  syndromes := defaultSyndromes
  postSendStates := defaultPostSendStates
  postRecvStates := defaultPostRecvStates

end Sys2Proof.Machine
end

