-- ==== Sys2Proof/Machine/State.lean ====
section
/-! DEFINITION. The state of the machine as plain data, the reasons a step can stop, and the state after reset. State holds
the device instance (spec/10_state.md R22), the arenas of QP, CQ and SRQ objects (R25 to R46), every lock (R50), the commands
in progress (R21), host memory (R70), and the core's inputs and outputs. -/

namespace Sys2Proof.Machine

open Sys2Proof

/-- The faults of R430. Each is a breach of a usage rule by a requester; the machine stops. Stopping is safe: the spec says
that the fault is "never final and is never cleared", so no later behaviour is lost. -/
inductive Fault where
  /-- Raised by a destroy that removes an object another command has resolved, by a `DESTROY_QP` whose handle another command in
  progress has resolved when it resolves it (R182), by the issue of a command that names an object between its removal and the
  response of its destroy, and by a command that overlaps a `DEVICE_STOP` (R430). Safe. -/
  | useDuringDestroy
  /-- Raised by the acquire of a lock the agent holds and the release of one it does not hold (R350: "is the model fault
  `LOCK_MISUSE`"; R430). Safe. -/
  | lockMisuse
  /-- Raised by the read of a `wrid` element that no post has written (R34, R430). Safe. -/
  | readUnset
  /-- Raised by a create, a `DEVICE_START`, an inline send or a requester's write that names memory the requester does not
  own, or memory of a live object (R430; U22 of 93_implementation_defined.md: "fault: `BAD_BUFFER`"). Safe. -/
  | badBuffer
  deriving DecidableEq, Repr, Inhabited

/-- The refusals: inputs for which the spec has no move. -/
inductive Refusal where
  /-- Raised by an arm of exec whose instruction has no meaning yet. Safe. No arm raises it. -/
  | notModelled (mnemonic : String)
  /-- Raised by step on bytes the decoder refuses: no input of the core carries them. Safe. -/
  | undecodable (e : DecodeError)
  /-- Raised by an agent that issues a command before the response to its previous one (R21, R431: "The requester's duties
  that have no move"), and by the event agent, which issues none (R423). Safe. -/
  | commandInProgress
  /-- Raised by a write of a CQE and by an event that break R85 to R90, R242 or R263 (R431: such a device has "no step").
  Safe. -/
  | deviceContract
  /-- Raised by the issue of an operand record that holds a value outside its field's width (R103: it "cannot be expressed"):
  a list of more than `MAX_WR_LIST` requests, a request with more than 255 scatter/gather entries. Safe. -/
  | inexpressible
  /-- Raised by the issue of an event word: events reach the core on the device event input only (R140, R423). Safe. -/
  | eventWord
  deriving DecidableEq, Repr, Inhabited

/-- The machine's state. -/
@[ext]
structure State where
  /-- the implementation parameters (R7); no step changes them -/
  cfg : Config
  /-- `started` (R22) -/
  started : Bool
  /-- `mode` (R22) -/
  mode : Mode
  /-- `fatal` (R22) -/
  fatal : Bool
  /-- the three lookup tables (R22, R340) -/
  qpTable : List Entry
  cqTable : List Entry
  srqTable : List Entry
  /-- the locks held, newest first, each with its holder; every other lock is free (R50) -/
  locks : List (Lock × Nat)
  /-- the doorbell-record table (R22, R256) -/
  dbRecFree : Nat
  dbRecBase : BitVec 64
  dbRecUsed : List Nat
  /-- the objects, by arena index (R24) -/
  qps : List (Nat × Qp)
  cqs : List (Nat × Cq)
  srqs : List (Nat × Srq)
  /-- the model's own: the next arena index -/
  nextObj : Nat
  /-- host memory (R70) -/
  mem : List Host.Cell
  /-- the agents (R436), by number; agent 0 is the event agent (R423) -/
  agents : List (Nat × Agent)
  /-- the model's own: the agent whose step it is, and how far it may run (R351) -/
  cur : Nat
  slice : Option Nat
  /-- the model's own: the inputs that will arrive, the next one first -/
  inbox : List Input
  /-- the events the device has raised and the event agent has not taken (R423) -/
  eventQ : List (List Byte)
  /-- the event output (R425) -/
  eventOut : List EventRec
  /-- the model's own: the firmware's answers that have arrived (R420) -/
  fw : List FwAnswer
  /-- the model's own: what the core has issued, newest first (R75, R79, R420) -/
  bus : List BusEvent
  /-- the model's own: the ranges of host memory the requesters own (R430) -/
  owned : List (Nat × Nat)
  /-- the model's own: the QP numbers the device writes no CQE for (R88) -/
  quiet : List Num24
  deriving DecidableEq, Repr

/-- The event agent's number. -/
def eventAgent : Nat := 0

/-- The machine after power-on (R53, R442). The parameters are those of Sys2Proof.Machine.vectorConfig; `mode` and
`dbRecBase`, which R442 leaves unspecified and no rule reads before `DEVICE_START` writes them, are LEGACY and 0
(notes/assumptions/2.md). -/
def State.reset : State where
  cfg := vectorConfig
  started := false
  mode := .legacy
  fatal := false
  qpTable := List.replicate vectorConfig.numQps {}
  cqTable := List.replicate vectorConfig.numCqs {}
  srqTable := List.replicate vectorConfig.numSrqs {}
  locks := []
  dbRecFree := vectorConfig.dbRecCount
  dbRecBase := 0
  dbRecUsed := []
  qps := []
  cqs := []
  srqs := []
  nextObj := 1
  mem := []
  agents := []
  cur := 1
  slice := none
  inbox := []
  eventQ := []
  eventOut := []
  fw := []
  bus := []
  owned := [(0, 18446744073709551616)]
  quiet := []

end Sys2Proof.Machine
end

