-- ==== Sys2Proof/Machine/Ops.lean ====
section
/-! DEFINITION. The named operations over State: association lists, host memory and the bus (spec/20_memory.md), the arenas
and lookup tables (spec/44_lookup_arbiter.md), the agents and their response records. -/

namespace Sys2Proof.Machine

open Sys2Proof

/-! ### Association lists (arenas and agents) -/

/-- The value at a key. -/
def assocGet {α : Type} (l : List (Nat × α)) (k : Nat) : Option α :=
  match l with
  | [] => none
  | (j, x) :: l => if j = k then some x else assocGet l k

/-- The list with the value at a key set. -/
def assocSet {α : Type} (l : List (Nat × α)) (k : Nat) (v : α) : List (Nat × α) :=
  match l with
  | [] => [(k, v)]
  | (j, x) :: l => if j = k then (k, v) :: l else (j, x) :: assocSet l k v

/-- The list without a key. -/
def assocDel {α : Type} (l : List (Nat × α)) (k : Nat) : List (Nat × α) :=
  match l with
  | [] => []
  | (j, x) :: l => if j = k then assocDel l k else (j, x) :: assocDel l k

/-! ### Host memory (R70, R72) -/

/-- What an address that the memory does not list reads as. DESIGN CHOICE (notes/assumptions/3.md): the spec gives host
memory no contents. -/
def unlistedByte : Byte := 0

/-- One byte of host memory. -/
def memGet (m : List Host.Cell) (a : Nat) : Byte :=
  match m with
  | [] => unlistedByte
  | (b, v) :: m => if b = a then v else memGet m a

/-- Host memory with one byte written, in the canonical form. -/
def memPut (m : List Host.Cell) (a : Nat) (v : Byte) : List Host.Cell :=
  match m with
  | [] => if v = unlistedByte then [] else [(a, v)]
  | (b, w) :: m =>
    if a < b then (if v = unlistedByte then (b, w) :: m else (a, v) :: (b, w) :: m)
    else if a = b then (if v = unlistedByte then m else (a, v) :: m)
    else (b, w) :: memPut m a v

/-- Host memory with a run of bytes written, in increasing address order (R74). -/
def memPutBytes (m : List Host.Cell) (a : Nat) (bs : List Byte) : List Host.Cell :=
  match bs with
  | [] => m
  | b :: bs => memPutBytes (memPut m a b) (a + 1) bs

/-- Host memory with `n` bytes set to one value. -/
def memFill (m : List Host.Cell) (a : Nat) (n : Nat) (v : Byte) : List Host.Cell :=
  match n with
  | 0 => m
  | n + 1 => memFill (memPut m a v) (a + 1) n v

/-- The `n` bytes at an address. -/
def memGetBytes (m : List Host.Cell) (a : Nat) (n : Nat) : List Byte :=
  match n with
  | 0 => []
  | n + 1 => memGet m a :: memGetBytes m (a + 1) n

/-- Bytes as one big-endian unsigned number (R10). -/
def beNat (bs : List Byte) : Nat :=
  match bs with
  | [] => 0
  | b :: bs => b.toNat * 256 ^ bs.length + beNat bs

/-- The `n` low bytes of a number, most significant first (R10). -/
def beBytes (n : Nat) (v : Nat) : List Byte :=
  match n with
  | 0 => []
  | n + 1 => BitVec.ofNat 8 (v / 256 ^ n) :: beBytes n v

/-- Are the addresses of a memory list above `lo` and strictly rising, and its bytes other than what is unlisted? -/
def memWfFrom (lo : Nat) (m : List Host.Cell) : Bool :=
  match m with
  | [] => true
  | (a, v) :: m => decide (lo ≤ a) && decide (v ≠ unlistedByte) && memWfFrom (a + 1) m

/-- The canonical form of host memory. -/
def Memory.wf (m : List Host.Cell) : Bool := memWfFrom 0 m

/-! ### Fields of State written -/

def State.setLocks (s : State) (l : List (Lock × Nat)) : State := { s with locks := l }
def State.setMem (s : State) (m : List Host.Cell) : State := { s with mem := m }
def State.setBus (s : State) (l : List BusEvent) : State := { s with bus := l }
def State.setFw (s : State) (l : List FwAnswer) : State := { s with fw := l }
def State.setRecs (s : State) (used : List Nat) (free : Nat) : State := { s with dbRecUsed := used, dbRecFree := free }
def State.setRecBase (s : State) (a : BitVec 64) : State := { s with dbRecBase := a }
def State.setNextObj (s : State) (o : Nat) : State := { s with nextObj := o }
def State.setStarted (s : State) (b : Bool) : State := { s with started := b }
def State.setMode (s : State) (m : Mode) : State := { s with mode := m }
def State.setFatal (s : State) (b : Bool) : State := { s with fatal := b }
def State.setQuiet (s : State) (l : List Num24) : State := { s with quiet := l }
def State.setEventQ (s : State) (l : List (List Byte)) : State := { s with eventQ := l }
def State.setInbox (s : State) (l : List Input) : State := { s with inbox := l }
def State.setCur (s : State) (a : Nat) : State := { s with cur := a }
def State.setAgents (s : State) (l : List (Nat × Agent)) : State := { s with agents := l }

/-! ### The bus (R10, R74, R75, R79 to R81) -/

/-- `MemRead(addr, n)` (R10). -/
def State.memRead (s : State) (a n : Nat) : Nat := beNat (memGetBytes s.mem a n)

/-- A write of bytes at an address. -/
def State.writeBytes (s : State) (a : Nat) (bs : List Byte) : State :=
  (s.setMem (memPutBytes s.mem a bs)).setBus (.write s.cur a bs :: s.bus)

/-- `MemWrite(addr, n, v)` (R10). -/
def State.memWrite (s : State) (a n v : Nat) : State := s.writeBytes a (beBytes n v)

/-- One byte written over a whole buffer. -/
def State.fill (s : State) (a n : Nat) (v : Byte) : State :=
  (s.setMem (memFill s.mem a n v)).setBus (.fill s.cur a n v :: s.bus)

/-- `Wmb()` (R80): closes the current epoch of the agent's writes. -/
def State.wmb (s : State) : State := s.setBus (.wmb s.cur :: s.bus)

/-- `Rmb()` (R81). -/
def State.rmb (s : State) : State := s.setBus (.rmb s.cur :: s.bus)

/-- `MmioWrite64(off, w0, w1)` (R10, R75): one indivisible write to the doorbell window. -/
def State.mmio (s : State) (off : BitVec 8) (w0 w1 : Word) : State :=
  s.setBus (.mmio s.cur off w0 w1 :: s.bus)

/-- A call on the mailbox port (R420). -/
def State.postCall (s : State) (c : MailboxCall) : State := s.setBus (.mailbox s.cur c :: s.bus)

/-- Consecutive fields written from an address on, each of a width in bytes and most significant byte first (R74). -/
def State.writeFields (s : State) (a : Nat) (fs : List (Nat × Nat)) : State :=
  match fs with
  | [] => s
  | (n, v) :: fs => (s.memWrite a n v).writeFields (a + n) fs

/-- The bytes a list of fields takes. -/
def fieldBytes (fs : List (Nat × Nat)) : Nat :=
  match fs with
  | [] => 0
  | (n, _) :: fs => n + fieldBytes fs

/-- The offset of a doorbell register (R76, R435). -/
def State.regOff (s : State) (r : DbReg) : BitVec 8 :=
  match r with
  | .send => s.cfg.sendDbOff
  | .recv => s.cfg.recvDbOff
  | .cq => s.cfg.cqDbOff

/-- `rec_addr(r) = db_rec_base + 8*r` (R256). -/
def State.recAddr (s : State) (r : Nat) : Nat := s.dbRecBase.toNat + 8 * r

/-- A 4-byte write of word 0 of a doorbell record; nothing where the object has no record (`LEGACY`). -/
def State.writeRec0 (s : State) (r : Option Nat) (v : Nat) : State :=
  match r with
  | none => s
  | some r => s.memWrite (s.recAddr r) 4 v

/-- A 4-byte write of word 1 of a doorbell record; nothing where the object has no record. -/
def State.writeRec1 (s : State) (r : Option Nat) (v : Nat) : State :=
  match r with
  | none => s
  | some r => s.memWrite (s.recAddr r + 4) 4 v

/-- A doorbell of the controller, rung (R251: a write barrier, then one 64-bit write of the words of R126 to R129). -/
def State.ring (s : State) (reg : DbReg) (i : Instr) : State :=
  s.wmb.mmio (s.regOff reg) (doorbellWords i).1 (doorbellWords i).2

/-! ### Arenas -/

def State.qp? (s : State) (q : Nat) : Option Qp := assocGet s.qps q
def State.cq? (s : State) (c : Nat) : Option Cq := assocGet s.cqs c
def State.srq? (s : State) (r : Nat) : Option Srq := assocGet s.srqs r
def State.setQp (s : State) (q : Nat) (x : Qp) : State := { s with qps := assocSet s.qps q x }
def State.setCq (s : State) (c : Nat) (x : Cq) : State := { s with cqs := assocSet s.cqs c x }
def State.setSrq (s : State) (r : Nat) (x : Srq) : State := { s with srqs := assocSet s.srqs r x }

/-! ### What the core has shown to the device (R86, R222) -/

/-- The link to the WQE in slot `ind` is live (R222 step 7). -/
def Ring.goLive (r : Ring) (ind : Nat) (op : BitVec 6) : Ring := { r with live := r.live + 1, ops := r.ops.set ind op }

/-- A doorbell or a doorbell record has covered the WQE of number `n` (R86): the device may read it, and by its header, and those of
the WQEs after it, every later one that has or comes to have a live link. -/
def Ring.cover (r : Ring) (n : Nat) : Ring :=
  { r with first := if n ≠ 0 ∧ (r.first = 0 ∨ n < r.first) then n else r.first }

/-- As `Ring.goLive`, for an SRQ. -/
def Srq.goLive (x : Srq) (ind : Nat) : Srq := { x with live := x.live + 1, queue := x.queue ++ [(ind, x.live + 1)] }

/-- As `Ring.cover`, for an SRQ. -/
def Srq.cover (x : Srq) (n : Nat) : Srq :=
  { x with first := if n ≠ 0 ∧ (x.first = 0 ∨ n < x.first) then n else x.first }

/-- The ring a reference names, changed; nothing where the object is gone. -/
def State.onRing (s : State) (rr : RingRef) (f : Ring → Ring) (g : Srq → Srq) : State :=
  match rr with
  | .sq q => match s.qp? q with
    | some x => s.setQp q { x with sq := f x.sq }
    | none => s
  | .rq q => match s.qp? q with
    | some x => s.setQp q { x with rq := f x.rq }
    | none => s
  | .srq r => match s.srq? r with
    | some y => s.setSrq r (g y)
    | none => s

/-- The link to a slot of a ring is live (R222 step 7). -/
def State.goLive (s : State) (rr : RingRef) (ind : Nat) (op : BitVec 6) : State :=
  s.onRing rr (·.goLive ind op) (·.goLive ind)

/-- The WQE of a number is covered (R86). -/
def State.covered (s : State) (rr : RingRef) (n : Nat) : State := s.onRing rr (·.cover n) (·.cover n)

/-- What the doorbell of a batch whose first WQE has a number covers: in `LEGACY` the batch; in `MEMFREE` the records have covered it
before (R86). -/
def State.rung (s : State) (rr : RingRef) (n : Nat) : State :=
  match s.mode with
  | .legacy => s.covered rr n
  | .memfree => s

/-! ### Agents (R20, R21) -/

/-- An agent's record; an agent that has done nothing yet has an empty one. -/
def State.agent (s : State) (a : Nat) : Agent := (assocGet s.agents a).getD {}

/-- The record of the agent whose step it is. -/
def State.me (s : State) : Agent := s.agent s.cur

/-- The record of the agent whose step it is, set. -/
def State.setMe (s : State) (a : Agent) : State := { s with agents := assocSet s.agents s.cur a }

/-- A field of the response record written: `resp.f <- v` (R9). -/
def State.setResp (s : State) (f : Response → Response) : State :=
  s.setMe { s.me with resp := f s.me.resp }

/-- The agent's batch state written (R252). -/
def State.setBatch (s : State) (b : Batch) : State := s.setMe { s.me with batch := b }

/-- The agent starts a command: its response record is empty and nothing of an earlier command is left (R102). -/
def State.beginCmd (s : State) (i : Instr) : State := s.setMe { op := s.me.op, cmd := some i }

/-- The agent's command has ended: it has returned its response (R9), and its epochs are closed (R79). -/
def State.endCmd (s : State) : State :=
  (s.setMe { op := s.me.op, resp := s.me.resp }).setBus (.commandEnd s.cur :: s.bus)

/-- The agent's command stands where its steps so far have brought it. -/
def State.park (s : State) (log : List Nat) : State := s.setMe { s.me with log := log }

/-- Is another agent in the middle of a command with property `p`? -/
def State.otherBusy (s : State) (p : Nat → Agent → Instr → Bool) : Bool :=
  s.agents.any fun e =>
    decide (e.1 ≠ s.cur) && (match e.2.cmd with
      | some i => p e.1 e.2 i
      | none => false)

/-! ### Lookup tables (R340 to R342) -/

/-- `N_kind`, the number of entries of a table (R340). -/
def Config.entries (cfg : Config) (k : Kind) : Nat :=
  match k with
  | .qp => cfg.numQps
  | .cq => cfg.numCqs
  | .srq => cfg.numSrqs

def State.table (s : State) (k : Kind) : List Entry :=
  match k with
  | .qp => s.qpTable
  | .cq => s.cqTable
  | .srq => s.srqTable

def State.setTable (s : State) (k : Kind) (t : List Entry) : State :=
  match k with
  | .qp => { s with qpTable := t }
  | .cq => { s with cqTable := t }
  | .srq => { s with srqTable := t }

/-- `table[i]`. -/
def State.entry (s : State) (k : Kind) (i : Nat) : Entry := (s.table k).getD i {}

def State.setEntry (s : State) (k : Kind) (i : Nat) (e : Entry) : State := s.setTable k ((s.table k).set i e)

/-- `index(kind, num) = num mod N_kind` (R341). -/
def State.indexOf (s : State) (k : Kind) (num : Num24) : Nat := num.toNat % Config.entries s.cfg k

/-- The lock of the shard of an entry (R342). -/
def State.shardLock (s : State) (k : Kind) (i : Nat) : Lock := .shard k (i >>> s.cfg.shardShift)

/-- The object a handle names (R24, R346): the entry is live and its generation is the handle's. -/
def State.lookup (s : State) (k : Kind) (h : Handle) : Option Nat :=
  if h.kind = k ∧ h.index.toNat < Config.entries s.cfg k then
    match (s.entry k h.index.toNat).occ with
    | some o => if (s.entry k h.index.toNat).gen = h.gen then some o.obj else none
    | none => none
  else none

/-- The object a number names (R347): the entry of the number is live and holds exactly that number. -/
def State.lookupNum (s : State) (k : Kind) (num : Num24) : Option Nat :=
  match (s.entry k (s.indexOf k num)).occ with
  | some o => if o.num = num then some o.obj else none
  | none => none

/-! ### Ranges of host memory (R430 `BAD_BUFFER`) -/

/-- Do two ranges share a byte? -/
def overlaps (a b : Nat × Nat) : Bool := decide (a.1 < b.1 + b.2 ∧ b.1 < a.1 + a.2)

/-- What is left of a range when another is taken out of it. -/
def rangeWithout (r d : Nat × Nat) : List (Nat × Nat) :=
  if overlaps r d then
    (if r.1 < d.1 then [(r.1, d.1 - r.1)] else [])
      ++ (if d.1 + d.2 < r.1 + r.2 then [(d.1 + d.2, r.1 + r.2 - (d.1 + d.2))] else [])
  else [r]

/-- What is left of some ranges when other ranges are taken out of them. -/
def rangesWithout (rs ds : List (Nat × Nat)) : List (Nat × Nat) :=
  match ds with
  | [] => rs
  | d :: ds => rangesWithout (rs.flatMap fun r => rangeWithout r d) ds

/-- Do the requesters own every byte of a range, inside the address space (R70)? -/
def State.owns (s : State) (r : Nat × Nat) : Bool :=
  decide (r.2 = 0) || (decide (r.1 + r.2 ≤ 2 ^ s.cfg.hostAddrBits) && (rangesWithout [r] s.owned).isEmpty)

/-- The WQE buffer of a QP (R203). -/
def Qp.buffer (x : Qp) : Nat × Nat := (x.bufBase.toNat, x.sendWqeOffset + (x.sq.capacity <<< x.sq.shift))

/-- The CQE ring of a CQ (R290). -/
def Cq.buffer (x : Cq) : Nat × Nat := (x.bufBase.toNat, 32 * x.capacity)

/-- The WQE buffer of an SRQ (R372). -/
def Srq.buffer (x : Srq) : Nat × Nat := (x.bufBase.toNat, x.capacity <<< x.shift)

/-- The memory of every live object, and the doorbell-record table while the instance uses one (R71). DESIGN CHOICE
(notes/assumptions/48.md): the whole table counts, also the records that are allocated to no object; R430, R431 and U22 name the
buffers and the records of live objects. -/
def State.liveBuffers (s : State) : List (Nat × Nat) :=
  s.qps.map (fun e => e.2.buffer) ++ s.cqs.map (fun e => e.2.buffer) ++ s.srqs.map (fun e => e.2.buffer)
    ++ (if s.started ∧ s.mode = .memfree then [(s.dbRecBase.toNat, 8 * s.cfg.dbRecCount)] else [])

/-- The current command has taken an object out of its arena: the object's buffer stays mapped until the destroy has returned
(R431, notes/assumptions/32.md). -/
def State.hold (s : State) (b : Option (Nat × Nat)) : State := s.setMe { s.me with freed := b.toList ++ s.me.freed }

/-- The memory that a requester may neither write nor unmap (R431, R444): that of every live object, and that of the objects whose
destroy has not returned. -/
def State.mappedBuffers (s : State) : List (Nat × Nat) := s.liveBuffers ++ s.agents.flatMap (·.2.freed)

/-- Is a range outside the memory that a requester may neither write nor unmap? -/
def State.outsideMapped (s : State) (r : Nat × Nat) : Bool := s.mappedBuffers.all fun b => !overlaps r b

/-- May a create take a buffer: the requester owns it, and it overlaps no live object's memory (R430)? -/
def State.bufferOk (s : State) (r : Nat × Nat) : Bool := s.owns r && s.liveBuffers.all fun b => !overlaps r b

end Sys2Proof.Machine
end

