-- ==== Sys2Proof/Machine/Prog.lean ====
section
/-! DEFINITION. How a command runs: as a program of steps (R12, `92_eei_decisions.md` D35: each statement of the pseudocode is
one step), each of which reads and writes State, answers a number the rest of the program depends on, waits, or faults. A
command runs until it ends, until it has to wait (R432), or until its slice ends (R351). What it has done is the list of its
steps' answers, plain data in State: the same program, given those answers again, stands where it stopped.
The control primitives of R11 (acquire, release, mailbox, raise) and the shared operations over the lookup tables (R344 to
R349) and the doorbell records (R256) are written here, in continuation style: `k` is the rest of the command. -/

namespace Sys2Proof.Machine

open Sys2Proof

/-- What one step does: it answers and leaves a state, it waits, or it faults. -/
inductive ActRes where
  | ok (ans : Nat) (s : State)
  | wait
  | fault (f : Fault)
  deriving Repr

/-- A program of steps. -/
inductive Prog where
  | done
  | act (f : State → ActRes) (k : Nat → Prog)

/-- Run a program. `log` is what its earlier steps answered, newest first. -/
def Prog.run (p : Prog) (slice : Option Nat) (log : List Nat) (s : State) : Host.Outcome State Fault Refusal :=
  match p with
  | .done => .next s.endCmd
  | .act f k =>
    if slice = some 0 then .next (s.park log)
    else match f s with
      | .ok a s' => (k a).run (slice.map (· - 1)) (a :: log) s'
      | .wait => .next (s.park log)
      | .fault r => .fault r

/-- A program from where its first steps have answered `log`, oldest first. -/
def Prog.replay (p : Prog) (log : List Nat) : Prog :=
  match log with
  | [] => p
  | a :: log =>
    match p with
    | .done => .done
    | .act _ k => (k a).replay log

/-- An instruction of the current agent, run: from its beginning where the agent is idle, from where it stands where it is the
agent's command in progress. An agent with another command in progress issues nothing (R21, R431). -/
def runOn (i : Instr) (p : Operands → Prog) (s : State) : Host.Outcome State Fault Refusal :=
  match s.me.cmd with
  | none => (p s.me.op).run s.slice [] (s.beginCmd i)
  | some j =>
    if j = i then ((p s.me.op).replay s.me.log.reverse).run s.slice s.me.log s
    else .refused .commandInProgress

/-- Is a `DEVICE_STOP` of another agent in progress? -/
def State.stopInProgress (s : State) : Bool := s.otherBusy fun _ _ i => decide (i = .deviceStop)

/-- Has no other requester a command in progress? The event agent is no requester. -/
def State.othersIdle (s : State) : Bool := !s.otherBusy fun a _ _ => decide (a ≠ eventAgent)

/-- Does an instruction issued now overlap a `DEVICE_STOP` (R441): one of another agent in progress, or, where it is itself
`DEVICE_STOP`, any other requester's command? -/
def State.overlapsStop (s : State) (i : Instr) : Bool := s.stopInProgress || (decide (i = .deviceStop) && !s.othersIdle)

/-- The handles by which a command names the objects it uses. A destroy uses none: a second destroy of one object is
`INVALID_HANDLE` (R182, R315, R378; notes/assumptions/10.md). -/
def namedHandles (i : Instr) (op : Operands) : List Handle :=
  match i with
  | .createQp => op.sendCq :: op.recvCq :: op.srq.toList
  | .modifyQp => [op.qp]
  | .queryQp => [op.qp]
  | .postSend => [op.qp]
  | .postRecv => [op.qp]
  | .postSrqRecv => op.srq.toList
  | .pollCq => [op.cq]
  | .reqNotifyCq _ => [op.cq]
  | .wrRdmaWrite => [op.qp]
  | .wrRdmaWriteImm => [op.qp]
  | .wrSend => [op.qp]
  | .wrSendImm => [op.qp]
  | .wrRdmaRead => [op.qp]
  | .wrAtomicCs => [op.qp]
  | .wrAtomicFa => [op.qp]
  | .wrReserved7 => [op.qp]
  | .wqeOpRecvLink _ => [op.srq.getD op.qp]
  | .wqeOpRdmaWrite _ => [op.qp]
  | .wqeOpRdmaWriteImm _ => [op.qp]
  | .wqeOpSend _ => [op.qp]
  | .wqeOpSendImm _ => [op.qp]
  | .wqeOpRdmaRead _ => [op.qp]
  | .wqeOpAtomicCs _ => [op.qp]
  | .wqeOpAtomicFa _ => [op.qp]
  | .cqeError _ => [op.cq]
  | .cqeSend08 => [op.cq]
  | .cqeSend09 => [op.cq]
  | .cqeSend0A => [op.cq]
  | .cqeSend0B => [op.cq]
  | .cqeSend10 => [op.cq]
  | .cqeSend11 => [op.cq]
  | .cqeSend12 => [op.cq]
  | .cqeSend18 => [op.cq]
  | .cqeSendOther _ => [op.cq]
  | .cqeRecv03 _ => [op.cq]
  | .cqeRecv05 _ => [op.cq]
  | .cqeRecv09 _ => [op.cq]
  | .cqeRecv0B _ => [op.cq]
  | .cqeRecvOther _ => [op.cq]
  | .deviceStart => []
  | .deviceStop => []
  | .destroyQp => []
  | .createCq => []
  | .destroyCq => []
  | .createSrq => []
  | .destroySrq => []
  | .illegalCommand _ => []
  | .wqeOpNop _ => []
  | .eventCompletion _ => []
  | .eventQp _ _ => []
  | .eventFatal => []
  | .eventOther _ => []
  | .dbLegacySend _ _ _ _ _ => []
  | .dbLegacyRecv _ _ _ _ => []
  | .dbLegacySrq _ _ _ => []
  | .dbLegacyCqInc _ _ => []
  | .dbLegacyCqArm _ _ => []
  | .dbMemfreeSend _ _ _ _ _ _ => []
  | .dbMemfreeCqArm _ _ _ _ => []
  | .dbrecMemfree _ _ _ _ _ => []

/-- Is another agent's destroy of a handle between its removal and its response (R430)? -/
def State.beingDestroyed (s : State) (h : Handle) : Bool := s.otherBusy fun _ a _ => a.destroying.contains h

/-- Is an instruction that is issued now a fault of R430: one that overlaps a `DEVICE_STOP`, or one that names an object between its
removal and its destroy's response? -/
def State.issueFaults (s : State) (i : Instr) : Bool :=
  s.overlapsStop i || (namedHandles i s.me.op).any s.beingDestroyed

/-- An instruction a requester issues, or goes on with. -/
def runCmd (i : Instr) (p : Operands → Prog) (s : State) : Host.Outcome State Fault Refusal :=
  if s.me.cmd = none ∧ s.issueFaults i = true then .fault .useDuringDestroy else runOn i p s

/-! ### Steps -/

/-- A step that changes the state and answers nothing. -/
def eff (f : State → State) (k : Prog) : Prog := .act (fun s => .ok 0 (f s)) fun _ => k

/-- A step that reads a number. -/
def ask (f : State → Nat) (k : Nat → Prog) : Prog := .act (fun s => .ok (f s) s) k

/-- A step that faults unless a condition holds. -/
def guard (c : State → Bool) (f : Fault) (k : Prog) : Prog :=
  .act (fun s => if c s then .ok 0 s else .fault f) fun _ => k

/-- A step that waits until a condition holds. -/
def waitFor (c : State → Bool) (k : Prog) : Prog :=
  .act (fun s => if c s then .ok 0 s else .wait) fun _ => k

/-- A step on a QP object; an object that is gone is a breach of R430. -/
def withQp (q : Nat) (s : State) (f : Qp → ActRes) : ActRes :=
  match s.qp? q with
  | some x => f x
  | none => .fault .useDuringDestroy

def withCq (c : Nat) (s : State) (f : Cq → ActRes) : ActRes :=
  match s.cq? c with
  | some x => f x
  | none => .fault .useDuringDestroy

def withSrq (r : Nat) (s : State) (f : Srq → ActRes) : ActRes :=
  match s.srq? r with
  | some x => f x
  | none => .fault .useDuringDestroy

/-! ### Locks (R350) -/

/-- The holder of a lock. -/
def holderIn (l : List (Lock × Nat)) (x : Lock) : Option Nat :=
  match l with
  | [] => none
  | (y, a) :: l => if y = x then some a else holderIn l x

def State.holder (s : State) (x : Lock) : Option Nat := holderIn s.locks x

/-- `Acquire(L)`: takes a free lock in one indivisible step, waits for one another agent holds, faults on its own (R350). -/
def acquireAct (x : Lock) (s : State) : ActRes :=
  match s.holder x with
  | none => .ok 0 (s.setLocks ((x, s.cur) :: s.locks))
  | some a => if a = s.cur then .fault .lockMisuse else .wait

/-- `Release(L)`: frees a lock the agent holds, faults on any other (R350). -/
def releaseAct (x : Lock) (s : State) : ActRes :=
  if s.holder x = some s.cur then .ok 0 (s.setLocks (s.locks.filter fun e => decide (e.1 ≠ x)))
  else .fault .lockMisuse

def acquire (x : Lock) (k : Prog) : Prog := .act (acquireAct x) fun _ => k
def release (x : Lock) (k : Prog) : Prog := .act (releaseAct x) fun _ => k

/-- The work on entry `i`: under the lock of its shard (R343). -/
def underShardAt (kind : Kind) (i : Nat) (f : State → ActRes) (k : Nat → Prog) : Prog :=
  .act (fun s => acquireAct (s.shardLock kind i) s) fun _ =>
  .act f fun a =>
  .act (fun s => releaseAct (s.shardLock kind i) s) fun _ => k a

/-- As `underShardAt`, on the entry that the state names. The index is read once, so the lock released is the one acquired. -/
def underShard (kind : Kind) (i : State → Nat) (f : State → ActRes) (k : Nat → Prog) : Prog :=
  ask i fun n => underShardAt kind n f k

/-- How many locks the agent holds. -/
def State.heldCount (s : State) : Nat := (s.locks.filter fun e => decide (e.2 = s.cur)).length

/-- The lock the agent acquired last, freed. -/
def releaseNewest (s : State) : State :=
  match s.locks.find? fun e => decide (e.2 = s.cur) with
  | some e => s.setLocks (s.locks.filter fun d => decide (d.1 ≠ e.1))
  | none => s

/-- The newest `n` locks of the agent, freed one after another (R11: "in reverse order of acquisition"). -/
def releaseN (n : Nat) (k : Prog) : Prog :=
  match n with
  | 0 => k
  | n + 1 => eff releaseNewest (releaseN n k)

def releaseHeld (k : Prog) : Prog := ask State.heldCount fun n => releaseN n k

/-! ### The doorbell batch (R252 to R255, R258) -/

/-- The number of WQEs after which a batch rings (R7). -/
def State.batchLimit (s : State) (rr : RingRef) : Nat :=
  match s.mode, rr with
  | .legacy, .sq _ => s.cfg.legacySendDbBatch
  | .legacy, _ => s.cfg.legacyRecvDbBatch
  | .memfree, _ => s.cfg.mfSendDbBatch

/-- The doorbell of a batch, as an instruction of the doorbell controller: `RING_SEND`, `RING_RECV`, `RING_SRQ` and
`RING_MF_SEND` of R252 to R254 and R258. The words are those of R126, R127 and R129; a WQE offset is a multiple of 64. -/
def sendDoorbell (mode : Mode) (x : Qp) (b : Batch) : Instr :=
  match mode with
  | .legacy => .dbLegacySend (BitVec.ofNat 26 (((b.firstInd <<< x.sq.shift) + x.sendWqeOffset) / 64)) b.f0
      (b.op0.setWidth 5) x.qpn (BitVec.ofNat 8 b.size0)
  | .memfree => .dbMemfreeSend (BitVec.ofNat 8 b.cnt) (b.head0.setWidth 16) b.f0 (b.op0.setWidth 5) x.qpn
      (BitVec.ofNat 8 b.size0)

def recvDoorbell (x : Qp) (b : Batch) : Instr :=
  .dbLegacyRecv (BitVec.ofNat 26 ((b.firstInd <<< x.rq.shift) / 64)) (BitVec.ofNat 6 b.size0) x.qpn (BitVec.ofNat 8 b.cnt)

def srqDoorbell (x : Srq) (b : Batch) : Instr :=
  .dbLegacySrq (BitVec.ofNat 26 ((b.firstInd <<< x.shift) / 64)) x.srqn (BitVec.ofNat 8 b.cnt)

/-- The batch is rung, which covers its WQEs (R86), and starts anew. -/
def ringBatchAct (s : State) : ActRes :=
  let b := s.me.batch
  match b.ring with
  | none => .ok 0 s
  | some (.sq q) => withQp q s fun x =>
      .ok 0 (((s.ring .send (sendDoorbell s.mode x b)).setBatch { b with cnt := 0 }).rung (.sq q) b.num)
  | some (.rq q) => withQp q s fun x =>
      .ok 0 (((s.ring .recv (recvDoorbell x b)).setBatch { b with cnt := 0 }).rung (.rq q) b.num)
  | some (.srq r) => withSrq r s fun x =>
      .ok 0 (((s.ring .recv (srqDoorbell x b)).setBatch { b with cnt := 0 }).rung (.srq r) b.num)

/-- `DB_BEGIN`: a post's batch starts empty. -/
def dbBegin (rr : RingRef) (k : Prog) : Prog := eff (fun s => s.setBatch { ring := some rr }) k

/-- `DB_END`: the doorbell owed for the last batch, also when a request fails (R252, R11). -/
def dbEndAct (s : State) : ActRes := if s.me.batch.cnt = 0 then .ok 0 s else ringBatchAct s

def dbEnd (k : Prog) : Prog := .act dbEndAct fun _ => k

/-- A WQE counted in the batch; the first one names the doorbell. -/
def Batch.count (b : Batch) (ind : Nat) (fence : Bool) (op : BitVec 6) (size : Nat) (head0 : Word) : Batch :=
  if b.cnt = 0 then { b with cnt := 1, firstInd := ind, f0 := fence, op0 := op, size0 := size, head0 := head0 }
  else { b with cnt := b.cnt + 1 }

/-- As `Batch.count`, of the WQE of a number. -/
def Batch.add (b : Batch) (ind : Nat) (fence : Bool) (op : BitVec 6) (size : Nat) (head0 : Word) (num : Nat) : Batch :=
  { b.count ind fence op size head0 with num := if b.cnt = 0 then num else b.num }

/-- `DB_AFTER_WQE` up to the count: in `MEMFREE` the ring's doorbell record is updated after a write barrier (R254, R255,
R258), and its count covers every WQE of the ring (R86); only rings that ring an MMIO doorbell count. -/
def dbCountAct (rr : RingRef) (ind : Nat) (fence : Bool) (op : BitVec 6) (size : Nat) (s : State) : ActRes :=
  let b := s.me.batch
  match rr with
  | .sq q => withQp q s fun x =>
      let s1 := match s.mode with
        | .legacy => s
        | .memfree => (s.wmb.writeRec0 x.sqDbRec (x.sq.head.toNat % 65536)).covered rr 1
      .ok 0 (s1.setBatch (b.add ind fence op size (x.sq.head - 1) x.sq.live))
  | .rq q => withQp q s fun x =>
      match s.mode with
      | .legacy => .ok 0 (s.setBatch (b.add ind fence op size 0 x.rq.live))
      | .memfree => .ok 0 ((s.wmb.writeRec0 x.rqDbRec (x.rq.head.toNat % 65536)).covered rr 1)
  | .srq r => withSrq r s fun x =>
      match s.mode with
      | .legacy => .ok 0 (s.setBatch (b.add ind fence op size 0 x.live))
      | .memfree =>
        .ok 0 (((s.setSrq r { x with counter := x.counter + 1 }).wmb.writeRec0 x.dbRec (x.counter + 1).toNat).covered rr 1)

/-- A batch that has reached its limit is rung; an empty one never is. -/
def dbFullAct (rr : RingRef) (s : State) : ActRes :=
  if s.me.batch.cnt ≠ 0 ∧ s.me.batch.cnt = s.batchLimit rr then ringBatchAct s else .ok 0 s

/-- `DB_AFTER_WQE(r)` (R252 to R255, R258). -/
def dbAfterWqe (rr : RingRef) (ind : Nat) (fence : Bool) (op : BitVec 6) (size : Nat) (k : Prog) : Prog :=
  .act (dbCountAct rr ind fence op size) fun _ => .act (dbFullAct rr) fun _ => k

/-! ### How a command ends (R11, R102) -/

/-- The command returns its response with a status and, for a command with a list, a `bad_index`. -/
def respond (st : Status) (bad : Option Nat) : Prog :=
  eff (fun s => s.setResp fun r => { r with status := some st, badIndex := bad.map (BitVec.ofNat 32) }) .done

/-- `raise Status(code, bad)` (R11), in its order: every lock released, newest first; the doorbell owed for committed work; the
response. -/
def raise (st : Status) (bad : Option Nat := none) : Prog := releaseHeld (dbEnd (respond st bad))

/-- Steps 2 and 3 of the common preconditions (R401). `refusedAfterFatal` says that the command is in the list of step 3. Step 1
is the decoder's: a word without an assigned `opc` is `ILLEGAL_COMMAND`. -/
def precondCode (refusedAfterFatal : Bool) (s : State) : Nat :=
  if !s.started then 1
  else if s.fatal && refusedAfterFatal then 2
  else 0

def precond (refusedAfterFatal : Bool) (bad : Option Nat) (k : Prog) : Prog :=
  ask (precondCode refusedAfterFatal) fun c =>
  if c = 1 then raise .notStarted bad
  else if c = 2 then raise .deviceFatal bad
  else k

/-! ### The firmware mailbox port (R420) -/

/-- The call: a write barrier, and unless the device has failed the call itself. Answers whether a call was made. -/
def mailboxIssue (call : State → MailboxCall) (s : State) : ActRes :=
  if s.fatal then .ok 0 s.wmb
  else .ok 1 (s.wmb.postCall (call s))

/-- The firmware's answer: the oldest that has arrived; until one arrives the command waits, holding its locks. `note` is
what the model records of an accepted call in the same step (R88). -/
def mailboxAnswer (note : Nat → State → State) (s : State) : ActRes :=
  match s.fw with
  | [] => .wait
  | a :: rest => .ok a.status.toNat (note a.status.toNat ((s.setFw rest).setMe { s.me with fwOut := a.out }))

/-- `Mailbox(cmd, args) -> fw_status` (R420). After a fatal failure no call is made and the status is 0xFF. -/
def mailboxNoting (note : Nat → State → State) (call : State → MailboxCall) (k : Nat → Prog) : Prog :=
  .act (mailboxIssue call) fun made => if made = 0 then k 255 else .act (mailboxAnswer note) k

def mailbox (call : State → MailboxCall) (k : Nat → Prog) : Prog := mailboxNoting (fun _ s => s) call k

/-- `resp.fw_status <- fw`. -/
def setFwStatus (fw : Nat) (k : Prog) : Prog :=
  eff (fun s => s.setResp fun r => { r with fwStatus := some (BitVec.ofNat 8 fw) }) k

/-! ### Lookup-table operations (R344 to R349) -/

/-- Has another command, other than a destroy, resolved this handle (R430)? -/
def State.usedByOther (s : State) (h : Handle) : Bool := s.otherBusy fun _ a _ => a.uses.contains h

/-- Every other command in progress notes that a `DESTROY_QP` of a handle has resolved (R182). -/
def State.warnOthers (s : State) (h : Handle) : State :=
  s.setAgents (s.agents.map fun e =>
    if e.1 ≠ s.cur ∧ e.2.cmd.isSome then (e.1, { e.2 with racing := h :: e.2.racing }) else e)

/-- The step of `RESOLVE` under the shard lock: what a command finds, and what becomes of it (R346). A handle that resolves is noted
as used where `use` is set (R430); it is a fault where a `DESTROY_QP` of it has resolved since the command began (R182: "resolved
its handle before `REMOVE` and has not finished when `DESTROY_QP` resolves"). -/
def resolveAct (kind : Kind) (h : Handle) (use : Bool) (s : State) : ActRes :=
  match s.lookup kind h with
  | none => .ok 0 s
  | some o =>
    if use then
      if s.me.racing.contains h then .fault .useDuringDestroy else .ok o (s.setMe { s.me with uses := h :: s.me.uses })
    else .ok o s

/-- The step of `RESOLVE` of a `DESTROY_QP`: a handle that another command in progress has resolved is a fault (R182). -/
def resolveDestroyAct (kind : Kind) (h : Handle) (s : State) : ActRes :=
  match s.lookup kind h with
  | none => .ok 0 s
  | some o => if s.usedByOther h then .fault .useDuringDestroy else .ok o (s.warnOthers h)

/-- `RESOLVE(kind, h)` (R346) with its step under the shard lock of `h.index`, which tests the kind, the entry and its generation.
DESIGN CHOICE (notes/assumptions/46.md): the range is tested first and takes no lock, because an index outside the table has no shard
whose lock R346 could hold (R342); such a handle fails without waiting. -/
def resolveBy (kind : Kind) (h : Handle) (act : State → ActRes) (fail : Prog) (k : Nat → Prog) : Prog :=
  ask (fun s => if h.index.toNat < Config.entries s.cfg kind then 1 else 0) fun inRange =>
  if inRange = 0 then fail
  else underShardAt kind h.index.toNat act fun o => if o = 0 then fail else k o

/-- `RESOLVE(kind, h)` (R346). `use` is set by the commands whose use of a destroyed object is the fault of R430. -/
def resolve (kind : Kind) (h : Handle) (use : Bool) (fail : Prog) (k : Nat → Prog) : Prog :=
  resolveBy kind h (resolveAct kind h use) fail k

/-- A handle an object of the core holds, resolved at its use (R24); `gone` is for a holder that is gone itself. DESIGN CHOICE
(notes/assumptions/41.md): the entry is read under the lock of its shard (R343, R346), also where the path in R353 lists no shard
lock: in a post's re-check, in `CQ_CLEAN`, in `DESTROY_QP` and in a poll. -/
def resolveRef (kind : Kind) (h : State → Option Handle) (gone : Prog) (k : Nat → Prog) : Prog :=
  ask (fun s => match h s with
    | some g => g.index.toNat + 1
    | none => 0) fun n =>
  if n = 0 then gone
  else underShardAt kind (n - 1) (fun s => .ok (((h s).bind (s.lookup kind)).getD 0) s) fun o => if o = 0 then gone else k o

/-- A breach of R430, as a program. -/
def useFault : Prog := guard (fun _ => false) .useDuringDestroy .done

def Qp.cqOf (x : Qp) (isSend : Bool) : Handle := if isSend then x.sendCq else x.recvCq

/-- The handle a QP holds to its send or receive CQ. -/
def State.cqHandle (s : State) (q : Nat) (isSend : Bool) : Option Handle := (s.qp? q).map (Qp.cqOf · isSend)

/-- The handle a QP holds to its SRQ. -/
def State.srqHandle (s : State) (q : Nat) : Option Handle := (s.qp? q).bind (·.srq)

/-- `INSERT(kind, num, obj)` (R344): answers the arena index of the object, or 0 where the entry is occupied. `make` builds
the object and places it in its arena; the entry keeps its generation. With this step the object is live: a buffer `buf` that
meets another live object's is a fault (R430). -/
def insertAct (kind : Kind) (num : Num24) (buf : State → Nat × Nat) (make : State → Handle → Nat → State) (s : State) :
    ActRes :=
  let i := s.indexOf kind num
  let e := s.entry kind i
  match e.occ with
  | some _ => .ok 0 s
  | none =>
    let o := s.nextObj
    if s.bufferOk (buf s) then
      .ok o (make ((s.setEntry kind i { e with occ := some { num, obj := o } }).setNextObj (o + 1))
        { kind, index := BitVec.ofNat 24 i, gen := e.gen } o)
    else .fault .badBuffer

def insert (kind : Kind) (num : Num24) (buf : State → Nat × Nat) (make : State → Handle → Nat → State) (busy : Prog)
    (k : Nat → Prog) : Prog :=
  underShard kind (fun s => s.indexOf kind num) (insertAct kind num buf make) fun o => if o = 0 then busy else k o

/-- The entry of a live handle made empty, its generation one higher (R345). -/
def State.emptyEntry (s : State) (kind : Kind) (h : Handle) : State :=
  s.setEntry kind h.index.toNat { gen := h.gen + 1, occ := none }

/-- `REMOVE(kind, h)` of an object a create has just inserted (R344, R345): answers 1 where it removed the entry, 0 where it
changed nothing. It is no destroy, so the faults of R430 do not arise. -/
def removeNewAct (kind : Kind) (h : Handle) (s : State) : ActRes :=
  match s.lookup kind h with
  | none => .ok 0 s
  | some _ => .ok 1 (s.emptyEntry kind h)

/-- The entry of a live handle made empty; the agent notes that it is destroying it (R430). -/
def State.dropEntry (s : State) (kind : Kind) (h : Handle) : State :=
  (s.emptyEntry kind h).setMe { s.me with destroying := h :: s.me.destroying }

/-- `REMOVE(kind, h)` of a destroy (R345), as `removeNewAct`; the removal of an object that another command has resolved is a
fault (R430). -/
def removeAct (kind : Kind) (h : Handle) (s : State) : ActRes :=
  match s.lookup kind h with
  | none => .ok 0 s
  | some _ => if s.usedByOther h then .fault .useDuringDestroy else .ok 1 (s.dropEntry kind h)

def remove (kind : Kind) (h : Handle) (k : Nat → Prog) : Prog :=
  underShardAt kind h.index.toNat (removeAct kind h) k

/-- The `attach` count of a CQ or SRQ, changed (R349). A QP has none. -/
def State.bumpAttach (s : State) (kind : Kind) (o : Nat) (f : Nat → Nat) : State :=
  match kind with
  | .qp => s
  | .cq => match s.cq? o with
    | some x => s.setCq o { x with attach := f x.attach }
    | none => s
  | .srq => match s.srq? o with
    | some x => s.setSrq o { x with attach := f x.attach }
    | none => s

/-- The `attach` count of a CQ or SRQ. -/
def State.attachOf (s : State) (kind : Kind) (o : Nat) : Nat :=
  match kind with
  | .qp => 0
  | .cq => ((s.cq? o).map (·.attach)).getD 0
  | .srq => ((s.srq? o).map (·.attach)).getD 0

/-- `ATTACH(kind, h)` (R349): answers 0 where the object is gone. -/
def attachAct (kind : Kind) (h : Handle) (s : State) : ActRes :=
  match s.lookup kind h with
  | none => .ok 0 s
  | some o => .ok 1 (s.bumpAttach kind o (· + 1))

def attach (kind : Kind) (h : Handle) (gone k : Prog) : Prog :=
  underShardAt kind h.index.toNat (attachAct kind h) fun a => if a = 0 then gone else k

/-- `DETACH(kind, h)` (R349). -/
def detachAct (kind : Kind) (h : State → Option Handle) (s : State) : ActRes :=
  match (h s).bind (s.lookup kind) with
  | none => .ok 0 s
  | some o => .ok 0 (s.bumpAttach kind o (· - 1))

def detach (kind : Kind) (h : State → Option Handle) (k : Prog) : Prog :=
  underShard kind (fun s => ((h s).getD {}).index.toNat) (detachAct kind h) fun _ => k

/-- `REMOVE_IF_UNATTACHED(kind, h)` (R349), all under one hold of the lock: answers 0 where the handle resolves to nothing,
1 where the object is attached, 2 where the entry is removed. -/
def removeUnattachedAct (kind : Kind) (h : Handle) (s : State) : ActRes :=
  match s.lookup kind h with
  | none => .ok 0 s
  | some o =>
    if s.attachOf kind o ≠ 0 then .ok 1 s
    else if s.usedByOther h then .fault .useDuringDestroy
    else .ok 2 (s.dropEntry kind h)

def removeUnattached (kind : Kind) (h : Handle) (fail : Status → Prog) (k : Prog) : Prog :=
  underShardAt kind h.index.toNat (removeUnattachedAct kind h) fun a =>
    if a = 0 then fail .invalidHandle else if a = 1 then fail .busy else k

/-! ### Doorbell records (R256) -/

/-- The `k` lowest record indices not in use. -/
def lowestFree (used : List Nat) (k : Nat) : List Nat :=
  ((List.range (used.length + k)).filter fun r => decide (r ∉ used)).take k

/-- An index added to a rising list. -/
def insertSorted (l : List Nat) (r : Nat) : List Nat :=
  match l with
  | [] => [r]
  | x :: l => if r < x then r :: x :: l else if r = x then x :: l else x :: insertSorted l r

/-- The allocation under `db_rec_lock`: answers 0 where too few records are free. -/
def allocAct (n : Nat) (s : State) : ActRes :=
  if s.dbRecFree < n then .ok 0 s
  else
    let rs := lowestFree s.dbRecUsed n
    .ok 1 ((s.setRecs (rs.foldl insertSorted s.dbRecUsed) (s.dbRecFree - n)).setMe
      { s.me with recs := rs })

/-- Word 1 of a record when it is allocated: the number and the type (R130). -/
def recWord1 (ty : BitVec 3) (num : Num24) : Nat := (num ++ ty ++ (0 : BitVec 5)).toNat

/-- Both words of a doorbell record written, each after a write barrier (R251). -/
def State.initRec (s : State) (r w0 w1 : Nat) : State := (s.wmb.writeRec0 (some r) w0).wmb.writeRec1 (some r) w1

/-- The first contents of the records of an allocation (R256). -/
def initRecs (rs : List Nat) (spec : List (BitVec 3 × Num24)) (s : State) : State :=
  match rs, spec with
  | r :: rs, (ty, num) :: spec => initRecs rs spec (s.initRec r 0 (recWord1 ty num))
  | _, _ => s

/-- `DB_REC_ALLOC` in `MEMFREE`; nothing in `LEGACY` (R256). The agent's `recs` are the records it took. -/
def allocRecs (spec : List (BitVec 3 × Num24)) (k : Prog) : Prog :=
  ask (fun s => if s.mode = .memfree then 1 else 0) fun mf =>
  if mf = 0 then k
  else acquire .dbRec <| .act (allocAct spec.length) fun okay => release .dbRec <|
    if okay = 0 then raise .noResources
    else eff (fun s => initRecs s.me.recs spec s) k

/-- `DB_REC_FREE(r)` of the record a state names, in `MEMFREE`; nothing in `LEGACY` (R256). The record's write follows a write
barrier (R251). -/
def freeRec (r : State → Option Nat) (k : Prog) : Prog :=
  ask (fun s => if s.mode = .memfree ∧ (r s).isSome then 1 else 0) fun mf =>
  if mf = 0 then k
  else eff (fun s => s.wmb.writeRec1 (r s) 0) <| acquire .dbRec <|
    eff (fun s => s.setRecs (s.dbRecUsed.filter fun x => decide (some x ≠ r s)) (s.dbRecFree + 1)) <|
    release .dbRec k

/-- The records a create took, freed again (R403 a). -/
def freeTaken (n : Nat) (k : Prog) : Prog :=
  match n with
  | 0 => k
  | n + 1 => freeTaken n (freeRec (fun s => s.me.recs[n]?) k)

end Sys2Proof.Machine
end

