-- ==== Sys2Proof/Machine/Operands.lean ====
section
/-! DEFINITION. The operand forms of the core: ring geometry (spec/41_wqe_ring.md R200 to R204), the slots of a ring, and the
segments of a WQE (spec/30_encoding.md R112 to R117, spec/41_wqe_ring.md R217 to R220). A segment is a list of fields, each a
width in bytes and a value, laid out one after another (R74). -/

namespace Sys2Proof.Machine

open Sys2Proof

/-! ### Ring geometry -/

/-- The least `k` with `n ≤ 2^k`. -/
def ceilLog2 (n : Nat) : Nat := if n ≤ 1 then 0 else Nat.log2 (n - 1) + 1

/-- `align_up(x, a)` (R8). -/
def alignUp (x a : Nat) : Nat := (x + a - 1) / a * a

/-- `RING_CAPACITY(d)` (R201, 90_conflicts.md C5). -/
def ringCapacity (mode : Mode) (d : Nat) : Nat :=
  match mode with
  | .memfree => 2 ^ ceilLog2 (max d 1)
  | .legacy => max d 1

/-- `CQ_CAPACITY(d)`: the least power of two that is at least `d + 1` (R291). -/
def cqCapacity (d : Nat) : Nat := 2 ^ ceilLog2 (d + 1)

/-- `T(t)`, the bytes of the transport segments a send slot must hold (R202). -/
def transportBytes (t : Transport) : Nat :=
  match t with
  | .rc => 32
  | .uc => 16
  | .ud => 48
  | .mlx => 64

/-- `send_bytes(t, gs, inl)` (R202): the largest WQE of a ring. An inline request of no bytes passes on every ring (R215) and has
an inline segment of 16 bytes (R117), so the data part has 16 bytes at least, also where `gs` and `inl` are 0 (R119, D43;
DESIGN CHOICE, notes/assumptions/38.md). -/
def sendBytes (t : Transport) (gs inl : Nat) : Nat := 16 + transportBytes t + max (16 * gs) (alignUp (4 + inl) 16)

/-- `recv_bytes(gs)` (R202). -/
def recvBytes (gs : Nat) : Nat := 16 + 16 * gs

/-- The largest WQE: 63 units (R202). -/
def maxWqeBytes : Nat := 1008

/-- The slot-size shift of a ring whose largest WQE has `bytes` bytes (R202, R371). -/
def slotShift (cfg : Config) (bytes : Nat) : Nat := max cfg.minWqeShift (ceilLog2 bytes)

/-- `send_wqe_offset` (R203). -/
def sendOffset (hasSrq : Bool) (rqCapacity rqShift sqShift : Nat) : Nat :=
  if hasSrq then 0 else alignUp (rqCapacity <<< rqShift) (1 <<< sqShift)

/-- A ring right after its create or a reset: empty, its tail at the last slot, no work-request id set (R31, R166). -/
def freshRing (capacity shift maxGs : Nat) : Ring :=
  { capacity, shift, maxGs, lastComp := capacity - 1, lastIdx := capacity - 1, wrid := List.replicate capacity none,
    ops := List.replicate capacity 0 }

/-- A ring as the spec has it (R31), without the model's own counts. -/
def Ring.core (r : Ring) : Ring := { r with live := 0, first := 0, devDone := 0, chain := none, ops := [] }

/-- A QP as the spec has it (R25), without what the model keeps for itself. -/
def Qp.core (x : Qp) : Qp := { x with self := {}, srqDone := 0, sq := x.sq.core, rq := x.rq.core }

/-- A ring after a reset of its QP (R166): its geometry is kept. -/
def Ring.cleared (r : Ring) : Ring := freshRing r.capacity r.shift r.maxGs

/-- The number of slots the hardware owns: `head - tail` modulo 2^32 (R33). -/
def Ring.count (r : Ring) : Nat := (r.head - r.tail).toNat

/-- Is the slot at index `i` hardware-owned (R33)? The model holds no owner bit of a WQE slot: this is it. -/
def Ring.hwOwned (r : Ring) (i : Nat) : Bool :=
  decide (i < r.capacity) && decide ((i + r.capacity - r.tail.toNat % r.capacity) % r.capacity < r.count)

/-! ### Slots -/

def Qp.ring (x : Qp) (isSend : Bool) : Ring := if isSend then x.sq else x.rq

def Qp.setRing (x : Qp) (isSend : Bool) (r : Ring) : Qp := if isSend then { x with sq := r } else { x with rq := r }

/-- `woff`, the WQE offset of a slot of a QP's ring (R204). -/
def Qp.woff (x : Qp) (isSend : Bool) (i : Nat) : Nat :=
  if isSend then x.sendWqeOffset + (i <<< x.sq.shift) else i <<< x.rq.shift

/-- The host address of a slot of a QP's ring (R204). -/
def Qp.slotAddr (x : Qp) (isSend : Bool) (i : Nat) : Nat := x.bufBase.toNat + x.woff isSend i

/-- `woff(srq, i)` (R204). -/
def Srq.woff (x : Srq) (i : Nat) : Nat := i <<< x.shift

/-- The host address of a slot of an SRQ (R204). -/
def Srq.slotAddr (x : Srq) (i : Nat) : Nat := x.bufBase.toNat + x.woff i

/-- `woff(r, i)` of the ring a reference names; `none` where the object is gone. -/
def State.woff (s : State) (rr : RingRef) (i : Nat) : Option Nat :=
  match rr with
  | .sq q => (s.qp? q).map (·.woff true i)
  | .rq q => (s.qp? q).map (·.woff false i)
  | .srq r => (s.srq? r).map (·.woff i)

/-- The slot address in the ring a reference names; `none` where the object is gone. -/
def State.slotAddr (s : State) (rr : RingRef) (i : Nat) : Option Nat :=
  match rr with
  | .sq q => (s.qp? q).map (·.slotAddr true i)
  | .rq q => (s.qp? q).map (·.slotAddr false i)
  | .srq r => (s.srq? r).map (·.slotAddr i)

/-- The lock of a ring. -/
def ringLock (rr : RingRef) : Lock :=
  match rr with
  | .sq q => .sq q
  | .rq q => .rq q
  | .srq r => .srq r

/-- The slot the next post to a QP ring fills: `next_ind` (R206). -/
def State.nextInd (s : State) (q : Nat) (isSend : Bool) : Nat := ((s.qp? q).map fun x => (x.ring isSend).nextInd).getD 0

/-- The slot of the chain tail of a ring: `last_idx` (R31, R45). -/
def State.lastIdx (s : State) (rr : RingRef) : Nat :=
  match rr with
  | .sq q => ((s.qp? q).map (·.sq.lastIdx)).getD 0
  | .rq q => ((s.qp? q).map (·.rq.lastIdx)).getD 0
  | .srq r => ((s.srq? r).map (·.lastIdx)).getD 0

/-- `rec_addr(cq slot)`: the address of CQE slot `i mod capacity` (R290). -/
def Cq.slotAddr (x : Cq) (i : Nat) : Nat := x.bufBase.toNat + 32 * (i % x.capacity)

/-- The CQE slot a poll inspects next (R290, R41). -/
def Cq.headAddr (x : Cq) : Nat := x.slotAddr x.consIndex.toNat

/-! ### Scatter/gather lists and inline data -/

/-- The bit `j` of a WQE opcode that can carry immediate data (R217). -/
def hasImm (opcode : BitVec 3) : Bool := decide (opcode = 3) || decide (opcode = 1)

/-- May a request of this opcode be inline (R215)? -/
def inlinable (opcode : BitVec 3) : Bool :=
  decide (opcode = 2) || decide (opcode = 3) || decide (opcode = 0) || decide (opcode = 1)

/-- `inline(wr)` (R230). -/
def isInline (wr : SendWr) : Bool := wr.inl && inlinable wr.opcode

/-- `L(wr)`: the inline byte count, computed without overflow (R215). -/
def inlineLen (sg : List Sge) : Nat :=
  match sg with
  | [] => 0
  | e :: sg => e.length.toNat + inlineLen sg

/-- The inline bytes, read in scatter-list order (R219). -/
def inlineBytes (m : List Host.Cell) (sg : List Sge) : List Byte :=
  match sg with
  | [] => []
  | e :: sg => memGetBytes m e.addr.toNat e.length.toNat ++ inlineBytes m sg

/-! ### Segments -/

/-- Two words of the next segment: the own header of a slot, first with size 0 (R217), then the flags and the immediate. -/
def headerFields (flags imm : Word) : List (Nat × Nat) := [(4, 0), (4, 0), (4, flags.toNat), (4, imm.toNat)]

/-- The remote-address segment (R113). -/
def raddrFields (wr : SendWr) : List (Nat × Nat) := [(8, wr.remoteAddr.toNat), (4, wr.rkey.toNat), (4, 0)]

/-- The atomic segment (R114): compare-and-swap is opcode 5, fetch-and-add opcode 6. -/
def atomicFields (wr : SendWr) : List (Nat × Nat) :=
  if wr.opcode = 5 then [(8, wr.swap.toNat), (8, wr.compareAdd.toNat)] else [(8, wr.compareAdd.toNat), (8, 0)]

/-- An opaque value of whole 8-byte words, most significant first. -/
def opaqueFields (words v : Nat) : List (Nat × Nat) :=
  match words with
  | 0 => []
  | n + 1 => (8, v / 2 ^ (64 * n) % 2 ^ 64) :: opaqueFields n v

/-- The UD segment (R115). -/
def udFields (mode : Mode) (wr : SendWr) : List (Nat × Nat) :=
  (match mode with
    | .legacy => [(4, 0), (4, wr.avLkey.toNat), (8, wr.avAddr.toNat), (8, 0), (8, 0)]
    | .memfree => opaqueFields 4 wr.av.toNat)
  ++ [(4, wr.dqpn.toNat), (4, wr.qkey.toNat), (8, 0)]

/-- The units of the MLX header that count: at most 64 bytes (R202). -/
def mlxUnits (x : Qp) (wr : SendWr) : List (BitVec 128) := (Config.mlxHeader x.core wr).take 4

/-- A run of 16-byte units as fields. -/
def unitFields (us : List (BitVec 128)) : List (Nat × Nat) :=
  match us with
  | [] => []
  | u :: us => opaqueFields 2 u.toNat ++ unitFields us

/-- The transport segments of a send WQE (R218). -/
def transportFields (mode : Mode) (x : Qp) (wr : SendWr) : List (Nat × Nat) :=
  match x.transport with
  | .ud => udFields mode wr
  | .mlx => unitFields (mlxUnits x wr)
  | _ =>
    match wr.opcode.toNat with
    | 0 => raddrFields wr
    | 1 => raddrFields wr
    | 4 => raddrFields wr
    | 5 => raddrFields wr ++ atomicFields wr
    | 6 => raddrFields wr ++ atomicFields wr
    | _ => []

/-- The data segments of a scatter/gather list (R116). -/
def dataFields (sg : List Sge) : List (Nat × Nat) :=
  match sg with
  | [] => []
  | e :: sg => (4, e.length.toNat) :: (4, e.lkey.toNat) :: (8, e.addr.toNat) :: dataFields sg

/-- The terminator of a short `MEMFREE` receive WQE: one invalid data segment (R116, R219). -/
def terminatorFields (mode : Mode) (numSge maxGs : Nat) : List (Nat × Nat) :=
  if mode = .memfree ∧ numSge < maxGs then [(4, 0), (4, 0x100), (8, 0)] else []

/-- The length word of an inline segment, with its mark bit (R117). -/
def inlineWord (sg : List Sge) : Word := 0x80000000 ||| BitVec.ofNat 32 (inlineLen sg)

/-- The inline segment written at an address: the length word, then the data (R117, R219). The pad bytes after them are not
written (93_implementation_defined.md U7, notes/assumptions/19.md). -/
def State.writeInline (s : State) (a : Nat) (sg : List Sge) : State :=
  let s1 := s.memWrite a 4 (inlineWord sg).toNat
  s1.writeBytes (a + 4) (inlineBytes s1.mem sg)

/-- The size of a send WQE in 16-byte units (R220) whose transport segments have `tb` bytes. -/
def sendUnits (tb : Nat) (wr : SendWr) : Nat :=
  (16 + tb + (if isInline wr then alignUp (4 + inlineLen wr.sg) 16 else 16 * wr.sg.length)) / 16

/-- The size of the WQE of a send request (R220). -/
def sendSize (mode : Mode) (x : Qp) (wr : SendWr) : Nat := sendUnits (fieldBytes (transportFields mode x wr)) wr

/-- The size of a receive WQE in 16-byte units (R220). -/
def recvSize (mode : Mode) (numSge maxGs : Nat) : Nat :=
  1 + numSge + (if mode = .memfree ∧ numSge < maxGs then 1 else 0)

end Sys2Proof.Machine
end

