-- ==== Sys2Proof/Machine/Flags.lean ====
section
/-! DEFINITION. Flag, mask and status computations: the legality table and the attribute masks of `MODIFY_QP`
(spec/40_qp_state_machine.md R151 to R163), the flag words of a WQE (R217, R222), opcode legality (R213, R221), and the
decoding of a CQE (spec/30_encoding.md R123 to R125, R131; spec/43_cq_decoder.md R304 to R306). -/

namespace Sys2Proof.Machine

open Sys2Proof

/-! ### `MODIFY_QP` -/

/-- `LEGALITY_TABLE(cur, new, transport)` (R151); `none` is `invalid`. -/
def legalityOf (cfg : Config) (cur new : QpState) (t : Transport) : Option LegalityRow :=
  cfg.legality.find? fun r => decide (r.cur = cur ∧ r.new = new ∧ r.transport = t)

/-- `cur` of R154: a supplied `CUR_STATE` replaces the cached state, and DRAINING reads as SQD. -/
def curState (x : Qp) (op : Operands) : QpState :=
  let raw := if hasAttr op.mask .curState then op.attrs.curQpState else x.state
  if raw = .draining then .sqd else raw

/-- `new` of R154: without `STATE` the requested state is the current one. -/
def newState (x : Qp) (op : Operands) : QpState :=
  if hasAttr op.mask .state then op.attrs.qpState else curState x op

/-- The firmware transition of a pair (R159). -/
def transitionOf (cur new : QpState) : Option Transition :=
  match new, cur with
  | .err, _ => some .any2err
  | .reset, _ => some .any2rst
  | .init, .reset => some .rst2init
  | .init, .init => some .init2init
  | .rtr, .init => some .init2rtr
  | .rts, .rtr => some .rtr2rts
  | .rts, .rts => some .rts2rts
  | .rts, .sqd => some .sqd2rts
  | .rts, .sqe => some .sqerr2rts
  | .sqd, .rts => some .rts2sqd
  | .sqd, .sqd => some .sqd2sqd
  | _, _ => none

/-- Is a state of 7 supplied where none may be (R155)? -/
def suppliesDraining (op : Operands) : Bool :=
  (hasAttr op.mask .curState && decide (op.attrs.curQpState = .draining))
    || (hasAttr op.mask .state && decide (op.attrs.qpState = .draining))

/-- The row of a legal request (R155): `none` is `INVALID_TRANSITION`. A pair without a transition code of R159 is none
(notes/assumptions/31.md). -/
def modifyRow (cfg : Config) (x : Qp) (op : Operands) : Option LegalityRow :=
  if suppliesDraining op ∨ transitionOf (curState x op) (newState x op) = none then none
  else legalityOf cfg (curState x op) (newState x op) x.transport

/-- The bounds of R157: is a supplied attribute out of range? -/
def attrsOutOfRange (cfg : Config) (op : Operands) : Bool :=
  (hasAttr op.mask .port && (decide (op.attrs.portNum = 0) || decide (op.attrs.portNum.toNat > cfg.numPorts)))
    || (hasAttr op.mask .pkeyIndex && decide (op.attrs.pkeyIndex.toNat ≥ cfg.pkeyTableLen))
    || (hasAttr op.mask .maxQpRdAtomic && decide (op.attrs.maxRdAtomic.toNat > cfg.maxQpInitRdma))
    || (hasAttr op.mask .maxDestRdAtomic && decide (op.attrs.maxDestRdAtomic.toNat > cfg.maxQpRespRdma))

/-- The checks of R155 to R157 in their order; `none` where all pass. -/
def modifyError (cfg : Config) (x : Qp) (op : Operands) : Option Status :=
  match modifyRow cfg x op with
  | none => some .invalidTransition
  | some row =>
    if op.mask &&& row.required ≠ row.required then some .missingAttr
    else if op.mask &&& ~~~(row.required ||| row.opt ||| 1) ≠ 0 then some .extraAttr
    else if attrsOutOfRange cfg op then some .outOfRange
    else none

/-- `op.value(a)` (R106). -/
def attrValue (v : AttrValues) (a : Attr) : BitVec 320 :=
  match a with
  | .state => BitVec.ofNat 320 (qpStateCode v.qpState)
  | .curState => BitVec.ofNat 320 (qpStateCode v.curQpState)
  | .enSqdAsyncNotify => v.enSqdAsyncNotify.setWidth 320
  | .accessFlags => v.accessFlags.setWidth 320
  | .pkeyIndex => v.pkeyIndex.setWidth 320
  | .port => v.portNum.setWidth 320
  | .qkey => v.qkey.setWidth 320
  | .av => v.av.setWidth 320
  | .pathMtu => v.pathMtu.setWidth 320
  | .timeout => v.timeout.setWidth 320
  | .retryCnt => v.retryCnt.setWidth 320
  | .rnrRetry => v.rnrRetry.setWidth 320
  | .rqPsn => v.rqPsn.setWidth 320
  | .maxQpRdAtomic => v.maxRdAtomic.setWidth 320
  | .altPath => v.altPath
  | .minRnrTimer => v.minRnrTimer.setWidth 320
  | .sqPsn => v.sqPsn.setWidth 320
  | .maxDestRdAtomic => v.maxDestRdAtomic.setWidth 320
  | .pathMigState => v.pathMigState.setWidth 320
  | .cap => v.cap.setWidth 320
  | .destQpn => v.destQpNum.setWidth 320

/-- The value at an attribute. -/
def attrGet {α : Type} (l : List (Attr × α)) (a : Attr) : Option α :=
  match l with
  | [] => none
  | (b, v) :: l => if b = a then some v else attrGet l a

/-- The supplied attributes, in the order of their bits (R160). -/
def suppliedAttrs (op : Operands) : List (Attr × BitVec 320) :=
  (allAttrs.filter fun a => hasAttr op.mask a).map fun a => (a, attrValue op.attrs a)

/-- Is `a` one of `STATE` and `CUR_STATE`, which are not cached and set no optional-parameter bit (R160, R162)? -/
def isStateAttr (a : Attr) : Bool := decide (a = .state) || decide (a = .curState)

/-- `optpar` (R160): the `OPTPAR_MAP` bits of the supplied attributes. -/
def optparOf (cfg : Config) (mask : Word) : Word :=
  (allAttrs.filter fun a => hasAttr mask a && !isStateAttr a).foldl
    (fun m a => m ||| (attrGet cfg.optpar a).getD 0) 0

/-- `qp.attr_cache` after the commit of R162, in the order of the attribute bits. -/
def mergedCache (old : List (Attr × BitVec 320)) (op : Operands) : List (Attr × BitVec 320) :=
  allAttrs.filterMap fun a =>
    if hasAttr op.mask a && !isStateAttr a then some (a, attrValue op.attrs a)
    else (attrGet old a).map fun v => (a, v)

/-- `qp.state` after an accepted transition (R162). -/
def committedState (old cur new : QpState) : QpState :=
  if cur = .rts ∧ new = .sqd then .draining
  else if old = .draining ∧ new = .sqd then .draining
  else new

/-- The cached fields after an accepted transition (R162). -/
def Qp.commit (x : Qp) (cur new : QpState) (op : Operands) : Qp :=
  { x with
    state := committedState x.state cur new
    port := if hasAttr op.mask .port then op.attrs.portNum else x.port
    accessFlags := if hasAttr op.mask .accessFlags then op.attrs.accessFlags else x.accessFlags
    respDepth := if hasAttr op.mask .maxDestRdAtomic then op.attrs.maxDestRdAtomic else x.respDepth
    attrCache := mergedCache x.attrCache op }

/-- The mailbox image of an accepted request (R160). -/
def contextImage (cfg : Config) (x : Qp) (t : Transition) (new : QpState) (op : Operands) : ContextImage :=
  let args : ContextArgs :=
    { transition := t, qpn := x.qpn, transport := x.transport, new, pd := x.pd, sendCq := x.sendCq, recvCq := x.recvCq,
      srq := x.srq, sq := x.sq.core, rq := x.rq.core, values := suppliedAttrs op, optpar := optparOf cfg op.mask }
  { args, bytes := Config.encodeQpContext args }

/-- `is_qp0` (R16, R164): an MLX QP whose number is `QP0_OF` of its port. DESIGN CHOICE (notes/assumptions/40.md): `QP0_OF(0)`
has no value, and a QP whose port was never set is no QP0. -/
def isQp0 (cfg : Config) (x : Qp) : Bool :=
  decide (x.transport = .mlx) && decide (x.port ≠ 0)
    && decide (cfg.qp0Of[x.port.toNat - 1]? = some x.qpn)

/-- The port call a transition of QP0 makes (R164): 1 `INIT_IB`, 2 `CLOSE_IB`, 0 none. -/
def portCall (cfg : Config) (x : Qp) (cur new : QpState) : Nat :=
  if isQp0 cfg x then
    if cur ≠ .rtr ∧ new = .rtr then 1
    else if cur ≠ .reset ∧ cur ≠ .err ∧ (new = .reset ∨ new = .err) then 2
    else 0
  else 0

/-! ### Posts -/

/-- `POST_STATE_OK(state, ring)` (R212). -/
def postStateOk (cfg : Config) (st : QpState) (isSend : Bool) : Bool :=
  if isSend then cfg.postSendStates.contains st else cfg.postRecvStates.contains st

/-- Does the transport accept the work-request opcode (R213)? -/
def opcodeLegal (t : Transport) (opcode : BitVec 3) : Bool :=
  match t with
  | .rc => decide (opcode ≠ 7)
  | .uc => decide (opcode.toNat ≤ 3)
  | .ud => decide (opcode = 2) || decide (opcode = 3)
  | .mlx => decide (opcode = 2)

/-- The WQE opcode of a work-request opcode (R118, R221). -/
def wqeOpcode (opcode : BitVec 3) : BitVec 6 :=
  match opcode.toNat with
  | 0 => 0x08
  | 1 => 0x09
  | 2 => 0x0A
  | 3 => 0x0B
  | 4 => 0x10
  | 5 => 0x11
  | _ => 0x12

/-- The opcode of every receive and SRQ chain link (R118). -/
def recvLinkOpcode : BitVec 6 := 0x01

/-- The `flags` word of a send WQE (R112, R217). -/
def sendFlags (x : Qp) (wr : SendWr) : Word :=
  (if wr.signaled || x.sigAll then 8 else 0) ||| (if wr.solicited then 2 else 0) ||| 1

/-- The immediate word of a send WQE (R217). -/
def sendImm (wr : SendWr) : Word := if hasImm wr.opcode then wr.imm else 0

/-- The `ee_nds` word of a link (R112, R222 step 7). -/
def eeNds (dbd fence : Bool) (size : Nat) : Word :=
  (if dbd then 0x80 else 0) ||| (if fence then 0x40 else 0) ||| BitVec.ofNat 32 size

/-! ### Completions -/

/-- `SYNDROME_TABLE` (R131). -/
def syndromeStatus (cfg : Config) (b : Byte) : CompStatus :=
  match cfg.syndromes.find? fun e => decide (e.1 = b) with
  | some e => e.2
  | none => .generalErr

/-- Is a CQE an error CQE, by its opcode byte (R123)? -/
def isErrOpcode (b : Byte) : Bool := decide (b &&& 0xFE = 0xFE)

/-- Is a CQE a send completion (R123): the low opcode bit of an error CQE, bit 7 of `is_send` of another? -/
def isSendCqe (opcode sendByte : Byte) : Bool :=
  if isErrOpcode opcode then opcode.getLsbD 0 else sendByte.getLsbD 7

/-- `SEND_MAP` (R124). -/
def sendMap (b : Byte) : CompType × Bool :=
  match b.toNat with
  | 0x08 => (.rdmaWrite, false)
  | 0x09 => (.rdmaWrite, true)
  | 0x0A => (.send, false)
  | 0x0B => (.send, true)
  | 0x10 => (.rdmaRead, false)
  | 0x11 => (.compSwap, false)
  | 0x12 => (.fetchAdd, false)
  | 0x18 => (.bindMw, false)
  | _ => (.none, false)

/-- `RECV_MAP` of bits 4 to 0 (R125). -/
def recvMap (b : BitVec 5) : CompType × Bool :=
  match b.toNat with
  | 0x03 => (.recv, true)
  | 0x05 => (.recv, true)
  | 0x09 => (.recvRdmaWithImm, true)
  | 0x0B => (.recvRdmaWithImm, true)
  | _ => (.recv, false)

/-- A byte of a CQE. -/
def State.cqeByte (s : State) (a off : Nat) : Byte := memGet s.mem (a + off)

/-- A 4-byte field of a CQE. -/
def State.cqeWord (s : State) (a off : Nat) : Word := BitVec.ofNat 32 (s.memRead (a + off) 4)

/-- Is the CQE slot at an address hardware-owned (R122)? -/
def State.cqeHwOwned (s : State) (a : Nat) : Bool := (s.cqeByte a 0x1F).getLsbD 7

/-- The QP number of a CQE (R120). -/
def State.cqeQpn (s : State) (a : Nat) : Num24 := (s.cqeWord a 0).setWidth 24

/-- Is the CQE at an address a send completion (R123)? -/
def State.cqeIsSend (s : State) (a : Nat) : Bool := isSendCqe (s.cqeByte a 0x1C) (s.cqeByte a 0x1D)

/-- `COMPLETION(qp, is_send, is_err, a, wr_id)` (R306). -/
def completion (s : State) (x : Qp) (isSend : Bool) (a : Nat) (wrId : BitVec 64) : CompRec :=
  let base : CompRec := { wrId, qp := x.self, qpn := x.qpn, isSend }
  let opcode := s.cqeByte a 0x1C
  if isErrOpcode opcode then
    { base with status := syndromeStatus s.cfg (s.cqeByte a 0x10), vendorErr := s.cqeByte a 0x11, type := .none }
  else if isSend then
    let m := sendMap opcode
    { base with
      status := .success, type := m.1, immPresent := m.2
      byteLen := if m.1 = .rdmaRead then s.cqeWord a 0x14 else if m.1 = .compSwap ∨ m.1 = .fetchAdd then 8 else 0 }
  else
    let m := recvMap (opcode.extractLsb' 0 5)
    let w := s.cqeWord a 0x10
    { base with
      status := .success, type := m.1, immPresent := m.2, byteLen := s.cqeWord a 0x14
      imm := if m.2 then w else 0
      pkeyIndex := w.extractLsb' 16 16
      srcQp := (s.cqeWord a 0x08).setWidth 24
      slid := BitVec.ofNat 16 (s.memRead (a + 0x0E) 2)
      sl := (s.cqeByte a 0x0C).extractLsb' 4 4
      pathBits := (s.cqeByte a 0x0D).extractLsb' 0 7
      grh := (s.cqeByte a 0x0D).getLsbD 7 }

/-- `WQE_INDEX` on a QP's own ring (R304): `none` is a decode error. -/
def Qp.wqeIndex (x : Qp) (isSend : Bool) (wqe : Nat) : Option Nat :=
  if isSend ∧ wqe < x.sendWqeOffset then none
  else
    let i := if isSend then (wqe - x.sendWqeOffset) >>> x.sq.shift else wqe >>> x.rq.shift
    if i < (x.ring isSend).capacity then some i else none

/-- `WQE_INDEX` on an SRQ (R304): the slot must be posted. -/
def Srq.wqeIndex (x : Srq) (wqe : Nat) : Option Nat :=
  let i := wqe >>> x.shift
  if i < x.capacity ∧ x.posted.getD i false then some i else none

/-- How many WQEs the device has passed when it has passed the newest live one in a slot: the `n`th WQE since the last reset of the
ring stands in slot `n mod capacity` (R206, R211). -/
def Ring.doneTo (r : Ring) (idx : Nat) : Nat := r.live - (r.live % r.capacity + r.capacity - 1 - idx) % r.capacity

/-- The newest error CQE that waits, where it stands at the WQE of number `n`, stands elsewhere in its chain, or for nothing more
(R308). -/
def Ring.moveChain (r : Ring) (n : Nat) (c : Option (Nat × Nat)) : Ring :=
  if r.chain.map (·.1) = some n then { r with chain := c } else r

/-- `TAIL_ADVANCE(r, idx)` (R305). The WQE has completed, so the device has passed it (R85). -/
def Ring.retire (r : Ring) (idx : Nat) : Ring :=
  { r with
    tail := r.tail + BitVec.ofNat 32 (if r.lastComp < idx then idx - r.lastComp else idx + r.capacity - r.lastComp)
    lastComp := idx, devDone := max r.devDone (r.doneTo idx) }

/-- `SRQ_FREE(srq, idx)` under the SRQ lock (R376). -/
def Srq.freeSlot (x : Srq) (idx : Nat) : Srq :=
  if idx < x.capacity ∧ x.posted.getD idx false then
    { x with
      posted := x.posted.set idx false
      freeHead := match x.freeTail with
        | none => some idx
        | some _ => x.freeHead
      link := match x.freeTail with
        | none => x.link.set idx none
        | some t => (x.link.set idx none).set t (some idx)
      freeTail := some idx
      outstanding := x.outstanding - 1 }
  else x

/-- The pop of `POST_SRQ_RECV` (R374): the head slot, and the SRQ without it on its free list. An empty list is unchanged
(the "full" check comes first). -/
def Srq.pop (x : Srq) : Nat × Srq :=
  match x.freeHead with
  | none => (0, x)
  | some ind =>
    (ind, { x with
      freeHead := x.link.getD ind none
      freeTail := if x.link.getD ind none = none then none else x.freeTail
      link := x.link.set ind none })

/-- The slots on the free list, from `i` on, in order; at most `fuel` of them (R46). -/
def Srq.freeListFrom (x : Srq) (fuel : Nat) (i : Option Nat) : List Nat :=
  match fuel with
  | 0 => []
  | n + 1 =>
    match i with
    | none => []
    | some j => j :: x.freeListFrom n (x.link.getD j none)

/-- The free list of an SRQ (R46). -/
def Srq.freeList (x : Srq) : List Nat := x.freeListFrom (x.capacity + 1) x.freeHead

end Sys2Proof.Machine
end

