-- ==== Sys2Proof/Machine/Contract.lean ====
section
/-! DEFINITION. The device's side of the contract (spec/20_memory.md R85 to R90, spec/41_wqe_ring.md R242, spec/42_doorbell.md R257,
R261, R263): what the device keeps of the doorbells, arms and completions, and when it may write a CQE or raise an event. -/

namespace Sys2Proof.Machine

open Sys2Proof

/-! ### The CQE ring -/

/-- How many CQEs from `i` on, at most `n`, are software-owned. -/
def scanOwned (s : State) (x : Cq) (i : Word) (n : Nat) : Nat :=
  match n with
  | 0 => 0
  | n + 1 => if s.cqeHwOwned (x.slotAddr i.toNat) then 0 else 1 + scanOwned s x (i + 1) n

/-- The address of the slot `j` after the consumer index. -/
def Cq.slotAfter (x : Cq) (j : Nat) : Nat := x.slotAddr (x.consIndex + BitVec.ofNat 32 j).toNat

/-- The address of the slot at the device's producer index (R87). -/
def Cq.prodAddr (x : Cq) : Nat := x.slotAddr x.devProd.toNat

/-! ### Consumer index and arms -/

/-- The device has been told that the consumer index went up by `n` (R261: it "adds `w1 + 1` to its copy"). -/
def Cq.tookInc (x : Cq) (n : Nat) : Cq := { x with devCons := x.devCons + BitVec.ofNat 32 n }

/-- The device has been told the consumer index (R89). -/
def Cq.tookIndex (x : Cq) (ci : Word) : Cq := { x with devCons := ci }

/-- An arm is issued (R262); the device takes it later (R79). -/
def Cq.issueArm (x : Cq) (sol : Bool) (sn : Option (BitVec 2)) : Cq := { x with arms := x.arms ++ [{ sol, sn }] }

/-- Does the CQE at an address satisfy a solicited-only arm (R263): an error CQE, or one for a receive? Whether a receive was
solicited no field of a CQE tells (notes/assumptions/39.md). -/
def State.cqeSolicited (s : State) (a : Nat) : Bool := isErrOpcode (s.cqeByte a 0x1C) || !s.cqeIsSend a

/-- Does such a CQE wait in a CQ? -/
def State.solicitedWaits (s : State) (x : Cq) : Bool :=
  (List.range (scanOwned s x x.consIndex x.capacity)).any fun j => s.cqeSolicited (x.slotAfter j)

/-- The device takes the `k`th arm issued (R263): one whose sequence number is not its own modulo 4 is stale and ignored;
another takes the place of the arm it held. `waits` is whether a CQE that satisfies a solicited-only arm is in the ring already
(R262: whether the device then raises an event "is the device's business"). -/
def Cq.takeArm (x : Cq) (k : Nat) (waits : Bool) : Cq :=
  match x.arms[k]? with
  | none => x
  | some a =>
    { x with
      arms := x.arms.eraseIdx k
      armed := if a.sn = none ∨ a.sn = some (x.devSn.setWidth 2) then some { a with met := waits } else x.armed }

/-- May the device raise a completion event for a CQ (R90, R263)? -/
def Cq.mayNotify (x : Cq) : Bool :=
  match x.armed with
  | none => false
  | some a => !a.sol || a.met

/-- The CQ after the device has raised its event: disarmed until the next arm (R263), the sequence number one higher (R464). -/
def Cq.notified (x : Cq) : Cq := { x with armed := none, devSn := x.devSn + 1 }

/-- The CQ after the device has written a CQE; `sol` says that it satisfies a solicited-only arm. -/
def Cq.produced (x : Cq) (sol : Bool) : Cq :=
  { x with devProd := x.devProd + 1, armed := x.armed.map fun a => { a with met := a.met || sol } }

/-- The CQ of a number, changed. -/
def State.onCqNum (s : State) (cqn : Num24) (f : Cq → Cq) : State :=
  match s.lookupNum .cq cqn with
  | none => s
  | some c =>
    match s.cq? c with
    | none => s
    | some x => s.setCq c (f x)

/-- The QP of a number, changed. -/
def State.onQpNum (s : State) (qpn : Num24) (f : Qp → Qp) : State :=
  match s.lookupNum .qp qpn with
  | none => s
  | some q =>
    match s.qp? q with
    | none => s
    | some x => s.setQp q (f x)

/-- The SRQ of a number, changed. -/
def State.onSrqNum (s : State) (srqn : Num24) (f : Srq → Srq) : State :=
  match s.lookupNum .srq srqn with
  | none => s
  | some r =>
    match s.srq? r with
    | none => s
    | some y => s.setSrq r (f y)

/-- A QP one of whose rings a `LEGACY` doorbell has been rung for, naming the WQE at an offset (R86, R126, R127). -/
def Qp.rungAt (x : Qp) (isSend : Bool) (off : Nat) : Qp :=
  match x.wqeIndex isSend off with
  | none => x
  | some i => x.setRing isSend ((x.ring isSend).cover ((x.ring isSend).doneTo i))

/-- As `Qp.rungAt`, for an SRQ. -/
def Srq.rungAt (x : Srq) (off : Nat) : Srq :=
  match x.queue.find? fun e => decide (e.1 = off >>> x.shift) with
  | none => x
  | some e => x.cover e.2

/-- What a doorbell that is rung by itself tells the device: of a CQ the `LEGACY` increment and the arms (R128, R129, R89, R263), of a
`LEGACY` ring that the WQEs from the one it names on may be read (R86). In `MEMFREE` the records say that. -/
def State.deviceGets (s : State) (i : Instr) : State :=
  match i with
  | .dbLegacySend wqe _ _ qpn _ => s.onQpNum qpn (·.rungAt true (wqe.toNat * 64))
  | .dbLegacyRecv wqe _ qpn _ => s.onQpNum qpn (·.rungAt false (wqe.toNat * 64))
  | .dbLegacySrq wqe srqn _ => s.onSrqNum srqn (·.rungAt (wqe.toNat * 64))
  | .dbLegacyCqInc cqn n => s.onCqNum cqn fun x => x.tookInc (n.toNat + 1)
  | .dbLegacyCqArm sol cqn => s.onCqNum cqn fun x => x.issueArm sol none
  | .dbMemfreeCqArm sn sol cqn _ => s.onCqNum cqn fun x => x.issueArm sol (some sn)
  | _ => s

/-- The ring whose record has shown the device a count: the device "takes each value modulo 65536 and compares it with its own
count" (R257). The first that differs from the 0 it starts with covers the first WQE (R86), and the headers lead to the others. -/
def Ring.counted (r : Ring) (w0 : Word) : Ring := if w0.toNat % 65536 = 0 then r else r.cover 1

def Srq.counted (x : Srq) (w0 : Word) : Srq := if w0.toNat % 65536 = 0 then x else x.cover 1

/-- A QP of which the device has read record `r`. -/
def Qp.readRec (x : Qp) (r : Nat) (w0 : Word) : Qp :=
  { x with
    sq := if x.sqDbRec = some r then x.sq.counted w0 else x.sq
    rq := if x.rqDbRec = some r then x.rq.counted w0 else x.rq }

/-- What word 0 of record `r`, written by itself, tells the device (R86, R89, R130): the consumer index of the CQ whose record it
is, the count of the ring whose record it is. -/
def State.deviceReads (s : State) (r : Nat) (w0 : Word) : State :=
  { s with
    qps := s.qps.map fun e => (e.1, e.2.readRec r w0)
    cqs := s.cqs.map fun e => if e.2.setCiRec = some r then (e.1, e.2.tookIndex w0) else e
    srqs := s.srqs.map fun e => if e.2.dbRec = some r then (e.1, e.2.counted w0) else e }

/-! ### Completion order (R85) and the opcode echo (R242) -/

/-- Is `LEGACY_ERR` due: an error CQE in `LEGACY` (R301)? -/
def State.legacyErrDue (s : State) (a : Nat) : Nat :=
  if isErrOpcode (s.cqeByte a 0x1C) ∧ s.mode = .legacy then 1 else 0

/-- The doorbell credit that an error CQE with credit `cnt`, of the WQE whose header is at `h`, has for the next WQE of the chain
(R308); `none` where the chain or the credit is at its end there. -/
def State.chainNext (s : State) (h cnt : Nat) : Option Nat :=
  let nds := s.memRead (h + 4) 4 % 64
  let dbd := s.memRead (h + 4) 4 / 128 % 2
  if nds = 0 ∨ (cnt = 0 ∧ dbd = 1) then none else some ((cnt + 65536 - dbd) % 65536)

/-- The address of the WQE of number `n` of a QP's own ring: WQE `n` stands in slot `(n - 1) mod capacity` (R206, R211). -/
def Qp.wqeAddr (x : Qp) (isSend : Bool) (n : Nat) : Nat := x.slotAddr isSend ((n - 1) % (x.ring isSend).capacity)

/-- The number of the last WQE that a `LEGACY` error CQE of the WQE of number `n`, with doorbell credit `cnt`, completes: "one device
error CQE yields one completion record per WQE from the failed one to the end of its chain or doorbell credit" (R308). A link leads
from a WQE to the next post (R222). `fuel` is how many WQEs are live after it. -/
def State.chainEnd (s : State) (x : Qp) (isSend : Bool) (fuel n cnt : Nat) : Nat :=
  match fuel with
  | 0 => n
  | fuel + 1 => (s.chainNext (x.wqeAddr isSend n) cnt).elim n fun c => s.chainEnd x isSend fuel (n + 1) c

/-- Does such a CQE stand for live WQEs only: does R308 find the end of its chain or credit at one of the `fuel` WQEs that are live
after the WQE of number `n`, or at that one? In a ring of one slot the WQE's link names the WQE itself (R467). -/
def State.chainCloses (s : State) (x : Qp) (isSend : Bool) (fuel n cnt : Nat) : Bool :=
  match fuel with
  | 0 => (s.chainNext (x.wqeAddr isSend n) cnt).isNone
  | fuel + 1 => (s.chainNext (x.wqeAddr isSend n) cnt).elim true fun c => s.chainCloses x isSend fuel (n + 1) c

/-- How many WQEs of a QP's own ring the device has passed: those up to the last one it has reported, and those that the newest
error CQE that waits in `LEGACY` stands for, up to the end of its chain in the state of this moment. -/
def State.ringDone (s : State) (x : Qp) (isSend : Bool) : Nat :=
  let r := x.ring isSend
  match r.chain with
  | none => r.devDone
  | some (n, cnt) => max r.devDone (s.chainEnd x isSend (if r.live < n + r.capacity then r.live - n else 0) n cnt)

/-- May the device pass the WQE in slot `i` without a completion? "non-signaled sends may be silently skipped" (R85): its header does
not ask for one (R217). -/
def State.skippable (s : State) (x : Qp) (isSend : Bool) (i : Nat) : Bool :=
  isSend && decide (s.memRead (x.slotAddr true i + 8) 4 / 8 % 2 = 0)

/-- The ring after the device, having passed `done` WQEs, has reported the completion of the WQE in slot `idx`; `none` where it has
passed that WQE, where it may not read it or one before it that it has not passed (R86), or where one of those has to have a
completion of its own (R85; `skip` says of a slot that it has not). -/
def Ring.reports (r : Ring) (skip : Nat → Bool) (done idx : Nat) : Option Ring :=
  let n := r.doneTo idx
  if idx < r.capacity ∧ done < n ∧ r.first ≠ 0 ∧ r.first ≤ done + 1
      ∧ (List.range (n - (done + 1))).all (fun k => skip ((done + k) % r.capacity)) = true then
    some { r with devDone := n }
  else none

/-- Does the CQE at an address echo the opcode of the WQE in slot `i` (R242, D37)? A success send CQE does; every other CQE has an
opcode byte of its own. -/
def State.echoes (s : State) (x : Qp) (isSend : Bool) (a i : Nat) : Bool :=
  !isSend || isErrOpcode (s.cqeByte a 0x1C) || decide (s.cqeByte a 0x1C = (x.sq.ops.getD i 0).setWidth 8)

/-- Is a post in progress on a send ring of one slot? The link of its next WQE is in that slot too and may be in the batch of the WQE
before it (R222, R467). -/
def State.oneSlotPost (s : State) (q : Nat) (isSend : Bool) (r : Ring) : Bool :=
  isSend && decide (r.capacity = 1) && (s.holder (.sq q)).isSome

/-- A QP's own ring after its completion has been reported in the CQE at an address: an error CQE in `LEGACY` stands for the chain
from its WQE on, as far as its doorbell credit goes (R308); `none` where that would be further than the last live WQE
(notes/assumptions/21.md), also by the link of a post in progress (DESIGN CHOICE, notes/assumptions/47.md). -/
def State.startChain (s : State) (q : Nat) (x : Qp) (isSend : Bool) (a : Nat) (r : Ring) : Option Ring :=
  if s.legacyErrDue a = 1 then
    let cnt := s.memRead (a + 0x12) 2
    if s.chainCloses x isSend (r.live - r.devDone) r.devDone cnt && !s.oneSlotPost q isSend r then
      some { r with chain := some (r.devDone, cnt) }
    else none
  else some r

/-- The state after the device has reported the CQE at an address of a QP's own ring; one that names no slot (R303) is in no
order. -/
def State.reportRing (s : State) (q : Nat) (x : Qp) (isSend : Bool) (a : Nat) : Option State :=
  match x.wqeIndex isSend (s.cqeWord a 0x18).toNat with
  | none => some s
  | some i =>
    if s.echoes x isSend a i then
      (((x.ring isSend).reports (s.skippable x isSend) (s.ringDone x isSend) i).bind (s.startChain q x isSend a)).map fun r =>
        s.setQp q (x.setRing isSend r)
    else none

/-- As `reportRing`, for a receive CQE of a QP with an SRQ: the slot is one whose WQE the device may read (R86) and whose completion
has not been reported, live after the one the device last completed for this QP. -/
def State.reportSrq (s : State) (q r : Nat) (x : Qp) (z : Srq) (a : Nat) : Option State :=
  let i := (s.cqeWord a 0x18).toNat >>> z.shift
  if i < z.capacity then
    (z.queue.find? fun e => decide (e.1 = i ∧ x.srqDone < e.2 ∧ z.first ≠ 0 ∧ z.first ≤ e.2)).map fun e =>
      (s.setSrq r { z with queue := z.queue.erase e }).setQp q { x with srqDone := e.2 }
  else some s

/-- The QP that the device means by a QP number: the live one, or one whose entry its destroy has removed and whose object is still
there: the device is silent for that one only after the move to RESET (R88, R182). -/
def State.deviceQp (s : State) (num : Num24) : Option Nat :=
  match s.lookupNum .qp num with
  | some q => some q
  | none => (s.qps.find? fun e => decide (e.2.qpn = num)).map (·.1)

/-- The state after the device has reported the CQE at an address of a QP; one for a receive of a QP with an SRQ is of the SRQ. -/
def State.reportQp (s : State) (q : Nat) (x : Qp) (a : Nat) : Option State :=
  match (if s.cqeIsSend a then none else x.srq) with
  | none => s.reportRing q x (s.cqeIsSend a) a
  | some h =>
    match s.lookup .srq h with
    | none => some s
    | some r =>
      match s.srq? r with
      | none => some s
      | some z => s.reportSrq q r x z a

/-- The state after the device has reported the CQE at an address of the CQ `c`; `none` where "work-request completion order per
QP matches post order" (R85), the publication of the WQE (R86) or the echo of its opcode (R242) would be broken, and where `c`
is not the CQ of that QP for that kind of completion: a QP's completions come in its associated CQs (R25), those of its send
ring in `send_cq`, those of receives in `recv_cq` (R210, R302; DEDUCED, notes/assumptions/42.md). A CQE whose number names no QP
(R303) is in no order and may come in any CQ (notes/assumptions/43.md). -/
def State.reportCqe (s : State) (c a : Nat) : Option State :=
  match (s.deviceQp (s.cqeQpn a)).bind fun q => (s.qp? q).map fun x => (q, x) with
  | none => some s
  | some (q, x) => if s.lookup .cq (x.cqOf (s.cqeIsSend a)) = some c then s.reportQp q x a else none

/-! ### When the device may act (R87 to R90) -/

/-- Has the device failed: has it raised a fatal failure, delivered or not (R90: "After a fatal failure it reads and writes nothing
more")? DESIGN CHOICE (notes/assumptions/44.md): `DEVICE_STOP` ends the failure. No rule says whether a device that has failed acts
again in an instance started after that; in the model it does. -/
def State.deviceFailed (s : State) : Bool :=
  s.fatal || decide ((s.agent eventAgent).cmd = some .eventFatal)
    || s.eventQ.any fun b => decide (decode .event b = .ok .eventFatal)

/-- May the device write into the slot at its producer index of a CQ (R87, R89, R90): it is hardware-owned, and the published
consumer index has freed it? DESIGN CHOICE (notes/assumptions/45.md): no rule says from when the device may write into a new CQ; in
the model it may as soon as the entry of the CQ is live and the slot's owner byte is set, also before the firmware has accepted
`SW2HW_CQ` (R292). -/
def State.deviceWrites (s : State) (x : Cq) : Bool :=
  !s.deviceFailed && s.cqeHwOwned x.prodAddr && decide ((x.devProd - x.devCons).toNat < x.capacity)

/-- May the device raise an event (R90, R263, R423)? An event for a CQ that is gone may still come; R424 drops it. -/
def State.eventAllowed (s : State) (i : Instr) : Bool :=
  !s.deviceFailed && (match i with
    | .eventCompletion num =>
      match (s.lookupNum .cq num).bind s.cq? with
      | some x => x.mayNotify
      | none => true
    | _ => true)

/-- What the device notes of an event it raises. -/
def State.noteRaised (s : State) (i : Instr) : State :=
  match i with
  | .eventCompletion num => s.onCqNum num Cq.notified
  | _ => s

end Sys2Proof.Machine
end

