-- ==== Sys2Proof/Machine/PostCommands.lean ====
section
/-! DEFINITION. The post commands `POST_SEND`, `POST_RECV` (spec/41_wqe_ring.md R210 to R232) and `POST_SRQ_RECV`
(spec/45_srq_free_list.md R374): the checks of a request, the publishing of its WQE, the doorbells. -/

namespace Sys2Proof.Machine

open Sys2Proof

/-! ### Checks -/

/-- The state check of a post (R212): answers 1 where the state accepts it. The read takes no lock but the ring's (R352). -/
def postStateAct (q : Nat) (isSend : Bool) (s : State) : ActRes :=
  withQp q s fun x => .ok (if postStateOk s.cfg x.state isSend then 1 else 0) s

/-- Does the hardware own every slot of a QP's ring (R210)? Answers 1 where it does. -/
def ringFullAct (q : Nat) (isSend : Bool) (s : State) : ActRes :=
  withQp q s fun x => .ok (if (x.ring isSend).count < (x.ring isSend).capacity then 0 else 1) s

/-- `OVERFLOW(r, cq)` (R210): a first look without the CQ lock, and where it finds the ring full a second one with it. The handle the
QP holds to the CQ is resolved under the shard lock of its entry first (DESIGN CHOICE, notes/assumptions/41.md). -/
def overflow (q : Nat) (isSend : Bool) (full room : Prog) : Prog :=
  .act (ringFullAct q isSend) fun f =>
  if f = 0 then room
  else resolveRef .cq (fun s => s.cqHandle q isSend) useFault fun c =>
    acquire (.cq c) <| .act (ringFullAct q isSend) fun g => release (.cq c) <| if g = 0 then room else full

/-- The checks of a send request after overflow, in the order of R216: 1 opcode (R213), 2 scatter/gather count (R214),
3 inline length (R215). -/
def sendCheckAct (q : Nat) (wr : SendWr) (s : State) : ActRes :=
  withQp q s fun x => .ok
    (if !opcodeLegal x.transport wr.opcode then 1
     else if !isInline wr && decide (wr.sg.length > x.sq.maxGs) then 2
     else if isInline wr && decide (inlineLen wr.sg > x.maxInline.toNat) then 3
     else 0) s

/-- The scatter/gather check of a receive request (R214). -/
def recvCheckAct (q : Nat) (wr : RecvWr) (s : State) : ActRes :=
  withQp q s fun x => .ok (if wr.sg.length > x.rq.maxGs then 1 else 0) s

/-- Does a requester own every buffer an inline request names (R430 `BAD_BUFFER`)? -/
def inlineOwned (wr : SendWr) (s : State) : Bool :=
  !isInline wr || wr.sg.all fun e => s.owns (e.addr.toNat, e.length.toNat)

/-! ### Publishing a WQE (R222) -/

/-- Step 1 for a send: the slot's own header, of size 0 (R217). -/
def sendHeaderAct (q ind : Nat) (wr : SendWr) (s : State) : ActRes :=
  withQp q s fun x => .ok 0 (s.writeFields (x.slotAddr true ind) (headerFields (sendFlags x wr) (sendImm wr)))

/-- Step 2 for a send, its transport segments (R218): answers their bytes, which for MLX the header's builder decides. -/
def transportAct (q ind : Nat) (wr : SendWr) (s : State) : ActRes :=
  withQp q s fun x =>
    let fs := transportFields s.mode x wr
    .ok (fieldBytes fs) (s.writeFields (x.slotAddr true ind + 16) fs)

/-- Step 2 for a send, its data part (R219), after transport segments of `tb` bytes. -/
def sendDataAct (q ind tb : Nat) (wr : SendWr) (s : State) : ActRes :=
  withQp q s fun x =>
    let a := x.slotAddr true ind + 16 + tb
    .ok 0 (if isInline wr then s.writeInline a wr.sg else s.writeFields a (dataFields wr.sg))

/-- Step 1 for a receive: the slot's own header (R217). -/
def recvHeaderAct (rr : RingRef) (ind : Nat) (s : State) : ActRes :=
  match s.slotAddr rr ind with
  | some a => .ok 0 (s.writeFields a (headerFields 0 0))
  | none => .fault .useDuringDestroy

/-- The scatter/gather maximum of a receive ring. -/
def State.maxGs (s : State) (rr : RingRef) : Nat :=
  match rr with
  | .sq q => ((s.qp? q).map (·.sq.maxGs)).getD 0
  | .rq q => ((s.qp? q).map (·.rq.maxGs)).getD 0
  | .srq r => ((s.srq? r).map (·.maxGs)).getD 0

/-- Step 2 for a receive: its data segments and, in `MEMFREE`, the terminator of a short list (R219). -/
def recvDataAct (rr : RingRef) (ind : Nat) (wr : RecvWr) (s : State) : ActRes :=
  match s.slotAddr rr ind with
  | some a => .ok 0 (s.writeFields (a + 16) (dataFields wr.sg ++ terminatorFields s.mode wr.sg.length (s.maxGs rr)))
  | none => .fault .useDuringDestroy

/-- Step 3: the work-request id of the slot. -/
def wridAct (rr : RingRef) (ind : Nat) (wrId : BitVec 64) (s : State) : ActRes :=
  match rr with
  | .sq q => withQp q s fun x => .ok 0 (s.setQp q { x with sq := { x.sq with wrid := x.sq.wrid.set ind (some wrId) } })
  | .rq q => withQp q s fun x => .ok 0 (s.setQp q { x with rq := { x.rq with wrid := x.rq.wrid.set ind (some wrId) } })
  | .srq r => withSrq r s fun x => .ok 0 (s.setSrq r { x with wrid := x.wrid.set ind (some wrId) })

/-- Step 5: the link of the chain tail's header to the slot. -/
def linkAct (rr : RingRef) (ind prev : Nat) (op : BitVec 6) (s : State) : ActRes :=
  match s.woff rr ind, s.slotAddr rr prev with
  | some w, some p => .ok 0 (s.memWrite p 4 (linkWord (BitVec.ofNat 26 (w / 64)) op).toNat)
  | _, _ => .fault .useDuringDestroy

/-- The doorbell delimiter of a link (R222): set but for a `LEGACY` send link that is not the first of its batch. -/
def State.dbdOf (s : State) (rr : RingRef) : Bool :=
  match rr, s.mode with
  | .sq _, .legacy => decide (s.me.batch.cnt = 0)
  | _, _ => true

/-- Step 7: the size of the WQE in the chain tail's header, which makes the link to slot `ind` live. -/
def sizeAct (rr : RingRef) (ind prev : Nat) (op : BitVec 6) (fence : Bool) (size : Nat) (s : State) : ActRes :=
  match s.slotAddr rr prev with
  | some p => .ok 0 ((s.memWrite (p + 4) 4 (eeNds (s.dbdOf rr) fence size).toNat).goLive rr ind op)
  | none => .fault .useDuringDestroy

/-- A QP ring after one more WQE is published at slot `ind` (R211, R222 step 9). -/
def Ring.advance (r : Ring) (ind : Nat) : Ring :=
  { r with head := r.head + 1, lastIdx := ind, nextInd := (ind + 1) % r.capacity }

/-- An SRQ after one more WQE is posted in slot `ind` (R374). -/
def Srq.advance (x : Srq) (ind : Nat) : Srq :=
  { x with
    posted := x.posted.set ind true, lastIdx := ind, outstanding := x.outstanding + 1 }

/-- Steps 8 and 9; on an SRQ the counts of R374. -/
def advanceAct (rr : RingRef) (ind : Nat) (s : State) : ActRes :=
  match rr with
  | .sq q => withQp q s fun x => .ok 0 (s.setQp q { x with sq := x.sq.advance ind })
  | .rq q => withQp q s fun x => .ok 0 (s.setQp q { x with rq := x.rq.advance ind })
  | .srq r => withSrq r s fun x => .ok 0 (s.setSrq r (x.advance ind))

/-- Steps 3 to 9 of R222. -/
def publishTail (rr : RingRef) (ind prev : Nat) (wrId : BitVec 64) (op : BitVec 6) (fence : Bool) (size : Nat)
    (k : Prog) : Prog :=
  .act (wridAct rr ind wrId) fun _ => eff State.wmb <|
  .act (linkAct rr ind prev op) fun _ => eff State.wmb <|
  .act (sizeAct rr ind prev op fence size) fun _ => .act (advanceAct rr ind) fun _ => k

/-- `PUBLISH` of a send request; goes on with the size of its WQE. -/
def publishSend (q ind prev : Nat) (wr : SendWr) (k : Nat → Prog) : Prog :=
  .act (sendHeaderAct q ind wr) fun _ => .act (transportAct q ind wr) fun tb => .act (sendDataAct q ind tb wr) fun _ =>
  publishTail (.sq q) ind prev wr.wrId (wqeOpcode wr.opcode) wr.fence (sendUnits tb wr) (k (sendUnits tb wr))

/-- `PUBLISH` of a receive request, on a receive ring or an SRQ. -/
def publishRecv (rr : RingRef) (ind prev size : Nat) (wr : RecvWr) (k : Prog) : Prog :=
  .act (recvHeaderAct rr ind) fun _ => .act (recvDataAct rr ind wr) fun _ =>
  publishTail rr ind prev wr.wrId recvLinkOpcode false size k

/-! ### `POST_SEND` (R230) -/

/-- The requests of a `POST_SEND` from the `k`th on. -/
def sendLoop (q k : Nat) (wrs : List SendWr) : Prog :=
  match wrs with
  | [] => dbEnd <| release (.sq q) <| respond .ok (some k)
  | wr :: wrs =>
    overflow q true (raise .queueFull (some k)) <|
    .act (sendCheckAct q wr) fun c =>
    if c = 1 then raise .invalidOpcode (some k)
    else if c = 2 then raise .tooManySge (some k)
    else if c = 3 then raise .inlineTooLong (some k)
    else
      guard (inlineOwned wr) .badBuffer <|
      ask (fun s => s.nextInd q true) fun ind => ask (fun s => s.lastIdx (.sq q)) fun prev =>
      publishSend q ind prev wr fun size =>
      dbAfterWqe (.sq q) ind wr.fence (wqeOpcode wr.opcode) size <|
      sendLoop q (k + 1) wrs

/-- What `POST_SEND` does before its first request: preconditions, handle, ring lock, state. -/
def postSendOn (op : Operands) (bad : Option Nat) (k : Nat → Prog) : Prog :=
  precond true bad <|
  resolve .qp op.qp true (raise .invalidHandle bad) fun q =>
  acquire (.sq q) <| .act (postStateAct q true) fun okay =>
  if okay = 0 then raise .invalidQpState bad else k q

def postSendProg (op : Operands) : Prog :=
  postSendOn op (some 0) fun q => dbBegin (.sq q) <| sendLoop q 0 op.sendWrs

def execPostSend (s : State) : Host.Outcome State Fault Refusal := runCmd .postSend postSendProg s

/-! ### `POST_RECV` (R232) -/

/-- The requests of a `POST_RECV` from the `k`th on. -/
def recvLoop (q k : Nat) (wrs : List RecvWr) : Prog :=
  match wrs with
  | [] => dbEnd <| release (.rq q) <| respond .ok (some k)
  | wr :: wrs =>
    overflow q false (raise .queueFull (some k)) <|
    .act (recvCheckAct q wr) fun c =>
    if c = 1 then raise .tooManySge (some k)
    else
      ask (fun s => s.nextInd q false) fun ind => ask (fun s => s.lastIdx (.rq q)) fun prev =>
      ask (fun s => recvSize s.mode wr.sg.length (s.maxGs (.rq q))) fun size =>
      publishRecv (.rq q) ind prev size wr <|
      dbAfterWqe (.rq q) ind false recvLinkOpcode size <|
      recvLoop q (k + 1) wrs

/-- What `POST_RECV` does before its first request. -/
def postRecvOn (op : Operands) (bad : Option Nat) (k : Nat → Prog) : Prog :=
  precond true bad <|
  resolve .qp op.qp true (raise .invalidHandle bad) fun q =>
  acquire (.rq q) <| .act (postStateAct q false) fun okay =>
  if okay = 0 then raise .invalidQpState bad else k q

def postRecvProg (op : Operands) : Prog :=
  postRecvOn op (some 0) fun q => dbBegin (.rq q) <| recvLoop q 0 op.recvWrs

def execPostRecv (s : State) : Host.Outcome State Fault Refusal := runCmd .postRecv postRecvProg s

/-! ### `POST_SRQ_RECV` (R374) -/

/-- The checks of an SRQ request in their order: 1 the free list is empty, 2 too many scatter/gather entries. -/
def srqCheckAct (r : Nat) (wr : RecvWr) (s : State) : ActRes :=
  withSrq r s fun x => .ok (if x.freeHead = none then 1 else if wr.sg.length > x.maxGs then 2 else 0) s

/-- The pop of the free list's head: answers the slot. -/
def srqPopAct (r : Nat) (s : State) : ActRes :=
  withSrq r s fun x => .ok x.pop.1 (s.setSrq r x.pop.2)

/-- The requests of a `POST_SRQ_RECV` from the `k`th on. -/
def srqLoop (r k : Nat) (wrs : List RecvWr) : Prog :=
  match wrs with
  | [] => dbEnd <| release (.srq r) <| respond .ok (some k)
  | wr :: wrs =>
    .act (srqCheckAct r wr) fun c =>
    if c = 1 then raise .queueFull (some k)
    else if c = 2 then raise .tooManySge (some k)
    else
      .act (srqPopAct r) fun ind => ask (fun s => s.lastIdx (.srq r)) fun prev =>
      ask (fun s => recvSize s.mode wr.sg.length (s.maxGs (.srq r))) fun size =>
      publishRecv (.srq r) ind prev size wr <|
      dbAfterWqe (.srq r) ind false recvLinkOpcode size <|
      srqLoop r (k + 1) wrs

/-- The `srq` operand of a command that needs one: an operand record without it holds no handle of an SRQ. -/
def srqOperand (op : Operands) : Handle := op.srq.getD {}

def postSrqRecvProg (op : Operands) : Prog :=
  precond true (some 0) <|
  resolve .srq (srqOperand op) true (raise .invalidHandle (some 0)) fun r =>
  acquire (.srq r) <| dbBegin (.srq r) <| srqLoop r 0 op.recvWrs

def execPostSrqRecv (s : State) : Host.Outcome State Fault Refusal := runCmd .postSrqRecv postSrqRecvProg s

end Sys2Proof.Machine
end

