-- ==== Sys2Proof/Machine/CqCommands.lean ====
section
/-! DEFINITION. The CQ commands `CREATE_CQ`, `POLL_CQ`, `REQ_NOTIFY_CQ`, `DESTROY_CQ`, the publication of a consumer index and
CQ cleaning (spec/43_cq_decoder.md R292 to R315, spec/42_doorbell.md R260 to R262), and the release of an SRQ slot
(spec/45_srq_free_list.md R376). -/

namespace Sys2Proof.Machine

open Sys2Proof

/-! ### Consumer index, SRQ slots -/

/-- The write barrier and the doorbell or record of `CI_PUBLISH` (R260). -/
def ciPublishAct (c n : Nat) (s : State) : ActRes :=
  withCq c s fun x =>
    .ok 0 (match s.mode with
      | .legacy => (s.setCq c (x.tookInc n)).ring .cq (.dbLegacyCqInc x.cqn (BitVec.ofNat 32 (n - 1)))
      | .memfree => (s.setCq c (x.tookIndex x.consIndex)).wmb.writeRec0 x.setCiRec x.consIndex.toNat)

/-- `CI_PUBLISH(cq, n)` (R260): nothing where nothing was consumed. -/
def ciPublish (c n : Nat) (k : Prog) : Prog := if n = 0 then k else .act (ciPublishAct c n) fun _ => k

/-- The slot that `idx` names, given back to the free list. -/
def srqFreeAct (r : Nat) (idx : Srq → Nat) (s : State) : ActRes :=
  withSrq r s fun x => .ok 0 (s.setSrq r (x.freeSlot (idx x)))

/-- `SRQ_FREE(srq, idx)` (R376). The index may depend on the SRQ's slot size, which is read under the lock (R370). -/
def srqFree (r : Nat) (idx : Srq → Nat) (k : Prog) : Prog :=
  acquire (.srq r) <| .act (srqFreeAct r idx) fun _ => release (.srq r) k

/-! ### CQ cleaning (R310) -/

/-- The scan for the end of the software-owned run: answers `prod - cons_index`. -/
def cleanScanAct (c : Nat) (s : State) : ActRes :=
  withCq c s fun x => .ok (scanOwned s x x.consIndex x.capacity) s

/-- The test of the CQE `j` after the consumer index: 0 another QP's, 1 matching with no SRQ slot to free, `2 + wqe` matching a
receive into the SRQ slot that `wqe` names. `r` is the arena index of the SRQ, 0 for none. -/
def cleanTestAct (c r : Nat) (qpn : Num24) (j : Nat) (s : State) : ActRes :=
  withCq c s fun x =>
    let a := x.slotAfter j
    if s.cqeQpn a ≠ qpn then .ok 0 s
    else .ok (if r ≠ 0 ∧ s.cqeIsSend a = false then 2 + (s.cqeWord a 0x18).toNat else 1) s

/-- A surviving CQE moved `n` slots toward the producer: a copy of 32 bytes (R74). -/
def cleanCopyAct (c j n : Nat) (s : State) : ActRes :=
  withCq c s fun x => .ok 0 (s.writeBytes (x.slotAfter (j + n)) (memGetBytes s.mem (x.slotAfter j) 32))

/-- The scan from the newest CQE (`todo` of them are left) to the oldest; `nfreed` CQEs have matched. -/
def cleanLoop (c r : Nat) (qpn : Num24) (todo nfreed : Nat) (k : Nat → Prog) : Prog :=
  match todo with
  | 0 => k nfreed
  | j + 1 =>
    .act (cleanTestAct c r qpn j) fun a =>
    if a = 0 then
      if nfreed = 0 then cleanLoop c r qpn j nfreed k
      else .act (cleanCopyAct c j nfreed) fun _ => cleanLoop c r qpn j nfreed k
    else if a = 1 then cleanLoop c r qpn j (nfreed + 1) k
    else srqFree r (fun y => (a - 2) >>> y.shift) <| cleanLoop c r qpn j (nfreed + 1) k

/-- The owner bytes of `n` slots after the consumer index, from `j` on, given to the hardware. -/
def giveSlots (s : State) (x : Cq) (j n : Nat) : State :=
  match n with
  | 0 => s
  | n + 1 => giveSlots (s.memWrite (x.slotAfter j + 0x1F) 1 0x80) x (j + 1) n

def giveSlotsAct (c n : Nat) (s : State) : ActRes := withCq c s fun x => .ok 0 (giveSlots s x 0 n)

/-- The consumer index moved on by `n`. -/
def advanceConsAct (c n : Nat) (s : State) : ActRes :=
  withCq c s fun x => .ok 0 (s.setCq c { x with consIndex := x.consIndex + BitVec.ofNat 32 n })

/-- `CQ_CLEAN(cq, qpn, srq)` of a CQ and an SRQ by arena index (0 for no SRQ). -/
def cqCleanOn (c r : Nat) (qpn : Num24) (k : Prog) : Prog :=
  acquire (.cq c) <|
  .act (cleanScanAct c) fun n => eff State.rmb <|
  cleanLoop c r qpn n 0 fun nfreed =>
  if nfreed = 0 then release (.cq c) k
  else
    .act (giveSlotsAct c nfreed) fun _ => eff State.wmb <|
    .act (advanceConsAct c nfreed) fun _ => ciPublish c nfreed <| release (.cq c) k

/-- The QP number of a QP, as a step reads it. -/
def State.qpnOf (s : State) (q : Nat) : Nat := ((s.qp? q).map (·.qpn.toNat)).getD 0

/-- `CQ_CLEAN` of one of a QP's CQs, with its SRQ where `withSrq` says so (R166, R182). The handles the QP holds to them are
resolved under the shard locks of their entries first (DESIGN CHOICE, notes/assumptions/41.md). -/
def cqClean (q : Nat) (isSend withSrq : Bool) (k : Prog) : Prog :=
  ask (fun s => s.qpnOf q) fun qpn =>
  resolveRef .cq (fun s => s.cqHandle q isSend) useFault fun c =>
  ask (fun s => if withSrq ∧ (s.srqHandle q).isSome then 1 else 0) fun viaSrq =>
  if viaSrq = 0 then cqCleanOn c 0 (BitVec.ofNat 24 qpn) k
  else resolveRef .srq (fun s => s.srqHandle q) useFault fun r => cqCleanOn c r (BitVec.ofNat 24 qpn) k

/-- `if qp.send_cq ≠ qp.recv_cq` (R166, R182): answers 1 where the two are one CQ. -/
def State.sameCqs (s : State) (q : Nat) : Nat := if s.cqHandle q true = s.cqHandle q false then 1 else 0

/-- The cleaning of both CQs of a QP: the receive CQ with its SRQ, and the send CQ where it is another. -/
def cleanBoth (q : Nat) (k : Prog) : Prog :=
  cqClean q false true <|
  ask (fun s => s.sameCqs q) fun same => if same = 1 then k else cqClean q true false k

/-! ### `CREATE_CQ` (R292) -/

/-- The memory a `CREATE_CQ` names (R290). -/
def createCqBuf (op : Operands) (_ : State) : Nat × Nat := (op.bufBase.toNat, 32 * cqCapacity op.cqDepth.toNat)

def createCqBad (op : Operands) (s : State) : Bool :=
  decide (cqCapacity op.cqDepth.toNat > s.cfg.maxCqes) || decide (op.bufBase.toNat % 32 ≠ 0)

/-- A new CQ object (R40), placed in its arena. -/
def newCq (op : Operands) (s : State) (h : Handle) (o : Nat) : State :=
  s.setCq o
    { self := h, cqn := op.cqn, capacity := cqCapacity op.cqDepth.toNat, bufBase := op.bufBase, consIndex := 0, armSn := 1,
      setCiRec := s.me.recs[0]?, armRec := s.me.recs[1]?, attach := 0, decodeErrors := 0, devProd := 0, devCons := 0 }

/-- The owner bytes of a new CQ ring: every slot hardware-owned. -/
def initOwners (s : State) (a n : Nat) : State :=
  match n with
  | 0 => s
  | n + 1 => initOwners (s.memWrite (a + 0x1F) 1 0x80) (a + 32) n

def initOwnersAct (c : Nat) (s : State) : ActRes := withCq c s fun x => .ok 0 (initOwners s x.bufBase.toNat x.capacity)

def sw2hwCqCall (c : Nat) (s : State) : MailboxCall :=
  match s.cq? c with
  | some x => .sw2hwCq x.cqn x.capacity x.bufBase x.setCiRec x.armRec
  | none => .sw2hwCq 0 0 0 none none

/-- `REMOVE` of an object a create has just inserted, by the handle the object holds (R344). -/
def removeNew (kind : Kind) (h : State → Handle) (k : Prog) : Prog :=
  underShard kind (fun s => (h s).index.toNat) (fun s => removeNewAct kind (h s) s) fun _ => k

def State.cqSelf (s : State) (c : Nat) : Handle := ((s.cq? c).map (·.self)).getD {}

def State.eraseCq (s : State) (c : Nat) : State := { s with cqs := assocDel s.cqs c }

def createCqProg (op : Operands) : Prog :=
  precond true none <|
  ask (fun s => if createCqBad op s then 1 else 0) fun bad =>
  if bad = 1 then raise .outOfRange
  else
    guard (fun s => s.bufferOk (createCqBuf op s)) .badBuffer <|
    allocRecs [(1, op.cqn), (5, op.cqn)] <|
    insert .cq op.cqn (createCqBuf op) (newCq op) (freeTaken 2 (raise .busy)) fun c =>
    .act (initOwnersAct c) fun _ =>
    mailbox (sw2hwCqCall c) fun fw => setFwStatus fw <|
    if fw ≠ 0 then
      removeNew .cq (fun s => s.cqSelf c) <| eff (fun s => s.eraseCq c) <| freeTaken 2 <| raise .mailboxFail
    else
      eff (fun s => s.setResp fun r =>
        { r with cq := some (s.cqSelf c), capacity := some (cqCapacity op.cqDepth.toNat) }) <|
      respond .ok none

def execCreateCq (s : State) : Host.Outcome State Fault Refusal := runCmd .createCq createCqProg s

/-! ### `POLL_CQ` (R300 to R308) -/

/-- The address of the CQE slot a poll inspects next. -/
def headAddrAct (c : Nat) (s : State) : ActRes := withCq c s fun x => .ok x.headAddr s

/-- A decode error counted (R303). -/
def decodeErrorAct (c : Nat) (s : State) : ActRes :=
  withCq c s fun x => .ok 0 (s.setCq c { x with decodeErrors := x.decodeErrors + 1 })

/-- The slot given back to the hardware and the consumer index moved on. -/
def consume (c a : Nat) (k : Prog) : Prog :=
  eff (fun s => s.memWrite (a + 0x1F) 1 0x80) <| .act (advanceConsAct c 1) fun _ => k

/-- `WQE_INDEX` as a step: 0 is a decode error, `i + 1` slot `i`. -/
def qpIndexAct (q : Nat) (isSend : Bool) (wqe : Nat) (s : State) : ActRes :=
  withQp q s fun x => .ok (match x.wqeIndex isSend wqe with
    | some i => i + 1
    | none => 0) s

def srqIndexAct (r wqe : Nat) (s : State) : ActRes :=
  withSrq r s fun x => .ok (match x.wqeIndex wqe with
    | some i => i + 1
    | none => 0) s

/-- The read of a work-request id; an element that no post has written is a fault (R34). -/
def readWrid (l : List (Option (BitVec 64))) (i : Nat) (s : State) : ActRes :=
  match l.getD i none with
  | some w => .ok w.toNat s
  | none => .fault .readUnset

def qpWridAct (q : Nat) (isSend : Bool) (i : Nat) (s : State) : ActRes :=
  withQp q s fun x => readWrid (x.ring isSend).wrid i s

def srqWridAct (r i : Nat) (s : State) : ActRes := withSrq r s fun x => readWrid x.wrid i s

/-- `TAIL_ADVANCE` (R305): answers the number of the WQE in slot `i`, counted from the ring's last reset (notes/assumptions/21.md). -/
def tailAdvanceAct (q : Nat) (isSend : Bool) (i : Nat) (s : State) : ActRes :=
  withQp q s fun x => .ok ((x.ring isSend).doneTo i) (s.setQp q (x.setRing isSend ((x.ring isSend).retire i)))

/-- `COMPLETION` and `resp.wc[n] <- rec` (R306, R300). -/
def recordAct (q : Nat) (isSend : Bool) (a w : Nat) (s : State) : ActRes :=
  withQp q s fun x =>
    .ok 0 (s.setResp fun r => { r with wc := r.wc ++ [completion s x isSend a (BitVec.ofNat 64 w)] })

/-- The reads of `LEGACY_ERR` (R308) for the error CQE at `a` of the WQE in slot `i`, of number `n`: answers 0 where the CQE is at the
end of its chain or credit, else 1 more than what the next WQE of the chain is, its `wqe` times 65536 and the credit left for it. The
header is that of the slot at this moment: a post may have filled the slot anew since the tail's advance. One step (DESIGN CHOICE,
notes/assumptions/47.md). The model's own note of what the CQE stands for follows. -/
def legacyErrAct (q : Nat) (isSend : Bool) (i a n : Nat) (s : State) : ActRes :=
  withQp q s fun x =>
    let h := x.slotAddr isSend i
    match s.chainNext h (s.memRead (a + 0x12) 2) with
    | none => .ok 0 (s.setQp q (x.setRing isSend ((x.ring isSend).moveChain n none)))
    | some c =>
      .ok (1 + ((s.memRead h 4 / 64 * 64 + s.memRead (h + 4) 4 % 64) * 65536 + c))
        (s.setQp q (x.setRing isSend ((x.ring isSend).moveChain n (some (n + 1, c)))))

/-- The writes of `LEGACY_ERR` (R308): the error CQE at `a` is kept for the next WQE of its chain, `v` as `legacyErrAct` answers
it, less 1. -/
def keepErr (a v : Nat) (k : Prog) : Prog :=
  eff (fun s => s.memWrite (a + 0x12) 2 (v % 65536)) <|
  eff (fun s => s.memWrite (a + 0x18) 4 (v / 65536)) <|
  eff (fun s => s.memWrite (a + 0x10) 1 0x05) k

/-- One software-owned CQE at address `a`, after the read barrier: `POLL_ONE` (R301), and what R300 does with its outcome.
`n`, `freed` and `derr` are the counts so far; `next` goes on with the new ones. The handle the QP holds to its SRQ is resolved
under the shard lock of the SRQ's entry, and the SRQ's fields are read under its lock (notes/assumptions/41.md). -/
def pollOne (c a n freed derr : Nat) (next : Nat → Nat → Nat → Prog) : Prog :=
  ask (fun s => (s.cqeQpn a).toNat) fun qpn =>
  ask (fun s => if s.cqeIsSend a then 1 else 0) fun snd =>
  ask (fun s => (s.cqeWord a 0x18).toNat) fun wqe =>
  let isSend : Bool := decide (snd = 1)
  let bad := .act (decodeErrorAct c) fun _ => consume c a <| next n (freed + 1) (derr + 1)
  underShard .qp (fun s => s.indexOf .qp (BitVec.ofNat 24 qpn))
    (fun s => .ok ((s.lookupNum .qp (BitVec.ofNat 24 qpn)).getD 0) s) fun q =>
  if q = 0 then bad
  else ask (fun s => if isSend = false ∧ (s.srqHandle q).isSome then 1 else 0) fun viaSrq =>
  if viaSrq = 1 then
    resolveRef .srq (fun s => s.srqHandle q) useFault fun r =>
    acquire (.srq r) <| .act (srqIndexAct r wqe) fun i => release (.srq r) <|
    if i = 0 then bad
    else .act (srqWridAct r (i - 1)) fun w => srqFree r (fun _ => i - 1) <| .act (recordAct q isSend a w) fun _ =>
      consume c a <| next (n + 1) (freed + 1) derr
  else
    .act (qpIndexAct q isSend wqe) fun i =>
    if i = 0 then bad
    else .act (qpWridAct q isSend (i - 1)) fun w =>
      .act (tailAdvanceAct q isSend (i - 1)) fun num => .act (recordAct q isSend a w) fun _ =>
      ask (fun s => s.legacyErrDue a) fun due =>
      if due = 0 then consume c a <| next (n + 1) (freed + 1) derr
      else .act (legacyErrAct q isSend (i - 1) a num) fun keep =>
        if keep = 0 then consume c a <| next (n + 1) (freed + 1) derr
        else keepErr a (keep - 1) <| next (n + 1) freed derr

/-- The end of a poll: the consumer index published once, the lock released, the counts reported (R300). -/
def pollEnd (c n freed derr : Nat) : Prog :=
  ciPublish c freed <| release (.cq c) <|
  eff (fun s => s.setResp fun r =>
    { r with n := some (BitVec.ofNat 32 n), decodeErrors := some (BitVec.ofNat 32 derr) }) <|
  respond .ok none

/-- The loop of R300. A poll that holds the CQ lock consumes at most `capacity` slots and keeps at most `max` CQEs (R300,
R461), so `fuel` is not used up (notes/assumptions/17.md). -/
def pollLoop (c max fuel n freed derr : Nat) : Prog :=
  match fuel with
  | 0 => pollEnd c n freed derr
  | fuel + 1 =>
    if n < max then
      .act (headAddrAct c) fun a => ask (fun s => if s.cqeHwOwned a then 1 else 0) fun hw =>
      if hw = 1 then pollEnd c n freed derr
      else eff State.rmb <| pollOne c a n freed derr fun n freed derr => pollLoop c max fuel n freed derr
    else pollEnd c n freed derr

/-- What a poll does before its loop: preconditions, handle, CQ lock. -/
def pollOn (op : Operands) (k : Nat → Prog) : Prog :=
  precond false none <|
  resolve .cq op.cq true (raise .invalidHandle) fun c => acquire (.cq c) <| k c

/-- The slots of a CQ. -/
def cqCapacityAct (c : Nat) (s : State) : ActRes := withCq c s fun x => .ok x.capacity s

def pollCqProg (op : Operands) : Prog :=
  pollOn op fun c => .act (cqCapacityAct c) fun cap =>
  pollLoop c op.maxEntries.toNat (op.maxEntries.toNat + cap + 1) 0 0 0

def execPollCq (s : State) : Host.Outcome State Fault Refusal := runCmd .pollCq pollCqProg s

/-! ### `REQ_NOTIFY_CQ` (R262) -/

/-- The `LEGACY` arm doorbell; the arm is the device's to take (R263). -/
def legacyArmAct (c : Nat) (sol : Bool) (s : State) : ActRes :=
  withCq c s fun x => .ok 0 ((s.ring .cq (.dbLegacyCqArm sol x.cqn)).setCq c (x.issueArm sol none))

/-- The 64-bit value of an arm record: the consumer index, then number, type 2, sequence number and command (R130, R262). -/
def armRecord (ci : Word) (cqn : Num24) (sn : BitVec 2) (sol : Bool) : BitVec 64 :=
  ci ++ (cqn ++ (2 : BitVec 3) ++ sn ++ (if sol then (1 : BitVec 3) else 2))

/-- The arm record of a `MEMFREE` arm, after a write barrier; one 8-byte write. -/
def armRecordAct (c : Nat) (sol : Bool) (sn ci : Nat) (s : State) : ActRes :=
  withCq c s fun x => .ok 0 (match x.armRec with
    | some r => s.wmb.memWrite (s.recAddr r) 8
        (armRecord (BitVec.ofNat 32 ci) x.cqn (BitVec.ofNat 2 sn) sol).toNat
    | none => s.wmb)

/-- The `MEMFREE` arm doorbell; the arm is the device's to take (R263). -/
def memfreeArmAct (c : Nat) (sol : Bool) (sn ci : Nat) (s : State) : ActRes :=
  withCq c s fun x => .ok 0 ((s.ring .cq (.dbMemfreeCqArm (BitVec.ofNat 2 sn) sol x.cqn (BitVec.ofNat 32 ci))).setCq c
    (x.issueArm sol (some (BitVec.ofNat 2 sn))))

def armSnAct (c : Nat) (s : State) : ActRes := withCq c s fun x => .ok (x.armSn.toNat % 4) s
def consIndexAct (c : Nat) (s : State) : ActRes := withCq c s fun x => .ok x.consIndex.toNat s

def reqNotifyCqProg (sol : Bool) (op : Operands) : Prog :=
  precond true none <|
  resolve .cq op.cq true (raise .invalidHandle) fun c => acquire (.cq c) <|
  ask (fun s => if s.mode = .memfree then 1 else 0) fun mf =>
  if mf = 0 then .act (legacyArmAct c sol) fun _ => release (.cq c) <| respond .ok none
  else
    .act (armSnAct c) fun sn => .act (consIndexAct c) fun ci =>
    .act (armRecordAct c sol sn ci) fun _ => .act (memfreeArmAct c sol sn ci) fun _ =>
    release (.cq c) <| respond .ok none

def execReqNotifyCq (sol : Bool) (s : State) : Host.Outcome State Fault Refusal :=
  runCmd (.reqNotifyCq sol) (reqNotifyCqProg sol) s

/-! ### `DESTROY_CQ` (R315) -/

/-- The `DESTROY_CQ` steps; `keep` says whether the response takes the firmware's status, `fin` ends the steps with a
status (R441 runs them for every live CQ and goes on). -/
def destroyCqSteps (h : Handle) (keep : Bool) (fin : Status → Prog) : Prog :=
  resolve .cq h false (fin .invalidHandle) fun c =>
  removeUnattached .cq h fin <|
  mailbox (fun s => .hw2swCq (((s.cq? c).map (·.cqn)).getD 0)) fun fw =>
  (if keep then setFwStatus fw else fun k => k) <|
  freeRec (fun s => (s.cq? c).bind (·.setCiRec)) <| freeRec (fun s => (s.cq? c).bind (·.armRec)) <|
  eff (fun s => (s.hold ((s.cq? c).map Cq.buffer)).eraseCq c) <| fin .ok

/-- The end of a destroy command. -/
def endWith (st : Status) : Prog := if st = .ok then respond .ok none else raise st

def destroyCqProg (op : Operands) : Prog := precond false none <| destroyCqSteps op.cq true endWith

def execDestroyCq (s : State) : Host.Outcome State Fault Refusal := runCmd .destroyCq destroyCqProg s

end Sys2Proof.Machine
end

