-- ==== Sys2Proof/Machine/SrqCommands.lean ====
section
/-! DEFINITION. `CREATE_SRQ` and `DESTROY_SRQ` (spec/45_srq_free_list.md R371, R372, R378). -/

namespace Sys2Proof.Machine

open Sys2Proof

/-! ### `CREATE_SRQ` (R372) -/

/-- The capacity of R371. -/
def srqCapacityOf (op : Operands) (s : State) : Nat := ringCapacity s.mode op.srqDepth.toNat

/-- The slot-size shift of R371. -/
def srqShiftOf (op : Operands) (s : State) : Nat := slotShift s.cfg (recvBytes op.maxGs.toNat)

/-- The memory a `CREATE_SRQ` names (R372). -/
def createSrqBuf (op : Operands) (s : State) : Nat × Nat := (op.bufBase.toNat, srqCapacityOf op s <<< srqShiftOf op s)

def createSrqBad (op : Operands) (s : State) : Bool :=
  decide (op.srqDepth.toNat > s.cfg.maxSrqWqes) || decide (op.maxGs.toNat > s.cfg.maxSrqSge)
    || decide (recvBytes op.maxGs.toNat > maxWqeBytes) || decide (op.bufBase.toNat % (1 <<< srqShiftOf op s) ≠ 0)

/-- A new SRQ object (R45): every slot on the free list, in order. -/
def newSrq (op : Operands) (s : State) (h : Handle) (o : Nat) : State :=
  let cap := srqCapacityOf op s
  s.setSrq o
    { self := h, srqn := op.srqn, pd := op.pd, capacity := cap, shift := srqShiftOf op s, maxGs := op.maxGs.toNat,
      bufBase := op.bufBase, freeHead := some 0, freeTail := some (cap - 1),
      link := (List.range cap).map fun i => if i + 1 < cap then some (i + 1) else none,
      lastIdx := cap - 1, outstanding := 0, counter := 0, wrid := List.replicate cap none,
      posted := List.replicate cap false, dbRec := s.me.recs[0]?, attach := 0 }

def zeroSrqAct (r : Nat) (s : State) : ActRes :=
  withSrq r s fun x => .ok 0 (s.fill x.buffer.1 x.buffer.2 0)

def sw2hwSrqCall (r : Nat) (s : State) : MailboxCall :=
  match s.srq? r with
  | some x => .sw2hwSrq x.srqn x.capacity x.shift x.bufBase x.pd x.dbRec
  | none => .sw2hwSrq 0 0 0 0 0 none

def State.srqSelf (s : State) (r : Nat) : Handle := ((s.srq? r).map (·.self)).getD {}

def State.eraseSrq (s : State) (r : Nat) : State := { s with srqs := assocDel s.srqs r }

def createSrqProg (op : Operands) : Prog :=
  precond true none <|
  ask (fun s => if createSrqBad op s then 1 else 0) fun bad =>
  if bad = 1 then raise .outOfRange
  else
    guard (fun s => s.bufferOk (createSrqBuf op s)) .badBuffer <|
    allocRecs [(4, op.srqn)] <|
    insert .srq op.srqn (createSrqBuf op) (newSrq op) (freeTaken 1 (raise .busy)) fun r =>
    .act (zeroSrqAct r) fun _ =>
    mailbox (sw2hwSrqCall r) fun fw => setFwStatus fw <|
    if fw ≠ 0 then
      removeNew .srq (fun s => s.srqSelf r) <| eff (fun s => s.eraseSrq r) <| freeTaken 1 <| raise .mailboxFail
    else
      eff (fun s => s.setResp fun p =>
        { p with srq := some (s.srqSelf r), capacity := some (srqCapacityOf op s), shift := some (srqShiftOf op s) }) <|
      respond .ok none

def execCreateSrq (s : State) : Host.Outcome State Fault Refusal := runCmd .createSrq createSrqProg s

/-! ### `DESTROY_SRQ` (R378) -/

/-- The `DESTROY_SRQ` steps, as `destroyCqSteps`. A firmware failure is the status of the command; the SRQ is gone. -/
def destroySrqSteps (h : Handle) (keep : Bool) (fin : Status → Prog) : Prog :=
  resolve .srq h false (fin .invalidHandle) fun r =>
  removeUnattached .srq h fin <|
  mailbox (fun s => .hw2swSrq (((s.srq? r).map (·.srqn)).getD 0)) fun fw =>
  (if keep then setFwStatus fw else fun k => k) <|
  freeRec (fun s => (s.srq? r).bind (·.dbRec)) <|
  eff (fun s => (s.hold ((s.srq? r).map Srq.buffer)).eraseSrq r) <| fin (if fw = 0 then .ok else .mailboxFail)

def destroySrqProg (op : Operands) : Prog :=
  precond false none <| destroySrqSteps (srqOperand op) true endWith

def execDestroySrq (s : State) : Host.Outcome State Fault Refusal := runCmd .destroySrq destroySrqProg s

end Sys2Proof.Machine
end

