-- ==== Sys2Proof/Machine/QpCommands.lean ====
section
/-! DEFINITION. `CREATE_QP`, `MODIFY_QP`, `QUERY_QP` and `DESTROY_QP` (spec/40_qp_state_machine.md R154 to R182). -/

namespace Sys2Proof.Machine

open Sys2Proof

/-! ### `CREATE_QP` (R170) -/

/-- The geometry a `CREATE_QP` gives its QP (R201 to R203). -/
structure QpGeometry where
  sqCapacity    : Nat
  rqCapacity    : Nat
  sqShift       : Nat
  rqShift       : Nat
  sendWqeOffset : Nat
  deriving DecidableEq, Repr

/-- The receive depth and scatter/gather maximum that count: "a QP with an SRQ ignores `rq_depth` and `rq_max_gs`" (R170), which
then count as 0 (notes/assumptions/16.md). -/
def rqDepthOf (op : Operands) : Nat := if op.srq.isSome then 0 else op.rqDepth.toNat
def rqMaxGsOf (op : Operands) : Nat := if op.srq.isSome then 0 else op.rqMaxGs.toNat

def qpGeometry (op : Operands) (s : State) : QpGeometry :=
  let sqShift := slotShift s.cfg (sendBytes op.transport op.sqMaxGs.toNat op.maxInline.toNat)
  let rqShift := slotShift s.cfg (recvBytes (rqMaxGsOf op))
  let rqCapacity := if op.srq.isSome then 0 else ringCapacity s.mode op.rqDepth.toNat
  { sqCapacity := ringCapacity s.mode op.sqDepth.toNat, rqCapacity, sqShift, rqShift,
    sendWqeOffset := sendOffset op.srq.isSome rqCapacity rqShift sqShift }

/-- The parameter checks of R170, in its order; each ends the command with `OUT_OF_RANGE`. -/
def createQpBad (op : Operands) (s : State) : Bool :=
  let g := qpGeometry op s
  decide (op.sqDepth.toNat > s.cfg.maxWqes) || decide (rqDepthOf op > s.cfg.maxWqes)
    || decide (op.sqMaxGs.toNat > s.cfg.maxSge) || decide (rqMaxGsOf op > s.cfg.maxSge)
    || decide (op.maxInline.toNat > s.cfg.maxInline)
    || decide (sendBytes op.transport op.sqMaxGs.toNat op.maxInline.toNat > maxWqeBytes)
    || decide (recvBytes (rqMaxGsOf op) > maxWqeBytes)
    || decide (op.bufBase.toNat % (1 <<< max g.sqShift g.rqShift) ≠ 0)

/-- The memory a `CREATE_QP` names (R203). -/
def createQpBuf (op : Operands) (s : State) : Nat × Nat :=
  (op.bufBase.toNat, (qpGeometry op s).sendWqeOffset + ((qpGeometry op s).sqCapacity <<< (qpGeometry op s).sqShift))

/-- A new QP object (R25, R31), placed in its arena. -/
def newQp (op : Operands) (s : State) (h : Handle) (o : Nat) : State :=
  let g := qpGeometry op s
  s.setQp o
    { self := h, qpn := op.qpn, transport := op.transport, state := .reset, port := 0, accessFlags := 0, respDepth := 0,
      attrCache := [], pd := op.pd, sendCq := op.sendCq, recvCq := op.recvCq, srq := op.srq, sigAll := op.sigAll,
      maxInline := op.maxInline, bufBase := op.bufBase, sendWqeOffset := g.sendWqeOffset,
      sq := freshRing g.sqCapacity g.sqShift op.sqMaxGs.toNat, rq := freshRing g.rqCapacity g.rqShift (rqMaxGsOf op),
      sqDbRec := s.me.recs[0]?, rqDbRec := s.me.recs[1]?, refcount := 0 }

/-- The WQE buffer zeroed (R205). -/
def zeroQpAct (q : Nat) (s : State) : ActRes := withQp q s fun x => .ok 0 (s.fill x.buffer.1 x.buffer.2 0)

def State.qpSelf (s : State) (q : Nat) : Handle := ((s.qp? q).map (·.self)).getD {}

def State.eraseQp (s : State) (q : Nat) : State := { s with qps := assocDel s.qps q }

/-- Has the QP no event delivery in progress (R348)? -/
def State.noRefs (s : State) (q : Nat) : Bool := decide (((s.qp? q).map (·.refcount)).getD 0 = 0)

/-- A create whose `ATTACH` failed, undone (R349): the entry, the object and its doorbell records, the earlier attaches. It waits for
nothing (R432); an event delivery that took a reference to the QP since the insert finds it gone and drops its event
(notes/assumptions/35.md). -/
def undoCreateQp (q : Nat) (done : List Handle) : Prog :=
  removeNew .qp (fun s => s.qpSelf q) <| eff (fun s => s.eraseQp q) <| freeTaken 2 <|
  done.foldl (fun k h => detach .cq (fun _ => some h) k) (raise .invalidHandle)

/-- The `SRQ` operand resolved where there is one. -/
def resolveSrqOperand (op : Operands) (k : Prog) : Prog :=
  match op.srq with
  | none => k
  | some h => resolve .srq h true (raise .invalidHandle) fun _ => k

/-- The SRQ attached where there is one. -/
def attachSrqOperand (op : Operands) (gone k : Prog) : Prog :=
  match op.srq with
  | none => k
  | some h => attach .srq h gone k

def createQpProg (op : Operands) : Prog :=
  precond true none <|
  resolve .cq op.sendCq true (raise .invalidHandle) fun _ =>
  resolve .cq op.recvCq true (raise .invalidHandle) fun _ =>
  resolveSrqOperand op <|
  ask (fun s => if createQpBad op s then 1 else 0) fun bad =>
  if bad = 1 then raise .outOfRange
  else
    guard (fun s => s.bufferOk (createQpBuf op s)) .badBuffer <|
    allocRecs [(3, op.qpn), (2, op.qpn)] <|
    insert .qp op.qpn (createQpBuf op) (newQp op) (freeTaken 2 (raise .busy)) fun q =>
    .act (zeroQpAct q) fun _ =>
    attach .cq op.sendCq (undoCreateQp q []) <|
    attach .cq op.recvCq (undoCreateQp q [op.sendCq]) <|
    attachSrqOperand op (undoCreateQp q [op.sendCq, op.recvCq]) <|
    eff (fun s => s.setResp fun r =>
      { r with
        qp := some (s.qpSelf q), sqCapacity := some (qpGeometry op s).sqCapacity
        rqCapacity := some (qpGeometry op s).rqCapacity, sqShift := some (qpGeometry op s).sqShift
        rqShift := some (qpGeometry op s).rqShift, sendWqeOffset := some (qpGeometry op s).sendWqeOffset }) <|
    respond .ok none

def execCreateQp (s : State) : Host.Outcome State Fault Refusal := runCmd .createQp createQpProg s

/-! ### `MODIFY_QP` (R172) -/

/-- The code of a failing check of `MODIFY_QP`, as a step answers it. -/
def modifyErrorCode (st : Status) : Nat :=
  match st with
  | .invalidTransition => 1
  | .missingAttr => 2
  | .extraAttr => 3
  | _ => 4

/-- The checks of R154 to R157: answers the code of the failing one, or 8 and the pair of states. -/
def modifyCheckAct (q : Nat) (op : Operands) (s : State) : ActRes :=
  withQp q s fun x => .ok (match modifyError s.cfg x op with
    | some st => modifyErrorCode st
    | none => 8 + 8 * qpStateCode (curState x op) + qpStateCode (newState x op)) s

/-- The firmware call of an accepted request (R159 to R161). -/
def modifyCall (q : Nat) (cur new : QpState) (op : Operands) (s : State) : MailboxCall :=
  match s.qp? q with
  | some x =>
    let t := (transitionOf cur new).getD .any2rst
    .modifyQp t x.qpn (some (contextImage s.cfg x t new op))
  | none => .modifyQp .any2rst 0 none

/-- What an accepted transition means for the device (R88): after a move to RESET it writes no CQE for the QP, until the next
move out of RESET. -/
def noteTransition (q : Nat) (new : QpState) (fw : Nat) (s : State) : State :=
  if fw = 0 then
    let qpn := BitVec.ofNat 24 (s.qpnOf q)
    s.setQuiet (if new = .reset then qpn :: s.quiet.filter (fun n => decide (n ≠ qpn))
      else s.quiet.filter (fun n => decide (n ≠ qpn)))
  else s

/-- The commit of R162. -/
def commitAct (q : Nat) (cur new : QpState) (op : Operands) (s : State) : ActRes :=
  withQp q s fun x => .ok 0 (s.setQp q (x.commit cur new op))

def portCallAct (q : Nat) (cur new : QpState) (s : State) : ActRes := withQp q s fun x => .ok (portCall s.cfg x cur new) s

def State.portOf (s : State) (q : Nat) : BitVec 8 := ((s.qp? q).map (·.port)).getD 0

/-- `resp.port_fw_status <- st`. -/
def setPortStatus (st : Nat) (k : Prog) : Prog :=
  eff (fun s => s.setResp fun r => { r with portFwStatus := some (BitVec.ofNat 8 st) }) k

/-- The port calls of R164. -/
def portCalls (q : Nat) (cur new : QpState) (k : Prog) : Prog :=
  .act (portCallAct q cur new) fun c =>
  if c = 1 then mailbox (fun s => .initIb (s.portOf q)) fun st => setPortStatus st k
  else if c = 2 then mailbox (fun s => .closeIb (s.portOf q)) fun st => setPortStatus st k
  else k

/-- The indices and work-request ids of a ring reset (R166). -/
def clearRingAct (q : Nat) (isSend : Bool) (s : State) : ActRes :=
  withQp q s fun x => .ok 0 (s.setQp q (x.setRing isSend (x.ring isSend).cleared))

/-- Word 0 of the ring's doorbell record zeroed, in `MEMFREE` (R166), after a write barrier (R251). -/
def clearRecAct (q : Nat) (isSend : Bool) (s : State) : ActRes :=
  withQp q s fun x => .ok 0 (match s.mode with
    | .legacy => s
    | .memfree => s.wmb.writeRec0 (if isSend then x.sqDbRec else x.rqDbRec) 0)

/-- The reset of one ring, under its lock (R166). -/
def resetRing (q : Nat) (isSend : Bool) (k : Prog) : Prog :=
  acquire (if isSend then .sq q else .rq q) <|
  .act (clearRingAct q isSend) fun _ => .act (clearRecAct q isSend) fun _ =>
  release (if isSend then .sq q else .rq q) k

/-- The RESET cleanup (R166). -/
def resetCleanup (q : Nat) (k : Prog) : Prog := cleanBoth q <| resetRing q true <| resetRing q false k

def modifyQpProg (op : Operands) : Prog :=
  precond true none <|
  resolve .qp op.qp true (raise .invalidHandle) fun q =>
  acquire (.mlock q) <| .act (modifyCheckAct q op) fun a =>
  if a = 1 then raise .invalidTransition
  else if a = 2 then raise .missingAttr
  else if a = 3 then raise .extraAttr
  else if a = 4 then raise .outOfRange
  else
    let cur := qpStateOf ((a - 8) / 8)
    let new := qpStateOf ((a - 8) % 8)
    mailboxNoting (noteTransition q new) (modifyCall q cur new op) fun fw => setFwStatus fw <|
    if fw ≠ 0 then raise .mailboxFail
    else
      .act (commitAct q cur new op) fun _ => portCalls q cur new <|
      (if new = .reset then resetCleanup q else fun k => k) <|
      release (.mlock q) <| respond .ok none

def execModifyQp (s : State) : Host.Outcome State Fault Refusal := runCmd .modifyQp modifyQpProg s

/-! ### `QUERY_QP` (R180) -/

/-- The cached fields and the firmware's bytes, reported (R180). -/
def queryAct (q : Nat) (s : State) : ActRes :=
  withQp q s fun x => .ok 0 (s.setResp fun r =>
    { r with
      state := some (if x.state = .draining then .sqd else x.state)
      draining := some (decide (x.state = .draining))
      port := some x.port, accessFlags := some x.accessFlags, respDepth := some x.respDepth
      attrCache := some x.attrCache, context := some s.me.fwOut })

def queryQpProg (op : Operands) : Prog :=
  precond true none <|
  resolve .qp op.qp true (raise .invalidHandle) fun q =>
  acquire (.mlock q) <|
  mailbox (fun s => .queryQp (BitVec.ofNat 24 (s.qpnOf q))) fun fw => setFwStatus fw <|
  if fw ≠ 0 then raise .mailboxFail
  else .act (queryAct q) fun _ => release (.mlock q) <| respond .ok none

def execQueryQp (s : State) : Host.Outcome State Fault Refusal := runCmd .queryQp queryQpProg s

/-! ### `DESTROY_QP` (R182) -/

/-- The removal of the entry, holding the locks of both CQs: the send CQ's first (R182). Answers whether it was removed. The handles
the QP holds to its CQs are resolved under the shard locks of their entries first (DESIGN CHOICE, notes/assumptions/41.md). -/
def removeQpLocked (q : Nat) (h : Handle) (gone : Prog) (k : Nat → Prog) : Prog :=
  ask (fun s => s.sameCqs q) fun same =>
  resolveRef .cq (fun s => s.cqHandle q true) gone fun c1 =>
  if same = 1 then acquire (.cq c1) <| remove .qp h fun removed => release (.cq c1) <| k removed
  else
    resolveRef .cq (fun s => s.cqHandle q false) gone fun c2 =>
    acquire (.cq c1) <| acquire (.cq c2) <| remove .qp h fun removed =>
    release (.cq c2) <| release (.cq c1) <| k removed

/-- The final move to RESET of a QP that is not there yet. -/
def finalReset (q : Nat) (keep : Bool) (k : Prog) : Prog :=
  ask (fun s => if ((s.qp? q).map (·.state)).getD .reset = .reset then 1 else 0) fun inReset =>
  if inReset = 1 then k
  else mailboxNoting (noteTransition q .reset)
    (fun s => .modifyQp .any2rst (BitVec.ofNat 24 (s.qpnOf q)) none) fun fw =>
    (if keep then setFwStatus fw else fun k => k) k

/-- `DETACH` of the SRQ where the QP has one. -/
def detachSrq (q : Nat) (k : Prog) : Prog :=
  ask (fun s => if (s.srqHandle q).isSome then 1 else 0) fun there =>
  if there = 0 then k else detach .srq (fun s => s.srqHandle q) k

/-- The `DESTROY_QP` steps; `keep` and `fin` as in `destroyCqSteps`. A QP that another destroy has taken away since its handle
resolved is `INVALID_HANDLE`. -/
def destroyQpSteps (h : Handle) (keep : Bool) (fin : Status → Prog) : Prog :=
  resolveBy .qp h (resolveDestroyAct .qp h) (fin .invalidHandle) fun q =>
  removeQpLocked q h (fin .invalidHandle) fun removed =>
  if removed = 0 then fin .invalidHandle
  else
    waitFor (fun s => s.noRefs q) <| acquire (.mlock q) <|
    finalReset q keep <| cleanBoth q <|
    freeRec (fun s => (s.qp? q).bind (·.sqDbRec)) <| freeRec (fun s => (s.qp? q).bind (·.rqDbRec)) <|
    detach .cq (fun s => s.cqHandle q true) <| detach .cq (fun s => s.cqHandle q false) <| detachSrq q <|
    release (.mlock q) <| eff (fun s => (s.hold ((s.qp? q).map Qp.buffer)).eraseQp q) <| fin .ok

def destroyQpProg (op : Operands) : Prog := precond false none <| destroyQpSteps op.qp true endWith

def execDestroyQp (s : State) : Host.Outcome State Fault Refusal := runCmd .destroyQp destroyQpProg s

end Sys2Proof.Machine
end

