-- ==== Sys2Proof/Machine/Device.lean ====
section
/-! DEFINITION. `DEVICE_START`, `DEVICE_STOP` (spec/70_reset_and_hazards.md R440, R441) and the illegal command words
(spec/30_encoding.md R110). -/

namespace Sys2Proof.Machine

open Sys2Proof

/-! ### `DEVICE_START` (R440) -/

/-- The checks of R440: 1 already started, 2 the record table is misaligned. -/
def deviceStartCheck (op : Operands) (s : State) : Nat :=
  if s.started then 1
  else if op.mode = .memfree ∧ op.dbRecBase.toNat % 8 ≠ 0 then 2
  else 0

/-- Both words of the records from `i` on, `todo` of them, zeroed: 4-byte writes (R74, R440), each after a write barrier (R251). -/
def zeroRecords (todo i : Nat) (k : Prog) : Prog :=
  match todo with
  | 0 => k
  | todo + 1 =>
    eff (fun s => s.wmb.writeRec0 (some i) 0) <| eff (fun s => s.wmb.writeRec1 (some i) 0) <| zeroRecords todo (i + 1) k

/-- Every doorbell record free, under `db_rec_lock` (R352). -/
def freeAllRecords (k : Prog) : Prog :=
  acquire .dbRec <| eff (fun s => s.setRecs [] s.cfg.dbRecCount) <| release .dbRec k

/-- The record table of R440 in `MEMFREE`: its base, every record zeroed, every record free. -/
def startRecords (op : Operands) (k : Prog) : Prog :=
  match op.mode with
  | .legacy => k
  | .memfree =>
    guard (fun s => s.owns (op.dbRecBase.toNat, 8 * s.cfg.dbRecCount)) .badBuffer <|
    eff (fun s => s.setRecBase op.dbRecBase) <|
    ask (fun s => s.cfg.dbRecCount) fun n => zeroRecords n 0 <| freeAllRecords k

def deviceStartProg (op : Operands) : Prog :=
  ask (deviceStartCheck op) fun c =>
  if c = 1 then raise .alreadyStarted
  else if c = 2 then raise .outOfRange
  else
    eff (fun s => s.setMode op.mode) <|
    startRecords op <|
    eff (fun s => s.setFatal false) <|
    eff (fun s => s.setStarted true) <|
    respond .ok none

def execDeviceStart (s : State) : Host.Outcome State Fault Refusal := runCmd .deviceStart deviceStartProg s

/-! ### `DEVICE_STOP` (R441) -/

/-- The destroy steps of an object of a kind, their statuses discarded. -/
def destroySteps (kind : Kind) (h : Handle) (fin : Status → Prog) : Prog :=
  match kind with
  | .qp => destroyQpSteps h false fin
  | .cq => destroyCqSteps h false fin
  | .srq => destroySrqSteps h false fin

/-- The generation of a live entry plus one; 0 where the entry is empty. -/
def State.liveGen (s : State) (kind : Kind) (i : Nat) : Nat :=
  if (s.entry kind i).occ.isSome then (s.entry kind i).gen.toNat + 1 else 0

/-- The objects of the entries from `i` on, `todo` of them, destroyed in increasing index. An entry is read under its shard lock
(R343). -/
def stopLoop (kind : Kind) (todo i : Nat) (k : Prog) : Prog :=
  match todo with
  | 0 => k
  | todo + 1 =>
    underShardAt kind i (fun s => .ok (s.liveGen kind i) s) fun g =>
    if g = 0 then stopLoop kind todo (i + 1) k
    else destroySteps kind { kind, index := BitVec.ofNat 24 i, gen := BitVec.ofNat 32 (g - 1) } fun _ =>
      stopLoop kind todo (i + 1) k

def stopKind (kind : Kind) (k : Prog) : Prog :=
  ask (fun s => Config.entries s.cfg kind) fun n => stopLoop kind n 0 k

/-- The event agent idle, its locks free, no event waiting (R442, R53): the event it is handling ends, and with those that wait it
is dropped. No object is left that it could be about (DESIGN CHOICE, notes/assumptions/36.md). -/
def State.dropEvents (s : State) : State :=
  ((s.setEventQ []).setLocks (s.locks.filter fun e => decide (e.2 ≠ eventAgent))).setAgents
    (s.agents.map fun e => if e.1 = eventAgent then (e.1, { op := e.2.op, resp := e.2.resp }) else e)

def deviceStopProg (_ : Operands) : Prog :=
  precond false none <|
  stopKind .qp <| stopKind .srq <| stopKind .cq <|
  eff (fun s => s.dropEvents.setStarted false) <|
  eff (fun s => s.setFatal false) <|
  freeAllRecords <|
  respond .ok none

def execDeviceStop (s : State) : Host.Outcome State Fault Refusal := runCmd .deviceStop deviceStopProg s

/-! ### Illegal command words (R110, R401 step 1) -/

/-- The `bad_index` of an illegal word: 0 where its `opc` is that of a command with a list (R401; notes/assumptions/15.md). -/
def illegalBadIndex (w : Word) : Option Nat :=
  match (w.extractLsb' 0 8).toNat with
  | 0x14 => some 0
  | 0x15 => some 0
  | 0x31 => some 0
  | _ => none

def illegalCommandProg (w : Word) (_ : Operands) : Prog := raise .illegalCommand (illegalBadIndex w)

def execIllegalCommand (w : Word) (s : State) : Host.Outcome State Fault Refusal :=
  runCmd (.illegalCommand w) (illegalCommandProg w) s

end Sys2Proof.Machine
end

