-- ==== Sys2Proof/Machine/Events.lean ====
section
/-! DEFINITION. The device events (spec/60_exceptions.md R423 to R427) and the event output (R425). The event agent takes them
one at a time; events while the instance is not started are dropped (R441). -/

namespace Sys2Proof.Machine

open Sys2Proof

/-- `Emit` (R425). -/
def State.emit (s : State) (e : EventRec) : State := { s with eventOut := s.eventOut ++ [e] }

/-- An event in a started instance; one that comes otherwise is dropped (R441). -/
def whileStarted (k : Prog) : Prog := ask (fun s => if s.started then 1 else 0) fun b => if b = 0 then .done else k

/-- The event agent's step on an event. An event that comes while another is being handled waits its turn (R423). -/
def runEvent (i : Instr) (p : Operands → Prog) (s : State) : Host.Outcome State Fault Refusal :=
  let s := s.setCur eventAgent
  match s.me.cmd with
  | none => runOn i p s
  | some j => if j = i then runOn i p s else .next (s.setEventQ (s.eventQ ++ [(encode i).2]))

/-! ### Completion event (R424) -/

/-- `arm_sn + 1` of the CQ with exactly this number: answers its arena index, 0 where there is none. -/
def armSnNextAct (num : Num24) (s : State) : ActRes :=
  match s.lookupNum .cq num with
  | none => .ok 0 s
  | some c => withCq c s fun x => .ok c (s.setCq c { x with armSn := x.armSn + 1 })

/-- The handle of a live entry (R424). -/
def State.handleOf (s : State) (kind : Kind) (i : Nat) : Handle :=
  { kind, index := BitVec.ofNat 24 i, gen := (s.entry kind i).gen }

def eventCompletionProg (num : Num24) (_ : Operands) : Prog :=
  whileStarted <|
  .act (fun s => acquireAct (s.shardLock .cq (s.indexOf .cq num)) s) fun _ =>
  .act (armSnNextAct num) fun c =>
  (if c = 0 then fun k => k
   else eff fun s => s.emit (.completion (s.handleOf .cq (s.indexOf .cq num)))) <|
  .act (fun s => releaseAct (s.shardLock .cq (s.indexOf .cq num)) s) fun _ => .done

def execEventCompletion (num : Num24) (s : State) : Host.Outcome State Fault Refusal :=
  runEvent (.eventCompletion num) (eventCompletionProg num) s

/-! ### QP event (R426) -/

/-- `LOOKUP_NUM_REF` under the shard lock (R348): answers the QP's arena index, 0 where there is none. -/
def refNumAct (num : Num24) (s : State) : ActRes :=
  match s.lookupNum .qp num with
  | none => .ok 0 s
  | some q => withQp q s fun x => .ok q (s.setQp q { x with refcount := x.refcount + 1 })

/-- A step of an event delivery on its QP. A QP whose create has been undone since is gone, and nothing happens to it
(notes/assumptions/35.md). -/
def onQp (q : Nat) (f : State → Qp → State) : State → State := fun s =>
  match s.qp? q with
  | some x => f s x
  | none => s

/-- `UNREF` of the QP of entry `i`, under the shard lock (R348). -/
def unref (q i : Nat) (k : Prog) : Prog :=
  underShardAt .qp i (fun s => .ok 0 (onQp q (fun s x => s.setQp q { x with refcount := x.refcount - 1 }) s)) fun _ => k

/-- `SQ_DRAINED` moves DRAINING to SQD; every other type changes nothing (R426). -/
def drained (q : Nat) (ty : Byte) : State → State := onQp q fun s x =>
  if ty = 2 ∧ x.state = .draining then s.setQp q { x with state := .sqd } else s

def eventQpProg (num : Num24) (ty : Byte) (_ : Operands) : Prog :=
  if ty.toNat > 6 then .done
  else whileStarted <|
    ask (fun s => s.indexOf .qp num) fun i => underShardAt .qp i (refNumAct num) fun q =>
    if q = 0 then .done
    else
      acquire (.mlock q) <| eff (drained q ty) <| release (.mlock q) <|
      eff (onQp q fun s x => s.emit (.qpEvent x.self ty)) <| unref q i .done

def execEventQp (num : Num24) (ty : Byte) (s : State) : Host.Outcome State Fault Refusal :=
  runEvent (.eventQp num ty) (eventQpProg num ty) s

/-! ### Fatal failure (R427) -/

/-- The QP of an entry, with a reference taken: answers its arena index, 0 where the entry is empty. -/
def refEntryAct (i : Nat) (s : State) : ActRes :=
  match (s.entry .qp i).occ with
  | none => .ok 0 s
  | some o => withQp o.obj s fun x => .ok o.obj (s.setQp o.obj { x with refcount := x.refcount + 1 })

/-- The cached state of a QP after a fatal failure. -/
def setErr (q : Nat) : State → State := onQp q fun s x => s.setQp q { x with state := .err }

/-- The QPs of the entries from `i` on, `todo` of them, set to ERR. -/
def fatalLoop (todo i : Nat) (k : Prog) : Prog :=
  match todo with
  | 0 => k
  | todo + 1 =>
    underShardAt .qp i (refEntryAct i) fun q =>
    if q = 0 then fatalLoop todo (i + 1) k
    else
      acquire (.mlock q) <| eff (setErr q) <| release (.mlock q) <|
      unref q i <| fatalLoop todo (i + 1) k

def eventFatalProg (_ : Operands) : Prog :=
  whileStarted <|
  eff (fun s => s.setFatal true) <|
  ask (fun s => s.cfg.numQps) fun n => fatalLoop n 0 <|
  eff (fun s => s.emit .fatal) .done

def execEventFatal (s : State) : Host.Outcome State Fault Refusal := runEvent .eventFatal eventFatalProg s

/-! ### Other kinds (R140) -/

/-- An event of another kind is ignored. -/
def eventOtherProg (_ : Operands) : Prog := .done

def execEventOther (kind : Byte) (s : State) : Host.Outcome State Fault Refusal :=
  runEvent (.eventOther kind) eventOtherProg s

end Sys2Proof.Machine
end

