-- ==== Sys2Proof/Machine/Units.lean ====
section
/-! DEFINITION. The rows of the opcode table that are no command and no event: work-request opcodes, WQE link words, CQE opcode
bytes and doorbells. Each runs the part of the core that the spec gives its word to (notes/assumptions/11.md to 14.md). -/

namespace Sys2Proof.Machine

open Sys2Proof

/-! ### Work-request opcodes (R108, R213, R217 to R222): the post of one request -/

/-- The operand record with one send request, of the given opcode; its other fields are those of the first request there is. -/
def singleSend (opcode : BitVec 3) (op : Operands) : Operands :=
  { op with sendWrs := [{ (op.sendWrs.headD {}) with opcode }] }

/-- The post of one request of an opcode: `POST_SEND` (R230) of that request alone. -/
def wrProg (opcode : BitVec 3) (op : Operands) : Prog := postSendProg (singleSend opcode op)

def execWrRdmaWrite (s : State) : Host.Outcome State Fault Refusal := runCmd .wrRdmaWrite (wrProg 0) s
def execWrRdmaWriteImm (s : State) : Host.Outcome State Fault Refusal := runCmd .wrRdmaWriteImm (wrProg 1) s
def execWrSend (s : State) : Host.Outcome State Fault Refusal := runCmd .wrSend (wrProg 2) s
def execWrSendImm (s : State) : Host.Outcome State Fault Refusal := runCmd .wrSendImm (wrProg 3) s
def execWrRdmaRead (s : State) : Host.Outcome State Fault Refusal := runCmd .wrRdmaRead (wrProg 4) s
def execWrAtomicCs (s : State) : Host.Outcome State Fault Refusal := runCmd .wrAtomicCs (wrProg 5) s
def execWrAtomicFa (s : State) : Host.Outcome State Fault Refusal := runCmd .wrAtomicFa (wrProg 6) s
def execWrReserved7 (s : State) : Host.Outcome State Fault Refusal := runCmd .wrReserved7 (wrProg 7) s

/-! ### WQE link words (R112, R118): the link write of R222 step 5 -/

/-- The write of a link word into the header of a ring's chain tail: 4 bytes. -/
def linkWriteAct (rr : RingRef) (w : Word) (s : State) : ActRes :=
  match s.slotAddr rr (s.lastIdx rr) with
  | some p => .ok 0 (s.memWrite p 4 w.toNat)
  | none => .fault .useDuringDestroy

/-- The link write on a ring whose lock is held; a ring without slots takes none (R210). -/
def linkOn (rr : RingRef) (w : Word) (empty : State → Bool) : Prog :=
  ask (fun s => if empty s then 1 else 0) fun e =>
  if e = 1 then raise .queueFull
  else .act (linkWriteAct rr w) fun _ => release (ringLock rr) <| respond .ok none

/-- Has a QP's ring no slots? -/
def State.noSlots (s : State) (q : Nat) (isSend : Bool) : Bool :=
  decide (((s.qp? q).map fun x => (x.ring isSend).capacity).getD 0 = 0)

/-- A link to a send WQE: into the chain tail of the send ring of `op.qp`, where a send may be posted. -/
def sendLinkProg (w : Word) (op : Operands) : Prog :=
  postSendOn op none fun q => linkOn (.sq q) w fun s => s.noSlots q true

/-- A receive link: into the chain tail of the SRQ `op.srq`, or without one of the receive ring of `op.qp`. -/
def recvLinkProg (w : Word) (op : Operands) : Prog :=
  match op.srq with
  | none => postRecvOn op none fun q => linkOn (.rq q) w fun s => s.noSlots q false
  | some h =>
    precond true none <|
    resolve .srq h true (raise .invalidHandle) fun r => acquire (.srq r) <| linkOn (.srq r) w fun _ => false

/-- `NOP` is reserved and never emitted (R118): nothing is written. -/
def nopLinkProg (_ : Operands) : Prog := respond .ok none

def execWqeOpNop (nda : BitVec 26) (s : State) : Host.Outcome State Fault Refusal :=
  runCmd (.wqeOpNop nda) nopLinkProg s

def execWqeOpRecvLink (nda : BitVec 26) (s : State) : Host.Outcome State Fault Refusal :=
  runCmd (.wqeOpRecvLink nda) (recvLinkProg (linkWord nda (linkOpcode (.wqeOpRecvLink nda)))) s

def execWqeOpRdmaWrite (nda : BitVec 26) (s : State) : Host.Outcome State Fault Refusal :=
  runCmd (.wqeOpRdmaWrite nda) (sendLinkProg (linkWord nda (linkOpcode (.wqeOpRdmaWrite nda)))) s

def execWqeOpRdmaWriteImm (nda : BitVec 26) (s : State) : Host.Outcome State Fault Refusal :=
  runCmd (.wqeOpRdmaWriteImm nda) (sendLinkProg (linkWord nda (linkOpcode (.wqeOpRdmaWriteImm nda)))) s

def execWqeOpSend (nda : BitVec 26) (s : State) : Host.Outcome State Fault Refusal :=
  runCmd (.wqeOpSend nda) (sendLinkProg (linkWord nda (linkOpcode (.wqeOpSend nda)))) s

def execWqeOpSendImm (nda : BitVec 26) (s : State) : Host.Outcome State Fault Refusal :=
  runCmd (.wqeOpSendImm nda) (sendLinkProg (linkWord nda (linkOpcode (.wqeOpSendImm nda)))) s

def execWqeOpRdmaRead (nda : BitVec 26) (s : State) : Host.Outcome State Fault Refusal :=
  runCmd (.wqeOpRdmaRead nda) (sendLinkProg (linkWord nda (linkOpcode (.wqeOpRdmaRead nda)))) s

def execWqeOpAtomicCs (nda : BitVec 26) (s : State) : Host.Outcome State Fault Refusal :=
  runCmd (.wqeOpAtomicCs nda) (sendLinkProg (linkWord nda (linkOpcode (.wqeOpAtomicCs nda)))) s

def execWqeOpAtomicFa (nda : BitVec 26) (s : State) : Host.Outcome State Fault Refusal :=
  runCmd (.wqeOpAtomicFa nda) (sendLinkProg (linkWord nda (linkOpcode (.wqeOpAtomicFa nda)))) s

/-! ### CQE opcode bytes (R123 to R125): the poll of one CQE that has this opcode byte -/

/-- Is the CQE at an address of the kind a row names: its opcode byte, read with its send bit (R123)? -/
def State.cqeMatches (s : State) (i : Instr) (a : Nat) : Bool :=
  decide (decodeCqe ((s.cqeByte a 0x1D).getLsbD 7) (s.cqeByte a 0x1C) = i)

/-- One iteration of the loop of `POLL_CQ` (R300) on `op.cq`, where the CQE it inspects is software-owned and of the row's
kind; nothing is consumed where it is not. -/
def cqeProg (i : Instr) (op : Operands) : Prog :=
  pollOn op fun c =>
  .act (headAddrAct c) fun a => ask (fun s => if s.cqeHwOwned a then 1 else 0) fun hw =>
  if hw = 1 then pollEnd c 0 0 0
  else eff State.rmb <| ask (fun s => if s.cqeMatches i a then 1 else 0) fun same =>
    if same = 0 then pollEnd c 0 0 0
    else pollOne c a 0 0 0 fun n freed derr => pollEnd c n freed derr

def execCqeError (send : Bool) (s : State) : Host.Outcome State Fault Refusal :=
  runCmd (.cqeError send) (cqeProg (.cqeError send)) s

def execCqeSend08 (s : State) : Host.Outcome State Fault Refusal :=
  runCmd .cqeSend08 (cqeProg .cqeSend08) s

def execCqeSend09 (s : State) : Host.Outcome State Fault Refusal :=
  runCmd .cqeSend09 (cqeProg .cqeSend09) s

def execCqeSend0A (s : State) : Host.Outcome State Fault Refusal :=
  runCmd .cqeSend0A (cqeProg .cqeSend0A) s

def execCqeSend0B (s : State) : Host.Outcome State Fault Refusal :=
  runCmd .cqeSend0B (cqeProg .cqeSend0B) s

def execCqeSend10 (s : State) : Host.Outcome State Fault Refusal :=
  runCmd .cqeSend10 (cqeProg .cqeSend10) s

def execCqeSend11 (s : State) : Host.Outcome State Fault Refusal :=
  runCmd .cqeSend11 (cqeProg .cqeSend11) s

def execCqeSend12 (s : State) : Host.Outcome State Fault Refusal :=
  runCmd .cqeSend12 (cqeProg .cqeSend12) s

def execCqeSend18 (s : State) : Host.Outcome State Fault Refusal :=
  runCmd .cqeSend18 (cqeProg .cqeSend18) s

def execCqeSendOther (opcode : Byte) (s : State) : Host.Outcome State Fault Refusal :=
  runCmd (.cqeSendOther opcode) (cqeProg (.cqeSendOther opcode)) s

def execCqeRecv03 (hi : BitVec 3) (s : State) : Host.Outcome State Fault Refusal :=
  runCmd (.cqeRecv03 hi) (cqeProg (.cqeRecv03 hi)) s

def execCqeRecv05 (hi : BitVec 3) (s : State) : Host.Outcome State Fault Refusal :=
  runCmd (.cqeRecv05 hi) (cqeProg (.cqeRecv05 hi)) s

def execCqeRecv09 (hi : BitVec 3) (s : State) : Host.Outcome State Fault Refusal :=
  runCmd (.cqeRecv09 hi) (cqeProg (.cqeRecv09 hi)) s

def execCqeRecv0B (hi : BitVec 3) (s : State) : Host.Outcome State Fault Refusal :=
  runCmd (.cqeRecv0B hi) (cqeProg (.cqeRecv0B hi)) s

def execCqeRecvOther (opcode : Byte) (s : State) : Host.Outcome State Fault Refusal :=
  runCmd (.cqeRecvOther opcode) (cqeProg (.cqeRecvOther opcode)) s

/-! ### Doorbells (R126 to R130, R251): the write barrier and the doorbell write -/

/-- The doorbell controller of an instance of a mode rings a doorbell, and the device gets it. An instance that is not started, or
of the other mode, rings none. -/
def doorbellProg (mode : Mode) (reg : DbReg) (i : Instr) (_ : Operands) : Prog :=
  ask (fun s => if s.started ∧ s.mode = mode then 1 else 0) fun there =>
  if there = 0 then .done else eff (fun s => (s.ring reg i).deviceGets i) .done

/-- The write of both words of doorbell record `r`, each after a write barrier (R74, R251, R256); the device takes word 0 of a
consumer-index record as the CQ's index (R89). A record the table does not have is not written. -/
def dbrecProg (r : Word) (i : Instr) (_ : Operands) : Prog :=
  ask (fun s => if s.started ∧ s.mode = .memfree ∧ r.toNat < s.cfg.dbRecCount then 1 else 0) fun there =>
  if there = 0 then .done
  else
    eff State.wmb <| eff (fun s => (s.writeRec0 (some r.toNat) (doorbellWords i).1.toNat).deviceReads r.toNat (doorbellWords i).1) <|
    eff State.wmb <| eff (fun s => s.writeRec1 (some r.toNat) (doorbellWords i).2.toNat) .done

def execDbLegacySend (wqe : BitVec 26) (fence : Bool) (op : BitVec 5) (qpn : Num24) (size : Byte) (s : State) :
    Host.Outcome State Fault Refusal :=
  runCmd (.dbLegacySend wqe fence op qpn size) (doorbellProg .legacy .send (.dbLegacySend wqe fence op qpn size)) s

def execDbLegacyRecv (wqe : BitVec 26) (size : BitVec 6) (qpn : Num24) (n : Byte) (s : State) :
    Host.Outcome State Fault Refusal :=
  runCmd (.dbLegacyRecv wqe size qpn n) (doorbellProg .legacy .recv (.dbLegacyRecv wqe size qpn n)) s

def execDbLegacySrq (wqe : BitVec 26) (srqn : Num24) (n : Byte) (s : State) :
    Host.Outcome State Fault Refusal :=
  runCmd (.dbLegacySrq wqe srqn n) (doorbellProg .legacy .recv (.dbLegacySrq wqe srqn n)) s

def execDbLegacyCqInc (cqn : Num24) (countLess1 : Word) (s : State) :
    Host.Outcome State Fault Refusal :=
  runCmd (.dbLegacyCqInc cqn countLess1) (doorbellProg .legacy .cq (.dbLegacyCqInc cqn countLess1)) s

def execDbLegacyCqArm (sol : Bool) (cqn : Num24) (s : State) :
    Host.Outcome State Fault Refusal :=
  runCmd (.dbLegacyCqArm sol cqn) (doorbellProg .legacy .cq (.dbLegacyCqArm sol cqn)) s

def execDbMemfreeSend (n : Byte) (head0 : BitVec 16) (fence : Bool) (op : BitVec 5) (qpn : Num24) (size : Byte) (s : State) :
    Host.Outcome State Fault Refusal :=
  runCmd (.dbMemfreeSend n head0 fence op qpn size) (doorbellProg .memfree .send (.dbMemfreeSend n head0 fence op qpn size)) s

def execDbMemfreeCqArm (sn : BitVec 2) (sol : Bool) (cqn : Num24) (ci : Word) (s : State) :
    Host.Outcome State Fault Refusal :=
  runCmd (.dbMemfreeCqArm sn sol cqn ci) (doorbellProg .memfree .cq (.dbMemfreeCqArm sn sol cqn ci)) s

def execDbrecMemfree (r : Word) (word0 : Word) (num : Num24) (ty : BitVec 3) (low : BitVec 5) (s : State) :
    Host.Outcome State Fault Refusal :=
  runCmd (.dbrecMemfree r word0 num ty low) (dbrecProg r (.dbrecMemfree r word0 num ty low)) s

end Sys2Proof.Machine
end

