-- ==== Sys2Proof/Machine/Dispatch.lean ====
section
/-! DEFINITION. The dispatch: one arm per instruction, one meaning per arm. -/

namespace Sys2Proof.Machine

open Sys2Proof

def exec (i : Instr) (s : State) : Host.Outcome State Fault Refusal :=
  match i with
  | .deviceStart => Sys2Proof.Machine.execDeviceStart s
  | .deviceStop => Sys2Proof.Machine.execDeviceStop s
  | .createQp => Sys2Proof.Machine.execCreateQp s
  | .modifyQp => Sys2Proof.Machine.execModifyQp s
  | .queryQp => Sys2Proof.Machine.execQueryQp s
  | .destroyQp => Sys2Proof.Machine.execDestroyQp s
  | .postSend => Sys2Proof.Machine.execPostSend s
  | .postRecv => Sys2Proof.Machine.execPostRecv s
  | .createCq => Sys2Proof.Machine.execCreateCq s
  | .pollCq => Sys2Proof.Machine.execPollCq s
  | .reqNotifyCq sol => Sys2Proof.Machine.execReqNotifyCq sol s
  | .destroyCq => Sys2Proof.Machine.execDestroyCq s
  | .createSrq => Sys2Proof.Machine.execCreateSrq s
  | .postSrqRecv => Sys2Proof.Machine.execPostSrqRecv s
  | .destroySrq => Sys2Proof.Machine.execDestroySrq s
  | .illegalCommand w => Sys2Proof.Machine.execIllegalCommand w s
  | .wrRdmaWrite => Sys2Proof.Machine.execWrRdmaWrite s
  | .wrRdmaWriteImm => Sys2Proof.Machine.execWrRdmaWriteImm s
  | .wrSend => Sys2Proof.Machine.execWrSend s
  | .wrSendImm => Sys2Proof.Machine.execWrSendImm s
  | .wrRdmaRead => Sys2Proof.Machine.execWrRdmaRead s
  | .wrAtomicCs => Sys2Proof.Machine.execWrAtomicCs s
  | .wrAtomicFa => Sys2Proof.Machine.execWrAtomicFa s
  | .wrReserved7 => Sys2Proof.Machine.execWrReserved7 s
  | .wqeOpNop nda => Sys2Proof.Machine.execWqeOpNop nda s
  | .wqeOpRecvLink nda => Sys2Proof.Machine.execWqeOpRecvLink nda s
  | .wqeOpRdmaWrite nda => Sys2Proof.Machine.execWqeOpRdmaWrite nda s
  | .wqeOpRdmaWriteImm nda => Sys2Proof.Machine.execWqeOpRdmaWriteImm nda s
  | .wqeOpSend nda => Sys2Proof.Machine.execWqeOpSend nda s
  | .wqeOpSendImm nda => Sys2Proof.Machine.execWqeOpSendImm nda s
  | .wqeOpRdmaRead nda => Sys2Proof.Machine.execWqeOpRdmaRead nda s
  | .wqeOpAtomicCs nda => Sys2Proof.Machine.execWqeOpAtomicCs nda s
  | .wqeOpAtomicFa nda => Sys2Proof.Machine.execWqeOpAtomicFa nda s
  | .cqeError send => Sys2Proof.Machine.execCqeError send s
  | .cqeSend08 => Sys2Proof.Machine.execCqeSend08 s
  | .cqeSend09 => Sys2Proof.Machine.execCqeSend09 s
  | .cqeSend0A => Sys2Proof.Machine.execCqeSend0A s
  | .cqeSend0B => Sys2Proof.Machine.execCqeSend0B s
  | .cqeSend10 => Sys2Proof.Machine.execCqeSend10 s
  | .cqeSend11 => Sys2Proof.Machine.execCqeSend11 s
  | .cqeSend12 => Sys2Proof.Machine.execCqeSend12 s
  | .cqeSend18 => Sys2Proof.Machine.execCqeSend18 s
  | .cqeSendOther opcode => Sys2Proof.Machine.execCqeSendOther opcode s
  | .cqeRecv03 hi => Sys2Proof.Machine.execCqeRecv03 hi s
  | .cqeRecv05 hi => Sys2Proof.Machine.execCqeRecv05 hi s
  | .cqeRecv09 hi => Sys2Proof.Machine.execCqeRecv09 hi s
  | .cqeRecv0B hi => Sys2Proof.Machine.execCqeRecv0B hi s
  | .cqeRecvOther opcode => Sys2Proof.Machine.execCqeRecvOther opcode s
  | .eventCompletion num => Sys2Proof.Machine.execEventCompletion num s
  | .eventQp num ty => Sys2Proof.Machine.execEventQp num ty s
  | .eventFatal => Sys2Proof.Machine.execEventFatal s
  | .eventOther kind => Sys2Proof.Machine.execEventOther kind s
  | .dbLegacySend wqe fence op qpn size => Sys2Proof.Machine.execDbLegacySend wqe fence op qpn size s
  | .dbLegacyRecv wqe size qpn n => Sys2Proof.Machine.execDbLegacyRecv wqe size qpn n s
  | .dbLegacySrq wqe srqn n => Sys2Proof.Machine.execDbLegacySrq wqe srqn n s
  | .dbLegacyCqInc cqn countLess1 => Sys2Proof.Machine.execDbLegacyCqInc cqn countLess1 s
  | .dbLegacyCqArm sol cqn => Sys2Proof.Machine.execDbLegacyCqArm sol cqn s
  | .dbMemfreeSend n head0 fence op qpn size => Sys2Proof.Machine.execDbMemfreeSend n head0 fence op qpn size s
  | .dbMemfreeCqArm sn sol cqn ci => Sys2Proof.Machine.execDbMemfreeCqArm sn sol cqn ci s
  | .dbrecMemfree r word0 num ty low => Sys2Proof.Machine.execDbrecMemfree r word0 num ty low s

end Sys2Proof.Machine
end

