-- ==== Sys2Proof/Machine/Fetch.lean ====
section
/-! DEFINITION. How words reach the core, and what else can happen in one step: the inputs of the machine. The core has no
instruction memory (spec/10_state.md R21): an agent issues a word, the device raises an event, and the decoded instruction
runs. The contract of the device (Sys2Proof/Machine/Contract.lean) and the duties of the requesters (spec/60_exceptions.md R430,
R431) are checked here. -/

namespace Sys2Proof.Machine

open Sys2Proof

/-- The instruction the bytes stand for on an input of the format, run by the current agent. -/
def runWord (fmt : Format) (bytes : List Byte) (s : State) : Host.Outcome State Fault Refusal :=
  match decode fmt bytes with
  | .ok i => exec i s
  | .error e => .refused (.undecodable e)

/-- The state in which an agent runs, for at most a slice of steps (R351). -/
def State.withAgent (s : State) (a : Nat) (slice : Option Nat) : State := { s with cur := a, slice }

/-- The agent's operand record written, where a new one comes with the command (R20). -/
def State.withOperands (s : State) (op : Option Operands) : State :=
  match op with
  | none => s
  | some o => s.setMe { s.me with op := o }

/-- Can the operand record be expressed (R103, R107)? A command without a new one keeps what the agent wrote before. -/
def expressible (cfg : Config) (op : Option Operands) : Bool :=
  match op with
  | none => true
  | some o => o.wf cfg

/-- A command is issued (R20, R21). An event word is none: events reach the core on the device event input (R140, R423). -/
def issueInput (a : Nat) (fmt : Format) (bytes : List Byte) (op : Option Operands) (slice : Option Nat) (s : State) :
    Host.Outcome State Fault Refusal :=
  if a = eventAgent ∨ (s.agent a).cmd.isSome then .refused .commandInProgress
  else if expressible s.cfg op then
    if fmt = .event then .refused .eventWord else runWord fmt bytes ((s.withAgent a slice).withOperands op)
  else .refused .inexpressible

/-- The device raises an event: the event agent takes it where it is idle and no event waits, else it waits (R423). An event that
comes while the instance is not started is dropped at once (R441); one the device may not raise has no step (R431). -/
def eventInput (bytes : List Byte) (slice : Option Nat) (s : State) : Host.Outcome State Fault Refusal :=
  match decode .event bytes with
  | .error e => .refused (.undecodable e)
  | .ok i =>
    if s.started = false then
      if (s.agent eventAgent).cmd.isSome then .next s else exec i (s.withAgent eventAgent none)
    else if s.eventAllowed i then
      if (s.agent eventAgent).cmd.isSome ∨ s.eventQ ≠ [] then .next ((s.noteRaised i).setEventQ (s.eventQ ++ [bytes]))
      else exec i ((s.noteRaised i).withAgent eventAgent slice)
    else .refused .deviceContract

/-- An agent goes on with its command; the idle event agent takes the oldest event that waits (R423). -/
def resumeInput (a : Nat) (slice : Option Nat) (s : State) : Host.Outcome State Fault Refusal :=
  match (s.agent a).cmd with
  | some i => exec i (s.withAgent a slice)
  | none =>
    match s.eventQ with
    | [] => .next s
    | b :: rest =>
      if a = eventAgent then runWord .event b ((s.setEventQ rest).withAgent a slice) else .next s

/-- The QP number in the bytes of a CQE (R120). -/
def cqeBytesQpn (bytes : List Byte) : Num24 := BitVec.ofNat 24 (beNat (bytes.take 4))

/-- A live CQ by its number. -/
def withCqNum (cqn : Num24) (s : State) (f : Nat → Cq → Host.Outcome State Fault Refusal) : Host.Outcome State Fault Refusal :=
  match s.lookupNum .cq cqn with
  | none => .refused .deviceContract
  | some c =>
    match s.cq? c with
    | none => .refused .deviceContract
    | some x => f c x

/-- The device writes bytes of a CQE, none of them the owner byte (R87). -/
def deviceCqeInput (cqn : Num24) (off : Nat) (bytes : List Byte) (s : State) : Host.Outcome State Fault Refusal :=
  withCqNum cqn s fun _ x =>
    if s.deviceWrites x ∧ off + bytes.length ≤ 31 then .next (s.setMem (memPutBytes s.mem (x.prodAddr + off) bytes))
    else .refused .deviceContract

/-- The device writes the owner byte, its high bit clear, and moves on to the next slot (R87): not for a QP it has been told to
be silent on (R88), in a CQ of the QP (R210), in the order of R85, of a WQE it may read (R86), with its opcode (R242). -/
def deviceOwnerInput (cqn : Num24) (owner : Byte) (s : State) : Host.Outcome State Fault Refusal :=
  withCqNum cqn s fun c x =>
    if s.deviceWrites x ∧ owner.getLsbD 7 = false ∧ s.cqeQpn x.prodAddr ∉ s.quiet then
      match s.reportCqe c x.prodAddr with
      | some s1 => .next ((s1.setMem (memPut s.mem (x.prodAddr + 0x1F) owner)).setCq c
          (x.produced (s.cqeSolicited x.prodAddr)))
      | none => .refused .deviceContract
    else .refused .deviceContract

/-- The device takes an arm (R263); a device that has failed takes none (R90). -/
def deviceArmInput (cqn : Num24) (k : Nat) (s : State) : Host.Outcome State Fault Refusal :=
  withCqNum cqn s fun c x =>
    if s.deviceFailed = false ∧ k < x.arms.length then .next (s.setCq c (x.takeArm k (s.solicitedWaits x)))
    else .refused .deviceContract

/-- A requester writes memory: its own, and none of an object that is live or whose destroy has not returned (R430, R431, R444). -/
def hostWriteInput (a : Nat) (bytes : List Byte) (s : State) : Host.Outcome State Fault Refusal :=
  if s.owns (a, bytes.length) ∧ s.outsideMapped (a, bytes.length) then .next (s.setMem (memPutBytes s.mem a bytes))
  else .fault .badBuffer

/-- A requester gives up a range of memory: none of an object that is live or whose destroy has not returned (R431: buffers "stay
mapped until the object's destroy has returned"). -/
def unmapInput (r : Nat × Nat) (s : State) : Host.Outcome State Fault Refusal :=
  if s.outsideMapped r then .next { s with owned := s.owned.flatMap fun o => rangeWithout o r }
  else .fault .badBuffer

/-- One input. -/
def stepInput (x : Input) (s : State) : Host.Outcome State Fault Refusal :=
  match x with
  | .issue a fmt bytes op slice => issueInput a fmt bytes op slice s
  | .resume a slice => resumeInput a slice s
  | .event bytes slice => eventInput bytes slice s
  | .firmware ans => .next (s.setFw (s.fw ++ [ans]))
  | .deviceCqe cqn off bytes => deviceCqeInput cqn off bytes s
  | .deviceOwner cqn owner => deviceOwnerInput cqn owner s
  | .deviceArm cqn k => deviceArmInput cqn k s
  | .hostWrite a bytes => hostWriteInput a bytes s
  | .mapRegion base len => .next { s with owned := (base, len) :: s.owned }
  | .unmapRegion base len => unmapInput (base, len) s
  | .takeEvent => .next { s with eventOut := s.eventOut.drop 1 }

/-- The requester of the next command: the current agent, or agent 1 where that is the event agent. -/
def State.requester (s : State) : Nat := if s.cur = eventAgent then 1 else s.cur

/-- The input that brings a word of spec/opcode_table.json to the core: an event on the event input, any other word as the
requester's next word. -/
def fetchInput (s : State) (nbits w : Nat) : Input :=
  match tableFormat nbits w with
  | (.event, bytes) => .event bytes none
  | (fmt, bytes) => .issue s.requester fmt bytes none none

end Sys2Proof.Machine
end

