-- ==== Sys2Proof/Machine/Step.lean ====
section
/-! DEFINITION. The step: the next input, if there is one (notes/assumptions/5.md). -/

namespace Sys2Proof.Machine

open Sys2Proof

/-- One step of the machine: it takes its next input; with none it stays as it is. -/
def step (s : State) : Host.Outcome State Fault Refusal :=
  match s.inbox with
  | [] => .next s
  | x :: rest => stepInput x (s.setInbox rest)

/-- The state with a word of spec/opcode_table.json as its next input. -/
def State.withFetchWord (s : State) (nbits w : Nat) : State := s.setInbox (fetchInput s nbits w :: s.inbox)

end Sys2Proof.Machine
end

