-- ==== Sys2Proof/Safety.lean ====
section
/-! DEFINITION. What the statements about the machine speak of: when a state is well formed, when an object is, when an agent
can issue, what a step is, and when a run is safe (spec/60_exceptions.md R430: "claims about the core take 'no fault recorded'
as a premise"). -/

namespace Sys2Proof.Machine

open Sys2Proof

/-! ### Outcomes -/

/-- Does an outcome go on? -/
def Completes (o : Host.Outcome State Fault Refusal) : Prop := ∃ t, o = .next t

/-- Every next state of an outcome has a property. -/
def WhenNext (o : Host.Outcome State Fault Refusal) (p : State → Prop) : Prop := ∀ t, o = .next t → p t

/-- The outcome of an instruction that goes on, to a state with a property. -/
def RunsTo (o : Host.Outcome State Fault Refusal) (p : State → Prop) : Prop := ∃ t, o = .next t ∧ p t

/-- The machine does not stop in this step. -/
def StepSafe (s : State) : Prop := Completes (step s)

/-! ### Well-formed states -/

/-- No lock is held twice (R50: a lock is free or held by one agent). -/
def State.locksWf (s : State) : Prop := (s.locks.map (·.1)).Nodup

/-- The lookup tables have the sizes of R340. -/
def State.tablesWf (s : State) : Prop :=
  s.qpTable.length = s.cfg.numQps ∧ s.cqTable.length = s.cfg.numCqs ∧ s.srqTable.length = s.cfg.numSrqs

/-- Arena indices start at 1, and every object in use has an index below the next one. -/
def State.arenasWf (s : State) : Prop :=
  s.nextObj ≠ 0 ∧ (∀ e ∈ s.qpTable ++ s.cqTable ++ s.srqTable, ∀ o, e.occ = some o → o.obj ≠ 0)
  ∧ (∀ q, (s.qp? q).isSome → q < s.nextObj) ∧ (∀ c, (s.cq? c).isSome → c < s.nextObj)
  ∧ ∀ r, (s.srq? r).isSome → r < s.nextObj

/-- The invariant of the machine: canonical memory, no lock held twice, tables of their size, arena indices in range. -/
def State.Inv (s : State) : Prop := Memory.wf s.mem = true ∧ s.locksWf ∧ s.tablesWf ∧ s.arenasWf

/-- An SRQ whose free list and posted slots are as R46 and R377 say: the free list visits exactly the slots that are not
posted, each once, ends at `free_tail`, and `outstanding` counts the posted ones. -/
def Srq.Wf (x : Srq) : Prop :=
  x.posted.length = x.capacity ∧ x.link.length = x.capacity
  ∧ x.freeList.Nodup
  ∧ (∀ i, i ∈ x.freeList ↔ i < x.capacity ∧ x.posted.getD i false = false)
  ∧ x.freeList.getLast? = x.freeTail ∧ x.freeList.head? = x.freeHead
  ∧ x.outstanding = x.posted.count true

/-- A ring whose indices are in range (R31, R206). -/
def Ring.Wf (r : Ring) : Prop :=
  r.wrid.length = r.capacity ∧ (0 < r.capacity → r.nextInd < r.capacity ∧ r.lastIdx < r.capacity ∧ r.lastComp < r.capacity)
  ∧ r.count ≤ r.capacity

/-! ### Agents -/

/-- The current agent is a requester that can issue a command and runs it to its end or its next wait. -/
def State.ready (s : State) : Prop := s.cur ≠ eventAgent ∧ s.me.cmd = none ∧ s.slice = none

/-- No agent but the current one has a command in progress. -/
def State.alone (s : State) : Prop := s.otherBusy (fun _ _ _ => true) = false

/-- No lock is held. -/
def State.unlocked (s : State) : Prop := s.locks = []

/-- The current agent can issue, alone; no lock is held. -/
def State.idle (s : State) : Prop := s.ready ∧ s.alone ∧ s.unlocked

/-- As `idle`, in a started instance that has not failed. -/
def State.quietStart (s : State) : Prop := s.idle ∧ s.started = true ∧ s.fatal = false

/-- The event agent is idle and runs to the end of its event; no lock is held. -/
def State.eventIdle (s : State) : Prop := (s.agent eventAgent).cmd = none ∧ s.slice = none ∧ s.unlocked

/-- The response of the current agent. -/
def State.response (s : State) : Response := s.me.resp

/-- The state in which the current agent's command has ended with a response, nothing else of it being left but the mark of its
end on the bus (R79). -/
def State.ended (s : State) (r : Response) : State :=
  (s.setMe { op := s.me.op, resp := r }).setBus (.commandEnd s.cur :: s.bus)

/-- A handle names the object at an arena index. -/
def State.names (s : State) (k : Kind) (h : Handle) (o : Nat) : Prop := s.lookup k h = some o ∧ o ≠ 0

/-- The handle an insert into the entry of a number gives (R344): its index, the entry's generation. -/
def State.freshHandle (s : State) (k : Kind) (num : Num24) : Handle :=
  { kind := k, index := BitVec.ofNat 24 (s.indexOf k num), gen := (s.entry k (s.indexOf k num)).gen }

/-- The entry of a number is empty, in a table of its size; an object has an arena index to go to. -/
def State.canInsert (s : State) (k : Kind) (num : Num24) : Prop :=
  (s.entry k (s.indexOf k num)).occ = none ∧ s.indexOf k num < Config.entries s.cfg k ∧ s.tablesWf ∧ s.nextObj ≠ 0

/-- The doorbell records a create of `k` records takes (R256): in `MEMFREE` the lowest that are free, if there are enough. -/
def State.takesRecs (s : State) (k : Nat) (recs : List Nat) : Prop :=
  (s.mode = .legacy ∧ recs = []) ∨ (s.mode = .memfree ∧ k ≤ s.dbRecFree ∧ recs = lowestFree s.dbRecUsed k)

/-- The `bad_index` of a command that fails before its list is looked at (R401): 0 for a command with a list. -/
def failIndex (i : Instr) : Option Word :=
  match i with
  | .postSend => some 0
  | .postRecv => some 0
  | .postSrqRecv => some 0
  | _ => none

/-- A handle names a CQ in which no CQE waits: the slot at its consumer index is the hardware's (R122). -/
def State.namesEmptyCq (s : State) (h : Handle) (c : Nat) : Prop :=
  s.names .cq h c ∧ ∃ y, s.cq? c = some y ∧ s.cqeHwOwned y.headAddr = true

/-- The CQEs of a CQ that wait to be polled, oldest first: the 32 bytes of each. -/
def State.cqes (s : State) (y : Cq) : List (List Byte) :=
  (List.range (scanOwned s y y.consIndex y.capacity)).map fun j => memGetBytes s.mem (y.slotAfter j) 32

/-- The doorbell records among some fields of an object that a destroy frees: none in `LEGACY` (R256). -/
def State.recsOf (s : State) (fields : List (Option Nat)) : List Nat :=
  match s.mode with
  | .legacy => []
  | .memfree => fields.filterMap id

/-- The consumer index of a CQ moved on by one and published (R300, R260). -/
def State.published (s : State) (c : Nat) (y : Cq) : State :=
  match s.mode with
  | .legacy => (s.setCq c { y with consIndex := y.consIndex + 1, devCons := y.devCons + 1 }).ring .cq (.dbLegacyCqInc y.cqn 0)
  | .memfree => (s.setCq c { y with consIndex := y.consIndex + 1, devCons := y.consIndex + 1 }).wmb.writeRec0 y.setCiRec
      (y.consIndex + 1).toNat

/-- Where an error CQE at `a` of the WQE in slot `idx` stands (R308): the address `h` of the slot, whose header has the size `nds` and
the delimiter `dbd`, and the doorbell credit `cnt` of the CQE. -/
def State.chainAt (s : State) (x : Qp) (isSend : Bool) (a idx h nds dbd cnt : Nat) : Prop :=
  x.slotAddr isSend idx = h ∧ s.memRead (h + 4) 4 % 64 = nds ∧ s.memRead (h + 4) 4 / 128 % 2 = dbd ∧ s.memRead (a + 0x12) 2 = cnt

/-- The state after a poll has kept such a CQE (R308): its WQE is retired, its bytes name the next WQE of the chain. -/
def State.keepsErr (s : State) (q : Nat) (x : Qp) (isSend : Bool) (a idx h nds dbd cnt : Nat) : State :=
  let r := x.ring isSend
  ((((s.setQp q (x.setRing isSend ((r.retire idx).moveChain (r.doneTo idx)
      (some (r.doneTo idx + 1, (cnt + 65536 - dbd) % 65536))))).memWrite (a + 0x12) 2 ((cnt + 65536 - dbd) % 65536)).memWrite
    (a + 0x18) 4 (s.memRead h 4 / 64 * 64 + nds)).memWrite (a + 0x10) 1 0x05)

/-- The state after a poll has found such a CQE at the end of its chain or credit: its WQE is retired. -/
def State.endsErr (s : State) (q : Nat) (x : Qp) (isSend : Bool) (idx : Nat) : State :=
  s.setQp q (x.setRing isSend (((x.ring isSend).retire idx).moveChain ((x.ring isSend).doneTo idx) none))

/-- Is the CQE at an address one that decodes to no work request (R303, R304): of a number that names no QP, of an offset that names
no slot of its ring, or on a receive of a QP with an SRQ no posted slot of the SRQ? -/
def State.cqeUndecodable (s : State) (a : Nat) : Prop :=
  s.lookupNum .qp (s.cqeQpn a) = none
  ∨ (∃ q x, s.lookupNum .qp (s.cqeQpn a) = some q ∧ q ≠ 0 ∧ s.qp? q = some x ∧ (s.cqeIsSend a = false → x.srq = none)
      ∧ x.wqeIndex (s.cqeIsSend a) (s.cqeWord a 0x18).toNat = none)
  ∨ ∃ q x g r z, s.lookupNum .qp (s.cqeQpn a) = some q ∧ q ≠ 0 ∧ s.qp? q = some x ∧ s.cqeIsSend a = false
      ∧ x.srq = some g ∧ s.names .srq g r ∧ s.srq? r = some z ∧ z.wqeIndex (s.cqeWord a 0x18).toNat = none

/-- The response of a poll that reports one completion record (R300). -/
def polledOne (rec : CompRec) : Response :=
  { status := some .ok, n := some 1, wc := [rec], decodeErrors := some 0 }

/-! ### Posts of several requests -/

/-- Does a send request pass the checks of R213 to R215, on a QP whose ring has room? -/
def State.sendPasses (s : State) (x : Qp) (wr : SendWr) : Prop :=
  opcodeLegal x.transport wr.opcode = true ∧ (isInline wr = false → wr.sg.length ≤ x.sq.maxGs)
  ∧ (isInline wr = true → inlineLen wr.sg ≤ x.maxInline.toNat ∧ inlineOwned wr s = true)

/-- The status of the check that a send request fails (R213 to R216). -/
def sendFails (x : Qp) (wr : SendWr) (st : Status) : Prop :=
  (opcodeLegal x.transport wr.opcode = false ∧ st = .invalidOpcode)
  ∨ (opcodeLegal x.transport wr.opcode = true ∧ isInline wr = false ∧ x.sq.maxGs < wr.sg.length ∧ st = .tooManySge)
  ∨ (opcodeLegal x.transport wr.opcode = true ∧ isInline wr = true ∧ x.maxInline.toNat < inlineLen wr.sg ∧ st = .inlineTooLong)

/-- How a `POST_SEND` ends after `k` requests of its list: with none left, at one that finds the ring full, at one that fails a
check (R210, R213 to R216, R230). -/
def State.sendEnds (s : State) (x : Qp) (k : Nat) (left : List SendWr) (st : Status) : Prop :=
  match left with
  | [] => st = .ok
  | wr :: _ =>
    (x.sq.count + k = x.sq.capacity ∧ st = .queueFull ∧ ∃ c, s.names .cq x.sendCq c)
    ∨ (x.sq.count + k < x.sq.capacity ∧ sendFails x wr st)

/-- The number of the first WQE that a post of the WQE of number `n` covers (R86): in `LEGACY` that one, by the doorbell of its batch;
in `MEMFREE` the first of the ring, by the count in its record. -/
def coveredFrom (mode : Mode) (n : Nat) : Nat :=
  match mode with
  | .legacy => n
  | .memfree => 1

/-- A ring after one more WQE, of a work-request id and a WQE opcode, published in its next slot (R211, R222) and covered (R86). -/
def Ring.posted (r : Ring) (mode : Mode) (id : BitVec 64) (op : BitVec 6) : Ring :=
  ((({ r with wrid := r.wrid.set r.nextInd (some id) }).goLive r.nextInd op).advance r.nextInd).cover
    (coveredFrom mode (r.live + 1))

/-- A ring after requests with these work-request ids and WQE opcodes, posted one after another. -/
def Ring.filled (r : Ring) (mode : Mode) (wqes : List (BitVec 64 × BitVec 6)) : Ring :=
  match wqes with
  | [] => r
  | w :: wqes => (r.posted mode w.1 w.2).filled mode wqes

/-- A QP after these send requests have been posted, one after another. -/
def Qp.sent (x : Qp) (mode : Mode) (wrs : List SendWr) : Qp :=
  { x with sq := x.sq.filled mode (wrs.map fun wr => (wr.wrId, wqeOpcode wr.opcode)) }

/-- A QP after these receive requests have been posted, one after another. -/
def Qp.received (x : Qp) (mode : Mode) (wrs : List RecvWr) : Qp :=
  { x with rq := x.rq.filled mode (wrs.map fun wr => (wr.wrId, recvLinkOpcode)) }

/-- An SRQ after one more WQE, of a work-request id, posted in the slot at the head of its free list (R374, R258) and covered (R86). -/
def Srq.took (y : Srq) (mode : Mode) (id : BitVec 64) : Srq :=
  let z := (({ y.pop.2 with wrid := y.wrid.set y.pop.1 (some id) }).goLive y.pop.1).advance y.pop.1
  match mode with
  | .legacy => z.cover (y.live + 1)
  | .memfree => { z with counter := y.counter + 1 }.cover 1

/-- An SRQ after requests with these work-request ids, posted one after another. -/
def Srq.filled (y : Srq) (mode : Mode) (ids : List (BitVec 64)) : Srq :=
  match ids with
  | [] => y
  | id :: ids => (y.took mode id).filled mode ids

/-- The slot of the request `j` places after the next one. -/
def Ring.slotOf (r : Ring) (j : Nat) : Nat := (r.nextInd + j) % r.capacity

/-- The slot before it: that of the chain tail its link is written to (R222). -/
def Ring.tailOf (r : Ring) (j : Nat) : Nat := (r.nextInd + j + r.capacity - 1) % r.capacity

/-- The doorbell of a send batch of `n` requests whose first is `wr`, of a QP as it is before that request (R252, R254). -/
def sendBell (mode : Mode) (x : Qp) (n : Nat) (wr : SendWr) : Instr :=
  match mode with
  | .legacy => .dbLegacySend (BitVec.ofNat 26 (x.woff true x.sq.nextInd / 64)) wr.fence
      ((wqeOpcode wr.opcode).setWidth 5) x.qpn (BitVec.ofNat 8 (sendSize mode x wr))
  | .memfree => .dbMemfreeSend (BitVec.ofNat 8 n) (x.sq.head.setWidth 16) wr.fence
      ((wqeOpcode wr.opcode).setWidth 5) x.qpn (BitVec.ofNat 8 (sendSize mode x wr))

/-- How a list of `n` requests falls into batches of at most `limit` (R252): the place of each batch's first request in the list, and
how many requests it has. -/
def batches (limit n : Nat) : List (Nat × Nat) :=
  (List.range ((n + limit - 1) / limit)).map fun b => (b * limit, min limit (n - b * limit))

/-- The doorbells of a list of send requests, oldest first: one for every `limit` of them, and one for those left over (R252). -/
def sendBells (mode : Mode) (x : Qp) (limit : Nat) (wrs : List SendWr) : List Instr :=
  (batches limit wrs.length).map fun b => sendBell mode (x.sent mode (wrs.take b.1)) b.2 (wrs.getD b.1 {})

/-- The doorbells of a list of receive requests on a QP, oldest first (R253); in `MEMFREE` none (R255). -/
def recvBells (mode : Mode) (x : Qp) (limit : Nat) (wrs : List RecvWr) : List Instr :=
  match mode with
  | .legacy => (batches limit wrs.length).map fun b =>
      .dbLegacyRecv (BitVec.ofNat 26 (x.woff false (x.rq.slotOf b.1) / 64))
        (BitVec.ofNat 6 (recvSize mode (wrs.getD b.1 {}).sg.length x.rq.maxGs)) x.qpn (BitVec.ofNat 8 b.2)
  | .memfree => []

/-- The doorbells of a list of `n` requests on an SRQ, oldest first (R258); in `MEMFREE` none. -/
def srqBells (mode : Mode) (y : Srq) (limit n : Nat) : List Instr :=
  match mode with
  | .legacy => (batches limit n).map fun b =>
      .dbLegacySrq (BitVec.ofNat 26 (y.woff (y.freeList.getD b.1 0) / 64)) y.srqn (BitVec.ofNat 8 b.2)
  | .memfree => []

/-- How a `POST_RECV` ends after `k` requests of its list (R210, R214, R232). -/
def State.recvEnds (s : State) (x : Qp) (k : Nat) (left : List RecvWr) (st : Status) : Prop :=
  match left with
  | [] => st = .ok
  | wr :: _ =>
    (x.rq.count + k = x.rq.capacity ∧ st = .queueFull ∧ ∃ c, s.names .cq x.recvCq c)
    ∨ (x.rq.count + k < x.rq.capacity ∧ x.rq.maxGs < wr.sg.length ∧ st = .tooManySge)

/-- How a `POST_SRQ_RECV` ends after `k` requests of its list (R374). -/
def Srq.postEnds (y : Srq) (k : Nat) (left : List RecvWr) (st : Status) : Prop :=
  match left with
  | [] => st = .ok
  | wr :: _ =>
    (k = y.freeList.length ∧ st = .queueFull) ∨ (k < y.freeList.length ∧ y.maxGs < wr.sg.length ∧ st = .tooManySge)

/-- The writes to the doorbell window on the bus, newest first: the register's offset and both words. -/
def State.doorbells (s : State) : List (BitVec 8 × Word × Word) :=
  s.bus.filterMap fun e => match e with
    | .mmio _ off w0 w1 => some (off, w0, w1)
    | _ => none

/-- A doorbell of the controller, as a write to the window: its register's offset and both words. -/
def State.bell (s : State) (reg : DbReg) (i : Instr) : BitVec 8 × Word × Word :=
  (s.regOff reg, (doorbellWords i).1, (doorbellWords i).2)

/-- The calls on the mailbox port, newest first. -/
def State.calls (s : State) : List MailboxCall :=
  s.bus.filterMap fun e => match e with
    | .mailbox _ call => some call
    | _ => none

/-- Is an address outside a range? -/
def Outside (b : Nat) (r : Nat × Nat) : Prop := b < r.1 ∨ r.1 + r.2 ≤ b

/-- The delimiter in the header of the WQE of number `m` of a QP's own ring (R308). -/
def State.dbdAt (s : State) (x : Qp) (isSend : Bool) (m : Nat) : Nat :=
  s.memRead (x.slotAddr isSend ((m - 1) % (x.ring isSend).capacity) + 4) 4 / 128 % 2

/-- The doorbell credit `k` with which an error CQE that stands at the WQE of number `n` with credit `cnt` comes to the WQE of number
`m` of its chain: each delimiter on the way has taken one (R308). -/
def State.creditAt (s : State) (x : Qp) (isSend : Bool) (n cnt m k : Nat) : Prop :=
  k < 65536 ∧ (k + ((List.range (m - n)).map fun j => s.dbdAt x isSend (n + j)).sum) % 65536 = cnt

/-! ### Polls of several entries, cleaning -/

/-- The slot at `a` given back to the hardware by a poll, the CQ being `y` apart from its consumer index (R300). -/
def State.gives (s : State) (c a : Nat) (y : Cq) : State :=
  (s.memWrite (a + 0x1F) 1 0x80).setCq c { y with consIndex := y.consIndex + 1 }

/-- One iteration of the loop of R300 on the CQ at `c`, which `POLL_ONE` decides (R301, R303 to R308): `rec` is the record it makes,
if one, `freed` says whether the slot goes back to the hardware, `u` is the state after it. -/
def State.pollsTo (s : State) (c : Nat) (rec : Option CompRec) (freed : Bool) (u : State) : Prop :=
  ∃ y a, s.cq? c = some y ∧ y.headAddr = a ∧ s.cqeHwOwned a = false ∧
    ((∃ q x isSend idx w, s.lookupNum .qp (s.cqeQpn a) = some q ∧ q ≠ 0 ∧ s.qp? q = some x ∧ s.cqeIsSend a = isSend
        ∧ (isSend = false → x.srq = none) ∧ x.wqeIndex isSend (s.cqeWord a 0x18).toNat = some idx
        ∧ (x.ring isSend).wrid.getD idx none = some w ∧ s.legacyErrDue a = 0
        ∧ rec = some (completion s x isSend a w) ∧ freed = true
        ∧ u = (s.rmb.setQp q (x.setRing isSend ((x.ring isSend).retire idx))).gives c a y)
      ∨ (∃ q x isSend idx w h nds dbd cnt, s.lookupNum .qp (s.cqeQpn a) = some q ∧ q ≠ 0 ∧ s.qp? q = some x
        ∧ s.cqeIsSend a = isSend ∧ (isSend = false → x.srq = none) ∧ x.wqeIndex isSend (s.cqeWord a 0x18).toNat = some idx
        ∧ (x.ring isSend).wrid.getD idx none = some w ∧ s.legacyErrDue a = 1
        ∧ rec = some (completion s x isSend a w) ∧ s.chainAt x isSend a idx h nds dbd cnt
        ∧ ((nds ≠ 0 ∧ ¬ (cnt = 0 ∧ dbd = 1) ∧ freed = false ∧ u = s.rmb.keepsErr q x isSend a idx h nds dbd cnt)
          ∨ ((nds = 0 ∨ (cnt = 0 ∧ dbd = 1)) ∧ freed = true ∧ u = (s.rmb.endsErr q x isSend idx).gives c a y)))
      ∨ (∃ q x g r z idx w, s.lookupNum .qp (s.cqeQpn a) = some q ∧ q ≠ 0 ∧ s.qp? q = some x ∧ s.cqeIsSend a = false
        ∧ x.srq = some g ∧ s.names .srq g r ∧ s.srq? r = some z ∧ z.wqeIndex (s.cqeWord a 0x18).toNat = some idx
        ∧ z.wrid.getD idx none = some w ∧ rec = some (completion s x false a w) ∧ freed = true
        ∧ u = (s.rmb.setSrq r (z.freeSlot idx)).gives c a y)
      ∨ (s.cqeUndecodable a ∧ rec = none ∧ freed = true
        ∧ u = s.rmb.gives c a { y with decodeErrors := y.decodeErrors + 1 }))

/-- Iterations of that loop, one after another. -/
def State.pollsAll (s : State) (c : Nat) (l : List (Option CompRec × Bool)) (u : State) : Prop :=
  match l with
  | [] => u = s
  | e :: l => ∃ v, s.pollsTo c e.1 e.2 v ∧ v.pollsAll c l u

/-- The consumer index of a CQ published for `n` slots (R260): nothing for none. -/
def State.publishes (s : State) (c n : Nat) : State :=
  match s.cq? c with
  | none => s
  | some y =>
    if n = 0 then s
    else match s.mode with
      | .legacy => (s.setCq c { y with devCons := y.devCons + BitVec.ofNat 32 n }).ring .cq
          (.dbLegacyCqInc y.cqn (BitVec.ofNat 32 (n - 1)))
      | .memfree => (s.setCq c { y with devCons := y.consIndex }).wmb.writeRec0 y.setCiRec y.consIndex.toNat

/-- Is a CQE, given by its bytes, a receive completion of a QP number (R120, R123)? -/
def isRecvOf (qpn : Num24) (e : List Byte) : Bool :=
  decide (cqeBytesQpn e = qpn) && !isSendCqe (e.getD 0x1C 0) (e.getD 0x1D 0)

/-- An SRQ after the slots of receive CQEs, given oldest first, have been freed, the newest first (R310, R376). -/
def Srq.freed (y : Srq) (es : List (List Byte)) : Srq :=
  es.reverse.foldl (fun z e => z.freeSlot (beNat ((e.drop 0x18).take 4) >>> z.shift)) y

/-- The CQs and SRQs after the cleaning of both CQs of a QP `x` (R310, R311, R312, R376): of the CQEs that waited in its send CQ, at
`c1`, and its receive CQ, at `c2`, those of other QPs wait, in their order; the receive CQEs of `x` in its receive CQ have given
their slots back to its SRQ; every other CQ and SRQ is as before. `d` is 1 where the QP gives up its attaches as well (R349), else
0. -/
def State.cleanedOf (s t : State) (x : Qp) (c1 c2 d : Nat) : Prop :=
  (∀ c y, s.cq? c = some y → ∃ z, t.cq? c = some z
    ∧ z = { y with consIndex := z.consIndex, devCons := z.devCons
                   attach := y.attach - d * ((if c = c1 then 1 else 0) + if c = c2 then 1 else 0) }
    ∧ (c ≠ c1 → c ≠ c2 → z.consIndex = y.consIndex ∧ z.devCons = y.devCons)
    ∧ (c = c1 ∨ c = c2 → t.cqes z = ((s.cqes y).filter fun e => decide (cqeBytesQpn e ≠ x.qpn))
      ∧ z.consIndex + BitVec.ofNat 32 (t.cqes z).length = y.consIndex + BitVec.ofNat 32 (s.cqes y).length))
  ∧ ∀ r z, s.srq? r = some z →
    (x.srq.bind (s.lookup .srq) ≠ some r → t.srq? r = some z)
    ∧ ∀ y, x.srq.bind (s.lookup .srq) = some r → s.cq? c2 = some y →
      t.srq? r = some { z.freed ((s.cqes y).filter (isRecvOf x.qpn)) with attach := z.attach - d }

/-- What `DESTROY_QP` of the QP `x` at `q` leaves, apart from its CQs, its SRQ and memory (R182, R345, R256): the handle `h` names
nothing, the object is gone, the doorbell records `recs` are free and invalid, the response holds the firmware's status where the QP
was not in RESET. `a` is the firmware's answer, `rest` what has come after it. -/
def State.qpGone (s t : State) (h : Handle) (q : Nat) (x : Qp) (a : FwAnswer) (rest : List FwAnswer) (recs : List Nat) : Prop :=
  t.lookup .qp h = none ∧ t.qp? q = none ∧ (∀ p, p ≠ q → t.qp? p = s.qp? p)
  ∧ (∀ r ∈ recs, t.memRead (s.recAddr r + 4) 4 = 0)
  ∧ t.agents = (s.ended { status := some .ok
                          fwStatus := if x.state = .reset then none else some a.status }).agents
  ∧ t = { s with
      qpTable := s.qpTable.set h.index.toNat { gen := h.gen + 1, occ := none }
      qps := t.qps, cqs := t.cqs, srqs := t.srqs, mem := t.mem, bus := t.bus, agents := t.agents
      fw := if x.state = .reset then s.fw else rest
      quiet := if x.state = .reset ∨ a.status ≠ 0 then s.quiet
        else x.qpn :: s.quiet.filter fun n => decide (n ≠ x.qpn)
      dbRecUsed := s.dbRecUsed.filter fun r => decide (r ∉ recs), dbRecFree := s.dbRecFree + recs.length }

/-- Two CQs of a QP, its send CQ at `c1` and its receive CQ at `c2`, whose rings share no byte with each other or with some doorbell
records, and hold a power of two of slots (R291). -/
def State.cleanable (s : State) (x : Qp) (c1 c2 : Nat) (recs : List Nat) : Prop :=
  s.names .cq x.sendCq c1 ∧ s.names .cq x.recvCq c2 ∧ (x.sendCq ≠ x.recvCq → c1 ≠ c2)
  ∧ ∃ y1 y2, s.cq? c1 = some y1 ∧ s.cq? c2 = some y2
    ∧ (∃ k, k ≤ 32 ∧ y1.capacity = 2 ^ k) ∧ (∃ k, k ≤ 32 ∧ y2.capacity = 2 ^ k)
    ∧ (c1 ≠ c2 → ∀ b, Outside b y1.buffer ∨ Outside b y2.buffer)
    ∧ (∀ r ∈ recs ++ s.recsOf [y1.setCiRec, y2.setCiRec], ∀ b,
        Outside b (s.recAddr r, 8) ∨ (Outside b y1.buffer ∧ Outside b y2.buffer))

/-- Is an address outside the rings of some CQs and the words 0 of their consumer-index records? -/
def State.outsideCqs (s : State) (cs : List Nat) (b : Nat) : Prop :=
  ∀ c ∈ cs, ∀ y, s.cq? c = some y → Outside b y.buffer ∧ ∀ r ∈ s.recsOf [y.setCiRec], Outside b (s.recAddr r, 4)

/-! ### Objects that name each other -/

/-- How often the live QPs name the CQ or SRQ at an arena index (R349). -/
def State.refs (s : State) (k : Kind) (o : Nat) : Nat :=
  ((List.range (Config.entries s.cfg .qp)).map fun i =>
    match (s.entry .qp i).occ.bind fun p => s.qp? p.obj with
    | none => 0
    | some x =>
      match k with
      | .qp => 0
      | .cq => (if s.lookup .cq x.sendCq = some o then 1 else 0) + (if s.lookup .cq x.recvCq = some o then 1 else 0)
      | .srq => if x.srq.bind (s.lookup .srq) = some o then 1 else 0).sum

/-- The lookup tables and the objects fit together: every live entry has an object of its own at an arena index other than 0, the
CQs and the SRQ that a live QP names are live, and every CQ and SRQ counts the live QPs that name it (R349). -/
def State.linked (s : State) : Prop :=
  s.tablesWf ∧ (∀ k, Config.entries s.cfg k ≤ 2 ^ 24)
  ∧ (∀ k i o, (s.entry k i).occ = some o → o.obj ≠ 0)
  ∧ (∀ k i j o p, (s.entry k i).occ = some o → (s.entry k j).occ = some p → o.obj = p.obj → i = j)
  ∧ (∀ i o, (s.entry .qp i).occ = some o → ∃ x, s.qp? o.obj = some x ∧ (s.lookup .cq x.sendCq).isSome
      ∧ (s.lookup .cq x.recvCq).isSome ∧ ∀ g, x.srq = some g → (s.lookup .srq g).isSome)
  ∧ ∀ k i o, k ≠ .qp → (s.entry k i).occ = some o → s.attachOf k o.obj = s.refs k o.obj

/-! ### Rows of the opcode table -/

/-- The rows of the CQE opcode bytes (R123 to R125). -/
def cqeRow (i : Instr) : Bool :=
  match i with
  | .cqeError _ => true
  | .cqeSend08 => true
  | .cqeSend09 => true
  | .cqeSend0A => true
  | .cqeSend0B => true
  | .cqeSend10 => true
  | .cqeSend11 => true
  | .cqeSend12 => true
  | .cqeSend18 => true
  | .cqeSendOther _ => true
  | .cqeRecv03 _ => true
  | .cqeRecv05 _ => true
  | .cqeRecv09 _ => true
  | .cqeRecv0B _ => true
  | .cqeRecvOther _ => true
  | _ => false

/-- The rows of the work-request opcodes 0 to 6 (R108). -/
def wrRows : List (Instr × BitVec 3) :=
  [(.wrRdmaWrite, 0), (.wrRdmaWriteImm, 1), (.wrSend, 2), (.wrSendImm, 3), (.wrRdmaRead, 4), (.wrAtomicCs, 5), (.wrAtomicFa, 6)]

/-- Does an instruction post exactly one send request: `POST_SEND` with a list of one, or the row of an opcode? -/
def postsOne (i : Instr) (op : Operands) (wr : SendWr) : Prop :=
  (i = .postSend ∧ op.sendWrs = [wr]) ∨ ∃ e ∈ wrRows, i = e.1 ∧ wr = { (op.sendWrs.headD {}) with opcode := e.2 }

/-- Does an instruction poll one CQE at an address: `POLL_CQ` for one entry, or the row of the CQE's kind? -/
def State.pollsOne (s : State) (i : Instr) (a : Nat) : Prop :=
  (i = .pollCq ∧ s.me.op.maxEntries = 1) ∨ (cqeRow i = true ∧ s.cqeMatches i a = true)

/-! ### What stays the same -/

/-- The bytes of consecutive fields, each most significant byte first (R74). -/
def layout (fs : List (Nat × Nat)) : List Byte :=
  match fs with
  | [] => []
  | (n, v) :: fs => beBytes n v ++ layout fs

/-- Every byte of host memory outside a range reads as before. -/
def SameMemOutside (s t : State) (a n : Nat) : Prop := ∀ b, Outside b (a, n) → memGet t.mem b = memGet s.mem b

/-- Every byte of host memory reads as before. -/
def SameMem (s t : State) : Prop := ∀ b, memGet t.mem b = memGet s.mem b

/-- Every byte of some doorbell records reads 0, every other byte as before; nothing but memory and the bus has changed. -/
def RecordsZeroed (recs : List Nat) (s t : State) : Prop :=
  (∀ r ∈ recs, t.memRead (s.recAddr r) 4 = 0 ∧ t.memRead (s.recAddr r + 4) 4 = 0)
  ∧ (∀ b, (∀ r ∈ recs, Outside b (s.recAddr r, 8)) → memGet t.mem b = memGet s.mem b)
  ∧ t = { s with mem := t.mem, bus := t.bus }

end Sys2Proof.Machine
end

