-- ==== Sys2Proof/Certificates/Slice0/Obligations.lean ====
section
/-! DEFINITION. The statements for the provers. Each docstring names the rules of spec/ a statement formalises and, where a clause
is the model's own choice, the entry of the assumption log. -/

open Sys2Proof Sys2Proof.Machine

/-! ### Encoding -/

/-- The encoding of every well-formed instruction decodes to it (R101 to R140). -/
def Obligations.DecodeEncode : Prop := ∀ i : Instr, i.wf = true → decode (encode i).1 (encode i).2 = .ok i

/-- No bit of a word is dropped: in every format but the event's, whose words have ignored bits, encoding what the bytes decode
to gives the bytes back (R101, R108, R112, R123 to R130). -/
def Obligations.EncodeDecode : Prop :=
  ∀ (f : Format) (bytes : List Byte) (i : Instr), f ≠ .event → decode f bytes = .ok i → (encode i).2 = bytes

/-- The illegal command words are those of R110: a reserved bit set, `sol` set on a command other than `REQ_NOTIFY_CQ`, or an
unassigned `opc`. -/
def Obligations.IllegalWords : Prop :=
  ∀ w : Word, decode .command (wordBytes w) = .ok (.illegalCommand w) ↔
    (w.extractLsb' 9 23 ≠ 0 ∨ (w.getLsbD 8 = true ∧ w.extractLsb' 0 8 ≠ 0x22)
      ∨ w.extractLsb' 0 8 ∉ [0x01, 0x02, 0x10, 0x11, 0x12, 0x13, 0x14, 0x15, 0x20, 0x21, 0x22, 0x23, 0x30, 0x31, 0x32])

/-- Words of each format, as spec/30_encoding.md lays them out (R101, R104, R112, R118, R126 to R130, R140). -/
def Obligations.DecodeWords : Prop :=
  decode .command [0x00, 0x00, 0x00, 0x14] = .ok .postSend
  ∧ decode .command [0x00, 0x00, 0x01, 0x22] = .ok (.reqNotifyCq true)
  ∧ decode .link [0x00, 0x00, 0x04, 0x4A] = .ok (.wqeOpSend 0x11)
  ∧ decode .event [0x80, 0x00, 0x00, 0x03, 0x00, 0x00, 0x00, 0x00] = .ok (.eventCompletion 3)
  ∧ decode (.doorbell .legacy .send) [0x00, 0x00, 0x04, 0x0A, 0x00, 0x00, 0x05, 0x02]
      = .ok (.dbLegacySend 0x10 false 0x0A 5 2)
  ∧ decode (.doorbell .memfree .cq) [0x12, 0x00, 0x00, 0x03, 0x00, 0x00, 0x00, 0x05]
      = .ok (.dbMemfreeCqArm 1 false 3 5)

/-! ### The machine -/

/-- Every step keeps the invariant of the machine: canonical memory, no lock held twice (R50), lookup tables of their size
(R340), arena indices in range. -/
def Obligations.StepKeepsInv : Prop := ∀ s t : State, s.Inv → step s = .next t → t.Inv

/-- No step changes the implementation parameters (R7). -/
def Obligations.StepKeepsConfig : Prop := ∀ s t : State, step s = .next t → t.cfg = s.cfg

/-- The mode is fixed at `DEVICE_START`: no other instruction changes it (R3). -/
def Obligations.ModeFixed : Prop :=
  ∀ (i : Instr) (s t : State), i ≠ .deviceStart → exec i s = .next t → t.mode = s.mode

/-- The core changes a QP's cached state only by `MODIFY_QP`, by the `SQ_DRAINED` event and by a fatal failure (R150). The
premise rules out states in which an object lies beyond the next free arena index (Sys2Proof.Machine.State.Inv). -/
def Obligations.StateChangesOnly : Prop :=
  ∀ (i : Instr) (s t : State), i ≠ .modifyQp → i ≠ .eventFatal → (∀ num, i ≠ .eventQp num 2) →
    (∀ q, (s.qp? q).isSome → q < s.nextObj) → exec i s = .next t →
    ∀ q x y, s.qp? q = some x → t.qp? q = some y → y.state = x.state

/-- After power-on (R53, R442): not started, not failed, every lookup entry empty with generation 0, every lock free, every
doorbell record free, no event; and the invariant of the machine holds. -/
def Obligations.ResetState : Prop :=
  State.reset.Inv ∧ State.reset.started = false ∧ State.reset.fatal = false
  ∧ (∀ k i, State.reset.entry k i = { gen := 0, occ := none })
  ∧ (∀ x, State.reset.holder x = none)
  ∧ State.reset.dbRecFree = State.reset.cfg.dbRecCount ∧ State.reset.dbRecUsed = []
  ∧ State.reset.eventOut = [] ∧ State.reset.eventQ = [] ∧ (State.reset.agent eventAgent).cmd = none

/-- A step runs the decoded instruction: the bytes an idle requester issues decode to `i`, and the step is `i` run by that
requester, with the operand record it wrote, the input taken from the inbox (R9, R20, R21). The record is one that can be
expressed (R103); an event word is none that a requester issues (R140, R423). -/
def Obligations.StepRunsIssued : Prop :=
  ∀ (s : State) (a : Nat) (f : Format) (bytes : List Byte) (op : Option Operands) (sl : Option Nat) (rest : List Input)
    (i : Instr), s.inbox = .issue a f bytes op sl :: rest → a ≠ eventAgent → (s.agent a).cmd = none → f ≠ .event →
    expressible s.cfg op = true → decode f bytes = .ok i → step s = exec i (((s.setInbox rest).withAgent a sl).withOperands op)

/-- An event that the device may raise and the idle event agent takes is run as its word decodes (R140, R423); one that comes while
the event agent is busy, or behind others, waits its turn (R423). One that comes while the instance is not started is dropped
at once: the event agent runs it and does nothing, or it is not queued (R441; notes/assumptions/20.md). What the device notes of
an event it raises is notes/assumptions/21.md. -/
def Obligations.StepRunsEvent : Prop :=
  ∀ (s : State) (bytes : List Byte) (sl : Option Nat) (rest : List Input) (i : Instr),
    s.inbox = .event bytes sl :: rest → decode .event bytes = .ok i →
    (s.started = true → s.eventAllowed i = true →
      ((s.agent eventAgent).cmd = none → s.eventQ = [] →
        step s = exec i (((s.setInbox rest).noteRaised i).withAgent eventAgent sl))
      ∧ ((s.agent eventAgent).cmd.isSome ∨ s.eventQ ≠ [] →
        step s = .next (((s.setInbox rest).noteRaised i).setEventQ (s.eventQ ++ [bytes]))))
    ∧ (s.started = false →
      ((s.agent eventAgent).cmd = none → step s = exec i ((s.setInbox rest).withAgent eventAgent none))
      ∧ ((s.agent eventAgent).cmd.isSome → step s = .next (s.setInbox rest)))

/-- A table word stored where the step fetches runs as the instruction it decodes to: an event that the device may raise by the
event agent, any other word by the requester whose turn it is (the input convention is notes/assumptions/5.md, what the device
notes of an event notes/assumptions/21.md). -/
def Obligations.FetchRuns : Prop :=
  ∀ (s : State) (nbits w : Nat) (i : Instr), decodeTableWord nbits w = some i →
    ((tableFormat nbits w).1 ≠ .event → (s.agent s.requester).cmd = none →
      step (s.withFetchWord nbits w) = exec i (s.withAgent s.requester none))
    ∧ ((tableFormat nbits w).1 = .event → (s.agent eventAgent).cmd = none → s.eventQ = [] →
      (s.started = true → s.eventAllowed i = true →
        step (s.withFetchWord nbits w) = exec i ((s.noteRaised i).withAgent eventAgent none))
      ∧ (s.started = false → step (s.withFetchWord nbits w) = exec i (s.withAgent eventAgent none)))

/-! ### Device instance and common statuses -/

/-- `DEVICE_START` of a stopped instance (R440): in `LEGACY` the instance starts, not failed, `db_rec_base` is ignored and no
record is written; in `MEMFREE`, with an aligned record table that the requester owns, every record is 0 and free, and every byte
outside the table reads as before. -/
def Obligations.DeviceStart : Prop :=
  ∀ s : State, s.idle → s.started = false →
    (s.me.op.mode = .legacy → exec .deviceStart s =
      .next ((((s.setMode .legacy).setFatal false).setStarted true).ended { status := some .ok }))
    ∧ ∀ base, s.me.op.mode = .memfree → s.me.op.dbRecBase.toNat = base → base % 8 = 0 →
      s.owns (base, 8 * s.cfg.dbRecCount) = true → Memory.wf s.mem = true →
    RunsTo (exec .deviceStart s) fun t =>
      (∀ b, base ≤ b → b < base + 8 * s.cfg.dbRecCount → memGet t.mem b = 0)
      ∧ SameMemOutside s t base (8 * s.cfg.dbRecCount)
      ∧ t.agents = (s.ended { status := some .ok }).agents
      ∧ t = { s with
          mode := .memfree, dbRecBase := s.me.op.dbRecBase, dbRecFree := s.cfg.dbRecCount, dbRecUsed := []
          fatal := false, started := true, mem := t.mem, bus := t.bus, agents := t.agents }

/-- `DEVICE_START` of a started instance is `ALREADY_STARTED`; with a misaligned record table, `OUT_OF_RANGE`; neither changes
anything (R440). -/
def Obligations.DeviceStartRejected : Prop :=
  ∀ s : State, s.idle →
    (s.started = true → exec .deviceStart s = .next (s.ended { status := some .alreadyStarted }))
    ∧ (s.started = false → s.me.op.mode = .memfree → s.me.op.dbRecBase.toNat % 8 ≠ 0 →
        exec .deviceStart s = .next (s.ended { status := some .outOfRange }))

/-- `DEVICE_STOP` of an instance without live objects (R441): it is stopped, not failed, every doorbell record is free, the event
agent is idle. That events which still wait are dropped is the model's reading of R442 (notes/assumptions/36.md). -/
def Obligations.DeviceStopEmpty : Prop :=
  ∀ s : State, s.idle → s.started = true → (∀ k i, (s.entry k i).occ = none) →
    exec .deviceStop s =
      .next ((((s.dropEvents.setStarted false).setFatal false).setRecs [] s.cfg.dbRecCount).ended { status := some .ok })
    ∧ s.dropEvents.eventQ = [] ∧ (s.dropEvents.agent eventAgent).cmd = none
    ∧ (∀ a, a ≠ eventAgent → s.dropEvents.agent a = s.agent a)
    ∧ s.dropEvents = { s with eventQ := [], agents := s.dropEvents.agents }

/-- `DEVICE_STOP` of an instance with live objects (R441): where it ends, it has destroyed them all, QPs before the SRQs and CQs
they name. Every lookup entry is empty, its generation one higher where it was live, so that no handle resolves any more; no
live object is left; the instance is stopped, not failed, with every doorbell record free, the event agent idle and no event
waiting (the model's reading of R442, notes/assumptions/36.md). The premise `linked` says what R349 makes true of every instance
between commands. -/
def Obligations.DeviceStop : Prop :=
  ∀ s t : State, s.idle → s.started = true → s.linked → exec .deviceStop s = .next t → t.me.cmd = none →
    (∀ k i, t.entry k i =
      { gen := if (s.entry k i).occ.isSome then (s.entry k i).gen + 1 else (s.entry k i).gen, occ := none })
    ∧ (∀ k h, t.lookup k h = none)
    ∧ (∀ i o, (s.entry .qp i).occ = some o → t.qp? o.obj = none)
    ∧ (∀ i o, (s.entry .cq i).occ = some o → t.cq? o.obj = none)
    ∧ (∀ i o, (s.entry .srq i).occ = some o → t.srq? o.obj = none)
    ∧ t.started = false ∧ t.fatal = false ∧ t.dbRecUsed = [] ∧ t.dbRecFree = s.cfg.dbRecCount ∧ t.locks = []
    ∧ t.eventQ = [] ∧ (t.agent eventAgent).cmd = none
    ∧ t.response = { status := some .ok }

/-- Step 2 of the common preconditions (R401): before `DEVICE_START` every other command is `NOT_STARTED`, `bad_index` 0 for a
command with a list, and nothing changes. -/
def Obligations.NotStarted : Prop :=
  ∀ (i : Instr) (s : State), s.idle → s.started = false →
    (i ∈ [.deviceStop, .createQp, .modifyQp, .queryQp, .destroyQp, .postSend, .postRecv, .createCq, .pollCq, .destroyCq,
        .createSrq, .postSrqRecv, .destroySrq] ∨ ∃ sol, i = .reqNotifyCq sol) →
    exec i s = .next (s.ended { status := some .notStarted, badIndex := failIndex i })

/-- Step 3 of the common preconditions (R401): after a fatal failure the commands it lists are `DEVICE_FATAL`, and nothing
changes. -/
def Obligations.DeviceFatal : Prop :=
  ∀ (i : Instr) (s : State), s.idle → s.started = true → s.fatal = true →
    (i ∈ [.createQp, .modifyQp, .queryQp, .postSend, .postRecv, .createCq, .createSrq, .postSrqRecv]
      ∨ ∃ sol, i = .reqNotifyCq sol) →
    exec i s = .next (s.ended { status := some .deviceFatal, badIndex := failIndex i })

/-- A command whose handle names no live object ends with `INVALID_HANDLE` and changes nothing (R346, R401). -/
def Obligations.InvalidHandle : Prop :=
  ∀ (i : Instr) (s : State), s.quietStart →
    ((i ∈ [.modifyQp, .queryQp, .destroyQp, .postSend, .postRecv] ∧ s.lookup .qp s.me.op.qp = none)
      ∨ (i ∈ [.pollCq, .reqNotifyCq false, .reqNotifyCq true, .destroyCq] ∧ s.lookup .cq s.me.op.cq = none)
      ∨ (i ∈ [.postSrqRecv, .destroySrq] ∧ ∃ h, s.me.op.srq = some h ∧ s.lookup .srq h = none)) →
    exec i s = .next (s.ended { status := some .invalidHandle, badIndex := failIndex i })

/-- A command word that is no command ends with `ILLEGAL_COMMAND`, changes no state and writes nothing to host memory or the
doorbell window (R110). The `bad_index` of a word with the `opc` of a list command is the model's choice
(notes/assumptions/15.md). -/
def Obligations.IllegalCommand : Prop :=
  ∀ (s : State) (w : Word), s.idle →
    exec (.illegalCommand w) s = .next (s.ended { status := some .illegalCommand
                                                  badIndex := (illegalBadIndex w).map (BitVec.ofNat 32) })

/-! ### Creates -/

/-- `CREATE_CQ` (R292, R344, R256): the CQ's entry is live and its handle names the new object, whose fields are those of R40;
the owner byte of every slot is 0x80; in `MEMFREE` its records hold 0 and `(cqn << 8) | (type << 5)`, of types 1 and 5; every
other byte of memory reads as before. -/
def Obligations.CreateCq : Prop :=
  ∀ (s : State) (op : Operands) (cap : Nat) (recs : List Nat) (a : FwAnswer) (rest : List FwAnswer),
    s.quietStart → s.me.op = op → cqCapacity op.cqDepth.toNat = cap → cap ≤ s.cfg.maxCqes → op.bufBase.toNat % 32 = 0 →
    s.bufferOk (op.bufBase.toNat, 32 * cap) = true → s.canInsert .cq op.cqn → s.takesRecs 2 recs →
    s.fw = a :: rest → a.status = 0 → Memory.wf s.mem = true →
    (∀ r ∈ recs, s.recAddr r + 8 ≤ op.bufBase.toNat ∨ op.bufBase.toNat + 32 * cap ≤ s.recAddr r) →
    RunsTo (exec .createCq s) fun t =>
      t.lookup .cq (s.freshHandle .cq op.cqn) = some s.nextObj
      ∧ t.cq? s.nextObj = some
          { self := s.freshHandle .cq op.cqn, cqn := op.cqn, capacity := cap, bufBase := op.bufBase, consIndex := 0
            armSn := 1, setCiRec := recs[0]?, armRec := recs[1]?, attach := 0, decodeErrors := 0 }
      ∧ (∀ c, c ≠ s.nextObj → t.cq? c = s.cq? c)
      ∧ (∀ j, j < cap → memGet t.mem (op.bufBase.toNat + 32 * j + 0x1F) = 0x80)
      ∧ (∀ k r, recs[k]? = some r → t.memRead (s.recAddr r) 4 = 0
          ∧ t.memRead (s.recAddr r + 4) 4 = op.cqn.toNat * 256 + (if k = 0 then 1 else 5) * 32)
      ∧ (∀ b, (∀ j, j < cap → b ≠ op.bufBase.toNat + 32 * j + 0x1F) → (∀ r ∈ recs, Outside b (s.recAddr r, 8)) →
          memGet t.mem b = memGet s.mem b)
      ∧ t.agents = (s.ended { status := some .ok, cq := some (s.freshHandle .cq op.cqn), capacity := some cap
                              fwStatus := some 0 }).agents
      ∧ t = { s with
          cqTable := s.cqTable.set (s.indexOf .cq op.cqn)
            { gen := (s.entry .cq (s.indexOf .cq op.cqn)).gen, occ := some { num := op.cqn, obj := s.nextObj } }
          cqs := t.cqs, nextObj := s.nextObj + 1, mem := t.mem, bus := t.bus, fw := rest, agents := t.agents
          dbRecUsed := recs.foldl insertSorted s.dbRecUsed, dbRecFree := s.dbRecFree - recs.length }

/-- `CREATE_SRQ` (R371, R372, R256): the new object's fields are those of R45, with every slot on its free list in order; its
buffer reads 0; in `MEMFREE` its record holds 0 and `(srqn << 8) | (4 << 5)`; every other byte of memory reads as before. -/
def Obligations.CreateSrq : Prop :=
  ∀ (s : State) (op : Operands) (cap sh : Nat) (recs : List Nat) (a : FwAnswer) (rest : List FwAnswer),
    s.quietStart → s.me.op = op → ringCapacity s.mode op.srqDepth.toNat = cap →
    slotShift s.cfg (16 + 16 * op.maxGs.toNat) = sh → op.srqDepth.toNat ≤ s.cfg.maxSrqWqes → op.maxGs.toNat ≤ s.cfg.maxSrqSge →
    16 + 16 * op.maxGs.toNat ≤ 1008 → op.bufBase.toNat % 2 ^ sh = 0 → s.bufferOk (op.bufBase.toNat, cap * 2 ^ sh) = true →
    s.canInsert .srq op.srqn → s.takesRecs 1 recs → s.fw = a :: rest → a.status = 0 → Memory.wf s.mem = true →
    (∀ r ∈ recs, s.recAddr r + 8 ≤ op.bufBase.toNat ∨ op.bufBase.toNat + cap * 2 ^ sh ≤ s.recAddr r) →
    RunsTo (exec .createSrq s) fun t =>
      t.lookup .srq (s.freshHandle .srq op.srqn) = some s.nextObj
      ∧ (∃ x, t.srq? s.nextObj = some x ∧ x.self = s.freshHandle .srq op.srqn ∧ x.srqn = op.srqn ∧ x.pd = op.pd
          ∧ x.capacity = cap ∧ x.shift = sh ∧ x.maxGs = op.maxGs.toNat ∧ x.bufBase = op.bufBase ∧ x.lastIdx = cap - 1
          ∧ x.outstanding = 0 ∧ x.counter = 0 ∧ x.attach = 0 ∧ x.live = 0 ∧ x.first = 0 ∧ x.queue = [] ∧ x.dbRec = recs[0]?
          ∧ x.wrid = List.replicate cap none
          ∧ x.posted = List.replicate cap false ∧ x.freeList = List.range cap ∧ x.freeTail = some (cap - 1))
      ∧ (∀ r, r ≠ s.nextObj → t.srq? r = s.srq? r)
      ∧ (∀ b, op.bufBase.toNat ≤ b → b < op.bufBase.toNat + cap * 2 ^ sh → memGet t.mem b = 0)
      ∧ (∀ r ∈ recs, t.memRead (s.recAddr r) 4 = 0 ∧ t.memRead (s.recAddr r + 4) 4 = op.srqn.toNat * 256 + 128)
      ∧ (∀ b, Outside b (op.bufBase.toNat, cap * 2 ^ sh) → (∀ r ∈ recs, Outside b (s.recAddr r, 8)) →
          memGet t.mem b = memGet s.mem b)
      ∧ t.agents = (s.ended { status := some .ok, srq := some (s.freshHandle .srq op.srqn), capacity := some cap
                              shift := some sh, fwStatus := some 0 }).agents
      ∧ t = { s with
          srqTable := s.srqTable.set (s.indexOf .srq op.srqn)
            { gen := (s.entry .srq (s.indexOf .srq op.srqn)).gen, occ := some { num := op.srqn, obj := s.nextObj } }
          srqs := t.srqs, nextObj := s.nextObj + 1, mem := t.mem, bus := t.bus, fw := rest, agents := t.agents
          dbRecUsed := recs.foldl insertSorted s.dbRecUsed, dbRecFree := s.dbRecFree - recs.length }

/-- `CREATE_QP` (R170, R201 to R203, R205, R349): the new QP is in RESET with empty rings of the geometry of R201 to R203, where a
QP with an SRQ ignores `rq_depth` and `rq_max_gs` (notes/assumptions/16.md) and a send ring with neither scatter/gather entries nor
inline bytes has, by the model's choice, slots for an empty inline segment (notes/assumptions/38.md); its buffer reads 0, the `attach` counts of its CQs
and SRQ are one higher for each time it names them; in `MEMFREE` its records hold 0 and `(qpn << 8) | (type << 5)`, of types 3 and 2;
every other byte of memory reads as before. -/
def Obligations.CreateQp : Prop :=
  ∀ (s : State) (op : Operands) (g : QpGeometry) (recs : List Nat) (c1 c2 : Nat),
    s.quietStart → s.me.op = op → qpGeometry op s = g → createQpBad op s = false →
    s.bufferOk (op.bufBase.toNat, g.sendWqeOffset + g.sqCapacity * 2 ^ g.sqShift) = true →
    s.names .cq op.sendCq c1 → s.names .cq op.recvCq c2 → (∀ h, op.srq = some h → ∃ r, s.names .srq h r) →
    s.canInsert .qp op.qpn → s.takesRecs 2 recs → Memory.wf s.mem = true →
    (∀ r ∈ recs, s.recAddr r + 8 ≤ op.bufBase.toNat
      ∨ op.bufBase.toNat + (g.sendWqeOffset + g.sqCapacity * 2 ^ g.sqShift) ≤ s.recAddr r) →
    RunsTo (exec .createQp s) fun t =>
      t.lookup .qp (s.freshHandle .qp op.qpn) = some s.nextObj
      ∧ t.qp? s.nextObj = some
          { self := s.freshHandle .qp op.qpn, qpn := op.qpn, transport := op.transport, state := .reset, pd := op.pd
            sendCq := op.sendCq, recvCq := op.recvCq, srq := op.srq, sigAll := op.sigAll, maxInline := op.maxInline
            bufBase := op.bufBase, sendWqeOffset := g.sendWqeOffset
            sq := freshRing g.sqCapacity g.sqShift op.sqMaxGs.toNat, rq := freshRing g.rqCapacity g.rqShift (rqMaxGsOf op)
            sqDbRec := recs[0]?, rqDbRec := recs[1]? }
      ∧ (∀ q, q ≠ s.nextObj → t.qp? q = s.qp? q)
      ∧ (∀ c x, s.cq? c = some x →
          t.cq? c = some { x with attach := x.attach + (if c = c1 then 1 else 0) + (if c = c2 then 1 else 0) })
      ∧ (∀ r x, s.srq? r = some x →
          t.srq? r = some { x with attach := x.attach + (if op.srq.bind (s.lookup .srq) = some r then 1 else 0) })
      ∧ (∀ b, op.bufBase.toNat ≤ b → b < op.bufBase.toNat + (g.sendWqeOffset + g.sqCapacity * 2 ^ g.sqShift) →
          memGet t.mem b = 0)
      ∧ (∀ k r, recs[k]? = some r → t.memRead (s.recAddr r) 4 = 0
          ∧ t.memRead (s.recAddr r + 4) 4 = op.qpn.toNat * 256 + (if k = 0 then 3 else 2) * 32)
      ∧ (∀ b, Outside b (op.bufBase.toNat, g.sendWqeOffset + g.sqCapacity * 2 ^ g.sqShift) →
          (∀ r ∈ recs, Outside b (s.recAddr r, 8)) → memGet t.mem b = memGet s.mem b)
      ∧ t.agents = (s.ended
          { status := some .ok, qp := some (s.freshHandle .qp op.qpn), sqCapacity := some g.sqCapacity
            rqCapacity := some g.rqCapacity, sqShift := some g.sqShift, rqShift := some g.rqShift
            sendWqeOffset := some g.sendWqeOffset }).agents
      ∧ t = { s with
          qpTable := s.qpTable.set (s.indexOf .qp op.qpn)
            { gen := (s.entry .qp (s.indexOf .qp op.qpn)).gen, occ := some { num := op.qpn, obj := s.nextObj } }
          qps := t.qps, cqs := t.cqs, srqs := t.srqs, nextObj := s.nextObj + 1, mem := t.mem, bus := t.bus
          agents := t.agents, dbRecUsed := recs.foldl insertSorted s.dbRecUsed
          dbRecFree := s.dbRecFree - recs.length }

/-! ### `MODIFY_QP`, `QUERY_QP` -/

/-- The checks of `MODIFY_QP` in their order (R155, R156, R157): each ends the command with its status, without a firmware call,
and nothing changes (R158). The two states are those of R154. The pair has a transition code of R159; that a pair without one is
`INVALID_TRANSITION` whatever the table says is the model's reading (notes/assumptions/31.md), and the default table has no such
pair. The last clause is R157: which values of the supplied attributes are out of range. -/
def Obligations.ModifyQpRejected : Prop :=
  (∀ (s : State) (op : Operands) (q : Nat) (x : Qp) (cur new : QpState),
    s.quietStart → s.me.op = op → s.names .qp op.qp q → s.qp? q = some x → curState x op = cur → newState x op = new →
    (suppliesDraining op = true ∨ legalityOf s.cfg cur new x.transport = none →
      exec .modifyQp s = .next (s.ended { status := some .invalidTransition }))
    ∧ ∀ row tr, suppliesDraining op = false → legalityOf s.cfg cur new x.transport = some row →
      transitionOf cur new = some tr →
      (op.mask &&& row.required ≠ row.required → exec .modifyQp s = .next (s.ended { status := some .missingAttr }))
      ∧ (op.mask &&& row.required = row.required → op.mask &&& ~~~(row.required ||| row.opt ||| 1) ≠ 0 →
          exec .modifyQp s = .next (s.ended { status := some .extraAttr }))
      ∧ (op.mask &&& row.required = row.required → op.mask &&& ~~~(row.required ||| row.opt ||| 1) = 0 →
          attrsOutOfRange s.cfg op = true → exec .modifyQp s = .next (s.ended { status := some .outOfRange })))
  ∧ ∀ (cfg : Config) (op : Operands), attrsOutOfRange cfg op = true ↔
      (hasAttr op.mask .port = true ∧ (op.attrs.portNum.toNat = 0 ∨ cfg.numPorts < op.attrs.portNum.toNat))
      ∨ (hasAttr op.mask .pkeyIndex = true ∧ cfg.pkeyTableLen ≤ op.attrs.pkeyIndex.toNat)
      ∨ (hasAttr op.mask .maxQpRdAtomic = true ∧ cfg.maxQpInitRdma < op.attrs.maxRdAtomic.toNat)
      ∨ (hasAttr op.mask .maxDestRdAtomic = true ∧ cfg.maxQpRespRdma < op.attrs.maxDestRdAtomic.toNat)

/-- The worked example of R190: `MODIFY_QP` to RTR of an RC QP in INIT, without the destination QP number, under the legality
table of R152, ends with `MISSING_ATTR`, without a mailbox call, and no field of the QP changes. -/
def Obligations.ModifyQpMissingDestQpn : Prop :=
  ∀ (s : State) (op : Operands) (q : Nat) (x : Qp), s.quietStart → s.me.op = op → s.names .qp op.qp q → s.qp? q = some x →
    s.cfg.legality = defaultLegality → x.transport = .rc → x.state = .init → op.attrs.qpState = .rtr →
    op.mask = maskOf [.state, .av, .pathMtu, .rqPsn, .maxDestRdAtomic, .minRnrTimer] →
    exec .modifyQp s = .next (s.ended { status := some .missingAttr })

/-- An accepted `MODIFY_QP` to a state other than RESET (R159 to R164, R172): one firmware call with the transition code and the
mailbox image, then the commit of R162: the new state, but DRAINING for SQD from RTS or where the QP is DRAINING; the port, the
access flags, the responder depth and every attribute but `STATE` and `CUR_STATE` as the mask supplies them. QP0 makes the port call
of R164 and reports its status; that a QP whose port was never set is no QP0 is the model's choice (notes/assumptions/40.md).
Nothing else of the spec's state changes; the model's own list `quiet` of the QP numbers the device writes no CQE for loses this
one (DEDUCED, notes/assumptions/26.md). -/
def Obligations.ModifyQpAccepted : Prop :=
  ∀ (s u : State) (op : Operands) (q : Nat) (x y : Qp) (cur new : QpState) (tr : Transition) (a : FwAnswer)
    (rest : List FwAnswer),
    s.quietStart → s.me.op = op → s.names .qp op.qp q → s.qp? q = some x → modifyError s.cfg x op = none →
    curState x op = cur → newState x op = new → new ≠ .reset → transitionOf cur new = some tr → s.fw = a :: rest →
    a.status = 0 → x.commit cur new op = y →
    u = ((((s.wmb.postCall (.modifyQp tr x.qpn (some (contextImage s.cfg x tr new op)))).setFw rest).setQuiet
      (s.quiet.filter fun n => decide (n ≠ x.qpn))).setQp q y) →
    (portCall s.cfg y cur new = 0 → exec .modifyQp s = .next (u.ended { status := some .ok, fwStatus := some 0 }))
    ∧ (∀ b rest', rest = b :: rest' →
      (portCall s.cfg y cur new = 1 →
        exec .modifyQp s = .next (((u.wmb.postCall (.initIb y.port)).setFw rest').ended
          { status := some .ok, fwStatus := some 0, portFwStatus := some b.status }))
      ∧ (portCall s.cfg y cur new = 2 →
        exec .modifyQp s = .next (((u.wmb.postCall (.closeIb y.port)).setFw rest').ended
          { status := some .ok, fwStatus := some 0, portFwStatus := some b.status })))
    ∧ y = { x with state := y.state, port := y.port, accessFlags := y.accessFlags, respDepth := y.respDepth
                   attrCache := y.attrCache }
    ∧ (new = .sqd → cur = .rts ∨ x.state = .draining → y.state = .draining)
    ∧ (new ≠ .sqd ∨ (cur ≠ .rts ∧ x.state ≠ .draining) → y.state = new)
    ∧ y.port = (if hasAttr op.mask .port then op.attrs.portNum else x.port)
    ∧ y.accessFlags = (if hasAttr op.mask .accessFlags then op.attrs.accessFlags else x.accessFlags)
    ∧ y.respDepth = (if hasAttr op.mask .maxDestRdAtomic then op.attrs.maxDestRdAtomic else x.respDepth)
    ∧ ∀ at', attrGet y.attrCache at' =
        if hasAttr op.mask at' = true ∧ at' ≠ .state ∧ at' ≠ .curState then some (attrValue op.attrs at')
        else attrGet x.attrCache at'

/-- A firmware failure of `MODIFY_QP` or `QUERY_QP` is `MAILBOX_FAIL`, with the firmware's status in the response; the QP, its
cached state included, does not change (R161, R172, R180). -/
def Obligations.MailboxFail : Prop :=
  ∀ (s : State) (op : Operands) (q : Nat) (x : Qp) (a : FwAnswer) (rest : List FwAnswer),
    s.quietStart → s.me.op = op → s.names .qp op.qp q → s.qp? q = some x → s.fw = a :: rest → a.status ≠ 0 →
    (∀ tr, modifyError s.cfg x op = none → transitionOf (curState x op) (newState x op) = some tr →
      exec .modifyQp s =
        .next (((s.wmb.postCall (.modifyQp tr x.qpn (some (contextImage s.cfg x tr (newState x op) op)))).setFw rest).ended
          { status := some .mailboxFail, fwStatus := some a.status }))
    ∧ exec .queryQp s = .next (((s.wmb.postCall (.queryQp x.qpn)).setFw rest).ended
        { status := some .mailboxFail, fwStatus := some a.status })

/-- An accepted `MODIFY_QP` to RESET of a QP with no CQE waiting in its CQs (R162, R164, R166): one firmware call, and for QP0 in a
state other than RESET and ERR the call `CLOSE_IB` of its port, whose status the response holds; the QP is in RESET, both rings are
empty, with their geometry; in `MEMFREE` word 0 of their doorbell records is 0; every other byte of memory reads as before. That a
QP whose port was never set is no QP0 is the model's choice (notes/assumptions/40.md), and the model's own list `quiet` of the QP
numbers the device writes no CQE for gains this one (DEDUCED, notes/assumptions/26.md). -/
def Obligations.ModifyQpReset : Prop :=
  ∀ (s : State) (op : Operands) (q c1 c2 : Nat) (x y : Qp) (cur : QpState) (a : FwAnswer) (more rest : List FwAnswer),
    s.quietStart → s.me.op = op → s.names .qp op.qp q → s.qp? q = some x → modifyError s.cfg x op = none →
    curState x op = cur → newState x op = .reset → x.commit cur .reset op = y → s.fw = a :: (more ++ rest) → a.status = 0 →
    more.length = (if portCall s.cfg y cur .reset = 0 then 0 else 1) → s.namesEmptyCq x.sendCq c1 → s.namesEmptyCq x.recvCq c2 →
    (∀ g, x.srq = some g → ∃ r, s.names .srq g r) → Memory.wf s.mem = true →
    RunsTo (exec .modifyQp s) fun t =>
      t.qp? q = some { y with
          state := .reset, sq := freshRing x.sq.capacity x.sq.shift x.sq.maxGs
          rq := freshRing x.rq.capacity x.rq.shift x.rq.maxGs }
      ∧ (∀ p, p ≠ q → t.qp? p = s.qp? p)
      ∧ t.calls = (if portCall s.cfg y cur .reset = 0 then [] else [.closeIb y.port])
          ++ .modifyQp .any2rst x.qpn (some (contextImage s.cfg x .any2rst .reset op)) :: s.calls
      ∧ (∀ r ∈ s.recsOf [x.sqDbRec, x.rqDbRec], t.memRead (s.recAddr r) 4 = 0)
      ∧ (∀ b, (∀ r ∈ s.recsOf [x.sqDbRec, x.rqDbRec], Outside b (s.recAddr r, 4)) → memGet t.mem b = memGet s.mem b)
      ∧ t.agents = (s.ended { status := some .ok, fwStatus := some 0, portFwStatus := more.head?.map (·.status) }).agents
      ∧ t = { s with
          qps := t.qps, mem := t.mem, bus := t.bus, fw := rest, agents := t.agents
          quiet := x.qpn :: s.quiet.filter fun n => decide (n ≠ x.qpn) }

/-- CQ cleaning (R165, R166, R310, R311, R312, R376): after an accepted `MODIFY_QP` to RESET, of the CQEs that waited in the QP's two
CQs, which may be one, those of other QPs wait, in their order; the receive CQEs of a QP with an SRQ have given their slots back to
its free list, the newest first; every other CQ and SRQ is as before, and no byte outside the CQE rings and the doorbell records
changes. The model's own list `quiet` gains the QP number (DEDUCED, notes/assumptions/26.md); which QP is QP0, whose port is closed,
is notes/assumptions/40.md. -/
def Obligations.CqCleaned : Prop :=
  ∀ (s : State) (op : Operands) (q c1 c2 : Nat) (x : Qp) (cur : QpState) (a : FwAnswer) (more rest : List FwAnswer),
    s.quietStart → s.me.op = op → s.names .qp op.qp q → s.qp? q = some x → modifyError s.cfg x op = none →
    curState x op = cur → newState x op = .reset → s.fw = a :: (more ++ rest) → a.status = 0 →
    more.length = (if portCall s.cfg (x.commit cur .reset op) cur .reset = 0 then 0 else 1) →
    s.cleanable x c1 c2 (s.recsOf [x.sqDbRec, x.rqDbRec]) →
    (∀ g, x.srq = some g → ∃ r z, s.names .srq g r ∧ s.srq? r = some z) → Memory.wf s.mem = true →
    RunsTo (exec .modifyQp s) fun t =>
      s.cleanedOf t x c1 c2 0
      ∧ (∀ b, s.outsideCqs [c1, c2] b → (∀ r ∈ s.recsOf [x.sqDbRec, x.rqDbRec], Outside b (s.recAddr r, 4)) →
          memGet t.mem b = memGet s.mem b)
      ∧ t = { s with
          qps := t.qps, cqs := t.cqs, srqs := t.srqs, mem := t.mem, bus := t.bus, fw := rest, agents := t.agents
          quiet := x.qpn :: s.quiet.filter fun n => decide (n ≠ x.qpn) }

/-- `QUERY_QP` (R180): one firmware call; the response holds the cached fields, with DRAINING reported as SQD and `draining`
set, and the firmware's bytes. Nothing else changes. -/
def Obligations.QueryQp : Prop :=
  ∀ (s : State) (q : Nat) (x : Qp) (a : FwAnswer) (rest : List FwAnswer),
    s.quietStart → s.names .qp s.me.op.qp q → s.qp? q = some x → s.fw = a :: rest → a.status = 0 →
    exec .queryQp s = .next (((s.wmb.postCall (.queryQp x.qpn)).setFw rest).ended
      { status := some .ok, fwStatus := some 0, state := some (if x.state = .draining then .sqd else x.state)
        draining := some (decide (x.state = .draining)), port := some x.port, accessFlags := some x.accessFlags
        respDepth := some x.respDepth, attrCache := some x.attrCache, context := some a.out })

/-! ### Destroys -/

/-- `DESTROY_QP` of a QP with no event in delivery (R182, R345, R349, R256): its handle and the entry's old generation name nothing any
more, the object is gone, the `attach` counts of its CQs and SRQ are one lower for each time it names them, its doorbell records are
free with word 1 set to 0; a QP not in RESET is moved there by one firmware call, whose status the response holds. Where no CQE
waits in its CQs, every other byte of memory reads as before; where CQEs wait, those of the QP are cleaned out of both CQs and its
receive CQEs give their slots back to its SRQ (R310, R376), and no byte outside the CQE rings and the doorbell records changes. The
model's own list `quiet` of the QP numbers the device writes no CQE for gains this one where the firmware accepts (DEDUCED,
notes/assumptions/26.md). -/
def Obligations.DestroyQp : Prop :=
  ∀ (s : State) (h : Handle) (q c1 c2 : Nat) (x : Qp) (a : FwAnswer) (rest : List FwAnswer) (recs : List Nat),
    s.quietStart → s.me.op.qp = h → s.names .qp h q → s.qp? q = some x → x.refcount = 0 →
    (∀ g, x.srq = some g → ∃ r, s.names .srq g r) → (x.state ≠ .reset → s.fw = a :: rest) →
    s.recsOf [x.sqDbRec, x.rqDbRec] = recs → Memory.wf s.mem = true →
    (s.namesEmptyCq x.sendCq c1 → s.namesEmptyCq x.recvCq c2 → (x.sendCq ≠ x.recvCq → c1 ≠ c2) →
      RunsTo (exec .destroyQp s) fun t =>
        s.qpGone t h q x a rest recs
        ∧ (∀ c y, s.cq? c = some y →
            t.cq? c = some { y with attach := y.attach - (if c = c1 then 1 else 0) - (if c = c2 then 1 else 0) })
        ∧ (∀ r y, s.srq? r = some y →
            t.srq? r = some { y with attach := y.attach - (if x.srq.bind (s.lookup .srq) = some r then 1 else 0) })
        ∧ (∀ b, (∀ r ∈ recs, Outside b (s.recAddr r + 4, 4)) → memGet t.mem b = memGet s.mem b))
    ∧ (s.cleanable x c1 c2 recs → (∀ g r, x.srq = some g → s.names .srq g r → ∃ z, s.srq? r = some z) →
      RunsTo (exec .destroyQp s) fun t =>
        s.qpGone t h q x a rest recs ∧ s.cleanedOf t x c1 c2 1
        ∧ (∀ b, s.outsideCqs [c1, c2] b → (∀ r ∈ recs, Outside b (s.recAddr r + 4, 4)) → memGet t.mem b = memGet s.mem b))

/-- `DESTROY_CQ` of a CQ that no QP names (R315, R345, R256): its handle names nothing any more, the object is gone, its
doorbell records are free with word 1 set to 0; the firmware's status is reported and is no failure; every other byte of memory
reads as before. -/
def Obligations.DestroyCq : Prop :=
  ∀ (s : State) (h : Handle) (c : Nat) (y : Cq) (a : FwAnswer) (rest : List FwAnswer) (recs : List Nat),
    s.quietStart → s.me.op.cq = h → s.names .cq h c → s.cq? c = some y → y.attach = 0 → s.fw = a :: rest →
    s.recsOf [y.setCiRec, y.armRec] = recs → Memory.wf s.mem = true →
    RunsTo (exec .destroyCq s) fun t =>
      t.lookup .cq h = none ∧ t.cq? c = none ∧ (∀ d, d ≠ c → t.cq? d = s.cq? d)
      ∧ (∀ r ∈ recs, t.memRead (s.recAddr r + 4) 4 = 0)
      ∧ (∀ b, (∀ r ∈ recs, Outside b (s.recAddr r + 4, 4)) → memGet t.mem b = memGet s.mem b)
      ∧ t.agents = (s.ended { status := some .ok, fwStatus := some a.status }).agents
      ∧ t = { s with
          cqTable := s.cqTable.set h.index.toNat { gen := h.gen + 1, occ := none }
          cqs := t.cqs, mem := t.mem, bus := t.bus, agents := t.agents, fw := rest
          dbRecUsed := s.dbRecUsed.filter fun r => decide (r ∉ recs), dbRecFree := s.dbRecFree + recs.length }

/-- `DESTROY_SRQ` of an SRQ that no QP names (R378, R345, R256): as `DESTROY_CQ`; a firmware failure is `MAILBOX_FAIL`, and the
SRQ is gone all the same. -/
def Obligations.DestroySrq : Prop :=
  ∀ (s : State) (h : Handle) (r : Nat) (y : Srq) (a : FwAnswer) (rest : List FwAnswer) (recs : List Nat),
    s.quietStart → s.me.op.srq = some h → s.names .srq h r → s.srq? r = some y → y.attach = 0 → s.fw = a :: rest →
    s.recsOf [y.dbRec] = recs → Memory.wf s.mem = true →
    RunsTo (exec .destroySrq s) fun t =>
      t.lookup .srq h = none ∧ t.srq? r = none ∧ (∀ d, d ≠ r → t.srq? d = s.srq? d)
      ∧ (∀ r ∈ recs, t.memRead (s.recAddr r + 4) 4 = 0)
      ∧ (∀ b, (∀ r ∈ recs, Outside b (s.recAddr r + 4, 4)) → memGet t.mem b = memGet s.mem b)
      ∧ t.agents = (s.ended { status := some (if a.status = 0 then .ok else .mailboxFail)
                              fwStatus := some a.status }).agents
      ∧ t = { s with
          srqTable := s.srqTable.set h.index.toNat { gen := h.gen + 1, occ := none }
          srqs := t.srqs, mem := t.mem, bus := t.bus, agents := t.agents, fw := rest
          dbRecUsed := s.dbRecUsed.filter fun r => decide (r ∉ recs), dbRecFree := s.dbRecFree + recs.length }

/-- The creates and destroys that fail for want of something (R403 a, d). A create whose number's entry is occupied ends with `BUSY`
(R344): no object, entry or count changes, and the doorbell records it took in `MEMFREE` are free again, with both words 0 (R256,
R292, R372); in `LEGACY` nothing changes at all. So does a destroy of a CQ or SRQ that a QP names (R349). A create with an operand
out of range ends with `OUT_OF_RANGE`, one for which too few doorbell records are free with `NO_RESOURCES` (R256), a `CREATE_QP` a
handle of which names nothing with `INVALID_HANDLE` (R170): nothing changes. A `CREATE_CQ` or `CREATE_SRQ` whose firmware call fails
ends with `MAILBOX_FAIL` (R292, R372): its object and its entry are gone, the entry's generation one higher, its doorbell records
free with both words 0, and of memory only the bytes it initialised have changed. That the buffer is tested before the records are
taken is notes/assumptions/32.md, what a QP with an SRQ takes of the receive operands notes/assumptions/16.md. The last three clauses
say when an operand is out of range (R292; R202, R371, R372; R202, R170): 1008 bytes are 63 units of 16. That the data part of the
largest send WQE has 16 bytes at least is notes/assumptions/38.md. -/
def Obligations.Busy : Prop :=
  (∀ (s : State) (op : Operands), s.quietStart → s.me.op = op →
    (∀ o recs, s.takesRecs 2 recs → Memory.wf s.mem = true → createCqBad op s = false → s.bufferOk (createCqBuf op s) = true →
      (s.entry .cq (s.indexOf .cq op.cqn)).occ = some o →
      RunsTo (exec .createCq s) (RecordsZeroed recs (s.ended { status := some .busy })))
    ∧ (∀ o recs, s.takesRecs 1 recs → Memory.wf s.mem = true → createSrqBad op s = false →
      s.bufferOk (createSrqBuf op s) = true → (s.entry .srq (s.indexOf .srq op.srqn)).occ = some o →
      RunsTo (exec .createSrq s) (RecordsZeroed recs (s.ended { status := some .busy })))
    ∧ (∀ o recs c1 c2, s.takesRecs 2 recs → Memory.wf s.mem = true → createQpBad op s = false →
      s.bufferOk (createQpBuf op s) = true → s.names .cq op.sendCq c1 → s.names .cq op.recvCq c2 →
      (∀ h, op.srq = some h → ∃ r, s.names .srq h r) → (s.entry .qp (s.indexOf .qp op.qpn)).occ = some o →
      RunsTo (exec .createQp s) (RecordsZeroed recs (s.ended { status := some .busy })))
    ∧ (s.mode = .legacy →
      (∀ o, createCqBad op s = false → s.bufferOk (createCqBuf op s) = true →
        (s.entry .cq (s.indexOf .cq op.cqn)).occ = some o → exec .createCq s = .next (s.ended { status := some .busy }))
      ∧ (∀ o c1 c2, createQpBad op s = false → s.bufferOk (createQpBuf op s) = true → s.names .cq op.sendCq c1 →
        s.names .cq op.recvCq c2 → (∀ h, op.srq = some h → ∃ r, s.names .srq h r) →
        (s.entry .qp (s.indexOf .qp op.qpn)).occ = some o → exec .createQp s = .next (s.ended { status := some .busy }))
      ∧ (∀ o, createSrqBad op s = false → s.bufferOk (createSrqBuf op s) = true →
        (s.entry .srq (s.indexOf .srq op.srqn)).occ = some o →
        exec .createSrq s = .next (s.ended { status := some .busy })))
    ∧ (∀ c y, s.names .cq op.cq c → s.cq? c = some y → y.attach ≠ 0 →
      exec .destroyCq s = .next (s.ended { status := some .busy }))
    ∧ (∀ h r y, op.srq = some h → s.names .srq h r → s.srq? r = some y → y.attach ≠ 0 →
      exec .destroySrq s = .next (s.ended { status := some .busy })))
  ∧ (∀ (s : State) (op : Operands), s.quietStart → s.me.op = op →
    (createCqBad op s = true → exec .createCq s = .next (s.ended { status := some .outOfRange }))
    ∧ (createSrqBad op s = true → exec .createSrq s = .next (s.ended { status := some .outOfRange }))
    ∧ (s.lookup .cq op.sendCq = none ∨ s.lookup .cq op.recvCq = none ∨ (∃ h, op.srq = some h ∧ s.lookup .srq h = none) →
      exec .createQp s = .next (s.ended { status := some .invalidHandle }))
    ∧ (s.mode = .memfree →
      (s.dbRecFree < 2 → createCqBad op s = false → s.bufferOk (createCqBuf op s) = true →
        exec .createCq s = .next (s.ended { status := some .noResources }))
      ∧ (s.dbRecFree < 1 → createSrqBad op s = false → s.bufferOk (createSrqBuf op s) = true →
        exec .createSrq s = .next (s.ended { status := some .noResources })))
    ∧ ∀ c1 c2, s.names .cq op.sendCq c1 → s.names .cq op.recvCq c2 → (∀ h, op.srq = some h → ∃ r, s.names .srq h r) →
      (createQpBad op s = true → exec .createQp s = .next (s.ended { status := some .outOfRange }))
      ∧ (s.mode = .memfree → s.dbRecFree < 2 → createQpBad op s = false → s.bufferOk (createQpBuf op s) = true →
        exec .createQp s = .next (s.ended { status := some .noResources })))
  ∧ (∀ (s : State) (op : Operands) (recs : List Nat) (a : FwAnswer) (rest : List FwAnswer), s.quietStart → s.me.op = op →
    s.fw = a :: rest → a.status ≠ 0 → Memory.wf s.mem = true →
    (∀ cap, cqCapacity op.cqDepth.toNat = cap → createCqBad op s = false → s.bufferOk (createCqBuf op s) = true →
      s.canInsert .cq op.cqn → s.takesRecs 2 recs →
      (∀ r ∈ recs, s.recAddr r + 8 ≤ op.bufBase.toNat ∨ op.bufBase.toNat + 32 * cap ≤ s.recAddr r) →
      RunsTo (exec .createCq s) fun t =>
        t.lookup .cq (s.freshHandle .cq op.cqn) = none ∧ t.cq? s.nextObj = none
        ∧ (∀ c, c ≠ s.nextObj → t.cq? c = s.cq? c)
        ∧ (∀ r ∈ recs, t.memRead (s.recAddr r) 4 = 0 ∧ t.memRead (s.recAddr r + 4) 4 = 0)
        ∧ (∀ b, (∀ j, j < cap → b ≠ op.bufBase.toNat + 32 * j + 0x1F) → (∀ r ∈ recs, Outside b (s.recAddr r, 8)) →
            memGet t.mem b = memGet s.mem b)
        ∧ t.agents = (s.ended { status := some .mailboxFail, fwStatus := some a.status }).agents
        ∧ t = { s with
            cqTable := s.cqTable.set (s.indexOf .cq op.cqn)
              { gen := (s.entry .cq (s.indexOf .cq op.cqn)).gen + 1, occ := none }
            cqs := t.cqs, nextObj := s.nextObj + 1, mem := t.mem, bus := t.bus, fw := rest, agents := t.agents })
    ∧ (∀ cap sh, ringCapacity s.mode op.srqDepth.toNat = cap → slotShift s.cfg (16 + 16 * op.maxGs.toNat) = sh →
      createSrqBad op s = false → s.bufferOk (createSrqBuf op s) = true → s.canInsert .srq op.srqn → s.takesRecs 1 recs →
      (∀ r ∈ recs, s.recAddr r + 8 ≤ op.bufBase.toNat ∨ op.bufBase.toNat + cap * 2 ^ sh ≤ s.recAddr r) →
      RunsTo (exec .createSrq s) fun t =>
        t.lookup .srq (s.freshHandle .srq op.srqn) = none ∧ t.srq? s.nextObj = none
        ∧ (∀ r, r ≠ s.nextObj → t.srq? r = s.srq? r)
        ∧ (∀ r ∈ recs, t.memRead (s.recAddr r) 4 = 0 ∧ t.memRead (s.recAddr r + 4) 4 = 0)
        ∧ (∀ b, Outside b (op.bufBase.toNat, cap * 2 ^ sh) → (∀ r ∈ recs, Outside b (s.recAddr r, 8)) →
            memGet t.mem b = memGet s.mem b)
        ∧ t.agents = (s.ended { status := some .mailboxFail, fwStatus := some a.status }).agents
        ∧ t = { s with
            srqTable := s.srqTable.set (s.indexOf .srq op.srqn)
              { gen := (s.entry .srq (s.indexOf .srq op.srqn)).gen + 1, occ := none }
            srqs := t.srqs, nextObj := s.nextObj + 1, mem := t.mem, bus := t.bus, fw := rest, agents := t.agents }))
  ∧ (∀ (s : State) (op : Operands), createCqBad op s = true ↔
      s.cfg.maxCqes < cqCapacity op.cqDepth.toNat ∨ op.bufBase.toNat % 32 ≠ 0)
  ∧ (∀ (s : State) (op : Operands) (bytes sh : Nat), 16 + 16 * op.maxGs.toNat = bytes → slotShift s.cfg bytes = sh →
      (createSrqBad op s = true ↔ s.cfg.maxSrqWqes < op.srqDepth.toNat ∨ s.cfg.maxSrqSge < op.maxGs.toNat ∨ 1008 < bytes
        ∨ op.bufBase.toNat % 2 ^ sh ≠ 0))
  ∧ ∀ (s : State) (op : Operands) (rd rg sb rb : Nat), (if op.srq.isSome then 0 else op.rqDepth.toNat) = rd →
      (if op.srq.isSome then 0 else op.rqMaxGs.toNat) = rg →
      16 + transportBytes op.transport + max (16 * op.sqMaxGs.toNat) (alignUp (4 + op.maxInline.toNat) 16) = sb → 16 + 16 * rg = rb →
      (createQpBad op s = true ↔ s.cfg.maxWqes < op.sqDepth.toNat ∨ s.cfg.maxWqes < rd ∨ s.cfg.maxSge < op.sqMaxGs.toNat
        ∨ s.cfg.maxSge < rg ∨ s.cfg.maxInline < op.maxInline.toNat ∨ 1008 < sb ∨ 1008 < rb
        ∨ op.bufBase.toNat % 2 ^ max (slotShift s.cfg sb) (slotShift s.cfg rb) ≠ 0)

/-! ### Posts -/

/-- A post with an empty list is `OK` with `bad_index` 0, rings no doorbell and changes nothing (R230, R232, R374). -/
def Obligations.PostEmpty : Prop :=
  ∀ (s : State) (op : Operands), s.quietStart → s.me.op = op →
    (∀ q x, op.sendWrs = [] → s.names .qp op.qp q → s.qp? q = some x → postStateOk s.cfg x.state true = true →
      exec .postSend s = .next (s.ended { status := some .ok, badIndex := some 0 }))
    ∧ (∀ q x, op.recvWrs = [] → s.names .qp op.qp q → s.qp? q = some x → postStateOk s.cfg x.state false = true →
      exec .postRecv s = .next (s.ended { status := some .ok, badIndex := some 0 }))
    ∧ (∀ h r, op.recvWrs = [] → op.srq = some h → s.names .srq h r →
      exec .postSrqRecv s = .next (s.ended { status := some .ok, badIndex := some 0 }))

/-- The post of one send request, by `POST_SEND` with a list of one or by one of the rows `WR_RDMA_WRITE`, `WR_RDMA_WRITE_IMM`,
`WR_SEND`, `WR_SEND_IMM`, `WR_RDMA_READ`, `WR_ATOMIC_CS`, `WR_ATOMIC_FA` (R230, R217 to R222, R252, R254): the WQE stands in
the slot `next_ind`, the chain tail's header links to it, the ring has moved on by one, one doorbell is the last write on the
bus, in `MEMFREE` the doorbell record holds the new `head`; every other byte of memory reads as before. That the
rows are run by themselves, as posts of one request, is the model's convention (notes/assumptions/11.md). The model's own counts of
the ring say that the device may read the new WQE, and its opcode (notes/assumptions/21.md). -/
def Obligations.PostSendOne : Prop :=
  ∀ (i : Instr) (s : State) (op : Operands) (wr : SendWr) (q : Nat) (x : Qp) (ind prev a p size : Nat) (code : BitVec 6)
    (fs : List (Nat × Nat)) (bell : Instr),
    s.quietStart → s.me.op = op → postsOne i op wr → s.names .qp op.qp q → s.qp? q = some x →
    postStateOk s.cfg x.state true = true → x.sq.count < x.sq.capacity → opcodeLegal x.transport wr.opcode = true →
    (isInline wr = false → wr.sg.length ≤ x.sq.maxGs) →
    (isInline wr = true → inlineLen wr.sg ≤ x.maxInline.toNat ∧ inlineOwned wr s = true) →
    x.sq.nextInd = ind → x.sq.lastIdx = prev → x.slotAddr true ind = a → x.slotAddr true prev = p →
    sendSize s.mode x wr = size → 16 * size ≤ 2 ^ x.sq.shift → wqeOpcode wr.opcode = code →
    transportFields s.mode x wr = fs → Memory.wf s.mem = true →
    (∀ r ∈ s.recsOf [x.sqDbRec], ∀ b, Outside b (s.recAddr r, 4) ∨ (Outside b (a, 16 * size) ∧ Outside b (p, 8))) →
    bell = (match s.mode with
      | .legacy => .dbLegacySend (BitVec.ofNat 26 (x.woff true ind / 64)) wr.fence (code.setWidth 5) x.qpn (BitVec.ofNat 8 size)
      | .memfree => .dbMemfreeSend 1 (x.sq.head.setWidth 16) wr.fence (code.setWidth 5) x.qpn (BitVec.ofNat 8 size)) →
    RunsTo (exec i s) fun t =>
      (ind ≠ prev → memGetBytes t.mem a 8 = layout [(4, 0), (4, 0)])
      ∧ (isInline wr = false → memGetBytes t.mem (a + 8) (16 * size - 8) =
          layout ((4, (sendFlags x wr).toNat) :: (4, (sendImm wr).toNat) :: fs ++ dataFields wr.sg))
      ∧ (isInline wr = true → (∀ e ∈ wr.sg, ∀ k, k < e.length.toNat → Outside (e.addr.toNat + k) (a, 16 * size)) →
          memGetBytes t.mem (a + 8) (8 + fieldBytes fs + 4 + inlineLen wr.sg) =
            layout ((4, (sendFlags x wr).toNat) :: (4, (sendImm wr).toNat) :: fs ++ [(4, (inlineWord wr.sg).toNat)])
              ++ inlineBytes s.mem wr.sg)
      ∧ t.memRead p 4 = (linkWord (BitVec.ofNat 26 (x.woff true ind / 64)) code).toNat
      ∧ t.memRead (p + 4) 4 = (eeNds true wr.fence size).toNat
      ∧ (∀ r ∈ s.recsOf [x.sqDbRec], t.memRead (s.recAddr r) 4 = (x.sq.head + 1).toNat % 65536)
      ∧ (∀ b, Outside b (a, 16 * size) → Outside b (p, 8) → (∀ r ∈ s.recsOf [x.sqDbRec], Outside b (s.recAddr r, 4)) →
          memGet t.mem b = memGet s.mem b)
      ∧ (∃ l, t.bus = .commandEnd s.cur :: .mmio s.cur s.cfg.sendDbOff (doorbellWords bell).1 (doorbellWords bell).2
          :: .wmb s.cur :: l)
      ∧ t.agents = (s.ended { status := some .ok, badIndex := some 1 }).agents
      ∧ t = { s with
          qps := assocSet s.qps q { x with
            sq := { x.sq with
              wrid := x.sq.wrid.set ind (some wr.wrId), head := x.sq.head + 1, lastIdx := ind
              nextInd := (ind + 1) % x.sq.capacity, live := x.sq.live + 1
              first := (x.sq.cover (coveredFrom s.mode (x.sq.live + 1))).first
              ops := x.sq.ops.set ind code } }
          mem := t.mem, bus := t.bus, agents := t.agents }

/-- The post of a list of send requests by `POST_SEND` (R222, R230, R252, R254, R403 c): the first `good` of them pass their checks
and fit in the ring, and the list ends there or the next one fails, so that `bad_index` is their number. Each of them is
committed: its WQE stands in its slot, with inline data where it is inline and the data are not in the QP's own buffer or record,
the header of the chain tail before it links to it, with `dbd` clear in `LEGACY` on all but the first of a batch; the ring holds
their ids; a doorbell is rung for every `N` of them, the batch limit, and one for those left
over; in `MEMFREE` the record holds the new `head`; every byte outside the slots, the first chain tail's header and the record
reads as before. Where a list fills every slot, the last WQE stands where the first chain tail was. `Ring.Wf` and `lastIdx` say
what holds of a ring between commands (R31, R206, R211); `x.sent s.mode` is the QP after some of the requests, with the model's own counts
of the ring (notes/assumptions/21.md). -/
def Obligations.PostSendList : Prop :=
  ∀ (s : State) (op : Operands) (q cap N : Nat) (x : Qp) (good left : List SendWr) (st : Status),
    s.quietStart → s.me.op = op → op.sendWrs = good ++ left → s.names .qp op.qp q → s.qp? q = some x →
    postStateOk s.cfg x.state true = true → x.sq.Wf → x.sq.capacity = cap → cap < 2 ^ 32 →
    x.sq.lastIdx = (x.sq.nextInd + cap - 1) % cap → x.sq.count + good.length ≤ cap →
    (∀ j wr, good[j]? = some wr → s.sendPasses x wr ∧ 16 * sendSize s.mode (x.sent s.mode (good.take j)) wr ≤ 2 ^ x.sq.shift) →
    s.sendEnds x good.length left st →
    s.batchLimit (.sq q) = N → 0 < N → Memory.wf s.mem = true →
    (∀ r ∈ s.recsOf [x.sqDbRec], ∀ b, Outside b (s.recAddr r, 4) ∨ Outside b x.buffer) →
    RunsTo (exec .postSend s) fun t =>
      (∀ j wr, good[j]? = some wr → 0 < j ∨ good.length < cap →
        t.memRead (x.slotAddr true (x.sq.tailOf j)) 4
          = (linkWord (BitVec.ofNat 26 (x.woff true (x.sq.slotOf j) / 64)) (wqeOpcode wr.opcode)).toNat
        ∧ t.memRead (x.slotAddr true (x.sq.tailOf j) + 4) 4
          = (eeNds (decide (s.mode = .memfree ∨ j % N = 0)) wr.fence (sendSize s.mode (x.sent s.mode (good.take j)) wr)).toNat)
      ∧ (∀ j wr, good[j]? = some wr → isInline wr = false →
        memGetBytes t.mem (x.slotAddr true (x.sq.slotOf j) + 8) (16 * sendSize s.mode (x.sent s.mode (good.take j)) wr - 8)
          = layout ((4, (sendFlags x wr).toNat) :: (4, (sendImm wr).toNat)
              :: transportFields s.mode (x.sent s.mode (good.take j)) wr ++ dataFields wr.sg))
      ∧ (∀ j wr fs, good[j]? = some wr → isInline wr = true → transportFields s.mode (x.sent s.mode (good.take j)) wr = fs →
        (∀ e ∈ wr.sg, ∀ k, k < e.length.toNat → Outside (e.addr.toNat + k) x.buffer
          ∧ ∀ r ∈ s.recsOf [x.sqDbRec], Outside (e.addr.toNat + k) (s.recAddr r, 4)) →
        memGetBytes t.mem (x.slotAddr true (x.sq.slotOf j) + 8) (8 + fieldBytes fs + 4 + inlineLen wr.sg) =
          layout ((4, (sendFlags x wr).toNat) :: (4, (sendImm wr).toNat) :: fs ++ [(4, (inlineWord wr.sg).toNat)])
            ++ inlineBytes s.mem wr.sg)
      ∧ t.doorbells = (((sendBells s.mode x N good).map fun i =>
          (s.cfg.sendDbOff, (doorbellWords i).1, (doorbellWords i).2)).reverse) ++ s.doorbells
      ∧ (good ≠ [] → ∀ r ∈ s.recsOf [x.sqDbRec],
          t.memRead (s.recAddr r) 4 = (x.sq.head + BitVec.ofNat 32 good.length).toNat % 65536)
      ∧ (∀ b, (∀ j wr, good[j]? = some wr → 
              Outside b (x.slotAddr true (x.sq.slotOf j), 16 * sendSize s.mode (x.sent s.mode (good.take j)) wr)
            ∧ Outside b (x.slotAddr true (x.sq.tailOf j), 8)) →
          (∀ r ∈ s.recsOf [x.sqDbRec], Outside b (s.recAddr r, 4)) → memGet t.mem b = memGet s.mem b)
      ∧ t.agents = (s.ended { status := some st, badIndex := some (BitVec.ofNat 32 good.length) }).agents
      ∧ t = { s with
          qps := assocSet s.qps q (x.sent s.mode good)
          mem := t.mem, bus := t.bus, agents := t.agents }

/-- The posts of receive requests on a QP (R232, R217, R219, R222, R253, R255). Of one request: as for a send, on the receive ring; in
`LEGACY` one doorbell is the last write on the bus; in `MEMFREE` the doorbell record holds the new `head`, and no doorbell is rung.
Of a list: the first `good` requests pass their checks and fit in the ring, and the list ends there or the next one fails, so that
`bad_index` is their number (R403 c); each of them is committed, its WQE in its slot and linked from the one before; in `LEGACY` a
doorbell is rung for every `N` of them, the batch limit, and one for those left over, with their number modulo 256 in its last byte;
in `MEMFREE` the record holds the new `head`; every byte outside the slots, the first chain tail's header and the record reads as
before. `Ring.Wf` and `lastIdx` say what holds of a ring between commands. The model's own counts of the ring are
notes/assumptions/21.md. -/
def Obligations.PostRecvOne : Prop :=
  (∀ (s : State) (op : Operands) (wr : RecvWr) (q : Nat) (x : Qp) (ind prev a p size : Nat),
    s.quietStart → s.me.op = op → op.recvWrs = [wr] → s.names .qp op.qp q → s.qp? q = some x →
    postStateOk s.cfg x.state false = true → x.rq.count < x.rq.capacity → wr.sg.length ≤ x.rq.maxGs →
    x.rq.nextInd = ind → x.rq.lastIdx = prev → x.slotAddr false ind = a → x.slotAddr false prev = p →
    recvSize s.mode wr.sg.length x.rq.maxGs = size → 16 * size ≤ 2 ^ x.rq.shift → Memory.wf s.mem = true →
    (∀ r ∈ s.recsOf [x.rqDbRec], ∀ b, Outside b (s.recAddr r, 4) ∨ (Outside b (a, 16 * size) ∧ Outside b (p, 8))) →
    RunsTo (exec .postRecv s) fun t =>
      (ind ≠ prev → memGetBytes t.mem a 8 = layout [(4, 0), (4, 0)])
      ∧ memGetBytes t.mem (a + 8) (16 * size - 8) =
          layout ([(4, 0), (4, 0)] ++ dataFields wr.sg ++ terminatorFields s.mode wr.sg.length x.rq.maxGs)
      ∧ t.memRead p 4 = (x.woff false ind / 64 % 2 ^ 26) * 64 + 1
      ∧ t.memRead (p + 4) 4 = (eeNds true false size).toNat
      ∧ (∀ r ∈ s.recsOf [x.rqDbRec], t.memRead (s.recAddr r) 4 = (x.rq.head + 1).toNat % 65536)
      ∧ (∀ b, Outside b (a, 16 * size) → Outside b (p, 8) → (∀ r ∈ s.recsOf [x.rqDbRec], Outside b (s.recAddr r, 4)) →
          memGet t.mem b = memGet s.mem b)
      ∧ (s.mode = .legacy → ∃ l, t.bus = .commandEnd s.cur
          :: .mmio s.cur s.cfg.recvDbOff
            (doorbellWords (.dbLegacyRecv (BitVec.ofNat 26 (x.woff false ind / 64)) (BitVec.ofNat 6 size) x.qpn 1)).1
            (doorbellWords (.dbLegacyRecv (BitVec.ofNat 26 (x.woff false ind / 64)) (BitVec.ofNat 6 size) x.qpn 1)).2
          :: .wmb s.cur :: l)
      ∧ (s.mode = .memfree → ∃ l, t.bus = l ++ s.bus ∧ ∀ off w0 w1, .mmio s.cur off w0 w1 ∉ l)
      ∧ t.agents = (s.ended { status := some .ok, badIndex := some 1 }).agents
      ∧ t = { s with
          qps := assocSet s.qps q { x with
            rq := { x.rq with
              wrid := x.rq.wrid.set ind (some wr.wrId), head := x.rq.head + 1, lastIdx := ind
              nextInd := (ind + 1) % x.rq.capacity, live := x.rq.live + 1
              first := (x.rq.cover (coveredFrom s.mode (x.rq.live + 1))).first
              ops := x.rq.ops.set ind recvLinkOpcode } }
          mem := t.mem, bus := t.bus, agents := t.agents })
  ∧ ∀ (s : State) (op : Operands) (q cap N : Nat) (x : Qp) (good left : List RecvWr) (st : Status),
    s.quietStart → s.me.op = op → op.recvWrs = good ++ left → s.names .qp op.qp q → s.qp? q = some x →
    postStateOk s.cfg x.state false = true → x.rq.Wf → x.rq.capacity = cap → cap < 2 ^ 32 →
    x.rq.lastIdx = (x.rq.nextInd + cap - 1) % cap → x.rq.count + good.length ≤ cap →
    (∀ wr ∈ good, wr.sg.length ≤ x.rq.maxGs ∧ 16 * recvSize s.mode wr.sg.length x.rq.maxGs ≤ 2 ^ x.rq.shift) →
    s.recvEnds x good.length left st → s.batchLimit (.rq q) = N → 0 < N → Memory.wf s.mem = true →
    (∀ r ∈ s.recsOf [x.rqDbRec], ∀ b, Outside b (s.recAddr r, 4) ∨ Outside b (x.bufBase.toNat, cap * 2 ^ x.rq.shift)) →
    RunsTo (exec .postRecv s) fun t =>
      (∀ j wr, good[j]? = some wr → 0 < j ∨ good.length < cap →
        t.memRead (x.slotAddr false (x.rq.tailOf j)) 4 = (x.woff false (x.rq.slotOf j) / 64 % 2 ^ 26) * 64 + 1
        ∧ t.memRead (x.slotAddr false (x.rq.tailOf j) + 4) 4
          = (eeNds true false (recvSize s.mode wr.sg.length x.rq.maxGs)).toNat)
      ∧ (∀ j wr, good[j]? = some wr →
        memGetBytes t.mem (x.slotAddr false (x.rq.slotOf j) + 8) (16 * recvSize s.mode wr.sg.length x.rq.maxGs - 8)
          = layout ([(4, 0), (4, 0)] ++ dataFields wr.sg ++ terminatorFields s.mode wr.sg.length x.rq.maxGs))
      ∧ t.doorbells = ((recvBells s.mode x N good).map (s.bell .recv)).reverse ++ s.doorbells
      ∧ (good ≠ [] → ∀ r ∈ s.recsOf [x.rqDbRec],
          t.memRead (s.recAddr r) 4 = (x.rq.head + BitVec.ofNat 32 good.length).toNat % 65536)
      ∧ (∀ b, (∀ j wr, good[j]? = some wr →
              Outside b (x.slotAddr false (x.rq.slotOf j), 16 * recvSize s.mode wr.sg.length x.rq.maxGs)
            ∧ Outside b (x.slotAddr false (x.rq.tailOf j), 8)) →
          (∀ r ∈ s.recsOf [x.rqDbRec], Outside b (s.recAddr r, 4)) → memGet t.mem b = memGet s.mem b)
      ∧ t.agents = (s.ended { status := some st, badIndex := some (BitVec.ofNat 32 good.length) }).agents
      ∧ t = { s with
          qps := assocSet s.qps q (x.received s.mode good)
          mem := t.mem, bus := t.bus, agents := t.agents }

/-- The posts of receive requests on an SRQ (R374, R258). Of one request: as on a QP; the slot is the head of the free list, which
moves to the next slot, and in `MEMFREE` the doorbell record holds the new `counter`. Of a list: as on a QP, each request in the next
slot of the free list; in `LEGACY` the doorbells name no size, and `bad_index` is the number of the requests that are committed
(R403 c). A link stands where its header's slot is not among those the list goes on with, as the slot of the first chain tail may be. `Srq.Wf`
says what holds of the free list between commands. The model's own fields `live`, `first` and `queue` note which WQEs the device may
read and the order of their posts (notes/assumptions/21.md). -/
def Obligations.PostSrqRecvOne : Prop :=
  (∀ (s : State) (op : Operands) (h : Handle) (wr : RecvWr) (r : Nat) (y : Srq) (ind prev a p size : Nat) (next : Option Nat),
    s.quietStart → s.me.op = op → op.recvWrs = [wr] → op.srq = some h → s.names .srq h r → s.srq? r = some y →
    y.freeHead = some ind → y.link.getD ind none = next → wr.sg.length ≤ y.maxGs →
    y.lastIdx = prev → y.slotAddr ind = a → y.slotAddr prev = p →
    recvSize s.mode wr.sg.length y.maxGs = size → 16 * size ≤ 2 ^ y.shift → Memory.wf s.mem = true →
    (∀ r ∈ s.recsOf [y.dbRec], ∀ b, Outside b (s.recAddr r, 4) ∨ (Outside b (a, 16 * size) ∧ Outside b (p, 8))) →
    RunsTo (exec .postSrqRecv s) fun t =>
      (ind ≠ prev → memGetBytes t.mem a 8 = layout [(4, 0), (4, 0)])
      ∧ memGetBytes t.mem (a + 8) (16 * size - 8) =
          layout ([(4, 0), (4, 0)] ++ dataFields wr.sg ++ terminatorFields s.mode wr.sg.length y.maxGs)
      ∧ t.memRead p 4 = (y.woff ind / 64 % 2 ^ 26) * 64 + 1
      ∧ t.memRead (p + 4) 4 = (eeNds true false size).toNat
      ∧ (∀ r ∈ s.recsOf [y.dbRec], t.memRead (s.recAddr r) 4 = (y.counter + 1).toNat)
      ∧ (∀ b, Outside b (a, 16 * size) → Outside b (p, 8) → (∀ r ∈ s.recsOf [y.dbRec], Outside b (s.recAddr r, 4)) →
          memGet t.mem b = memGet s.mem b)
      ∧ (s.mode = .legacy → ∃ l, t.bus = .commandEnd s.cur
          :: .mmio s.cur s.cfg.recvDbOff (doorbellWords (.dbLegacySrq (BitVec.ofNat 26 (y.woff ind / 64)) y.srqn 1)).1
            (doorbellWords (.dbLegacySrq (BitVec.ofNat 26 (y.woff ind / 64)) y.srqn 1)).2
          :: .wmb s.cur :: l)
      ∧ (s.mode = .memfree → ∃ l, t.bus = l ++ s.bus ∧ ∀ off w0 w1, .mmio s.cur off w0 w1 ∉ l)
      ∧ t.agents = (s.ended { status := some .ok, badIndex := some 1 }).agents
      ∧ t = { s with
          srqs := assocSet s.srqs r { y with
            freeHead := next, freeTail := if next = none then none else y.freeTail, link := y.link.set ind none
            wrid := y.wrid.set ind (some wr.wrId), posted := y.posted.set ind true, lastIdx := ind
            outstanding := y.outstanding + 1, live := y.live + 1
            first := (y.cover (coveredFrom s.mode (y.live + 1))).first
            queue := y.queue ++ [(ind, y.live + 1)]
            counter := if s.mode = .memfree then y.counter + 1 else y.counter }
          mem := t.mem, bus := t.bus, agents := t.agents })
  ∧ ∀ (s : State) (op : Operands) (h : Handle) (r N : Nat) (y : Srq) (good left : List RecvWr) (st : Status),
    s.quietStart → s.me.op = op → op.recvWrs = good ++ left → op.srq = some h → s.names .srq h r → s.srq? r = some y →
    y.Wf → y.lastIdx < y.capacity → good.length ≤ y.freeList.length →
    (∀ wr ∈ good, wr.sg.length ≤ y.maxGs ∧ 16 * recvSize s.mode wr.sg.length y.maxGs ≤ 2 ^ y.shift) →
    y.postEnds good.length left st → s.batchLimit (.srq r) = N → 0 < N → Memory.wf s.mem = true →
    (∀ r ∈ s.recsOf [y.dbRec], ∀ b, Outside b (s.recAddr r, 4) ∨ Outside b y.buffer) →
    RunsTo (exec .postSrqRecv s) fun t =>
      (∀ (j : Nat) (wr : RecvWr) (ind prev : Nat), good[j]? = some wr → y.freeList[j]? = some ind →
        (y.lastIdx :: y.freeList)[j]? = some prev →
        j + 1 = good.length ∨ (∀ k, j ≤ k → k < good.length → y.freeList[k]? ≠ some prev) →
        t.memRead (y.slotAddr prev) 4 = (y.woff ind / 64 % 2 ^ 26) * 64 + 1
        ∧ t.memRead (y.slotAddr prev + 4) 4 = (eeNds true false (recvSize s.mode wr.sg.length y.maxGs)).toNat)
      ∧ (∀ (j : Nat) (wr : RecvWr) (ind : Nat), good[j]? = some wr → y.freeList[j]? = some ind →
        memGetBytes t.mem (y.slotAddr ind + 8) (16 * recvSize s.mode wr.sg.length y.maxGs - 8)
          = layout ([(4, 0), (4, 0)] ++ dataFields wr.sg ++ terminatorFields s.mode wr.sg.length y.maxGs))
      ∧ t.doorbells = ((srqBells s.mode y N good.length).map (s.bell .recv)).reverse ++ s.doorbells
      ∧ (good ≠ [] → ∀ r ∈ s.recsOf [y.dbRec],
          t.memRead (s.recAddr r) 4 = (y.counter + BitVec.ofNat 16 good.length).toNat)
      ∧ (∀ b, (∀ (j : Nat) (wr : RecvWr) (ind : Nat), good[j]? = some wr → y.freeList[j]? = some ind →
              Outside b (y.slotAddr ind, 16 * recvSize s.mode wr.sg.length y.maxGs)) →
          Outside b (y.slotAddr y.lastIdx, 8) →
          (∀ r ∈ s.recsOf [y.dbRec], Outside b (s.recAddr r, 4)) → memGet t.mem b = memGet s.mem b)
      ∧ t.agents = (s.ended { status := some st, badIndex := some (BitVec.ofNat 32 good.length) }).agents
      ∧ t = { s with
          srqs := assocSet s.srqs r (y.filled s.mode (good.map (·.wrId)))
          mem := t.mem, bus := t.bus, agents := t.agents }

/-- The checks of a request in their order, at the first request of a list (R210, R212 to R216, R374): the command ends with the
status of the check and `bad_index` 0, and nothing changes. Opcode 7 is `INVALID_OPCODE` on every transport (R213); that the row
`WR_RESERVED_7` is run by itself, as a post of one such request, is the model's convention (notes/assumptions/11.md). -/
def Obligations.PostRejected : Prop :=
  ∀ (s : State) (op : Operands), s.quietStart → s.me.op = op →
    (∀ q x, s.names .qp op.qp q → s.qp? q = some x →
      (∀ i, i = .postSend ∨ i = .wrReserved7 → postStateOk s.cfg x.state true = false →
        exec i s = .next (s.ended { status := some .invalidQpState, badIndex := some 0 }))
      ∧ (postStateOk s.cfg x.state false = false →
        exec .postRecv s = .next (s.ended { status := some .invalidQpState, badIndex := some 0 }))
      ∧ (∀ wr wrs, op.sendWrs = wr :: wrs → postStateOk s.cfg x.state true = true →
        (∀ c, x.sq.capacity ≤ x.sq.count → s.names .cq x.sendCq c →
          exec .postSend s = .next (s.ended { status := some .queueFull, badIndex := some 0 }))
        ∧ (x.sq.count < x.sq.capacity →
          (opcodeLegal x.transport wr.opcode = false →
            exec .postSend s = .next (s.ended { status := some .invalidOpcode, badIndex := some 0 }))
          ∧ (opcodeLegal x.transport wr.opcode = true → isInline wr = false → x.sq.maxGs < wr.sg.length →
            exec .postSend s = .next (s.ended { status := some .tooManySge, badIndex := some 0 }))
          ∧ (opcodeLegal x.transport wr.opcode = true → isInline wr = true → x.maxInline.toNat < inlineLen wr.sg →
            exec .postSend s = .next (s.ended { status := some .inlineTooLong, badIndex := some 0 }))))
      ∧ (∀ c, postStateOk s.cfg x.state true = true → x.sq.capacity ≤ x.sq.count → s.names .cq x.sendCq c →
        exec .wrReserved7 s = .next (s.ended { status := some .queueFull, badIndex := some 0 }))
      ∧ (postStateOk s.cfg x.state true = true → x.sq.count < x.sq.capacity →
        exec .wrReserved7 s = .next (s.ended { status := some .invalidOpcode, badIndex := some 0 }))
      ∧ (∀ wr wrs, op.recvWrs = wr :: wrs → postStateOk s.cfg x.state false = true →
        (∀ c, x.rq.capacity ≤ x.rq.count → s.names .cq x.recvCq c →
          exec .postRecv s = .next (s.ended { status := some .queueFull, badIndex := some 0 }))
        ∧ (x.rq.count < x.rq.capacity → x.rq.maxGs < wr.sg.length →
          exec .postRecv s = .next (s.ended { status := some .tooManySge, badIndex := some 0 }))))
    ∧ (∀ h r y wr wrs, op.srq = some h → s.names .srq h r → s.srq? r = some y → op.recvWrs = wr :: wrs →
      (y.freeHead = none → exec .postSrqRecv s = .next (s.ended { status := some .queueFull, badIndex := some 0 }))
      ∧ (y.freeHead ≠ none → y.maxGs < wr.sg.length →
        exec .postSrqRecv s = .next (s.ended { status := some .tooManySge, badIndex := some 0 })))

/-! ### WQE link words -/

/-- The rows of the WQE opcodes (R112, R118, R222). A send row writes its link word, `(nda << 6) | opcode` in 4 bytes, into the
header of the send ring's chain tail; the receive link row writes `(nda << 6) | 1` into that of the SRQ the operands name, or
without one of the QP's receive ring; `NOP` is never emitted and writes nothing. Nothing else changes. That such a row is run by
itself is the model's convention (notes/assumptions/12.md). -/
def Obligations.LinkRows : Prop :=
  ∀ (s : State) (nda : BitVec 26), s.quietStart → Memory.wf s.mem = true →
    (∀ q x p, s.names .qp s.me.op.qp q → s.qp? q = some x → postStateOk s.cfg x.state true = true → 0 < x.sq.capacity →
      x.slotAddr true x.sq.lastIdx = p →
      ∀ e ∈ [(Instr.wqeOpRdmaWrite nda, 0x08), (.wqeOpRdmaWriteImm nda, 0x09), (.wqeOpSend nda, 0x0A),
          (.wqeOpSendImm nda, 0x0B), (.wqeOpRdmaRead nda, 0x10), (.wqeOpAtomicCs nda, 0x11), (.wqeOpAtomicFa nda, 0x12)],
        RunsTo (exec e.1 s) fun t =>
          t.memRead p 4 = nda.toNat * 64 + e.2 ∧ SameMemOutside s t p 4
          ∧ t = (s.memWrite p 4 (nda.toNat * 64 + e.2)).ended { status := some .ok })
    ∧ (∀ q x p, s.me.op.srq = none → s.names .qp s.me.op.qp q → s.qp? q = some x → postStateOk s.cfg x.state false = true →
      0 < x.rq.capacity → x.slotAddr false x.rq.lastIdx = p →
      RunsTo (exec (.wqeOpRecvLink nda) s) fun t =>
        t.memRead p 4 = nda.toNat * 64 + 1 ∧ SameMemOutside s t p 4
        ∧ t = (s.memWrite p 4 (nda.toNat * 64 + 1)).ended { status := some .ok })
    ∧ (∀ h r y p, s.me.op.srq = some h → s.names .srq h r → s.srq? r = some y → y.slotAddr y.lastIdx = p →
      RunsTo (exec (.wqeOpRecvLink nda) s) fun t =>
        t.memRead p 4 = nda.toNat * 64 + 1 ∧ SameMemOutside s t p 4
        ∧ t = (s.memWrite p 4 (nda.toNat * 64 + 1)).ended { status := some .ok })
    ∧ exec (.wqeOpNop nda) s = .next (s.ended { status := some .ok })

/-! ### Completion queues -/

/-- A poll of an empty CQ is `OK` with no record, rings no doorbell and changes nothing; so is a poll for no entry, and, but for
a read barrier, the row of a CQE kind where the CQE is of another kind (R300; notes/assumptions/13.md). -/
def Obligations.PollEmpty : Prop :=
  ∀ (i : Instr) (s : State) (c : Nat) (y : Cq), s.idle → s.started = true → s.names .cq s.me.op.cq c → s.cq? c = some y →
    ((i = .pollCq ∨ cqeRow i = true) → s.cqeHwOwned y.headAddr = true →
      exec i s = .next (s.ended { status := some .ok, n := some 0, decodeErrors := some 0 }))
    ∧ (s.me.op.maxEntries = 0 →
      exec .pollCq s = .next (s.ended { status := some .ok, n := some 0, decodeErrors := some 0 }))
    ∧ (cqeRow i = true → s.cqeHwOwned y.headAddr = false → s.cqeMatches i y.headAddr = false →
      exec i s = .next (s.rmb.ended { status := some .ok, n := some 0, decodeErrors := some 0 }))

/-- Polls (R300, R301, R303 to R308, R260, R261). A poll of one CQE of a QP's own ring, by `POLL_CQ` for one entry or by one of the
rows `CQE_ERROR`, `CQE_SEND_08` to `CQE_SEND_18`, `CQE_SEND_OTHER`, `CQE_RECV_03` to `CQE_RECV_0B`, `CQE_RECV_OTHER` of its kind,
whose run by itself is the model's choice (notes/assumptions/13.md): the record reports the slot's work-request id, the ring's tail
moves on, the CQE slot goes back to the hardware and the consumer index is published; every byte but the owner byte and the index's
record reads as before. A `POLL_CQ` of several entries: the CQEs that wait are taken one after another until there are `max_entries`
records or the next slot is the hardware's, each as R301 decides it; the consumer index is published once, for the slots that went
back to the hardware, which a kept error CQE and no other is not among. The loop makes no more iterations than its entries and the
CQ's slots (notes/assumptions/17.md). -/
def Obligations.PollOne : Prop :=
  (∀ (i : Instr) (s : State) (c q a idx : Nat) (y : Cq) (x : Qp) (w : BitVec 64) (isSend : Bool),
    s.idle → s.started = true → s.names .cq s.me.op.cq c → s.cq? c = some y → y.headAddr = a → s.cqeHwOwned a = false →
    s.pollsOne i a → s.lookupNum .qp (s.cqeQpn a) = some q → q ≠ 0 → s.qp? q = some x → s.cqeIsSend a = isSend →
    (isSend = false → x.srq = none) → x.wqeIndex isSend (s.cqeWord a 0x18).toNat = some idx →
    (x.ring isSend).wrid.getD idx none = some w → s.legacyErrDue a = 0 →
    RunsTo (exec i s) fun t =>
      t = ((((s.rmb.setQp q (x.setRing isSend ((x.ring isSend).retire idx))).memWrite (a + 0x1F) 1 0x80).published c y).ended
        (polledOne (completion s x isSend a w)))
      ∧ ∀ b, b ≠ a + 0x1F → (∀ r ∈ s.recsOf [y.setCiRec], Outside b (s.recAddr r, 4)) → memGet t.mem b = memGet s.mem b)
  ∧ ∀ (s u : State) (c freed : Nat) (y z : Cq) (l : List (Option CompRec × Bool)) (recs : List CompRec),
    s.idle → s.started = true → s.names .cq s.me.op.cq c → s.cq? c = some y → s.pollsAll c l u → u.cq? c = some z →
    l.filterMap (·.1) = recs → (l.filter (·.2)).length = freed → l.length ≤ s.me.op.maxEntries.toNat + y.capacity →
    (∀ k, k < l.length → ((l.take k).filterMap (·.1)).length < s.me.op.maxEntries.toNat) →
    recs.length = s.me.op.maxEntries.toNat ∨ u.cqeHwOwned z.headAddr = true →
    RunsTo (exec .pollCq s) fun t =>
      t = (u.publishes c freed).ended
        { status := some .ok, n := some (BitVec.ofNat 32 recs.length), wc := recs
          decodeErrors := some (BitVec.ofNat 32 (l.length - recs.length)) }
      ∧ z.consIndex = y.consIndex + BitVec.ofNat 32 freed
      ∧ t.doorbells = (if freed ≠ 0 ∧ s.mode = .legacy then
          [(s.cfg.cqDbOff, BitVec.ofNat 32 (2 ^ 24 + y.cqn.toNat), BitVec.ofNat 32 (freed - 1))] else []) ++ s.doorbells
      ∧ (freed ≠ 0 → s.mode = .memfree → Memory.wf s.mem = true → ∀ r, y.setCiRec = some r →
          t.memRead (s.recAddr r) 4 = z.consIndex.toNat)

/-- A poll of one receive CQE of a QP with an SRQ (R301, R304, R376): as above, but the slot goes back to the SRQ's free list, and
no ring changes. That the rows of a receive CQE are run by themselves is the model's choice (notes/assumptions/13.md). -/
def Obligations.PollSrq : Prop :=
  ∀ (i : Instr) (s : State) (c q r a idx : Nat) (y : Cq) (x : Qp) (z : Srq) (g : Handle) (w : BitVec 64),
    s.idle → s.started = true → s.names .cq s.me.op.cq c → s.cq? c = some y → y.headAddr = a → s.cqeHwOwned a = false →
    s.pollsOne i a → s.lookupNum .qp (s.cqeQpn a) = some q → q ≠ 0 → s.qp? q = some x → s.cqeIsSend a = false →
    x.srq = some g → s.names .srq g r → s.srq? r = some z → z.wqeIndex (s.cqeWord a 0x18).toNat = some idx →
    z.wrid.getD idx none = some w →
    RunsTo (exec i s) fun t =>
      t = ((((s.rmb.setSrq r (z.freeSlot idx)).memWrite (a + 0x1F) 1 0x80).published c y).ended
        (polledOne (completion s x false a w)))
      ∧ ∀ b, b ≠ a + 0x1F → (∀ r ∈ s.recsOf [y.setCiRec], Outside b (s.recAddr r, 4)) → memGet t.mem b = memGet s.mem b

/-- An error CQE of a QP's own ring in `LEGACY` (R308): while its chain goes on and its doorbell credit is not used up, the CQE
stays, rewritten for the next WQE of the chain with the syndrome 0x05, and the consumer index does not move; else it is
consumed as any other. That the row `CQE_ERROR` is run by itself is the model's convention (notes/assumptions/13.md); the model's own
field `chain` notes for which WQE such a CQE stands (notes/assumptions/21.md). -/
def Obligations.PollErrorLegacy : Prop :=
  ∀ (i : Instr) (s : State) (c q a h idx nds dbd cnt n : Nat) (y : Cq) (x : Qp) (r : Ring) (w : BitVec 64) (isSend : Bool),
    s.idle → s.started = true → s.mode = .legacy → s.names .cq s.me.op.cq c → s.cq? c = some y → y.headAddr = a →
    s.cqeHwOwned a = false → s.pollsOne i a → s.lookupNum .qp (s.cqeQpn a) = some q → q ≠ 0 → s.qp? q = some x →
    s.cqeIsSend a = isSend → (isSend = false → x.srq = none) → isErrOpcode (s.cqeByte a 0x1C) = true →
    x.wqeIndex isSend (s.cqeWord a 0x18).toNat = some idx → (x.ring isSend).wrid.getD idx none = some w →
    x.slotAddr isSend idx = h → s.memRead (h + 4) 4 % 64 = nds → s.memRead (h + 4) 4 / 128 % 2 = dbd →
    s.memRead (a + 0x12) 2 = cnt → (x.ring isSend).retire idx = r → r.doneTo idx = n →
    (nds ≠ 0 → ¬ (cnt = 0 ∧ dbd = 1) →
      exec i s = .next (((((s.rmb.setQp q (x.setRing isSend (r.moveChain n (some (n + 1, (cnt + 65536 - dbd) % 65536))))).memWrite
          (a + 0x12) 2 ((cnt + 65536 - dbd) % 65536)).memWrite (a + 0x18) 4 (s.memRead h 4 / 64 * 64 + nds)).memWrite
        (a + 0x10) 1 0x05).ended (polledOne (completion s x isSend a w))))
    ∧ (nds = 0 ∨ (cnt = 0 ∧ dbd = 1) →
      exec i s = .next ((((s.rmb.setQp q (x.setRing isSend (r.moveChain n none))).memWrite (a + 0x1F) 1 0x80).published c y).ended
        (polledOne (completion s x isSend a w))))

/-- A CQE whose QP number names no QP, whose WQE offset names no slot of the QP's own ring, or, on a receive of a QP with an SRQ, no
posted slot of the SRQ, is a decode error (R303, R304): no record, the slot goes back to the hardware, the CQ and the response
count it. By `POLL_CQ`, where the next slot is then the hardware's, and by the row of the CQE's kind, whose run by itself is the
model's convention (notes/assumptions/13.md). -/
def Obligations.PollDecodeError : Prop :=
  ∀ (i : Instr) (s : State) (c a : Nat) (y : Cq),
    s.idle → s.started = true → s.names .cq s.me.op.cq c → s.cq? c = some y → y.headAddr = a → s.cqeHwOwned a = false →
    (i = .pollCq ∧ s.me.op.maxEntries ≠ 0
        ∧ (s.memWrite (a + 0x1F) 1 0x80).cqeHwOwned (y.slotAddr (y.consIndex + 1).toNat) = true)
      ∨ (cqeRow i = true ∧ s.cqeMatches i a = true) →
    s.cqeUndecodable a →
    exec i s = .next (((s.rmb.memWrite (a + 0x1F) 1 0x80).published c { y with decodeErrors := y.decodeErrors + 1 }).ended
      { status := some .ok, n := some 0, decodeErrors := some 1 })

/-- The fields of a completion record (R306, R124, R125, R131): an error CQE reports the status of its syndrome and its vendor
code, with no type; a send CQE its type, NONE for an opcode of no row, whether an immediate was sent and the byte count of the types
that have one; a receive CQE its type, the fields of the path, and the immediate where there is one. Every other field is 0. -/
def Obligations.CompletionFields : Prop :=
  ∀ (s : State) (x : Qp) (a : Nat) (w : BitVec 64) (isSend : Bool) (r : CompRec), completion s x isSend a w = r →
    (r.wrId = w ∧ r.qp = x.self ∧ r.qpn = x.qpn ∧ r.isSend = isSend)
    ∧ (isErrOpcode (s.cqeByte a 0x1C) = true →
        r.status = syndromeStatus s.cfg (s.cqeByte a 0x10) ∧ r.vendorErr = s.cqeByte a 0x11 ∧ r.type = .none
        ∧ r.immPresent = false ∧ r.byteLen = 0)
    ∧ (isErrOpcode (s.cqeByte a 0x1C) = false → r.status = .success ∧ r.vendorErr = 0)
    ∧ (isErrOpcode (s.cqeByte a 0x1C) = true ∨ isSend = true →
        r.grh = false ∧ r.imm = 0 ∧ r.srcQp = 0 ∧ r.slid = 0 ∧ r.sl = 0 ∧ r.pathBits = 0 ∧ r.pkeyIndex = 0)
    ∧ (isSend = true →
        (s.cqeByte a 0x1C = 0x08 → r.type = .rdmaWrite ∧ r.immPresent = false ∧ r.byteLen = 0)
        ∧ (s.cqeByte a 0x1C = 0x09 → r.type = .rdmaWrite ∧ r.immPresent = true ∧ r.byteLen = 0)
        ∧ (s.cqeByte a 0x1C = 0x0A → r.type = .send ∧ r.immPresent = false ∧ r.byteLen = 0)
        ∧ (s.cqeByte a 0x1C = 0x0B → r.type = .send ∧ r.immPresent = true ∧ r.byteLen = 0)
        ∧ (s.cqeByte a 0x1C = 0x10 → r.type = .rdmaRead ∧ r.immPresent = false ∧ r.byteLen = s.cqeWord a 0x14)
        ∧ (s.cqeByte a 0x1C = 0x11 → r.type = .compSwap ∧ r.immPresent = false ∧ r.byteLen = 8)
        ∧ (s.cqeByte a 0x1C = 0x12 → r.type = .fetchAdd ∧ r.immPresent = false ∧ r.byteLen = 8)
        ∧ (s.cqeByte a 0x1C = 0x18 → r.type = .bindMw ∧ r.immPresent = false ∧ r.byteLen = 0)
        ∧ (s.cqeByte a 0x1C ∉ [0x08, 0x09, 0x0A, 0x0B, 0x10, 0x11, 0x12, 0x18] →
            r.type = .none ∧ r.immPresent = false ∧ r.byteLen = 0))
    ∧ (isSend = false → isErrOpcode (s.cqeByte a 0x1C) = false →
        ((s.cqeByte a 0x1C).toNat % 32 ∈ [0x03, 0x05] → r.type = .recv ∧ r.immPresent = true)
        ∧ ((s.cqeByte a 0x1C).toNat % 32 ∈ [0x09, 0x0B] → r.type = .recvRdmaWithImm ∧ r.immPresent = true)
        ∧ ((s.cqeByte a 0x1C).toNat % 32 ∉ [0x03, 0x05, 0x09, 0x0B] → r.type = .recv ∧ r.immPresent = false ∧ r.imm = 0)
        ∧ (r.immPresent = true → r.imm = s.cqeWord a 0x10)
        ∧ r.byteLen = s.cqeWord a 0x14 ∧ r.srcQp.toNat = s.memRead (a + 0x08) 4 % 2 ^ 24
        ∧ r.slid.toNat = s.memRead (a + 0x0E) 2 ∧ r.sl.toNat = (s.cqeByte a 0x0C).toNat / 16
        ∧ r.pathBits.toNat = (s.cqeByte a 0x0D).toNat % 128 ∧ r.grh = (s.cqeByte a 0x0D).getLsbD 7
        ∧ r.pkeyIndex.toNat = s.memRead (a + 0x10) 4 / 65536)

/-- `REQ_NOTIFY_CQ` (R262, R128 to R130). In `LEGACY`: one arm doorbell after a write barrier, `((sol ? 3 : 2) << 24) | cqn` and
0xFFFFFFFF. In `MEMFREE`: the arm record holds the consumer index and `(cqn << 8) | (2 << 5) | (sn << 3) | (sol ? 1 : 2)` with `sn`
the low two bits of `arm_sn`; then one arm doorbell with both; every other byte of memory reads as before. That the arm then waits
for the device to take it is the model's record of the device's side (notes/assumptions/21.md). -/
def Obligations.ReqNotify : Prop :=
  ∀ (s : State) (sol : Bool) (c : Nat) (y : Cq), s.quietStart → s.names .cq s.me.op.cq c → s.cq? c = some y →
    (s.mode = .legacy → exec (.reqNotifyCq sol) s = .next (((s.wmb.mmio s.cfg.cqDbOff
      (BitVec.ofNat 32 ((if sol then 3 else 2) * 2 ^ 24 + y.cqn.toNat)) 0xFFFFFFFF).setCq c (y.issueArm sol none)).ended
        { status := some .ok }))
    ∧ ∀ r sn cmd, s.mode = .memfree → y.armRec = some r → y.armSn.toNat % 4 = sn → (if sol then 1 else 2) = cmd →
      Memory.wf s.mem = true →
    RunsTo (exec (.reqNotifyCq sol) s) fun t =>
      t.memRead (s.recAddr r) 4 = y.consIndex.toNat
      ∧ t.memRead (s.recAddr r + 4) 4 = y.cqn.toNat * 256 + 2 * 32 + sn * 8 + cmd
      ∧ SameMemOutside s t (s.recAddr r) 8
      ∧ t = ((((s.wmb.memWrite (s.recAddr r) 8
            (y.consIndex.toNat * 2 ^ 32 + (y.cqn.toNat * 256 + 2 * 32 + sn * 8 + cmd))).wmb.mmio
          s.cfg.cqDbOff (BitVec.ofNat 32 (sn * 2 ^ 28 + cmd * 2 ^ 24 + y.cqn.toNat)) y.consIndex).setCq c
            (y.issueArm sol (some (BitVec.ofNat 2 sn)))).ended { status := some .ok })

/-! ### Events -/

/-- A completion event for the number of a live CQ (R424): its `arm_sn` is one higher and its handle is emitted; nothing else
changes. -/
def Obligations.EventCompletion : Prop :=
  ∀ (s : State) (num : Num24) (c : Nat) (y : Cq), s.eventIdle → s.started = true → s.lookupNum .cq num = some c → c ≠ 0 →
    s.cq? c = some y →
    exec (.eventCompletion num) s = .next (((s.setCur eventAgent).setCq c { y with armSn := y.armSn + 1 }
      |>.emit (.completion (s.handleOf .cq (s.indexOf .cq num)))).ended {})

/-- A QP event of an assigned type for the number of a live QP (R426): only `SQ_DRAINED` changes the cached state, and only out
of DRAINING, to SQD; the event is emitted with the QP's handle; nothing else changes. -/
def Obligations.EventQp : Prop :=
  ∀ (s : State) (num : Num24) (ty : Byte) (q : Nat) (x : Qp), s.eventIdle → s.started = true → ty.toNat ≤ 6 →
    s.lookupNum .qp num = some q → q ≠ 0 → s.qp? q = some x →
    RunsTo (exec (.eventQp num ty) s) fun t =>
      t.qp? q = some { x with state := if ty = 2 ∧ x.state = .draining then .sqd else x.state }
      ∧ (∀ p, p ≠ q → t.qp? p = s.qp? p)
      ∧ t.agents = ((s.setCur eventAgent).ended {}).agents
      ∧ t = { s with
          cur := eventAgent, qps := t.qps, agents := t.agents, eventOut := s.eventOut ++ [.qpEvent x.self ty]
          bus := .commandEnd eventAgent :: s.bus }

/-- A fatal failure (R427): the instance has failed, every live QP's cached state is ERR, and the failure is emitted; nothing
else changes. -/
def Obligations.EventFatal : Prop :=
  ∀ s : State, s.eventIdle → s.started = true → s.tablesWf →
    (∀ i o, (s.entry .qp i).occ = some o → o.obj ≠ 0 ∧ (s.qp? o.obj).isSome) →
    RunsTo (exec .eventFatal s) fun t =>
      (∀ i o x, (s.entry .qp i).occ = some o → s.qp? o.obj = some x → t.qp? o.obj = some { x with state := .err })
      ∧ (∀ q, (∀ i o, (s.entry .qp i).occ = some o → o.obj ≠ q) → t.qp? q = s.qp? q)
      ∧ t.agents = ((s.setCur eventAgent).ended {}).agents
      ∧ t = { s with
          cur := eventAgent, fatal := true, qps := t.qps, agents := t.agents, eventOut := s.eventOut ++ [.fatal]
          bus := .commandEnd eventAgent :: s.bus }

/-- An event of another kind is ignored (R140); an event for a number with no live object is dropped (R424, R426); so are, by the
model's reading of `93_implementation_defined.md` U12, a QP event of an unassigned type and an event that comes while the
instance is not started (notes/assumptions/20.md). -/
def Obligations.EventIgnored : Prop :=
  ∀ s : State, s.eventIdle →
    (∀ kind, exec (.eventOther kind) s = .next ((s.setCur eventAgent).ended {}))
    ∧ (∀ num, s.lookupNum .cq num = none → exec (.eventCompletion num) s = .next ((s.setCur eventAgent).ended {}))
    ∧ (∀ num ty, s.lookupNum .qp num = none ∨ 6 < ty.toNat →
        exec (.eventQp num ty) s = .next ((s.setCur eventAgent).ended {}))
    ∧ (∀ i, s.started = false → (i = .eventFatal ∨ (∃ num, i = .eventCompletion num) ∨ ∃ num ty, i = .eventQp num ty) →
        exec i s = .next ((s.setCur eventAgent).ended {}))

/-- The device's side of the contract (R85 to R90, R242, R263, R431): the inputs that would break it have no step, and the others do
what the contract says. A completion event comes only for an armed CQ and disarms it; a device that has failed raises no event,
writes nothing and takes no arm; a CQE goes only into a hardware-owned slot that the published consumer index has freed, and its
owner byte, written last with its high bit clear, moves the producer on; an arm with a stale sequence number is ignored. A CQE of a
QP, also of one whose entry its destroy has removed, comes only in the QP's CQ for its kind (notes/assumptions/42.md). One of a QP's
own ring comes only for a WQE that the device may read and has not passed, in the order of the posts; it passes over sends only, and
only over those whose header asks for no completion (R217); on success of a send it has its opcode; while a `LEGACY` error CQE waits,
its chain is passed, as far as its size fields and its doorbell credit go (R308), and it comes only where they end at a live WQE, on a
send ring of one slot only while no post is in progress (the model's choice, notes/assumptions/47.md). On an SRQ the device reports the
WQEs of each QP in the order of their posts. How the model records the device's side is notes/assumptions/21.md; that a CQE whose
number names no QP is in no order is notes/assumptions/43.md. -/
def Obligations.DeviceContract : Prop :=
  (∀ (s : State) (bytes : List Byte) (sl : Option Nat) (rest : List Input) (num : Num24) (c : Nat) (y : Cq),
    s.inbox = .event bytes sl :: rest → decode .event bytes = .ok (.eventCompletion num) → s.started = true →
    s.lookupNum .cq num = some c → s.cq? c = some y →
    (y.mayNotify = false → step s = .refused .deviceContract)
    ∧ ∀ t, step s = .next t → ∃ z, t.cq? c = some z ∧ z.armed = none)
  ∧ (∀ (s : State) (x : Input) (rest : List Input), s.inbox = x :: rest → s.deviceFailed = true → s.started = true →
    ((∃ bytes sl i, x = .event bytes sl ∧ decode .event bytes = .ok i) ∨ (∃ cqn off bytes, x = .deviceCqe cqn off bytes)
      ∨ (∃ cqn b, x = .deviceOwner cqn b) ∨ ∃ cqn k, x = .deviceArm cqn k) →
    step s = .refused .deviceContract)
  ∧ (∀ (s : State) (cqn : Num24) (c : Nat) (y : Cq) (rest : List Input), s.lookupNum .cq cqn = some c → s.cq? c = some y →
    (s.cqeHwOwned y.prodAddr = false ∨ y.capacity ≤ (y.devProd - y.devCons).toNat →
      ∀ x, (∃ off bytes, x = .deviceCqe cqn off bytes) ∨ (∃ b, x = .deviceOwner cqn b) → s.inbox = x :: rest →
        step s = .refused .deviceContract)
    ∧ ∀ (b : Byte) (t : State), s.inbox = .deviceOwner cqn b :: rest → Memory.wf s.mem = true → step s = .next t →
      b.getLsbD 7 = false ∧ s.cqeQpn y.prodAddr ∉ s.quiet ∧ memGet t.mem (y.prodAddr + 0x1F) = b
      ∧ SameMemOutside s t (y.prodAddr + 0x1F) 1 ∧ ∃ z, t.cq? c = some z ∧ z.devProd = y.devProd + 1)
  ∧ (∀ (y : Cq) (k : Nat) (a : Arm) (waits : Bool), y.arms[k]? = some a →
    (y.takeArm k waits).arms = y.arms.eraseIdx k
    ∧ (a.sn = none ∨ a.sn = some (y.devSn.setWidth 2) → (y.takeArm k waits).mayNotify = (!a.sol || waits))
    ∧ (a.sn ≠ none → a.sn ≠ some (y.devSn.setWidth 2) → (y.takeArm k waits).armed = y.armed))
  ∧ (∀ (s : State) (cqn : Num24) (c q : Nat) (b : Byte) (y : Cq) (x : Qp) (rest : List Input),
    s.inbox = .deviceOwner cqn b :: rest → s.lookupNum .cq cqn = some c → s.cq? c = some y →
    s.deviceQp (s.cqeQpn y.prodAddr) = some q → s.qp? q = some x →
    s.lookup .cq (if s.cqeIsSend y.prodAddr then x.sendCq else x.recvCq) ≠ some c → step s = .refused .deviceContract)
  ∧ (∀ (s : State) (cqn : Num24) (c q i : Nat) (b : Byte) (y : Cq) (x : Qp) (r : Ring) (isSend : Bool) (rest : List Input),
    s.inbox = .deviceOwner cqn b :: rest → s.lookupNum .cq cqn = some c → s.cq? c = some y →
    s.deviceQp (s.cqeQpn y.prodAddr) = some q → s.qp? q = some x → s.cqeIsSend y.prodAddr = isSend →
    (isSend = false → x.srq = none) → x.ring isSend = r → x.wqeIndex isSend (s.cqeWord y.prodAddr 0x18).toNat = some i →
    (∀ t, step s = .next t →
      (isSend = true → isErrOpcode (s.cqeByte y.prodAddr 0x1C) = false →
        (s.cqeByte y.prodAddr 0x1C).toNat = (r.ops.getD i 0).toNat)
      ∧ ∃ n, (n - 1) % r.capacity = i ∧ s.ringDone x isSend < n ∧ n ≤ r.live ∧ r.live < n + r.capacity
        ∧ r.first ≠ 0 ∧ r.first ≤ s.ringDone x isSend + 1
        ∧ (∀ m, s.ringDone x isSend < m → m < n → isSend = true
            ∧ s.memRead (x.slotAddr true ((m - 1) % r.capacity) + 8) 4 / 8 % 2 = 0)
        ∧ (s.legacyErrDue y.prodAddr = 1 → ∃ e k h, n ≤ e ∧ e ≤ r.live
            ∧ s.creditAt x isSend n (s.memRead (y.prodAddr + 0x12) 2) e k ∧ x.slotAddr isSend ((e - 1) % r.capacity) = h
            ∧ (s.memRead (h + 4) 4 % 64 = 0 ∨ (k = 0 ∧ s.memRead (h + 4) 4 / 128 % 2 = 1)))
        ∧ t.qp? q = some (x.setRing isSend { r with
            devDone := n
            chain := if s.legacyErrDue y.prodAddr = 1 then some (n, s.memRead (y.prodAddr + 0x12) 2) else r.chain }))
    ∧ ((∀ n, (n - 1) % r.capacity = i → n ≤ r.live → r.live < n + r.capacity →
          n ≤ s.ringDone x isSend ∨ r.first = 0 ∨ s.ringDone x isSend + 1 < r.first
          ∨ ∃ m, s.ringDone x isSend < m ∧ m < n ∧ (isSend = false
              ∨ s.memRead (x.slotAddr true ((m - 1) % r.capacity) + 8) 4 / 8 % 2 ≠ 0))
        ∨ (isSend = true ∧ isErrOpcode (s.cqeByte y.prodAddr 0x1C) = false
          ∧ (s.cqeByte y.prodAddr 0x1C).toNat ≠ (r.ops.getD i 0).toNat)
        ∨ (s.legacyErrDue y.prodAddr = 1 ∧ ∀ n e k h, (n - 1) % r.capacity = i → n ≤ r.live → r.live < n + r.capacity → n ≤ e →
            e ≤ r.live → s.creditAt x isSend n (s.memRead (y.prodAddr + 0x12) 2) e k →
            x.slotAddr isSend ((e - 1) % r.capacity) = h →
            s.memRead (h + 4) 4 % 64 ≠ 0 ∧ ¬ (k = 0 ∧ s.memRead (h + 4) 4 / 128 % 2 = 1))
        ∨ (s.legacyErrDue y.prodAddr = 1 ∧ isSend = true ∧ r.capacity = 1 ∧ (s.holder (.sq q)).isSome) →
      step s = .refused .deviceContract))
  ∧ (∀ (s : State) (x : Qp) (isSend : Bool) (r : Ring) (n cnt : Nat), x.ring isSend = r → r.chain = some (n, cnt) → cnt < 65536 →
    n ≤ r.live → r.live < n + r.capacity →
    ∃ e, s.ringDone x isSend = max r.devDone e ∧ n ≤ e ∧ e ≤ r.live
      ∧ (∀ m h, n ≤ m → m < e → x.slotAddr isSend ((m - 1) % r.capacity) = h →
        s.memRead (h + 4) 4 % 64 ≠ 0 ∧ ∃ k, s.creditAt x isSend n cnt m k
          ∧ ¬ (k = 0 ∧ s.memRead (h + 4) 4 / 128 % 2 = 1))
      ∧ ∀ h, x.slotAddr isSend ((e - 1) % r.capacity) = h → e = r.live ∨ s.memRead (h + 4) 4 % 64 = 0
        ∨ ∃ k, s.creditAt x isSend n cnt e k ∧ k = 0 ∧ s.memRead (h + 4) 4 / 128 % 2 = 1)
  ∧ ∀ (s : State) (cqn : Num24) (c q r i : Nat) (b : Byte) (y : Cq) (x : Qp) (z : Srq) (h : Handle) (rest : List Input),
    s.inbox = .deviceOwner cqn b :: rest → s.lookupNum .cq cqn = some c → s.cq? c = some y →
    s.deviceQp (s.cqeQpn y.prodAddr) = some q → s.qp? q = some x → s.cqeIsSend y.prodAddr = false → x.srq = some h →
    s.lookup .srq h = some r → s.srq? r = some z → (s.cqeWord y.prodAddr 0x18).toNat / 2 ^ z.shift = i → i < z.capacity →
    (∀ t, step s = .next t → ∃ n, (i, n) ∈ z.queue ∧ x.srqDone < n ∧ z.first ≠ 0 ∧ z.first ≤ n
        ∧ t.qp? q = some { x with srqDone := n } ∧ t.srq? r = some { z with queue := z.queue.erase (i, n) })
    ∧ ((∀ n, (i, n) ∈ z.queue → n ≤ x.srqDone ∨ z.first = 0 ∨ n < z.first) → step s = .refused .deviceContract)

/-! ### Doorbells -/

/-- A doorbell of the instance's mode is one write barrier and one 64-bit write of its two words to its register (R251, R75, R76);
a doorbell record is written word by word, each after a write barrier (R130, R256). A doorbell or record of the other mode, and
one of an instance that is not started, does nothing. That these rows are run by themselves is the model's convention
(notes/assumptions/14.md); what the device then keeps of them is notes/assumptions/21.md. -/
def Obligations.Doorbells : Prop :=
  ∀ s : State, s.idle →
    (∀ e ∈ [(Mode.legacy, DbReg.send, fun i => ∃ w f o n z, i = Instr.dbLegacySend w f o n z),
        (.legacy, .recv, fun i => ∃ w z n k, i = .dbLegacyRecv w z n k),
        (.legacy, .recv, fun i => ∃ w n k, i = .dbLegacySrq w n k),
        (.legacy, .cq, fun i => ∃ n k, i = .dbLegacyCqInc n k),
        (.legacy, .cq, fun i => ∃ f n, i = .dbLegacyCqArm f n),
        (.memfree, .send, fun i => ∃ k h f o n z, i = .dbMemfreeSend k h f o n z),
        (.memfree, .cq, fun i => ∃ n f c w, i = .dbMemfreeCqArm n f c w)],
      ∀ i, e.2.2 i →
        (s.started = true → s.mode = e.1 →
          exec i s = .next (((s.wmb.mmio (s.regOff e.2.1) (doorbellWords i).1 (doorbellWords i).2).deviceGets i).ended {}))
        ∧ (s.started = false ∨ s.mode ≠ e.1 → exec i s = .next (s.ended {})))
    ∧ ∀ (r w0 : Word) (num : Num24) (ty : BitVec 3) (low : BitVec 5),
        (s.started = true → s.mode = .memfree → r.toNat < s.cfg.dbRecCount → Memory.wf s.mem = true →
          RunsTo (exec (.dbrecMemfree r w0 num ty low) s) fun t =>
            t.memRead (s.recAddr r.toNat) 4 = w0.toNat
            ∧ t.memRead (s.recAddr r.toNat + 4) 4 = num.toNat * 256 + ty.toNat * 32 + low.toNat
            ∧ SameMemOutside s t (s.recAddr r.toNat) 8
            ∧ t.agents = (s.ended {}).agents
            ∧ t = { s with
              qps := (s.deviceReads r.toNat w0).qps, cqs := (s.deviceReads r.toNat w0).cqs
              srqs := (s.deviceReads r.toNat w0).srqs, mem := t.mem, bus := t.bus, agents := t.agents })
        ∧ (s.started = false ∨ s.mode = .legacy ∨ s.cfg.dbRecCount ≤ r.toNat →
          exec (.dbrecMemfree r w0 num ty low) s = .next (s.ended {}))

/-- The doorbells that the batches of the legacy protocol ring, as numbers (R126, R127): a send batch at `SEND_DB_OFF`, a receive
batch of a QP and one of an SRQ at `RECV_DB_OFF`, each after a write barrier; `first_ind`, `f0`, `op0` and `size0` are those of
the batch's first WQE. The premises hold of every ring a create makes: slots of 64 bytes or more in a buffer whose offsets have
32 bits, WQEs of at most 63 units. -/
def Obligations.LegacyRingDoorbells : Prop :=
  ∀ (s : State) (x : Qp) (y : Srq) (b : Batch),
    (6 ≤ x.sq.shift → x.sendWqeOffset % 64 = 0 → (b.firstInd <<< x.sq.shift) + x.sendWqeOffset < 2 ^ 32 → b.op0.toNat < 32 →
      b.size0 < 64 →
      s.ring .send (sendDoorbell .legacy x b) = s.wmb.mmio s.cfg.sendDbOff
        (BitVec.ofNat 32 (((b.firstInd <<< x.sq.shift) + x.sendWqeOffset) ||| (b.f0.toNat <<< 5) ||| b.op0.toNat))
        (BitVec.ofNat 32 ((x.qpn.toNat <<< 8) ||| b.size0)))
    ∧ (6 ≤ x.rq.shift → b.firstInd <<< x.rq.shift < 2 ^ 32 → b.size0 < 64 →
      s.ring .recv (recvDoorbell x b) = s.wmb.mmio s.cfg.recvDbOff
        (BitVec.ofNat 32 ((b.firstInd <<< x.rq.shift) ||| b.size0))
        (BitVec.ofNat 32 ((x.qpn.toNat <<< 8) ||| (b.cnt % 256))))
    ∧ (6 ≤ y.shift → b.firstInd <<< y.shift < 2 ^ 32 →
      s.ring .recv (srqDoorbell y b) = s.wmb.mmio s.cfg.recvDbOff (BitVec.ofNat 32 (b.firstInd <<< y.shift))
        (BitVec.ofNat 32 ((y.srqn.toNat <<< 8) ||| (b.cnt % 256))))
    ∧ ∀ (ind size : Nat) (f0 : Bool) (op0 : BitVec 6) (head0 : Word),
      b.count ind f0 op0 size head0 =
        if b.cnt = 0 then { b with cnt := 1, firstInd := ind, f0, op0, size0 := size, head0 }
        else { b with cnt := b.cnt + 1 }

/-! ### Rings, free lists, numbers -/

/-- The free list of an SRQ keeps its form (R46, R377): through the release of any slot (R376), which puts a posted slot at the
end of the list; through the post of its head (R374); and a post finds the list empty exactly when every slot is posted. -/
def Obligations.SrqKept : Prop :=
  ∀ x : Srq, x.Wf →
    (∀ idx, (x.freeSlot idx).Wf
      ∧ (idx < x.capacity → x.posted.getD idx false = true → (x.freeSlot idx).freeList = x.freeList ++ [idx])
      ∧ (x.capacity ≤ idx ∨ x.posted.getD idx false = false → x.freeSlot idx = x))
    ∧ (∀ ind, x.freeHead = some ind →
        (x.pop.2.advance ind).Wf ∧ x.freeList = ind :: x.pop.2.freeList)
    ∧ (x.freeHead = none ↔ x.outstanding = x.capacity)

/-- A ring keeps its form (R31, R206, R211, R305): a post to a ring with room fills `next_ind` and counts one more; the completion
of a slot retires every WQE from the one after `last_comp` up to it. -/
def Obligations.RingKept : Prop :=
  ∀ r : Ring, r.Wf → r.capacity < 2 ^ 32 →
    (r.count < r.capacity → (r.advance r.nextInd).Wf ∧ (r.advance r.nextInd).count = r.count + 1)
    ∧ ∀ idx d, idx < r.capacity → 0 < d → d ≤ r.count → (r.lastComp + d) % r.capacity = idx → d ≤ r.capacity →
        (r.retire idx).Wf ∧ (r.retire idx).count + d = r.count ∧ (r.retire idx).lastComp = idx

/-- The capacities of R201 and R291, the slot sizes of R202, the buffer layout of R203, and the slot number of a WQE offset (R204,
R304): `CQ_CAPACITY` is the least power of two above the depth; a `MEMFREE` ring's capacity is the least power of two that is no
less than the depth and 1, a `LEGACY` ring's is the depth, or 1; a slot is the least power of two, at least `MIN_WQE_SHIFT`, that
holds the largest WQE of its ring; the send ring starts at the first multiple of its slot size after the receive ring; the offset
of every slot names that slot; and the WQE of every request that passes the checks fits its slot, in at most 63 units (R119). That
a send ring with neither scatter/gather entries nor inline bytes has slots for an empty inline segment is the model's choice
between R202 and R119 (notes/assumptions/38.md), what a QP with an SRQ takes of the receive operands notes/assumptions/16.md, the
cut of an MLX header at 64 bytes notes/assumptions/33.md. -/
def Obligations.Geometry : Prop :=
  (∀ d, (∃ k, cqCapacity d = 2 ^ k) ∧ d + 1 ≤ cqCapacity d ∧ ∀ k, d + 1 ≤ 2 ^ k → cqCapacity d ≤ 2 ^ k)
  ∧ (∀ d, ringCapacity .legacy d = max d 1)
  ∧ (∀ d, (∃ k, ringCapacity .memfree d = 2 ^ k) ∧ max d 1 ≤ ringCapacity .memfree d
      ∧ ∀ k, max d 1 ≤ 2 ^ k → ringCapacity .memfree d ≤ 2 ^ k)
  ∧ (∀ (x : Qp) (isSend : Bool) (i : Nat), i < (x.ring isSend).capacity → x.wqeIndex isSend (x.woff isSend i) = some i)
  ∧ (∀ (x : Srq) (i : Nat), i < x.capacity → x.posted.getD i false = true → x.wqeIndex (x.woff i) = some i)
  ∧ (∀ e ∈ [(Transport.rc, 32), (.uc, 16), (.ud, 48), (.mlx, 64)], ∀ gs inl,
      (0 < gs ∨ 0 < inl → sendBytes e.1 gs inl = 16 + e.2 + max (16 * gs) (if 0 < inl then (4 + inl + 15) / 16 * 16 else 0))
      ∧ sendBytes e.1 0 0 = 32 + e.2)
  ∧ (∀ (cfg : Config) (n : Nat), cfg.minWqeShift ≤ slotShift cfg n ∧ n ≤ 2 ^ slotShift cfg n
      ∧ ∀ k, cfg.minWqeShift ≤ k → n ≤ 2 ^ k → slotShift cfg n ≤ k)
  ∧ (∀ cap rs ss, sendOffset true cap rs ss = 0
      ∧ 2 ^ ss ∣ sendOffset false cap rs ss ∧ cap * 2 ^ rs ≤ sendOffset false cap rs ss
      ∧ ∀ m, 2 ^ ss ∣ m → cap * 2 ^ rs ≤ m → sendOffset false cap rs ss ≤ m)
  ∧ (∀ (op : Operands) (s : State) (g : QpGeometry), qpGeometry op s = g →
      g.sqCapacity = ringCapacity s.mode op.sqDepth.toNat
      ∧ g.sqShift = slotShift s.cfg (sendBytes op.transport op.sqMaxGs.toNat op.maxInline.toNat)
      ∧ g.sendWqeOffset = sendOffset op.srq.isSome g.rqCapacity g.rqShift g.sqShift
      ∧ (op.srq = none → g.rqCapacity = ringCapacity s.mode op.rqDepth.toNat
          ∧ g.rqShift = slotShift s.cfg (16 + 16 * op.rqMaxGs.toNat))
      ∧ (op.srq.isSome → g.rqCapacity = 0))
  ∧ (∀ (cfg : Config) (mode : Mode) (x : Qp) (wr : SendWr),
      x.sq.shift = slotShift cfg (sendBytes x.transport x.sq.maxGs x.maxInline.toNat) →
      opcodeLegal x.transport wr.opcode = true → (isInline wr = false → wr.sg.length ≤ x.sq.maxGs) →
      (isInline wr = true → inlineLen wr.sg ≤ x.maxInline.toNat) →
      1 ≤ sendSize mode x wr ∧ 16 * sendSize mode x wr ≤ 2 ^ x.sq.shift
      ∧ (sendBytes x.transport x.sq.maxGs x.maxInline.toNat ≤ 1008 → sendSize mode x wr ≤ 63))
  ∧ ∀ (cfg : Config) (mode : Mode) (n gs : Nat), n ≤ gs →
      1 ≤ recvSize mode n gs ∧ 16 * recvSize mode n gs ≤ 2 ^ slotShift cfg (16 + 16 * gs)
      ∧ (16 + 16 * gs ≤ 1008 → recvSize mode n gs ≤ 63)

/-! ### Waits and stops -/

/-- The waits of R432. A command that needs a lock that another agent holds waits where it is (R350): a post or the row of a work
request at the lock of its ring, `MODIFY_QP` and `QUERY_QP` at the QP's modify lock, `POLL_CQ`, the row of a CQE and `REQ_NOTIFY_CQ`
at the CQ's lock, each command that resolves a handle at the lock of its shard; nothing changes but the agent's own record. So does
`DESTROY_QP`, its QP removed, while an event delivery holds a reference (R348). A command that calls the firmware waits for the answer,
holding its locks, after the call on the bus (R420): `MODIFY_QP`, `QUERY_QP`, `DESTROY_QP`, `DESTROY_CQ`, `DESTROY_SRQ`, `CREATE_CQ` and
`CREATE_SRQ`. A handle of another kind waits for the lock of its index's shard too (R346). -/
def Obligations.CommandWaits : Prop :=
  (∀ (s : State) (op : Operands) (b q c r : Nat) (h : Handle), s.ready → s.me.op = op → s.stopInProgress = false → s.started = true →
    s.fatal = false → b ≠ s.cur → (∀ k sh, s.holder (.shard k sh) = none) →
    (∀ e ∈ [(Instr.postSend, Lock.sq q), (.postRecv, .rq q), (.modifyQp, .mlock q), (.queryQp, .mlock q), (.wrReserved7, .sq q)]
        ++ wrRows.map (fun e => (e.1, .sq q)),
      s.names .qp op.qp q → (s.qp? q).isSome → s.beingDestroyed op.qp = false → s.holder e.2 = some b →
      RunsTo (exec e.1 s) fun t => t.me.cmd = some e.1 ∧ t = { s with agents := t.agents })
    ∧ (∀ i, i = .pollCq ∨ cqeRow i = true ∨ (∃ sol, i = .reqNotifyCq sol) → s.names .cq op.cq c → (s.cq? c).isSome →
      s.beingDestroyed op.cq = false → s.holder (.cq c) = some b →
      RunsTo (exec i s) fun t => t.me.cmd = some i ∧ t = { s with agents := t.agents })
    ∧ (op.srq = some h → s.names .srq h r → (s.srq? r).isSome → s.beingDestroyed h = false → s.holder (.srq r) = some b →
      RunsTo (exec .postSrqRecv s) fun t => t.me.cmd = some .postSrqRecv ∧ t = { s with agents := t.agents }))
  ∧ (∀ (s : State) (i : Instr) (op : Operands) (kind : Kind) (h : Handle) (b : Nat), s.ready → s.me.op = op →
    s.stopInProgress = false → s.started = true → s.fatal = false → b ≠ s.cur →
    (kind = .qp ∧ op.qp = h ∧ i ∈ [.modifyQp, .queryQp, .destroyQp, .postSend, .postRecv])
      ∨ (kind = .cq ∧ op.cq = h ∧ i ∈ [.pollCq, .reqNotifyCq false, .reqNotifyCq true, .destroyCq])
      ∨ (kind = .srq ∧ op.srq = some h ∧ i ∈ [.postSrqRecv, .destroySrq])
      ∨ (kind = .cq ∧ op.sendCq = h ∧ i = .createQp ∧ s.beingDestroyed op.recvCq = false
          ∧ ∀ g, op.srq = some g → s.beingDestroyed g = false) →
    h.index.toNat < Config.entries s.cfg kind → s.beingDestroyed h = false →
    s.holder (s.shardLock kind h.index.toNat) = some b →
    RunsTo (exec i s) fun t => t.me.cmd = some i ∧ t = { s with agents := t.agents })
  ∧ (∀ (s : State) (h : Handle) (q c1 c2 : Nat) (x : Qp), s.quietStart → s.me.op.qp = h → s.names .qp h q → s.qp? q = some x →
    s.names .cq x.sendCq c1 → s.names .cq x.recvCq c2 → (x.sendCq ≠ x.recvCq → c1 ≠ c2) →
    (x.refcount ≠ 0 → RunsTo (exec .destroyQp s) fun t => t.me.cmd = some .destroyQp
      ∧ t = { s with qpTable := s.qpTable.set h.index.toNat { gen := h.gen + 1, occ := none }, agents := t.agents })
    ∧ (x.refcount = 0 → x.state ≠ .reset → s.fw = [] → RunsTo (exec .destroyQp s) fun t => t.me.cmd = some .destroyQp
      ∧ t = { s.wmb.postCall (.modifyQp .any2rst x.qpn none) with
          qpTable := s.qpTable.set h.index.toNat { gen := h.gen + 1, occ := none }, locks := [(.mlock q, s.cur)]
          agents := t.agents }))
  ∧ ∀ (s : State) (op : Operands), s.quietStart → s.me.op = op → s.fw = [] →
    (∀ q x, s.names .qp op.qp q → s.qp? q = some x →
      (RunsTo (exec .queryQp s) fun t => t.me.cmd = some .queryQp
        ∧ t = { s.wmb.postCall (.queryQp x.qpn) with locks := [(.mlock q, s.cur)], agents := t.agents })
      ∧ ∀ tr, modifyError s.cfg x op = none → transitionOf (curState x op) (newState x op) = some tr →
        RunsTo (exec .modifyQp s) fun t => t.me.cmd = some .modifyQp
          ∧ t = { s.wmb.postCall (.modifyQp tr x.qpn (some (contextImage s.cfg x tr (newState x op) op))) with
            locks := [(.mlock q, s.cur)], agents := t.agents })
    ∧ (∀ c y, s.names .cq op.cq c → s.cq? c = some y → y.attach = 0 →
      RunsTo (exec .destroyCq s) fun t => t.me.cmd = some .destroyCq
        ∧ t = { s.wmb.postCall (.hw2swCq y.cqn) with
          cqTable := s.cqTable.set op.cq.index.toNat { gen := op.cq.gen + 1, occ := none }, agents := t.agents })
    ∧ (∀ h r y, op.srq = some h → s.names .srq h r → s.srq? r = some y → y.attach = 0 →
      RunsTo (exec .destroySrq s) fun t => t.me.cmd = some .destroySrq
        ∧ t = { s.wmb.postCall (.hw2swSrq y.srqn) with
          srqTable := s.srqTable.set h.index.toNat { gen := h.gen + 1, occ := none }, agents := t.agents })
    ∧ (∀ recs cap, s.takesRecs 2 recs → createCqBad op s = false → s.bufferOk (createCqBuf op s) = true → s.canInsert .cq op.cqn →
      cqCapacity op.cqDepth.toNat = cap →
      RunsTo (exec .createCq s) fun t => t.me.cmd = some .createCq ∧ t.locks = []
        ∧ t.calls = .sw2hwCq op.cqn cap op.bufBase recs[0]? recs[1]? :: s.calls)
    ∧ ∀ recs cap sh, s.takesRecs 1 recs → createSrqBad op s = false → s.bufferOk (createSrqBuf op s) = true →
      s.canInsert .srq op.srqn → ringCapacity s.mode op.srqDepth.toNat = cap → slotShift s.cfg (16 + 16 * op.maxGs.toNat) = sh →
      RunsTo (exec .createSrq s) fun t => t.me.cmd = some .createSrq ∧ t.locks = []
        ∧ t.calls = .sw2hwSrq op.srqn cap sh op.bufBase op.pd recs[0]? :: s.calls

/-- The breaches of the usage rules of R430 that stop the machine: the destroy of an object another command is using, a command
issued while a `DEVICE_STOP` runs and a `DEVICE_STOP` beside another command (R441), a command that names an object between its
removal and its destroy's response, a `DESTROY_QP` whose handle another command in progress has resolved (R182), the read of a
work-request id that no post has written (R34), a buffer the requester may not give, memory of an object that is live or that a
command has destroyed and not yet answered for, written or unmapped by a requester (R431, R444); and what has no move: the second command of an
agent whose first is in progress (R431), a request list that cannot be expressed (R103), an event word that a requester issues
(R140, R423). Which handles a command names is notes/assumptions/10.md; that an overlap with a `DEVICE_STOP` is
tested when a command is issued is notes/assumptions/36.md. What the requesters own and the
size of the address space are notes/assumptions/6.md; that the buffer is tested before records and entry are taken is
notes/assumptions/32.md; that the memory of live objects takes in the whole doorbell-record table is notes/assumptions/48.md; that a
CQE row is run by itself is notes/assumptions/13.md. -/
def Obligations.Stops : Prop :=
  (∀ (s : State) (c : Nat) (y : Cq), s.ready → s.stopInProgress = false → s.started = true → s.names .cq s.me.op.cq c →
    s.cq? c = some y → y.attach = 0 → (∀ sh, s.holder (.shard .cq sh) = none) → s.usedByOther s.me.op.cq = true →
    exec .destroyCq s = .fault .useDuringDestroy)
  ∧ (∀ (s : State) (h : Handle) (r : Nat) (y : Srq), s.ready → s.stopInProgress = false → s.started = true →
    s.me.op.srq = some h → s.names .srq h r → s.srq? r = some y → y.attach = 0 → (∀ sh, s.holder (.shard .srq sh) = none) →
    s.usedByOther h = true → exec .destroySrq s = .fault .useDuringDestroy)
  ∧ (∀ (i : Instr) (s : State), s.ready → (encode i).1 ≠ .event →
    s.stopInProgress = true ∨ (i = .deviceStop ∧ s.othersIdle = false)
      ∨ (∃ h ∈ namedHandles i s.me.op, s.beingDestroyed h = true) →
    exec i s = .fault .useDuringDestroy)
  ∧ (∀ (s : State) (q : Nat), s.ready → s.stopInProgress = false → s.started = true → s.names .qp s.me.op.qp q →
    (∀ sh, s.holder (.shard .qp sh) = none) → s.usedByOther s.me.op.qp = true → exec .destroyQp s = .fault .useDuringDestroy)
  ∧ (∀ (s : State) (op : Operands), s.quietStart → s.me.op = op →
    (createCqBad op s = false → s.bufferOk (createCqBuf op s) = false → exec .createCq s = .fault .badBuffer)
    ∧ (createSrqBad op s = false → s.bufferOk (createSrqBuf op s) = false → exec .createSrq s = .fault .badBuffer)
    ∧ (∀ c1 c2, s.names .cq op.sendCq c1 → s.names .cq op.recvCq c2 → (∀ h, op.srq = some h → ∃ r, s.names .srq h r) →
      createQpBad op s = false → s.bufferOk (createQpBuf op s) = false → exec .createQp s = .fault .badBuffer))
  ∧ (∀ (i : Instr) (s : State) (c q a idx : Nat) (y : Cq) (x : Qp) (isSend : Bool),
    s.idle → s.started = true → s.names .cq s.me.op.cq c → s.cq? c = some y → y.headAddr = a → s.cqeHwOwned a = false →
    s.pollsOne i a → s.lookupNum .qp (s.cqeQpn a) = some q → q ≠ 0 → s.qp? q = some x → s.cqeIsSend a = isSend →
    (isSend = false → x.srq = none) → x.wqeIndex isSend (s.cqeWord a 0x18).toNat = some idx →
    (x.ring isSend).wrid.getD idx none = none → exec i s = .fault .readUnset)
  ∧ (∀ (s : State) (x : Input) (rest : List Input) (r b : Nat × Nat), s.inbox = x :: rest →
    (x = .unmapRegion r.1 r.2 ∨ ∃ bytes, x = .hostWrite r.1 bytes ∧ bytes.length = r.2) →
    b ∈ s.liveBuffers ∨ (∃ e ∈ s.agents, b ∈ e.2.freed) → overlaps r b = true → step s = .fault .badBuffer)
  ∧ (∀ (s : State) (a : Nat) (f : Format) (bytes : List Byte) (op : Option Operands) (sl : Option Nat) (rest : List Input),
    s.inbox = .issue a f bytes op sl :: rest →
      ((s.agent a).cmd.isSome → step s = .refused .commandInProgress)
      ∧ (a ≠ eventAgent → (s.agent a).cmd = none → expressible s.cfg op = false → step s = .refused .inexpressible)
      ∧ (a ≠ eventAgent → (s.agent a).cmd = none → expressible s.cfg op = true → f = .event → step s = .refused .eventWord))
end

