-- ==== Sys2Proof/Laws/State.lean ====
section
/-! SUPPORT. One lemma per field per update of State, each true by computation: later proofs read a field of an updated state
without unfolding the update. -/

namespace Sys2Proof.Machine

open Sys2Proof

/-! ### `writeBytes` -/

@[simp] theorem State.writeBytes_cfg (s : State) (a : Nat) (bs : List Byte) : (s.writeBytes a bs).cfg = s.cfg := rfl
@[simp] theorem State.writeBytes_started (s : State) (a : Nat) (bs : List Byte) :
    (s.writeBytes a bs).started = s.started := rfl
@[simp] theorem State.writeBytes_mode (s : State) (a : Nat) (bs : List Byte) : (s.writeBytes a bs).mode = s.mode := rfl
@[simp] theorem State.writeBytes_fatal (s : State) (a : Nat) (bs : List Byte) :
    (s.writeBytes a bs).fatal = s.fatal := rfl
@[simp] theorem State.writeBytes_qpTable (s : State) (a : Nat) (bs : List Byte) :
    (s.writeBytes a bs).qpTable = s.qpTable := rfl
@[simp] theorem State.writeBytes_cqTable (s : State) (a : Nat) (bs : List Byte) :
    (s.writeBytes a bs).cqTable = s.cqTable := rfl
@[simp] theorem State.writeBytes_srqTable (s : State) (a : Nat) (bs : List Byte) :
    (s.writeBytes a bs).srqTable = s.srqTable := rfl
@[simp] theorem State.writeBytes_locks (s : State) (a : Nat) (bs : List Byte) :
    (s.writeBytes a bs).locks = s.locks := rfl
@[simp] theorem State.writeBytes_dbRecFree (s : State) (a : Nat) (bs : List Byte) :
    (s.writeBytes a bs).dbRecFree = s.dbRecFree := rfl
@[simp] theorem State.writeBytes_dbRecBase (s : State) (a : Nat) (bs : List Byte) :
    (s.writeBytes a bs).dbRecBase = s.dbRecBase := rfl
@[simp] theorem State.writeBytes_dbRecUsed (s : State) (a : Nat) (bs : List Byte) :
    (s.writeBytes a bs).dbRecUsed = s.dbRecUsed := rfl
@[simp] theorem State.writeBytes_qps (s : State) (a : Nat) (bs : List Byte) : (s.writeBytes a bs).qps = s.qps := rfl
@[simp] theorem State.writeBytes_cqs (s : State) (a : Nat) (bs : List Byte) : (s.writeBytes a bs).cqs = s.cqs := rfl
@[simp] theorem State.writeBytes_srqs (s : State) (a : Nat) (bs : List Byte) : (s.writeBytes a bs).srqs = s.srqs := rfl
@[simp] theorem State.writeBytes_nextObj (s : State) (a : Nat) (bs : List Byte) :
    (s.writeBytes a bs).nextObj = s.nextObj := rfl
@[simp] theorem State.writeBytes_mem (s : State) (a : Nat) (bs : List Byte) :
    (s.writeBytes a bs).mem = memPutBytes s.mem a bs := rfl
@[simp] theorem State.writeBytes_agents (s : State) (a : Nat) (bs : List Byte) :
    (s.writeBytes a bs).agents = s.agents := rfl
@[simp] theorem State.writeBytes_cur (s : State) (a : Nat) (bs : List Byte) : (s.writeBytes a bs).cur = s.cur := rfl
@[simp] theorem State.writeBytes_slice (s : State) (a : Nat) (bs : List Byte) :
    (s.writeBytes a bs).slice = s.slice := rfl
@[simp] theorem State.writeBytes_inbox (s : State) (a : Nat) (bs : List Byte) :
    (s.writeBytes a bs).inbox = s.inbox := rfl
@[simp] theorem State.writeBytes_eventQ (s : State) (a : Nat) (bs : List Byte) :
    (s.writeBytes a bs).eventQ = s.eventQ := rfl
@[simp] theorem State.writeBytes_eventOut (s : State) (a : Nat) (bs : List Byte) :
    (s.writeBytes a bs).eventOut = s.eventOut := rfl
@[simp] theorem State.writeBytes_fw (s : State) (a : Nat) (bs : List Byte) : (s.writeBytes a bs).fw = s.fw := rfl
@[simp] theorem State.writeBytes_bus (s : State) (a : Nat) (bs : List Byte) :
    (s.writeBytes a bs).bus = .write s.cur a bs :: s.bus := rfl
@[simp] theorem State.writeBytes_owned (s : State) (a : Nat) (bs : List Byte) :
    (s.writeBytes a bs).owned = s.owned := rfl
@[simp] theorem State.writeBytes_quiet (s : State) (a : Nat) (bs : List Byte) :
    (s.writeBytes a bs).quiet = s.quiet := rfl

/-! ### `memWrite` -/

@[simp] theorem State.memWrite_cfg (s : State) (a n v : Nat) : (s.memWrite a n v).cfg = s.cfg := rfl
@[simp] theorem State.memWrite_started (s : State) (a n v : Nat) : (s.memWrite a n v).started = s.started := rfl
@[simp] theorem State.memWrite_mode (s : State) (a n v : Nat) : (s.memWrite a n v).mode = s.mode := rfl
@[simp] theorem State.memWrite_fatal (s : State) (a n v : Nat) : (s.memWrite a n v).fatal = s.fatal := rfl
@[simp] theorem State.memWrite_qpTable (s : State) (a n v : Nat) : (s.memWrite a n v).qpTable = s.qpTable := rfl
@[simp] theorem State.memWrite_cqTable (s : State) (a n v : Nat) : (s.memWrite a n v).cqTable = s.cqTable := rfl
@[simp] theorem State.memWrite_srqTable (s : State) (a n v : Nat) : (s.memWrite a n v).srqTable = s.srqTable := rfl
@[simp] theorem State.memWrite_locks (s : State) (a n v : Nat) : (s.memWrite a n v).locks = s.locks := rfl
@[simp] theorem State.memWrite_dbRecFree (s : State) (a n v : Nat) : (s.memWrite a n v).dbRecFree = s.dbRecFree := rfl
@[simp] theorem State.memWrite_dbRecBase (s : State) (a n v : Nat) : (s.memWrite a n v).dbRecBase = s.dbRecBase := rfl
@[simp] theorem State.memWrite_dbRecUsed (s : State) (a n v : Nat) : (s.memWrite a n v).dbRecUsed = s.dbRecUsed := rfl
@[simp] theorem State.memWrite_qps (s : State) (a n v : Nat) : (s.memWrite a n v).qps = s.qps := rfl
@[simp] theorem State.memWrite_cqs (s : State) (a n v : Nat) : (s.memWrite a n v).cqs = s.cqs := rfl
@[simp] theorem State.memWrite_srqs (s : State) (a n v : Nat) : (s.memWrite a n v).srqs = s.srqs := rfl
@[simp] theorem State.memWrite_nextObj (s : State) (a n v : Nat) : (s.memWrite a n v).nextObj = s.nextObj := rfl
@[simp] theorem State.memWrite_mem (s : State) (a n v : Nat) :
    (s.memWrite a n v).mem = memPutBytes s.mem a (beBytes n v) := rfl
@[simp] theorem State.memWrite_agents (s : State) (a n v : Nat) : (s.memWrite a n v).agents = s.agents := rfl
@[simp] theorem State.memWrite_cur (s : State) (a n v : Nat) : (s.memWrite a n v).cur = s.cur := rfl
@[simp] theorem State.memWrite_slice (s : State) (a n v : Nat) : (s.memWrite a n v).slice = s.slice := rfl
@[simp] theorem State.memWrite_inbox (s : State) (a n v : Nat) : (s.memWrite a n v).inbox = s.inbox := rfl
@[simp] theorem State.memWrite_eventQ (s : State) (a n v : Nat) : (s.memWrite a n v).eventQ = s.eventQ := rfl
@[simp] theorem State.memWrite_eventOut (s : State) (a n v : Nat) : (s.memWrite a n v).eventOut = s.eventOut := rfl
@[simp] theorem State.memWrite_fw (s : State) (a n v : Nat) : (s.memWrite a n v).fw = s.fw := rfl
@[simp] theorem State.memWrite_bus (s : State) (a n v : Nat) :
    (s.memWrite a n v).bus = .write s.cur a (beBytes n v) :: s.bus := rfl
@[simp] theorem State.memWrite_owned (s : State) (a n v : Nat) : (s.memWrite a n v).owned = s.owned := rfl
@[simp] theorem State.memWrite_quiet (s : State) (a n v : Nat) : (s.memWrite a n v).quiet = s.quiet := rfl

/-! ### `fill` -/

@[simp] theorem State.fill_cfg (s : State) (a n : Nat) (v : Byte) : (s.fill a n v).cfg = s.cfg := rfl
@[simp] theorem State.fill_started (s : State) (a n : Nat) (v : Byte) : (s.fill a n v).started = s.started := rfl
@[simp] theorem State.fill_mode (s : State) (a n : Nat) (v : Byte) : (s.fill a n v).mode = s.mode := rfl
@[simp] theorem State.fill_fatal (s : State) (a n : Nat) (v : Byte) : (s.fill a n v).fatal = s.fatal := rfl
@[simp] theorem State.fill_qpTable (s : State) (a n : Nat) (v : Byte) : (s.fill a n v).qpTable = s.qpTable := rfl
@[simp] theorem State.fill_cqTable (s : State) (a n : Nat) (v : Byte) : (s.fill a n v).cqTable = s.cqTable := rfl
@[simp] theorem State.fill_srqTable (s : State) (a n : Nat) (v : Byte) : (s.fill a n v).srqTable = s.srqTable := rfl
@[simp] theorem State.fill_locks (s : State) (a n : Nat) (v : Byte) : (s.fill a n v).locks = s.locks := rfl
@[simp] theorem State.fill_dbRecFree (s : State) (a n : Nat) (v : Byte) : (s.fill a n v).dbRecFree = s.dbRecFree := rfl
@[simp] theorem State.fill_dbRecBase (s : State) (a n : Nat) (v : Byte) : (s.fill a n v).dbRecBase = s.dbRecBase := rfl
@[simp] theorem State.fill_dbRecUsed (s : State) (a n : Nat) (v : Byte) : (s.fill a n v).dbRecUsed = s.dbRecUsed := rfl
@[simp] theorem State.fill_qps (s : State) (a n : Nat) (v : Byte) : (s.fill a n v).qps = s.qps := rfl
@[simp] theorem State.fill_cqs (s : State) (a n : Nat) (v : Byte) : (s.fill a n v).cqs = s.cqs := rfl
@[simp] theorem State.fill_srqs (s : State) (a n : Nat) (v : Byte) : (s.fill a n v).srqs = s.srqs := rfl
@[simp] theorem State.fill_nextObj (s : State) (a n : Nat) (v : Byte) : (s.fill a n v).nextObj = s.nextObj := rfl
@[simp] theorem State.fill_mem (s : State) (a n : Nat) (v : Byte) : (s.fill a n v).mem = memFill s.mem a n v := rfl
@[simp] theorem State.fill_agents (s : State) (a n : Nat) (v : Byte) : (s.fill a n v).agents = s.agents := rfl
@[simp] theorem State.fill_cur (s : State) (a n : Nat) (v : Byte) : (s.fill a n v).cur = s.cur := rfl
@[simp] theorem State.fill_slice (s : State) (a n : Nat) (v : Byte) : (s.fill a n v).slice = s.slice := rfl
@[simp] theorem State.fill_inbox (s : State) (a n : Nat) (v : Byte) : (s.fill a n v).inbox = s.inbox := rfl
@[simp] theorem State.fill_eventQ (s : State) (a n : Nat) (v : Byte) : (s.fill a n v).eventQ = s.eventQ := rfl
@[simp] theorem State.fill_eventOut (s : State) (a n : Nat) (v : Byte) : (s.fill a n v).eventOut = s.eventOut := rfl
@[simp] theorem State.fill_fw (s : State) (a n : Nat) (v : Byte) : (s.fill a n v).fw = s.fw := rfl
@[simp] theorem State.fill_bus (s : State) (a n : Nat) (v : Byte) :
    (s.fill a n v).bus = .fill s.cur a n v :: s.bus := rfl
@[simp] theorem State.fill_owned (s : State) (a n : Nat) (v : Byte) : (s.fill a n v).owned = s.owned := rfl
@[simp] theorem State.fill_quiet (s : State) (a n : Nat) (v : Byte) : (s.fill a n v).quiet = s.quiet := rfl

/-! ### `wmb` -/

@[simp] theorem State.wmb_cfg (s : State) : (s.wmb).cfg = s.cfg := rfl
@[simp] theorem State.wmb_started (s : State) : (s.wmb).started = s.started := rfl
@[simp] theorem State.wmb_mode (s : State) : (s.wmb).mode = s.mode := rfl
@[simp] theorem State.wmb_fatal (s : State) : (s.wmb).fatal = s.fatal := rfl
@[simp] theorem State.wmb_qpTable (s : State) : (s.wmb).qpTable = s.qpTable := rfl
@[simp] theorem State.wmb_cqTable (s : State) : (s.wmb).cqTable = s.cqTable := rfl
@[simp] theorem State.wmb_srqTable (s : State) : (s.wmb).srqTable = s.srqTable := rfl
@[simp] theorem State.wmb_locks (s : State) : (s.wmb).locks = s.locks := rfl
@[simp] theorem State.wmb_dbRecFree (s : State) : (s.wmb).dbRecFree = s.dbRecFree := rfl
@[simp] theorem State.wmb_dbRecBase (s : State) : (s.wmb).dbRecBase = s.dbRecBase := rfl
@[simp] theorem State.wmb_dbRecUsed (s : State) : (s.wmb).dbRecUsed = s.dbRecUsed := rfl
@[simp] theorem State.wmb_qps (s : State) : (s.wmb).qps = s.qps := rfl
@[simp] theorem State.wmb_cqs (s : State) : (s.wmb).cqs = s.cqs := rfl
@[simp] theorem State.wmb_srqs (s : State) : (s.wmb).srqs = s.srqs := rfl
@[simp] theorem State.wmb_nextObj (s : State) : (s.wmb).nextObj = s.nextObj := rfl
@[simp] theorem State.wmb_mem (s : State) : (s.wmb).mem = s.mem := rfl
@[simp] theorem State.wmb_agents (s : State) : (s.wmb).agents = s.agents := rfl
@[simp] theorem State.wmb_cur (s : State) : (s.wmb).cur = s.cur := rfl
@[simp] theorem State.wmb_slice (s : State) : (s.wmb).slice = s.slice := rfl
@[simp] theorem State.wmb_inbox (s : State) : (s.wmb).inbox = s.inbox := rfl
@[simp] theorem State.wmb_eventQ (s : State) : (s.wmb).eventQ = s.eventQ := rfl
@[simp] theorem State.wmb_eventOut (s : State) : (s.wmb).eventOut = s.eventOut := rfl
@[simp] theorem State.wmb_fw (s : State) : (s.wmb).fw = s.fw := rfl
@[simp] theorem State.wmb_bus (s : State) : (s.wmb).bus = .wmb s.cur :: s.bus := rfl
@[simp] theorem State.wmb_owned (s : State) : (s.wmb).owned = s.owned := rfl
@[simp] theorem State.wmb_quiet (s : State) : (s.wmb).quiet = s.quiet := rfl

/-! ### `rmb` -/

@[simp] theorem State.rmb_cfg (s : State) : (s.rmb).cfg = s.cfg := rfl
@[simp] theorem State.rmb_started (s : State) : (s.rmb).started = s.started := rfl
@[simp] theorem State.rmb_mode (s : State) : (s.rmb).mode = s.mode := rfl
@[simp] theorem State.rmb_fatal (s : State) : (s.rmb).fatal = s.fatal := rfl
@[simp] theorem State.rmb_qpTable (s : State) : (s.rmb).qpTable = s.qpTable := rfl
@[simp] theorem State.rmb_cqTable (s : State) : (s.rmb).cqTable = s.cqTable := rfl
@[simp] theorem State.rmb_srqTable (s : State) : (s.rmb).srqTable = s.srqTable := rfl
@[simp] theorem State.rmb_locks (s : State) : (s.rmb).locks = s.locks := rfl
@[simp] theorem State.rmb_dbRecFree (s : State) : (s.rmb).dbRecFree = s.dbRecFree := rfl
@[simp] theorem State.rmb_dbRecBase (s : State) : (s.rmb).dbRecBase = s.dbRecBase := rfl
@[simp] theorem State.rmb_dbRecUsed (s : State) : (s.rmb).dbRecUsed = s.dbRecUsed := rfl
@[simp] theorem State.rmb_qps (s : State) : (s.rmb).qps = s.qps := rfl
@[simp] theorem State.rmb_cqs (s : State) : (s.rmb).cqs = s.cqs := rfl
@[simp] theorem State.rmb_srqs (s : State) : (s.rmb).srqs = s.srqs := rfl
@[simp] theorem State.rmb_nextObj (s : State) : (s.rmb).nextObj = s.nextObj := rfl
@[simp] theorem State.rmb_mem (s : State) : (s.rmb).mem = s.mem := rfl
@[simp] theorem State.rmb_agents (s : State) : (s.rmb).agents = s.agents := rfl
@[simp] theorem State.rmb_cur (s : State) : (s.rmb).cur = s.cur := rfl
@[simp] theorem State.rmb_slice (s : State) : (s.rmb).slice = s.slice := rfl
@[simp] theorem State.rmb_inbox (s : State) : (s.rmb).inbox = s.inbox := rfl
@[simp] theorem State.rmb_eventQ (s : State) : (s.rmb).eventQ = s.eventQ := rfl
@[simp] theorem State.rmb_eventOut (s : State) : (s.rmb).eventOut = s.eventOut := rfl
@[simp] theorem State.rmb_fw (s : State) : (s.rmb).fw = s.fw := rfl
@[simp] theorem State.rmb_bus (s : State) : (s.rmb).bus = .rmb s.cur :: s.bus := rfl
@[simp] theorem State.rmb_owned (s : State) : (s.rmb).owned = s.owned := rfl
@[simp] theorem State.rmb_quiet (s : State) : (s.rmb).quiet = s.quiet := rfl

/-! ### `mmio` -/

@[simp] theorem State.mmio_cfg (s : State) (off : BitVec 8) (w0 w1 : Word) : (s.mmio off w0 w1).cfg = s.cfg := rfl
@[simp] theorem State.mmio_started (s : State) (off : BitVec 8) (w0 w1 : Word) :
    (s.mmio off w0 w1).started = s.started := rfl
@[simp] theorem State.mmio_mode (s : State) (off : BitVec 8) (w0 w1 : Word) : (s.mmio off w0 w1).mode = s.mode := rfl
@[simp] theorem State.mmio_fatal (s : State) (off : BitVec 8) (w0 w1 : Word) : (s.mmio off w0 w1).fatal = s.fatal := rfl
@[simp] theorem State.mmio_qpTable (s : State) (off : BitVec 8) (w0 w1 : Word) :
    (s.mmio off w0 w1).qpTable = s.qpTable := rfl
@[simp] theorem State.mmio_cqTable (s : State) (off : BitVec 8) (w0 w1 : Word) :
    (s.mmio off w0 w1).cqTable = s.cqTable := rfl
@[simp] theorem State.mmio_srqTable (s : State) (off : BitVec 8) (w0 w1 : Word) :
    (s.mmio off w0 w1).srqTable = s.srqTable := rfl
@[simp] theorem State.mmio_locks (s : State) (off : BitVec 8) (w0 w1 : Word) : (s.mmio off w0 w1).locks = s.locks := rfl
@[simp] theorem State.mmio_dbRecFree (s : State) (off : BitVec 8) (w0 w1 : Word) :
    (s.mmio off w0 w1).dbRecFree = s.dbRecFree := rfl
@[simp] theorem State.mmio_dbRecBase (s : State) (off : BitVec 8) (w0 w1 : Word) :
    (s.mmio off w0 w1).dbRecBase = s.dbRecBase := rfl
@[simp] theorem State.mmio_dbRecUsed (s : State) (off : BitVec 8) (w0 w1 : Word) :
    (s.mmio off w0 w1).dbRecUsed = s.dbRecUsed := rfl
@[simp] theorem State.mmio_qps (s : State) (off : BitVec 8) (w0 w1 : Word) : (s.mmio off w0 w1).qps = s.qps := rfl
@[simp] theorem State.mmio_cqs (s : State) (off : BitVec 8) (w0 w1 : Word) : (s.mmio off w0 w1).cqs = s.cqs := rfl
@[simp] theorem State.mmio_srqs (s : State) (off : BitVec 8) (w0 w1 : Word) : (s.mmio off w0 w1).srqs = s.srqs := rfl
@[simp] theorem State.mmio_nextObj (s : State) (off : BitVec 8) (w0 w1 : Word) :
    (s.mmio off w0 w1).nextObj = s.nextObj := rfl
@[simp] theorem State.mmio_mem (s : State) (off : BitVec 8) (w0 w1 : Word) : (s.mmio off w0 w1).mem = s.mem := rfl
@[simp] theorem State.mmio_agents (s : State) (off : BitVec 8) (w0 w1 : Word) :
    (s.mmio off w0 w1).agents = s.agents := rfl
@[simp] theorem State.mmio_cur (s : State) (off : BitVec 8) (w0 w1 : Word) : (s.mmio off w0 w1).cur = s.cur := rfl
@[simp] theorem State.mmio_slice (s : State) (off : BitVec 8) (w0 w1 : Word) : (s.mmio off w0 w1).slice = s.slice := rfl
@[simp] theorem State.mmio_inbox (s : State) (off : BitVec 8) (w0 w1 : Word) : (s.mmio off w0 w1).inbox = s.inbox := rfl
@[simp] theorem State.mmio_eventQ (s : State) (off : BitVec 8) (w0 w1 : Word) :
    (s.mmio off w0 w1).eventQ = s.eventQ := rfl
@[simp] theorem State.mmio_eventOut (s : State) (off : BitVec 8) (w0 w1 : Word) :
    (s.mmio off w0 w1).eventOut = s.eventOut := rfl
@[simp] theorem State.mmio_fw (s : State) (off : BitVec 8) (w0 w1 : Word) : (s.mmio off w0 w1).fw = s.fw := rfl
@[simp] theorem State.mmio_bus (s : State) (off : BitVec 8) (w0 w1 : Word) :
    (s.mmio off w0 w1).bus = .mmio s.cur off w0 w1 :: s.bus := rfl
@[simp] theorem State.mmio_owned (s : State) (off : BitVec 8) (w0 w1 : Word) : (s.mmio off w0 w1).owned = s.owned := rfl
@[simp] theorem State.mmio_quiet (s : State) (off : BitVec 8) (w0 w1 : Word) : (s.mmio off w0 w1).quiet = s.quiet := rfl

/-! ### `ring` -/

@[simp] theorem State.ring_cfg (s : State) (reg : DbReg) (i : Instr) : (s.ring reg i).cfg = s.cfg := rfl
@[simp] theorem State.ring_started (s : State) (reg : DbReg) (i : Instr) : (s.ring reg i).started = s.started := rfl
@[simp] theorem State.ring_mode (s : State) (reg : DbReg) (i : Instr) : (s.ring reg i).mode = s.mode := rfl
@[simp] theorem State.ring_fatal (s : State) (reg : DbReg) (i : Instr) : (s.ring reg i).fatal = s.fatal := rfl
@[simp] theorem State.ring_qpTable (s : State) (reg : DbReg) (i : Instr) : (s.ring reg i).qpTable = s.qpTable := rfl
@[simp] theorem State.ring_cqTable (s : State) (reg : DbReg) (i : Instr) : (s.ring reg i).cqTable = s.cqTable := rfl
@[simp] theorem State.ring_srqTable (s : State) (reg : DbReg) (i : Instr) : (s.ring reg i).srqTable = s.srqTable := rfl
@[simp] theorem State.ring_locks (s : State) (reg : DbReg) (i : Instr) : (s.ring reg i).locks = s.locks := rfl
@[simp] theorem State.ring_dbRecFree (s : State) (reg : DbReg) (i : Instr) :
    (s.ring reg i).dbRecFree = s.dbRecFree := rfl
@[simp] theorem State.ring_dbRecBase (s : State) (reg : DbReg) (i : Instr) :
    (s.ring reg i).dbRecBase = s.dbRecBase := rfl
@[simp] theorem State.ring_dbRecUsed (s : State) (reg : DbReg) (i : Instr) :
    (s.ring reg i).dbRecUsed = s.dbRecUsed := rfl
@[simp] theorem State.ring_qps (s : State) (reg : DbReg) (i : Instr) : (s.ring reg i).qps = s.qps := rfl
@[simp] theorem State.ring_cqs (s : State) (reg : DbReg) (i : Instr) : (s.ring reg i).cqs = s.cqs := rfl
@[simp] theorem State.ring_srqs (s : State) (reg : DbReg) (i : Instr) : (s.ring reg i).srqs = s.srqs := rfl
@[simp] theorem State.ring_nextObj (s : State) (reg : DbReg) (i : Instr) : (s.ring reg i).nextObj = s.nextObj := rfl
@[simp] theorem State.ring_mem (s : State) (reg : DbReg) (i : Instr) : (s.ring reg i).mem = s.mem := rfl
@[simp] theorem State.ring_agents (s : State) (reg : DbReg) (i : Instr) : (s.ring reg i).agents = s.agents := rfl
@[simp] theorem State.ring_cur (s : State) (reg : DbReg) (i : Instr) : (s.ring reg i).cur = s.cur := rfl
@[simp] theorem State.ring_slice (s : State) (reg : DbReg) (i : Instr) : (s.ring reg i).slice = s.slice := rfl
@[simp] theorem State.ring_inbox (s : State) (reg : DbReg) (i : Instr) : (s.ring reg i).inbox = s.inbox := rfl
@[simp] theorem State.ring_eventQ (s : State) (reg : DbReg) (i : Instr) : (s.ring reg i).eventQ = s.eventQ := rfl
@[simp] theorem State.ring_eventOut (s : State) (reg : DbReg) (i : Instr) : (s.ring reg i).eventOut = s.eventOut := rfl
@[simp] theorem State.ring_fw (s : State) (reg : DbReg) (i : Instr) : (s.ring reg i).fw = s.fw := rfl
@[simp] theorem State.ring_bus (s : State) (reg : DbReg) (i : Instr) :
    (s.ring reg i).bus = .mmio s.cur (s.regOff reg) (doorbellWords i).1 (doorbellWords i).2 :: .wmb s.cur :: s.bus := rfl
@[simp] theorem State.ring_owned (s : State) (reg : DbReg) (i : Instr) : (s.ring reg i).owned = s.owned := rfl
@[simp] theorem State.ring_quiet (s : State) (reg : DbReg) (i : Instr) : (s.ring reg i).quiet = s.quiet := rfl

/-! ### `setQp` -/

@[simp] theorem State.setQp_cfg (s : State) (q : Nat) (x : Qp) : (s.setQp q x).cfg = s.cfg := rfl
@[simp] theorem State.setQp_started (s : State) (q : Nat) (x : Qp) : (s.setQp q x).started = s.started := rfl
@[simp] theorem State.setQp_mode (s : State) (q : Nat) (x : Qp) : (s.setQp q x).mode = s.mode := rfl
@[simp] theorem State.setQp_fatal (s : State) (q : Nat) (x : Qp) : (s.setQp q x).fatal = s.fatal := rfl
@[simp] theorem State.setQp_qpTable (s : State) (q : Nat) (x : Qp) : (s.setQp q x).qpTable = s.qpTable := rfl
@[simp] theorem State.setQp_cqTable (s : State) (q : Nat) (x : Qp) : (s.setQp q x).cqTable = s.cqTable := rfl
@[simp] theorem State.setQp_srqTable (s : State) (q : Nat) (x : Qp) : (s.setQp q x).srqTable = s.srqTable := rfl
@[simp] theorem State.setQp_locks (s : State) (q : Nat) (x : Qp) : (s.setQp q x).locks = s.locks := rfl
@[simp] theorem State.setQp_dbRecFree (s : State) (q : Nat) (x : Qp) : (s.setQp q x).dbRecFree = s.dbRecFree := rfl
@[simp] theorem State.setQp_dbRecBase (s : State) (q : Nat) (x : Qp) : (s.setQp q x).dbRecBase = s.dbRecBase := rfl
@[simp] theorem State.setQp_dbRecUsed (s : State) (q : Nat) (x : Qp) : (s.setQp q x).dbRecUsed = s.dbRecUsed := rfl
@[simp] theorem State.setQp_qps (s : State) (q : Nat) (x : Qp) : (s.setQp q x).qps = assocSet s.qps q x := rfl
@[simp] theorem State.setQp_cqs (s : State) (q : Nat) (x : Qp) : (s.setQp q x).cqs = s.cqs := rfl
@[simp] theorem State.setQp_srqs (s : State) (q : Nat) (x : Qp) : (s.setQp q x).srqs = s.srqs := rfl
@[simp] theorem State.setQp_nextObj (s : State) (q : Nat) (x : Qp) : (s.setQp q x).nextObj = s.nextObj := rfl
@[simp] theorem State.setQp_mem (s : State) (q : Nat) (x : Qp) : (s.setQp q x).mem = s.mem := rfl
@[simp] theorem State.setQp_agents (s : State) (q : Nat) (x : Qp) : (s.setQp q x).agents = s.agents := rfl
@[simp] theorem State.setQp_cur (s : State) (q : Nat) (x : Qp) : (s.setQp q x).cur = s.cur := rfl
@[simp] theorem State.setQp_slice (s : State) (q : Nat) (x : Qp) : (s.setQp q x).slice = s.slice := rfl
@[simp] theorem State.setQp_inbox (s : State) (q : Nat) (x : Qp) : (s.setQp q x).inbox = s.inbox := rfl
@[simp] theorem State.setQp_eventQ (s : State) (q : Nat) (x : Qp) : (s.setQp q x).eventQ = s.eventQ := rfl
@[simp] theorem State.setQp_eventOut (s : State) (q : Nat) (x : Qp) : (s.setQp q x).eventOut = s.eventOut := rfl
@[simp] theorem State.setQp_fw (s : State) (q : Nat) (x : Qp) : (s.setQp q x).fw = s.fw := rfl
@[simp] theorem State.setQp_bus (s : State) (q : Nat) (x : Qp) : (s.setQp q x).bus = s.bus := rfl
@[simp] theorem State.setQp_owned (s : State) (q : Nat) (x : Qp) : (s.setQp q x).owned = s.owned := rfl
@[simp] theorem State.setQp_quiet (s : State) (q : Nat) (x : Qp) : (s.setQp q x).quiet = s.quiet := rfl

/-! ### `setCq` -/

@[simp] theorem State.setCq_cfg (s : State) (c : Nat) (x : Cq) : (s.setCq c x).cfg = s.cfg := rfl
@[simp] theorem State.setCq_started (s : State) (c : Nat) (x : Cq) : (s.setCq c x).started = s.started := rfl
@[simp] theorem State.setCq_mode (s : State) (c : Nat) (x : Cq) : (s.setCq c x).mode = s.mode := rfl
@[simp] theorem State.setCq_fatal (s : State) (c : Nat) (x : Cq) : (s.setCq c x).fatal = s.fatal := rfl
@[simp] theorem State.setCq_qpTable (s : State) (c : Nat) (x : Cq) : (s.setCq c x).qpTable = s.qpTable := rfl
@[simp] theorem State.setCq_cqTable (s : State) (c : Nat) (x : Cq) : (s.setCq c x).cqTable = s.cqTable := rfl
@[simp] theorem State.setCq_srqTable (s : State) (c : Nat) (x : Cq) : (s.setCq c x).srqTable = s.srqTable := rfl
@[simp] theorem State.setCq_locks (s : State) (c : Nat) (x : Cq) : (s.setCq c x).locks = s.locks := rfl
@[simp] theorem State.setCq_dbRecFree (s : State) (c : Nat) (x : Cq) : (s.setCq c x).dbRecFree = s.dbRecFree := rfl
@[simp] theorem State.setCq_dbRecBase (s : State) (c : Nat) (x : Cq) : (s.setCq c x).dbRecBase = s.dbRecBase := rfl
@[simp] theorem State.setCq_dbRecUsed (s : State) (c : Nat) (x : Cq) : (s.setCq c x).dbRecUsed = s.dbRecUsed := rfl
@[simp] theorem State.setCq_qps (s : State) (c : Nat) (x : Cq) : (s.setCq c x).qps = s.qps := rfl
@[simp] theorem State.setCq_cqs (s : State) (c : Nat) (x : Cq) : (s.setCq c x).cqs = assocSet s.cqs c x := rfl
@[simp] theorem State.setCq_srqs (s : State) (c : Nat) (x : Cq) : (s.setCq c x).srqs = s.srqs := rfl
@[simp] theorem State.setCq_nextObj (s : State) (c : Nat) (x : Cq) : (s.setCq c x).nextObj = s.nextObj := rfl
@[simp] theorem State.setCq_mem (s : State) (c : Nat) (x : Cq) : (s.setCq c x).mem = s.mem := rfl
@[simp] theorem State.setCq_agents (s : State) (c : Nat) (x : Cq) : (s.setCq c x).agents = s.agents := rfl
@[simp] theorem State.setCq_cur (s : State) (c : Nat) (x : Cq) : (s.setCq c x).cur = s.cur := rfl
@[simp] theorem State.setCq_slice (s : State) (c : Nat) (x : Cq) : (s.setCq c x).slice = s.slice := rfl
@[simp] theorem State.setCq_inbox (s : State) (c : Nat) (x : Cq) : (s.setCq c x).inbox = s.inbox := rfl
@[simp] theorem State.setCq_eventQ (s : State) (c : Nat) (x : Cq) : (s.setCq c x).eventQ = s.eventQ := rfl
@[simp] theorem State.setCq_eventOut (s : State) (c : Nat) (x : Cq) : (s.setCq c x).eventOut = s.eventOut := rfl
@[simp] theorem State.setCq_fw (s : State) (c : Nat) (x : Cq) : (s.setCq c x).fw = s.fw := rfl
@[simp] theorem State.setCq_bus (s : State) (c : Nat) (x : Cq) : (s.setCq c x).bus = s.bus := rfl
@[simp] theorem State.setCq_owned (s : State) (c : Nat) (x : Cq) : (s.setCq c x).owned = s.owned := rfl
@[simp] theorem State.setCq_quiet (s : State) (c : Nat) (x : Cq) : (s.setCq c x).quiet = s.quiet := rfl

/-! ### `setSrq` -/

@[simp] theorem State.setSrq_cfg (s : State) (r : Nat) (x : Srq) : (s.setSrq r x).cfg = s.cfg := rfl
@[simp] theorem State.setSrq_started (s : State) (r : Nat) (x : Srq) : (s.setSrq r x).started = s.started := rfl
@[simp] theorem State.setSrq_mode (s : State) (r : Nat) (x : Srq) : (s.setSrq r x).mode = s.mode := rfl
@[simp] theorem State.setSrq_fatal (s : State) (r : Nat) (x : Srq) : (s.setSrq r x).fatal = s.fatal := rfl
@[simp] theorem State.setSrq_qpTable (s : State) (r : Nat) (x : Srq) : (s.setSrq r x).qpTable = s.qpTable := rfl
@[simp] theorem State.setSrq_cqTable (s : State) (r : Nat) (x : Srq) : (s.setSrq r x).cqTable = s.cqTable := rfl
@[simp] theorem State.setSrq_srqTable (s : State) (r : Nat) (x : Srq) : (s.setSrq r x).srqTable = s.srqTable := rfl
@[simp] theorem State.setSrq_locks (s : State) (r : Nat) (x : Srq) : (s.setSrq r x).locks = s.locks := rfl
@[simp] theorem State.setSrq_dbRecFree (s : State) (r : Nat) (x : Srq) : (s.setSrq r x).dbRecFree = s.dbRecFree := rfl
@[simp] theorem State.setSrq_dbRecBase (s : State) (r : Nat) (x : Srq) : (s.setSrq r x).dbRecBase = s.dbRecBase := rfl
@[simp] theorem State.setSrq_dbRecUsed (s : State) (r : Nat) (x : Srq) : (s.setSrq r x).dbRecUsed = s.dbRecUsed := rfl
@[simp] theorem State.setSrq_qps (s : State) (r : Nat) (x : Srq) : (s.setSrq r x).qps = s.qps := rfl
@[simp] theorem State.setSrq_cqs (s : State) (r : Nat) (x : Srq) : (s.setSrq r x).cqs = s.cqs := rfl
@[simp] theorem State.setSrq_srqs (s : State) (r : Nat) (x : Srq) : (s.setSrq r x).srqs = assocSet s.srqs r x := rfl
@[simp] theorem State.setSrq_nextObj (s : State) (r : Nat) (x : Srq) : (s.setSrq r x).nextObj = s.nextObj := rfl
@[simp] theorem State.setSrq_mem (s : State) (r : Nat) (x : Srq) : (s.setSrq r x).mem = s.mem := rfl
@[simp] theorem State.setSrq_agents (s : State) (r : Nat) (x : Srq) : (s.setSrq r x).agents = s.agents := rfl
@[simp] theorem State.setSrq_cur (s : State) (r : Nat) (x : Srq) : (s.setSrq r x).cur = s.cur := rfl
@[simp] theorem State.setSrq_slice (s : State) (r : Nat) (x : Srq) : (s.setSrq r x).slice = s.slice := rfl
@[simp] theorem State.setSrq_inbox (s : State) (r : Nat) (x : Srq) : (s.setSrq r x).inbox = s.inbox := rfl
@[simp] theorem State.setSrq_eventQ (s : State) (r : Nat) (x : Srq) : (s.setSrq r x).eventQ = s.eventQ := rfl
@[simp] theorem State.setSrq_eventOut (s : State) (r : Nat) (x : Srq) : (s.setSrq r x).eventOut = s.eventOut := rfl
@[simp] theorem State.setSrq_fw (s : State) (r : Nat) (x : Srq) : (s.setSrq r x).fw = s.fw := rfl
@[simp] theorem State.setSrq_bus (s : State) (r : Nat) (x : Srq) : (s.setSrq r x).bus = s.bus := rfl
@[simp] theorem State.setSrq_owned (s : State) (r : Nat) (x : Srq) : (s.setSrq r x).owned = s.owned := rfl
@[simp] theorem State.setSrq_quiet (s : State) (r : Nat) (x : Srq) : (s.setSrq r x).quiet = s.quiet := rfl

/-! ### `setMe` -/

@[simp] theorem State.setMe_cfg (s : State) (a : Agent) : (s.setMe a).cfg = s.cfg := rfl
@[simp] theorem State.setMe_started (s : State) (a : Agent) : (s.setMe a).started = s.started := rfl
@[simp] theorem State.setMe_mode (s : State) (a : Agent) : (s.setMe a).mode = s.mode := rfl
@[simp] theorem State.setMe_fatal (s : State) (a : Agent) : (s.setMe a).fatal = s.fatal := rfl
@[simp] theorem State.setMe_qpTable (s : State) (a : Agent) : (s.setMe a).qpTable = s.qpTable := rfl
@[simp] theorem State.setMe_cqTable (s : State) (a : Agent) : (s.setMe a).cqTable = s.cqTable := rfl
@[simp] theorem State.setMe_srqTable (s : State) (a : Agent) : (s.setMe a).srqTable = s.srqTable := rfl
@[simp] theorem State.setMe_locks (s : State) (a : Agent) : (s.setMe a).locks = s.locks := rfl
@[simp] theorem State.setMe_dbRecFree (s : State) (a : Agent) : (s.setMe a).dbRecFree = s.dbRecFree := rfl
@[simp] theorem State.setMe_dbRecBase (s : State) (a : Agent) : (s.setMe a).dbRecBase = s.dbRecBase := rfl
@[simp] theorem State.setMe_dbRecUsed (s : State) (a : Agent) : (s.setMe a).dbRecUsed = s.dbRecUsed := rfl
@[simp] theorem State.setMe_qps (s : State) (a : Agent) : (s.setMe a).qps = s.qps := rfl
@[simp] theorem State.setMe_cqs (s : State) (a : Agent) : (s.setMe a).cqs = s.cqs := rfl
@[simp] theorem State.setMe_srqs (s : State) (a : Agent) : (s.setMe a).srqs = s.srqs := rfl
@[simp] theorem State.setMe_nextObj (s : State) (a : Agent) : (s.setMe a).nextObj = s.nextObj := rfl
@[simp] theorem State.setMe_mem (s : State) (a : Agent) : (s.setMe a).mem = s.mem := rfl
@[simp] theorem State.setMe_agents (s : State) (a : Agent) : (s.setMe a).agents = assocSet s.agents s.cur a := rfl
@[simp] theorem State.setMe_cur (s : State) (a : Agent) : (s.setMe a).cur = s.cur := rfl
@[simp] theorem State.setMe_slice (s : State) (a : Agent) : (s.setMe a).slice = s.slice := rfl
@[simp] theorem State.setMe_inbox (s : State) (a : Agent) : (s.setMe a).inbox = s.inbox := rfl
@[simp] theorem State.setMe_eventQ (s : State) (a : Agent) : (s.setMe a).eventQ = s.eventQ := rfl
@[simp] theorem State.setMe_eventOut (s : State) (a : Agent) : (s.setMe a).eventOut = s.eventOut := rfl
@[simp] theorem State.setMe_fw (s : State) (a : Agent) : (s.setMe a).fw = s.fw := rfl
@[simp] theorem State.setMe_bus (s : State) (a : Agent) : (s.setMe a).bus = s.bus := rfl
@[simp] theorem State.setMe_owned (s : State) (a : Agent) : (s.setMe a).owned = s.owned := rfl
@[simp] theorem State.setMe_quiet (s : State) (a : Agent) : (s.setMe a).quiet = s.quiet := rfl

/-! ### `setResp` -/

@[simp] theorem State.setResp_cfg (s : State) (f : Response → Response) : (s.setResp f).cfg = s.cfg := rfl
@[simp] theorem State.setResp_started (s : State) (f : Response → Response) : (s.setResp f).started = s.started := rfl
@[simp] theorem State.setResp_mode (s : State) (f : Response → Response) : (s.setResp f).mode = s.mode := rfl
@[simp] theorem State.setResp_fatal (s : State) (f : Response → Response) : (s.setResp f).fatal = s.fatal := rfl
@[simp] theorem State.setResp_qpTable (s : State) (f : Response → Response) : (s.setResp f).qpTable = s.qpTable := rfl
@[simp] theorem State.setResp_cqTable (s : State) (f : Response → Response) : (s.setResp f).cqTable = s.cqTable := rfl
@[simp] theorem State.setResp_srqTable (s : State) (f : Response → Response) :
    (s.setResp f).srqTable = s.srqTable := rfl
@[simp] theorem State.setResp_locks (s : State) (f : Response → Response) : (s.setResp f).locks = s.locks := rfl
@[simp] theorem State.setResp_dbRecFree (s : State) (f : Response → Response) :
    (s.setResp f).dbRecFree = s.dbRecFree := rfl
@[simp] theorem State.setResp_dbRecBase (s : State) (f : Response → Response) :
    (s.setResp f).dbRecBase = s.dbRecBase := rfl
@[simp] theorem State.setResp_dbRecUsed (s : State) (f : Response → Response) :
    (s.setResp f).dbRecUsed = s.dbRecUsed := rfl
@[simp] theorem State.setResp_qps (s : State) (f : Response → Response) : (s.setResp f).qps = s.qps := rfl
@[simp] theorem State.setResp_cqs (s : State) (f : Response → Response) : (s.setResp f).cqs = s.cqs := rfl
@[simp] theorem State.setResp_srqs (s : State) (f : Response → Response) : (s.setResp f).srqs = s.srqs := rfl
@[simp] theorem State.setResp_nextObj (s : State) (f : Response → Response) : (s.setResp f).nextObj = s.nextObj := rfl
@[simp] theorem State.setResp_mem (s : State) (f : Response → Response) : (s.setResp f).mem = s.mem := rfl
@[simp] theorem State.setResp_agents (s : State) (f : Response → Response) :
    (s.setResp f).agents = assocSet s.agents s.cur { s.me with resp := f s.me.resp } := rfl
@[simp] theorem State.setResp_cur (s : State) (f : Response → Response) : (s.setResp f).cur = s.cur := rfl
@[simp] theorem State.setResp_slice (s : State) (f : Response → Response) : (s.setResp f).slice = s.slice := rfl
@[simp] theorem State.setResp_inbox (s : State) (f : Response → Response) : (s.setResp f).inbox = s.inbox := rfl
@[simp] theorem State.setResp_eventQ (s : State) (f : Response → Response) : (s.setResp f).eventQ = s.eventQ := rfl
@[simp] theorem State.setResp_eventOut (s : State) (f : Response → Response) :
    (s.setResp f).eventOut = s.eventOut := rfl
@[simp] theorem State.setResp_fw (s : State) (f : Response → Response) : (s.setResp f).fw = s.fw := rfl
@[simp] theorem State.setResp_bus (s : State) (f : Response → Response) : (s.setResp f).bus = s.bus := rfl
@[simp] theorem State.setResp_owned (s : State) (f : Response → Response) : (s.setResp f).owned = s.owned := rfl
@[simp] theorem State.setResp_quiet (s : State) (f : Response → Response) : (s.setResp f).quiet = s.quiet := rfl

/-! ### `setBatch` -/

@[simp] theorem State.setBatch_cfg (s : State) (b : Batch) : (s.setBatch b).cfg = s.cfg := rfl
@[simp] theorem State.setBatch_started (s : State) (b : Batch) : (s.setBatch b).started = s.started := rfl
@[simp] theorem State.setBatch_mode (s : State) (b : Batch) : (s.setBatch b).mode = s.mode := rfl
@[simp] theorem State.setBatch_fatal (s : State) (b : Batch) : (s.setBatch b).fatal = s.fatal := rfl
@[simp] theorem State.setBatch_qpTable (s : State) (b : Batch) : (s.setBatch b).qpTable = s.qpTable := rfl
@[simp] theorem State.setBatch_cqTable (s : State) (b : Batch) : (s.setBatch b).cqTable = s.cqTable := rfl
@[simp] theorem State.setBatch_srqTable (s : State) (b : Batch) : (s.setBatch b).srqTable = s.srqTable := rfl
@[simp] theorem State.setBatch_locks (s : State) (b : Batch) : (s.setBatch b).locks = s.locks := rfl
@[simp] theorem State.setBatch_dbRecFree (s : State) (b : Batch) : (s.setBatch b).dbRecFree = s.dbRecFree := rfl
@[simp] theorem State.setBatch_dbRecBase (s : State) (b : Batch) : (s.setBatch b).dbRecBase = s.dbRecBase := rfl
@[simp] theorem State.setBatch_dbRecUsed (s : State) (b : Batch) : (s.setBatch b).dbRecUsed = s.dbRecUsed := rfl
@[simp] theorem State.setBatch_qps (s : State) (b : Batch) : (s.setBatch b).qps = s.qps := rfl
@[simp] theorem State.setBatch_cqs (s : State) (b : Batch) : (s.setBatch b).cqs = s.cqs := rfl
@[simp] theorem State.setBatch_srqs (s : State) (b : Batch) : (s.setBatch b).srqs = s.srqs := rfl
@[simp] theorem State.setBatch_nextObj (s : State) (b : Batch) : (s.setBatch b).nextObj = s.nextObj := rfl
@[simp] theorem State.setBatch_mem (s : State) (b : Batch) : (s.setBatch b).mem = s.mem := rfl
@[simp] theorem State.setBatch_agents (s : State) (b : Batch) :
    (s.setBatch b).agents = assocSet s.agents s.cur { s.me with batch := b } := rfl
@[simp] theorem State.setBatch_cur (s : State) (b : Batch) : (s.setBatch b).cur = s.cur := rfl
@[simp] theorem State.setBatch_slice (s : State) (b : Batch) : (s.setBatch b).slice = s.slice := rfl
@[simp] theorem State.setBatch_inbox (s : State) (b : Batch) : (s.setBatch b).inbox = s.inbox := rfl
@[simp] theorem State.setBatch_eventQ (s : State) (b : Batch) : (s.setBatch b).eventQ = s.eventQ := rfl
@[simp] theorem State.setBatch_eventOut (s : State) (b : Batch) : (s.setBatch b).eventOut = s.eventOut := rfl
@[simp] theorem State.setBatch_fw (s : State) (b : Batch) : (s.setBatch b).fw = s.fw := rfl
@[simp] theorem State.setBatch_bus (s : State) (b : Batch) : (s.setBatch b).bus = s.bus := rfl
@[simp] theorem State.setBatch_owned (s : State) (b : Batch) : (s.setBatch b).owned = s.owned := rfl
@[simp] theorem State.setBatch_quiet (s : State) (b : Batch) : (s.setBatch b).quiet = s.quiet := rfl

/-! ### `hold` -/

@[simp] theorem State.hold_cfg (s : State) (b : Option (Nat × Nat)) : (s.hold b).cfg = s.cfg := rfl
@[simp] theorem State.hold_started (s : State) (b : Option (Nat × Nat)) : (s.hold b).started = s.started := rfl
@[simp] theorem State.hold_mode (s : State) (b : Option (Nat × Nat)) : (s.hold b).mode = s.mode := rfl
@[simp] theorem State.hold_fatal (s : State) (b : Option (Nat × Nat)) : (s.hold b).fatal = s.fatal := rfl
@[simp] theorem State.hold_qpTable (s : State) (b : Option (Nat × Nat)) : (s.hold b).qpTable = s.qpTable := rfl
@[simp] theorem State.hold_cqTable (s : State) (b : Option (Nat × Nat)) : (s.hold b).cqTable = s.cqTable := rfl
@[simp] theorem State.hold_srqTable (s : State) (b : Option (Nat × Nat)) : (s.hold b).srqTable = s.srqTable := rfl
@[simp] theorem State.hold_locks (s : State) (b : Option (Nat × Nat)) : (s.hold b).locks = s.locks := rfl
@[simp] theorem State.hold_dbRecFree (s : State) (b : Option (Nat × Nat)) : (s.hold b).dbRecFree = s.dbRecFree := rfl
@[simp] theorem State.hold_dbRecBase (s : State) (b : Option (Nat × Nat)) : (s.hold b).dbRecBase = s.dbRecBase := rfl
@[simp] theorem State.hold_dbRecUsed (s : State) (b : Option (Nat × Nat)) : (s.hold b).dbRecUsed = s.dbRecUsed := rfl
@[simp] theorem State.hold_qps (s : State) (b : Option (Nat × Nat)) : (s.hold b).qps = s.qps := rfl
@[simp] theorem State.hold_cqs (s : State) (b : Option (Nat × Nat)) : (s.hold b).cqs = s.cqs := rfl
@[simp] theorem State.hold_srqs (s : State) (b : Option (Nat × Nat)) : (s.hold b).srqs = s.srqs := rfl
@[simp] theorem State.hold_nextObj (s : State) (b : Option (Nat × Nat)) : (s.hold b).nextObj = s.nextObj := rfl
@[simp] theorem State.hold_mem (s : State) (b : Option (Nat × Nat)) : (s.hold b).mem = s.mem := rfl
@[simp] theorem State.hold_agents (s : State) (b : Option (Nat × Nat)) :
    (s.hold b).agents = assocSet s.agents s.cur { s.me with freed := b.toList ++ s.me.freed } := rfl
@[simp] theorem State.hold_cur (s : State) (b : Option (Nat × Nat)) : (s.hold b).cur = s.cur := rfl
@[simp] theorem State.hold_slice (s : State) (b : Option (Nat × Nat)) : (s.hold b).slice = s.slice := rfl
@[simp] theorem State.hold_inbox (s : State) (b : Option (Nat × Nat)) : (s.hold b).inbox = s.inbox := rfl
@[simp] theorem State.hold_eventQ (s : State) (b : Option (Nat × Nat)) : (s.hold b).eventQ = s.eventQ := rfl
@[simp] theorem State.hold_eventOut (s : State) (b : Option (Nat × Nat)) : (s.hold b).eventOut = s.eventOut := rfl
@[simp] theorem State.hold_fw (s : State) (b : Option (Nat × Nat)) : (s.hold b).fw = s.fw := rfl
@[simp] theorem State.hold_bus (s : State) (b : Option (Nat × Nat)) : (s.hold b).bus = s.bus := rfl
@[simp] theorem State.hold_owned (s : State) (b : Option (Nat × Nat)) : (s.hold b).owned = s.owned := rfl
@[simp] theorem State.hold_quiet (s : State) (b : Option (Nat × Nat)) : (s.hold b).quiet = s.quiet := rfl

/-! ### `beginCmd` -/

@[simp] theorem State.beginCmd_cfg (s : State) (i : Instr) : (s.beginCmd i).cfg = s.cfg := rfl
@[simp] theorem State.beginCmd_started (s : State) (i : Instr) : (s.beginCmd i).started = s.started := rfl
@[simp] theorem State.beginCmd_mode (s : State) (i : Instr) : (s.beginCmd i).mode = s.mode := rfl
@[simp] theorem State.beginCmd_fatal (s : State) (i : Instr) : (s.beginCmd i).fatal = s.fatal := rfl
@[simp] theorem State.beginCmd_qpTable (s : State) (i : Instr) : (s.beginCmd i).qpTable = s.qpTable := rfl
@[simp] theorem State.beginCmd_cqTable (s : State) (i : Instr) : (s.beginCmd i).cqTable = s.cqTable := rfl
@[simp] theorem State.beginCmd_srqTable (s : State) (i : Instr) : (s.beginCmd i).srqTable = s.srqTable := rfl
@[simp] theorem State.beginCmd_locks (s : State) (i : Instr) : (s.beginCmd i).locks = s.locks := rfl
@[simp] theorem State.beginCmd_dbRecFree (s : State) (i : Instr) : (s.beginCmd i).dbRecFree = s.dbRecFree := rfl
@[simp] theorem State.beginCmd_dbRecBase (s : State) (i : Instr) : (s.beginCmd i).dbRecBase = s.dbRecBase := rfl
@[simp] theorem State.beginCmd_dbRecUsed (s : State) (i : Instr) : (s.beginCmd i).dbRecUsed = s.dbRecUsed := rfl
@[simp] theorem State.beginCmd_qps (s : State) (i : Instr) : (s.beginCmd i).qps = s.qps := rfl
@[simp] theorem State.beginCmd_cqs (s : State) (i : Instr) : (s.beginCmd i).cqs = s.cqs := rfl
@[simp] theorem State.beginCmd_srqs (s : State) (i : Instr) : (s.beginCmd i).srqs = s.srqs := rfl
@[simp] theorem State.beginCmd_nextObj (s : State) (i : Instr) : (s.beginCmd i).nextObj = s.nextObj := rfl
@[simp] theorem State.beginCmd_mem (s : State) (i : Instr) : (s.beginCmd i).mem = s.mem := rfl
@[simp] theorem State.beginCmd_agents (s : State) (i : Instr) :
    (s.beginCmd i).agents = assocSet s.agents s.cur { op := s.me.op, cmd := some i } := rfl
@[simp] theorem State.beginCmd_cur (s : State) (i : Instr) : (s.beginCmd i).cur = s.cur := rfl
@[simp] theorem State.beginCmd_slice (s : State) (i : Instr) : (s.beginCmd i).slice = s.slice := rfl
@[simp] theorem State.beginCmd_inbox (s : State) (i : Instr) : (s.beginCmd i).inbox = s.inbox := rfl
@[simp] theorem State.beginCmd_eventQ (s : State) (i : Instr) : (s.beginCmd i).eventQ = s.eventQ := rfl
@[simp] theorem State.beginCmd_eventOut (s : State) (i : Instr) : (s.beginCmd i).eventOut = s.eventOut := rfl
@[simp] theorem State.beginCmd_fw (s : State) (i : Instr) : (s.beginCmd i).fw = s.fw := rfl
@[simp] theorem State.beginCmd_bus (s : State) (i : Instr) : (s.beginCmd i).bus = s.bus := rfl
@[simp] theorem State.beginCmd_owned (s : State) (i : Instr) : (s.beginCmd i).owned = s.owned := rfl
@[simp] theorem State.beginCmd_quiet (s : State) (i : Instr) : (s.beginCmd i).quiet = s.quiet := rfl

/-! ### `endCmd` -/

@[simp] theorem State.endCmd_cfg (s : State) : (s.endCmd).cfg = s.cfg := rfl
@[simp] theorem State.endCmd_started (s : State) : (s.endCmd).started = s.started := rfl
@[simp] theorem State.endCmd_mode (s : State) : (s.endCmd).mode = s.mode := rfl
@[simp] theorem State.endCmd_fatal (s : State) : (s.endCmd).fatal = s.fatal := rfl
@[simp] theorem State.endCmd_qpTable (s : State) : (s.endCmd).qpTable = s.qpTable := rfl
@[simp] theorem State.endCmd_cqTable (s : State) : (s.endCmd).cqTable = s.cqTable := rfl
@[simp] theorem State.endCmd_srqTable (s : State) : (s.endCmd).srqTable = s.srqTable := rfl
@[simp] theorem State.endCmd_locks (s : State) : (s.endCmd).locks = s.locks := rfl
@[simp] theorem State.endCmd_dbRecFree (s : State) : (s.endCmd).dbRecFree = s.dbRecFree := rfl
@[simp] theorem State.endCmd_dbRecBase (s : State) : (s.endCmd).dbRecBase = s.dbRecBase := rfl
@[simp] theorem State.endCmd_dbRecUsed (s : State) : (s.endCmd).dbRecUsed = s.dbRecUsed := rfl
@[simp] theorem State.endCmd_qps (s : State) : (s.endCmd).qps = s.qps := rfl
@[simp] theorem State.endCmd_cqs (s : State) : (s.endCmd).cqs = s.cqs := rfl
@[simp] theorem State.endCmd_srqs (s : State) : (s.endCmd).srqs = s.srqs := rfl
@[simp] theorem State.endCmd_nextObj (s : State) : (s.endCmd).nextObj = s.nextObj := rfl
@[simp] theorem State.endCmd_mem (s : State) : (s.endCmd).mem = s.mem := rfl
@[simp] theorem State.endCmd_agents (s : State) :
    (s.endCmd).agents = assocSet s.agents s.cur { op := s.me.op, resp := s.me.resp } := rfl
@[simp] theorem State.endCmd_cur (s : State) : (s.endCmd).cur = s.cur := rfl
@[simp] theorem State.endCmd_slice (s : State) : (s.endCmd).slice = s.slice := rfl
@[simp] theorem State.endCmd_inbox (s : State) : (s.endCmd).inbox = s.inbox := rfl
@[simp] theorem State.endCmd_eventQ (s : State) : (s.endCmd).eventQ = s.eventQ := rfl
@[simp] theorem State.endCmd_eventOut (s : State) : (s.endCmd).eventOut = s.eventOut := rfl
@[simp] theorem State.endCmd_fw (s : State) : (s.endCmd).fw = s.fw := rfl
@[simp] theorem State.endCmd_bus (s : State) : (s.endCmd).bus = .commandEnd s.cur :: s.bus := rfl
@[simp] theorem State.endCmd_owned (s : State) : (s.endCmd).owned = s.owned := rfl
@[simp] theorem State.endCmd_quiet (s : State) : (s.endCmd).quiet = s.quiet := rfl

/-! ### `park` -/

@[simp] theorem State.park_cfg (s : State) (log : List Nat) : (s.park log).cfg = s.cfg := rfl
@[simp] theorem State.park_started (s : State) (log : List Nat) : (s.park log).started = s.started := rfl
@[simp] theorem State.park_mode (s : State) (log : List Nat) : (s.park log).mode = s.mode := rfl
@[simp] theorem State.park_fatal (s : State) (log : List Nat) : (s.park log).fatal = s.fatal := rfl
@[simp] theorem State.park_qpTable (s : State) (log : List Nat) : (s.park log).qpTable = s.qpTable := rfl
@[simp] theorem State.park_cqTable (s : State) (log : List Nat) : (s.park log).cqTable = s.cqTable := rfl
@[simp] theorem State.park_srqTable (s : State) (log : List Nat) : (s.park log).srqTable = s.srqTable := rfl
@[simp] theorem State.park_locks (s : State) (log : List Nat) : (s.park log).locks = s.locks := rfl
@[simp] theorem State.park_dbRecFree (s : State) (log : List Nat) : (s.park log).dbRecFree = s.dbRecFree := rfl
@[simp] theorem State.park_dbRecBase (s : State) (log : List Nat) : (s.park log).dbRecBase = s.dbRecBase := rfl
@[simp] theorem State.park_dbRecUsed (s : State) (log : List Nat) : (s.park log).dbRecUsed = s.dbRecUsed := rfl
@[simp] theorem State.park_qps (s : State) (log : List Nat) : (s.park log).qps = s.qps := rfl
@[simp] theorem State.park_cqs (s : State) (log : List Nat) : (s.park log).cqs = s.cqs := rfl
@[simp] theorem State.park_srqs (s : State) (log : List Nat) : (s.park log).srqs = s.srqs := rfl
@[simp] theorem State.park_nextObj (s : State) (log : List Nat) : (s.park log).nextObj = s.nextObj := rfl
@[simp] theorem State.park_mem (s : State) (log : List Nat) : (s.park log).mem = s.mem := rfl
@[simp] theorem State.park_agents (s : State) (log : List Nat) :
    (s.park log).agents = assocSet s.agents s.cur { s.me with log := log } := rfl
@[simp] theorem State.park_cur (s : State) (log : List Nat) : (s.park log).cur = s.cur := rfl
@[simp] theorem State.park_slice (s : State) (log : List Nat) : (s.park log).slice = s.slice := rfl
@[simp] theorem State.park_inbox (s : State) (log : List Nat) : (s.park log).inbox = s.inbox := rfl
@[simp] theorem State.park_eventQ (s : State) (log : List Nat) : (s.park log).eventQ = s.eventQ := rfl
@[simp] theorem State.park_eventOut (s : State) (log : List Nat) : (s.park log).eventOut = s.eventOut := rfl
@[simp] theorem State.park_fw (s : State) (log : List Nat) : (s.park log).fw = s.fw := rfl
@[simp] theorem State.park_bus (s : State) (log : List Nat) : (s.park log).bus = s.bus := rfl
@[simp] theorem State.park_owned (s : State) (log : List Nat) : (s.park log).owned = s.owned := rfl
@[simp] theorem State.park_quiet (s : State) (log : List Nat) : (s.park log).quiet = s.quiet := rfl

/-! ### `emit` -/

@[simp] theorem State.emit_cfg (s : State) (e : EventRec) : (s.emit e).cfg = s.cfg := rfl
@[simp] theorem State.emit_started (s : State) (e : EventRec) : (s.emit e).started = s.started := rfl
@[simp] theorem State.emit_mode (s : State) (e : EventRec) : (s.emit e).mode = s.mode := rfl
@[simp] theorem State.emit_fatal (s : State) (e : EventRec) : (s.emit e).fatal = s.fatal := rfl
@[simp] theorem State.emit_qpTable (s : State) (e : EventRec) : (s.emit e).qpTable = s.qpTable := rfl
@[simp] theorem State.emit_cqTable (s : State) (e : EventRec) : (s.emit e).cqTable = s.cqTable := rfl
@[simp] theorem State.emit_srqTable (s : State) (e : EventRec) : (s.emit e).srqTable = s.srqTable := rfl
@[simp] theorem State.emit_locks (s : State) (e : EventRec) : (s.emit e).locks = s.locks := rfl
@[simp] theorem State.emit_dbRecFree (s : State) (e : EventRec) : (s.emit e).dbRecFree = s.dbRecFree := rfl
@[simp] theorem State.emit_dbRecBase (s : State) (e : EventRec) : (s.emit e).dbRecBase = s.dbRecBase := rfl
@[simp] theorem State.emit_dbRecUsed (s : State) (e : EventRec) : (s.emit e).dbRecUsed = s.dbRecUsed := rfl
@[simp] theorem State.emit_qps (s : State) (e : EventRec) : (s.emit e).qps = s.qps := rfl
@[simp] theorem State.emit_cqs (s : State) (e : EventRec) : (s.emit e).cqs = s.cqs := rfl
@[simp] theorem State.emit_srqs (s : State) (e : EventRec) : (s.emit e).srqs = s.srqs := rfl
@[simp] theorem State.emit_nextObj (s : State) (e : EventRec) : (s.emit e).nextObj = s.nextObj := rfl
@[simp] theorem State.emit_mem (s : State) (e : EventRec) : (s.emit e).mem = s.mem := rfl
@[simp] theorem State.emit_agents (s : State) (e : EventRec) : (s.emit e).agents = s.agents := rfl
@[simp] theorem State.emit_cur (s : State) (e : EventRec) : (s.emit e).cur = s.cur := rfl
@[simp] theorem State.emit_slice (s : State) (e : EventRec) : (s.emit e).slice = s.slice := rfl
@[simp] theorem State.emit_inbox (s : State) (e : EventRec) : (s.emit e).inbox = s.inbox := rfl
@[simp] theorem State.emit_eventQ (s : State) (e : EventRec) : (s.emit e).eventQ = s.eventQ := rfl
@[simp] theorem State.emit_eventOut (s : State) (e : EventRec) : (s.emit e).eventOut = s.eventOut ++ [e] := rfl
@[simp] theorem State.emit_fw (s : State) (e : EventRec) : (s.emit e).fw = s.fw := rfl
@[simp] theorem State.emit_bus (s : State) (e : EventRec) : (s.emit e).bus = s.bus := rfl
@[simp] theorem State.emit_owned (s : State) (e : EventRec) : (s.emit e).owned = s.owned := rfl
@[simp] theorem State.emit_quiet (s : State) (e : EventRec) : (s.emit e).quiet = s.quiet := rfl

/-! ### `eraseQp` -/

@[simp] theorem State.eraseQp_cfg (s : State) (q : Nat) : (s.eraseQp q).cfg = s.cfg := rfl
@[simp] theorem State.eraseQp_started (s : State) (q : Nat) : (s.eraseQp q).started = s.started := rfl
@[simp] theorem State.eraseQp_mode (s : State) (q : Nat) : (s.eraseQp q).mode = s.mode := rfl
@[simp] theorem State.eraseQp_fatal (s : State) (q : Nat) : (s.eraseQp q).fatal = s.fatal := rfl
@[simp] theorem State.eraseQp_qpTable (s : State) (q : Nat) : (s.eraseQp q).qpTable = s.qpTable := rfl
@[simp] theorem State.eraseQp_cqTable (s : State) (q : Nat) : (s.eraseQp q).cqTable = s.cqTable := rfl
@[simp] theorem State.eraseQp_srqTable (s : State) (q : Nat) : (s.eraseQp q).srqTable = s.srqTable := rfl
@[simp] theorem State.eraseQp_locks (s : State) (q : Nat) : (s.eraseQp q).locks = s.locks := rfl
@[simp] theorem State.eraseQp_dbRecFree (s : State) (q : Nat) : (s.eraseQp q).dbRecFree = s.dbRecFree := rfl
@[simp] theorem State.eraseQp_dbRecBase (s : State) (q : Nat) : (s.eraseQp q).dbRecBase = s.dbRecBase := rfl
@[simp] theorem State.eraseQp_dbRecUsed (s : State) (q : Nat) : (s.eraseQp q).dbRecUsed = s.dbRecUsed := rfl
@[simp] theorem State.eraseQp_qps (s : State) (q : Nat) : (s.eraseQp q).qps = assocDel s.qps q := rfl
@[simp] theorem State.eraseQp_cqs (s : State) (q : Nat) : (s.eraseQp q).cqs = s.cqs := rfl
@[simp] theorem State.eraseQp_srqs (s : State) (q : Nat) : (s.eraseQp q).srqs = s.srqs := rfl
@[simp] theorem State.eraseQp_nextObj (s : State) (q : Nat) : (s.eraseQp q).nextObj = s.nextObj := rfl
@[simp] theorem State.eraseQp_mem (s : State) (q : Nat) : (s.eraseQp q).mem = s.mem := rfl
@[simp] theorem State.eraseQp_agents (s : State) (q : Nat) : (s.eraseQp q).agents = s.agents := rfl
@[simp] theorem State.eraseQp_cur (s : State) (q : Nat) : (s.eraseQp q).cur = s.cur := rfl
@[simp] theorem State.eraseQp_slice (s : State) (q : Nat) : (s.eraseQp q).slice = s.slice := rfl
@[simp] theorem State.eraseQp_inbox (s : State) (q : Nat) : (s.eraseQp q).inbox = s.inbox := rfl
@[simp] theorem State.eraseQp_eventQ (s : State) (q : Nat) : (s.eraseQp q).eventQ = s.eventQ := rfl
@[simp] theorem State.eraseQp_eventOut (s : State) (q : Nat) : (s.eraseQp q).eventOut = s.eventOut := rfl
@[simp] theorem State.eraseQp_fw (s : State) (q : Nat) : (s.eraseQp q).fw = s.fw := rfl
@[simp] theorem State.eraseQp_bus (s : State) (q : Nat) : (s.eraseQp q).bus = s.bus := rfl
@[simp] theorem State.eraseQp_owned (s : State) (q : Nat) : (s.eraseQp q).owned = s.owned := rfl
@[simp] theorem State.eraseQp_quiet (s : State) (q : Nat) : (s.eraseQp q).quiet = s.quiet := rfl

/-! ### `eraseCq` -/

@[simp] theorem State.eraseCq_cfg (s : State) (c : Nat) : (s.eraseCq c).cfg = s.cfg := rfl
@[simp] theorem State.eraseCq_started (s : State) (c : Nat) : (s.eraseCq c).started = s.started := rfl
@[simp] theorem State.eraseCq_mode (s : State) (c : Nat) : (s.eraseCq c).mode = s.mode := rfl
@[simp] theorem State.eraseCq_fatal (s : State) (c : Nat) : (s.eraseCq c).fatal = s.fatal := rfl
@[simp] theorem State.eraseCq_qpTable (s : State) (c : Nat) : (s.eraseCq c).qpTable = s.qpTable := rfl
@[simp] theorem State.eraseCq_cqTable (s : State) (c : Nat) : (s.eraseCq c).cqTable = s.cqTable := rfl
@[simp] theorem State.eraseCq_srqTable (s : State) (c : Nat) : (s.eraseCq c).srqTable = s.srqTable := rfl
@[simp] theorem State.eraseCq_locks (s : State) (c : Nat) : (s.eraseCq c).locks = s.locks := rfl
@[simp] theorem State.eraseCq_dbRecFree (s : State) (c : Nat) : (s.eraseCq c).dbRecFree = s.dbRecFree := rfl
@[simp] theorem State.eraseCq_dbRecBase (s : State) (c : Nat) : (s.eraseCq c).dbRecBase = s.dbRecBase := rfl
@[simp] theorem State.eraseCq_dbRecUsed (s : State) (c : Nat) : (s.eraseCq c).dbRecUsed = s.dbRecUsed := rfl
@[simp] theorem State.eraseCq_qps (s : State) (c : Nat) : (s.eraseCq c).qps = s.qps := rfl
@[simp] theorem State.eraseCq_cqs (s : State) (c : Nat) : (s.eraseCq c).cqs = assocDel s.cqs c := rfl
@[simp] theorem State.eraseCq_srqs (s : State) (c : Nat) : (s.eraseCq c).srqs = s.srqs := rfl
@[simp] theorem State.eraseCq_nextObj (s : State) (c : Nat) : (s.eraseCq c).nextObj = s.nextObj := rfl
@[simp] theorem State.eraseCq_mem (s : State) (c : Nat) : (s.eraseCq c).mem = s.mem := rfl
@[simp] theorem State.eraseCq_agents (s : State) (c : Nat) : (s.eraseCq c).agents = s.agents := rfl
@[simp] theorem State.eraseCq_cur (s : State) (c : Nat) : (s.eraseCq c).cur = s.cur := rfl
@[simp] theorem State.eraseCq_slice (s : State) (c : Nat) : (s.eraseCq c).slice = s.slice := rfl
@[simp] theorem State.eraseCq_inbox (s : State) (c : Nat) : (s.eraseCq c).inbox = s.inbox := rfl
@[simp] theorem State.eraseCq_eventQ (s : State) (c : Nat) : (s.eraseCq c).eventQ = s.eventQ := rfl
@[simp] theorem State.eraseCq_eventOut (s : State) (c : Nat) : (s.eraseCq c).eventOut = s.eventOut := rfl
@[simp] theorem State.eraseCq_fw (s : State) (c : Nat) : (s.eraseCq c).fw = s.fw := rfl
@[simp] theorem State.eraseCq_bus (s : State) (c : Nat) : (s.eraseCq c).bus = s.bus := rfl
@[simp] theorem State.eraseCq_owned (s : State) (c : Nat) : (s.eraseCq c).owned = s.owned := rfl
@[simp] theorem State.eraseCq_quiet (s : State) (c : Nat) : (s.eraseCq c).quiet = s.quiet := rfl

/-! ### `eraseSrq` -/

@[simp] theorem State.eraseSrq_cfg (s : State) (r : Nat) : (s.eraseSrq r).cfg = s.cfg := rfl
@[simp] theorem State.eraseSrq_started (s : State) (r : Nat) : (s.eraseSrq r).started = s.started := rfl
@[simp] theorem State.eraseSrq_mode (s : State) (r : Nat) : (s.eraseSrq r).mode = s.mode := rfl
@[simp] theorem State.eraseSrq_fatal (s : State) (r : Nat) : (s.eraseSrq r).fatal = s.fatal := rfl
@[simp] theorem State.eraseSrq_qpTable (s : State) (r : Nat) : (s.eraseSrq r).qpTable = s.qpTable := rfl
@[simp] theorem State.eraseSrq_cqTable (s : State) (r : Nat) : (s.eraseSrq r).cqTable = s.cqTable := rfl
@[simp] theorem State.eraseSrq_srqTable (s : State) (r : Nat) : (s.eraseSrq r).srqTable = s.srqTable := rfl
@[simp] theorem State.eraseSrq_locks (s : State) (r : Nat) : (s.eraseSrq r).locks = s.locks := rfl
@[simp] theorem State.eraseSrq_dbRecFree (s : State) (r : Nat) : (s.eraseSrq r).dbRecFree = s.dbRecFree := rfl
@[simp] theorem State.eraseSrq_dbRecBase (s : State) (r : Nat) : (s.eraseSrq r).dbRecBase = s.dbRecBase := rfl
@[simp] theorem State.eraseSrq_dbRecUsed (s : State) (r : Nat) : (s.eraseSrq r).dbRecUsed = s.dbRecUsed := rfl
@[simp] theorem State.eraseSrq_qps (s : State) (r : Nat) : (s.eraseSrq r).qps = s.qps := rfl
@[simp] theorem State.eraseSrq_cqs (s : State) (r : Nat) : (s.eraseSrq r).cqs = s.cqs := rfl
@[simp] theorem State.eraseSrq_srqs (s : State) (r : Nat) : (s.eraseSrq r).srqs = assocDel s.srqs r := rfl
@[simp] theorem State.eraseSrq_nextObj (s : State) (r : Nat) : (s.eraseSrq r).nextObj = s.nextObj := rfl
@[simp] theorem State.eraseSrq_mem (s : State) (r : Nat) : (s.eraseSrq r).mem = s.mem := rfl
@[simp] theorem State.eraseSrq_agents (s : State) (r : Nat) : (s.eraseSrq r).agents = s.agents := rfl
@[simp] theorem State.eraseSrq_cur (s : State) (r : Nat) : (s.eraseSrq r).cur = s.cur := rfl
@[simp] theorem State.eraseSrq_slice (s : State) (r : Nat) : (s.eraseSrq r).slice = s.slice := rfl
@[simp] theorem State.eraseSrq_inbox (s : State) (r : Nat) : (s.eraseSrq r).inbox = s.inbox := rfl
@[simp] theorem State.eraseSrq_eventQ (s : State) (r : Nat) : (s.eraseSrq r).eventQ = s.eventQ := rfl
@[simp] theorem State.eraseSrq_eventOut (s : State) (r : Nat) : (s.eraseSrq r).eventOut = s.eventOut := rfl
@[simp] theorem State.eraseSrq_fw (s : State) (r : Nat) : (s.eraseSrq r).fw = s.fw := rfl
@[simp] theorem State.eraseSrq_bus (s : State) (r : Nat) : (s.eraseSrq r).bus = s.bus := rfl
@[simp] theorem State.eraseSrq_owned (s : State) (r : Nat) : (s.eraseSrq r).owned = s.owned := rfl
@[simp] theorem State.eraseSrq_quiet (s : State) (r : Nat) : (s.eraseSrq r).quiet = s.quiet := rfl

/-! ### `withAgent` -/

@[simp] theorem State.withAgent_cfg (s : State) (a : Nat) (slice : Option Nat) :
    (s.withAgent a slice).cfg = s.cfg := rfl
@[simp] theorem State.withAgent_started (s : State) (a : Nat) (slice : Option Nat) :
    (s.withAgent a slice).started = s.started := rfl
@[simp] theorem State.withAgent_mode (s : State) (a : Nat) (slice : Option Nat) :
    (s.withAgent a slice).mode = s.mode := rfl
@[simp] theorem State.withAgent_fatal (s : State) (a : Nat) (slice : Option Nat) :
    (s.withAgent a slice).fatal = s.fatal := rfl
@[simp] theorem State.withAgent_qpTable (s : State) (a : Nat) (slice : Option Nat) :
    (s.withAgent a slice).qpTable = s.qpTable := rfl
@[simp] theorem State.withAgent_cqTable (s : State) (a : Nat) (slice : Option Nat) :
    (s.withAgent a slice).cqTable = s.cqTable := rfl
@[simp] theorem State.withAgent_srqTable (s : State) (a : Nat) (slice : Option Nat) :
    (s.withAgent a slice).srqTable = s.srqTable := rfl
@[simp] theorem State.withAgent_locks (s : State) (a : Nat) (slice : Option Nat) :
    (s.withAgent a slice).locks = s.locks := rfl
@[simp] theorem State.withAgent_dbRecFree (s : State) (a : Nat) (slice : Option Nat) :
    (s.withAgent a slice).dbRecFree = s.dbRecFree := rfl
@[simp] theorem State.withAgent_dbRecBase (s : State) (a : Nat) (slice : Option Nat) :
    (s.withAgent a slice).dbRecBase = s.dbRecBase := rfl
@[simp] theorem State.withAgent_dbRecUsed (s : State) (a : Nat) (slice : Option Nat) :
    (s.withAgent a slice).dbRecUsed = s.dbRecUsed := rfl
@[simp] theorem State.withAgent_qps (s : State) (a : Nat) (slice : Option Nat) :
    (s.withAgent a slice).qps = s.qps := rfl
@[simp] theorem State.withAgent_cqs (s : State) (a : Nat) (slice : Option Nat) :
    (s.withAgent a slice).cqs = s.cqs := rfl
@[simp] theorem State.withAgent_srqs (s : State) (a : Nat) (slice : Option Nat) :
    (s.withAgent a slice).srqs = s.srqs := rfl
@[simp] theorem State.withAgent_nextObj (s : State) (a : Nat) (slice : Option Nat) :
    (s.withAgent a slice).nextObj = s.nextObj := rfl
@[simp] theorem State.withAgent_mem (s : State) (a : Nat) (slice : Option Nat) :
    (s.withAgent a slice).mem = s.mem := rfl
@[simp] theorem State.withAgent_agents (s : State) (a : Nat) (slice : Option Nat) :
    (s.withAgent a slice).agents = s.agents := rfl
@[simp] theorem State.withAgent_cur (s : State) (a : Nat) (slice : Option Nat) : (s.withAgent a slice).cur = a := rfl
@[simp] theorem State.withAgent_slice (s : State) (a : Nat) (slice : Option Nat) :
    (s.withAgent a slice).slice = slice := rfl
@[simp] theorem State.withAgent_inbox (s : State) (a : Nat) (slice : Option Nat) :
    (s.withAgent a slice).inbox = s.inbox := rfl
@[simp] theorem State.withAgent_eventQ (s : State) (a : Nat) (slice : Option Nat) :
    (s.withAgent a slice).eventQ = s.eventQ := rfl
@[simp] theorem State.withAgent_eventOut (s : State) (a : Nat) (slice : Option Nat) :
    (s.withAgent a slice).eventOut = s.eventOut := rfl
@[simp] theorem State.withAgent_fw (s : State) (a : Nat) (slice : Option Nat) : (s.withAgent a slice).fw = s.fw := rfl
@[simp] theorem State.withAgent_bus (s : State) (a : Nat) (slice : Option Nat) :
    (s.withAgent a slice).bus = s.bus := rfl
@[simp] theorem State.withAgent_owned (s : State) (a : Nat) (slice : Option Nat) :
    (s.withAgent a slice).owned = s.owned := rfl
@[simp] theorem State.withAgent_quiet (s : State) (a : Nat) (slice : Option Nat) :
    (s.withAgent a slice).quiet = s.quiet := rfl

/-! ### `setLocks` -/

@[simp] theorem State.setLocks_cfg (s : State) (l : List (Lock × Nat)) : (s.setLocks l).cfg = s.cfg := rfl
@[simp] theorem State.setLocks_started (s : State) (l : List (Lock × Nat)) : (s.setLocks l).started = s.started := rfl
@[simp] theorem State.setLocks_mode (s : State) (l : List (Lock × Nat)) : (s.setLocks l).mode = s.mode := rfl
@[simp] theorem State.setLocks_fatal (s : State) (l : List (Lock × Nat)) : (s.setLocks l).fatal = s.fatal := rfl
@[simp] theorem State.setLocks_qpTable (s : State) (l : List (Lock × Nat)) : (s.setLocks l).qpTable = s.qpTable := rfl
@[simp] theorem State.setLocks_cqTable (s : State) (l : List (Lock × Nat)) : (s.setLocks l).cqTable = s.cqTable := rfl
@[simp] theorem State.setLocks_srqTable (s : State) (l : List (Lock × Nat)) :
    (s.setLocks l).srqTable = s.srqTable := rfl
@[simp] theorem State.setLocks_locks (s : State) (l : List (Lock × Nat)) : (s.setLocks l).locks = l := rfl
@[simp] theorem State.setLocks_dbRecFree (s : State) (l : List (Lock × Nat)) :
    (s.setLocks l).dbRecFree = s.dbRecFree := rfl
@[simp] theorem State.setLocks_dbRecBase (s : State) (l : List (Lock × Nat)) :
    (s.setLocks l).dbRecBase = s.dbRecBase := rfl
@[simp] theorem State.setLocks_dbRecUsed (s : State) (l : List (Lock × Nat)) :
    (s.setLocks l).dbRecUsed = s.dbRecUsed := rfl
@[simp] theorem State.setLocks_qps (s : State) (l : List (Lock × Nat)) : (s.setLocks l).qps = s.qps := rfl
@[simp] theorem State.setLocks_cqs (s : State) (l : List (Lock × Nat)) : (s.setLocks l).cqs = s.cqs := rfl
@[simp] theorem State.setLocks_srqs (s : State) (l : List (Lock × Nat)) : (s.setLocks l).srqs = s.srqs := rfl
@[simp] theorem State.setLocks_nextObj (s : State) (l : List (Lock × Nat)) : (s.setLocks l).nextObj = s.nextObj := rfl
@[simp] theorem State.setLocks_mem (s : State) (l : List (Lock × Nat)) : (s.setLocks l).mem = s.mem := rfl
@[simp] theorem State.setLocks_agents (s : State) (l : List (Lock × Nat)) : (s.setLocks l).agents = s.agents := rfl
@[simp] theorem State.setLocks_cur (s : State) (l : List (Lock × Nat)) : (s.setLocks l).cur = s.cur := rfl
@[simp] theorem State.setLocks_slice (s : State) (l : List (Lock × Nat)) : (s.setLocks l).slice = s.slice := rfl
@[simp] theorem State.setLocks_inbox (s : State) (l : List (Lock × Nat)) : (s.setLocks l).inbox = s.inbox := rfl
@[simp] theorem State.setLocks_eventQ (s : State) (l : List (Lock × Nat)) : (s.setLocks l).eventQ = s.eventQ := rfl
@[simp] theorem State.setLocks_eventOut (s : State) (l : List (Lock × Nat)) :
    (s.setLocks l).eventOut = s.eventOut := rfl
@[simp] theorem State.setLocks_fw (s : State) (l : List (Lock × Nat)) : (s.setLocks l).fw = s.fw := rfl
@[simp] theorem State.setLocks_bus (s : State) (l : List (Lock × Nat)) : (s.setLocks l).bus = s.bus := rfl
@[simp] theorem State.setLocks_owned (s : State) (l : List (Lock × Nat)) : (s.setLocks l).owned = s.owned := rfl
@[simp] theorem State.setLocks_quiet (s : State) (l : List (Lock × Nat)) : (s.setLocks l).quiet = s.quiet := rfl

/-! ### `setMem` -/

@[simp] theorem State.setMem_cfg (s : State) (m : List Host.Cell) : (s.setMem m).cfg = s.cfg := rfl
@[simp] theorem State.setMem_started (s : State) (m : List Host.Cell) : (s.setMem m).started = s.started := rfl
@[simp] theorem State.setMem_mode (s : State) (m : List Host.Cell) : (s.setMem m).mode = s.mode := rfl
@[simp] theorem State.setMem_fatal (s : State) (m : List Host.Cell) : (s.setMem m).fatal = s.fatal := rfl
@[simp] theorem State.setMem_qpTable (s : State) (m : List Host.Cell) : (s.setMem m).qpTable = s.qpTable := rfl
@[simp] theorem State.setMem_cqTable (s : State) (m : List Host.Cell) : (s.setMem m).cqTable = s.cqTable := rfl
@[simp] theorem State.setMem_srqTable (s : State) (m : List Host.Cell) : (s.setMem m).srqTable = s.srqTable := rfl
@[simp] theorem State.setMem_locks (s : State) (m : List Host.Cell) : (s.setMem m).locks = s.locks := rfl
@[simp] theorem State.setMem_dbRecFree (s : State) (m : List Host.Cell) : (s.setMem m).dbRecFree = s.dbRecFree := rfl
@[simp] theorem State.setMem_dbRecBase (s : State) (m : List Host.Cell) : (s.setMem m).dbRecBase = s.dbRecBase := rfl
@[simp] theorem State.setMem_dbRecUsed (s : State) (m : List Host.Cell) : (s.setMem m).dbRecUsed = s.dbRecUsed := rfl
@[simp] theorem State.setMem_qps (s : State) (m : List Host.Cell) : (s.setMem m).qps = s.qps := rfl
@[simp] theorem State.setMem_cqs (s : State) (m : List Host.Cell) : (s.setMem m).cqs = s.cqs := rfl
@[simp] theorem State.setMem_srqs (s : State) (m : List Host.Cell) : (s.setMem m).srqs = s.srqs := rfl
@[simp] theorem State.setMem_nextObj (s : State) (m : List Host.Cell) : (s.setMem m).nextObj = s.nextObj := rfl
@[simp] theorem State.setMem_mem (s : State) (m : List Host.Cell) : (s.setMem m).mem = m := rfl
@[simp] theorem State.setMem_agents (s : State) (m : List Host.Cell) : (s.setMem m).agents = s.agents := rfl
@[simp] theorem State.setMem_cur (s : State) (m : List Host.Cell) : (s.setMem m).cur = s.cur := rfl
@[simp] theorem State.setMem_slice (s : State) (m : List Host.Cell) : (s.setMem m).slice = s.slice := rfl
@[simp] theorem State.setMem_inbox (s : State) (m : List Host.Cell) : (s.setMem m).inbox = s.inbox := rfl
@[simp] theorem State.setMem_eventQ (s : State) (m : List Host.Cell) : (s.setMem m).eventQ = s.eventQ := rfl
@[simp] theorem State.setMem_eventOut (s : State) (m : List Host.Cell) : (s.setMem m).eventOut = s.eventOut := rfl
@[simp] theorem State.setMem_fw (s : State) (m : List Host.Cell) : (s.setMem m).fw = s.fw := rfl
@[simp] theorem State.setMem_bus (s : State) (m : List Host.Cell) : (s.setMem m).bus = s.bus := rfl
@[simp] theorem State.setMem_owned (s : State) (m : List Host.Cell) : (s.setMem m).owned = s.owned := rfl
@[simp] theorem State.setMem_quiet (s : State) (m : List Host.Cell) : (s.setMem m).quiet = s.quiet := rfl

/-! ### `setBus` -/

@[simp] theorem State.setBus_cfg (s : State) (l : List BusEvent) : (s.setBus l).cfg = s.cfg := rfl
@[simp] theorem State.setBus_started (s : State) (l : List BusEvent) : (s.setBus l).started = s.started := rfl
@[simp] theorem State.setBus_mode (s : State) (l : List BusEvent) : (s.setBus l).mode = s.mode := rfl
@[simp] theorem State.setBus_fatal (s : State) (l : List BusEvent) : (s.setBus l).fatal = s.fatal := rfl
@[simp] theorem State.setBus_qpTable (s : State) (l : List BusEvent) : (s.setBus l).qpTable = s.qpTable := rfl
@[simp] theorem State.setBus_cqTable (s : State) (l : List BusEvent) : (s.setBus l).cqTable = s.cqTable := rfl
@[simp] theorem State.setBus_srqTable (s : State) (l : List BusEvent) : (s.setBus l).srqTable = s.srqTable := rfl
@[simp] theorem State.setBus_locks (s : State) (l : List BusEvent) : (s.setBus l).locks = s.locks := rfl
@[simp] theorem State.setBus_dbRecFree (s : State) (l : List BusEvent) : (s.setBus l).dbRecFree = s.dbRecFree := rfl
@[simp] theorem State.setBus_dbRecBase (s : State) (l : List BusEvent) : (s.setBus l).dbRecBase = s.dbRecBase := rfl
@[simp] theorem State.setBus_dbRecUsed (s : State) (l : List BusEvent) : (s.setBus l).dbRecUsed = s.dbRecUsed := rfl
@[simp] theorem State.setBus_qps (s : State) (l : List BusEvent) : (s.setBus l).qps = s.qps := rfl
@[simp] theorem State.setBus_cqs (s : State) (l : List BusEvent) : (s.setBus l).cqs = s.cqs := rfl
@[simp] theorem State.setBus_srqs (s : State) (l : List BusEvent) : (s.setBus l).srqs = s.srqs := rfl
@[simp] theorem State.setBus_nextObj (s : State) (l : List BusEvent) : (s.setBus l).nextObj = s.nextObj := rfl
@[simp] theorem State.setBus_mem (s : State) (l : List BusEvent) : (s.setBus l).mem = s.mem := rfl
@[simp] theorem State.setBus_agents (s : State) (l : List BusEvent) : (s.setBus l).agents = s.agents := rfl
@[simp] theorem State.setBus_cur (s : State) (l : List BusEvent) : (s.setBus l).cur = s.cur := rfl
@[simp] theorem State.setBus_slice (s : State) (l : List BusEvent) : (s.setBus l).slice = s.slice := rfl
@[simp] theorem State.setBus_inbox (s : State) (l : List BusEvent) : (s.setBus l).inbox = s.inbox := rfl
@[simp] theorem State.setBus_eventQ (s : State) (l : List BusEvent) : (s.setBus l).eventQ = s.eventQ := rfl
@[simp] theorem State.setBus_eventOut (s : State) (l : List BusEvent) : (s.setBus l).eventOut = s.eventOut := rfl
@[simp] theorem State.setBus_fw (s : State) (l : List BusEvent) : (s.setBus l).fw = s.fw := rfl
@[simp] theorem State.setBus_bus (s : State) (l : List BusEvent) : (s.setBus l).bus = l := rfl
@[simp] theorem State.setBus_owned (s : State) (l : List BusEvent) : (s.setBus l).owned = s.owned := rfl
@[simp] theorem State.setBus_quiet (s : State) (l : List BusEvent) : (s.setBus l).quiet = s.quiet := rfl

/-! ### `setFw` -/

@[simp] theorem State.setFw_cfg (s : State) (l : List FwAnswer) : (s.setFw l).cfg = s.cfg := rfl
@[simp] theorem State.setFw_started (s : State) (l : List FwAnswer) : (s.setFw l).started = s.started := rfl
@[simp] theorem State.setFw_mode (s : State) (l : List FwAnswer) : (s.setFw l).mode = s.mode := rfl
@[simp] theorem State.setFw_fatal (s : State) (l : List FwAnswer) : (s.setFw l).fatal = s.fatal := rfl
@[simp] theorem State.setFw_qpTable (s : State) (l : List FwAnswer) : (s.setFw l).qpTable = s.qpTable := rfl
@[simp] theorem State.setFw_cqTable (s : State) (l : List FwAnswer) : (s.setFw l).cqTable = s.cqTable := rfl
@[simp] theorem State.setFw_srqTable (s : State) (l : List FwAnswer) : (s.setFw l).srqTable = s.srqTable := rfl
@[simp] theorem State.setFw_locks (s : State) (l : List FwAnswer) : (s.setFw l).locks = s.locks := rfl
@[simp] theorem State.setFw_dbRecFree (s : State) (l : List FwAnswer) : (s.setFw l).dbRecFree = s.dbRecFree := rfl
@[simp] theorem State.setFw_dbRecBase (s : State) (l : List FwAnswer) : (s.setFw l).dbRecBase = s.dbRecBase := rfl
@[simp] theorem State.setFw_dbRecUsed (s : State) (l : List FwAnswer) : (s.setFw l).dbRecUsed = s.dbRecUsed := rfl
@[simp] theorem State.setFw_qps (s : State) (l : List FwAnswer) : (s.setFw l).qps = s.qps := rfl
@[simp] theorem State.setFw_cqs (s : State) (l : List FwAnswer) : (s.setFw l).cqs = s.cqs := rfl
@[simp] theorem State.setFw_srqs (s : State) (l : List FwAnswer) : (s.setFw l).srqs = s.srqs := rfl
@[simp] theorem State.setFw_nextObj (s : State) (l : List FwAnswer) : (s.setFw l).nextObj = s.nextObj := rfl
@[simp] theorem State.setFw_mem (s : State) (l : List FwAnswer) : (s.setFw l).mem = s.mem := rfl
@[simp] theorem State.setFw_agents (s : State) (l : List FwAnswer) : (s.setFw l).agents = s.agents := rfl
@[simp] theorem State.setFw_cur (s : State) (l : List FwAnswer) : (s.setFw l).cur = s.cur := rfl
@[simp] theorem State.setFw_slice (s : State) (l : List FwAnswer) : (s.setFw l).slice = s.slice := rfl
@[simp] theorem State.setFw_inbox (s : State) (l : List FwAnswer) : (s.setFw l).inbox = s.inbox := rfl
@[simp] theorem State.setFw_eventQ (s : State) (l : List FwAnswer) : (s.setFw l).eventQ = s.eventQ := rfl
@[simp] theorem State.setFw_eventOut (s : State) (l : List FwAnswer) : (s.setFw l).eventOut = s.eventOut := rfl
@[simp] theorem State.setFw_fw (s : State) (l : List FwAnswer) : (s.setFw l).fw = l := rfl
@[simp] theorem State.setFw_bus (s : State) (l : List FwAnswer) : (s.setFw l).bus = s.bus := rfl
@[simp] theorem State.setFw_owned (s : State) (l : List FwAnswer) : (s.setFw l).owned = s.owned := rfl
@[simp] theorem State.setFw_quiet (s : State) (l : List FwAnswer) : (s.setFw l).quiet = s.quiet := rfl

/-! ### `setRecs` -/

@[simp] theorem State.setRecs_cfg (s : State) (used : List Nat) (free : Nat) :
    (s.setRecs used free).cfg = s.cfg := rfl
@[simp] theorem State.setRecs_started (s : State) (used : List Nat) (free : Nat) :
    (s.setRecs used free).started = s.started := rfl
@[simp] theorem State.setRecs_mode (s : State) (used : List Nat) (free : Nat) :
    (s.setRecs used free).mode = s.mode := rfl
@[simp] theorem State.setRecs_fatal (s : State) (used : List Nat) (free : Nat) :
    (s.setRecs used free).fatal = s.fatal := rfl
@[simp] theorem State.setRecs_qpTable (s : State) (used : List Nat) (free : Nat) :
    (s.setRecs used free).qpTable = s.qpTable := rfl
@[simp] theorem State.setRecs_cqTable (s : State) (used : List Nat) (free : Nat) :
    (s.setRecs used free).cqTable = s.cqTable := rfl
@[simp] theorem State.setRecs_srqTable (s : State) (used : List Nat) (free : Nat) :
    (s.setRecs used free).srqTable = s.srqTable := rfl
@[simp] theorem State.setRecs_locks (s : State) (used : List Nat) (free : Nat) :
    (s.setRecs used free).locks = s.locks := rfl
@[simp] theorem State.setRecs_dbRecFree (s : State) (used : List Nat) (free : Nat) :
    (s.setRecs used free).dbRecFree = free := rfl
@[simp] theorem State.setRecs_dbRecBase (s : State) (used : List Nat) (free : Nat) :
    (s.setRecs used free).dbRecBase = s.dbRecBase := rfl
@[simp] theorem State.setRecs_dbRecUsed (s : State) (used : List Nat) (free : Nat) :
    (s.setRecs used free).dbRecUsed = used := rfl
@[simp] theorem State.setRecs_qps (s : State) (used : List Nat) (free : Nat) :
    (s.setRecs used free).qps = s.qps := rfl
@[simp] theorem State.setRecs_cqs (s : State) (used : List Nat) (free : Nat) :
    (s.setRecs used free).cqs = s.cqs := rfl
@[simp] theorem State.setRecs_srqs (s : State) (used : List Nat) (free : Nat) :
    (s.setRecs used free).srqs = s.srqs := rfl
@[simp] theorem State.setRecs_nextObj (s : State) (used : List Nat) (free : Nat) :
    (s.setRecs used free).nextObj = s.nextObj := rfl
@[simp] theorem State.setRecs_mem (s : State) (used : List Nat) (free : Nat) :
    (s.setRecs used free).mem = s.mem := rfl
@[simp] theorem State.setRecs_agents (s : State) (used : List Nat) (free : Nat) :
    (s.setRecs used free).agents = s.agents := rfl
@[simp] theorem State.setRecs_cur (s : State) (used : List Nat) (free : Nat) :
    (s.setRecs used free).cur = s.cur := rfl
@[simp] theorem State.setRecs_slice (s : State) (used : List Nat) (free : Nat) :
    (s.setRecs used free).slice = s.slice := rfl
@[simp] theorem State.setRecs_inbox (s : State) (used : List Nat) (free : Nat) :
    (s.setRecs used free).inbox = s.inbox := rfl
@[simp] theorem State.setRecs_eventQ (s : State) (used : List Nat) (free : Nat) :
    (s.setRecs used free).eventQ = s.eventQ := rfl
@[simp] theorem State.setRecs_eventOut (s : State) (used : List Nat) (free : Nat) :
    (s.setRecs used free).eventOut = s.eventOut := rfl
@[simp] theorem State.setRecs_fw (s : State) (used : List Nat) (free : Nat) : (s.setRecs used free).fw = s.fw := rfl
@[simp] theorem State.setRecs_bus (s : State) (used : List Nat) (free : Nat) :
    (s.setRecs used free).bus = s.bus := rfl
@[simp] theorem State.setRecs_owned (s : State) (used : List Nat) (free : Nat) :
    (s.setRecs used free).owned = s.owned := rfl
@[simp] theorem State.setRecs_quiet (s : State) (used : List Nat) (free : Nat) :
    (s.setRecs used free).quiet = s.quiet := rfl

/-! ### `setRecBase` -/

@[simp] theorem State.setRecBase_cfg (s : State) (a : BitVec 64) : (s.setRecBase a).cfg = s.cfg := rfl
@[simp] theorem State.setRecBase_started (s : State) (a : BitVec 64) : (s.setRecBase a).started = s.started := rfl
@[simp] theorem State.setRecBase_mode (s : State) (a : BitVec 64) : (s.setRecBase a).mode = s.mode := rfl
@[simp] theorem State.setRecBase_fatal (s : State) (a : BitVec 64) : (s.setRecBase a).fatal = s.fatal := rfl
@[simp] theorem State.setRecBase_qpTable (s : State) (a : BitVec 64) : (s.setRecBase a).qpTable = s.qpTable := rfl
@[simp] theorem State.setRecBase_cqTable (s : State) (a : BitVec 64) : (s.setRecBase a).cqTable = s.cqTable := rfl
@[simp] theorem State.setRecBase_srqTable (s : State) (a : BitVec 64) : (s.setRecBase a).srqTable = s.srqTable := rfl
@[simp] theorem State.setRecBase_locks (s : State) (a : BitVec 64) : (s.setRecBase a).locks = s.locks := rfl
@[simp] theorem State.setRecBase_dbRecFree (s : State) (a : BitVec 64) :
    (s.setRecBase a).dbRecFree = s.dbRecFree := rfl
@[simp] theorem State.setRecBase_dbRecBase (s : State) (a : BitVec 64) : (s.setRecBase a).dbRecBase = a := rfl
@[simp] theorem State.setRecBase_dbRecUsed (s : State) (a : BitVec 64) :
    (s.setRecBase a).dbRecUsed = s.dbRecUsed := rfl
@[simp] theorem State.setRecBase_qps (s : State) (a : BitVec 64) : (s.setRecBase a).qps = s.qps := rfl
@[simp] theorem State.setRecBase_cqs (s : State) (a : BitVec 64) : (s.setRecBase a).cqs = s.cqs := rfl
@[simp] theorem State.setRecBase_srqs (s : State) (a : BitVec 64) : (s.setRecBase a).srqs = s.srqs := rfl
@[simp] theorem State.setRecBase_nextObj (s : State) (a : BitVec 64) : (s.setRecBase a).nextObj = s.nextObj := rfl
@[simp] theorem State.setRecBase_mem (s : State) (a : BitVec 64) : (s.setRecBase a).mem = s.mem := rfl
@[simp] theorem State.setRecBase_agents (s : State) (a : BitVec 64) : (s.setRecBase a).agents = s.agents := rfl
@[simp] theorem State.setRecBase_cur (s : State) (a : BitVec 64) : (s.setRecBase a).cur = s.cur := rfl
@[simp] theorem State.setRecBase_slice (s : State) (a : BitVec 64) : (s.setRecBase a).slice = s.slice := rfl
@[simp] theorem State.setRecBase_inbox (s : State) (a : BitVec 64) : (s.setRecBase a).inbox = s.inbox := rfl
@[simp] theorem State.setRecBase_eventQ (s : State) (a : BitVec 64) : (s.setRecBase a).eventQ = s.eventQ := rfl
@[simp] theorem State.setRecBase_eventOut (s : State) (a : BitVec 64) : (s.setRecBase a).eventOut = s.eventOut := rfl
@[simp] theorem State.setRecBase_fw (s : State) (a : BitVec 64) : (s.setRecBase a).fw = s.fw := rfl
@[simp] theorem State.setRecBase_bus (s : State) (a : BitVec 64) : (s.setRecBase a).bus = s.bus := rfl
@[simp] theorem State.setRecBase_owned (s : State) (a : BitVec 64) : (s.setRecBase a).owned = s.owned := rfl
@[simp] theorem State.setRecBase_quiet (s : State) (a : BitVec 64) : (s.setRecBase a).quiet = s.quiet := rfl

/-! ### `setNextObj` -/

@[simp] theorem State.setNextObj_cfg (s : State) (o : Nat) : (s.setNextObj o).cfg = s.cfg := rfl
@[simp] theorem State.setNextObj_started (s : State) (o : Nat) : (s.setNextObj o).started = s.started := rfl
@[simp] theorem State.setNextObj_mode (s : State) (o : Nat) : (s.setNextObj o).mode = s.mode := rfl
@[simp] theorem State.setNextObj_fatal (s : State) (o : Nat) : (s.setNextObj o).fatal = s.fatal := rfl
@[simp] theorem State.setNextObj_qpTable (s : State) (o : Nat) : (s.setNextObj o).qpTable = s.qpTable := rfl
@[simp] theorem State.setNextObj_cqTable (s : State) (o : Nat) : (s.setNextObj o).cqTable = s.cqTable := rfl
@[simp] theorem State.setNextObj_srqTable (s : State) (o : Nat) : (s.setNextObj o).srqTable = s.srqTable := rfl
@[simp] theorem State.setNextObj_locks (s : State) (o : Nat) : (s.setNextObj o).locks = s.locks := rfl
@[simp] theorem State.setNextObj_dbRecFree (s : State) (o : Nat) : (s.setNextObj o).dbRecFree = s.dbRecFree := rfl
@[simp] theorem State.setNextObj_dbRecBase (s : State) (o : Nat) : (s.setNextObj o).dbRecBase = s.dbRecBase := rfl
@[simp] theorem State.setNextObj_dbRecUsed (s : State) (o : Nat) : (s.setNextObj o).dbRecUsed = s.dbRecUsed := rfl
@[simp] theorem State.setNextObj_qps (s : State) (o : Nat) : (s.setNextObj o).qps = s.qps := rfl
@[simp] theorem State.setNextObj_cqs (s : State) (o : Nat) : (s.setNextObj o).cqs = s.cqs := rfl
@[simp] theorem State.setNextObj_srqs (s : State) (o : Nat) : (s.setNextObj o).srqs = s.srqs := rfl
@[simp] theorem State.setNextObj_nextObj (s : State) (o : Nat) : (s.setNextObj o).nextObj = o := rfl
@[simp] theorem State.setNextObj_mem (s : State) (o : Nat) : (s.setNextObj o).mem = s.mem := rfl
@[simp] theorem State.setNextObj_agents (s : State) (o : Nat) : (s.setNextObj o).agents = s.agents := rfl
@[simp] theorem State.setNextObj_cur (s : State) (o : Nat) : (s.setNextObj o).cur = s.cur := rfl
@[simp] theorem State.setNextObj_slice (s : State) (o : Nat) : (s.setNextObj o).slice = s.slice := rfl
@[simp] theorem State.setNextObj_inbox (s : State) (o : Nat) : (s.setNextObj o).inbox = s.inbox := rfl
@[simp] theorem State.setNextObj_eventQ (s : State) (o : Nat) : (s.setNextObj o).eventQ = s.eventQ := rfl
@[simp] theorem State.setNextObj_eventOut (s : State) (o : Nat) : (s.setNextObj o).eventOut = s.eventOut := rfl
@[simp] theorem State.setNextObj_fw (s : State) (o : Nat) : (s.setNextObj o).fw = s.fw := rfl
@[simp] theorem State.setNextObj_bus (s : State) (o : Nat) : (s.setNextObj o).bus = s.bus := rfl
@[simp] theorem State.setNextObj_owned (s : State) (o : Nat) : (s.setNextObj o).owned = s.owned := rfl
@[simp] theorem State.setNextObj_quiet (s : State) (o : Nat) : (s.setNextObj o).quiet = s.quiet := rfl

/-! ### `setStarted` -/

@[simp] theorem State.setStarted_cfg (s : State) (b : Bool) : (s.setStarted b).cfg = s.cfg := rfl
@[simp] theorem State.setStarted_started (s : State) (b : Bool) : (s.setStarted b).started = b := rfl
@[simp] theorem State.setStarted_mode (s : State) (b : Bool) : (s.setStarted b).mode = s.mode := rfl
@[simp] theorem State.setStarted_fatal (s : State) (b : Bool) : (s.setStarted b).fatal = s.fatal := rfl
@[simp] theorem State.setStarted_qpTable (s : State) (b : Bool) : (s.setStarted b).qpTable = s.qpTable := rfl
@[simp] theorem State.setStarted_cqTable (s : State) (b : Bool) : (s.setStarted b).cqTable = s.cqTable := rfl
@[simp] theorem State.setStarted_srqTable (s : State) (b : Bool) : (s.setStarted b).srqTable = s.srqTable := rfl
@[simp] theorem State.setStarted_locks (s : State) (b : Bool) : (s.setStarted b).locks = s.locks := rfl
@[simp] theorem State.setStarted_dbRecFree (s : State) (b : Bool) : (s.setStarted b).dbRecFree = s.dbRecFree := rfl
@[simp] theorem State.setStarted_dbRecBase (s : State) (b : Bool) : (s.setStarted b).dbRecBase = s.dbRecBase := rfl
@[simp] theorem State.setStarted_dbRecUsed (s : State) (b : Bool) : (s.setStarted b).dbRecUsed = s.dbRecUsed := rfl
@[simp] theorem State.setStarted_qps (s : State) (b : Bool) : (s.setStarted b).qps = s.qps := rfl
@[simp] theorem State.setStarted_cqs (s : State) (b : Bool) : (s.setStarted b).cqs = s.cqs := rfl
@[simp] theorem State.setStarted_srqs (s : State) (b : Bool) : (s.setStarted b).srqs = s.srqs := rfl
@[simp] theorem State.setStarted_nextObj (s : State) (b : Bool) : (s.setStarted b).nextObj = s.nextObj := rfl
@[simp] theorem State.setStarted_mem (s : State) (b : Bool) : (s.setStarted b).mem = s.mem := rfl
@[simp] theorem State.setStarted_agents (s : State) (b : Bool) : (s.setStarted b).agents = s.agents := rfl
@[simp] theorem State.setStarted_cur (s : State) (b : Bool) : (s.setStarted b).cur = s.cur := rfl
@[simp] theorem State.setStarted_slice (s : State) (b : Bool) : (s.setStarted b).slice = s.slice := rfl
@[simp] theorem State.setStarted_inbox (s : State) (b : Bool) : (s.setStarted b).inbox = s.inbox := rfl
@[simp] theorem State.setStarted_eventQ (s : State) (b : Bool) : (s.setStarted b).eventQ = s.eventQ := rfl
@[simp] theorem State.setStarted_eventOut (s : State) (b : Bool) : (s.setStarted b).eventOut = s.eventOut := rfl
@[simp] theorem State.setStarted_fw (s : State) (b : Bool) : (s.setStarted b).fw = s.fw := rfl
@[simp] theorem State.setStarted_bus (s : State) (b : Bool) : (s.setStarted b).bus = s.bus := rfl
@[simp] theorem State.setStarted_owned (s : State) (b : Bool) : (s.setStarted b).owned = s.owned := rfl
@[simp] theorem State.setStarted_quiet (s : State) (b : Bool) : (s.setStarted b).quiet = s.quiet := rfl

/-! ### `setMode` -/

@[simp] theorem State.setMode_cfg (s : State) (m : Mode) : (s.setMode m).cfg = s.cfg := rfl
@[simp] theorem State.setMode_started (s : State) (m : Mode) : (s.setMode m).started = s.started := rfl
@[simp] theorem State.setMode_mode (s : State) (m : Mode) : (s.setMode m).mode = m := rfl
@[simp] theorem State.setMode_fatal (s : State) (m : Mode) : (s.setMode m).fatal = s.fatal := rfl
@[simp] theorem State.setMode_qpTable (s : State) (m : Mode) : (s.setMode m).qpTable = s.qpTable := rfl
@[simp] theorem State.setMode_cqTable (s : State) (m : Mode) : (s.setMode m).cqTable = s.cqTable := rfl
@[simp] theorem State.setMode_srqTable (s : State) (m : Mode) : (s.setMode m).srqTable = s.srqTable := rfl
@[simp] theorem State.setMode_locks (s : State) (m : Mode) : (s.setMode m).locks = s.locks := rfl
@[simp] theorem State.setMode_dbRecFree (s : State) (m : Mode) : (s.setMode m).dbRecFree = s.dbRecFree := rfl
@[simp] theorem State.setMode_dbRecBase (s : State) (m : Mode) : (s.setMode m).dbRecBase = s.dbRecBase := rfl
@[simp] theorem State.setMode_dbRecUsed (s : State) (m : Mode) : (s.setMode m).dbRecUsed = s.dbRecUsed := rfl
@[simp] theorem State.setMode_qps (s : State) (m : Mode) : (s.setMode m).qps = s.qps := rfl
@[simp] theorem State.setMode_cqs (s : State) (m : Mode) : (s.setMode m).cqs = s.cqs := rfl
@[simp] theorem State.setMode_srqs (s : State) (m : Mode) : (s.setMode m).srqs = s.srqs := rfl
@[simp] theorem State.setMode_nextObj (s : State) (m : Mode) : (s.setMode m).nextObj = s.nextObj := rfl
@[simp] theorem State.setMode_mem (s : State) (m : Mode) : (s.setMode m).mem = s.mem := rfl
@[simp] theorem State.setMode_agents (s : State) (m : Mode) : (s.setMode m).agents = s.agents := rfl
@[simp] theorem State.setMode_cur (s : State) (m : Mode) : (s.setMode m).cur = s.cur := rfl
@[simp] theorem State.setMode_slice (s : State) (m : Mode) : (s.setMode m).slice = s.slice := rfl
@[simp] theorem State.setMode_inbox (s : State) (m : Mode) : (s.setMode m).inbox = s.inbox := rfl
@[simp] theorem State.setMode_eventQ (s : State) (m : Mode) : (s.setMode m).eventQ = s.eventQ := rfl
@[simp] theorem State.setMode_eventOut (s : State) (m : Mode) : (s.setMode m).eventOut = s.eventOut := rfl
@[simp] theorem State.setMode_fw (s : State) (m : Mode) : (s.setMode m).fw = s.fw := rfl
@[simp] theorem State.setMode_bus (s : State) (m : Mode) : (s.setMode m).bus = s.bus := rfl
@[simp] theorem State.setMode_owned (s : State) (m : Mode) : (s.setMode m).owned = s.owned := rfl
@[simp] theorem State.setMode_quiet (s : State) (m : Mode) : (s.setMode m).quiet = s.quiet := rfl

/-! ### `setFatal` -/

@[simp] theorem State.setFatal_cfg (s : State) (b : Bool) : (s.setFatal b).cfg = s.cfg := rfl
@[simp] theorem State.setFatal_started (s : State) (b : Bool) : (s.setFatal b).started = s.started := rfl
@[simp] theorem State.setFatal_mode (s : State) (b : Bool) : (s.setFatal b).mode = s.mode := rfl
@[simp] theorem State.setFatal_fatal (s : State) (b : Bool) : (s.setFatal b).fatal = b := rfl
@[simp] theorem State.setFatal_qpTable (s : State) (b : Bool) : (s.setFatal b).qpTable = s.qpTable := rfl
@[simp] theorem State.setFatal_cqTable (s : State) (b : Bool) : (s.setFatal b).cqTable = s.cqTable := rfl
@[simp] theorem State.setFatal_srqTable (s : State) (b : Bool) : (s.setFatal b).srqTable = s.srqTable := rfl
@[simp] theorem State.setFatal_locks (s : State) (b : Bool) : (s.setFatal b).locks = s.locks := rfl
@[simp] theorem State.setFatal_dbRecFree (s : State) (b : Bool) : (s.setFatal b).dbRecFree = s.dbRecFree := rfl
@[simp] theorem State.setFatal_dbRecBase (s : State) (b : Bool) : (s.setFatal b).dbRecBase = s.dbRecBase := rfl
@[simp] theorem State.setFatal_dbRecUsed (s : State) (b : Bool) : (s.setFatal b).dbRecUsed = s.dbRecUsed := rfl
@[simp] theorem State.setFatal_qps (s : State) (b : Bool) : (s.setFatal b).qps = s.qps := rfl
@[simp] theorem State.setFatal_cqs (s : State) (b : Bool) : (s.setFatal b).cqs = s.cqs := rfl
@[simp] theorem State.setFatal_srqs (s : State) (b : Bool) : (s.setFatal b).srqs = s.srqs := rfl
@[simp] theorem State.setFatal_nextObj (s : State) (b : Bool) : (s.setFatal b).nextObj = s.nextObj := rfl
@[simp] theorem State.setFatal_mem (s : State) (b : Bool) : (s.setFatal b).mem = s.mem := rfl
@[simp] theorem State.setFatal_agents (s : State) (b : Bool) : (s.setFatal b).agents = s.agents := rfl
@[simp] theorem State.setFatal_cur (s : State) (b : Bool) : (s.setFatal b).cur = s.cur := rfl
@[simp] theorem State.setFatal_slice (s : State) (b : Bool) : (s.setFatal b).slice = s.slice := rfl
@[simp] theorem State.setFatal_inbox (s : State) (b : Bool) : (s.setFatal b).inbox = s.inbox := rfl
@[simp] theorem State.setFatal_eventQ (s : State) (b : Bool) : (s.setFatal b).eventQ = s.eventQ := rfl
@[simp] theorem State.setFatal_eventOut (s : State) (b : Bool) : (s.setFatal b).eventOut = s.eventOut := rfl
@[simp] theorem State.setFatal_fw (s : State) (b : Bool) : (s.setFatal b).fw = s.fw := rfl
@[simp] theorem State.setFatal_bus (s : State) (b : Bool) : (s.setFatal b).bus = s.bus := rfl
@[simp] theorem State.setFatal_owned (s : State) (b : Bool) : (s.setFatal b).owned = s.owned := rfl
@[simp] theorem State.setFatal_quiet (s : State) (b : Bool) : (s.setFatal b).quiet = s.quiet := rfl

/-! ### `setQuiet` -/

@[simp] theorem State.setQuiet_cfg (s : State) (l : List Num24) : (s.setQuiet l).cfg = s.cfg := rfl
@[simp] theorem State.setQuiet_started (s : State) (l : List Num24) : (s.setQuiet l).started = s.started := rfl
@[simp] theorem State.setQuiet_mode (s : State) (l : List Num24) : (s.setQuiet l).mode = s.mode := rfl
@[simp] theorem State.setQuiet_fatal (s : State) (l : List Num24) : (s.setQuiet l).fatal = s.fatal := rfl
@[simp] theorem State.setQuiet_qpTable (s : State) (l : List Num24) : (s.setQuiet l).qpTable = s.qpTable := rfl
@[simp] theorem State.setQuiet_cqTable (s : State) (l : List Num24) : (s.setQuiet l).cqTable = s.cqTable := rfl
@[simp] theorem State.setQuiet_srqTable (s : State) (l : List Num24) : (s.setQuiet l).srqTable = s.srqTable := rfl
@[simp] theorem State.setQuiet_locks (s : State) (l : List Num24) : (s.setQuiet l).locks = s.locks := rfl
@[simp] theorem State.setQuiet_dbRecFree (s : State) (l : List Num24) : (s.setQuiet l).dbRecFree = s.dbRecFree := rfl
@[simp] theorem State.setQuiet_dbRecBase (s : State) (l : List Num24) : (s.setQuiet l).dbRecBase = s.dbRecBase := rfl
@[simp] theorem State.setQuiet_dbRecUsed (s : State) (l : List Num24) : (s.setQuiet l).dbRecUsed = s.dbRecUsed := rfl
@[simp] theorem State.setQuiet_qps (s : State) (l : List Num24) : (s.setQuiet l).qps = s.qps := rfl
@[simp] theorem State.setQuiet_cqs (s : State) (l : List Num24) : (s.setQuiet l).cqs = s.cqs := rfl
@[simp] theorem State.setQuiet_srqs (s : State) (l : List Num24) : (s.setQuiet l).srqs = s.srqs := rfl
@[simp] theorem State.setQuiet_nextObj (s : State) (l : List Num24) : (s.setQuiet l).nextObj = s.nextObj := rfl
@[simp] theorem State.setQuiet_mem (s : State) (l : List Num24) : (s.setQuiet l).mem = s.mem := rfl
@[simp] theorem State.setQuiet_agents (s : State) (l : List Num24) : (s.setQuiet l).agents = s.agents := rfl
@[simp] theorem State.setQuiet_cur (s : State) (l : List Num24) : (s.setQuiet l).cur = s.cur := rfl
@[simp] theorem State.setQuiet_slice (s : State) (l : List Num24) : (s.setQuiet l).slice = s.slice := rfl
@[simp] theorem State.setQuiet_inbox (s : State) (l : List Num24) : (s.setQuiet l).inbox = s.inbox := rfl
@[simp] theorem State.setQuiet_eventQ (s : State) (l : List Num24) : (s.setQuiet l).eventQ = s.eventQ := rfl
@[simp] theorem State.setQuiet_eventOut (s : State) (l : List Num24) : (s.setQuiet l).eventOut = s.eventOut := rfl
@[simp] theorem State.setQuiet_fw (s : State) (l : List Num24) : (s.setQuiet l).fw = s.fw := rfl
@[simp] theorem State.setQuiet_bus (s : State) (l : List Num24) : (s.setQuiet l).bus = s.bus := rfl
@[simp] theorem State.setQuiet_owned (s : State) (l : List Num24) : (s.setQuiet l).owned = s.owned := rfl
@[simp] theorem State.setQuiet_quiet (s : State) (l : List Num24) : (s.setQuiet l).quiet = l := rfl

/-! ### `setEventQ` -/

@[simp] theorem State.setEventQ_cfg (s : State) (l : List (List Byte)) : (s.setEventQ l).cfg = s.cfg := rfl
@[simp] theorem State.setEventQ_started (s : State) (l : List (List Byte)) :
    (s.setEventQ l).started = s.started := rfl
@[simp] theorem State.setEventQ_mode (s : State) (l : List (List Byte)) : (s.setEventQ l).mode = s.mode := rfl
@[simp] theorem State.setEventQ_fatal (s : State) (l : List (List Byte)) : (s.setEventQ l).fatal = s.fatal := rfl
@[simp] theorem State.setEventQ_qpTable (s : State) (l : List (List Byte)) :
    (s.setEventQ l).qpTable = s.qpTable := rfl
@[simp] theorem State.setEventQ_cqTable (s : State) (l : List (List Byte)) :
    (s.setEventQ l).cqTable = s.cqTable := rfl
@[simp] theorem State.setEventQ_srqTable (s : State) (l : List (List Byte)) :
    (s.setEventQ l).srqTable = s.srqTable := rfl
@[simp] theorem State.setEventQ_locks (s : State) (l : List (List Byte)) : (s.setEventQ l).locks = s.locks := rfl
@[simp] theorem State.setEventQ_dbRecFree (s : State) (l : List (List Byte)) :
    (s.setEventQ l).dbRecFree = s.dbRecFree := rfl
@[simp] theorem State.setEventQ_dbRecBase (s : State) (l : List (List Byte)) :
    (s.setEventQ l).dbRecBase = s.dbRecBase := rfl
@[simp] theorem State.setEventQ_dbRecUsed (s : State) (l : List (List Byte)) :
    (s.setEventQ l).dbRecUsed = s.dbRecUsed := rfl
@[simp] theorem State.setEventQ_qps (s : State) (l : List (List Byte)) : (s.setEventQ l).qps = s.qps := rfl
@[simp] theorem State.setEventQ_cqs (s : State) (l : List (List Byte)) : (s.setEventQ l).cqs = s.cqs := rfl
@[simp] theorem State.setEventQ_srqs (s : State) (l : List (List Byte)) : (s.setEventQ l).srqs = s.srqs := rfl
@[simp] theorem State.setEventQ_nextObj (s : State) (l : List (List Byte)) :
    (s.setEventQ l).nextObj = s.nextObj := rfl
@[simp] theorem State.setEventQ_mem (s : State) (l : List (List Byte)) : (s.setEventQ l).mem = s.mem := rfl
@[simp] theorem State.setEventQ_agents (s : State) (l : List (List Byte)) : (s.setEventQ l).agents = s.agents := rfl
@[simp] theorem State.setEventQ_cur (s : State) (l : List (List Byte)) : (s.setEventQ l).cur = s.cur := rfl
@[simp] theorem State.setEventQ_slice (s : State) (l : List (List Byte)) : (s.setEventQ l).slice = s.slice := rfl
@[simp] theorem State.setEventQ_inbox (s : State) (l : List (List Byte)) : (s.setEventQ l).inbox = s.inbox := rfl
@[simp] theorem State.setEventQ_eventQ (s : State) (l : List (List Byte)) : (s.setEventQ l).eventQ = l := rfl
@[simp] theorem State.setEventQ_eventOut (s : State) (l : List (List Byte)) :
    (s.setEventQ l).eventOut = s.eventOut := rfl
@[simp] theorem State.setEventQ_fw (s : State) (l : List (List Byte)) : (s.setEventQ l).fw = s.fw := rfl
@[simp] theorem State.setEventQ_bus (s : State) (l : List (List Byte)) : (s.setEventQ l).bus = s.bus := rfl
@[simp] theorem State.setEventQ_owned (s : State) (l : List (List Byte)) : (s.setEventQ l).owned = s.owned := rfl
@[simp] theorem State.setEventQ_quiet (s : State) (l : List (List Byte)) : (s.setEventQ l).quiet = s.quiet := rfl

/-! ### `setInbox` -/

@[simp] theorem State.setInbox_cfg (s : State) (l : List Input) : (s.setInbox l).cfg = s.cfg := rfl
@[simp] theorem State.setInbox_started (s : State) (l : List Input) : (s.setInbox l).started = s.started := rfl
@[simp] theorem State.setInbox_mode (s : State) (l : List Input) : (s.setInbox l).mode = s.mode := rfl
@[simp] theorem State.setInbox_fatal (s : State) (l : List Input) : (s.setInbox l).fatal = s.fatal := rfl
@[simp] theorem State.setInbox_qpTable (s : State) (l : List Input) : (s.setInbox l).qpTable = s.qpTable := rfl
@[simp] theorem State.setInbox_cqTable (s : State) (l : List Input) : (s.setInbox l).cqTable = s.cqTable := rfl
@[simp] theorem State.setInbox_srqTable (s : State) (l : List Input) : (s.setInbox l).srqTable = s.srqTable := rfl
@[simp] theorem State.setInbox_locks (s : State) (l : List Input) : (s.setInbox l).locks = s.locks := rfl
@[simp] theorem State.setInbox_dbRecFree (s : State) (l : List Input) : (s.setInbox l).dbRecFree = s.dbRecFree := rfl
@[simp] theorem State.setInbox_dbRecBase (s : State) (l : List Input) : (s.setInbox l).dbRecBase = s.dbRecBase := rfl
@[simp] theorem State.setInbox_dbRecUsed (s : State) (l : List Input) : (s.setInbox l).dbRecUsed = s.dbRecUsed := rfl
@[simp] theorem State.setInbox_qps (s : State) (l : List Input) : (s.setInbox l).qps = s.qps := rfl
@[simp] theorem State.setInbox_cqs (s : State) (l : List Input) : (s.setInbox l).cqs = s.cqs := rfl
@[simp] theorem State.setInbox_srqs (s : State) (l : List Input) : (s.setInbox l).srqs = s.srqs := rfl
@[simp] theorem State.setInbox_nextObj (s : State) (l : List Input) : (s.setInbox l).nextObj = s.nextObj := rfl
@[simp] theorem State.setInbox_mem (s : State) (l : List Input) : (s.setInbox l).mem = s.mem := rfl
@[simp] theorem State.setInbox_agents (s : State) (l : List Input) : (s.setInbox l).agents = s.agents := rfl
@[simp] theorem State.setInbox_cur (s : State) (l : List Input) : (s.setInbox l).cur = s.cur := rfl
@[simp] theorem State.setInbox_slice (s : State) (l : List Input) : (s.setInbox l).slice = s.slice := rfl
@[simp] theorem State.setInbox_inbox (s : State) (l : List Input) : (s.setInbox l).inbox = l := rfl
@[simp] theorem State.setInbox_eventQ (s : State) (l : List Input) : (s.setInbox l).eventQ = s.eventQ := rfl
@[simp] theorem State.setInbox_eventOut (s : State) (l : List Input) : (s.setInbox l).eventOut = s.eventOut := rfl
@[simp] theorem State.setInbox_fw (s : State) (l : List Input) : (s.setInbox l).fw = s.fw := rfl
@[simp] theorem State.setInbox_bus (s : State) (l : List Input) : (s.setInbox l).bus = s.bus := rfl
@[simp] theorem State.setInbox_owned (s : State) (l : List Input) : (s.setInbox l).owned = s.owned := rfl
@[simp] theorem State.setInbox_quiet (s : State) (l : List Input) : (s.setInbox l).quiet = s.quiet := rfl

/-! ### `setCur` -/

@[simp] theorem State.setCur_cfg (s : State) (a : Nat) : (s.setCur a).cfg = s.cfg := rfl
@[simp] theorem State.setCur_started (s : State) (a : Nat) : (s.setCur a).started = s.started := rfl
@[simp] theorem State.setCur_mode (s : State) (a : Nat) : (s.setCur a).mode = s.mode := rfl
@[simp] theorem State.setCur_fatal (s : State) (a : Nat) : (s.setCur a).fatal = s.fatal := rfl
@[simp] theorem State.setCur_qpTable (s : State) (a : Nat) : (s.setCur a).qpTable = s.qpTable := rfl
@[simp] theorem State.setCur_cqTable (s : State) (a : Nat) : (s.setCur a).cqTable = s.cqTable := rfl
@[simp] theorem State.setCur_srqTable (s : State) (a : Nat) : (s.setCur a).srqTable = s.srqTable := rfl
@[simp] theorem State.setCur_locks (s : State) (a : Nat) : (s.setCur a).locks = s.locks := rfl
@[simp] theorem State.setCur_dbRecFree (s : State) (a : Nat) : (s.setCur a).dbRecFree = s.dbRecFree := rfl
@[simp] theorem State.setCur_dbRecBase (s : State) (a : Nat) : (s.setCur a).dbRecBase = s.dbRecBase := rfl
@[simp] theorem State.setCur_dbRecUsed (s : State) (a : Nat) : (s.setCur a).dbRecUsed = s.dbRecUsed := rfl
@[simp] theorem State.setCur_qps (s : State) (a : Nat) : (s.setCur a).qps = s.qps := rfl
@[simp] theorem State.setCur_cqs (s : State) (a : Nat) : (s.setCur a).cqs = s.cqs := rfl
@[simp] theorem State.setCur_srqs (s : State) (a : Nat) : (s.setCur a).srqs = s.srqs := rfl
@[simp] theorem State.setCur_nextObj (s : State) (a : Nat) : (s.setCur a).nextObj = s.nextObj := rfl
@[simp] theorem State.setCur_mem (s : State) (a : Nat) : (s.setCur a).mem = s.mem := rfl
@[simp] theorem State.setCur_agents (s : State) (a : Nat) : (s.setCur a).agents = s.agents := rfl
@[simp] theorem State.setCur_cur (s : State) (a : Nat) : (s.setCur a).cur = a := rfl
@[simp] theorem State.setCur_slice (s : State) (a : Nat) : (s.setCur a).slice = s.slice := rfl
@[simp] theorem State.setCur_inbox (s : State) (a : Nat) : (s.setCur a).inbox = s.inbox := rfl
@[simp] theorem State.setCur_eventQ (s : State) (a : Nat) : (s.setCur a).eventQ = s.eventQ := rfl
@[simp] theorem State.setCur_eventOut (s : State) (a : Nat) : (s.setCur a).eventOut = s.eventOut := rfl
@[simp] theorem State.setCur_fw (s : State) (a : Nat) : (s.setCur a).fw = s.fw := rfl
@[simp] theorem State.setCur_bus (s : State) (a : Nat) : (s.setCur a).bus = s.bus := rfl
@[simp] theorem State.setCur_owned (s : State) (a : Nat) : (s.setCur a).owned = s.owned := rfl
@[simp] theorem State.setCur_quiet (s : State) (a : Nat) : (s.setCur a).quiet = s.quiet := rfl

/-! ### `postCall` -/

@[simp] theorem State.postCall_cfg (s : State) (c : MailboxCall) : (s.postCall c).cfg = s.cfg := rfl
@[simp] theorem State.postCall_started (s : State) (c : MailboxCall) : (s.postCall c).started = s.started := rfl
@[simp] theorem State.postCall_mode (s : State) (c : MailboxCall) : (s.postCall c).mode = s.mode := rfl
@[simp] theorem State.postCall_fatal (s : State) (c : MailboxCall) : (s.postCall c).fatal = s.fatal := rfl
@[simp] theorem State.postCall_qpTable (s : State) (c : MailboxCall) : (s.postCall c).qpTable = s.qpTable := rfl
@[simp] theorem State.postCall_cqTable (s : State) (c : MailboxCall) : (s.postCall c).cqTable = s.cqTable := rfl
@[simp] theorem State.postCall_srqTable (s : State) (c : MailboxCall) : (s.postCall c).srqTable = s.srqTable := rfl
@[simp] theorem State.postCall_locks (s : State) (c : MailboxCall) : (s.postCall c).locks = s.locks := rfl
@[simp] theorem State.postCall_dbRecFree (s : State) (c : MailboxCall) : (s.postCall c).dbRecFree = s.dbRecFree := rfl
@[simp] theorem State.postCall_dbRecBase (s : State) (c : MailboxCall) : (s.postCall c).dbRecBase = s.dbRecBase := rfl
@[simp] theorem State.postCall_dbRecUsed (s : State) (c : MailboxCall) : (s.postCall c).dbRecUsed = s.dbRecUsed := rfl
@[simp] theorem State.postCall_qps (s : State) (c : MailboxCall) : (s.postCall c).qps = s.qps := rfl
@[simp] theorem State.postCall_cqs (s : State) (c : MailboxCall) : (s.postCall c).cqs = s.cqs := rfl
@[simp] theorem State.postCall_srqs (s : State) (c : MailboxCall) : (s.postCall c).srqs = s.srqs := rfl
@[simp] theorem State.postCall_nextObj (s : State) (c : MailboxCall) : (s.postCall c).nextObj = s.nextObj := rfl
@[simp] theorem State.postCall_mem (s : State) (c : MailboxCall) : (s.postCall c).mem = s.mem := rfl
@[simp] theorem State.postCall_agents (s : State) (c : MailboxCall) : (s.postCall c).agents = s.agents := rfl
@[simp] theorem State.postCall_cur (s : State) (c : MailboxCall) : (s.postCall c).cur = s.cur := rfl
@[simp] theorem State.postCall_slice (s : State) (c : MailboxCall) : (s.postCall c).slice = s.slice := rfl
@[simp] theorem State.postCall_inbox (s : State) (c : MailboxCall) : (s.postCall c).inbox = s.inbox := rfl
@[simp] theorem State.postCall_eventQ (s : State) (c : MailboxCall) : (s.postCall c).eventQ = s.eventQ := rfl
@[simp] theorem State.postCall_eventOut (s : State) (c : MailboxCall) : (s.postCall c).eventOut = s.eventOut := rfl
@[simp] theorem State.postCall_fw (s : State) (c : MailboxCall) : (s.postCall c).fw = s.fw := rfl
@[simp] theorem State.postCall_bus (s : State) (c : MailboxCall) :
    (s.postCall c).bus = .mailbox s.cur c :: s.bus := rfl
@[simp] theorem State.postCall_owned (s : State) (c : MailboxCall) : (s.postCall c).owned = s.owned := rfl
@[simp] theorem State.postCall_quiet (s : State) (c : MailboxCall) : (s.postCall c).quiet = s.quiet := rfl

/-! ### `setAgents` -/

@[simp] theorem State.setAgents_cfg (s : State) (l : List (Nat × Agent)) : (s.setAgents l).cfg = s.cfg := rfl
@[simp] theorem State.setAgents_started (s : State) (l : List (Nat × Agent)) :
    (s.setAgents l).started = s.started := rfl
@[simp] theorem State.setAgents_mode (s : State) (l : List (Nat × Agent)) : (s.setAgents l).mode = s.mode := rfl
@[simp] theorem State.setAgents_fatal (s : State) (l : List (Nat × Agent)) : (s.setAgents l).fatal = s.fatal := rfl
@[simp] theorem State.setAgents_qpTable (s : State) (l : List (Nat × Agent)) :
    (s.setAgents l).qpTable = s.qpTable := rfl
@[simp] theorem State.setAgents_cqTable (s : State) (l : List (Nat × Agent)) :
    (s.setAgents l).cqTable = s.cqTable := rfl
@[simp] theorem State.setAgents_srqTable (s : State) (l : List (Nat × Agent)) :
    (s.setAgents l).srqTable = s.srqTable := rfl
@[simp] theorem State.setAgents_locks (s : State) (l : List (Nat × Agent)) : (s.setAgents l).locks = s.locks := rfl
@[simp] theorem State.setAgents_dbRecFree (s : State) (l : List (Nat × Agent)) :
    (s.setAgents l).dbRecFree = s.dbRecFree := rfl
@[simp] theorem State.setAgents_dbRecBase (s : State) (l : List (Nat × Agent)) :
    (s.setAgents l).dbRecBase = s.dbRecBase := rfl
@[simp] theorem State.setAgents_dbRecUsed (s : State) (l : List (Nat × Agent)) :
    (s.setAgents l).dbRecUsed = s.dbRecUsed := rfl
@[simp] theorem State.setAgents_qps (s : State) (l : List (Nat × Agent)) : (s.setAgents l).qps = s.qps := rfl
@[simp] theorem State.setAgents_cqs (s : State) (l : List (Nat × Agent)) : (s.setAgents l).cqs = s.cqs := rfl
@[simp] theorem State.setAgents_srqs (s : State) (l : List (Nat × Agent)) : (s.setAgents l).srqs = s.srqs := rfl
@[simp] theorem State.setAgents_nextObj (s : State) (l : List (Nat × Agent)) :
    (s.setAgents l).nextObj = s.nextObj := rfl
@[simp] theorem State.setAgents_mem (s : State) (l : List (Nat × Agent)) : (s.setAgents l).mem = s.mem := rfl
@[simp] theorem State.setAgents_agents (s : State) (l : List (Nat × Agent)) : (s.setAgents l).agents = l := rfl
@[simp] theorem State.setAgents_cur (s : State) (l : List (Nat × Agent)) : (s.setAgents l).cur = s.cur := rfl
@[simp] theorem State.setAgents_slice (s : State) (l : List (Nat × Agent)) : (s.setAgents l).slice = s.slice := rfl
@[simp] theorem State.setAgents_inbox (s : State) (l : List (Nat × Agent)) : (s.setAgents l).inbox = s.inbox := rfl
@[simp] theorem State.setAgents_eventQ (s : State) (l : List (Nat × Agent)) : (s.setAgents l).eventQ = s.eventQ := rfl
@[simp] theorem State.setAgents_eventOut (s : State) (l : List (Nat × Agent)) :
    (s.setAgents l).eventOut = s.eventOut := rfl
@[simp] theorem State.setAgents_fw (s : State) (l : List (Nat × Agent)) : (s.setAgents l).fw = s.fw := rfl
@[simp] theorem State.setAgents_bus (s : State) (l : List (Nat × Agent)) : (s.setAgents l).bus = s.bus := rfl
@[simp] theorem State.setAgents_owned (s : State) (l : List (Nat × Agent)) : (s.setAgents l).owned = s.owned := rfl
@[simp] theorem State.setAgents_quiet (s : State) (l : List (Nat × Agent)) : (s.setAgents l).quiet = s.quiet := rfl

/-! ### Updates of one lookup table -/

@[simp] theorem State.setTable_cfg (s : State) (k : Kind) (t : List Entry) : (s.setTable k t).cfg = s.cfg := by
  cases k <;> rfl
@[simp] theorem State.setEntry_cfg (s : State) (k : Kind) (i : Nat) (e : Entry) : (s.setEntry k i e).cfg = s.cfg := by
  cases k <;> rfl
@[simp] theorem State.setTable_started (s : State) (k : Kind) (t : List Entry) : (s.setTable k t).started = s.started := by
  cases k <;> rfl
@[simp] theorem State.setEntry_started (s : State) (k : Kind) (i : Nat) (e : Entry) : (s.setEntry k i e).started = s.started := by
  cases k <;> rfl
@[simp] theorem State.setTable_mode (s : State) (k : Kind) (t : List Entry) : (s.setTable k t).mode = s.mode := by
  cases k <;> rfl
@[simp] theorem State.setEntry_mode (s : State) (k : Kind) (i : Nat) (e : Entry) : (s.setEntry k i e).mode = s.mode := by
  cases k <;> rfl
@[simp] theorem State.setTable_fatal (s : State) (k : Kind) (t : List Entry) : (s.setTable k t).fatal = s.fatal := by
  cases k <;> rfl
@[simp] theorem State.setEntry_fatal (s : State) (k : Kind) (i : Nat) (e : Entry) : (s.setEntry k i e).fatal = s.fatal := by
  cases k <;> rfl
@[simp] theorem State.setTable_locks (s : State) (k : Kind) (t : List Entry) : (s.setTable k t).locks = s.locks := by
  cases k <;> rfl
@[simp] theorem State.setEntry_locks (s : State) (k : Kind) (i : Nat) (e : Entry) : (s.setEntry k i e).locks = s.locks := by
  cases k <;> rfl
@[simp] theorem State.setTable_dbRecFree (s : State) (k : Kind) (t : List Entry) : (s.setTable k t).dbRecFree = s.dbRecFree := by
  cases k <;> rfl
@[simp] theorem State.setEntry_dbRecFree (s : State) (k : Kind) (i : Nat) (e : Entry) :
    (s.setEntry k i e).dbRecFree = s.dbRecFree := by
  cases k <;> rfl
@[simp] theorem State.setTable_dbRecBase (s : State) (k : Kind) (t : List Entry) : (s.setTable k t).dbRecBase = s.dbRecBase := by
  cases k <;> rfl
@[simp] theorem State.setEntry_dbRecBase (s : State) (k : Kind) (i : Nat) (e : Entry) :
    (s.setEntry k i e).dbRecBase = s.dbRecBase := by
  cases k <;> rfl
@[simp] theorem State.setTable_dbRecUsed (s : State) (k : Kind) (t : List Entry) : (s.setTable k t).dbRecUsed = s.dbRecUsed := by
  cases k <;> rfl
@[simp] theorem State.setEntry_dbRecUsed (s : State) (k : Kind) (i : Nat) (e : Entry) :
    (s.setEntry k i e).dbRecUsed = s.dbRecUsed := by
  cases k <;> rfl
@[simp] theorem State.setTable_qps (s : State) (k : Kind) (t : List Entry) : (s.setTable k t).qps = s.qps := by
  cases k <;> rfl
@[simp] theorem State.setEntry_qps (s : State) (k : Kind) (i : Nat) (e : Entry) : (s.setEntry k i e).qps = s.qps := by
  cases k <;> rfl
@[simp] theorem State.setTable_cqs (s : State) (k : Kind) (t : List Entry) : (s.setTable k t).cqs = s.cqs := by
  cases k <;> rfl
@[simp] theorem State.setEntry_cqs (s : State) (k : Kind) (i : Nat) (e : Entry) : (s.setEntry k i e).cqs = s.cqs := by
  cases k <;> rfl
@[simp] theorem State.setTable_srqs (s : State) (k : Kind) (t : List Entry) : (s.setTable k t).srqs = s.srqs := by
  cases k <;> rfl
@[simp] theorem State.setEntry_srqs (s : State) (k : Kind) (i : Nat) (e : Entry) : (s.setEntry k i e).srqs = s.srqs := by
  cases k <;> rfl
@[simp] theorem State.setTable_nextObj (s : State) (k : Kind) (t : List Entry) : (s.setTable k t).nextObj = s.nextObj := by
  cases k <;> rfl
@[simp] theorem State.setEntry_nextObj (s : State) (k : Kind) (i : Nat) (e : Entry) : (s.setEntry k i e).nextObj = s.nextObj := by
  cases k <;> rfl
@[simp] theorem State.setTable_mem (s : State) (k : Kind) (t : List Entry) : (s.setTable k t).mem = s.mem := by
  cases k <;> rfl
@[simp] theorem State.setEntry_mem (s : State) (k : Kind) (i : Nat) (e : Entry) : (s.setEntry k i e).mem = s.mem := by
  cases k <;> rfl
@[simp] theorem State.setTable_agents (s : State) (k : Kind) (t : List Entry) : (s.setTable k t).agents = s.agents := by
  cases k <;> rfl
@[simp] theorem State.setEntry_agents (s : State) (k : Kind) (i : Nat) (e : Entry) : (s.setEntry k i e).agents = s.agents := by
  cases k <;> rfl
@[simp] theorem State.setTable_cur (s : State) (k : Kind) (t : List Entry) : (s.setTable k t).cur = s.cur := by
  cases k <;> rfl
@[simp] theorem State.setEntry_cur (s : State) (k : Kind) (i : Nat) (e : Entry) : (s.setEntry k i e).cur = s.cur := by
  cases k <;> rfl
@[simp] theorem State.setTable_slice (s : State) (k : Kind) (t : List Entry) : (s.setTable k t).slice = s.slice := by
  cases k <;> rfl
@[simp] theorem State.setEntry_slice (s : State) (k : Kind) (i : Nat) (e : Entry) : (s.setEntry k i e).slice = s.slice := by
  cases k <;> rfl
@[simp] theorem State.setTable_inbox (s : State) (k : Kind) (t : List Entry) : (s.setTable k t).inbox = s.inbox := by
  cases k <;> rfl
@[simp] theorem State.setEntry_inbox (s : State) (k : Kind) (i : Nat) (e : Entry) : (s.setEntry k i e).inbox = s.inbox := by
  cases k <;> rfl
@[simp] theorem State.setTable_eventQ (s : State) (k : Kind) (t : List Entry) : (s.setTable k t).eventQ = s.eventQ := by
  cases k <;> rfl
@[simp] theorem State.setEntry_eventQ (s : State) (k : Kind) (i : Nat) (e : Entry) : (s.setEntry k i e).eventQ = s.eventQ := by
  cases k <;> rfl
@[simp] theorem State.setTable_eventOut (s : State) (k : Kind) (t : List Entry) : (s.setTable k t).eventOut = s.eventOut := by
  cases k <;> rfl
@[simp] theorem State.setEntry_eventOut (s : State) (k : Kind) (i : Nat) (e : Entry) :
    (s.setEntry k i e).eventOut = s.eventOut := by
  cases k <;> rfl
@[simp] theorem State.setTable_fw (s : State) (k : Kind) (t : List Entry) : (s.setTable k t).fw = s.fw := by
  cases k <;> rfl
@[simp] theorem State.setEntry_fw (s : State) (k : Kind) (i : Nat) (e : Entry) : (s.setEntry k i e).fw = s.fw := by
  cases k <;> rfl
@[simp] theorem State.setTable_bus (s : State) (k : Kind) (t : List Entry) : (s.setTable k t).bus = s.bus := by
  cases k <;> rfl
@[simp] theorem State.setEntry_bus (s : State) (k : Kind) (i : Nat) (e : Entry) : (s.setEntry k i e).bus = s.bus := by
  cases k <;> rfl
@[simp] theorem State.setTable_owned (s : State) (k : Kind) (t : List Entry) : (s.setTable k t).owned = s.owned := by
  cases k <;> rfl
@[simp] theorem State.setEntry_owned (s : State) (k : Kind) (i : Nat) (e : Entry) : (s.setEntry k i e).owned = s.owned := by
  cases k <;> rfl
@[simp] theorem State.setTable_quiet (s : State) (k : Kind) (t : List Entry) : (s.setTable k t).quiet = s.quiet := by
  cases k <;> rfl
@[simp] theorem State.setEntry_quiet (s : State) (k : Kind) (i : Nat) (e : Entry) : (s.setEntry k i e).quiet = s.quiet := by
  cases k <;> rfl

@[simp] theorem State.setTable_table (s : State) (k : Kind) (t : List Entry) : (s.setTable k t).table k = t := by
  cases k <;> rfl

theorem State.setTable_table_ne (s : State) {k j : Kind} (t : List Entry) (h : j ≠ k) :
    (s.setTable k t).table j = s.table j := by
  cases k <;> cases j <;> first | rfl | exact absurd rfl h

@[simp] theorem State.setEntry_table (s : State) (k : Kind) (i : Nat) (e : Entry) :
    (s.setEntry k i e).table k = (s.table k).set i e := by
  simp [State.setEntry]

theorem State.setEntry_entry_self (s : State) (k : Kind) (i : Nat) (e : Entry) (h : i < (s.table k).length) :
    (s.setEntry k i e).entry k i = e := by
  simp [State.entry, List.getD, h]

theorem State.setEntry_entry_ne (s : State) (k : Kind) {i j : Nat} (e : Entry) (h : j ≠ i) :
    (s.setEntry k i e).entry k j = s.entry k j := by
  simp [State.entry, List.getD, List.getElem?_set_ne (Ne.symm h)]

end Sys2Proof.Machine
end

