-- ==== Sys2Proof/Laws/Memory.lean ====
section
/-! SUPPORT. Host memory: reading after writing, the frame of a write, and the canonical form, which every memory operation
keeps. Also the association lists of the arenas. -/

namespace Sys2Proof.Machine

open Sys2Proof

/-! ### Association lists -/

@[simp] theorem assocGet_assocSet_self {α : Type} (l : List (Nat × α)) (k : Nat) (v : α) :
    assocGet (assocSet l k v) k = some v := by
  induction l with
  | nil => simp [assocSet, assocGet]
  | cons e l ih =>
    obtain ⟨j, x⟩ := e
    by_cases h : j = k <;> simp [assocSet, assocGet, h, ih]

theorem assocGet_assocSet_ne {α : Type} (l : List (Nat × α)) {k j : Nat} (v : α) (h : j ≠ k) :
    assocGet (assocSet l k v) j = assocGet l j := by
  induction l with
  | nil => simp [assocSet, assocGet, Ne.symm h]
  | cons e l ih =>
    obtain ⟨i, x⟩ := e
    by_cases hi : i = k
    · subst hi; simp [assocSet, assocGet, Ne.symm h]
    · simp [assocSet, assocGet, hi, ih]

@[simp] theorem assocSet_assocSet {α : Type} (l : List (Nat × α)) (k : Nat) (v w : α) :
    assocSet (assocSet l k v) k w = assocSet l k w := by
  induction l with
  | nil => simp [assocSet]
  | cons e l ih =>
    obtain ⟨j, x⟩ := e
    by_cases h : j = k <;> simp [assocSet, h, ih]

theorem assocGet_assocDel_self {α : Type} (l : List (Nat × α)) (k : Nat) : assocGet (assocDel l k) k = none := by
  induction l with
  | nil => rfl
  | cons e l ih =>
    obtain ⟨j, x⟩ := e
    by_cases h : j = k <;> simp [assocDel, assocGet, h, ih]

theorem assocGet_assocDel_ne {α : Type} (l : List (Nat × α)) {k j : Nat} (h : j ≠ k) :
    assocGet (assocDel l k) j = assocGet l j := by
  induction l with
  | nil => rfl
  | cons e l ih =>
    obtain ⟨i, x⟩ := e
    by_cases hi : i = k
    · subst hi; simp [assocDel, assocGet, Ne.symm h, ih]
    · simp [assocDel, assocGet, hi, ih]

/-! ### Reading a byte -/

theorem memGet_memPut_ne (m : List Host.Cell) {a b : Nat} (v : Byte) (h : b ≠ a) : memGet (memPut m a v) b = memGet m b := by
  induction m with
  | nil => by_cases hv : v = unlistedByte <;> simp [memPut, memGet, hv, Ne.symm h]
  | cons e m ih =>
    obtain ⟨c, w⟩ := e
    simp only [memPut]
    split
    · split <;> simp [memGet, Ne.symm h]
    · split
      · rename_i hc; subst hc
        split <;> simp [memGet, Ne.symm h]
      · by_cases hb : c = b <;> simp [memGet, hb, ih]

theorem memGet_of_lt (m : List Host.Cell) {lo a : Nat} (hm : memWfFrom lo m = true) (h : a < lo) :
    memGet m a = unlistedByte := by
  induction m generalizing lo with
  | nil => rfl
  | cons e m ih =>
    obtain ⟨c, w⟩ := e
    simp only [memWfFrom, Bool.and_eq_true, decide_eq_true_eq] at hm
    have hc : c ≠ a := by omega
    simp only [memGet, hc, if_false]
    exact ih hm.2 (by omega)

theorem memGet_memPut_self_from (m : List Host.Cell) (lo a : Nat) (v : Byte) (hm : memWfFrom lo m = true) :
    memGet (memPut m a v) a = v := by
  induction m generalizing lo with
  | nil => by_cases hv : v = unlistedByte <;> simp [memPut, memGet, hv]
  | cons e m ih =>
    obtain ⟨c, w⟩ := e
    simp only [memWfFrom, Bool.and_eq_true, decide_eq_true_eq] at hm
    simp only [memPut]
    split
    · rename_i hac
      split
      · rename_i hv
        have hca : c ≠ a := by omega
        simp only [memGet, hca, if_false, hv]
        exact memGet_of_lt m hm.2 (by omega)
      · simp [memGet]
    · split
      · rename_i hca
        split
        · rename_i hv
          rw [hv]; exact memGet_of_lt m hm.2 (by omega)
        · simp [memGet]
      · rename_i hca
        have hca' : c ≠ a := fun h => hca h.symm
        simp only [memGet, hca', if_false]
        exact ih (c + 1) hm.2

theorem memGet_memPut_self (m : List Host.Cell) (a : Nat) (v : Byte) (hm : Memory.wf m = true) :
    memGet (memPut m a v) a = v := memGet_memPut_self_from m 0 a v hm

/-! ### The canonical form -/

theorem memWfFrom_mono (m : List Host.Cell) {lo lo' : Nat} (h : lo' ≤ lo) (hm : memWfFrom lo m = true) :
    memWfFrom lo' m = true := by
  cases m with
  | nil => rfl
  | cons e m =>
    obtain ⟨c, w⟩ := e
    simp only [memWfFrom, Bool.and_eq_true, decide_eq_true_eq] at hm ⊢
    exact ⟨⟨by omega, hm.1.2⟩, hm.2⟩

theorem memPut_wf_from (m : List Host.Cell) (lo a : Nat) (v : Byte) (ha : lo ≤ a) (hm : memWfFrom lo m = true) :
    memWfFrom lo (memPut m a v) = true := by
  induction m generalizing lo with
  | nil => by_cases hv : v = unlistedByte <;> simp [memPut, memWfFrom, hv, ha]
  | cons e m ih =>
    obtain ⟨c, w⟩ := e
    have hm' := hm
    simp only [memWfFrom, Bool.and_eq_true, decide_eq_true_eq] at hm'
    simp only [memPut]
    split
    · rename_i hac
      split
      · exact hm
      · rename_i hv
        simp only [memWfFrom, Bool.and_eq_true, decide_eq_true_eq]
        exact ⟨⟨ha, hv⟩, ⟨by omega, hm'.1.2⟩, hm'.2⟩
    · split
      · rename_i hca
        subst hca
        split
        · exact memWfFrom_mono m (by omega) hm'.2
        · rename_i hv
          simp only [memWfFrom, Bool.and_eq_true, decide_eq_true_eq]
          exact ⟨⟨ha, hv⟩, hm'.2⟩
      · simp only [memWfFrom, Bool.and_eq_true, decide_eq_true_eq]
        exact ⟨hm'.1, ih (c + 1) (by omega) hm'.2⟩

/-- A write of a byte keeps the canonical form. -/
theorem memPut_wf (m : List Host.Cell) (a : Nat) (v : Byte) (hm : Memory.wf m = true) : Memory.wf (memPut m a v) = true :=
  memPut_wf_from m 0 a v (Nat.zero_le a) hm

/-- A write of a run of bytes keeps the canonical form. -/
theorem memPutBytes_wf (m : List Host.Cell) (a : Nat) (bs : List Byte) (hm : Memory.wf m = true) :
    Memory.wf (memPutBytes m a bs) = true := by
  induction bs generalizing m a with
  | nil => exact hm
  | cons b bs ih => exact ih _ _ (memPut_wf m a b hm)

/-- A fill keeps the canonical form. -/
theorem memFill_wf (m : List Host.Cell) (a n : Nat) (v : Byte) (hm : Memory.wf m = true) :
    Memory.wf (memFill m a n v) = true := by
  induction n generalizing m a with
  | zero => exact hm
  | succ n ih => exact ih _ _ (memPut_wf m a v hm)

/-! ### Runs of bytes -/

/-- A write of a run of bytes leaves every byte outside the run alone. -/
theorem memGet_memPutBytes_outside (m : List Host.Cell) (a : Nat) (bs : List Byte) (b : Nat)
    (h : b < a ∨ a + bs.length ≤ b) : memGet (memPutBytes m a bs) b = memGet m b := by
  induction bs generalizing m a with
  | nil => rfl
  | cons x bs ih =>
    simp only [List.length_cons] at h
    simp only [memPutBytes]
    rw [ih _ _ (by omega), memGet_memPut_ne _ _ (by omega)]

/-- A byte of a run that was written reads as written. -/
theorem memGet_memPutBytes_inside (m : List Host.Cell) (a : Nat) (bs : List Byte) (i : Nat) (hm : Memory.wf m = true)
    (h : i < bs.length) : memGet (memPutBytes m a bs) (a + i) = bs[i] := by
  induction bs generalizing m a i with
  | nil => simp at h
  | cons x bs ih =>
    simp only [memPutBytes]
    cases i with
    | zero =>
      rw [memGet_memPutBytes_outside _ _ _ _ (by omega)]
      simpa using memGet_memPut_self m a x hm
    | succ i =>
      have h' : i < bs.length := by simpa using h
      have := ih (memPut m a x) (a + 1) i (memPut_wf m a x hm) h'
      rw [show a + (i + 1) = a + 1 + i by omega, this]
      simp

/-- A fill leaves every byte outside it alone. -/
theorem memGet_memFill_outside (m : List Host.Cell) (a n : Nat) (v : Byte) (b : Nat) (h : b < a ∨ a + n ≤ b) :
    memGet (memFill m a n v) b = memGet m b := by
  induction n generalizing m a with
  | zero => rfl
  | succ n ih =>
    simp only [memFill]
    rw [ih _ _ (by omega), memGet_memPut_ne _ _ (by omega)]

/-- A byte inside a fill reads as filled. -/
theorem memGet_memFill_inside (m : List Host.Cell) (a n : Nat) (v : Byte) (b : Nat) (hm : Memory.wf m = true)
    (h : a ≤ b ∧ b < a + n) : memGet (memFill m a n v) b = v := by
  induction n generalizing m a with
  | zero => omega
  | succ n ih =>
    simp only [memFill]
    by_cases hb : b = a
    · subst hb
      rw [memGet_memFill_outside _ _ _ _ _ (by omega), memGet_memPut_self _ _ _ hm]
    · exact ih _ _ (memPut_wf m a v hm) (by omega)

/-- The run of bytes just written reads back. -/
theorem memGetBytes_memPutBytes (m : List Host.Cell) (a : Nat) (bs : List Byte) (hm : Memory.wf m = true) :
    memGetBytes (memPutBytes m a bs) a bs.length = bs := by
  induction bs generalizing m a with
  | nil => rfl
  | cons x bs ih =>
    simp only [memPutBytes, List.length_cons, memGetBytes, ih _ _ (memPut_wf m a x hm)]
    rw [memGet_memPutBytes_outside _ _ _ _ (by omega), memGet_memPut_self _ _ _ hm]

/-- Bytes that two memories agree on read as one run. -/
theorem memGetBytes_congr (m m' : List Host.Cell) (a n : Nat) (h : ∀ b, a ≤ b → b < a + n → memGet m b = memGet m' b) :
    memGetBytes m a n = memGetBytes m' a n := by
  induction n generalizing a with
  | zero => rfl
  | succ n ih =>
    simp only [memGetBytes]
    rw [h a (by omega) (by omega), ih (a + 1) (fun b h1 h2 => h b (by omega) (by omega))]

@[simp] theorem beBytes_length (n v : Nat) : (beBytes n v).length = n := by
  induction n with
  | zero => rfl
  | succ n ih => simp [beBytes, ih]

/-- Big-endian bytes read back as the number, modulo what they can hold (R10). -/
theorem beNat_beBytes (n v : Nat) : beNat (beBytes n v) = v % 256 ^ n := by
  induction n with
  | zero => simp [beBytes, beNat, Nat.mod_one]
  | succ n ih =>
    simp only [beBytes, beNat, ih, beBytes_length, BitVec.toNat_ofNat]
    rw [pow_succ 256 n, Nat.mod_mul (a := 256 ^ n) (b := 256), show (2 : Nat) ^ 8 = 256 from rfl]
    ring

/-- A field just written reads back (R10, R72). -/
theorem State.memRead_memWrite (s : State) (a n v : Nat) (hm : Memory.wf s.mem = true) :
    (s.memWrite a n v).memRead a n = v % 256 ^ n := by
  have h := memGetBytes_memPutBytes s.mem a (beBytes n v) hm
  rw [beBytes_length] at h
  simp [State.memRead, h, beNat_beBytes]

/-- A field elsewhere is not changed by a write. -/
theorem State.memRead_memWrite_ne (s : State) (a n v b k : Nat) (h : b + k ≤ a ∨ a + n ≤ b) :
    (s.memWrite a n v).memRead b k = s.memRead b k := by
  simp only [State.memRead, State.memWrite_mem]
  rw [memGetBytes_congr]
  intro c h1 h2
  exact memGet_memPutBytes_outside _ _ _ _ (by rw [beBytes_length]; omega)

/-- `SameMemOutside` of a field write. -/
theorem State.memWrite_outside (s : State) (a n v b : Nat) (h : b < a ∨ a + n ≤ b) :
    memGet (s.memWrite a n v).mem b = memGet s.mem b := by
  simpa using memGet_memPutBytes_outside s.mem a (beBytes n v) b (by rw [beBytes_length]; exact h)

/-- The fields of a segment leave every byte outside the segment alone. -/
theorem State.writeFields_outside (s : State) (a : Nat) (fs : List (Nat × Nat)) (b : Nat)
    (h : b < a ∨ a + fieldBytes fs ≤ b) : memGet (s.writeFields a fs).mem b = memGet s.mem b := by
  induction fs generalizing s a with
  | nil => rfl
  | cons f fs ih =>
    obtain ⟨n, v⟩ := f
    simp only [fieldBytes] at h
    simp only [State.writeFields]
    rw [ih _ _ (by omega), State.memWrite_outside _ _ _ _ _ (by omega)]

/-- Writing fields keeps the canonical form. -/
theorem State.writeFields_wf (s : State) (a : Nat) (fs : List (Nat × Nat)) (hm : Memory.wf s.mem = true) :
    Memory.wf (s.writeFields a fs).mem = true := by
  induction fs generalizing s a with
  | nil => exact hm
  | cons f fs ih => exact ih _ _ (by simpa using memPutBytes_wf _ _ _ hm)

/-- A number of `n` bytes is below `256 ^ n`. -/
theorem beNat_lt (l : List Byte) : beNat l < 256 ^ l.length := by
  induction l with
  | nil => simp [beNat]
  | cons b l ih =>
    simp only [beNat, List.length_cons, Nat.pow_succ]
    have := b.isLt
    have : b.toNat * 256 ^ l.length ≤ 255 * 256 ^ l.length := Nat.mul_le_mul_right _ (by omega)
    omega

end Sys2Proof.Machine
end

