-- ==== Sys2Proof/Laws/Access.lean ====
section
/-! SUPPORT. What the accessors read in an updated state: each update changes what its own accessor reads and nothing else. -/

namespace Sys2Proof.Machine

open Sys2Proof

/-! ### `me` -/

@[simp] theorem State.writeBytes_me (s : State) (a : Nat) (bs : List Byte) :
    (s.writeBytes a bs).me = s.me := rfl
@[simp] theorem State.memWrite_me (s : State) (a n v : Nat) :
    (s.memWrite a n v).me = s.me := rfl
@[simp] theorem State.fill_me (s : State) (a n : Nat) (v : Byte) :
    (s.fill a n v).me = s.me := rfl
@[simp] theorem State.wmb_me (s : State) :
    (s.wmb).me = s.me := rfl
@[simp] theorem State.rmb_me (s : State) :
    (s.rmb).me = s.me := rfl
@[simp] theorem State.mmio_me (s : State) (off : BitVec 8) (w0 w1 : Word) :
    (s.mmio off w0 w1).me = s.me := rfl
@[simp] theorem State.ring_me (s : State) (reg : DbReg) (i : Instr) :
    (s.ring reg i).me = s.me := rfl
@[simp] theorem State.setQp_me (s : State) (q : Nat) (x : Qp) :
    (s.setQp q x).me = s.me := rfl
@[simp] theorem State.setCq_me (s : State) (c : Nat) (x : Cq) :
    (s.setCq c x).me = s.me := rfl
@[simp] theorem State.setSrq_me (s : State) (r : Nat) (x : Srq) :
    (s.setSrq r x).me = s.me := rfl
@[simp] theorem State.emit_me (s : State) (e : EventRec) :
    (s.emit e).me = s.me := rfl
@[simp] theorem State.eraseQp_me (s : State) (q : Nat) :
    (s.eraseQp q).me = s.me := rfl
@[simp] theorem State.eraseCq_me (s : State) (c : Nat) :
    (s.eraseCq c).me = s.me := rfl
@[simp] theorem State.eraseSrq_me (s : State) (r : Nat) :
    (s.eraseSrq r).me = s.me := rfl

/-! ### `qp?` -/

@[simp] theorem State.writeBytes_qpOf (s : State) (a : Nat) (bs : List Byte) (q0 : Nat) :
    (s.writeBytes a bs).qp? q0 = s.qp? q0 := rfl
@[simp] theorem State.memWrite_qpOf (s : State) (a n v : Nat) (q0 : Nat) :
    (s.memWrite a n v).qp? q0 = s.qp? q0 := rfl
@[simp] theorem State.fill_qpOf (s : State) (a n : Nat) (v : Byte) (q0 : Nat) :
    (s.fill a n v).qp? q0 = s.qp? q0 := rfl
@[simp] theorem State.wmb_qpOf (s : State) (q0 : Nat) :
    (s.wmb).qp? q0 = s.qp? q0 := rfl
@[simp] theorem State.rmb_qpOf (s : State) (q0 : Nat) :
    (s.rmb).qp? q0 = s.qp? q0 := rfl
@[simp] theorem State.mmio_qpOf (s : State) (off : BitVec 8) (w0 w1 : Word) (q0 : Nat) :
    (s.mmio off w0 w1).qp? q0 = s.qp? q0 := rfl
@[simp] theorem State.ring_qpOf (s : State) (reg : DbReg) (i : Instr) (q0 : Nat) :
    (s.ring reg i).qp? q0 = s.qp? q0 := rfl
@[simp] theorem State.setCq_qpOf (s : State) (c : Nat) (x : Cq) (q0 : Nat) :
    (s.setCq c x).qp? q0 = s.qp? q0 := rfl
@[simp] theorem State.setSrq_qpOf (s : State) (r : Nat) (x : Srq) (q0 : Nat) :
    (s.setSrq r x).qp? q0 = s.qp? q0 := rfl
@[simp] theorem State.setMe_qpOf (s : State) (a : Agent) (q0 : Nat) :
    (s.setMe a).qp? q0 = s.qp? q0 := rfl
@[simp] theorem State.setResp_qpOf (s : State) (f : Response → Response) (q0 : Nat) :
    (s.setResp f).qp? q0 = s.qp? q0 := rfl
@[simp] theorem State.setBatch_qpOf (s : State) (b : Batch) (q0 : Nat) :
    (s.setBatch b).qp? q0 = s.qp? q0 := rfl
@[simp] theorem State.beginCmd_qpOf (s : State) (i : Instr) (q0 : Nat) :
    (s.beginCmd i).qp? q0 = s.qp? q0 := rfl
@[simp] theorem State.endCmd_qpOf (s : State) (q0 : Nat) :
    (s.endCmd).qp? q0 = s.qp? q0 := rfl
@[simp] theorem State.park_qpOf (s : State) (log : List Nat) (q0 : Nat) :
    (s.park log).qp? q0 = s.qp? q0 := rfl
@[simp] theorem State.emit_qpOf (s : State) (e : EventRec) (q0 : Nat) :
    (s.emit e).qp? q0 = s.qp? q0 := rfl
@[simp] theorem State.eraseCq_qpOf (s : State) (c : Nat) (q0 : Nat) :
    (s.eraseCq c).qp? q0 = s.qp? q0 := rfl
@[simp] theorem State.eraseSrq_qpOf (s : State) (r : Nat) (q0 : Nat) :
    (s.eraseSrq r).qp? q0 = s.qp? q0 := rfl

/-! ### `cq?` -/

@[simp] theorem State.writeBytes_cqOf (s : State) (a : Nat) (bs : List Byte) (c0 : Nat) :
    (s.writeBytes a bs).cq? c0 = s.cq? c0 := rfl
@[simp] theorem State.memWrite_cqOf (s : State) (a n v : Nat) (c0 : Nat) :
    (s.memWrite a n v).cq? c0 = s.cq? c0 := rfl
@[simp] theorem State.fill_cqOf (s : State) (a n : Nat) (v : Byte) (c0 : Nat) :
    (s.fill a n v).cq? c0 = s.cq? c0 := rfl
@[simp] theorem State.wmb_cqOf (s : State) (c0 : Nat) :
    (s.wmb).cq? c0 = s.cq? c0 := rfl
@[simp] theorem State.rmb_cqOf (s : State) (c0 : Nat) :
    (s.rmb).cq? c0 = s.cq? c0 := rfl
@[simp] theorem State.mmio_cqOf (s : State) (off : BitVec 8) (w0 w1 : Word) (c0 : Nat) :
    (s.mmio off w0 w1).cq? c0 = s.cq? c0 := rfl
@[simp] theorem State.ring_cqOf (s : State) (reg : DbReg) (i : Instr) (c0 : Nat) :
    (s.ring reg i).cq? c0 = s.cq? c0 := rfl
@[simp] theorem State.setQp_cqOf (s : State) (q : Nat) (x : Qp) (c0 : Nat) :
    (s.setQp q x).cq? c0 = s.cq? c0 := rfl
@[simp] theorem State.setSrq_cqOf (s : State) (r : Nat) (x : Srq) (c0 : Nat) :
    (s.setSrq r x).cq? c0 = s.cq? c0 := rfl
@[simp] theorem State.setMe_cqOf (s : State) (a : Agent) (c0 : Nat) :
    (s.setMe a).cq? c0 = s.cq? c0 := rfl
@[simp] theorem State.setResp_cqOf (s : State) (f : Response → Response) (c0 : Nat) :
    (s.setResp f).cq? c0 = s.cq? c0 := rfl
@[simp] theorem State.setBatch_cqOf (s : State) (b : Batch) (c0 : Nat) :
    (s.setBatch b).cq? c0 = s.cq? c0 := rfl
@[simp] theorem State.beginCmd_cqOf (s : State) (i : Instr) (c0 : Nat) :
    (s.beginCmd i).cq? c0 = s.cq? c0 := rfl
@[simp] theorem State.endCmd_cqOf (s : State) (c0 : Nat) :
    (s.endCmd).cq? c0 = s.cq? c0 := rfl
@[simp] theorem State.park_cqOf (s : State) (log : List Nat) (c0 : Nat) :
    (s.park log).cq? c0 = s.cq? c0 := rfl
@[simp] theorem State.emit_cqOf (s : State) (e : EventRec) (c0 : Nat) :
    (s.emit e).cq? c0 = s.cq? c0 := rfl
@[simp] theorem State.eraseQp_cqOf (s : State) (q : Nat) (c0 : Nat) :
    (s.eraseQp q).cq? c0 = s.cq? c0 := rfl
@[simp] theorem State.eraseSrq_cqOf (s : State) (r : Nat) (c0 : Nat) :
    (s.eraseSrq r).cq? c0 = s.cq? c0 := rfl

/-! ### `srq?` -/

@[simp] theorem State.writeBytes_srqOf (s : State) (a : Nat) (bs : List Byte) (r0 : Nat) :
    (s.writeBytes a bs).srq? r0 = s.srq? r0 := rfl
@[simp] theorem State.memWrite_srqOf (s : State) (a n v : Nat) (r0 : Nat) :
    (s.memWrite a n v).srq? r0 = s.srq? r0 := rfl
@[simp] theorem State.fill_srqOf (s : State) (a n : Nat) (v : Byte) (r0 : Nat) :
    (s.fill a n v).srq? r0 = s.srq? r0 := rfl
@[simp] theorem State.wmb_srqOf (s : State) (r0 : Nat) :
    (s.wmb).srq? r0 = s.srq? r0 := rfl
@[simp] theorem State.rmb_srqOf (s : State) (r0 : Nat) :
    (s.rmb).srq? r0 = s.srq? r0 := rfl
@[simp] theorem State.mmio_srqOf (s : State) (off : BitVec 8) (w0 w1 : Word) (r0 : Nat) :
    (s.mmio off w0 w1).srq? r0 = s.srq? r0 := rfl
@[simp] theorem State.ring_srqOf (s : State) (reg : DbReg) (i : Instr) (r0 : Nat) :
    (s.ring reg i).srq? r0 = s.srq? r0 := rfl
@[simp] theorem State.setQp_srqOf (s : State) (q : Nat) (x : Qp) (r0 : Nat) :
    (s.setQp q x).srq? r0 = s.srq? r0 := rfl
@[simp] theorem State.setCq_srqOf (s : State) (c : Nat) (x : Cq) (r0 : Nat) :
    (s.setCq c x).srq? r0 = s.srq? r0 := rfl
@[simp] theorem State.setMe_srqOf (s : State) (a : Agent) (r0 : Nat) :
    (s.setMe a).srq? r0 = s.srq? r0 := rfl
@[simp] theorem State.setResp_srqOf (s : State) (f : Response → Response) (r0 : Nat) :
    (s.setResp f).srq? r0 = s.srq? r0 := rfl
@[simp] theorem State.setBatch_srqOf (s : State) (b : Batch) (r0 : Nat) :
    (s.setBatch b).srq? r0 = s.srq? r0 := rfl
@[simp] theorem State.beginCmd_srqOf (s : State) (i : Instr) (r0 : Nat) :
    (s.beginCmd i).srq? r0 = s.srq? r0 := rfl
@[simp] theorem State.endCmd_srqOf (s : State) (r0 : Nat) :
    (s.endCmd).srq? r0 = s.srq? r0 := rfl
@[simp] theorem State.park_srqOf (s : State) (log : List Nat) (r0 : Nat) :
    (s.park log).srq? r0 = s.srq? r0 := rfl
@[simp] theorem State.emit_srqOf (s : State) (e : EventRec) (r0 : Nat) :
    (s.emit e).srq? r0 = s.srq? r0 := rfl
@[simp] theorem State.eraseQp_srqOf (s : State) (q : Nat) (r0 : Nat) :
    (s.eraseQp q).srq? r0 = s.srq? r0 := rfl
@[simp] theorem State.eraseCq_srqOf (s : State) (c : Nat) (r0 : Nat) :
    (s.eraseCq c).srq? r0 = s.srq? r0 := rfl

/-! ### `holder` -/

@[simp] theorem State.writeBytes_holder (s : State) (a : Nat) (bs : List Byte) (x0 : Lock) :
    (s.writeBytes a bs).holder x0 = s.holder x0 := rfl
@[simp] theorem State.memWrite_holder (s : State) (a n v : Nat) (x0 : Lock) :
    (s.memWrite a n v).holder x0 = s.holder x0 := rfl
@[simp] theorem State.fill_holder (s : State) (a n : Nat) (v : Byte) (x0 : Lock) :
    (s.fill a n v).holder x0 = s.holder x0 := rfl
@[simp] theorem State.wmb_holder (s : State) (x0 : Lock) :
    (s.wmb).holder x0 = s.holder x0 := rfl
@[simp] theorem State.rmb_holder (s : State) (x0 : Lock) :
    (s.rmb).holder x0 = s.holder x0 := rfl
@[simp] theorem State.mmio_holder (s : State) (off : BitVec 8) (w0 w1 : Word) (x0 : Lock) :
    (s.mmio off w0 w1).holder x0 = s.holder x0 := rfl
@[simp] theorem State.ring_holder (s : State) (reg : DbReg) (i : Instr) (x0 : Lock) :
    (s.ring reg i).holder x0 = s.holder x0 := rfl
@[simp] theorem State.setQp_holder (s : State) (q : Nat) (x : Qp) (x0 : Lock) :
    (s.setQp q x).holder x0 = s.holder x0 := rfl
@[simp] theorem State.setCq_holder (s : State) (c : Nat) (x : Cq) (x0 : Lock) :
    (s.setCq c x).holder x0 = s.holder x0 := rfl
@[simp] theorem State.setSrq_holder (s : State) (r : Nat) (x : Srq) (x0 : Lock) :
    (s.setSrq r x).holder x0 = s.holder x0 := rfl
@[simp] theorem State.setMe_holder (s : State) (a : Agent) (x0 : Lock) :
    (s.setMe a).holder x0 = s.holder x0 := rfl
@[simp] theorem State.setResp_holder (s : State) (f : Response → Response) (x0 : Lock) :
    (s.setResp f).holder x0 = s.holder x0 := rfl
@[simp] theorem State.setBatch_holder (s : State) (b : Batch) (x0 : Lock) :
    (s.setBatch b).holder x0 = s.holder x0 := rfl
@[simp] theorem State.beginCmd_holder (s : State) (i : Instr) (x0 : Lock) :
    (s.beginCmd i).holder x0 = s.holder x0 := rfl
@[simp] theorem State.endCmd_holder (s : State) (x0 : Lock) :
    (s.endCmd).holder x0 = s.holder x0 := rfl
@[simp] theorem State.park_holder (s : State) (log : List Nat) (x0 : Lock) :
    (s.park log).holder x0 = s.holder x0 := rfl
@[simp] theorem State.emit_holder (s : State) (e : EventRec) (x0 : Lock) :
    (s.emit e).holder x0 = s.holder x0 := rfl
@[simp] theorem State.eraseQp_holder (s : State) (q : Nat) (x0 : Lock) :
    (s.eraseQp q).holder x0 = s.holder x0 := rfl
@[simp] theorem State.eraseCq_holder (s : State) (c : Nat) (x0 : Lock) :
    (s.eraseCq c).holder x0 = s.holder x0 := rfl
@[simp] theorem State.eraseSrq_holder (s : State) (r : Nat) (x0 : Lock) :
    (s.eraseSrq r).holder x0 = s.holder x0 := rfl

/-! ### `entry` -/

@[simp] theorem State.writeBytes_entry (s : State) (a : Nat) (bs : List Byte) (k0 : Kind) (i0 : Nat) :
    (s.writeBytes a bs).entry k0 i0 = s.entry k0 i0 := by
  cases k0 <;> rfl
@[simp] theorem State.memWrite_entry (s : State) (a n v : Nat) (k0 : Kind) (i0 : Nat) :
    (s.memWrite a n v).entry k0 i0 = s.entry k0 i0 := by
  cases k0 <;> rfl
@[simp] theorem State.fill_entry (s : State) (a n : Nat) (v : Byte) (k0 : Kind) (i0 : Nat) :
    (s.fill a n v).entry k0 i0 = s.entry k0 i0 := by
  cases k0 <;> rfl
@[simp] theorem State.wmb_entry (s : State) (k0 : Kind) (i0 : Nat) :
    (s.wmb).entry k0 i0 = s.entry k0 i0 := by
  cases k0 <;> rfl
@[simp] theorem State.rmb_entry (s : State) (k0 : Kind) (i0 : Nat) :
    (s.rmb).entry k0 i0 = s.entry k0 i0 := by
  cases k0 <;> rfl
@[simp] theorem State.mmio_entry (s : State) (off : BitVec 8) (w0 w1 : Word) (k0 : Kind) (i0 : Nat) :
    (s.mmio off w0 w1).entry k0 i0 = s.entry k0 i0 := by
  cases k0 <;> rfl
@[simp] theorem State.ring_entry (s : State) (reg : DbReg) (i : Instr) (k0 : Kind) (i0 : Nat) :
    (s.ring reg i).entry k0 i0 = s.entry k0 i0 := by
  cases k0 <;> rfl
@[simp] theorem State.setQp_entry (s : State) (q : Nat) (x : Qp) (k0 : Kind) (i0 : Nat) :
    (s.setQp q x).entry k0 i0 = s.entry k0 i0 := by
  cases k0 <;> rfl
@[simp] theorem State.setCq_entry (s : State) (c : Nat) (x : Cq) (k0 : Kind) (i0 : Nat) :
    (s.setCq c x).entry k0 i0 = s.entry k0 i0 := by
  cases k0 <;> rfl
@[simp] theorem State.setSrq_entry (s : State) (r : Nat) (x : Srq) (k0 : Kind) (i0 : Nat) :
    (s.setSrq r x).entry k0 i0 = s.entry k0 i0 := by
  cases k0 <;> rfl
@[simp] theorem State.setMe_entry (s : State) (a : Agent) (k0 : Kind) (i0 : Nat) :
    (s.setMe a).entry k0 i0 = s.entry k0 i0 := by
  cases k0 <;> rfl
@[simp] theorem State.setResp_entry (s : State) (f : Response → Response) (k0 : Kind) (i0 : Nat) :
    (s.setResp f).entry k0 i0 = s.entry k0 i0 := by
  cases k0 <;> rfl
@[simp] theorem State.setBatch_entry (s : State) (b : Batch) (k0 : Kind) (i0 : Nat) :
    (s.setBatch b).entry k0 i0 = s.entry k0 i0 := by
  cases k0 <;> rfl
@[simp] theorem State.beginCmd_entry (s : State) (i : Instr) (k0 : Kind) (i0 : Nat) :
    (s.beginCmd i).entry k0 i0 = s.entry k0 i0 := by
  cases k0 <;> rfl
@[simp] theorem State.endCmd_entry (s : State) (k0 : Kind) (i0 : Nat) :
    (s.endCmd).entry k0 i0 = s.entry k0 i0 := by
  cases k0 <;> rfl
@[simp] theorem State.park_entry (s : State) (log : List Nat) (k0 : Kind) (i0 : Nat) :
    (s.park log).entry k0 i0 = s.entry k0 i0 := by
  cases k0 <;> rfl
@[simp] theorem State.emit_entry (s : State) (e : EventRec) (k0 : Kind) (i0 : Nat) :
    (s.emit e).entry k0 i0 = s.entry k0 i0 := by
  cases k0 <;> rfl
@[simp] theorem State.eraseQp_entry (s : State) (q : Nat) (k0 : Kind) (i0 : Nat) :
    (s.eraseQp q).entry k0 i0 = s.entry k0 i0 := by
  cases k0 <;> rfl
@[simp] theorem State.eraseCq_entry (s : State) (c : Nat) (k0 : Kind) (i0 : Nat) :
    (s.eraseCq c).entry k0 i0 = s.entry k0 i0 := by
  cases k0 <;> rfl
@[simp] theorem State.eraseSrq_entry (s : State) (r : Nat) (k0 : Kind) (i0 : Nat) :
    (s.eraseSrq r).entry k0 i0 = s.entry k0 i0 := by
  cases k0 <;> rfl

/-! ### `lookup` -/

@[simp] theorem State.writeBytes_lookup (s : State) (a : Nat) (bs : List Byte) (k0 : Kind) (h0 : Handle) :
    (s.writeBytes a bs).lookup k0 h0 = s.lookup k0 h0 := by
  cases k0 <;> rfl
@[simp] theorem State.memWrite_lookup (s : State) (a n v : Nat) (k0 : Kind) (h0 : Handle) :
    (s.memWrite a n v).lookup k0 h0 = s.lookup k0 h0 := by
  cases k0 <;> rfl
@[simp] theorem State.fill_lookup (s : State) (a n : Nat) (v : Byte) (k0 : Kind) (h0 : Handle) :
    (s.fill a n v).lookup k0 h0 = s.lookup k0 h0 := by
  cases k0 <;> rfl
@[simp] theorem State.wmb_lookup (s : State) (k0 : Kind) (h0 : Handle) :
    (s.wmb).lookup k0 h0 = s.lookup k0 h0 := by
  cases k0 <;> rfl
@[simp] theorem State.rmb_lookup (s : State) (k0 : Kind) (h0 : Handle) :
    (s.rmb).lookup k0 h0 = s.lookup k0 h0 := by
  cases k0 <;> rfl
@[simp] theorem State.mmio_lookup (s : State) (off : BitVec 8) (w0 w1 : Word) (k0 : Kind) (h0 : Handle) :
    (s.mmio off w0 w1).lookup k0 h0 = s.lookup k0 h0 := by
  cases k0 <;> rfl
@[simp] theorem State.ring_lookup (s : State) (reg : DbReg) (i : Instr) (k0 : Kind) (h0 : Handle) :
    (s.ring reg i).lookup k0 h0 = s.lookup k0 h0 := by
  cases k0 <;> rfl
@[simp] theorem State.setQp_lookup (s : State) (q : Nat) (x : Qp) (k0 : Kind) (h0 : Handle) :
    (s.setQp q x).lookup k0 h0 = s.lookup k0 h0 := by
  cases k0 <;> rfl
@[simp] theorem State.setCq_lookup (s : State) (c : Nat) (x : Cq) (k0 : Kind) (h0 : Handle) :
    (s.setCq c x).lookup k0 h0 = s.lookup k0 h0 := by
  cases k0 <;> rfl
@[simp] theorem State.setSrq_lookup (s : State) (r : Nat) (x : Srq) (k0 : Kind) (h0 : Handle) :
    (s.setSrq r x).lookup k0 h0 = s.lookup k0 h0 := by
  cases k0 <;> rfl
@[simp] theorem State.setMe_lookup (s : State) (a : Agent) (k0 : Kind) (h0 : Handle) :
    (s.setMe a).lookup k0 h0 = s.lookup k0 h0 := by
  cases k0 <;> rfl
@[simp] theorem State.setResp_lookup (s : State) (f : Response → Response) (k0 : Kind) (h0 : Handle) :
    (s.setResp f).lookup k0 h0 = s.lookup k0 h0 := by
  cases k0 <;> rfl
@[simp] theorem State.setBatch_lookup (s : State) (b : Batch) (k0 : Kind) (h0 : Handle) :
    (s.setBatch b).lookup k0 h0 = s.lookup k0 h0 := by
  cases k0 <;> rfl
@[simp] theorem State.beginCmd_lookup (s : State) (i : Instr) (k0 : Kind) (h0 : Handle) :
    (s.beginCmd i).lookup k0 h0 = s.lookup k0 h0 := by
  cases k0 <;> rfl
@[simp] theorem State.endCmd_lookup (s : State) (k0 : Kind) (h0 : Handle) :
    (s.endCmd).lookup k0 h0 = s.lookup k0 h0 := by
  cases k0 <;> rfl
@[simp] theorem State.park_lookup (s : State) (log : List Nat) (k0 : Kind) (h0 : Handle) :
    (s.park log).lookup k0 h0 = s.lookup k0 h0 := by
  cases k0 <;> rfl
@[simp] theorem State.emit_lookup (s : State) (e : EventRec) (k0 : Kind) (h0 : Handle) :
    (s.emit e).lookup k0 h0 = s.lookup k0 h0 := by
  cases k0 <;> rfl
@[simp] theorem State.eraseQp_lookup (s : State) (q : Nat) (k0 : Kind) (h0 : Handle) :
    (s.eraseQp q).lookup k0 h0 = s.lookup k0 h0 := by
  cases k0 <;> rfl
@[simp] theorem State.eraseCq_lookup (s : State) (c : Nat) (k0 : Kind) (h0 : Handle) :
    (s.eraseCq c).lookup k0 h0 = s.lookup k0 h0 := by
  cases k0 <;> rfl
@[simp] theorem State.eraseSrq_lookup (s : State) (r : Nat) (k0 : Kind) (h0 : Handle) :
    (s.eraseSrq r).lookup k0 h0 = s.lookup k0 h0 := by
  cases k0 <;> rfl

/-! ### `lookupNum` -/

@[simp] theorem State.writeBytes_lookupNum (s : State) (a : Nat) (bs : List Byte) (k0 : Kind) (n0 : Num24) :
    (s.writeBytes a bs).lookupNum k0 n0 = s.lookupNum k0 n0 := by
  cases k0 <;> rfl
@[simp] theorem State.memWrite_lookupNum (s : State) (a n v : Nat) (k0 : Kind) (n0 : Num24) :
    (s.memWrite a n v).lookupNum k0 n0 = s.lookupNum k0 n0 := by
  cases k0 <;> rfl
@[simp] theorem State.fill_lookupNum (s : State) (a n : Nat) (v : Byte) (k0 : Kind) (n0 : Num24) :
    (s.fill a n v).lookupNum k0 n0 = s.lookupNum k0 n0 := by
  cases k0 <;> rfl
@[simp] theorem State.wmb_lookupNum (s : State) (k0 : Kind) (n0 : Num24) :
    (s.wmb).lookupNum k0 n0 = s.lookupNum k0 n0 := by
  cases k0 <;> rfl
@[simp] theorem State.rmb_lookupNum (s : State) (k0 : Kind) (n0 : Num24) :
    (s.rmb).lookupNum k0 n0 = s.lookupNum k0 n0 := by
  cases k0 <;> rfl
@[simp] theorem State.mmio_lookupNum (s : State) (off : BitVec 8) (w0 w1 : Word) (k0 : Kind) (n0 : Num24) :
    (s.mmio off w0 w1).lookupNum k0 n0 = s.lookupNum k0 n0 := by
  cases k0 <;> rfl
@[simp] theorem State.ring_lookupNum (s : State) (reg : DbReg) (i : Instr) (k0 : Kind) (n0 : Num24) :
    (s.ring reg i).lookupNum k0 n0 = s.lookupNum k0 n0 := by
  cases k0 <;> rfl
@[simp] theorem State.setQp_lookupNum (s : State) (q : Nat) (x : Qp) (k0 : Kind) (n0 : Num24) :
    (s.setQp q x).lookupNum k0 n0 = s.lookupNum k0 n0 := by
  cases k0 <;> rfl
@[simp] theorem State.setCq_lookupNum (s : State) (c : Nat) (x : Cq) (k0 : Kind) (n0 : Num24) :
    (s.setCq c x).lookupNum k0 n0 = s.lookupNum k0 n0 := by
  cases k0 <;> rfl
@[simp] theorem State.setSrq_lookupNum (s : State) (r : Nat) (x : Srq) (k0 : Kind) (n0 : Num24) :
    (s.setSrq r x).lookupNum k0 n0 = s.lookupNum k0 n0 := by
  cases k0 <;> rfl
@[simp] theorem State.setMe_lookupNum (s : State) (a : Agent) (k0 : Kind) (n0 : Num24) :
    (s.setMe a).lookupNum k0 n0 = s.lookupNum k0 n0 := by
  cases k0 <;> rfl
@[simp] theorem State.setResp_lookupNum (s : State) (f : Response → Response) (k0 : Kind) (n0 : Num24) :
    (s.setResp f).lookupNum k0 n0 = s.lookupNum k0 n0 := by
  cases k0 <;> rfl
@[simp] theorem State.setBatch_lookupNum (s : State) (b : Batch) (k0 : Kind) (n0 : Num24) :
    (s.setBatch b).lookupNum k0 n0 = s.lookupNum k0 n0 := by
  cases k0 <;> rfl
@[simp] theorem State.beginCmd_lookupNum (s : State) (i : Instr) (k0 : Kind) (n0 : Num24) :
    (s.beginCmd i).lookupNum k0 n0 = s.lookupNum k0 n0 := by
  cases k0 <;> rfl
@[simp] theorem State.endCmd_lookupNum (s : State) (k0 : Kind) (n0 : Num24) :
    (s.endCmd).lookupNum k0 n0 = s.lookupNum k0 n0 := by
  cases k0 <;> rfl
@[simp] theorem State.park_lookupNum (s : State) (log : List Nat) (k0 : Kind) (n0 : Num24) :
    (s.park log).lookupNum k0 n0 = s.lookupNum k0 n0 := by
  cases k0 <;> rfl
@[simp] theorem State.emit_lookupNum (s : State) (e : EventRec) (k0 : Kind) (n0 : Num24) :
    (s.emit e).lookupNum k0 n0 = s.lookupNum k0 n0 := by
  cases k0 <;> rfl
@[simp] theorem State.eraseQp_lookupNum (s : State) (q : Nat) (k0 : Kind) (n0 : Num24) :
    (s.eraseQp q).lookupNum k0 n0 = s.lookupNum k0 n0 := by
  cases k0 <;> rfl
@[simp] theorem State.eraseCq_lookupNum (s : State) (c : Nat) (k0 : Kind) (n0 : Num24) :
    (s.eraseCq c).lookupNum k0 n0 = s.lookupNum k0 n0 := by
  cases k0 <;> rfl
@[simp] theorem State.eraseSrq_lookupNum (s : State) (r : Nat) (k0 : Kind) (n0 : Num24) :
    (s.eraseSrq r).lookupNum k0 n0 = s.lookupNum k0 n0 := by
  cases k0 <;> rfl

/-! ### `shardLock` -/

@[simp] theorem State.writeBytes_shardLock (s : State) (a : Nat) (bs : List Byte) (k0 : Kind) (i0 : Nat) :
    (s.writeBytes a bs).shardLock k0 i0 = s.shardLock k0 i0 := rfl
@[simp] theorem State.memWrite_shardLock (s : State) (a n v : Nat) (k0 : Kind) (i0 : Nat) :
    (s.memWrite a n v).shardLock k0 i0 = s.shardLock k0 i0 := rfl
@[simp] theorem State.fill_shardLock (s : State) (a n : Nat) (v : Byte) (k0 : Kind) (i0 : Nat) :
    (s.fill a n v).shardLock k0 i0 = s.shardLock k0 i0 := rfl
@[simp] theorem State.wmb_shardLock (s : State) (k0 : Kind) (i0 : Nat) :
    (s.wmb).shardLock k0 i0 = s.shardLock k0 i0 := rfl
@[simp] theorem State.rmb_shardLock (s : State) (k0 : Kind) (i0 : Nat) :
    (s.rmb).shardLock k0 i0 = s.shardLock k0 i0 := rfl
@[simp] theorem State.mmio_shardLock (s : State) (off : BitVec 8) (w0 w1 : Word) (k0 : Kind) (i0 : Nat) :
    (s.mmio off w0 w1).shardLock k0 i0 = s.shardLock k0 i0 := rfl
@[simp] theorem State.ring_shardLock (s : State) (reg : DbReg) (i : Instr) (k0 : Kind) (i0 : Nat) :
    (s.ring reg i).shardLock k0 i0 = s.shardLock k0 i0 := rfl
@[simp] theorem State.setQp_shardLock (s : State) (q : Nat) (x : Qp) (k0 : Kind) (i0 : Nat) :
    (s.setQp q x).shardLock k0 i0 = s.shardLock k0 i0 := rfl
@[simp] theorem State.setCq_shardLock (s : State) (c : Nat) (x : Cq) (k0 : Kind) (i0 : Nat) :
    (s.setCq c x).shardLock k0 i0 = s.shardLock k0 i0 := rfl
@[simp] theorem State.setSrq_shardLock (s : State) (r : Nat) (x : Srq) (k0 : Kind) (i0 : Nat) :
    (s.setSrq r x).shardLock k0 i0 = s.shardLock k0 i0 := rfl
@[simp] theorem State.setMe_shardLock (s : State) (a : Agent) (k0 : Kind) (i0 : Nat) :
    (s.setMe a).shardLock k0 i0 = s.shardLock k0 i0 := rfl
@[simp] theorem State.setResp_shardLock (s : State) (f : Response → Response) (k0 : Kind) (i0 : Nat) :
    (s.setResp f).shardLock k0 i0 = s.shardLock k0 i0 := rfl
@[simp] theorem State.setBatch_shardLock (s : State) (b : Batch) (k0 : Kind) (i0 : Nat) :
    (s.setBatch b).shardLock k0 i0 = s.shardLock k0 i0 := rfl
@[simp] theorem State.beginCmd_shardLock (s : State) (i : Instr) (k0 : Kind) (i0 : Nat) :
    (s.beginCmd i).shardLock k0 i0 = s.shardLock k0 i0 := rfl
@[simp] theorem State.endCmd_shardLock (s : State) (k0 : Kind) (i0 : Nat) :
    (s.endCmd).shardLock k0 i0 = s.shardLock k0 i0 := rfl
@[simp] theorem State.park_shardLock (s : State) (log : List Nat) (k0 : Kind) (i0 : Nat) :
    (s.park log).shardLock k0 i0 = s.shardLock k0 i0 := rfl
@[simp] theorem State.emit_shardLock (s : State) (e : EventRec) (k0 : Kind) (i0 : Nat) :
    (s.emit e).shardLock k0 i0 = s.shardLock k0 i0 := rfl
@[simp] theorem State.eraseQp_shardLock (s : State) (q : Nat) (k0 : Kind) (i0 : Nat) :
    (s.eraseQp q).shardLock k0 i0 = s.shardLock k0 i0 := rfl
@[simp] theorem State.eraseCq_shardLock (s : State) (c : Nat) (k0 : Kind) (i0 : Nat) :
    (s.eraseCq c).shardLock k0 i0 = s.shardLock k0 i0 := rfl
@[simp] theorem State.eraseSrq_shardLock (s : State) (r : Nat) (k0 : Kind) (i0 : Nat) :
    (s.eraseSrq r).shardLock k0 i0 = s.shardLock k0 i0 := rfl

/-! ### `indexOf` -/

@[simp] theorem State.writeBytes_indexOf (s : State) (a : Nat) (bs : List Byte) (k0 : Kind) (n0 : Num24) :
    (s.writeBytes a bs).indexOf k0 n0 = s.indexOf k0 n0 := rfl
@[simp] theorem State.memWrite_indexOf (s : State) (a n v : Nat) (k0 : Kind) (n0 : Num24) :
    (s.memWrite a n v).indexOf k0 n0 = s.indexOf k0 n0 := rfl
@[simp] theorem State.fill_indexOf (s : State) (a n : Nat) (v : Byte) (k0 : Kind) (n0 : Num24) :
    (s.fill a n v).indexOf k0 n0 = s.indexOf k0 n0 := rfl
@[simp] theorem State.wmb_indexOf (s : State) (k0 : Kind) (n0 : Num24) :
    (s.wmb).indexOf k0 n0 = s.indexOf k0 n0 := rfl
@[simp] theorem State.rmb_indexOf (s : State) (k0 : Kind) (n0 : Num24) :
    (s.rmb).indexOf k0 n0 = s.indexOf k0 n0 := rfl
@[simp] theorem State.mmio_indexOf (s : State) (off : BitVec 8) (w0 w1 : Word) (k0 : Kind) (n0 : Num24) :
    (s.mmio off w0 w1).indexOf k0 n0 = s.indexOf k0 n0 := rfl
@[simp] theorem State.ring_indexOf (s : State) (reg : DbReg) (i : Instr) (k0 : Kind) (n0 : Num24) :
    (s.ring reg i).indexOf k0 n0 = s.indexOf k0 n0 := rfl
@[simp] theorem State.setQp_indexOf (s : State) (q : Nat) (x : Qp) (k0 : Kind) (n0 : Num24) :
    (s.setQp q x).indexOf k0 n0 = s.indexOf k0 n0 := rfl
@[simp] theorem State.setCq_indexOf (s : State) (c : Nat) (x : Cq) (k0 : Kind) (n0 : Num24) :
    (s.setCq c x).indexOf k0 n0 = s.indexOf k0 n0 := rfl
@[simp] theorem State.setSrq_indexOf (s : State) (r : Nat) (x : Srq) (k0 : Kind) (n0 : Num24) :
    (s.setSrq r x).indexOf k0 n0 = s.indexOf k0 n0 := rfl
@[simp] theorem State.setMe_indexOf (s : State) (a : Agent) (k0 : Kind) (n0 : Num24) :
    (s.setMe a).indexOf k0 n0 = s.indexOf k0 n0 := rfl
@[simp] theorem State.setResp_indexOf (s : State) (f : Response → Response) (k0 : Kind) (n0 : Num24) :
    (s.setResp f).indexOf k0 n0 = s.indexOf k0 n0 := rfl
@[simp] theorem State.setBatch_indexOf (s : State) (b : Batch) (k0 : Kind) (n0 : Num24) :
    (s.setBatch b).indexOf k0 n0 = s.indexOf k0 n0 := rfl
@[simp] theorem State.beginCmd_indexOf (s : State) (i : Instr) (k0 : Kind) (n0 : Num24) :
    (s.beginCmd i).indexOf k0 n0 = s.indexOf k0 n0 := rfl
@[simp] theorem State.endCmd_indexOf (s : State) (k0 : Kind) (n0 : Num24) :
    (s.endCmd).indexOf k0 n0 = s.indexOf k0 n0 := rfl
@[simp] theorem State.park_indexOf (s : State) (log : List Nat) (k0 : Kind) (n0 : Num24) :
    (s.park log).indexOf k0 n0 = s.indexOf k0 n0 := rfl
@[simp] theorem State.emit_indexOf (s : State) (e : EventRec) (k0 : Kind) (n0 : Num24) :
    (s.emit e).indexOf k0 n0 = s.indexOf k0 n0 := rfl
@[simp] theorem State.eraseQp_indexOf (s : State) (q : Nat) (k0 : Kind) (n0 : Num24) :
    (s.eraseQp q).indexOf k0 n0 = s.indexOf k0 n0 := rfl
@[simp] theorem State.eraseCq_indexOf (s : State) (c : Nat) (k0 : Kind) (n0 : Num24) :
    (s.eraseCq c).indexOf k0 n0 = s.indexOf k0 n0 := rfl
@[simp] theorem State.eraseSrq_indexOf (s : State) (r : Nat) (k0 : Kind) (n0 : Num24) :
    (s.eraseSrq r).indexOf k0 n0 = s.indexOf k0 n0 := rfl

/-! ### `recAddr` -/

@[simp] theorem State.writeBytes_recAddr (s : State) (a : Nat) (bs : List Byte) (r0 : Nat) :
    (s.writeBytes a bs).recAddr r0 = s.recAddr r0 := rfl
@[simp] theorem State.memWrite_recAddr (s : State) (a n v : Nat) (r0 : Nat) :
    (s.memWrite a n v).recAddr r0 = s.recAddr r0 := rfl
@[simp] theorem State.fill_recAddr (s : State) (a n : Nat) (v : Byte) (r0 : Nat) :
    (s.fill a n v).recAddr r0 = s.recAddr r0 := rfl
@[simp] theorem State.wmb_recAddr (s : State) (r0 : Nat) :
    (s.wmb).recAddr r0 = s.recAddr r0 := rfl
@[simp] theorem State.rmb_recAddr (s : State) (r0 : Nat) :
    (s.rmb).recAddr r0 = s.recAddr r0 := rfl
@[simp] theorem State.mmio_recAddr (s : State) (off : BitVec 8) (w0 w1 : Word) (r0 : Nat) :
    (s.mmio off w0 w1).recAddr r0 = s.recAddr r0 := rfl
@[simp] theorem State.ring_recAddr (s : State) (reg : DbReg) (i : Instr) (r0 : Nat) :
    (s.ring reg i).recAddr r0 = s.recAddr r0 := rfl
@[simp] theorem State.setQp_recAddr (s : State) (q : Nat) (x : Qp) (r0 : Nat) :
    (s.setQp q x).recAddr r0 = s.recAddr r0 := rfl
@[simp] theorem State.setCq_recAddr (s : State) (c : Nat) (x : Cq) (r0 : Nat) :
    (s.setCq c x).recAddr r0 = s.recAddr r0 := rfl
@[simp] theorem State.setSrq_recAddr (s : State) (r : Nat) (x : Srq) (r0 : Nat) :
    (s.setSrq r x).recAddr r0 = s.recAddr r0 := rfl
@[simp] theorem State.setMe_recAddr (s : State) (a : Agent) (r0 : Nat) :
    (s.setMe a).recAddr r0 = s.recAddr r0 := rfl
@[simp] theorem State.setResp_recAddr (s : State) (f : Response → Response) (r0 : Nat) :
    (s.setResp f).recAddr r0 = s.recAddr r0 := rfl
@[simp] theorem State.setBatch_recAddr (s : State) (b : Batch) (r0 : Nat) :
    (s.setBatch b).recAddr r0 = s.recAddr r0 := rfl
@[simp] theorem State.beginCmd_recAddr (s : State) (i : Instr) (r0 : Nat) :
    (s.beginCmd i).recAddr r0 = s.recAddr r0 := rfl
@[simp] theorem State.endCmd_recAddr (s : State) (r0 : Nat) :
    (s.endCmd).recAddr r0 = s.recAddr r0 := rfl
@[simp] theorem State.park_recAddr (s : State) (log : List Nat) (r0 : Nat) :
    (s.park log).recAddr r0 = s.recAddr r0 := rfl
@[simp] theorem State.emit_recAddr (s : State) (e : EventRec) (r0 : Nat) :
    (s.emit e).recAddr r0 = s.recAddr r0 := rfl
@[simp] theorem State.eraseQp_recAddr (s : State) (q : Nat) (r0 : Nat) :
    (s.eraseQp q).recAddr r0 = s.recAddr r0 := rfl
@[simp] theorem State.eraseCq_recAddr (s : State) (c : Nat) (r0 : Nat) :
    (s.eraseCq c).recAddr r0 = s.recAddr r0 := rfl
@[simp] theorem State.eraseSrq_recAddr (s : State) (r : Nat) (r0 : Nat) :
    (s.eraseSrq r).recAddr r0 = s.recAddr r0 := rfl

/-! ### `regOff` -/

@[simp] theorem State.writeBytes_regOff (s : State) (a : Nat) (bs : List Byte) (g0 : DbReg) :
    (s.writeBytes a bs).regOff g0 = s.regOff g0 := rfl
@[simp] theorem State.memWrite_regOff (s : State) (a n v : Nat) (g0 : DbReg) :
    (s.memWrite a n v).regOff g0 = s.regOff g0 := rfl
@[simp] theorem State.fill_regOff (s : State) (a n : Nat) (v : Byte) (g0 : DbReg) :
    (s.fill a n v).regOff g0 = s.regOff g0 := rfl
@[simp] theorem State.wmb_regOff (s : State) (g0 : DbReg) :
    (s.wmb).regOff g0 = s.regOff g0 := rfl
@[simp] theorem State.rmb_regOff (s : State) (g0 : DbReg) :
    (s.rmb).regOff g0 = s.regOff g0 := rfl
@[simp] theorem State.mmio_regOff (s : State) (off : BitVec 8) (w0 w1 : Word) (g0 : DbReg) :
    (s.mmio off w0 w1).regOff g0 = s.regOff g0 := rfl
@[simp] theorem State.ring_regOff (s : State) (reg : DbReg) (i : Instr) (g0 : DbReg) :
    (s.ring reg i).regOff g0 = s.regOff g0 := rfl
@[simp] theorem State.setQp_regOff (s : State) (q : Nat) (x : Qp) (g0 : DbReg) :
    (s.setQp q x).regOff g0 = s.regOff g0 := rfl
@[simp] theorem State.setCq_regOff (s : State) (c : Nat) (x : Cq) (g0 : DbReg) :
    (s.setCq c x).regOff g0 = s.regOff g0 := rfl
@[simp] theorem State.setSrq_regOff (s : State) (r : Nat) (x : Srq) (g0 : DbReg) :
    (s.setSrq r x).regOff g0 = s.regOff g0 := rfl
@[simp] theorem State.setMe_regOff (s : State) (a : Agent) (g0 : DbReg) :
    (s.setMe a).regOff g0 = s.regOff g0 := rfl
@[simp] theorem State.setResp_regOff (s : State) (f : Response → Response) (g0 : DbReg) :
    (s.setResp f).regOff g0 = s.regOff g0 := rfl
@[simp] theorem State.setBatch_regOff (s : State) (b : Batch) (g0 : DbReg) :
    (s.setBatch b).regOff g0 = s.regOff g0 := rfl
@[simp] theorem State.beginCmd_regOff (s : State) (i : Instr) (g0 : DbReg) :
    (s.beginCmd i).regOff g0 = s.regOff g0 := rfl
@[simp] theorem State.endCmd_regOff (s : State) (g0 : DbReg) :
    (s.endCmd).regOff g0 = s.regOff g0 := rfl
@[simp] theorem State.park_regOff (s : State) (log : List Nat) (g0 : DbReg) :
    (s.park log).regOff g0 = s.regOff g0 := rfl
@[simp] theorem State.emit_regOff (s : State) (e : EventRec) (g0 : DbReg) :
    (s.emit e).regOff g0 = s.regOff g0 := rfl
@[simp] theorem State.eraseQp_regOff (s : State) (q : Nat) (g0 : DbReg) :
    (s.eraseQp q).regOff g0 = s.regOff g0 := rfl
@[simp] theorem State.eraseCq_regOff (s : State) (c : Nat) (g0 : DbReg) :
    (s.eraseCq c).regOff g0 = s.regOff g0 := rfl
@[simp] theorem State.eraseSrq_regOff (s : State) (r : Nat) (g0 : DbReg) :
    (s.eraseSrq r).regOff g0 = s.regOff g0 := rfl

/-! ### `heldCount` -/

@[simp] theorem State.writeBytes_heldCount (s : State) (a : Nat) (bs : List Byte) :
    (s.writeBytes a bs).heldCount = s.heldCount := rfl
@[simp] theorem State.memWrite_heldCount (s : State) (a n v : Nat) :
    (s.memWrite a n v).heldCount = s.heldCount := rfl
@[simp] theorem State.fill_heldCount (s : State) (a n : Nat) (v : Byte) :
    (s.fill a n v).heldCount = s.heldCount := rfl
@[simp] theorem State.wmb_heldCount (s : State) :
    (s.wmb).heldCount = s.heldCount := rfl
@[simp] theorem State.rmb_heldCount (s : State) :
    (s.rmb).heldCount = s.heldCount := rfl
@[simp] theorem State.mmio_heldCount (s : State) (off : BitVec 8) (w0 w1 : Word) :
    (s.mmio off w0 w1).heldCount = s.heldCount := rfl
@[simp] theorem State.ring_heldCount (s : State) (reg : DbReg) (i : Instr) :
    (s.ring reg i).heldCount = s.heldCount := rfl
@[simp] theorem State.setQp_heldCount (s : State) (q : Nat) (x : Qp) :
    (s.setQp q x).heldCount = s.heldCount := rfl
@[simp] theorem State.setCq_heldCount (s : State) (c : Nat) (x : Cq) :
    (s.setCq c x).heldCount = s.heldCount := rfl
@[simp] theorem State.setSrq_heldCount (s : State) (r : Nat) (x : Srq) :
    (s.setSrq r x).heldCount = s.heldCount := rfl
@[simp] theorem State.setMe_heldCount (s : State) (a : Agent) :
    (s.setMe a).heldCount = s.heldCount := rfl
@[simp] theorem State.setResp_heldCount (s : State) (f : Response → Response) :
    (s.setResp f).heldCount = s.heldCount := rfl
@[simp] theorem State.setBatch_heldCount (s : State) (b : Batch) :
    (s.setBatch b).heldCount = s.heldCount := rfl
@[simp] theorem State.beginCmd_heldCount (s : State) (i : Instr) :
    (s.beginCmd i).heldCount = s.heldCount := rfl
@[simp] theorem State.endCmd_heldCount (s : State) :
    (s.endCmd).heldCount = s.heldCount := rfl
@[simp] theorem State.park_heldCount (s : State) (log : List Nat) :
    (s.park log).heldCount = s.heldCount := rfl
@[simp] theorem State.emit_heldCount (s : State) (e : EventRec) :
    (s.emit e).heldCount = s.heldCount := rfl
@[simp] theorem State.eraseQp_heldCount (s : State) (q : Nat) :
    (s.eraseQp q).heldCount = s.heldCount := rfl
@[simp] theorem State.eraseCq_heldCount (s : State) (c : Nat) :
    (s.eraseCq c).heldCount = s.heldCount := rfl
@[simp] theorem State.eraseSrq_heldCount (s : State) (r : Nat) :
    (s.eraseSrq r).heldCount = s.heldCount := rfl

/-! ### The accessors in a state with one field written -/

@[simp] theorem State.setLocks_me (s : State) (l : List (Lock × Nat)) : (s.setLocks l).me = s.me := rfl
@[simp] theorem State.setMem_me (s : State) (m : List Host.Cell) : (s.setMem m).me = s.me := rfl
@[simp] theorem State.setBus_me (s : State) (l : List BusEvent) : (s.setBus l).me = s.me := rfl
@[simp] theorem State.setFw_me (s : State) (l : List FwAnswer) : (s.setFw l).me = s.me := rfl
@[simp] theorem State.setRecs_me (s : State) (used : List Nat) (free : Nat) : (s.setRecs used free).me = s.me := rfl
@[simp] theorem State.setRecBase_me (s : State) (a : BitVec 64) : (s.setRecBase a).me = s.me := rfl
@[simp] theorem State.setNextObj_me (s : State) (o : Nat) : (s.setNextObj o).me = s.me := rfl
@[simp] theorem State.setStarted_me (s : State) (b : Bool) : (s.setStarted b).me = s.me := rfl
@[simp] theorem State.setMode_me (s : State) (m : Mode) : (s.setMode m).me = s.me := rfl
@[simp] theorem State.setFatal_me (s : State) (b : Bool) : (s.setFatal b).me = s.me := rfl
@[simp] theorem State.setQuiet_me (s : State) (l : List Num24) : (s.setQuiet l).me = s.me := rfl
@[simp] theorem State.setEventQ_me (s : State) (l : List (List Byte)) : (s.setEventQ l).me = s.me := rfl
@[simp] theorem State.setInbox_me (s : State) (l : List Input) : (s.setInbox l).me = s.me := rfl
@[simp] theorem State.postCall_me (s : State) (c : MailboxCall) : (s.postCall c).me = s.me := rfl
@[simp] theorem State.setLocks_qpOf (s : State) (l : List (Lock × Nat)) (q0 : Nat) :
    (s.setLocks l).qp? q0 = s.qp? q0 := rfl
@[simp] theorem State.setMem_qpOf (s : State) (m : List Host.Cell) (q0 : Nat) : (s.setMem m).qp? q0 = s.qp? q0 := rfl
@[simp] theorem State.setBus_qpOf (s : State) (l : List BusEvent) (q0 : Nat) : (s.setBus l).qp? q0 = s.qp? q0 := rfl
@[simp] theorem State.setFw_qpOf (s : State) (l : List FwAnswer) (q0 : Nat) : (s.setFw l).qp? q0 = s.qp? q0 := rfl
@[simp] theorem State.setRecs_qpOf (s : State) (used : List Nat) (free : Nat) (q0 : Nat) :
    (s.setRecs used free).qp? q0 = s.qp? q0 := rfl
@[simp] theorem State.setRecBase_qpOf (s : State) (a : BitVec 64) (q0 : Nat) :
    (s.setRecBase a).qp? q0 = s.qp? q0 := rfl
@[simp] theorem State.setNextObj_qpOf (s : State) (o : Nat) (q0 : Nat) : (s.setNextObj o).qp? q0 = s.qp? q0 := rfl
@[simp] theorem State.setStarted_qpOf (s : State) (b : Bool) (q0 : Nat) : (s.setStarted b).qp? q0 = s.qp? q0 := rfl
@[simp] theorem State.setMode_qpOf (s : State) (m : Mode) (q0 : Nat) : (s.setMode m).qp? q0 = s.qp? q0 := rfl
@[simp] theorem State.setFatal_qpOf (s : State) (b : Bool) (q0 : Nat) : (s.setFatal b).qp? q0 = s.qp? q0 := rfl
@[simp] theorem State.setQuiet_qpOf (s : State) (l : List Num24) (q0 : Nat) : (s.setQuiet l).qp? q0 = s.qp? q0 := rfl
@[simp] theorem State.setEventQ_qpOf (s : State) (l : List (List Byte)) (q0 : Nat) :
    (s.setEventQ l).qp? q0 = s.qp? q0 := rfl
@[simp] theorem State.setInbox_qpOf (s : State) (l : List Input) (q0 : Nat) : (s.setInbox l).qp? q0 = s.qp? q0 := rfl
@[simp] theorem State.setCur_qpOf (s : State) (a : Nat) (q0 : Nat) : (s.setCur a).qp? q0 = s.qp? q0 := rfl
@[simp] theorem State.postCall_qpOf (s : State) (c : MailboxCall) (q0 : Nat) : (s.postCall c).qp? q0 = s.qp? q0 := rfl
@[simp] theorem State.setLocks_cqOf (s : State) (l : List (Lock × Nat)) (c0 : Nat) :
    (s.setLocks l).cq? c0 = s.cq? c0 := rfl
@[simp] theorem State.setMem_cqOf (s : State) (m : List Host.Cell) (c0 : Nat) : (s.setMem m).cq? c0 = s.cq? c0 := rfl
@[simp] theorem State.setBus_cqOf (s : State) (l : List BusEvent) (c0 : Nat) : (s.setBus l).cq? c0 = s.cq? c0 := rfl
@[simp] theorem State.setFw_cqOf (s : State) (l : List FwAnswer) (c0 : Nat) : (s.setFw l).cq? c0 = s.cq? c0 := rfl
@[simp] theorem State.setRecs_cqOf (s : State) (used : List Nat) (free : Nat) (c0 : Nat) :
    (s.setRecs used free).cq? c0 = s.cq? c0 := rfl
@[simp] theorem State.setRecBase_cqOf (s : State) (a : BitVec 64) (c0 : Nat) :
    (s.setRecBase a).cq? c0 = s.cq? c0 := rfl
@[simp] theorem State.setNextObj_cqOf (s : State) (o : Nat) (c0 : Nat) : (s.setNextObj o).cq? c0 = s.cq? c0 := rfl
@[simp] theorem State.setStarted_cqOf (s : State) (b : Bool) (c0 : Nat) : (s.setStarted b).cq? c0 = s.cq? c0 := rfl
@[simp] theorem State.setMode_cqOf (s : State) (m : Mode) (c0 : Nat) : (s.setMode m).cq? c0 = s.cq? c0 := rfl
@[simp] theorem State.setFatal_cqOf (s : State) (b : Bool) (c0 : Nat) : (s.setFatal b).cq? c0 = s.cq? c0 := rfl
@[simp] theorem State.setQuiet_cqOf (s : State) (l : List Num24) (c0 : Nat) : (s.setQuiet l).cq? c0 = s.cq? c0 := rfl
@[simp] theorem State.setEventQ_cqOf (s : State) (l : List (List Byte)) (c0 : Nat) :
    (s.setEventQ l).cq? c0 = s.cq? c0 := rfl
@[simp] theorem State.setInbox_cqOf (s : State) (l : List Input) (c0 : Nat) : (s.setInbox l).cq? c0 = s.cq? c0 := rfl
@[simp] theorem State.setCur_cqOf (s : State) (a : Nat) (c0 : Nat) : (s.setCur a).cq? c0 = s.cq? c0 := rfl
@[simp] theorem State.postCall_cqOf (s : State) (c : MailboxCall) (c0 : Nat) : (s.postCall c).cq? c0 = s.cq? c0 := rfl
@[simp] theorem State.setLocks_srqOf (s : State) (l : List (Lock × Nat)) (r0 : Nat) :
    (s.setLocks l).srq? r0 = s.srq? r0 := rfl
@[simp] theorem State.setMem_srqOf (s : State) (m : List Host.Cell) (r0 : Nat) :
    (s.setMem m).srq? r0 = s.srq? r0 := rfl
@[simp] theorem State.setBus_srqOf (s : State) (l : List BusEvent) (r0 : Nat) :
    (s.setBus l).srq? r0 = s.srq? r0 := rfl
@[simp] theorem State.setFw_srqOf (s : State) (l : List FwAnswer) (r0 : Nat) : (s.setFw l).srq? r0 = s.srq? r0 := rfl
@[simp] theorem State.setRecs_srqOf (s : State) (used : List Nat) (free : Nat) (r0 : Nat) :
    (s.setRecs used free).srq? r0 = s.srq? r0 := rfl
@[simp] theorem State.setRecBase_srqOf (s : State) (a : BitVec 64) (r0 : Nat) :
    (s.setRecBase a).srq? r0 = s.srq? r0 := rfl
@[simp] theorem State.setNextObj_srqOf (s : State) (o : Nat) (r0 : Nat) : (s.setNextObj o).srq? r0 = s.srq? r0 := rfl
@[simp] theorem State.setStarted_srqOf (s : State) (b : Bool) (r0 : Nat) : (s.setStarted b).srq? r0 = s.srq? r0 := rfl
@[simp] theorem State.setMode_srqOf (s : State) (m : Mode) (r0 : Nat) : (s.setMode m).srq? r0 = s.srq? r0 := rfl
@[simp] theorem State.setFatal_srqOf (s : State) (b : Bool) (r0 : Nat) : (s.setFatal b).srq? r0 = s.srq? r0 := rfl
@[simp] theorem State.setQuiet_srqOf (s : State) (l : List Num24) (r0 : Nat) :
    (s.setQuiet l).srq? r0 = s.srq? r0 := rfl
@[simp] theorem State.setEventQ_srqOf (s : State) (l : List (List Byte)) (r0 : Nat) :
    (s.setEventQ l).srq? r0 = s.srq? r0 := rfl
@[simp] theorem State.setInbox_srqOf (s : State) (l : List Input) (r0 : Nat) :
    (s.setInbox l).srq? r0 = s.srq? r0 := rfl
@[simp] theorem State.setCur_srqOf (s : State) (a : Nat) (r0 : Nat) : (s.setCur a).srq? r0 = s.srq? r0 := rfl
@[simp] theorem State.postCall_srqOf (s : State) (c : MailboxCall) (r0 : Nat) :
    (s.postCall c).srq? r0 = s.srq? r0 := rfl
@[simp] theorem State.setMem_holder (s : State) (m : List Host.Cell) (x0 : Lock) :
    (s.setMem m).holder x0 = s.holder x0 := rfl
@[simp] theorem State.setBus_holder (s : State) (l : List BusEvent) (x0 : Lock) :
    (s.setBus l).holder x0 = s.holder x0 := rfl
@[simp] theorem State.setFw_holder (s : State) (l : List FwAnswer) (x0 : Lock) :
    (s.setFw l).holder x0 = s.holder x0 := rfl
@[simp] theorem State.setRecs_holder (s : State) (used : List Nat) (free : Nat) (x0 : Lock) :
    (s.setRecs used free).holder x0 = s.holder x0 := rfl
@[simp] theorem State.setRecBase_holder (s : State) (a : BitVec 64) (x0 : Lock) :
    (s.setRecBase a).holder x0 = s.holder x0 := rfl
@[simp] theorem State.setNextObj_holder (s : State) (o : Nat) (x0 : Lock) :
    (s.setNextObj o).holder x0 = s.holder x0 := rfl
@[simp] theorem State.setStarted_holder (s : State) (b : Bool) (x0 : Lock) :
    (s.setStarted b).holder x0 = s.holder x0 := rfl
@[simp] theorem State.setMode_holder (s : State) (m : Mode) (x0 : Lock) : (s.setMode m).holder x0 = s.holder x0 := rfl
@[simp] theorem State.setFatal_holder (s : State) (b : Bool) (x0 : Lock) :
    (s.setFatal b).holder x0 = s.holder x0 := rfl
@[simp] theorem State.setQuiet_holder (s : State) (l : List Num24) (x0 : Lock) :
    (s.setQuiet l).holder x0 = s.holder x0 := rfl
@[simp] theorem State.setEventQ_holder (s : State) (l : List (List Byte)) (x0 : Lock) :
    (s.setEventQ l).holder x0 = s.holder x0 := rfl
@[simp] theorem State.setInbox_holder (s : State) (l : List Input) (x0 : Lock) :
    (s.setInbox l).holder x0 = s.holder x0 := rfl
@[simp] theorem State.setCur_holder (s : State) (a : Nat) (x0 : Lock) : (s.setCur a).holder x0 = s.holder x0 := rfl
@[simp] theorem State.postCall_holder (s : State) (c : MailboxCall) (x0 : Lock) :
    (s.postCall c).holder x0 = s.holder x0 := rfl
@[simp] theorem State.setLocks_entry (s : State) (l : List (Lock × Nat)) (k0 : Kind) (i0 : Nat) :
    (s.setLocks l).entry k0 i0 = s.entry k0 i0 := by
  cases k0 <;> rfl
@[simp] theorem State.setMem_entry (s : State) (m : List Host.Cell) (k0 : Kind) (i0 : Nat) :
    (s.setMem m).entry k0 i0 = s.entry k0 i0 := by
  cases k0 <;> rfl
@[simp] theorem State.setBus_entry (s : State) (l : List BusEvent) (k0 : Kind) (i0 : Nat) :
    (s.setBus l).entry k0 i0 = s.entry k0 i0 := by
  cases k0 <;> rfl
@[simp] theorem State.setFw_entry (s : State) (l : List FwAnswer) (k0 : Kind) (i0 : Nat) :
    (s.setFw l).entry k0 i0 = s.entry k0 i0 := by
  cases k0 <;> rfl
@[simp] theorem State.setRecs_entry (s : State) (used : List Nat) (free : Nat) (k0 : Kind) (i0 : Nat) :
    (s.setRecs used free).entry k0 i0 = s.entry k0 i0 := by
  cases k0 <;> rfl
@[simp] theorem State.setRecBase_entry (s : State) (a : BitVec 64) (k0 : Kind) (i0 : Nat) :
    (s.setRecBase a).entry k0 i0 = s.entry k0 i0 := by
  cases k0 <;> rfl
@[simp] theorem State.setNextObj_entry (s : State) (o : Nat) (k0 : Kind) (i0 : Nat) :
    (s.setNextObj o).entry k0 i0 = s.entry k0 i0 := by
  cases k0 <;> rfl
@[simp] theorem State.setStarted_entry (s : State) (b : Bool) (k0 : Kind) (i0 : Nat) :
    (s.setStarted b).entry k0 i0 = s.entry k0 i0 := by
  cases k0 <;> rfl
@[simp] theorem State.setMode_entry (s : State) (m : Mode) (k0 : Kind) (i0 : Nat) :
    (s.setMode m).entry k0 i0 = s.entry k0 i0 := by
  cases k0 <;> rfl
@[simp] theorem State.setFatal_entry (s : State) (b : Bool) (k0 : Kind) (i0 : Nat) :
    (s.setFatal b).entry k0 i0 = s.entry k0 i0 := by
  cases k0 <;> rfl
@[simp] theorem State.setQuiet_entry (s : State) (l : List Num24) (k0 : Kind) (i0 : Nat) :
    (s.setQuiet l).entry k0 i0 = s.entry k0 i0 := by
  cases k0 <;> rfl
@[simp] theorem State.setEventQ_entry (s : State) (l : List (List Byte)) (k0 : Kind) (i0 : Nat) :
    (s.setEventQ l).entry k0 i0 = s.entry k0 i0 := by
  cases k0 <;> rfl
@[simp] theorem State.setInbox_entry (s : State) (l : List Input) (k0 : Kind) (i0 : Nat) :
    (s.setInbox l).entry k0 i0 = s.entry k0 i0 := by
  cases k0 <;> rfl
@[simp] theorem State.setCur_entry (s : State) (a : Nat) (k0 : Kind) (i0 : Nat) :
    (s.setCur a).entry k0 i0 = s.entry k0 i0 := by
  cases k0 <;> rfl
@[simp] theorem State.postCall_entry (s : State) (c : MailboxCall) (k0 : Kind) (i0 : Nat) :
    (s.postCall c).entry k0 i0 = s.entry k0 i0 := by
  cases k0 <;> rfl
@[simp] theorem State.setLocks_lookup (s : State) (l : List (Lock × Nat)) (k0 : Kind) (h0 : Handle) :
    (s.setLocks l).lookup k0 h0 = s.lookup k0 h0 := by
  cases k0 <;> rfl
@[simp] theorem State.setMem_lookup (s : State) (m : List Host.Cell) (k0 : Kind) (h0 : Handle) :
    (s.setMem m).lookup k0 h0 = s.lookup k0 h0 := by
  cases k0 <;> rfl
@[simp] theorem State.setBus_lookup (s : State) (l : List BusEvent) (k0 : Kind) (h0 : Handle) :
    (s.setBus l).lookup k0 h0 = s.lookup k0 h0 := by
  cases k0 <;> rfl
@[simp] theorem State.setFw_lookup (s : State) (l : List FwAnswer) (k0 : Kind) (h0 : Handle) :
    (s.setFw l).lookup k0 h0 = s.lookup k0 h0 := by
  cases k0 <;> rfl
@[simp] theorem State.setRecs_lookup (s : State) (used : List Nat) (free : Nat) (k0 : Kind) (h0 : Handle) :
    (s.setRecs used free).lookup k0 h0 = s.lookup k0 h0 := by
  cases k0 <;> rfl
@[simp] theorem State.setRecBase_lookup (s : State) (a : BitVec 64) (k0 : Kind) (h0 : Handle) :
    (s.setRecBase a).lookup k0 h0 = s.lookup k0 h0 := by
  cases k0 <;> rfl
@[simp] theorem State.setNextObj_lookup (s : State) (o : Nat) (k0 : Kind) (h0 : Handle) :
    (s.setNextObj o).lookup k0 h0 = s.lookup k0 h0 := by
  cases k0 <;> rfl
@[simp] theorem State.setStarted_lookup (s : State) (b : Bool) (k0 : Kind) (h0 : Handle) :
    (s.setStarted b).lookup k0 h0 = s.lookup k0 h0 := by
  cases k0 <;> rfl
@[simp] theorem State.setMode_lookup (s : State) (m : Mode) (k0 : Kind) (h0 : Handle) :
    (s.setMode m).lookup k0 h0 = s.lookup k0 h0 := by
  cases k0 <;> rfl
@[simp] theorem State.setFatal_lookup (s : State) (b : Bool) (k0 : Kind) (h0 : Handle) :
    (s.setFatal b).lookup k0 h0 = s.lookup k0 h0 := by
  cases k0 <;> rfl
@[simp] theorem State.setQuiet_lookup (s : State) (l : List Num24) (k0 : Kind) (h0 : Handle) :
    (s.setQuiet l).lookup k0 h0 = s.lookup k0 h0 := by
  cases k0 <;> rfl
@[simp] theorem State.setEventQ_lookup (s : State) (l : List (List Byte)) (k0 : Kind) (h0 : Handle) :
    (s.setEventQ l).lookup k0 h0 = s.lookup k0 h0 := by
  cases k0 <;> rfl
@[simp] theorem State.setInbox_lookup (s : State) (l : List Input) (k0 : Kind) (h0 : Handle) :
    (s.setInbox l).lookup k0 h0 = s.lookup k0 h0 := by
  cases k0 <;> rfl
@[simp] theorem State.setCur_lookup (s : State) (a : Nat) (k0 : Kind) (h0 : Handle) :
    (s.setCur a).lookup k0 h0 = s.lookup k0 h0 := by
  cases k0 <;> rfl
@[simp] theorem State.postCall_lookup (s : State) (c : MailboxCall) (k0 : Kind) (h0 : Handle) :
    (s.postCall c).lookup k0 h0 = s.lookup k0 h0 := by
  cases k0 <;> rfl
@[simp] theorem State.setLocks_lookupNum (s : State) (l : List (Lock × Nat)) (k0 : Kind) (n0 : Num24) :
    (s.setLocks l).lookupNum k0 n0 = s.lookupNum k0 n0 := by
  cases k0 <;> rfl
@[simp] theorem State.setMem_lookupNum (s : State) (m : List Host.Cell) (k0 : Kind) (n0 : Num24) :
    (s.setMem m).lookupNum k0 n0 = s.lookupNum k0 n0 := by
  cases k0 <;> rfl
@[simp] theorem State.setBus_lookupNum (s : State) (l : List BusEvent) (k0 : Kind) (n0 : Num24) :
    (s.setBus l).lookupNum k0 n0 = s.lookupNum k0 n0 := by
  cases k0 <;> rfl
@[simp] theorem State.setFw_lookupNum (s : State) (l : List FwAnswer) (k0 : Kind) (n0 : Num24) :
    (s.setFw l).lookupNum k0 n0 = s.lookupNum k0 n0 := by
  cases k0 <;> rfl
@[simp] theorem State.setRecs_lookupNum (s : State) (used : List Nat) (free : Nat) (k0 : Kind) (n0 : Num24) :
    (s.setRecs used free).lookupNum k0 n0 = s.lookupNum k0 n0 := by
  cases k0 <;> rfl
@[simp] theorem State.setRecBase_lookupNum (s : State) (a : BitVec 64) (k0 : Kind) (n0 : Num24) :
    (s.setRecBase a).lookupNum k0 n0 = s.lookupNum k0 n0 := by
  cases k0 <;> rfl
@[simp] theorem State.setNextObj_lookupNum (s : State) (o : Nat) (k0 : Kind) (n0 : Num24) :
    (s.setNextObj o).lookupNum k0 n0 = s.lookupNum k0 n0 := by
  cases k0 <;> rfl
@[simp] theorem State.setStarted_lookupNum (s : State) (b : Bool) (k0 : Kind) (n0 : Num24) :
    (s.setStarted b).lookupNum k0 n0 = s.lookupNum k0 n0 := by
  cases k0 <;> rfl
@[simp] theorem State.setMode_lookupNum (s : State) (m : Mode) (k0 : Kind) (n0 : Num24) :
    (s.setMode m).lookupNum k0 n0 = s.lookupNum k0 n0 := by
  cases k0 <;> rfl
@[simp] theorem State.setFatal_lookupNum (s : State) (b : Bool) (k0 : Kind) (n0 : Num24) :
    (s.setFatal b).lookupNum k0 n0 = s.lookupNum k0 n0 := by
  cases k0 <;> rfl
@[simp] theorem State.setQuiet_lookupNum (s : State) (l : List Num24) (k0 : Kind) (n0 : Num24) :
    (s.setQuiet l).lookupNum k0 n0 = s.lookupNum k0 n0 := by
  cases k0 <;> rfl
@[simp] theorem State.setEventQ_lookupNum (s : State) (l : List (List Byte)) (k0 : Kind) (n0 : Num24) :
    (s.setEventQ l).lookupNum k0 n0 = s.lookupNum k0 n0 := by
  cases k0 <;> rfl
@[simp] theorem State.setInbox_lookupNum (s : State) (l : List Input) (k0 : Kind) (n0 : Num24) :
    (s.setInbox l).lookupNum k0 n0 = s.lookupNum k0 n0 := by
  cases k0 <;> rfl
@[simp] theorem State.setCur_lookupNum (s : State) (a : Nat) (k0 : Kind) (n0 : Num24) :
    (s.setCur a).lookupNum k0 n0 = s.lookupNum k0 n0 := by
  cases k0 <;> rfl
@[simp] theorem State.postCall_lookupNum (s : State) (c : MailboxCall) (k0 : Kind) (n0 : Num24) :
    (s.postCall c).lookupNum k0 n0 = s.lookupNum k0 n0 := by
  cases k0 <;> rfl
@[simp] theorem State.setLocks_shardLock (s : State) (l : List (Lock × Nat)) (k0 : Kind) (i0 : Nat) :
    (s.setLocks l).shardLock k0 i0 = s.shardLock k0 i0 := rfl
@[simp] theorem State.setMem_shardLock (s : State) (m : List Host.Cell) (k0 : Kind) (i0 : Nat) :
    (s.setMem m).shardLock k0 i0 = s.shardLock k0 i0 := rfl
@[simp] theorem State.setBus_shardLock (s : State) (l : List BusEvent) (k0 : Kind) (i0 : Nat) :
    (s.setBus l).shardLock k0 i0 = s.shardLock k0 i0 := rfl
@[simp] theorem State.setFw_shardLock (s : State) (l : List FwAnswer) (k0 : Kind) (i0 : Nat) :
    (s.setFw l).shardLock k0 i0 = s.shardLock k0 i0 := rfl
@[simp] theorem State.setRecs_shardLock (s : State) (used : List Nat) (free : Nat) (k0 : Kind) (i0 : Nat) :
    (s.setRecs used free).shardLock k0 i0 = s.shardLock k0 i0 := rfl
@[simp] theorem State.setRecBase_shardLock (s : State) (a : BitVec 64) (k0 : Kind) (i0 : Nat) :
    (s.setRecBase a).shardLock k0 i0 = s.shardLock k0 i0 := rfl
@[simp] theorem State.setNextObj_shardLock (s : State) (o : Nat) (k0 : Kind) (i0 : Nat) :
    (s.setNextObj o).shardLock k0 i0 = s.shardLock k0 i0 := rfl
@[simp] theorem State.setStarted_shardLock (s : State) (b : Bool) (k0 : Kind) (i0 : Nat) :
    (s.setStarted b).shardLock k0 i0 = s.shardLock k0 i0 := rfl
@[simp] theorem State.setMode_shardLock (s : State) (m : Mode) (k0 : Kind) (i0 : Nat) :
    (s.setMode m).shardLock k0 i0 = s.shardLock k0 i0 := rfl
@[simp] theorem State.setFatal_shardLock (s : State) (b : Bool) (k0 : Kind) (i0 : Nat) :
    (s.setFatal b).shardLock k0 i0 = s.shardLock k0 i0 := rfl
@[simp] theorem State.setQuiet_shardLock (s : State) (l : List Num24) (k0 : Kind) (i0 : Nat) :
    (s.setQuiet l).shardLock k0 i0 = s.shardLock k0 i0 := rfl
@[simp] theorem State.setEventQ_shardLock (s : State) (l : List (List Byte)) (k0 : Kind) (i0 : Nat) :
    (s.setEventQ l).shardLock k0 i0 = s.shardLock k0 i0 := rfl
@[simp] theorem State.setInbox_shardLock (s : State) (l : List Input) (k0 : Kind) (i0 : Nat) :
    (s.setInbox l).shardLock k0 i0 = s.shardLock k0 i0 := rfl
@[simp] theorem State.setCur_shardLock (s : State) (a : Nat) (k0 : Kind) (i0 : Nat) :
    (s.setCur a).shardLock k0 i0 = s.shardLock k0 i0 := rfl
@[simp] theorem State.postCall_shardLock (s : State) (c : MailboxCall) (k0 : Kind) (i0 : Nat) :
    (s.postCall c).shardLock k0 i0 = s.shardLock k0 i0 := rfl
@[simp] theorem State.setLocks_indexOf (s : State) (l : List (Lock × Nat)) (k0 : Kind) (n0 : Num24) :
    (s.setLocks l).indexOf k0 n0 = s.indexOf k0 n0 := rfl
@[simp] theorem State.setMem_indexOf (s : State) (m : List Host.Cell) (k0 : Kind) (n0 : Num24) :
    (s.setMem m).indexOf k0 n0 = s.indexOf k0 n0 := rfl
@[simp] theorem State.setBus_indexOf (s : State) (l : List BusEvent) (k0 : Kind) (n0 : Num24) :
    (s.setBus l).indexOf k0 n0 = s.indexOf k0 n0 := rfl
@[simp] theorem State.setFw_indexOf (s : State) (l : List FwAnswer) (k0 : Kind) (n0 : Num24) :
    (s.setFw l).indexOf k0 n0 = s.indexOf k0 n0 := rfl
@[simp] theorem State.setRecs_indexOf (s : State) (used : List Nat) (free : Nat) (k0 : Kind) (n0 : Num24) :
    (s.setRecs used free).indexOf k0 n0 = s.indexOf k0 n0 := rfl
@[simp] theorem State.setRecBase_indexOf (s : State) (a : BitVec 64) (k0 : Kind) (n0 : Num24) :
    (s.setRecBase a).indexOf k0 n0 = s.indexOf k0 n0 := rfl
@[simp] theorem State.setNextObj_indexOf (s : State) (o : Nat) (k0 : Kind) (n0 : Num24) :
    (s.setNextObj o).indexOf k0 n0 = s.indexOf k0 n0 := rfl
@[simp] theorem State.setStarted_indexOf (s : State) (b : Bool) (k0 : Kind) (n0 : Num24) :
    (s.setStarted b).indexOf k0 n0 = s.indexOf k0 n0 := rfl
@[simp] theorem State.setMode_indexOf (s : State) (m : Mode) (k0 : Kind) (n0 : Num24) :
    (s.setMode m).indexOf k0 n0 = s.indexOf k0 n0 := rfl
@[simp] theorem State.setFatal_indexOf (s : State) (b : Bool) (k0 : Kind) (n0 : Num24) :
    (s.setFatal b).indexOf k0 n0 = s.indexOf k0 n0 := rfl
@[simp] theorem State.setQuiet_indexOf (s : State) (l : List Num24) (k0 : Kind) (n0 : Num24) :
    (s.setQuiet l).indexOf k0 n0 = s.indexOf k0 n0 := rfl
@[simp] theorem State.setEventQ_indexOf (s : State) (l : List (List Byte)) (k0 : Kind) (n0 : Num24) :
    (s.setEventQ l).indexOf k0 n0 = s.indexOf k0 n0 := rfl
@[simp] theorem State.setInbox_indexOf (s : State) (l : List Input) (k0 : Kind) (n0 : Num24) :
    (s.setInbox l).indexOf k0 n0 = s.indexOf k0 n0 := rfl
@[simp] theorem State.setCur_indexOf (s : State) (a : Nat) (k0 : Kind) (n0 : Num24) :
    (s.setCur a).indexOf k0 n0 = s.indexOf k0 n0 := rfl
@[simp] theorem State.postCall_indexOf (s : State) (c : MailboxCall) (k0 : Kind) (n0 : Num24) :
    (s.postCall c).indexOf k0 n0 = s.indexOf k0 n0 := rfl
@[simp] theorem State.setLocks_recAddr (s : State) (l : List (Lock × Nat)) (r0 : Nat) :
    (s.setLocks l).recAddr r0 = s.recAddr r0 := rfl
@[simp] theorem State.setMem_recAddr (s : State) (m : List Host.Cell) (r0 : Nat) :
    (s.setMem m).recAddr r0 = s.recAddr r0 := rfl
@[simp] theorem State.setBus_recAddr (s : State) (l : List BusEvent) (r0 : Nat) :
    (s.setBus l).recAddr r0 = s.recAddr r0 := rfl
@[simp] theorem State.setFw_recAddr (s : State) (l : List FwAnswer) (r0 : Nat) :
    (s.setFw l).recAddr r0 = s.recAddr r0 := rfl
@[simp] theorem State.setRecs_recAddr (s : State) (used : List Nat) (free : Nat) (r0 : Nat) :
    (s.setRecs used free).recAddr r0 = s.recAddr r0 := rfl
@[simp] theorem State.setNextObj_recAddr (s : State) (o : Nat) (r0 : Nat) :
    (s.setNextObj o).recAddr r0 = s.recAddr r0 := rfl
@[simp] theorem State.setStarted_recAddr (s : State) (b : Bool) (r0 : Nat) :
    (s.setStarted b).recAddr r0 = s.recAddr r0 := rfl
@[simp] theorem State.setMode_recAddr (s : State) (m : Mode) (r0 : Nat) :
    (s.setMode m).recAddr r0 = s.recAddr r0 := rfl
@[simp] theorem State.setFatal_recAddr (s : State) (b : Bool) (r0 : Nat) :
    (s.setFatal b).recAddr r0 = s.recAddr r0 := rfl
@[simp] theorem State.setQuiet_recAddr (s : State) (l : List Num24) (r0 : Nat) :
    (s.setQuiet l).recAddr r0 = s.recAddr r0 := rfl
@[simp] theorem State.setEventQ_recAddr (s : State) (l : List (List Byte)) (r0 : Nat) :
    (s.setEventQ l).recAddr r0 = s.recAddr r0 := rfl
@[simp] theorem State.setInbox_recAddr (s : State) (l : List Input) (r0 : Nat) :
    (s.setInbox l).recAddr r0 = s.recAddr r0 := rfl
@[simp] theorem State.setCur_recAddr (s : State) (a : Nat) (r0 : Nat) : (s.setCur a).recAddr r0 = s.recAddr r0 := rfl
@[simp] theorem State.postCall_recAddr (s : State) (c : MailboxCall) (r0 : Nat) :
    (s.postCall c).recAddr r0 = s.recAddr r0 := rfl
@[simp] theorem State.setLocks_regOff (s : State) (l : List (Lock × Nat)) (g0 : DbReg) :
    (s.setLocks l).regOff g0 = s.regOff g0 := rfl
@[simp] theorem State.setMem_regOff (s : State) (m : List Host.Cell) (g0 : DbReg) :
    (s.setMem m).regOff g0 = s.regOff g0 := rfl
@[simp] theorem State.setBus_regOff (s : State) (l : List BusEvent) (g0 : DbReg) :
    (s.setBus l).regOff g0 = s.regOff g0 := rfl
@[simp] theorem State.setFw_regOff (s : State) (l : List FwAnswer) (g0 : DbReg) :
    (s.setFw l).regOff g0 = s.regOff g0 := rfl
@[simp] theorem State.setRecs_regOff (s : State) (used : List Nat) (free : Nat) (g0 : DbReg) :
    (s.setRecs used free).regOff g0 = s.regOff g0 := rfl
@[simp] theorem State.setRecBase_regOff (s : State) (a : BitVec 64) (g0 : DbReg) :
    (s.setRecBase a).regOff g0 = s.regOff g0 := rfl
@[simp] theorem State.setNextObj_regOff (s : State) (o : Nat) (g0 : DbReg) :
    (s.setNextObj o).regOff g0 = s.regOff g0 := rfl
@[simp] theorem State.setStarted_regOff (s : State) (b : Bool) (g0 : DbReg) :
    (s.setStarted b).regOff g0 = s.regOff g0 := rfl
@[simp] theorem State.setMode_regOff (s : State) (m : Mode) (g0 : DbReg) :
    (s.setMode m).regOff g0 = s.regOff g0 := rfl
@[simp] theorem State.setFatal_regOff (s : State) (b : Bool) (g0 : DbReg) :
    (s.setFatal b).regOff g0 = s.regOff g0 := rfl
@[simp] theorem State.setQuiet_regOff (s : State) (l : List Num24) (g0 : DbReg) :
    (s.setQuiet l).regOff g0 = s.regOff g0 := rfl
@[simp] theorem State.setEventQ_regOff (s : State) (l : List (List Byte)) (g0 : DbReg) :
    (s.setEventQ l).regOff g0 = s.regOff g0 := rfl
@[simp] theorem State.setInbox_regOff (s : State) (l : List Input) (g0 : DbReg) :
    (s.setInbox l).regOff g0 = s.regOff g0 := rfl
@[simp] theorem State.setCur_regOff (s : State) (a : Nat) (g0 : DbReg) : (s.setCur a).regOff g0 = s.regOff g0 := rfl
@[simp] theorem State.postCall_regOff (s : State) (c : MailboxCall) (g0 : DbReg) :
    (s.postCall c).regOff g0 = s.regOff g0 := rfl
@[simp] theorem State.setMem_heldCount (s : State) (m : List Host.Cell) : (s.setMem m).heldCount = s.heldCount := rfl
@[simp] theorem State.setBus_heldCount (s : State) (l : List BusEvent) : (s.setBus l).heldCount = s.heldCount := rfl
@[simp] theorem State.setFw_heldCount (s : State) (l : List FwAnswer) : (s.setFw l).heldCount = s.heldCount := rfl
@[simp] theorem State.setRecs_heldCount (s : State) (used : List Nat) (free : Nat) :
    (s.setRecs used free).heldCount = s.heldCount := rfl
@[simp] theorem State.setRecBase_heldCount (s : State) (a : BitVec 64) :
    (s.setRecBase a).heldCount = s.heldCount := rfl
@[simp] theorem State.setNextObj_heldCount (s : State) (o : Nat) : (s.setNextObj o).heldCount = s.heldCount := rfl
@[simp] theorem State.setStarted_heldCount (s : State) (b : Bool) : (s.setStarted b).heldCount = s.heldCount := rfl
@[simp] theorem State.setMode_heldCount (s : State) (m : Mode) : (s.setMode m).heldCount = s.heldCount := rfl
@[simp] theorem State.setFatal_heldCount (s : State) (b : Bool) : (s.setFatal b).heldCount = s.heldCount := rfl
@[simp] theorem State.setQuiet_heldCount (s : State) (l : List Num24) : (s.setQuiet l).heldCount = s.heldCount := rfl
@[simp] theorem State.setEventQ_heldCount (s : State) (l : List (List Byte)) :
    (s.setEventQ l).heldCount = s.heldCount := rfl
@[simp] theorem State.setInbox_heldCount (s : State) (l : List Input) : (s.setInbox l).heldCount = s.heldCount := rfl
@[simp] theorem State.postCall_heldCount (s : State) (c : MailboxCall) : (s.postCall c).heldCount = s.heldCount := rfl
@[simp] theorem State.setLocks_otherBusy (s : State) (l : List (Lock × Nat)) (p : Nat → Agent → Instr → Bool) :
    (s.setLocks l).otherBusy p = s.otherBusy p := rfl
@[simp] theorem State.setMem_otherBusy (s : State) (m : List Host.Cell) (p : Nat → Agent → Instr → Bool) :
    (s.setMem m).otherBusy p = s.otherBusy p := rfl
@[simp] theorem State.setBus_otherBusy (s : State) (l : List BusEvent) (p : Nat → Agent → Instr → Bool) :
    (s.setBus l).otherBusy p = s.otherBusy p := rfl
@[simp] theorem State.setFw_otherBusy (s : State) (l : List FwAnswer) (p : Nat → Agent → Instr → Bool) :
    (s.setFw l).otherBusy p = s.otherBusy p := rfl
@[simp] theorem State.setRecs_otherBusy (s : State) (used : List Nat) (free : Nat) (p : Nat → Agent → Instr → Bool) :
    (s.setRecs used free).otherBusy p = s.otherBusy p := rfl
@[simp] theorem State.setRecBase_otherBusy (s : State) (a : BitVec 64) (p : Nat → Agent → Instr → Bool) :
    (s.setRecBase a).otherBusy p = s.otherBusy p := rfl
@[simp] theorem State.setNextObj_otherBusy (s : State) (o : Nat) (p : Nat → Agent → Instr → Bool) :
    (s.setNextObj o).otherBusy p = s.otherBusy p := rfl
@[simp] theorem State.setStarted_otherBusy (s : State) (b : Bool) (p : Nat → Agent → Instr → Bool) :
    (s.setStarted b).otherBusy p = s.otherBusy p := rfl
@[simp] theorem State.setMode_otherBusy (s : State) (m : Mode) (p : Nat → Agent → Instr → Bool) :
    (s.setMode m).otherBusy p = s.otherBusy p := rfl
@[simp] theorem State.setFatal_otherBusy (s : State) (b : Bool) (p : Nat → Agent → Instr → Bool) :
    (s.setFatal b).otherBusy p = s.otherBusy p := rfl
@[simp] theorem State.setQuiet_otherBusy (s : State) (l : List Num24) (p : Nat → Agent → Instr → Bool) :
    (s.setQuiet l).otherBusy p = s.otherBusy p := rfl
@[simp] theorem State.setEventQ_otherBusy (s : State) (l : List (List Byte)) (p : Nat → Agent → Instr → Bool) :
    (s.setEventQ l).otherBusy p = s.otherBusy p := rfl
@[simp] theorem State.setInbox_otherBusy (s : State) (l : List Input) (p : Nat → Agent → Instr → Bool) :
    (s.setInbox l).otherBusy p = s.otherBusy p := rfl
@[simp] theorem State.postCall_otherBusy (s : State) (c : MailboxCall) (p : Nat → Agent → Instr → Bool) :
    (s.postCall c).otherBusy p = s.otherBusy p := rfl

@[simp] theorem State.setAgents_qpOf (s : State) (l : List (Nat × Agent)) (q0 : Nat) :
    (s.setAgents l).qp? q0 = s.qp? q0 := rfl
@[simp] theorem State.setAgents_cqOf (s : State) (l : List (Nat × Agent)) (c0 : Nat) :
    (s.setAgents l).cq? c0 = s.cq? c0 := rfl
@[simp] theorem State.setAgents_srqOf (s : State) (l : List (Nat × Agent)) (r0 : Nat) :
    (s.setAgents l).srq? r0 = s.srq? r0 := rfl
@[simp] theorem State.setAgents_holder (s : State) (l : List (Nat × Agent)) (x0 : Lock) :
    (s.setAgents l).holder x0 = s.holder x0 := rfl
@[simp] theorem State.setAgents_entry (s : State) (l : List (Nat × Agent)) (k0 : Kind) (i0 : Nat) :
    (s.setAgents l).entry k0 i0 = s.entry k0 i0 := by
  cases k0 <;> rfl
@[simp] theorem State.setAgents_lookup (s : State) (l : List (Nat × Agent)) (k0 : Kind) (h0 : Handle) :
    (s.setAgents l).lookup k0 h0 = s.lookup k0 h0 := by
  cases k0 <;> rfl
@[simp] theorem State.setAgents_lookupNum (s : State) (l : List (Nat × Agent)) (k0 : Kind) (n0 : Num24) :
    (s.setAgents l).lookupNum k0 n0 = s.lookupNum k0 n0 := by
  cases k0 <;> rfl
@[simp] theorem State.setAgents_shardLock (s : State) (l : List (Nat × Agent)) (k0 : Kind) (i0 : Nat) :
    (s.setAgents l).shardLock k0 i0 = s.shardLock k0 i0 := rfl
@[simp] theorem State.setAgents_indexOf (s : State) (l : List (Nat × Agent)) (k0 : Kind) (n0 : Num24) :
    (s.setAgents l).indexOf k0 n0 = s.indexOf k0 n0 := rfl
@[simp] theorem State.setAgents_recAddr (s : State) (l : List (Nat × Agent)) (r0 : Nat) :
    (s.setAgents l).recAddr r0 = s.recAddr r0 := rfl
@[simp] theorem State.setAgents_regOff (s : State) (l : List (Nat × Agent)) (g0 : DbReg) :
    (s.setAgents l).regOff g0 = s.regOff g0 := rfl
@[simp] theorem State.setAgents_heldCount (s : State) (l : List (Nat × Agent)) :
    (s.setAgents l).heldCount = s.heldCount := rfl
@[simp] theorem State.setCur_me (s : State) (a : Nat) : (s.setCur a).me = s.agent a := rfl

/-! ### The accessors in a state with an entry written -/

@[simp] theorem State.setEntry_me (s : State) (k : Kind) (i : Nat) (e : Entry) :
    (s.setEntry k i e).me = s.me := by
  cases k <;> rfl
@[simp] theorem State.setEntry_qpOf (s : State) (k : Kind) (i : Nat) (e : Entry) (q0 : Nat) :
    (s.setEntry k i e).qp? q0 = s.qp? q0 := by
  cases k <;> rfl
@[simp] theorem State.setEntry_cqOf (s : State) (k : Kind) (i : Nat) (e : Entry) (c0 : Nat) :
    (s.setEntry k i e).cq? c0 = s.cq? c0 := by
  cases k <;> rfl
@[simp] theorem State.setEntry_srqOf (s : State) (k : Kind) (i : Nat) (e : Entry) (r0 : Nat) :
    (s.setEntry k i e).srq? r0 = s.srq? r0 := by
  cases k <;> rfl
@[simp] theorem State.setEntry_holder (s : State) (k : Kind) (i : Nat) (e : Entry) (x0 : Lock) :
    (s.setEntry k i e).holder x0 = s.holder x0 := by
  cases k <;> rfl
@[simp] theorem State.setEntry_shardLock (s : State) (k : Kind) (i : Nat) (e : Entry) (k0 : Kind) (i0 : Nat) :
    (s.setEntry k i e).shardLock k0 i0 = s.shardLock k0 i0 := by
  cases k <;> rfl
@[simp] theorem State.setEntry_indexOf (s : State) (k : Kind) (i : Nat) (e : Entry) (k0 : Kind) (n0 : Num24) :
    (s.setEntry k i e).indexOf k0 n0 = s.indexOf k0 n0 := by
  cases k <;> rfl
@[simp] theorem State.setEntry_recAddr (s : State) (k : Kind) (i : Nat) (e : Entry) (r0 : Nat) :
    (s.setEntry k i e).recAddr r0 = s.recAddr r0 := by
  cases k <;> rfl
@[simp] theorem State.setEntry_regOff (s : State) (k : Kind) (i : Nat) (e : Entry) (g0 : DbReg) :
    (s.setEntry k i e).regOff g0 = s.regOff g0 := by
  cases k <;> rfl
@[simp] theorem State.setEntry_heldCount (s : State) (k : Kind) (i : Nat) (e : Entry) :
    (s.setEntry k i e).heldCount = s.heldCount := by
  cases k <;> rfl
@[simp] theorem State.setEntry_otherBusy (s : State) (k : Kind) (i : Nat) (e : Entry) (p : Nat → Agent → Instr → Bool) :
    (s.setEntry k i e).otherBusy p = s.otherBusy p := by
  cases k <;> rfl

theorem State.setEntry_lookup_ne (s : State) {k j : Kind} (i : Nat) (e : Entry) (h : Handle) (hj : j ≠ k) :
    (s.setEntry k i e).lookup j h = s.lookup j h := by
  cases k <;> cases j <;> first | rfl | exact absurd rfl hj

theorem State.setEntry_entries (s : State) (k j : Kind) (i : Nat) (e : Entry) :
    Config.entries (s.setEntry k i e).cfg j = Config.entries s.cfg j := by
  cases k <;> rfl

/-- A handle of the generation of a live entry names its object. -/
theorem State.lookup_of_entry {s : State} {h : Handle} {o : Occupant} (hi : h.index.toNat < Config.entries s.cfg h.kind)
    (he : s.entry h.kind h.index.toNat = { gen := h.gen, occ := some o }) : s.lookup h.kind h = some o.obj := by
  simp [State.lookup, hi, he]

/-- A handle into an empty entry names nothing. -/
theorem State.lookup_of_empty {s : State} {k : Kind} {h : Handle} (he : (s.entry k h.index.toNat).occ = none) :
    s.lookup k h = none := by
  simp [State.lookup, he]

/-! ### `agent` -/

@[simp] theorem State.writeBytes_agent (s : State) (a : Nat) (bs : List Byte) (b0 : Nat) :
    (s.writeBytes a bs).agent b0 = s.agent b0 := rfl
@[simp] theorem State.memWrite_agent (s : State) (a n v : Nat) (b0 : Nat) :
    (s.memWrite a n v).agent b0 = s.agent b0 := rfl
@[simp] theorem State.fill_agent (s : State) (a n : Nat) (v : Byte) (b0 : Nat) :
    (s.fill a n v).agent b0 = s.agent b0 := rfl
@[simp] theorem State.wmb_agent (s : State) (b0 : Nat) : (s.wmb).agent b0 = s.agent b0 := rfl
@[simp] theorem State.rmb_agent (s : State) (b0 : Nat) : (s.rmb).agent b0 = s.agent b0 := rfl
@[simp] theorem State.mmio_agent (s : State) (off : BitVec 8) (w0 w1 : Word) (b0 : Nat) :
    (s.mmio off w0 w1).agent b0 = s.agent b0 := rfl
@[simp] theorem State.ring_agent (s : State) (reg : DbReg) (i : Instr) (b0 : Nat) :
    (s.ring reg i).agent b0 = s.agent b0 := rfl
@[simp] theorem State.setQp_agent (s : State) (q : Nat) (x : Qp) (b0 : Nat) :
    (s.setQp q x).agent b0 = s.agent b0 := rfl
@[simp] theorem State.setCq_agent (s : State) (c : Nat) (x : Cq) (b0 : Nat) :
    (s.setCq c x).agent b0 = s.agent b0 := rfl
@[simp] theorem State.setSrq_agent (s : State) (r : Nat) (x : Srq) (b0 : Nat) :
    (s.setSrq r x).agent b0 = s.agent b0 := rfl
@[simp] theorem State.emit_agent (s : State) (e : EventRec) (b0 : Nat) : (s.emit e).agent b0 = s.agent b0 := rfl
@[simp] theorem State.eraseQp_agent (s : State) (q : Nat) (b0 : Nat) : (s.eraseQp q).agent b0 = s.agent b0 := rfl
@[simp] theorem State.eraseCq_agent (s : State) (c : Nat) (b0 : Nat) : (s.eraseCq c).agent b0 = s.agent b0 := rfl
@[simp] theorem State.eraseSrq_agent (s : State) (r : Nat) (b0 : Nat) : (s.eraseSrq r).agent b0 = s.agent b0 := rfl
@[simp] theorem State.setLocks_agent (s : State) (l : List (Lock × Nat)) (b0 : Nat) :
    (s.setLocks l).agent b0 = s.agent b0 := rfl
@[simp] theorem State.setMem_agent (s : State) (m : List Host.Cell) (b0 : Nat) :
    (s.setMem m).agent b0 = s.agent b0 := rfl
@[simp] theorem State.setBus_agent (s : State) (l : List BusEvent) (b0 : Nat) :
    (s.setBus l).agent b0 = s.agent b0 := rfl
@[simp] theorem State.setFw_agent (s : State) (l : List FwAnswer) (b0 : Nat) :
    (s.setFw l).agent b0 = s.agent b0 := rfl
@[simp] theorem State.setRecs_agent (s : State) (used : List Nat) (free : Nat) (b0 : Nat) :
    (s.setRecs used free).agent b0 = s.agent b0 := rfl
@[simp] theorem State.setRecBase_agent (s : State) (a : BitVec 64) (b0 : Nat) :
    (s.setRecBase a).agent b0 = s.agent b0 := rfl
@[simp] theorem State.setNextObj_agent (s : State) (o : Nat) (b0 : Nat) :
    (s.setNextObj o).agent b0 = s.agent b0 := rfl
@[simp] theorem State.setStarted_agent (s : State) (b : Bool) (b0 : Nat) :
    (s.setStarted b).agent b0 = s.agent b0 := rfl
@[simp] theorem State.setMode_agent (s : State) (m : Mode) (b0 : Nat) : (s.setMode m).agent b0 = s.agent b0 := rfl
@[simp] theorem State.setFatal_agent (s : State) (b : Bool) (b0 : Nat) : (s.setFatal b).agent b0 = s.agent b0 := rfl
@[simp] theorem State.setQuiet_agent (s : State) (l : List Num24) (b0 : Nat) :
    (s.setQuiet l).agent b0 = s.agent b0 := rfl
@[simp] theorem State.setEventQ_agent (s : State) (l : List (List Byte)) (b0 : Nat) :
    (s.setEventQ l).agent b0 = s.agent b0 := rfl
@[simp] theorem State.setInbox_agent (s : State) (l : List Input) (b0 : Nat) :
    (s.setInbox l).agent b0 = s.agent b0 := rfl
@[simp] theorem State.setCur_agent (s : State) (a : Nat) (b0 : Nat) : (s.setCur a).agent b0 = s.agent b0 := rfl
@[simp] theorem State.postCall_agent (s : State) (c : MailboxCall) (b0 : Nat) :
    (s.postCall c).agent b0 = s.agent b0 := rfl
@[simp] theorem State.withAgent_agent (s : State) (a : Nat) (sl : Option Nat) (b0 : Nat) :
    (s.withAgent a sl).agent b0 = s.agent b0 := rfl

/-! ### The current agent -/

@[simp] theorem State.setMe_me (s : State) (a : Agent) : (s.setMe a).me = a := by simp [State.me, State.agent]

@[simp] theorem State.setResp_me (s : State) (f : Response → Response) :
    (s.setResp f).me = { s.me with resp := f s.me.resp } := by simp [State.setResp]

@[simp] theorem State.hold_me (s : State) (b : Option (Nat × Nat)) :
    (s.hold b).me = { s.me with freed := b.toList ++ s.me.freed } := by
  simp [State.hold]
@[simp] theorem State.setBatch_me (s : State) (b : Batch) : (s.setBatch b).me = { s.me with batch := b } := by
  simp [State.setBatch]

@[simp] theorem State.beginCmd_me (s : State) (i : Instr) : (s.beginCmd i).me = { op := s.me.op, cmd := some i } := by
  simp [State.beginCmd]

@[simp] theorem State.endCmd_me (s : State) : s.endCmd.me = { op := s.me.op, resp := s.me.resp } := by
  simp [State.endCmd]

@[simp] theorem State.park_me (s : State) (log : List Nat) : (s.park log).me = { s.me with log := log } := by
  simp [State.park]

theorem State.setMe_agent_ne (s : State) (a : Agent) {b : Nat} (h : b ≠ s.cur) : (s.setMe a).agent b = s.agent b := by
  simp [State.agent, assocGet_assocSet_ne _ _ h]

@[simp] theorem State.setMe_setMe (s : State) (a b : Agent) : (s.setMe a).setMe b = s.setMe b := by
  simp [State.setMe]

@[simp] theorem State.setQp_setQp (s : State) (q : Nat) (x y : Qp) : (s.setQp q x).setQp q y = s.setQp q y := by
  simp [State.setQp]

@[simp] theorem State.setCq_setCq (s : State) (c : Nat) (x y : Cq) : (s.setCq c x).setCq c y = s.setCq c y := by
  simp [State.setCq]

@[simp] theorem State.setSrq_setSrq (s : State) (r : Nat) (x y : Srq) : (s.setSrq r x).setSrq r y = s.setSrq r y := by
  simp [State.setSrq]

@[simp] theorem State.withAgent_me (s : State) (a : Nat) (sl : Option Nat) : (s.withAgent a sl).me = s.agent a := rfl

/-! ### Objects -/

@[simp] theorem State.setQp_qp_self (s : State) (q : Nat) (x : Qp) : (s.setQp q x).qp? q = some x := by simp [State.qp?]

theorem State.setQp_qp_ne (s : State) {q p : Nat} (x : Qp) (h : p ≠ q) : (s.setQp q x).qp? p = s.qp? p := by
  simp [State.qp?, assocGet_assocSet_ne _ _ h]

@[simp] theorem State.setCq_cq_self (s : State) (c : Nat) (x : Cq) : (s.setCq c x).cq? c = some x := by simp [State.cq?]

theorem State.setCq_cq_ne (s : State) {c d : Nat} (x : Cq) (h : d ≠ c) : (s.setCq c x).cq? d = s.cq? d := by
  simp [State.cq?, assocGet_assocSet_ne _ _ h]

@[simp] theorem State.setSrq_srq_self (s : State) (r : Nat) (x : Srq) : (s.setSrq r x).srq? r = some x := by
  simp [State.srq?]

theorem State.setSrq_srq_ne (s : State) {r p : Nat} (x : Srq) (h : p ≠ r) : (s.setSrq r x).srq? p = s.srq? p := by
  simp [State.srq?, assocGet_assocSet_ne _ _ h]

theorem State.eraseQp_qp_ne (s : State) {q p : Nat} (h : p ≠ q) : (s.eraseQp q).qp? p = s.qp? p := by
  simp [State.qp?, assocGet_assocDel_ne _ h]

@[simp] theorem State.eraseQp_qp_self (s : State) (q : Nat) : (s.eraseQp q).qp? q = none := by
  simp [State.qp?, assocGet_assocDel_self]

@[simp] theorem State.eraseCq_cq_self (s : State) (c : Nat) : (s.eraseCq c).cq? c = none := by
  simp [State.cq?, assocGet_assocDel_self]

@[simp] theorem State.eraseSrq_srq_self (s : State) (r : Nat) : (s.eraseSrq r).srq? r = none := by
  simp [State.srq?, assocGet_assocDel_self]

/-! ### Other agents -/

theorem any_assocSet_ne (l : List (Nat × Agent)) (k : Nat) (a : Agent) (p : Nat × Agent → Bool)
    (hp : ∀ e, e.1 = k → p e = false) : (assocSet l k a).any p = l.any p := by
  induction l with
  | nil => simp [assocSet, hp (k, a) rfl]
  | cons e l ih =>
    obtain ⟨j, x⟩ := e
    by_cases h : j = k
    · subst h; simp [assocSet, hp (j, a) rfl, hp (j, x) rfl]
    · simp [assocSet, h, ih]

/-- What an agent does to its own record no test of the other agents sees. -/
@[simp] theorem State.setMe_otherBusy (s : State) (a : Agent) (p : Nat → Agent → Instr → Bool) :
    (s.setMe a).otherBusy p = s.otherBusy p := by
  simp only [State.otherBusy, State.setMe_agents, State.setMe_cur]
  exact any_assocSet_ne _ _ _ _ (fun e he => by simp [he])

@[simp] theorem State.setResp_otherBusy (s : State) (f : Response → Response) (p : Nat → Agent → Instr → Bool) :
    (s.setResp f).otherBusy p = s.otherBusy p := s.setMe_otherBusy _ p
@[simp] theorem State.setBatch_otherBusy (s : State) (b : Batch) (p : Nat → Agent → Instr → Bool) :
    (s.setBatch b).otherBusy p = s.otherBusy p := s.setMe_otherBusy _ p
@[simp] theorem State.beginCmd_otherBusy (s : State) (i : Instr) (p : Nat → Agent → Instr → Bool) :
    (s.beginCmd i).otherBusy p = s.otherBusy p := s.setMe_otherBusy _ p
@[simp] theorem State.endCmd_otherBusy (s : State) (p : Nat → Agent → Instr → Bool) :
    (s.endCmd).otherBusy p = s.otherBusy p := s.setMe_otherBusy _ p
@[simp] theorem State.park_otherBusy (s : State) (log : List Nat) (p : Nat → Agent → Instr → Bool) :
    (s.park log).otherBusy p = s.otherBusy p := s.setMe_otherBusy _ p
@[simp] theorem State.writeBytes_otherBusy (s : State) (a : Nat) (bs : List Byte) (p : Nat → Agent → Instr → Bool) :
    (s.writeBytes a bs).otherBusy p = s.otherBusy p := rfl
@[simp] theorem State.memWrite_otherBusy (s : State) (a n v : Nat) (p : Nat → Agent → Instr → Bool) :
    (s.memWrite a n v).otherBusy p = s.otherBusy p := rfl
@[simp] theorem State.fill_otherBusy (s : State) (a n : Nat) (v : Byte) (p : Nat → Agent → Instr → Bool) :
    (s.fill a n v).otherBusy p = s.otherBusy p := rfl
@[simp] theorem State.wmb_otherBusy (s : State) (p : Nat → Agent → Instr → Bool) :
    (s.wmb).otherBusy p = s.otherBusy p := rfl
@[simp] theorem State.rmb_otherBusy (s : State) (p : Nat → Agent → Instr → Bool) :
    (s.rmb).otherBusy p = s.otherBusy p := rfl
@[simp] theorem State.mmio_otherBusy (s : State) (off : BitVec 8) (w0 w1 : Word) (p : Nat → Agent → Instr → Bool) :
    (s.mmio off w0 w1).otherBusy p = s.otherBusy p := rfl
@[simp] theorem State.ring_otherBusy (s : State) (reg : DbReg) (i : Instr) (p : Nat → Agent → Instr → Bool) :
    (s.ring reg i).otherBusy p = s.otherBusy p := rfl
@[simp] theorem State.setQp_otherBusy (s : State) (q : Nat) (x : Qp) (p : Nat → Agent → Instr → Bool) :
    (s.setQp q x).otherBusy p = s.otherBusy p := rfl
@[simp] theorem State.setCq_otherBusy (s : State) (c : Nat) (x : Cq) (p : Nat → Agent → Instr → Bool) :
    (s.setCq c x).otherBusy p = s.otherBusy p := rfl
@[simp] theorem State.setSrq_otherBusy (s : State) (r : Nat) (x : Srq) (p : Nat → Agent → Instr → Bool) :
    (s.setSrq r x).otherBusy p = s.otherBusy p := rfl
@[simp] theorem State.emit_otherBusy (s : State) (e : EventRec) (p : Nat → Agent → Instr → Bool) :
    (s.emit e).otherBusy p = s.otherBusy p := rfl
@[simp] theorem State.eraseQp_otherBusy (s : State) (q : Nat) (p : Nat → Agent → Instr → Bool) :
    (s.eraseQp q).otherBusy p = s.otherBusy p := rfl
@[simp] theorem State.eraseCq_otherBusy (s : State) (c : Nat) (p : Nat → Agent → Instr → Bool) :
    (s.eraseCq c).otherBusy p = s.otherBusy p := rfl
@[simp] theorem State.eraseSrq_otherBusy (s : State) (r : Nat) (p : Nat → Agent → Instr → Bool) :
    (s.eraseSrq r).otherBusy p = s.otherBusy p := rfl

/-! ### Rings changed by a reference -/

/-- A change of a ring changes no field of the state but its object. -/
theorem onRing_frame (s : State) (rr : RingRef) (f : Ring → Ring) (g : Srq → Srq) :
    s.onRing rr f g = { s with qps := (s.onRing rr f g).qps, srqs := (s.onRing rr f g).srqs } := by
  unfold State.onRing
  split <;> split <;> rfl

theorem State.onRing_sq {s : State} {q : Nat} {x : Qp} (h : s.qp? q = some x) (f : Ring → Ring) (g : Srq → Srq) :
    s.onRing (.sq q) f g = s.setQp q { x with sq := f x.sq } := by
  simp only [State.onRing, h]

theorem State.onRing_rq {s : State} {q : Nat} {x : Qp} (h : s.qp? q = some x) (f : Ring → Ring) (g : Srq → Srq) :
    s.onRing (.rq q) f g = s.setQp q { x with rq := f x.rq } := by
  simp only [State.onRing, h]

theorem State.onRing_srq {s : State} {r : Nat} {y : Srq} (h : s.srq? r = some y) (f : Ring → Ring) (g : Srq → Srq) :
    s.onRing (.srq r) f g = s.setSrq r (g y) := by
  simp only [State.onRing, h]

end Sys2Proof.Machine
end

