-- ==== Sys2Proof/Laws/Runs.lean ====
section
/-! SUPPORT. What a command does, said once: `Runs p s t` says that the program `p`, started in `s`, ends in `t` without waiting.
One lemma for each shared operation says everything a run through it does; a lemma about a command cites these and unfolds
none of them. `Keeps I p` says that no step of `p` breaks `I`. -/

namespace Sys2Proof.Machine

open Sys2Proof

/-- The program, started in the first state, ends in the second without a wait, a fault or the end of a slice. -/
inductive Runs : Prog → State → State → Prop where
  | done {s : State} : Runs .done s s.endCmd
  | act {f : State → ActRes} {k : Nat → Prog} {a : Nat} {s s' t : State} :
      f s = .ok a s' → Runs (k a) s' t → Runs (.act f k) s t

theorem Runs.run {p : Prog} {s t : State} (h : Runs p s t) : ∀ log, p.run none log s = .next t := by
  induction h with
  | done => intro log; rfl
  | act hf _ ih => intro log; simp [Prog.run, hf, ih]

theorem runs_done {s t : State} : Runs .done s t ↔ t = s.endCmd :=
  ⟨fun h => by cases h; rfl, fun h => by subst h; exact .done⟩

theorem runs_act {f : State → ActRes} {k : Nat → Prog} {s t : State} :
    Runs (.act f k) s t ↔ ∃ a s', f s = .ok a s' ∧ Runs (k a) s' t :=
  ⟨fun h => by cases h with | act hf hk => exact ⟨_, _, hf, hk⟩, fun ⟨_, _, hf, hk⟩ => .act hf hk⟩

/-- A step whose answer is known. -/
theorem runs_act_ok {f : State → ActRes} {k : Nat → Prog} {a : Nat} {s s' t : State} (h : f s = .ok a s') :
    Runs (.act f k) s t ↔ Runs (k a) s' t := by
  rw [runs_act]
  constructor
  · rintro ⟨b, u, hb, hk⟩
    rw [h] at hb; cases hb; exact hk
  · exact fun hk => ⟨_, _, h, hk⟩

/-! ### Steps -/

theorem runs_eff {f : State → State} {k : Prog} {s t : State} : Runs (eff f k) s t ↔ Runs k (f s) t := runs_act_ok rfl

theorem runs_ask {f : State → Nat} {k : Nat → Prog} {s t : State} : Runs (ask f k) s t ↔ Runs (k (f s)) s t := runs_act_ok rfl

theorem runs_guard {c : State → Bool} {e : Fault} {k : Prog} {s t : State} :
    Runs (guard c e k) s t ↔ c s = true ∧ Runs k s t := by
  by_cases h : c s <;> simp [guard, runs_act, h]

theorem runs_waitFor {c : State → Bool} {k : Prog} {s t : State} :
    Runs (waitFor c k) s t ↔ c s = true ∧ Runs k s t := by
  by_cases h : c s <;> simp [waitFor, runs_act, h]

theorem withQp_eq {q : Nat} {s : State} {x : Qp} (h : s.qp? q = some x) (f : Qp → ActRes) : withQp q s f = f x := by
  simp [withQp, h]

theorem withCq_eq {c : Nat} {s : State} {x : Cq} (h : s.cq? c = some x) (f : Cq → ActRes) : withCq c s f = f x := by
  simp [withCq, h]

theorem withSrq_eq {r : Nat} {s : State} {x : Srq} (h : s.srq? r = some x) (f : Srq → ActRes) : withSrq r s f = f x := by
  simp [withSrq, h]

/-! ### Locks -/

theorem holderIn_none {l : List (Lock × Nat)} {x : Lock} : holderIn l x = none ↔ ∀ e ∈ l, e.1 ≠ x := by
  induction l with
  | nil => simp [holderIn]
  | cons e l ih =>
    obtain ⟨y, a⟩ := e
    by_cases h : y = x <;> simp [holderIn, h, ih]

theorem filter_free {l : List (Lock × Nat)} {x : Lock} (h : holderIn l x = none) :
    l.filter (fun e => decide (e.1 ≠ x)) = l :=
  List.filter_eq_self.mpr fun e he => by simpa using holderIn_none.mp h e he

/-- `Acquire` in a run: the lock was free and is the agent's now. -/
theorem runs_acquire {x : Lock} {k : Prog} {s t : State} :
    Runs (acquire x k) s t ↔ s.holder x = none ∧ Runs k (s.setLocks ((x, s.cur) :: s.locks)) t := by
  unfold acquire
  rw [runs_act]
  unfold acquireAct
  cases h : s.holder x with
  | none => simp
  | some a => by_cases ha : a = s.cur <;> simp [ha]

/-- `Release` in a run: the agent held the lock. -/
theorem runs_release {x : Lock} {k : Prog} {s t : State} :
    Runs (release x k) s t ↔
      s.holder x = some s.cur ∧ Runs k (s.setLocks (s.locks.filter fun e => decide (e.1 ≠ x))) t := by
  unfold release
  rw [runs_act]
  unfold releaseAct
  by_cases h : s.holder x = some s.cur <;> simp [h]

/-- `Release` of the lock acquired last. -/
theorem runs_release_newest {x : Lock} {k : Prog} {s t : State} {l : List (Lock × Nat)} (hl : s.locks = (x, s.cur) :: l)
    (hx : holderIn l x = none) : Runs (release x k) s t ↔ Runs k (s.setLocks l) t := by
  rw [runs_release]
  have h1 : s.holder x = some s.cur := by simp [State.holder, hl, holderIn]
  have h2 : s.locks.filter (fun e => decide (e.1 ≠ x)) = l := by
    rw [hl, List.filter_cons]; simp; intro a b hab; exact holderIn_none.mp hx _ hab
  rw [h2]
  simp [h1]

/-- The state in which the agent holds the lock of a shard besides the locks it held. -/
def State.lockShard (s : State) (kind : Kind) (i : Nat) : State := s.setLocks ((s.shardLock kind i, s.cur) :: s.locks)

@[simp] theorem State.setLocks_self (s : State) : s.setLocks s.locks = s := rfl

@[simp] theorem State.setLocks_setLocks (s : State) (l m : List (Lock × Nat)) : (s.setLocks l).setLocks m = s.setLocks m := rfl

/-- The work on an entry in a run: `f` runs under the lock of the shard, which is free before and after. -/
theorem runs_underShardAt {kind : Kind} {i : Nat} {f : State → ActRes} {k : Nat → Prog} {s s1 t : State} {a : Nat}
    (hk : s.holder (s.shardLock kind i) = none)
    (hf : f (s.lockShard kind i) = .ok a (s1.setLocks ((s.shardLock kind i, s.cur) :: s.locks)))
    (hl : s1.locks = s.locks) (hc : s1.cur = s.cur) (hg : s1.cfg = s.cfg) :
    Runs (underShardAt kind i f k) s t ↔ Runs (k a) s1 t := by
  have h1 : (fun s => acquireAct (s.shardLock kind i) s) s = .ok 0 (s.lockShard kind i) := by
    simp [acquireAct, hk, State.lockShard]
  have h3 : (fun s => releaseAct (s.shardLock kind i) s) (s1.setLocks ((s.shardLock kind i, s.cur) :: s.locks))
      = .ok 0 s1 := by
    have h2 : (s1.setLocks ((s.shardLock kind i, s.cur) :: s.locks)).shardLock kind i = s.shardLock kind i := by
      simp [State.shardLock, hg]
    simp only [h2, releaseAct]
    have h4 : (s1.setLocks ((s.shardLock kind i, s.cur) :: s.locks)).holder (s.shardLock kind i)
        = some (s1.setLocks ((s.shardLock kind i, s.cur) :: s.locks)).cur := by simp [State.holder, holderIn, hc]
    have h5 : (((s.shardLock kind i, s.cur) :: s.locks).filter fun e => decide (e.1 ≠ s.shardLock kind i)) = s1.locks := by
      rw [List.filter_cons, hl]; simpa using holderIn_none.mp hk
    simp only [h4, if_true, State.setLocks_locks, h5, State.setLocks_setLocks, State.setLocks_self]
  unfold underShardAt
  rw [runs_act_ok (f := fun s => acquireAct (s.shardLock kind i) s) h1, runs_act_ok hf,
    runs_act_ok (f := fun s => releaseAct (s.shardLock kind i) s) h3]

/-- As `runs_underShardAt`, on the entry that the state names. -/
theorem runs_underShard {kind : Kind} {i : State → Nat} {f : State → ActRes} {k : Nat → Prog} {s s1 t : State} {a : Nat}
    (hk : s.holder (s.shardLock kind (i s)) = none)
    (hf : f (s.lockShard kind (i s)) = .ok a (s1.setLocks ((s.shardLock kind (i s), s.cur) :: s.locks)))
    (hl : s1.locks = s.locks) (hc : s1.cur = s.cur) (hg : s1.cfg = s.cfg) :
    Runs (underShard kind i f k) s t ↔ Runs (k a) s1 t := by
  unfold underShard
  rw [runs_ask, runs_underShardAt hk hf hl hc hg]

/-! ### Lookups -/

theorem any_false_of {α : Type} (l : List α) (p q : α → Bool) (hpq : ∀ e, p e = true → q e = true) (h : l.any q = false) :
    l.any p = false := by
  rw [List.any_eq_false] at *
  exact fun e he hp => h e he (hpq e hp)

theorem lookup_inRange {s : State} {kind : Kind} {h : Handle} {o : Nat} (hl : s.lookup kind h = some o) :
    h.kind = kind ∧ h.index.toNat < Config.entries s.cfg kind := by
  unfold State.lookup at hl
  split at hl
  · assumption
  · cases hl

/-- The state after a resolve: with `use`, the handle is noted. -/
def State.noteUse (s : State) (use : Bool) (h : Handle) : State :=
  if use then s.setMe { s.me with uses := h :: s.me.uses } else s

/-- `RESOLVE` of a handle that names an object, with its step under the shard lock. -/
theorem runs_resolveBy_found {kind : Kind} {h : Handle} {act : State → ActRes} {fail : Prog} {k : Nat → Prog} {s s1 t : State}
    {o : Nat} (hl : s.lookup kind h = some o) (ho : o ≠ 0) (hk : s.holder (s.shardLock kind h.index.toNat) = none)
    (ha : act (s.lockShard kind h.index.toNat) = .ok o (s1.setLocks ((s.shardLock kind h.index.toNat, s.cur) :: s.locks)))
    (hs : s1.locks = s.locks ∧ s1.cur = s.cur ∧ s1.cfg = s.cfg) :
    Runs (resolveBy kind h act fail k) s t ↔ Runs (k o) s1 t := by
  unfold resolveBy
  rw [runs_ask]
  simp only [(lookup_inRange hl).2, if_true, Nat.one_ne_zero, if_false]
  rw [runs_underShardAt hk ha hs.1 hs.2.1 hs.2.2]
  simp only [ho, if_false]

/-- `RESOLVE` of a handle that names nothing. -/
theorem runs_resolveBy_none {kind : Kind} {h : Handle} {act : State → ActRes} {fail : Prog} {k : Nat → Prog} {s t : State}
    (hk : s.holder (s.shardLock kind h.index.toNat) = none)
    (ha : act (s.lockShard kind h.index.toNat) = .ok 0 (s.lockShard kind h.index.toNat)) :
    Runs (resolveBy kind h act fail k) s t ↔ Runs fail s t := by
  unfold resolveBy
  rw [runs_ask]
  by_cases hr : h.index.toNat < Config.entries s.cfg kind
  · simp only [hr, if_true, Nat.one_ne_zero, if_false]
    rw [runs_underShardAt (s1 := s) hk ha rfl rfl rfl]
    simp
  · simp [hr]

@[simp] theorem lockShard_lookup (s : State) (k j : Kind) (i : Nat) (h : Handle) :
    (s.lockShard j i).lookup k h = s.lookup k h := by
  simp [State.lockShard]

/-- `RESOLVE` of a handle that names an object. -/
theorem runs_resolve_found {kind : Kind} {h : Handle} {use : Bool} {fail : Prog} {k : Nat → Prog} {s t : State} {o : Nat}
    (hl : s.lookup kind h = some o) (ho : o ≠ 0) (hr : use = true → s.me.racing.contains h = false)
    (hk : s.holder (s.shardLock kind h.index.toNat) = none) :
    Runs (resolve kind h use fail k) s t ↔ Runs (k o) (s.noteUse use h) t := by
  refine runs_resolveBy_found hl ho hk ?_ (by cases use <;> exact ⟨rfl, rfl, rfl⟩)
  simp only [resolveAct, lockShard_lookup, hl]
  cases use with
  | false => rfl
  | true =>
    have h2 : (s.lockShard kind h.index.toNat).me.racing.contains h = false := hr rfl
    simp only [h2]
    rfl

/-- `RESOLVE` of a handle that names nothing. -/
theorem runs_resolve_none {kind : Kind} {h : Handle} {use : Bool} {fail : Prog} {k : Nat → Prog} {s t : State}
    (hl : s.lookup kind h = none) (hk : s.holder (s.shardLock kind h.index.toNat) = none) :
    Runs (resolve kind h use fail k) s t ↔ Runs fail s t :=
  runs_resolveBy_none hk (by simp only [resolveAct, lockShard_lookup, hl])

/-- An agent that is alone has nobody to warn. -/
theorem State.alone.warnOthers {s : State} (ha : s.alone) (h : Handle) : s.warnOthers h = s := by
  have : (s.agents.map fun e =>
      if e.1 ≠ s.cur ∧ e.2.cmd.isSome then (e.1, { e.2 with racing := h :: e.2.racing }) else e) = s.agents := by
    refine (List.map_congr_left fun e he => ?_).trans (List.map_id _)
    have := List.any_eq_false.mp ha e he
    rw [if_neg]
    · rfl
    · rintro ⟨h1, h2⟩
      obtain ⟨i, hi⟩ := Option.isSome_iff_exists.mp h2
      simp [h1, hi] at this
  unfold State.warnOthers
  rw [this]; rfl

/-- `RESOLVE` of a `DESTROY_QP` whose agent is alone. -/
theorem runs_resolveDestroy_found {kind : Kind} {h : Handle} {fail : Prog} {k : Nat → Prog} {s t : State} {o : Nat}
    (ha : s.alone) (hl : s.lookup kind h = some o) (ho : o ≠ 0) (hk : s.holder (s.shardLock kind h.index.toNat) = none) :
    Runs (resolveBy kind h (resolveDestroyAct kind h) fail k) s t ↔ Runs (k o) s t := by
  refine runs_resolveBy_found hl ho hk ?_ ⟨rfl, rfl, rfl⟩
  have h2 : (s.lockShard kind h.index.toNat).usedByOther h = false := any_false_of _ _ _ (fun e he => by
    simp only [Bool.and_eq_true] at he ⊢
    refine ⟨he.1, ?_⟩
    cases hc : e.2.cmd with
    | none => simp [hc] at he
    | some i => rfl) ha
  simp only [resolveDestroyAct, lockShard_lookup, hl, h2]
  have h3 : (s.lockShard kind h.index.toNat).warnOthers h = s.lockShard kind h.index.toNat :=
    State.alone.warnOthers (s := s.lockShard kind h.index.toNat) ha h
  simp only [h3]
  rfl

/-- A handle an object holds, resolved. -/
theorem runs_resolveRef {kind : Kind} {h : State → Option Handle} {gone : Prog} {k : Nat → Prog} {s t : State} {g : Handle}
    {o : Nat} (hh : h s = some g) (hl : s.lookup kind g = some o) (ho : o ≠ 0)
    (hk : s.holder (s.shardLock kind g.index.toNat) = none) (hx : ∀ l, h (s.setLocks l) = h s) :
    Runs (resolveRef kind h gone k) s t ↔ Runs (k o) s t := by
  unfold resolveRef
  rw [runs_ask]
  simp only [hh, Nat.add_one_ne_zero, if_false, Nat.add_sub_cancel]
  rw [runs_underShardAt (a := o) (s1 := s) hk ?_ rfl rfl rfl]
  · simp only [ho, if_false]
  · simp [State.lockShard, hx, hh, hl]

@[simp] theorem State.setLocks_cqHandle (s : State) (l : List (Lock × Nat)) (q : Nat) (b : Bool) :
    (s.setLocks l).cqHandle q b = s.cqHandle q b := rfl

@[simp] theorem State.setLocks_srqHandle (s : State) (l : List (Lock × Nat)) (q : Nat) :
    (s.setLocks l).srqHandle q = s.srqHandle q := rfl

/-- The state after an insert into an empty entry. -/
def State.inserted (s : State) (kind : Kind) (num : Num24) (make : State → Handle → Nat → State) : State :=
  make ((s.setEntry kind (s.indexOf kind num)
      { gen := (s.entry kind (s.indexOf kind num)).gen, occ := some { num, obj := s.nextObj } }).setNextObj (s.nextObj + 1))
    { kind, index := BitVec.ofNat 24 (s.indexOf kind num), gen := (s.entry kind (s.indexOf kind num)).gen } s.nextObj

/-- `INSERT` into an empty entry. `make` places the object, and does nothing to the locks, the agent and the parameters. -/
theorem runs_insert {kind : Kind} {num : Num24} {buf : State → Nat × Nat} {make : State → Handle → Nat → State} {busy : Prog}
    {k : Nat → Prog} {s t : State} (he : (s.entry kind (s.indexOf kind num)).occ = none) (ho : s.nextObj ≠ 0)
    (hb : s.bufferOk (buf s) = true) (hbl : ∀ l, buf (s.setLocks l) = buf s)
    (hk : s.holder (s.shardLock kind (s.indexOf kind num)) = none)
    (hm : ∀ u h o, (make u h o).locks = u.locks ∧ (make u h o).cur = u.cur ∧ (make u h o).cfg = u.cfg)
    (hc : ∀ u h o l, make (State.setLocks u l) h o = (make u h o).setLocks l) :
    Runs (insert kind num buf make busy k) s t ↔ Runs (k s.nextObj) (s.inserted kind num make) t := by
  unfold insert
  have c1 : (s.inserted kind num make).locks = s.locks := by simp [State.inserted, (hm _ _ _).1]
  have c2 : (s.inserted kind num make).cur = s.cur := by simp [State.inserted, (hm _ _ _).2.1]
  have c3 : (s.inserted kind num make).cfg = s.cfg := by simp [State.inserted, (hm _ _ _).2.2]
  rw [runs_underShard (a := s.nextObj) (s1 := s.inserted kind num make) hk ?_ c1 c2 c3]
  · simp only [ho, if_false]
  · have h2 : (s.lockShard kind (s.indexOf kind num)).bufferOk (buf (s.lockShard kind (s.indexOf kind num))) = true := by
      simp only [State.lockShard, hbl]; exact hb
    simp only [insertAct, h2, if_true]
    simp only [State.lockShard, State.setLocks_indexOf, State.setLocks_entry, he, State.inserted, ← hc,
      State.setLocks_nextObj]
    cases kind <;> rfl

/-- `INSERT` into an occupied entry: nothing changes. -/
theorem runs_insert_busy {kind : Kind} {num : Num24} {buf : State → Nat × Nat} {make : State → Handle → Nat → State}
    {busy : Prog} {k : Nat → Prog} {s t : State} {o : Occupant} (he : (s.entry kind (s.indexOf kind num)).occ = some o)
    (hk : s.holder (s.shardLock kind (s.indexOf kind num)) = none) :
    Runs (insert kind num buf make busy k) s t ↔ Runs busy s t := by
  unfold insert
  rw [runs_underShard (a := 0) (s1 := s) hk ?_ rfl rfl rfl]
  · simp
  · simp only [insertAct, State.lockShard, State.setLocks_indexOf, State.setLocks_entry, he]

@[simp] theorem State.dropEntry_locks (s : State) (kind : Kind) (h : Handle) : (s.dropEntry kind h).locks = s.locks := by
  cases kind <;> rfl
@[simp] theorem State.dropEntry_cur (s : State) (kind : Kind) (h : Handle) : (s.dropEntry kind h).cur = s.cur := by
  cases kind <;> rfl
@[simp] theorem State.dropEntry_cfg (s : State) (kind : Kind) (h : Handle) : (s.dropEntry kind h).cfg = s.cfg := by
  cases kind <;> rfl
theorem State.setLocks_dropEntry (s : State) (l : List (Lock × Nat)) (kind : Kind) (h : Handle) :
    (s.setLocks l).dropEntry kind h = (s.dropEntry kind h).setLocks l := by
  cases kind <;> rfl

/-- `REMOVE` of a live handle no other command uses. -/
theorem runs_remove {kind : Kind} {h : Handle} {k : Nat → Prog} {s t : State} {o : Nat} (hl : s.lookup kind h = some o)
    (hu : s.usedByOther h = false) (hk : s.holder (s.shardLock kind h.index.toNat) = none) :
    Runs (remove kind h k) s t ↔ Runs (k 1) (s.dropEntry kind h) t := by
  unfold remove
  rw [runs_underShardAt (a := 1) (s1 := s.dropEntry kind h) hk ?_ (by simp) (by simp) (by simp)]
  have h2 : (s.lockShard kind h.index.toNat).usedByOther h = false := hu
  have h3 : (s.lockShard kind h.index.toNat).lookup kind h = some o := by simp [State.lockShard, hl]
  simp only [removeAct, h3, h2]
  simp [State.lockShard, State.setLocks_dropEntry]

/-- `REMOVE_IF_UNATTACHED` of a live handle without attachments. -/
theorem runs_removeUnattached {kind : Kind} {h : Handle} {fail : Status → Prog} {k : Prog} {s t : State} {o : Nat}
    (hl : s.lookup kind h = some o) (ha : s.attachOf kind o = 0) (hu : s.usedByOther h = false)
    (hk : s.holder (s.shardLock kind h.index.toNat) = none) :
    Runs (removeUnattached kind h fail k) s t ↔ Runs k (s.dropEntry kind h) t := by
  unfold removeUnattached
  rw [runs_underShardAt (a := 2) (s1 := s.dropEntry kind h) hk ?_ (by simp) (by simp) (by simp)]
  · simp
  · have h2 : (s.lockShard kind h.index.toNat).usedByOther h = false := hu
    have h3 : (s.lockShard kind h.index.toNat).lookup kind h = some o := by simp [State.lockShard, hl]
    have h4 : (s.lockShard kind h.index.toNat).attachOf kind o = 0 := by cases kind <;> exact ha
    simp only [removeUnattachedAct, h3, h2, h4]
    simp [State.lockShard, State.setLocks_dropEntry]

/-- `REMOVE_IF_UNATTACHED` of an object that is attached: nothing changes. -/
theorem runs_removeUnattached_busy {kind : Kind} {h : Handle} {fail : Status → Prog} {k : Prog} {s t : State} {o : Nat}
    (hl : s.lookup kind h = some o) (ha : s.attachOf kind o ≠ 0)
    (hk : s.holder (s.shardLock kind h.index.toNat) = none) :
    Runs (removeUnattached kind h fail k) s t ↔ Runs (fail .busy) s t := by
  unfold removeUnattached
  rw [runs_underShardAt (a := 1) (s1 := s) hk ?_ rfl rfl rfl]
  · simp
  · have h3 : (s.lockShard kind h.index.toNat).lookup kind h = some o := by simp [State.lockShard, hl]
    have h4 : (s.lockShard kind h.index.toNat).attachOf kind o ≠ 0 := by cases kind <;> exact ha
    simp only [removeUnattachedAct, h3, h4, ne_eq, not_false_eq_true, if_true]
    rfl

@[simp] theorem State.bumpAttach_locks (s : State) (kind : Kind) (o : Nat) (f : Nat → Nat) :
    (s.bumpAttach kind o f).locks = s.locks := by
  cases kind <;> simp only [State.bumpAttach]
  · cases s.cq? o <;> rfl
  · cases s.srq? o <;> rfl
@[simp] theorem State.bumpAttach_cur (s : State) (kind : Kind) (o : Nat) (f : Nat → Nat) :
    (s.bumpAttach kind o f).cur = s.cur := by
  cases kind <;> simp only [State.bumpAttach]
  · cases s.cq? o <;> rfl
  · cases s.srq? o <;> rfl
@[simp] theorem State.bumpAttach_cfg (s : State) (kind : Kind) (o : Nat) (f : Nat → Nat) :
    (s.bumpAttach kind o f).cfg = s.cfg := by
  cases kind <;> simp only [State.bumpAttach]
  · cases s.cq? o <;> rfl
  · cases s.srq? o <;> rfl
theorem State.setLocks_bumpAttach (s : State) (l : List (Lock × Nat)) (kind : Kind) (o : Nat) (f : Nat → Nat) :
    (s.setLocks l).bumpAttach kind o f = (s.bumpAttach kind o f).setLocks l := by
  cases kind <;> simp only [State.bumpAttach, State.setLocks_cqOf, State.setLocks_srqOf]
  · cases s.cq? o <;> rfl
  · cases s.srq? o <;> rfl

/-! ### What an attachment count leaves alone -/

@[simp] theorem State.bumpAttach_mem (s : State) (k : Kind) (o : Nat) (f : Nat → Nat) : (s.bumpAttach k o f).mem = s.mem := by
  cases k <;> simp only [State.bumpAttach] <;> (try split) <;> rfl
@[simp] theorem State.bumpAttach_bus (s : State) (k : Kind) (o : Nat) (f : Nat → Nat) : (s.bumpAttach k o f).bus = s.bus := by
  cases k <;> simp only [State.bumpAttach] <;> (try split) <;> rfl
@[simp] theorem State.bumpAttach_fw (s : State) (k : Kind) (o : Nat) (f : Nat → Nat) : (s.bumpAttach k o f).fw = s.fw := by
  cases k <;> simp only [State.bumpAttach] <;> (try split) <;> rfl
@[simp] theorem State.bumpAttach_mode (s : State) (k : Kind) (o : Nat) (f : Nat → Nat) : (s.bumpAttach k o f).mode = s.mode := by
  cases k <;> simp only [State.bumpAttach] <;> (try split) <;> rfl
@[simp] theorem State.bumpAttach_started (s : State) (k : Kind) (o : Nat) (f : Nat → Nat) :
    (s.bumpAttach k o f).started = s.started := by
  cases k <;> simp only [State.bumpAttach] <;> (try split) <;> rfl
@[simp] theorem State.bumpAttach_fatal (s : State) (k : Kind) (o : Nat) (f : Nat → Nat) : (s.bumpAttach k o f).fatal = s.fatal := by
  cases k <;> simp only [State.bumpAttach] <;> (try split) <;> rfl
@[simp] theorem State.bumpAttach_nextObj (s : State) (k : Kind) (o : Nat) (f : Nat → Nat) :
    (s.bumpAttach k o f).nextObj = s.nextObj := by
  cases k <;> simp only [State.bumpAttach] <;> (try split) <;> rfl
@[simp] theorem State.bumpAttach_dbRecFree (s : State) (k : Kind) (o : Nat) (f : Nat → Nat) :
    (s.bumpAttach k o f).dbRecFree = s.dbRecFree := by
  cases k <;> simp only [State.bumpAttach] <;> (try split) <;> rfl
@[simp] theorem State.bumpAttach_dbRecBase (s : State) (k : Kind) (o : Nat) (f : Nat → Nat) :
    (s.bumpAttach k o f).dbRecBase = s.dbRecBase := by
  cases k <;> simp only [State.bumpAttach] <;> (try split) <;> rfl
@[simp] theorem State.bumpAttach_dbRecUsed (s : State) (k : Kind) (o : Nat) (f : Nat → Nat) :
    (s.bumpAttach k o f).dbRecUsed = s.dbRecUsed := by
  cases k <;> simp only [State.bumpAttach] <;> (try split) <;> rfl
@[simp] theorem State.bumpAttach_quiet (s : State) (k : Kind) (o : Nat) (f : Nat → Nat) : (s.bumpAttach k o f).quiet = s.quiet := by
  cases k <;> simp only [State.bumpAttach] <;> (try split) <;> rfl
@[simp] theorem State.bumpAttach_eventQ (s : State) (k : Kind) (o : Nat) (f : Nat → Nat) :
    (s.bumpAttach k o f).eventQ = s.eventQ := by
  cases k <;> simp only [State.bumpAttach] <;> (try split) <;> rfl
@[simp] theorem State.bumpAttach_eventOut (s : State) (k : Kind) (o : Nat) (f : Nat → Nat) :
    (s.bumpAttach k o f).eventOut = s.eventOut := by
  cases k <;> simp only [State.bumpAttach] <;> (try split) <;> rfl
@[simp] theorem State.bumpAttach_inbox (s : State) (k : Kind) (o : Nat) (f : Nat → Nat) : (s.bumpAttach k o f).inbox = s.inbox := by
  cases k <;> simp only [State.bumpAttach] <;> (try split) <;> rfl
@[simp] theorem State.bumpAttach_owned (s : State) (k : Kind) (o : Nat) (f : Nat → Nat) : (s.bumpAttach k o f).owned = s.owned := by
  cases k <;> simp only [State.bumpAttach] <;> (try split) <;> rfl
@[simp] theorem State.bumpAttach_agents (s : State) (k : Kind) (o : Nat) (f : Nat → Nat) :
    (s.bumpAttach k o f).agents = s.agents := by
  cases k <;> simp only [State.bumpAttach] <;> (try split) <;> rfl
@[simp] theorem State.bumpAttach_slice (s : State) (k : Kind) (o : Nat) (f : Nat → Nat) : (s.bumpAttach k o f).slice = s.slice := by
  cases k <;> simp only [State.bumpAttach] <;> (try split) <;> rfl
@[simp] theorem State.bumpAttach_qps (s : State) (k : Kind) (o : Nat) (f : Nat → Nat) : (s.bumpAttach k o f).qps = s.qps := by
  cases k <;> simp only [State.bumpAttach] <;> (try split) <;> rfl
@[simp] theorem State.bumpAttach_qpTable (s : State) (k : Kind) (o : Nat) (f : Nat → Nat) :
    (s.bumpAttach k o f).qpTable = s.qpTable := by
  cases k <;> simp only [State.bumpAttach] <;> (try split) <;> rfl
@[simp] theorem State.bumpAttach_cqTable (s : State) (k : Kind) (o : Nat) (f : Nat → Nat) :
    (s.bumpAttach k o f).cqTable = s.cqTable := by
  cases k <;> simp only [State.bumpAttach] <;> (try split) <;> rfl
@[simp] theorem State.bumpAttach_srqTable (s : State) (k : Kind) (o : Nat) (f : Nat → Nat) :
    (s.bumpAttach k o f).srqTable = s.srqTable := by
  cases k <;> simp only [State.bumpAttach] <;> (try split) <;> rfl
@[simp] theorem State.bumpAttach_me (s : State) (k : Kind) (o : Nat) (f : Nat → Nat) : (s.bumpAttach k o f).me = s.me := by
  cases k <;> simp only [State.bumpAttach] <;> (try split) <;> rfl
@[simp] theorem State.bumpAttach_qpOf (s : State) (k : Kind) (o : Nat) (f : Nat → Nat) (q : Nat) :
    (s.bumpAttach k o f).qp? q = s.qp? q := by simp [State.qp?]
@[simp] theorem State.bumpAttach_holder (s : State) (k : Kind) (o : Nat) (f : Nat → Nat) (x : Lock) :
    (s.bumpAttach k o f).holder x = s.holder x := by simp [State.holder]
@[simp] theorem State.bumpAttach_shardLock (s : State) (k : Kind) (o : Nat) (f : Nat → Nat) (j : Kind) (i : Nat) :
    (s.bumpAttach k o f).shardLock j i = s.shardLock j i := by simp [State.shardLock]
@[simp] theorem State.bumpAttach_lookup (s : State) (k : Kind) (o : Nat) (f : Nat → Nat) (j : Kind) (h : Handle) :
    (s.bumpAttach k o f).lookup j h = s.lookup j h := by
  cases j <;> simp [State.lookup, State.entry, State.table]
@[simp] theorem State.bumpAttach_cqHandle (s : State) (k : Kind) (o : Nat) (f : Nat → Nat) (q : Nat) (b : Bool) :
    (s.bumpAttach k o f).cqHandle q b = s.cqHandle q b := by simp [State.cqHandle]
@[simp] theorem State.bumpAttach_srqHandle (s : State) (k : Kind) (o : Nat) (f : Nat → Nat) (q : Nat) :
    (s.bumpAttach k o f).srqHandle q = s.srqHandle q := by simp [State.srqHandle]
@[simp] theorem State.bumpAttach_recAddr (s : State) (k : Kind) (o : Nat) (f : Nat → Nat) (r : Nat) :
    (s.bumpAttach k o f).recAddr r = s.recAddr r := by simp [State.recAddr]

/-- The count of a CQ, changed; the count of an SRQ is another. -/
theorem State.bumpAttach_cq_cqOf (s : State) (o : Nat) (f : Nat → Nat) (c : Nat) :
    (s.bumpAttach .cq o f).cq? c = (s.cq? c).map fun x => if c = o then { x with attach := f x.attach } else x := by
  simp only [State.bumpAttach]
  by_cases h : c = o
  · subst h
    cases hc : s.cq? c <;> simp [hc]
  · cases hc : s.cq? o
    · cases s.cq? c <;> simp [h]
    · simp only [State.setCq, State.cq?, assocGet_assocSet_ne _ _ h]
      cases assocGet s.cqs c <;> simp [h]

theorem State.bumpAttach_srq_srqOf (s : State) (o : Nat) (f : Nat → Nat) (r : Nat) :
    (s.bumpAttach .srq o f).srq? r = (s.srq? r).map fun x => if r = o then { x with attach := f x.attach } else x := by
  simp only [State.bumpAttach]
  by_cases h : r = o
  · subst h
    cases hc : s.srq? r <;> simp [hc]
  · cases hc : s.srq? o
    · cases s.srq? r <;> simp [h]
    · simp only [State.setSrq, State.srq?, assocGet_assocSet_ne _ _ h]
      cases assocGet s.srqs r <;> simp [h]

@[simp] theorem State.bumpAttach_srq_cqs (s : State) (o : Nat) (f : Nat → Nat) : (s.bumpAttach .srq o f).cqs = s.cqs := by
  simp only [State.bumpAttach]; split <;> rfl
@[simp] theorem State.bumpAttach_cq_srqs (s : State) (o : Nat) (f : Nat → Nat) : (s.bumpAttach .cq o f).srqs = s.srqs := by
  simp only [State.bumpAttach]; split <;> rfl
@[simp] theorem State.bumpAttach_srq_cqOf (s : State) (o : Nat) (f : Nat → Nat) (c : Nat) :
    (s.bumpAttach .srq o f).cq? c = s.cq? c := by simp [State.cq?]
@[simp] theorem State.bumpAttach_cq_srqOf (s : State) (o : Nat) (f : Nat → Nat) (r : Nat) :
    (s.bumpAttach .cq o f).srq? r = s.srq? r := by simp [State.srq?]

/-- `ATTACH` of a live handle. -/
theorem runs_attach {kind : Kind} {h : Handle} {gone k : Prog} {s t : State} {o : Nat} (hl : s.lookup kind h = some o)
    (hk : s.holder (s.shardLock kind h.index.toNat) = none) :
    Runs (attach kind h gone k) s t ↔ Runs k (s.bumpAttach kind o (· + 1)) t := by
  unfold attach
  rw [runs_underShardAt (a := 1) (s1 := s.bumpAttach kind o (· + 1)) hk ?_ (by simp) (by simp) (by simp)]
  · simp
  · simp [attachAct, State.lockShard, hl, State.setLocks_bumpAttach]

/-- `DETACH` of a live handle. -/
theorem runs_detach {kind : Kind} {h : State → Option Handle} {k : Prog} {s t : State} {g : Handle} {o : Nat}
    (hh : h s = some g) (hl : s.lookup kind g = some o) (hk : s.holder (s.shardLock kind g.index.toNat) = none)
    (hx : ∀ l, h (s.setLocks l) = h s) :
    Runs (detach kind h k) s t ↔ Runs k (s.bumpAttach kind o (· - 1)) t := by
  unfold detach
  rw [runs_underShard (a := 0) (s1 := s.bumpAttach kind o (· - 1)) (by simpa [hh] using hk) ?_ (by simp) (by simp) (by simp)]
  simp [detachAct, State.lockShard, hx, hh, hl, State.setLocks_bumpAttach]

/-! ### The firmware mailbox port -/

/-- A mailbox call the firmware has an answer for. -/
theorem runs_mailboxNoting {note : Nat → State → State} {call : State → MailboxCall} {k : Nat → Prog} {s t : State}
    {a : FwAnswer} {rest : List FwAnswer} (hfa : s.fatal = false) (hfw : s.fw = a :: rest) :
    Runs (mailboxNoting note call k) s t ↔ Runs (k a.status.toNat) (note a.status.toNat
      (((s.wmb.postCall (call s)).setFw rest).setMe { s.me with fwOut := a.out })) t := by
  unfold mailboxNoting
  rw [runs_act_ok (a := 1) (s' := s.wmb.postCall (call s))]
  · simp only [Nat.one_ne_zero, if_false]
    rw [runs_act_ok]
    simp only [mailboxAnswer, State.postCall_fw, State.wmb_fw, hfw]
    rfl
  · simp [mailboxIssue, hfa]

/-- After a fatal failure no call is made and the status is 0xFF. -/
theorem runs_mailboxNoting_fatal {note : Nat → State → State} {call : State → MailboxCall} {k : Nat → Prog} {s t : State}
    (hfa : s.fatal = true) : Runs (mailboxNoting note call k) s t ↔ Runs (k 255) s.wmb t := by
  unfold mailboxNoting
  rw [runs_act_ok (a := 0) (s' := s.wmb)]
  · simp
  · simp [mailboxIssue, hfa]

theorem runs_mailbox {call : State → MailboxCall} {k : Nat → Prog} {s t : State} {a : FwAnswer} {rest : List FwAnswer}
    (hfa : s.fatal = false) (hfw : s.fw = a :: rest) :
    Runs (mailbox call k) s t ↔ Runs (k a.status.toNat)
      (((s.wmb.postCall (call s)).setFw rest).setMe { s.me with fwOut := a.out }) t :=
  runs_mailboxNoting hfa hfw

theorem runs_mailbox_fatal {call : State → MailboxCall} {k : Nat → Prog} {s t : State} (hfa : s.fatal = true) :
    Runs (mailbox call k) s t ↔ Runs (k 255) s.wmb t := runs_mailboxNoting_fatal hfa

theorem runs_setFwStatus {fw : Nat} {k : Prog} {s t : State} :
    Runs (setFwStatus fw k) s t ↔ Runs k (s.setResp fun r => { r with fwStatus := some (BitVec.ofNat 8 fw) }) t := runs_eff

/-! ### Doorbell records -/

theorem runs_allocRecs_legacy {spec : List (BitVec 3 × Num24)} {k : Prog} {s t : State} (hm : s.mode = .legacy) :
    Runs (allocRecs spec k) s t ↔ Runs k s t := by
  unfold allocRecs
  rw [runs_ask]
  simp [hm]

/-- The state after an allocation of records that are free. -/
def State.tookRecs (s : State) (spec : List (BitVec 3 × Num24)) : State :=
  initRecs (lowestFree s.dbRecUsed spec.length) spec
    ((s.setRecs ((lowestFree s.dbRecUsed spec.length).foldl insertSorted s.dbRecUsed) (s.dbRecFree - spec.length)).setMe
      { s.me with recs := lowestFree s.dbRecUsed spec.length })

theorem runs_allocRecs_memfree {spec : List (BitVec 3 × Num24)} {k : Prog} {s t : State} (hm : s.mode = .memfree)
    (hn : spec.length ≤ s.dbRecFree) (hk : s.holder .dbRec = none) :
    Runs (allocRecs spec k) s t ↔ Runs k (s.tookRecs spec) t := by
  unfold allocRecs
  rw [runs_ask]
  simp only [hm, if_true, Nat.one_ne_zero, if_false]
  rw [runs_acquire]
  have ha : allocAct spec.length (s.setLocks ((.dbRec, s.cur) :: s.locks)) = .ok 1
      (((s.setRecs ((lowestFree s.dbRecUsed spec.length).foldl insertSorted s.dbRecUsed) (s.dbRecFree - spec.length)).setMe
        { s.me with recs := lowestFree s.dbRecUsed spec.length }).setLocks ((.dbRec, s.cur) :: s.locks)) := by
    simp only [allocAct, State.setLocks_dbRecFree, Nat.not_lt.mpr hn, if_false]
    rfl
  rw [runs_act_ok ha, runs_release_newest (l := s.locks) rfl hk]
  simp only [Nat.one_ne_zero, if_false, hk, true_and]
  rw [runs_eff]
  simp only [State.setLocks_setLocks]
  have : ((s.setRecs ((lowestFree s.dbRecUsed spec.length).foldl insertSorted s.dbRecUsed) (s.dbRecFree - spec.length)).setMe
        { s.me with recs := lowestFree s.dbRecUsed spec.length }).setLocks s.locks
      = (s.setRecs ((lowestFree s.dbRecUsed spec.length).foldl insertSorted s.dbRecUsed) (s.dbRecFree - spec.length)).setMe
        { s.me with recs := lowestFree s.dbRecUsed spec.length } := rfl
  rw [this, State.setMe_me]
  rfl

theorem runs_freeRec_legacy {r : State → Option Nat} {k : Prog} {s t : State} (hm : s.mode = .legacy) :
    Runs (freeRec r k) s t ↔ Runs k s t := by
  unfold freeRec
  rw [runs_ask]
  simp [hm]

theorem runs_freeRec_none {r : State → Option Nat} {k : Prog} {s t : State} (hr : r s = none) :
    Runs (freeRec r k) s t ↔ Runs k s t := by
  unfold freeRec
  rw [runs_ask]
  simp [hr]

/-! ### How a command ends -/

theorem runs_respond {st : Status} {bad : Option Nat} {s t : State} :
    Runs (respond st bad) s t ↔
      t = (s.setResp fun r => { r with status := some st, badIndex := bad.map (BitVec.ofNat 32) }).endCmd := by
  unfold respond
  rw [runs_eff, runs_done]

/-- `raise` of a command that owes no doorbell and holds no lock. -/
theorem runs_raise_free {st : Status} {bad : Option Nat} {s t : State} (hb : s.me.batch.cnt = 0) (hh : s.heldCount = 0) :
    Runs (raise st bad) s t ↔
      t = (s.setResp fun r => { r with status := some st, badIndex := bad.map (BitVec.ofNat 32) }).endCmd := by
  unfold raise releaseHeld
  rw [runs_ask, hh]
  simp only [releaseN]
  unfold dbEnd
  rw [runs_act_ok (a := 0) (s' := s)]
  · exact runs_respond
  · simp [dbEndAct, hb]

/-- `raise` of a command that holds one lock, acquired last: the lock is released, the doorbell it owes is rung, it responds
(R11). -/
theorem runs_raise_owing {st : Status} {bad : Option Nat} {s s1 t : State} {x : Lock} {l : List (Lock × Nat)} {a : Nat}
    (hd : dbEndAct (s.setLocks l) = .ok a s1) (hl : s.locks = (x, s.cur) :: l) (hx : holderIn l x = none)
    (hh : (l.filter fun e => decide (e.2 = s.cur)).length = 0) :
    Runs (raise st bad) s t ↔ t = (s1.setResp fun r =>
      { r with status := some st, badIndex := bad.map (BitVec.ofNat 32) }).endCmd := by
  unfold raise releaseHeld
  have hc : s.heldCount = 1 := by
    simp only [State.heldCount, hl, List.filter_cons]
    simpa using hh
  rw [runs_ask, hc]
  simp only [releaseN]
  rw [runs_eff]
  have hr : releaseNewest s = (s.setLocks l) := by
    have h2 : s.locks.filter (fun e => decide (e.1 ≠ x)) = l := by
      rw [hl, List.filter_cons]; simp; intro a b hab; exact holderIn_none.mp hx _ hab
    unfold releaseNewest
    have : s.locks.find? (fun e => decide (e.2 = s.cur)) = some (x, s.cur) := by simp [hl]
    rw [this]
    simp only [h2]
  rw [hr]
  unfold dbEnd
  rw [runs_act_ok hd]
  exact runs_respond

/-- `raise` of a command that owes no doorbell and holds one lock, acquired last. -/
theorem runs_raise_one {st : Status} {bad : Option Nat} {s t : State} {x : Lock} {l : List (Lock × Nat)}
    (hb : s.me.batch.cnt = 0) (hl : s.locks = (x, s.cur) :: l) (hx : holderIn l x = none)
    (hh : (l.filter fun e => decide (e.2 = s.cur)).length = 0) :
    Runs (raise st bad) s t ↔ t = ((s.setLocks l).setResp fun r =>
      { r with status := some st, badIndex := bad.map (BitVec.ofNat 32) }).endCmd :=
  runs_raise_owing (a := 0) (by simp [dbEndAct, hb]) hl hx hh

/-- The common preconditions hold. -/
theorem runs_precond {b : Bool} {bad : Option Nat} {k : Prog} {s t : State} (hst : s.started = true)
    (hf : s.fatal = true → b = false) : Runs (precond b bad k) s t ↔ Runs k s t := by
  unfold precond
  rw [runs_ask]
  have : precondCode b s = 0 := by
    cases hfa : s.fatal <;> simp_all [precondCode]
  simp [this]

theorem runs_precond_notStarted {b : Bool} {bad : Option Nat} {k : Prog} {s t : State} (hst : s.started = false) :
    Runs (precond b bad k) s t ↔ Runs (raise .notStarted bad) s t := by
  unfold precond
  rw [runs_ask]
  have : precondCode b s = 1 := by simp [precondCode, hst]
  simp [this]

theorem runs_precond_fatal {bad : Option Nat} {k : Prog} {s t : State} (hst : s.started = true) (hf : s.fatal = true) :
    Runs (precond true bad k) s t ↔ Runs (raise .deviceFatal bad) s t := by
  unfold precond
  rw [runs_ask]
  have : precondCode true s = 2 := by simp [precondCode, hst, hf]
  simp [this]

/-! ### The state a command starts in -/

/-- An agent that is alone finds no other agent in the middle of a command of any kind. -/
theorem State.alone.otherBusy {s : State} (h : s.alone) (p : Nat → Agent → Instr → Bool) : s.otherBusy p = false :=
  any_false_of _ _ _ (fun e he => by
    simp only [Bool.and_eq_true] at he ⊢
    refine ⟨he.1, ?_⟩
    cases hc : e.2.cmd with
    | none => simp [hc] at he
    | some i => rfl) h

theorem State.alone.stop {s : State} (h : s.alone) : s.stopInProgress = false := h.otherBusy _
theorem State.alone.destroyed {s : State} (h : s.alone) (x : Handle) : s.beingDestroyed x = false := h.otherBusy _
theorem State.alone.used {s : State} (h : s.alone) (x : Handle) : s.usedByOther x = false := h.otherBusy _
theorem State.alone.othersIdle {s : State} (h : s.alone) : s.othersIdle = true := by
  simp [State.othersIdle, h.otherBusy]

theorem State.alone.mayIssue {s : State} (h : s.alone) (i : Instr) : s.issueFaults i = false := by
  simp [State.issueFaults, State.overlapsStop, h.stop, h.othersIdle, h.destroyed]

theorem State.alone_congr {s t : State} (h : ∀ p, t.otherBusy p = s.otherBusy p) (ha : s.alone) : t.alone := by
  unfold State.alone at *; rw [h]; exact ha

theorem State.unlocked.holder {s : State} (h : s.unlocked) (x : Lock) : s.holder x = none := by
  simp only [State.unlocked] at h; simp [State.holder, h, holderIn]

theorem State.unlocked.held {s : State} (h : s.unlocked) : s.heldCount = 0 := by
  simp only [State.unlocked] at h; simp [State.heldCount, h]

theorem State.unlocked.begin {s : State} (h : s.unlocked) (i : Instr) : (s.beginCmd i).unlocked := h

theorem State.alone.begin {s : State} (h : s.alone) (i : Instr) : (s.beginCmd i).alone := State.alone_congr (by simp) h

/-- `raise` of a command that has changed nothing. -/
theorem runs_raise_begin {s : State} {i : Instr} {st : Status} {bad : Option Nat} {t : State} (h : s.unlocked) :
    Runs (raise st bad) (s.beginCmd i) t ↔ t = s.ended { status := some st, badIndex := bad.map (BitVec.ofNat 32) } := by
  rw [runs_raise_free (by simp) (h.begin i).held]
  simp [State.ended, State.setResp, State.beginCmd, State.endCmd]

/-! ### Commands -/

/-- An instruction of an idle agent, run to its end. -/
theorem runOn_of_runs {i : Instr} {p : Operands → Prog} {s t : State} (hc : s.me.cmd = none) (hs : s.slice = none)
    (h : Runs (p s.me.op) (s.beginCmd i) t) : runOn i p s = .next t := by
  simp [runOn, hc, hs, h.run]

/-- A command of an idle agent whose issue is no fault (R430), run to its end. -/
theorem runCmd_of_runs {i : Instr} {p : Operands → Prog} {s t : State} (hc : s.me.cmd = none) (hs : s.slice = none)
    (ho : s.issueFaults i = false) (h : Runs (p s.me.op) (s.beginCmd i) t) : runCmd i p s = .next t := by
  simp [runCmd, ho, runOn_of_runs hc hs h]

theorem runsTo_runCmd {i : Instr} {p : Operands → Prog} {s : State} {P : State → Prop} (hc : s.me.cmd = none)
    (hs : s.slice = none) (ho : s.issueFaults i = false) (h : ∃ t, Runs (p s.me.op) (s.beginCmd i) t ∧ P t) :
    RunsTo (runCmd i p s) P := by
  obtain ⟨t, ht, hp⟩ := h
  exact ⟨t, runCmd_of_runs hc hs ho ht, hp⟩

/-- An event, taken by an idle event agent, run to its end. -/
theorem runEvent_of_runs {i : Instr} {p : Operands → Prog} {s t : State}
    (hc : (s.setCur eventAgent).me.cmd = none) (hs : s.slice = none)
    (h : Runs (p (s.setCur eventAgent).me.op) ((s.setCur eventAgent).beginCmd i) t) :
    runEvent i p s = .next t := by
  unfold runEvent
  simp only [hc]
  exact runOn_of_runs hc hs h

/-! ### What no step breaks -/

/-- No step of the program breaks `I`. -/
inductive Keeps (I : State → Prop) : Prog → Prop where
  | done : (∀ s, I s → I s.endCmd) → Keeps I .done
  | act {f : State → ActRes} {k : Nat → Prog} :
      (∀ s a s', I s → f s = .ok a s' → I s') → (∀ a, Keeps I (k a)) → Keeps I (.act f k)

theorem Keeps.run {I : State → Prop} (hpark : ∀ s log, I s → I (s.park log)) {p : Prog} (hp : Keeps I p) :
    ∀ {slice : Option Nat} {log : List Nat} {s t : State}, I s → p.run slice log s = .next t → I t := by
  induction hp with
  | done hd => intro slice log s t hs h; cases h; exact hd s hs
  | act hf _ ih =>
    intro slice log s t hs h
    simp only [Prog.run] at h
    split at h
    · cases h; exact hpark s log hs
    · split at h
      · rename_i heq; exact ih _ (hf _ _ _ hs heq) h
      · cases h; exact hpark s log hs
      · cases h

theorem Keeps.replay {I : State → Prop} {p : Prog} (hp : Keeps I p) : ∀ log, Keeps I (p.replay log) := by
  induction hp with
  | done hd => intro log; cases log <;> exact .done hd
  | act hf hk ih =>
    intro log
    cases log with
    | nil => exact .act hf hk
    | cons a log => exact ih a log

/-- What every step of an instruction keeps, the instruction keeps. -/
theorem Keeps.runOn {I : State → Prop} (hpark : ∀ s log, I s → I (s.park log)) (hbegin : ∀ s i, I s → I (s.beginCmd i))
    {i : Instr} {p : Operands → Prog} (hp : ∀ op, Keeps I (p op)) {s t : State} (hs : I s)
    (h : Machine.runOn i p s = .next t) : I t := by
  unfold Machine.runOn at h
  split at h
  · exact (hp _).run hpark (hbegin s i hs) h
  · split at h
    · exact ((hp _).replay _).run hpark hs h
    · cases h

theorem Keeps.runCmd {I : State → Prop} (hpark : ∀ s log, I s → I (s.park log)) (hbegin : ∀ s i, I s → I (s.beginCmd i))
    {i : Instr} {p : Operands → Prog} (hp : ∀ op, Keeps I (p op)) {s t : State} (hs : I s)
    (h : Machine.runCmd i p s = .next t) : I t := by
  unfold Machine.runCmd at h
  split at h
  · cases h
  · exact Keeps.runOn hpark hbegin hp hs h

theorem Keeps.eff {I : State → Prop} {f : State → State} {k : Prog} (hf : ∀ s, I s → I (f s)) (hk : Keeps I k) :
    Keeps I (eff f k) :=
  .act (fun s a s' hs h => by cases h; exact hf s hs) fun _ => hk

theorem Keeps.ask {I : State → Prop} {f : State → Nat} {k : Nat → Prog} (hk : ∀ a, Keeps I (k a)) : Keeps I (ask f k) :=
  .act (fun s a s' hs h => by cases h; exact hs) hk

theorem Keeps.guard {I : State → Prop} {c : State → Bool} {e : Fault} {k : Prog} (hk : Keeps I k) :
    Keeps I (guard c e k) :=
  .act (fun s a s' hs h => by split at h <;> cases h; exact hs) fun _ => hk

theorem Keeps.waitFor {I : State → Prop} {c : State → Bool} {k : Prog} (hk : Keeps I k) : Keeps I (waitFor c k) :=
  .act (fun s a s' hs h => by split at h <;> cases h; exact hs) fun _ => hk

end Sys2Proof.Machine
end

