-- ==== Sys2Proof/Laws/Writes.lean ====
section
/-! SUPPORT. What the operations that write host memory and the bus do, said once: `Writes S s t` says that `t` is `s` but for
its bus and for the bytes of memory at addresses in `S`, and that the memory keeps its canonical form. -/

namespace Sys2Proof.Machine

open Sys2Proof

/-- `t` is `s` with other bytes at addresses in `S` and other bus events at most. -/
def Writes (S : Nat → Prop) (s t : State) : Prop :=
  ∃ m l, t = (s.setMem m).setBus l ∧ (Memory.wf s.mem = true → Memory.wf m = true) ∧ ∀ b, ¬ S b → memGet m b = memGet s.mem b

/-- The addresses of a range. -/
def InRange (a n b : Nat) : Prop := a ≤ b ∧ b < a + n

theorem not_inRange {a n b : Nat} : ¬ InRange a n b ↔ b < a ∨ a + n ≤ b := by unfold InRange; omega

theorem Writes.refl (s : State) {S : Nat → Prop} : Writes S s s := ⟨s.mem, s.bus, rfl, id, fun _ _ => rfl⟩

theorem Writes.mono {S T : Nat → Prop} {s t : State} (h : Writes S s t) (hST : ∀ b, S b → T b) : Writes T s t := by
  obtain ⟨m, l, rfl, hw, hf⟩ := h
  exact ⟨m, l, rfl, hw, fun b hb => hf b fun hS => hb (hST b hS)⟩

theorem Writes.trans {S : Nat → Prop} {s t u : State} (h : Writes S s t) (h' : Writes S t u) : Writes S s u := by
  obtain ⟨m, l, rfl, hw, hf⟩ := h
  obtain ⟨m', l', rfl, hw', hf'⟩ := h'
  exact ⟨m', l', rfl, fun hs => hw' (hw hs), fun b hb => (hf' b hb).trans (hf b hb)⟩

theorem Writes.mem_wf {S : Nat → Prop} {s t : State} (h : Writes S s t) (hs : Memory.wf s.mem = true) :
    Memory.wf t.mem = true := by
  obtain ⟨m, l, rfl, hw, -⟩ := h
  exact hw hs

theorem Writes.outside {S : Nat → Prop} {s t : State} (h : Writes S s t) {b : Nat} (hb : ¬ S b) :
    memGet t.mem b = memGet s.mem b := by
  obtain ⟨m, l, rfl, -, hf⟩ := h
  exact hf b hb

theorem writes_writeBytes (s : State) (a : Nat) (bs : List Byte) : Writes (InRange a bs.length) s (s.writeBytes a bs) :=
  ⟨_, _, rfl, memPutBytes_wf _ _ _, fun _ hb => memGet_memPutBytes_outside _ _ _ _ (not_inRange.mp hb)⟩

theorem writes_memWrite (s : State) (a n v : Nat) : Writes (InRange a n) s (s.memWrite a n v) := by
  simpa [State.memWrite] using writes_writeBytes s a (beBytes n v)

theorem writes_fill (s : State) (a n : Nat) (v : Byte) : Writes (InRange a n) s (s.fill a n v) :=
  ⟨_, _, rfl, memFill_wf _ _ _ _, fun _ hb => memGet_memFill_outside _ _ _ _ _ (not_inRange.mp hb)⟩

theorem writes_wmb (s : State) {S : Nat → Prop} : Writes S s s.wmb := ⟨s.mem, _, rfl, id, fun _ _ => rfl⟩
theorem writes_rmb (s : State) {S : Nat → Prop} : Writes S s s.rmb := ⟨s.mem, _, rfl, id, fun _ _ => rfl⟩
theorem writes_mmio (s : State) (off : BitVec 8) (w0 w1 : Word) {S : Nat → Prop} : Writes S s (s.mmio off w0 w1) :=
  ⟨s.mem, _, rfl, id, fun _ _ => rfl⟩
theorem writes_ring (s : State) (reg : DbReg) (i : Instr) {S : Nat → Prop} : Writes S s (s.ring reg i) :=
  ⟨s.mem, _, rfl, id, fun _ _ => rfl⟩
theorem writes_postCall (s : State) (c : MailboxCall) {S : Nat → Prop} : Writes S s (s.postCall c) :=
  ⟨s.mem, _, rfl, id, fun _ _ => rfl⟩

theorem writes_writeFields (s : State) (a : Nat) (fs : List (Nat × Nat)) :
    Writes (InRange a (fieldBytes fs)) s (s.writeFields a fs) := by
  induction fs generalizing s a with
  | nil => exact .refl s
  | cons f fs ih =>
    obtain ⟨n, v⟩ := f
    refine ((writes_memWrite s a n v).mono ?_).trans ((ih (s.memWrite a n v) (a + n)).mono ?_) <;>
      (intro b hb; unfold InRange at *; simp only [fieldBytes]; omega)

/-- A write of word 0 of a record, where there is one. -/
theorem writes_writeRec0 (s : State) (r : Option Nat) (v : Nat) :
    Writes (fun b => ∃ i, r = some i ∧ InRange (s.recAddr i) 4 b) s (s.writeRec0 r v) := by
  cases r with
  | none => exact .refl s
  | some i => exact (writes_memWrite s (s.recAddr i) 4 v).mono fun b hb => ⟨i, rfl, hb⟩

theorem writes_writeRec1 (s : State) (r : Option Nat) (v : Nat) :
    Writes (fun b => ∃ i, r = some i ∧ InRange (s.recAddr i + 4) 4 b) s (s.writeRec1 r v) := by
  cases r with
  | none => exact .refl s
  | some i => exact (writes_memWrite s (s.recAddr i + 4) 4 v).mono fun b hb => ⟨i, rfl, hb⟩

/-- A record written: nothing but it is. -/
theorem writes_initRec (s : State) (r w0 w1 : Nat) : Writes (InRange (s.recAddr r) 8) s (s.initRec r w0 w1) := by
  refine ((writes_wmb s).trans ((writes_writeRec0 s.wmb (some r) w0).mono ?_)).trans
    ((writes_wmb _).trans ((writes_writeRec1 (s.wmb.writeRec0 (some r) w0).wmb (some r) w1).mono ?_))
  · rintro b ⟨i, hi, hb⟩
    obtain rfl := Option.some.inj hi
    have h : s.wmb.recAddr r = s.recAddr r := rfl
    rw [h] at hb
    unfold InRange at *; omega
  · rintro b ⟨i, hi, hb⟩
    obtain rfl := Option.some.inj hi
    have h : (s.wmb.writeRec0 (some r) w0).wmb.recAddr r = s.recAddr r :=
      s.wmb.memWrite_recAddr (s.recAddr r) 4 w0 r
    rw [h] at hb
    unfold InRange at *; omega

theorem State.initRec_recAddr (s : State) (r w0 w1 p : Nat) : (s.initRec r w0 w1).recAddr p = s.recAddr p := by
  obtain ⟨m, l, h, -⟩ := writes_initRec s r w0 w1
  rw [h]; rfl

/-- The first contents of records: nothing but the records is written. -/
theorem writes_initRecs (rs : List Nat) (spec : List (BitVec 3 × Num24)) (s : State) :
    Writes (fun b => ∃ r ∈ rs, InRange (s.recAddr r) 8 b) s (initRecs rs spec s) := by
  induction rs generalizing spec s with
  | nil => cases spec <;> exact .refl s
  | cons r rs ih =>
    cases spec with
    | nil => exact .refl s
    | cons e spec =>
      obtain ⟨ty, num⟩ := e
      simp only [initRecs]
      refine ((writes_initRec s r 0 (recWord1 ty num)).mono fun b hb => ⟨r, by simp, hb⟩).trans ((ih spec _).mono ?_)
      rintro b ⟨p, hp, hb⟩
      rw [State.initRec_recAddr] at hb
      exact ⟨p, by simp [hp], hb⟩

/-- The owner bytes of a new ring: nothing but they is written. -/
theorem writes_initOwners (s : State) (a n : Nat) :
    Writes (fun b => ∃ j, j < n ∧ b = a + 32 * j + 0x1F) s (initOwners s a n) := by
  induction n generalizing s a with
  | zero => exact .refl s
  | succ n ih =>
    simp only [initOwners]
    refine ((writes_memWrite s (a + 0x1F) 1 0x80).mono ?_).trans ((ih _ (a + 32)).mono ?_)
    · intro b hb; exact ⟨0, by omega, by unfold InRange at hb; omega⟩
    · rintro b ⟨j, hj, rfl⟩; exact ⟨j + 1, by omega, by omega⟩

theorem initOwners_owner (s : State) (a n j : Nat) (hs : Memory.wf s.mem = true) (hj : j < n) :
    memGet (initOwners s a n).mem (a + 32 * j + 0x1F) = 0x80 := by
  induction n generalizing s a j with
  | zero => omega
  | succ n ih =>
    simp only [initOwners]
    cases j with
    | zero =>
      rw [(writes_initOwners _ (a + 32) n).outside (by rintro ⟨j, -, hj⟩; omega)]
      have := memGet_memPutBytes_inside s.mem (a + 0x1F) (beBytes 1 0x80) 0 hs (by simp)
      simpa [State.memWrite, beBytes] using this
    | succ j =>
      have := ih (s.memWrite (a + 0x1F) 1 0x80) (a + 32) j ((writes_memWrite s _ _ _).mem_wf hs) (by omega)
      rw [show a + 32 * (j + 1) + 0x1F = a + 32 + 32 * j + 0x1F by omega]
      exact this

/-! ### What the records of an allocation hold -/

theorem lowestFree_nodup (used : List Nat) (k : Nat) : (lowestFree used k).Nodup :=
  ((List.nodup_range).filter _).sublist (List.take_sublist _ _)

theorem lowestFree_length (used : List Nat) (k : Nat) : (lowestFree used k).length = k := by
  have h1 : ((List.range (used.length + k)).filter fun r => decide (r ∈ used)).length ≤ used.length :=
    (((List.nodup_range).filter _).subperm fun x hx => by simpa using (List.mem_filter.mp hx).2).length_le
  have h2 := List.length_eq_length_filter_add (l := List.range (used.length + k)) fun r => decide (r ∈ used)
  have h3 : (fun r => !decide (r ∈ used)) = fun r => decide (r ∉ used) := by ext r; simp
  rw [List.length_range, h3] at h2
  simp only [lowestFree, List.length_take]
  omega

theorem memRead_of_outside {S : Nat → Prop} {s t : State} (h : Writes S s t) {a n : Nat}
    (hS : ∀ b, InRange a n b → ¬ S b) : t.memRead a n = s.memRead a n := by
  unfold State.memRead
  rw [memGetBytes_congr _ _ _ _ fun b hb hb' => h.outside (hS b ⟨hb, hb'⟩)]

theorem recWord1_lt (ty : BitVec 3) (num : Num24) : recWord1 ty num < 256 ^ 4 := (num ++ ty ++ (0 : BitVec 5)).isLt

theorem recWord1_eq (ty : BitVec 3) (num : Num24) : recWord1 ty num = num.toNat * 256 + ty.toNat * 32 := by
  have h1 := ty.isLt
  have h3 : num.toNat <<< 3 ||| ty.toNat = num.toNat * 8 + ty.toNat := by
    have := Nat.two_pow_add_eq_or_of_lt h1 num.toNat
    rw [Nat.shiftLeft_eq, Nat.mul_comm]; omega
  simp only [recWord1, BitVec.toNat_append, h3]
  simp [Nat.shiftLeft_eq]
  omega

/-- Two words written one after the other. -/
theorem memRead_two (s : State) (a v w : Nat) (hs : Memory.wf s.mem = true) :
    ((s.memWrite a 4 v).memWrite (a + 4) 4 w).memRead a 4 = v % 256 ^ 4
      ∧ ((s.memWrite a 4 v).memWrite (a + 4) 4 w).memRead (a + 4) 4 = w % 256 ^ 4 := by
  rw [State.memRead_memWrite_ne _ _ _ _ _ _ (Or.inl (le_refl _)), State.memRead_memWrite _ _ _ _ hs,
    State.memRead_memWrite _ _ _ _ ((writes_memWrite s a 4 v).mem_wf hs)]
  exact ⟨rfl, rfl⟩

/-- The two words of a record written. -/
theorem memRead_initRec (s : State) (r w0 w1 : Nat) (hs : Memory.wf s.mem = true) :
    (s.initRec r w0 w1).memRead (s.recAddr r) 4 = w0 % 256 ^ 4
      ∧ (s.initRec r w0 w1).memRead (s.recAddr r + 4) 4 = w1 % 256 ^ 4 := by
  have h : (s.initRec r w0 w1).mem = ((s.memWrite (s.recAddr r) 4 w0).memWrite (s.recAddr r + 4) 4 w1).mem := rfl
  unfold State.memRead
  rw [h]
  exact memRead_two s _ _ _ hs

theorem initRecs_cons (r : Nat) (rs : List Nat) (ty : BitVec 3) (num : Num24) (spec : List (BitVec 3 × Num24)) (s : State) :
    ∃ u, initRecs (r :: rs) ((ty, num) :: spec) s = initRecs rs spec u ∧ u.recAddr = s.recAddr
      ∧ (Memory.wf s.mem = true → Memory.wf u.mem = true ∧ u.memRead (s.recAddr r) 4 = 0
          ∧ u.memRead (s.recAddr r + 4) 4 = num.toNat * 256 + ty.toNat * 32) := by
  refine ⟨_, rfl, funext fun p => State.initRec_recAddr _ _ _ _ _, fun hs => ⟨(writes_initRec _ _ _ _).mem_wf hs, ?_, ?_⟩⟩
  · rw [(memRead_initRec s _ _ _ hs).1]; rfl
  · rw [(memRead_initRec s _ _ _ hs).2, Nat.mod_eq_of_lt (recWord1_lt _ _), recWord1_eq]

/-- The two words of every record of an allocation (R256). -/
theorem initRecs_words (rs : List Nat) (spec : List (BitVec 3 × Num24)) (s : State) (hs : Memory.wf s.mem = true)
    (hn : rs.Nodup) {k r : Nat} {ty : BitVec 3} {num : Num24} (hr : rs[k]? = some r) (hk : spec[k]? = some (ty, num)) :
    (initRecs rs spec s).memRead (s.recAddr r) 4 = 0
      ∧ (initRecs rs spec s).memRead (s.recAddr r + 4) 4 = num.toNat * 256 + ty.toNat * 32 := by
  induction rs generalizing spec s k with
  | nil => simp at hr
  | cons p rs ih =>
    cases spec with
    | nil => simp at hk
    | cons e spec =>
      obtain ⟨ty', num'⟩ := e
      have hn' := List.nodup_cons.mp hn
      obtain ⟨u, hu, ha, hw⟩ := initRecs_cons p rs ty' num' spec s
      obtain ⟨w1, w2, w3⟩ := hw hs
      rw [hu]
      cases k with
      | zero =>
        simp only [List.getElem?_cons_zero, Option.some.injEq, Prod.mk.injEq] at hr hk
        obtain ⟨rfl, rfl⟩ := hk
        subst hr
        have hS : ∀ a n, s.recAddr p ≤ a → a + n ≤ s.recAddr p + 8 → ∀ b, InRange a n b →
            ¬ ∃ r ∈ rs, InRange (u.recAddr r) 8 b := by
          rintro a n ha' hn b ⟨hb, hb'⟩ ⟨r, hr, hc, hc'⟩
          have hrp : r ≠ p := fun h => hn'.1 (h ▸ hr)
          rw [ha] at hc hc'
          unfold State.recAddr at *
          omega
        rw [memRead_of_outside (writes_initRecs rs spec u) (hS _ 4 (le_refl _) (by omega)),
          memRead_of_outside (writes_initRecs rs spec u) (hS _ 4 (by omega) (le_refl _))]
        exact ⟨w2, w3⟩
      | succ k =>
        simp only [List.getElem?_cons_succ] at hr hk
        rw [← ha]
        exact ih spec u w1 hn'.2 hr hk

/-- The allocation of the records of a create (R256), in both modes: what it takes, and what it writes. -/
theorem runs_allocRecs {spec : List (BitVec 3 × Num24)} {recs : List Nat} {s : State} {ag : Agent} (ha : ag.recs = [])
    (hr : s.takesRecs spec.length recs) (hu : s.unlocked) (hs : Memory.wf s.mem = true) :
    ∃ m l, Memory.wf m = true
      ∧ (∀ b, (∀ r ∈ recs, Outside b (s.recAddr r, 8)) → memGet m b = memGet s.mem b)
      ∧ (∀ (k r : Nat) (ty : BitVec 3) (num : Num24), recs[k]? = some r → spec[k]? = some (ty, num) →
          (s.setMem m).memRead (s.recAddr r) 4 = 0
            ∧ (s.setMem m).memRead (s.recAddr r + 4) 4 = num.toNat * 256 + ty.toNat * 32)
      ∧ ∀ k t, Runs (allocRecs spec k) (s.setMe ag) t ↔
          Runs k ((((s.setRecs (recs.foldl insertSorted s.dbRecUsed) (s.dbRecFree - recs.length)).setMem m).setBus l).setMe
            { ag with recs := recs }) t := by
  rcases hr with ⟨hm, rfl⟩ | ⟨hm, hn, rfl⟩
  · refine ⟨s.mem, s.bus, hs, fun _ _ => rfl, by simp, fun k t => ?_⟩
    rw [runs_allocRecs_legacy (by simpa using hm)]
    obtain ⟨a1, a2, a3, a4, a5, a6, a7, a8, a9⟩ := ag
    subst ha
    rfl
  · let u := (s.setRecs ((lowestFree s.dbRecUsed spec.length).foldl insertSorted s.dbRecUsed) (s.dbRecFree - spec.length)).setMe
      { ag with recs := lowestFree s.dbRecUsed spec.length }
    obtain ⟨m, l, he, hw, hf⟩ := writes_initRecs (lowestFree s.dbRecUsed spec.length) spec u
    refine ⟨m, l, hw hs, fun b hb => hf b ?_, fun k r ty num hk hk' => ?_, fun k t => ?_⟩
    · rintro ⟨r, hr, hc, hc'⟩
      have := hb r hr
      have h2 : u.recAddr r = s.recAddr r := rfl
      rw [h2] at hc hc'
      unfold Outside at this
      simp only at this
      omega
    · have := initRecs_words (lowestFree s.dbRecUsed spec.length) spec u hs (lowestFree_nodup _ _) hk hk'
      rw [he] at this
      exact this
    · rw [runs_allocRecs_memfree (by simpa using hm) (by simpa using hn) (State.unlocked.holder (s := s.setMe ag) hu _)]
      have h1 : (s.setMe ag).tookRecs spec = initRecs (lowestFree s.dbRecUsed spec.length) spec u := by
        unfold State.tookRecs
        congr 1
        ext1 <;> simp [u]
      rw [h1, he, lowestFree_length]
      rfl

theorem table_length {s : State} (h : s.tablesWf) (k : Kind) : (s.table k).length = Config.entries s.cfg k := by
  obtain ⟨h1, h2, h3⟩ := h
  cases k <;> assumption

theorem indexOf_lt (s : State) (k : Kind) (num : Num24) : s.indexOf k num < 2 ^ 24 :=
  lt_of_le_of_lt (Nat.mod_le _ _) num.isLt

/-- The handle of an insert names the new object (R344). -/
theorem lookup_freshHandle {s : State} {k : Kind} {num : Num24} {o : Nat} (hc : s.canInsert k num) :
    (s.setEntry k (s.indexOf k num)
      { gen := (s.entry k (s.indexOf k num)).gen, occ := some { num, obj := o } }).lookup k (s.freshHandle k num) = some o := by
  obtain ⟨-, hi, ht, -⟩ := hc
  have h1 : (BitVec.ofNat 24 (s.indexOf k num)).toNat = s.indexOf k num := by
    rw [BitVec.toNat_ofNat]; exact Nat.mod_eq_of_lt (indexOf_lt s k num)
  refine State.lookup_of_entry (h := s.freshHandle k num) (o := { num, obj := o }) ?_ ?_
  · rw [State.setEntry_entries]; simpa [State.freshHandle, h1] using hi
  · simp only [State.freshHandle, h1]
    exact State.setEntry_entry_self _ _ _ _ (by rw [table_length ht]; exact hi)

/-- What a handle names depends on the parameters and the table of its kind only. -/
theorem lookup_congr {s t : State} {k : Kind} (hc : t.cfg = s.cfg) (ht : t.table k = s.table k) (h : Handle) :
    t.lookup k h = s.lookup k h := by
  simp [State.lookup, State.entry, hc, ht]

/-- The handle of a create names the object it made (R344). -/
theorem lookup_inserted {s t : State} {k : Kind} {num : Num24} {o : Nat} (hc : s.canInsert k num) (hg : t.cfg = s.cfg)
    (ht : t.table k = (s.table k).set (s.indexOf k num)
      { gen := (s.entry k (s.indexOf k num)).gen, occ := some { num, obj := o } }) :
    t.lookup k (s.freshHandle k num) = some o := by
  rw [← lookup_freshHandle (o := o) hc]
  exact lookup_congr (by simpa using hg) (by rw [ht]; cases k <;> rfl) _

end Sys2Proof.Machine
end

