-- ==== Sys2Proof/Laws/Commands.lean ====
section
/-! SUPPORT. What the parts of commands do, said once each: from the start of a command to the hold of its first lock, the firmware
calls of `MODIFY_QP` and `QUERY_QP`, the cleaning of an empty CQ, the reset of a ring, the release of doorbell records. -/

namespace Sys2Proof.Machine

open Sys2Proof

/-- A command on a QP up to the hold of its `mlock`. -/
theorem runs_qpLocked {s : State} {q : Nat} {k : Nat → Prog} {t} (hu : s.unlocked) (h1 : s.started = true)
    (h3 : s.fatal = false) (hn : s.names .qp s.me.op.qp q) (b bad fail i) :
    Runs (precond b bad <| resolve .qp s.me.op.qp true fail fun q => acquire (.mlock q) <| k q) (s.beginCmd i) t ↔
      Runs (k q) ((s.setMe { op := s.me.op, cmd := some i, uses := [s.me.op.qp] }).setLocks [(.mlock q, s.cur)]) t := by
  rw [runs_precond (by simpa) (by simp [h3]), runs_resolve_found (by simpa using hn.1) hn.2 (by simp) ((hu.begin _).holder _), runs_acquire]
  have : s.locks = [] := hu
  simp [State.noteUse, State.beginCmd, hu.holder, this]

/-- `raise` of a command that holds one lock. -/
theorem runs_raise_locked {s : State} {i : Instr} {us : List Handle} {x : Lock} {st : Status} {bad : Option Nat} {t : State}
    (hu : s.unlocked) (r : Response) (fo) :
    Runs (raise st bad) ((s.setMe { op := s.me.op, cmd := some i, uses := us, resp := r, fwOut := fo }).setLocks
      [(x, s.cur)]) t ↔ t = s.ended { r with status := some st, badIndex := bad.map (BitVec.ofNat 32) } := by
  have : s.locks = [] := hu
  rw [runs_raise_one (x := x) (l := []) (by simp) (by simp) (by simp [holderIn]) (by simp)]
  refine iff_of_eq (congrArg (t = ·) ?_)
  ext1 <;> simp [State.ended, this]

/-- The pair of states that the check of `MODIFY_QP` answers, read back. -/
theorem code_roundtrip (a b : QpState) :
    qpStateOf ((8 + 8 * qpStateCode a + qpStateCode b - 8) / 8) = a
      ∧ qpStateOf ((8 + 8 * qpStateCode a + qpStateCode b - 8) % 8) = b := by
  cases a <;> cases b <;> decide

theorem code_ge (a b : QpState) : ∃ n, 8 + 8 * qpStateCode a + qpStateCode b = 5 + n :=
  ⟨3 + 8 * qpStateCode a + qpStateCode b, by omega⟩

/-- `MODIFY_QP` of a legal request, up to the firmware's answer. -/
theorem runs_modify_call {s : State} {q : Nat} {x : Qp} {t} (hu : s.unlocked) (h1 : s.started = true)
    (h3 : s.fatal = false) (hn : s.names .qp s.me.op.qp q) (hq : s.qp? q = some x)
    (he : modifyError s.cfg x s.me.op = none) {tr cur new} (hcur : curState x s.me.op = cur)
    (hnew : newState x s.me.op = new) (htr : transitionOf cur new = some tr) {a rest} (hfw : s.fw = a :: rest) :
    Runs (modifyQpProg s.me.op) (s.beginCmd .modifyQp) t ↔
      Runs (if a.status.toNat ≠ 0 then raise .mailboxFail
        else
          .act (commitAct q cur new s.me.op) fun _ => portCalls q cur new <|
          (if new = .reset then resetCleanup q else fun k => k) <|
          release (.mlock q) <| respond .ok none)
        ((noteTransition q new a.status.toNat
            ((s.wmb.postCall (.modifyQp tr x.qpn (some (contextImage s.cfg x tr new s.me.op)))).setFw rest)).setMe
          { op := s.me.op, cmd := some .modifyQp, uses := [s.me.op.qp], resp := { fwStatus := some a.status }
            fwOut := a.out } |>.setLocks [(.mlock q, s.cur)]) t := by
  unfold modifyQpProg
  rw [runs_qpLocked hu h1 h3 hn]
  rw [runs_act_ok (a := 8 + 8 * qpStateCode cur + qpStateCode new) (s' := ((s.setMe
    { op := s.me.op, cmd := some .modifyQp, uses := [s.me.op.qp] }).setLocks [(.mlock q, s.cur)]))]
  swap
  · simp only [modifyCheckAct]
    rw [withQp_eq (x := x) (by simpa using hq)]
    simp [he, hcur, hnew]
  obtain ⟨n, hn⟩ := code_ge cur new
  simp only [code_roundtrip]
  rw [hn]
  simp only [show ¬ (5 + n = 1) by omega, show ¬ (5 + n = 2) by omega, show ¬ (5 + n = 3) by omega,
    show ¬ (5 + n = 4) by omega, if_false]
  rw [runs_mailboxNoting (a := a) (rest := rest) (by simpa) (by simpa), runs_setFwStatus]
  have : modifyCall q cur new s.me.op ((s.setMe
      { op := s.me.op, cmd := some .modifyQp, uses := [s.me.op.qp] }).setLocks [(.mlock q, s.cur)])
      = .modifyQp tr x.qpn (some (contextImage s.cfg x tr new s.me.op)) := by
    simp [modifyCall, hq, htr]
  rw [this]
  refine iff_of_eq (congrArg₂ _ ?_ rfl)
  unfold noteTransition
  split
  · ext1 <;> simp [State.qpnOf, hq]
  · ext1 <;> simp

/-- `QUERY_QP` up to the firmware's answer. -/
theorem runs_query_call {s : State} {q : Nat} {x : Qp} {t} (hu : s.unlocked) (h1 : s.started = true)
    (h3 : s.fatal = false) (hn : s.names .qp s.me.op.qp q) (hq : s.qp? q = some x) {a rest} (hfw : s.fw = a :: rest) :
    Runs (queryQpProg s.me.op) (s.beginCmd .queryQp) t ↔
      Runs (if a.status.toNat ≠ 0 then raise .mailboxFail
        else .act (queryAct q) fun _ => release (.mlock q) <| respond .ok none)
        (((s.wmb.postCall (.queryQp x.qpn)).setFw rest).setMe
          { op := s.me.op, cmd := some .queryQp, uses := [s.me.op.qp], resp := { fwStatus := some a.status }
            fwOut := a.out } |>.setLocks [(.mlock q, s.cur)]) t := by
  unfold queryQpProg
  rw [runs_qpLocked hu h1 h3 hn]
  rw [runs_mailbox (a := a) (rest := rest) (by simpa) (by simpa), runs_setFwStatus]
  refine iff_of_eq (congrArg₂ _ ?_ rfl)
  ext1 <;> simp [State.qpnOf, hq]

/-! ### Cleaning -/

/-- `CQ_CLEAN` of a CQ in which no CQE waits: a read barrier. -/
theorem runs_cqCleanOn_empty {c r : Nat} {y : Cq} {qpn : Num24} {k : Prog} {s t : State} (hy : s.cq? c = some y)
    (he : s.cqeHwOwned y.headAddr = true) (hf : s.holder (.cq c) = none) :
    Runs (cqCleanOn c r qpn k) s t ↔ Runs k s.rmb t := by
  unfold cqCleanOn
  rw [runs_acquire]
  simp only [hf, true_and]
  have hscan : ∀ n, scanOwned (s.setLocks ((.cq c, s.cur) :: s.locks)) y y.consIndex n = 0 := by
    intro n
    cases n with
    | zero => rfl
    | succ n => 
      have : (s.setLocks ((.cq c, s.cur) :: s.locks)).cqeHwOwned (y.slotAddr y.consIndex.toNat) = true := he
      simp [scanOwned, this]
  rw [runs_act_ok (a := 0) (s' := s.setLocks ((.cq c, s.cur) :: s.locks)), runs_eff]
  · simp only [cleanLoop, if_true]
    rw [runs_release_newest (l := s.locks) rfl hf]
    rfl
  · simp only [cleanScanAct]
    rw [withCq_eq (s := s.setLocks ((.cq c, s.cur) :: s.locks)) (x := y) hy, hscan]

/-- `CQ_CLEAN` of a QP's CQ in which no CQE waits. -/
theorem runs_cqClean_empty {q c : Nat} {isSend withSrq : Bool} {g : Handle} {k : Prog} {s t : State}
    (hg : s.cqHandle q isSend = some g) (he : s.namesEmptyCq g c) (hs : ∀ h, s.srqHandle q = some h → ∃ r, s.names .srq h r)
    (hf : ∀ x, (∃ k i, x = Lock.shard k i) ∨ x = .cq c → s.holder x = none) :
    Runs (cqClean q isSend withSrq k) s t ↔ Runs k s.rmb t := by
  obtain ⟨hn, y, hy, ho⟩ := he
  unfold cqClean
  rw [runs_ask, runs_resolveRef (g := g) (o := c) hg hn.1 hn.2 (hf _ (Or.inl ⟨_, _, rfl⟩)) (fun _ => rfl), runs_ask]
  by_cases hv : withSrq = true ∧ (s.srqHandle q).isSome = true
  · obtain ⟨h, hh⟩ := Option.isSome_iff_exists.mp hv.2
    obtain ⟨r, hr, hr0⟩ := hs h hh
    rw [if_pos hv]
    simp only [Nat.one_ne_zero, if_false]
    rw [runs_resolveRef (g := h) (o := r) hh hr hr0 (hf _ (Or.inl ⟨_, _, rfl⟩)) (fun _ => rfl)]
    exact runs_cqCleanOn_empty hy ho (hf _ (Or.inr rfl))
  · rw [if_neg hv]
    simp only [if_true]
    exact runs_cqCleanOn_empty hy ho (hf _ (Or.inr rfl))

/-- The cleaning of both CQs of a QP, where no CQE waits in either: barriers. -/
theorem runs_cleanBoth_empty {q c1 c2 : Nat} {x : Qp} {k : Prog} {s t : State} (hx : s.qp? q = some x)
    (h1 : s.namesEmptyCq x.sendCq c1) (h2 : s.namesEmptyCq x.recvCq c2) (hs : ∀ h, x.srq = some h → ∃ r, s.names .srq h r)
    (hf : ∀ x, (∃ k i, x = Lock.shard k i) ∨ x = .cq c1 ∨ x = .cq c2 → s.holder x = none) :
    Runs (cleanBoth q k) s t ↔ Runs k (if x.sendCq = x.recvCq then s.rmb else s.rmb.rmb) t := by
  have hh : s.srqHandle q = x.srq := by simp [State.srqHandle, hx]
  have e1 : s.cqHandle q true = some x.sendCq := by simp [State.cqHandle, hx, Qp.cqOf]
  have e2 : s.cqHandle q false = some x.recvCq := by simp [State.cqHandle, hx, Qp.cqOf]
  unfold cleanBoth
  rw [runs_cqClean_empty e2 h2 (by rwa [hh]) (fun l h => hf l (h.imp_right Or.inr)), runs_ask]
  have e3 : s.rmb.sameCqs q = if x.sendCq = x.recvCq then 1 else 0 := by
    have e4 : s.rmb.cqHandle q true = some x.sendCq := e1
    have e5 : s.rmb.cqHandle q false = some x.recvCq := e2
    simp [State.sameCqs, e4, e5]
  rw [e3]
  by_cases h : x.sendCq = x.recvCq
  · simp [h]
  · simp only [h, if_false, Nat.zero_ne_one]
    exact runs_cqClean_empty (s := s.rmb) e1 h1 (by rw [← hh] at hs; exact hs) (fun l h => hf l (h.imp_right Or.inl))

/-! ### The reset of a ring -/

/-- The reset of one ring of a QP (R166). -/
theorem runs_resetRing {q : Nat} {isSend : Bool} {x : Qp} {k : Prog} {s t : State} (hx : s.qp? q = some x)
    (hf : s.holder (if isSend then .sq q else .rq q) = none) :
    Runs (resetRing q isSend k) s t ↔ Runs k (match s.mode with
      | .legacy => s.setQp q (x.setRing isSend (x.ring isSend).cleared)
      | .memfree => (s.setQp q (x.setRing isSend (x.ring isSend).cleared)).wmb.writeRec0
          (if isSend then x.sqDbRec else x.rqDbRec) 0) t := by
  unfold resetRing
  rw [runs_acquire]
  simp only [hf, true_and]
  generalize hL : (if isSend then Lock.sq q else .rq q) = L at *
  rw [runs_act_ok (a := 0)
    (s' := (s.setLocks ((L, s.cur) :: s.locks)).setQp q (x.setRing isSend (x.ring isSend).cleared))]
  · rw [runs_act_ok (a := 0) (s' := (match s.mode with
      | .legacy => (s.setLocks ((L, s.cur) :: s.locks)).setQp q (x.setRing isSend (x.ring isSend).cleared)
      | .memfree => ((s.setLocks ((L, s.cur) :: s.locks)).setQp q (x.setRing isSend (x.ring isSend).cleared)).wmb.writeRec0
          (if isSend then x.sqDbRec else x.rqDbRec) 0))]
    · rw [runs_release_newest (l := s.locks) ?_ hf]
      · refine iff_of_eq (congrArg₂ _ ?_ rfl)
        cases s.mode
        · rfl
        · cases isSend
          · cases x.rqDbRec <;> rfl
          · cases x.sqDbRec <;> rfl
      · cases s.mode
        · rfl
        · cases isSend
          · cases x.rqDbRec <;> rfl
          · cases x.sqDbRec <;> rfl
    · simp only [clearRecAct]
      rw [withQp_eq (x := x.setRing isSend (x.ring isSend).cleared) (by simp)]
      simp only [State.setQp_mode, State.setLocks_mode]
      cases s.mode
      · rfl
      · cases isSend <;> rfl
  · simp only [clearRingAct]
    rw [withQp_eq (s := s.setLocks ((L, s.cur) :: s.locks)) (x := x) hx]

/-! ### Doorbell records given back (R256) -/

/-- The state after `DB_REC_FREE` of the record of a field: nothing in `LEGACY`, and where the field holds none. -/
def State.freedRec (s : State) (o : Option Nat) : State :=
  match s.mode, o with
  | .memfree, some r => (s.wmb.memWrite (s.recAddr r + 4) 4 0).setRecs (s.dbRecUsed.filter fun x => decide (x ≠ r)) (s.dbRecFree + 1)
  | _, _ => s

/-- `DB_REC_FREE`, in both modes. -/
theorem runs_freeRec {r : State → Option Nat} {k : Prog} {s t : State} (hk : s.holder .dbRec = none)
    (hx : ∀ m l lk, r (((s.setMem m).setBus l).setLocks lk) = r s) :
    Runs (freeRec r k) s t ↔ Runs k (s.freedRec (r s)) t := by
  cases hm : s.mode
  · rw [runs_freeRec_legacy hm]; simp [State.freedRec, hm]
  · cases hr : r s with
    | none => rw [runs_freeRec_none hr]; simp [State.freedRec, hm]
    | some i =>
      unfold freeRec
      rw [runs_ask]
      simp only [hm, hr, Option.isSome_some, and_self, if_true, Nat.one_ne_zero, if_false]
      rw [runs_eff, runs_acquire]
      have h1 : (s.wmb.writeRec1 (some i) 0).holder .dbRec = none := hk
      simp only [hr, h1, true_and]
      have hx2 : r ((s.wmb.writeRec1 (some i) 0).setLocks ((.dbRec, (s.wmb.writeRec1 (some i) 0).cur) :: (s.wmb.writeRec1 (some i) 0).locks))
          = some i := (hx _ _ _).trans hr
      rw [runs_eff, runs_release_newest (l := s.locks) rfl hk, hx2]
      refine iff_of_eq (congrArg₂ _ ?_ rfl)
      simp only [State.freedRec, hm, State.writeRec1]
      ext1 <;> simp

/-- What the release of a record does. -/
theorem freedRec_eq (s : State) (o : Option Nat) :
    ∃ m l, s.freedRec o = ((s.setMem m).setBus l).setRecs (s.dbRecUsed.filter fun r => decide (r ∉ s.recsOf [o]))
        (s.dbRecFree + (s.recsOf [o]).length)
      ∧ (Memory.wf s.mem = true → Memory.wf m = true ∧ ∀ r ∈ s.recsOf [o], (s.setMem m).memRead (s.recAddr r + 4) 4 = 0)
      ∧ ∀ b, (∀ r ∈ s.recsOf [o], Outside b (s.recAddr r + 4, 4)) → memGet m b = memGet s.mem b := by
  cases hm : s.mode
  · exact ⟨s.mem, s.bus, by ext1 <;> simp [State.freedRec, State.recsOf, hm],
      fun h => ⟨h, by simp [State.recsOf, hm]⟩, fun _ _ => rfl⟩
  · cases o with
    | none => exact ⟨s.mem, s.bus, by ext1 <;> simp [State.freedRec, State.recsOf, hm],
        fun h => ⟨h, by simp [State.recsOf, hm]⟩, fun _ _ => rfl⟩
    | some r =>
      obtain ⟨m, l, he, hw, hf⟩ := (writes_wmb s).trans (writes_memWrite s.wmb (s.recAddr r + 4) 4 0)
      have hr : s.recsOf [some r] = [r] := by simp [State.recsOf, hm]
      refine ⟨m, l, ?_, fun h => ⟨hw h, ?_⟩, fun b hb => hf b ?_⟩
      · simp [State.freedRec, hm, he, hr]
      · rw [hr]
        intro p hp
        obtain rfl := List.mem_singleton.mp hp
        have h2 := State.memRead_memWrite s.wmb (s.recAddr p + 4) 4 0 h
        rw [he] at h2
        exact h2
      · rw [hr] at hb
        have := hb r (by simp)
        simp only [Outside] at this
        rintro ⟨h1, h2⟩
        omega

theorem recsOf_cons (s : State) (o : Option Nat) (l : List (Option Nat)) : s.recsOf (o :: l) = s.recsOf [o] ++ s.recsOf l := by
  cases hm : s.mode <;> cases o <;> simp [State.recsOf, hm]

/-- What the release of two records does. -/
theorem freedRec_two (s : State) (o p : Option Nat) :
    ∃ m l, (s.freedRec o).freedRec p = ((s.setMem m).setBus l).setRecs
        (s.dbRecUsed.filter fun r => decide (r ∉ s.recsOf [o, p])) (s.dbRecFree + (s.recsOf [o, p]).length)
      ∧ (Memory.wf s.mem = true → Memory.wf m = true ∧ ∀ r ∈ s.recsOf [o, p], (s.setMem m).memRead (s.recAddr r + 4) 4 = 0)
      ∧ ∀ b, (∀ r ∈ s.recsOf [o, p], Outside b (s.recAddr r + 4, 4)) → memGet m b = memGet s.mem b := by
  obtain ⟨m1, l1, he1, hw1, hf1⟩ := freedRec_eq s o
  obtain ⟨m2, l2, he2, hw2, hf2⟩ := freedRec_eq (s.freedRec o) p
  have hr : ∀ fs, (s.freedRec o).recsOf fs = s.recsOf fs := by intro fs; rw [he1]; simp [State.recsOf]
  have ha : ∀ r, (s.freedRec o).recAddr r = s.recAddr r := by intro r; rw [he1]; rfl
  have hmem : (s.freedRec o).mem = m1 := by rw [he1]; rfl
  have hrr : s.recsOf [o, p] = s.recsOf [o] ++ s.recsOf [p] := recsOf_cons s o [p]
  simp only [hr, ha, hmem] at he2 hw2 hf2
  refine ⟨m2, l2, ?_, fun h => ?_, fun b hb => ?_⟩
  · rw [he2, he1, hrr]
    ext1 <;> simp [List.filter_filter, Nat.add_assoc, Bool.and_comm]
  · obtain ⟨w1, v1⟩ := hw1 h
    obtain ⟨w2, v2⟩ := hw2 w1
    refine ⟨w2, fun r hx => ?_⟩
    by_cases hp : r ∈ s.recsOf [p]
    · exact v2 r hp
    · have ho : r ∈ s.recsOf [o] := by
        rw [hrr, List.mem_append] at hx; tauto
      rw [← v1 r ho]
      refine congrArg beNat (memGetBytes_congr _ _ _ _ fun b hb hb' => hf2 b fun r' hr' => ?_)
      have : r' ≠ r := fun h => hp (h ▸ hr')
      simp only [Outside, State.recAddr] at *
      omega
  · rw [hf2 b fun r h => hb r (by rw [hrr]; simp [h]), hf1 b fun r h => hb r (by rw [hrr]; simp [h])]

/-! ### The removal of a QP (R182) -/

/-- The removal of a QP's entry under the locks of its CQs, where no lock is held. -/
theorem runs_removeQpLocked {q c1 c2 o : Nat} {h : Handle} {x : Qp} {gone : Prog} {k : Nat → Prog} {s t : State}
    (hl : s.locks = []) (hx : s.qp? q = some x) (h1 : s.names .cq x.sendCq c1) (h2 : s.names .cq x.recvCq c2)
    (hd : x.sendCq ≠ x.recvCq → c1 ≠ c2) (ho : s.lookup .qp h = some o) (hu : s.usedByOther h = false) :
    Runs (removeQpLocked q h gone k) s t ↔ Runs (k 1) (s.dropEntry .qp h) t := by
  have e1 : s.cqHandle q true = some x.sendCq := by simp [State.cqHandle, hx, Qp.cqOf]
  have e2 : s.cqHandle q false = some x.recvCq := by simp [State.cqHandle, hx, Qp.cqOf]
  have hf : ∀ y, s.holder y = none := fun y => State.unlocked.holder hl y
  have e3 : s.sameCqs q = if x.sendCq = x.recvCq then 1 else 0 := by simp [State.sameCqs, e1, e2]
  have hu' : ∀ l, (s.setLocks l).usedByOther h = false := fun _ => hu
  unfold removeQpLocked
  rw [runs_ask, e3, runs_resolveRef e1 h1.1 h1.2 (hf _) (fun _ => rfl)]
  by_cases hsame : x.sendCq = x.recvCq
  · simp only [hsame, if_true]
    rw [runs_acquire]
    simp only [hf, true_and]
    rw [runs_remove (o := o) (by simpa using ho) (hu' _) (by simp [State.holder, hl, holderIn, State.shardLock]),
      State.setLocks_dropEntry,
      runs_release_newest (l := []) (by simp [hl]) rfl]
    refine iff_of_eq (congrArg₂ _ ?_ rfl)
    ext1 <;> simp [hl]
  · simp only [hsame, if_false, Nat.zero_ne_one]
    rw [runs_resolveRef e2 h2.1 h2.2 (hf _) (fun _ => rfl), runs_acquire]
    simp only [hf, true_and]
    have hne := hd hsame
    rw [runs_acquire]
    have h3 : (s.setLocks ((.cq c1, s.cur) :: s.locks)).holder (.cq c2) = none := by
      simp [State.holder, hl, holderIn, hne]
    simp only [h3, true_and]
    rw [State.setLocks_setLocks,
      runs_remove (o := o) (by simpa using ho) (hu' _) (by simp [State.holder, hl, holderIn, State.shardLock]),
      State.setLocks_dropEntry,
      runs_release_newest (l := [(.cq c1, s.cur)]) (by simp [hl]) (by simp [holderIn, hne]),
      runs_release_newest (l := []) (by simp) rfl]
    refine iff_of_eq (congrArg₂ _ ?_ rfl)
    ext1 <;> simp [hl]

theorem runs_waitFor_ok {c : State → Bool} {k : Prog} {s t : State} (h : c s = true) : Runs (waitFor c k) s t ↔ Runs k s t := by
  simp [runs_waitFor, h]

/-- The final move of a QP to RESET (R182): none where it is there. -/
theorem runs_finalReset_reset {q : Nat} {keep : Bool} {x : Qp} {k : Prog} {s t : State} (hx : s.qp? q = some x)
    (hst : x.state = .reset) : Runs (finalReset q keep k) s t ↔ Runs k s t := by
  unfold finalReset
  rw [runs_ask]
  simp [hx, hst]

/-- The final move of a QP to RESET, from another state: one firmware call, whose status is kept. -/
theorem runs_finalReset {q : Nat} {x : Qp} {k : Prog} {s t : State} {a : FwAnswer} {rest : List FwAnswer}
    (hx : s.qp? q = some x) (hst : x.state ≠ .reset) (hfa : s.fatal = false) (hfw : s.fw = a :: rest) :
    Runs (finalReset q true k) s t ↔ Runs k (((s.wmb.postCall (.modifyQp .any2rst x.qpn none)).setFw rest).setQuiet
        (if a.status = 0 then x.qpn :: s.quiet.filter (fun n => decide (n ≠ x.qpn)) else s.quiet)
      |>.setMe { s.me with fwOut := a.out, resp := { s.me.resp with fwStatus := some a.status } }) t := by
  have h0 : a.status.toNat = 0 ↔ a.status = 0 := by
    constructor
    · intro h; apply BitVec.eq_of_toNat_eq; simpa using h
    · intro h; simp [h]
  unfold finalReset
  rw [runs_ask]
  simp only [hx, Option.map_some, Option.getD_some, hst, if_false, Nat.zero_ne_one]
  rw [runs_mailboxNoting hfa hfw]
  simp only [if_true]
  rw [runs_setFwStatus]
  refine iff_of_eq (congrArg₂ _ ?_ rfl)
  unfold noteTransition
  by_cases h : a.status = 0
  · ext1 <;> simp [h, State.qpnOf, hx]
  · have h' : ¬ a.status.toNat = 0 := fun e => h (h0.mp e)
    have h2 : ¬ a.status = 0#8 := h
    ext1 <;> simp [h2, h', State.qpnOf, hx]

/-- An event of a started instance is processed. -/
theorem runs_whileStarted {k s t} (h : State.started s = true) : Runs (whileStarted k) s t ↔ Runs k s t := by
  unfold whileStarted
  rw [runs_ask]; simp [h]

/-- An event of an instance that is not started is dropped. -/
theorem runs_whileStarted_no {k s t} (h : State.started s = false) : Runs (whileStarted k) s t ↔ t = s.endCmd := by
  unfold whileStarted
  rw [runs_ask]; simp [h, runs_done]

end Sys2Proof.Machine
end

