-- ==== Sys2Proof/Laws/Posting.lean ====
section
/-! SUPPORT. What the parts of a post do, said once each: the bytes of a run of fields, the size of a WQE, the checks, the release
of a lock after a doorbell. -/

namespace Sys2Proof.Machine

open Sys2Proof

/-! ### What a published WQE does to its ring (R222, R86) -/

@[simp] theorem Ring.goLive_capacity (r : Ring) (i : Nat) (op : BitVec 6) : (r.goLive i op).capacity = r.capacity := rfl
@[simp] theorem Ring.goLive_shift (r : Ring) (i : Nat) (op : BitVec 6) : (r.goLive i op).shift = r.shift := rfl
@[simp] theorem Ring.goLive_maxGs (r : Ring) (i : Nat) (op : BitVec 6) : (r.goLive i op).maxGs = r.maxGs := rfl
@[simp] theorem Ring.goLive_head (r : Ring) (i : Nat) (op : BitVec 6) : (r.goLive i op).head = r.head := rfl
@[simp] theorem Ring.goLive_tail (r : Ring) (i : Nat) (op : BitVec 6) : (r.goLive i op).tail = r.tail := rfl
@[simp] theorem Ring.goLive_lastComp (r : Ring) (i : Nat) (op : BitVec 6) : (r.goLive i op).lastComp = r.lastComp := rfl
@[simp] theorem Ring.goLive_nextInd (r : Ring) (i : Nat) (op : BitVec 6) : (r.goLive i op).nextInd = r.nextInd := rfl
@[simp] theorem Ring.goLive_lastIdx (r : Ring) (i : Nat) (op : BitVec 6) : (r.goLive i op).lastIdx = r.lastIdx := rfl
@[simp] theorem Ring.goLive_wrid (r : Ring) (i : Nat) (op : BitVec 6) : (r.goLive i op).wrid = r.wrid := rfl
@[simp] theorem Ring.goLive_devDone (r : Ring) (i : Nat) (op : BitVec 6) : (r.goLive i op).devDone = r.devDone := rfl
@[simp] theorem Ring.cover_capacity (r : Ring) (n : Nat) : (r.cover n).capacity = r.capacity := rfl
@[simp] theorem Ring.cover_shift (r : Ring) (n : Nat) : (r.cover n).shift = r.shift := rfl
@[simp] theorem Ring.cover_maxGs (r : Ring) (n : Nat) : (r.cover n).maxGs = r.maxGs := rfl
@[simp] theorem Ring.cover_head (r : Ring) (n : Nat) : (r.cover n).head = r.head := rfl
@[simp] theorem Ring.cover_tail (r : Ring) (n : Nat) : (r.cover n).tail = r.tail := rfl
@[simp] theorem Ring.cover_lastComp (r : Ring) (n : Nat) : (r.cover n).lastComp = r.lastComp := rfl
@[simp] theorem Ring.cover_nextInd (r : Ring) (n : Nat) : (r.cover n).nextInd = r.nextInd := rfl
@[simp] theorem Ring.cover_lastIdx (r : Ring) (n : Nat) : (r.cover n).lastIdx = r.lastIdx := rfl
@[simp] theorem Ring.cover_wrid (r : Ring) (n : Nat) : (r.cover n).wrid = r.wrid := rfl
@[simp] theorem Ring.cover_live (r : Ring) (n : Nat) : (r.cover n).live = r.live := rfl
@[simp] theorem Ring.cover_devDone (r : Ring) (n : Nat) : (r.cover n).devDone = r.devDone := rfl
@[simp] theorem Ring.cover_chain (r : Ring) (n : Nat) : (r.cover n).chain = r.chain := rfl
@[simp] theorem Ring.cover_ops (r : Ring) (n : Nat) : (r.cover n).ops = r.ops := rfl
@[simp] theorem Ring.goLive_live (r : Ring) (i : Nat) (op : BitVec 6) : (r.goLive i op).live = r.live + 1 := rfl
@[simp] theorem Ring.goLive_first (r : Ring) (i : Nat) (op : BitVec 6) : (r.goLive i op).first = r.first := rfl
@[simp] theorem Ring.goLive_chain (r : Ring) (i : Nat) (op : BitVec 6) : (r.goLive i op).chain = r.chain := rfl

/-- The first WQE the device may read after a WQE is covered. -/
theorem Ring.cover_first (r : Ring) (n : Nat) :
    (r.cover n).first = if n ≠ 0 ∧ (r.first = 0 ∨ n < r.first) then n else r.first := rfl

/-- A WQE covered: the device may read it. -/
theorem Ring.cover_reads (r : Ring) {n : Nat} (h : n ≠ 0) : (r.cover n).first ≠ 0 ∧ (r.cover n).first ≤ n := by
  rw [Ring.cover_first]
  split <;> omega

/-- What may be read already is not covered again. -/
theorem Ring.cover_of_le (r : Ring) {n : Nat} (h : r.first ≠ 0) (hn : r.first ≤ n) : r.cover n = r := by
  have : ¬ (n ≠ 0 ∧ (r.first = 0 ∨ n < r.first)) := by omega
  unfold Ring.cover
  rw [if_neg this]

/-- A WQE after another one that is covered is covered with it. -/
theorem Ring.cover_cover (r : Ring) {n m : Nat} (h : n ≠ 0) (hm : n ≤ m) : (r.cover n).cover m = r.cover n :=
  Ring.cover_of_le _ (r.cover_reads h).1 (Nat.le_trans (r.cover_reads h).2 hm)

/-- A WQE published and covered: the ring of the statements about posts. -/
theorem Ring.posted_eq (r : Ring) (mode : Mode) (id : BitVec 64) (op : BitVec 6) : r.posted mode id op =
    { r with
      wrid := r.wrid.set r.nextInd (some id), head := r.head + 1, lastIdx := r.nextInd
      nextInd := (r.nextInd + 1) % r.capacity, live := r.live + 1
      first := (r.cover (coveredFrom mode (r.live + 1))).first, ops := r.ops.set r.nextInd op } := rfl

@[simp] theorem Ring.filled_capacity (r : Ring) (mode : Mode) (l : List (BitVec 64 × BitVec 6)) :
    (r.filled mode l).capacity = r.capacity := by
  induction l generalizing r with
  | nil => rfl
  | cons w l ih => exact ih _

@[simp] theorem Ring.filled_shift (r : Ring) (mode : Mode) (l : List (BitVec 64 × BitVec 6)) :
    (r.filled mode l).shift = r.shift := by
  induction l generalizing r with
  | nil => rfl
  | cons w l ih => exact ih _

theorem Ring.filled_append (r : Ring) (mode : Mode) (l m : List (BitVec 64 × BitVec 6)) :
    r.filled mode (l ++ m) = (r.filled mode l).filled mode m := by
  induction l generalizing r with
  | nil => rfl
  | cons w l ih => exact ih _

/-- A slot address depends on no count of the ring. -/
@[simp] theorem Qp.sent_slotAddr (x : Qp) (mode : Mode) (wrs : List SendWr) (i : Nat) :
    (x.sent mode wrs).slotAddr true i = x.slotAddr true i := by
  simp [Qp.slotAddr, Qp.woff, Qp.sent]

@[simp] theorem Qp.sent_woff (x : Qp) (mode : Mode) (wrs : List SendWr) (i : Nat) :
    (x.sent mode wrs).woff true i = x.woff true i := by
  simp [Qp.woff, Qp.sent]

theorem Qp.sent_append (x : Qp) (mode : Mode) (l m : List SendWr) : x.sent mode (l ++ m) = (x.sent mode l).sent mode m := by
  simp [Qp.sent, Ring.filled_append]

@[simp] theorem Qp.received_slotAddr (x : Qp) (mode : Mode) (wrs : List RecvWr) (i : Nat) :
    (x.received mode wrs).slotAddr false i = x.slotAddr false i := by
  simp [Qp.slotAddr, Qp.woff, Qp.received]

theorem Qp.received_append (x : Qp) (mode : Mode) (l m : List RecvWr) :
    x.received mode (l ++ m) = (x.received mode l).received mode m := by
  simp [Qp.received, Ring.filled_append]

theorem Srq.filled_append (y : Srq) (mode : Mode) (l m : List (BitVec 64)) :
    y.filled mode (l ++ m) = (y.filled mode l).filled mode m := by
  induction l generalizing y with
  | nil => rfl
  | cons w l ih => exact ih _

/-! ### Runs of fields (R74) -/

theorem layout_append (fs gs : List (Nat × Nat)) : layout (fs ++ gs) = layout fs ++ layout gs := by
  induction fs with
  | nil => rfl
  | cons f fs ih => simp [layout, ih]

@[simp] theorem layout_length (fs : List (Nat × Nat)) : (layout fs).length = fieldBytes fs := by
  induction fs with
  | nil => rfl
  | cons f fs ih => simp [layout, fieldBytes, ih]

theorem fieldBytes_append (fs gs : List (Nat × Nat)) : fieldBytes (fs ++ gs) = fieldBytes fs + fieldBytes gs := by
  induction fs with
  | nil => simp [fieldBytes]
  | cons f fs ih => simp [fieldBytes, ih, Nat.add_assoc]

theorem memGetBytes_add (m : List Host.Cell) (a n k : Nat) :
    memGetBytes m a (n + k) = memGetBytes m a n ++ memGetBytes m (a + n) k := by
  induction n generalizing a with
  | zero => simp [memGetBytes]
  | succ n ih =>
    rw [show n + 1 + k = (n + k) + 1 by omega]
    simp [memGetBytes, ih, Nat.add_assoc, Nat.add_comm 1 n]

@[simp] theorem memGetBytes_length (m : List Host.Cell) (a n : Nat) : (memGetBytes m a n).length = n := by
  induction n generalizing a with
  | zero => rfl
  | succ n ih => simp [memGetBytes, ih]

/-- The bytes of a run of fields, where it was written. -/
theorem writeFields_layout (s : State) (a : Nat) (fs : List (Nat × Nat)) (hs : Memory.wf s.mem = true) :
    memGetBytes (s.writeFields a fs).mem a (fieldBytes fs) = layout fs := by
  induction fs generalizing s a with
  | nil => rfl
  | cons f fs ih =>
    obtain ⟨n, v⟩ := f
    have w := (writes_memWrite s a n v).mem_wf hs
    simp only [State.writeFields, fieldBytes, layout]
    rw [memGetBytes_add, ih _ _ w]
    congr 1
    rw [memGetBytes_congr _ (s.memWrite a n v).mem _ _ fun b hb hb' =>
      (writes_writeFields (s.memWrite a n v) (a + n) fs).outside (by unfold InRange; omega)]
    have := memGetBytes_memPutBytes s.mem a (beBytes n v) hs
    rw [beBytes_length] at this
    exact this

/-- The segments of a send are whole 16-byte units. -/
theorem opaqueFields_bytes (n v : Nat) : fieldBytes (opaqueFields n v) = 8 * n := by
  induction n with
  | zero => rfl
  | succ n ih => simp [opaqueFields, fieldBytes, ih]; omega

theorem unitFields_bytes (us : List (BitVec 128)) : fieldBytes (unitFields us) = 16 * us.length := by
  induction us with
  | nil => rfl
  | cons u us ih => simp [unitFields, fieldBytes_append, opaqueFields_bytes, ih]; omega

theorem dataFields_bytes (sg : List Sge) : fieldBytes (dataFields sg) = 16 * sg.length := by
  induction sg with
  | nil => rfl
  | cons e sg ih => simp [dataFields, fieldBytes, ih]; omega

theorem transportFields_dvd (mode : Mode) (x : Qp) (wr : SendWr) : 16 ∣ fieldBytes (transportFields mode x wr) := by
  unfold transportFields
  split
  · cases mode <;> simp [udFields, fieldBytes, opaqueFields]
  · rw [unitFields_bytes]; exact Dvd.intro _ rfl
  · split <;> simp [raddrFields, atomicFields, fieldBytes] <;> split <;> simp [fieldBytes]

theorem alignUp_16 (n : Nat) : 16 ∣ alignUp n 16 ∧ n ≤ alignUp n 16 := by
  unfold alignUp
  exact ⟨Dvd.intro_left _ rfl, by omega⟩

/-- The bytes of a send WQE. -/
theorem sendSize_bytes (mode : Mode) (x : Qp) (wr : SendWr) :
    16 * sendSize mode x wr = 16 + fieldBytes (transportFields mode x wr)
      + (if isInline wr then alignUp (4 + inlineLen wr.sg) 16 else 16 * wr.sg.length) := by
  have h1 := transportFields_dvd mode x wr
  have h2 := (alignUp_16 (4 + inlineLen wr.sg)).1
  unfold sendSize sendUnits
  refine Nat.mul_div_cancel' ?_
  split <;> omega

@[simp] theorem inlineBytes_length (m : List Host.Cell) (sg : List Sge) : (inlineBytes m sg).length = inlineLen sg := by
  induction sg with
  | nil => rfl
  | cons e sg ih => simp [inlineBytes, inlineLen, ih]

/-- Inline data read from a memory that agrees on the buffers. -/
theorem inlineBytes_congr (m m' : List Host.Cell) (sg : List Sge)
    (h : ∀ e ∈ sg, ∀ k, k < e.length.toNat → memGet m (e.addr.toNat + k) = memGet m' (e.addr.toNat + k)) :
    inlineBytes m sg = inlineBytes m' sg := by
  induction sg with
  | nil => rfl
  | cons e sg ih =>
    simp only [inlineBytes]
    rw [ih fun e' he' => h e' (by simp [he']), memGetBytes_congr m m' _ _ fun b hb hb' => ?_]
    have := h e (by simp) (b - e.addr.toNat) (by omega)
    rwa [show e.addr.toNat + (b - e.addr.toNat) = b by omega] at this

/-- What the inline segment of a WQE writes (R117, R219). -/
theorem writeInline_eq (s : State) (a : Nat) (sg : List Sge) :
    ∃ m l, s.writeInline a sg = (s.setMem m).setBus l
      ∧ (Memory.wf s.mem = true → Memory.wf m = true ∧ memGetBytes m a 4 = layout [(4, (inlineWord sg).toNat)])
      ∧ (∀ b, Outside b (a, 4 + inlineLen sg) → memGet m b = memGet s.mem b)
      ∧ (Memory.wf s.mem = true →
          (∀ e ∈ sg, ∀ k, k < e.length.toNat → Outside (e.addr.toNat + k) (a, 4)) →
            memGetBytes m (a + 4) (inlineLen sg) = inlineBytes s.mem sg) := by
  refine ⟨_, _, rfl, fun hs => ⟨?_, ?_⟩, fun b hb => ?_, fun hs hb => ?_⟩
  · exact memPutBytes_wf _ _ _ (memPutBytes_wf _ _ _ hs)
  · have h := memGetBytes_memPutBytes s.mem a (beBytes 4 (inlineWord sg).toNat) hs
    rw [beBytes_length] at h
    rw [memGetBytes_congr _ _ _ _ fun b hb hb' => memGet_memPutBytes_outside _ _ _ _ (Or.inl (by omega))]
    simpa [layout] using h
  · simp only [Outside] at hb
    rw [memGet_memPutBytes_outside _ _ _ _ (by simp; omega)]
    exact memGet_memPutBytes_outside _ _ _ _ (by simp; omega)
  · have h := memGetBytes_memPutBytes (memPutBytes s.mem a (beBytes 4 (inlineWord sg).toNat)) (a + 4)
      (inlineBytes (memPutBytes s.mem a (beBytes 4 (inlineWord sg).toNat)) sg) (memPutBytes_wf _ _ _ hs)
    rw [inlineBytes_length] at h
    refine h.trans (inlineBytes_congr _ _ _ fun e he k hk => ?_)
    have := hb e he k hk
    simp only [Outside] at this
    exact memGet_memPutBytes_outside _ _ _ _ (by simp; omega)

/-! ### Overflow (R210) -/

theorem runs_overflow_room {q : Nat} {isSend : Bool} {x : Qp} {full room : Prog} {s t : State} (hx : s.qp? q = some x)
    (hc : (x.ring isSend).count < (x.ring isSend).capacity) : Runs (overflow q isSend full room) s t ↔ Runs room s t := by
  unfold overflow
  rw [runs_act_ok (a := 0) (s' := s)]
  · simp
  · simp only [ringFullAct]
    rw [withQp_eq hx]
    simp [hc]

theorem runs_overflow_full {q c : Nat} {isSend : Bool} {x : Qp} {full room : Prog} {s t : State} (hx : s.qp? q = some x)
    (hc : (x.ring isSend).capacity ≤ (x.ring isSend).count) (hn : s.names .cq (x.cqOf isSend) c)
    (hf : ∀ y, (∃ k i, y = Lock.shard k i) ∨ y = .cq c → s.holder y = none) :
    Runs (overflow q isSend full room) s t ↔ Runs full s t := by
  have hfull : ∀ l, ringFullAct q isSend (s.setLocks l) = .ok 1 (s.setLocks l) := by
    intro l
    simp only [ringFullAct]
    rw [withQp_eq (s := s.setLocks l) hx]
    simp [Nat.not_lt.mpr hc]
  unfold overflow
  rw [runs_act_ok (a := 1) (s' := s) (by simpa using hfull s.locks)]
  simp only [Nat.one_ne_zero, if_false]
  rw [runs_resolveRef (g := x.cqOf isSend) (o := c) (by simp [State.cqHandle, hx]) hn.1 hn.2 (hf _ (Or.inl ⟨_, _, rfl⟩))
    (fun _ => rfl), runs_acquire]
  simp only [hf _ (Or.inr rfl), true_and]
  rw [runs_act_ok (hfull _), runs_release_newest (l := s.locks) rfl (hf _ (Or.inr rfl))]
  simp

/-! ### The last doorbell of a post (R252) -/

/-- The batch of a post's last request is rung once, at its limit or at the end. -/
theorem runs_dbLast {rr : RingRef} {k : Prog} {s u t : State} (hc : s.me.batch.cnt ≠ 0) (hr : ringBatchAct s = .ok 0 u)
    (h0 : u.me.batch.cnt = 0) : Runs (.act (dbFullAct rr) fun _ => dbEnd k) s t ↔ Runs k u t := by
  unfold dbEnd
  by_cases h : s.me.batch.cnt = s.batchLimit rr
  · rw [runs_act_ok (a := 0) (s' := u) (by unfold dbFullAct; rw [if_pos ⟨hc, h⟩]; exact hr), runs_act_ok (a := 0) (s' := u)
      (by simp [dbEndAct, h0])]
  · rw [runs_act_ok (a := 0) (s' := s) (by simp [dbFullAct, h]), runs_act_ok (a := 0) (s' := u) (by simp [dbEndAct, hc, hr])]

/-- A request that owes no doorbell. -/
theorem runs_dbNone {rr : RingRef} {k : Prog} {s t : State} (hc : s.me.batch.cnt = 0) :
    Runs (.act (dbFullAct rr) fun _ => dbEnd k) s t ↔ Runs k s t := by
  unfold dbEnd
  rw [runs_act_ok (a := 0) (s' := s) (by simp [dbFullAct, hc]), runs_act_ok (a := 0) (s' := s) (by simp [dbEndAct, hc])]

/-! ### What a post does before its first request -/

/-- The state in which a command has resolved one handle and taken one lock. -/
theorem noteUse_locked {s : State} (hu : s.unlocked) (i : Instr) (h : Handle) (x : Lock) :
    ((s.beginCmd i).noteUse true h).setLocks
        ((x, ((s.beginCmd i).noteUse true h).cur) :: ((s.beginCmd i).noteUse true h).locks)
      = (s.setMe { op := s.me.op, cmd := some i, uses := [h] }).setLocks [(x, s.cur)] := by
  have hl : s.locks = [] := hu
  ext1 <;> simp [State.noteUse, hl]

/-- A post up to the hold of its ring's lock, where the QP's state accepts it. -/
theorem runs_postStart {s : State} {q : Nat} {x : Qp} {t : State} {k : Nat → Prog} {op : Operands} {bad : Option Nat}
    (isSend : Bool) (i : Instr) (hu : s.unlocked) (h1 : s.started = true) (h3 : s.fatal = false)
    (hn : s.names .qp op.qp q) (hq : s.qp? q = some x) (hok : postStateOk s.cfg x.state isSend = true) :
    Runs (if isSend then postSendOn op bad k else postRecvOn op bad k) (s.beginCmd i) t ↔
      Runs (k q) ((s.setMe { op := s.me.op, cmd := some i, uses := [op.qp] }).setLocks
        [(if isSend then .sq q else .rq q, s.cur)]) t := by
  have hr : ∀ l, ((s.beginCmd i).noteUse true op.qp).holder l = none := fun l => hu.holder _
  have hst : ∀ b l, postStateOk s.cfg x.state b = true → postStateAct q b ((s.setMe
      { op := s.me.op, cmd := some i, uses := [op.qp] }).setLocks l) = .ok 1 ((s.setMe
      { op := s.me.op, cmd := some i, uses := [op.qp] }).setLocks l) := by
    intro b l hb
    simp only [postStateAct]
    rw [withQp_eq (x := x) (by simpa using hq)]
    simp [hb]
  cases isSend
  · simp only [Bool.false_eq_true, if_false]
    unfold postRecvOn
    rw [runs_precond (by simpa) (by simp [h3]),
      runs_resolve_found (by simpa using hn.1) hn.2 (by simp) ((hu.begin _).holder _), runs_acquire, noteUse_locked hu]
    simp only [hr, true_and]
    rw [runs_act_ok (hst _ _ hok)]
    simp
  · simp only [if_true]
    unfold postSendOn
    rw [runs_precond (by simpa) (by simp [h3]),
      runs_resolve_found (by simpa using hn.1) hn.2 (by simp) ((hu.begin _).holder _), runs_acquire, noteUse_locked hu]
    simp only [hr, true_and]
    rw [runs_act_ok (hst _ _ hok)]
    simp

/-- A receive WQE's size in bytes is that of its header and its data entries. -/
theorem recvSize_bytes (mode : Mode) (n mx : Nat) (sg : List Sge) (h : sg.length = n) :
    16 * recvSize mode n mx = 16 + fieldBytes (dataFields sg ++ terminatorFields mode n mx) := by
  unfold recvSize terminatorFields
  rw [fieldBytes_append, dataFields_bytes, h]
  split <;> simp [fieldBytes] <;> omega

/-- The memory of a receive post: the slot's header and data, the chain tail's link word, its size word. -/
theorem recv_mem (A : State) (a p size : Nat) (fs : List (Nat × Nat)) (link nds : Word) (hwf : Memory.wf A.mem = true)
    (hsz : 16 * size = 16 + fieldBytes fs) (hsep : a ≠ p → a + 16 * size ≤ p ∨ p + 16 * size ≤ a) :
    ∃ m3 l3, (A.writeFields a (headerFields 0 0)).writeFields (a + 16) fs = (A.setMem m3).setBus l3 ∧
      ∀ B : State, B.mem = m3 → ∃ m4 l4, B.memWrite p 4 link.toNat = (B.setMem m4).setBus l4 ∧
      ∀ C : State, C.mem = m4 → ∃ m5 l5, C.memWrite (p + 4) 4 nds.toNat = (C.setMem m5).setBus l5
        ∧ Memory.wf m5 = true
        ∧ (a ≠ p → memGetBytes m5 a 8 = layout [(4, 0), (4, 0)])
        ∧ memGetBytes m5 (a + 8) (16 * size - 8) = layout ([(4, 0), (4, 0)] ++ fs)
        ∧ beNat (memGetBytes m5 p 4) = link.toNat ∧ beNat (memGetBytes m5 (p + 4) 4) = nds.toNat
        ∧ ∀ b, Outside b (a, 16 * size) → Outside b (p, 8) → memGet m5 b = memGet A.mem b := by
  obtain ⟨m1, l1, hw1, wf1, fr1⟩ := writes_writeFields A a (headerFields 0 0)
  have lay1 := writeFields_layout A a (headerFields 0 0) hwf
  rw [hw1] at lay1
  obtain ⟨m2, l2, hw2, wf2, fr2⟩ := writes_writeFields ((A.setMem m1).setBus l1) (a + 16) fs
  have wfm1 : Memory.wf m1 = true := wf1 hwf
  have lay2 := writeFields_layout ((A.setMem m1).setBus l1) (a + 16) fs wfm1
  rw [hw2] at lay2
  have wfm2 : Memory.wf m2 = true := wf2 wfm1
  refine ⟨m2, l2, by rw [hw1, hw2]; rfl, fun B hB => ?_⟩
  obtain ⟨m4, l4, hw4, wf4, fr4⟩ := writes_memWrite B p 4 link.toNat
  have wfm4 : Memory.wf m4 = true := wf4 (by rw [hB]; exact wfm2)
  have rd4 := State.memRead_memWrite B p 4 link.toNat (by rw [hB]; exact wfm2)
  rw [hw4] at rd4
  refine ⟨m4, l4, hw4, fun C hC => ?_⟩
  obtain ⟨m5, l5, hw5, wf5, fr5⟩ := writes_memWrite C (p + 4) 4 nds.toNat
  have wfm5 : Memory.wf m5 = true := wf5 (by rw [hC]; exact wfm4)
  have rd5 := State.memRead_memWrite C (p + 4) 4 nds.toNat (by rw [hC]; exact wfm4)
  rw [hw5] at rd5
  have hp8 : ∀ b, a + 8 ≤ b → b < a + 16 * size → Outside b (p, 8) := by
    intro b hb hb'
    simp only [Outside]
    by_cases h : a = p
    · omega
    · rcases hsep h with h | h <;> omega
  have k5 : ∀ b, Outside b (p, 8) → memGet m5 b = memGet m2 b := by
    intro b hb
    simp only [Outside] at hb
    rw [fr5 b (not_inRange.mpr (by omega)), hC, fr4 b (not_inRange.mpr (by omega)), hB]
  have k2 : ∀ b, b < a + 16 → memGet m2 b = memGet m1 b := fun b hb => fr2 b (not_inRange.mpr (by omega))
  have hh : memGetBytes m1 a 16 = layout (headerFields 0 0) := lay1
  have hh8 : memGetBytes m1 a 8 = layout [(4, 0), (4, 0)] ∧ memGetBytes m1 (a + 8) 8 = layout [(4, 0), (4, 0)] := by
    rw [show (16 : Nat) = 8 + 8 from rfl, memGetBytes_add,
      show headerFields 0 0 = [(4, 0), (4, 0)] ++ [(4, 0), (4, 0)] from rfl, layout_append] at hh
    exact List.append_inj hh (by simp [fieldBytes])
  refine ⟨m5, l5, hw5, wfm5, ?_, ?_, ?_, ?_, ?_⟩
  · intro hne
    rw [← hh8.1]
    refine memGetBytes_congr _ _ _ _ fun b hb hb' => ?_
    rw [k5 b (by simp only [Outside]; rcases hsep hne with h | h <;> omega), k2 b (by omega)]
  · rw [show 16 * size - 8 = 8 + fieldBytes fs by omega, layout_append, memGetBytes_add, ← hh8.2, ← lay2]
    congr 1
    · refine memGetBytes_congr _ _ _ _ fun b hb hb' => ?_
      rw [k5 b (hp8 b (by omega) (by omega)), k2 b (by omega)]
    · rw [show a + 8 + 8 = a + 16 by omega]
      refine memGetBytes_congr _ _ _ _ fun b hb hb' => ?_
      rw [k5 b (hp8 b (by omega) (by omega))]; rfl
  · have e : memGetBytes m5 p 4 = memGetBytes m4 p 4 :=
      memGetBytes_congr _ _ _ _ fun b hb hb' => by rw [fr5 b (not_inRange.mpr (by omega)), hC]
    rw [e]
    have := rd4
    rw [Nat.mod_eq_of_lt (by have := link.isLt; omega)] at this
    exact this
  · have := rd5
    rw [Nat.mod_eq_of_lt (by have := nds.isLt; omega)] at this
    exact this
  · intro b hb hb2
    simp only [Outside] at hb
    have f2 : memGet m2 b = memGet m1 b := fr2 _ (not_inRange.mpr (by omega))
    have f1 : memGet m1 b = memGet A.mem b := fr1 _ (not_inRange.mpr (by simp only [headerFields, fieldBytes]; omega))
    rw [k5 b hb2, f2, f1]

/-- Two slots of a ring are equal or apart. -/
theorem slots_apart {base off sh i j size : Nat} (hfit : 16 * size ≤ 2 ^ sh) :
    base + (off + i <<< sh) ≠ base + (off + j <<< sh) →
      base + (off + i <<< sh) + 16 * size ≤ base + (off + j <<< sh)
      ∨ base + (off + j <<< sh) + 16 * size ≤ base + (off + i <<< sh) := by
  intro hne
  simp only [Nat.shiftLeft_eq] at *
  rcases Nat.lt_trichotomy i j with h | h | h
  · left
    have := Nat.mul_le_mul_right (2 ^ sh) h
    rw [Nat.succ_mul] at this; omega
  · subst h; exact absurd rfl hne
  · right
    have := Nat.mul_le_mul_right (2 ^ sh) h
    rw [Nat.succ_mul] at this; omega

/-- The link word of a receive WQE, as a number. -/
theorem linkRecv_toNat (w : Nat) : (linkWord (BitVec.ofNat 26 w) recvLinkOpcode).toNat = (w % 2 ^ 26) * 64 + 1 := by
  simp only [linkWord, recvLinkOpcode, BitVec.toNat_append, BitVec.toNat_ofNat]
  have h : (1 : Nat) < 2 ^ 6 := by norm_num
  rw [Nat.shiftLeft_eq]
  have := Nat.two_pow_add_eq_or_of_lt h (w % 2 ^ 26)
  rw [Nat.mul_comm] at this
  simp at this ⊢
  omega

end Sys2Proof.Machine
end

