-- ==== Sys2Proof/Laws/Closed.lean ====
section
/-! SUPPORT. What no instruction breaks: a property of states that is closed under the elementary updates of State is kept by
every step of every program. One lemma for each shared operation and one for each program; `exec_keeps` joins them. -/

namespace Sys2Proof.Machine

open Sys2Proof

/-- A property of states that no elementary update breaks. A QP is only set where it is live, and keeps its cached state. -/
structure Closed (I : State → Prop) : Prop where
  me : ∀ s a, I s → I (s.setMe a)
  bus : ∀ s l, I s → I (s.setBus l)
  mem : ∀ s m, (Memory.wf s.mem = true → Memory.wf m = true) → I s → I (s.setMem m)
  lock : ∀ s x, s.holder x = none → I s → I (s.setLocks ((x, s.cur) :: s.locks))
  unlock : ∀ s p, I s → I (s.setLocks (s.locks.filter p))
  fw : ∀ s l, I s → I (s.setFw l)
  quiet : ∀ s l, I s → I (s.setQuiet l)
  recs : ∀ s u n, I s → I (s.setRecs u n)
  qp : ∀ s q x y, s.qp? q = some x → y.state = x.state → I s → I (s.setQp q y)
  cq : ∀ s c x y, s.cq? c = some x → I s → I (s.setCq c y)
  srq : ∀ s r x y, s.srq? r = some x → I s → I (s.setSrq r y)
  eraseQp : ∀ s q, I s → I (s.eraseQp q)
  eraseCq : ∀ s c, I s → I (s.eraseCq c)
  eraseSrq : ∀ s r, I s → I (s.eraseSrq r)
  drop : ∀ s k i g, I s → I (s.setEntry k i { gen := g, occ := none })
  newQp : ∀ s i g num x, I s →
    I (((s.setEntry .qp i { gen := g, occ := some { num, obj := s.nextObj } }).setNextObj (s.nextObj + 1)).setQp s.nextObj x)
  newCq : ∀ s i g num x, I s →
    I (((s.setEntry .cq i { gen := g, occ := some { num, obj := s.nextObj } }).setNextObj (s.nextObj + 1)).setCq s.nextObj x)
  newSrq : ∀ s i g num x, I s →
    I (((s.setEntry .srq i { gen := g, occ := some { num, obj := s.nextObj } }).setNextObj (s.nextObj + 1)).setSrq s.nextObj x)
  emit : ∀ s e, I s → I (s.emit e)
  reads : ∀ s r w, I s → I (s.deviceReads r w)
  agents : ∀ s l, I s → I (s.setAgents l)

/-- A step that, where it answers, does not break a property. -/
def ActKeeps (I : State → Prop) (f : State → ActRes) : Prop := ∀ s a s', I s → f s = .ok a s' → I s'

variable {I : State → Prop}

theorem ActKeeps.withQp {f : State → Qp → ActRes} {q : Nat}
    (h : ∀ s x a s', s.qp? q = some x → I s → f s x = .ok a s' → I s') : ActKeeps I fun s => withQp q s (f s) := by
  intro s a s' hs he
  simp only [Machine.withQp] at he
  split at he
  · exact h s _ a s' ‹_› hs he
  · cases he

theorem ActKeeps.withCq {f : State → Cq → ActRes} {c : Nat}
    (h : ∀ s x a s', s.cq? c = some x → I s → f s x = .ok a s' → I s') : ActKeeps I fun s => withCq c s (f s) := by
  intro s a s' hs he
  simp only [Machine.withCq] at he
  split at he
  · exact h s _ a s' ‹_› hs he
  · cases he

theorem ActKeeps.withSrq {f : State → Srq → ActRes} {r : Nat}
    (h : ∀ s x a s', s.srq? r = some x → I s → f s x = .ok a s' → I s') : ActKeeps I fun s => withSrq r s (f s) := by
  intro s a s' hs he
  simp only [Machine.withSrq] at he
  split at he
  · exact h s _ a s' ‹_› hs he
  · cases he

/-- A step that changes nothing. -/
theorem ActKeeps.same {f : State → ActRes} (h : ∀ s a s', f s = .ok a s' → s' = s) : ActKeeps I f :=
  fun s a s' hs he => h s a s' he ▸ hs

theorem keeps_act {f : State → ActRes} {k : Nat → Prog} (hf : ActKeeps I f) (hk : ∀ a, Keeps I (k a)) : Keeps I (.act f k) :=
  .act hf hk

/-! ### The bus -/

namespace Closed

theorem wmb (C : Closed I) {s : State} (h : I s) : I s.wmb := C.bus _ _ h
theorem rmb (C : Closed I) {s : State} (h : I s) : I s.rmb := C.bus _ _ h
theorem mmio (C : Closed I) {s : State} {o a b} (h : I s) : I (s.mmio o a b) := C.bus _ _ h
theorem postCall (C : Closed I) {s : State} {c} (h : I s) : I (s.postCall c) := C.bus _ _ h
theorem ring (C : Closed I) {s : State} {r i} (h : I s) : I (s.ring r i) := C.mmio (C.wmb h)
theorem setResp (C : Closed I) {s : State} {f} (h : I s) : I (s.setResp f) := C.me _ _ h
theorem setBatch (C : Closed I) {s : State} {f} (h : I s) : I (s.setBatch f) := C.me _ _ h
theorem hold (C : Closed I) {s : State} {b} (h : I s) : I (s.hold b) := C.me _ _ h
theorem endCmd (C : Closed I) {s : State} (h : I s) : I s.endCmd := C.bus _ _ (C.me _ _ h)
theorem park (C : Closed I) {s : State} {l} (h : I s) : I (s.park l) := C.me _ _ h
theorem beginCmd (C : Closed I) {s : State} {i} (h : I s) : I (s.beginCmd i) := C.me _ _ h

/-- Whatever only writes host memory and the bus. -/
theorem writes (C : Closed I) {s t : State} {p : Nat → Prop} (w : Writes p s t) (h : I s) : I t := by
  obtain ⟨m, l, rfl, hw, -⟩ := w
  exact C.bus _ _ (C.mem _ _ hw h)

theorem memWrite (C : Closed I) {s : State} {a n v} (h : I s) : I (s.memWrite a n v) := C.writes (writes_memWrite s a n v) h
theorem writeRec0 (C : Closed I) {s : State} {r v} (h : I s) : I (s.writeRec0 r v) := by
  cases r
  · exact h
  · exact C.memWrite h
theorem writeRec1 (C : Closed I) {s : State} {r v} (h : I s) : I (s.writeRec1 r v) := by
  cases r
  · exact h
  · exact C.memWrite h
theorem onRing (C : Closed I) {s : State} {rr f g} (h : I s) : I (s.onRing rr f g) := by
  unfold State.onRing
  split <;> split <;> try exact h
  · rename_i x hx; exact C.qp _ _ x _ hx rfl h
  · rename_i x hx; exact C.qp _ _ x _ hx rfl h
  · exact C.srq _ _ _ _ (by assumption) h
theorem goLive (C : Closed I) {s : State} {rr i op} (h : I s) : I (s.goLive rr i op) := C.onRing h
theorem covered (C : Closed I) {s : State} {rr n} (h : I s) : I (s.covered rr n) := C.onRing h
theorem rung (C : Closed I) {s : State} {rr n} (h : I s) : I (s.rung rr n) := by
  unfold State.rung
  split
  · exact C.covered h
  · exact h
theorem writeFields (C : Closed I) {s : State} {a fs} (h : I s) : I (s.writeFields a fs) := C.writes (writes_writeFields s a fs) h

end Closed

/-! ### Steps and locks -/

theorem keeps_same {f : State → ActRes} {k : Nat → Prog} (h : ∀ s a s', f s = .ok a s' → s' = s) (hk : ∀ a, Keeps I (k a)) :
    Keeps I (.act f k) := .act (ActKeeps.same h) hk

theorem actKeeps_acquire (C : Closed I) (x : State → Lock) : ActKeeps I fun s => acquireAct (x s) s := by
  intro s a s' hs he
  simp only [acquireAct] at he
  split at he
  · cases he; exact C.lock _ _ ‹_› hs
  · split at he <;> cases he

theorem actKeeps_release (C : Closed I) (x : State → Lock) : ActKeeps I fun s => releaseAct (x s) s := by
  intro s a s' hs he
  simp only [releaseAct] at he
  split at he <;> cases he
  exact C.unlock _ _ hs

theorem keeps_acquire (C : Closed I) {x : Lock} {k : Prog} (hk : Keeps I k) : Keeps I (acquire x k) :=
  .act (actKeeps_acquire C fun _ => x) fun _ => hk

theorem keeps_release (C : Closed I) {x : Lock} {k : Prog} (hk : Keeps I k) : Keeps I (release x k) :=
  .act (actKeeps_release C fun _ => x) fun _ => hk

theorem keeps_underShardAt (C : Closed I) {kind : Kind} {i : Nat} {f : State → ActRes} {k : Nat → Prog}
    (hf : ActKeeps I f) (hk : ∀ a, Keeps I (k a)) : Keeps I (underShardAt kind i f k) :=
  .act (actKeeps_acquire C _) fun _ => .act hf fun a => .act (actKeeps_release C _) fun _ => hk a

theorem keeps_underShard (C : Closed I) {kind : Kind} {i : State → Nat} {f : State → ActRes} {k : Nat → Prog}
    (hf : ActKeeps I f) (hk : ∀ a, Keeps I (k a)) : Keeps I (underShard kind i f k) :=
  .ask fun _ => keeps_underShardAt C hf hk

theorem keeps_releaseN (C : Closed I) {n : Nat} {k : Prog} (hk : Keeps I k) : Keeps I (releaseN n k) := by
  induction n with
  | zero => exact hk
  | succ n ih =>
    refine .eff (fun s hs => ?_) ih
    unfold releaseNewest
    split
    · exact C.unlock _ _ hs
    · exact hs

theorem keeps_done (C : Closed I) : Keeps I .done := .done fun _ hs => C.endCmd hs

/-! ### Doorbells, responses -/

theorem actKeeps_ringBatch (C : Closed I) : ActKeeps I ringBatchAct := by
  intro s a s' hs he
  simp only [ringBatchAct] at he
  split at he
  · cases he; exact hs
  all_goals
    first
    | simp only [withQp] at he
    | simp only [withSrq] at he
    split at he <;> cases he
    exact C.rung (C.setBatch (C.ring hs))

theorem keeps_dbEnd (C : Closed I) {k : Prog} (hk : Keeps I k) : Keeps I (dbEnd k) := by
  refine .act (fun s a s' hs he => ?_) fun _ => hk
  unfold dbEndAct at he
  split at he
  · cases he; exact hs
  · exact actKeeps_ringBatch C s a s' hs he

theorem keeps_dbAfterWqe (C : Closed I) {rr : RingRef} {ind : Nat} {fence : Bool} {op : BitVec 6} {size : Nat} {k : Prog}
    (hk : Keeps I k) : Keeps I (dbAfterWqe rr ind fence op size k) := by
  refine .act (fun s a s' hs he => ?_) fun _ => .act (fun s a s' hs he => ?_) fun _ => hk
  · simp only [dbCountAct] at he
    split at he
    · simp only [withQp] at he
      split at he <;> cases he
      refine C.setBatch ?_
      cases s.mode
      · exact hs
      · exact C.covered (C.writeRec0 (C.wmb hs))
    · simp only [withQp] at he
      split at he
      · split at he <;> cases he
        · exact C.setBatch hs
        · exact C.covered (C.writeRec0 (C.wmb hs))
      · cases he
    · simp only [withSrq] at he
      split at he
      · split at he <;> cases he
        · exact C.setBatch hs
        · exact C.covered (C.writeRec0 (C.wmb (C.srq _ _ _ _ ‹_› hs)))
      · cases he
  · unfold dbFullAct at he
    split at he
    · exact actKeeps_ringBatch C s a s' hs he
    · cases he; exact hs

theorem keeps_respond (C : Closed I) {st : Status} {bad : Option Nat} : Keeps I (respond st bad) :=
  .eff (fun _ hs => C.setResp hs) (keeps_done C)

theorem keeps_raise (C : Closed I) {st : Status} {bad : Option Nat} : Keeps I (raise st bad) :=
  .ask fun _ => keeps_releaseN C (keeps_dbEnd C (keeps_respond C))

theorem keeps_precond (C : Closed I) {b : Bool} {bad : Option Nat} {k : Prog} (hk : Keeps I k) : Keeps I (precond b bad k) := by
  refine .ask fun a => ?_
  split
  · exact keeps_raise C
  · split
    · exact keeps_raise C
    · exact hk

theorem keeps_endWith (C : Closed I) (st : Status) : Keeps I (endWith st) := by
  unfold endWith
  split
  · exact keeps_respond C
  · exact keeps_raise C

/-! ### Mailbox, lookup tables, doorbell records -/

theorem keeps_mailboxNoting (C : Closed I) {note : Nat → State → State} {call : State → MailboxCall} {k : Nat → Prog}
    (hn : ∀ n s, I s → I (note n s)) (hk : ∀ a, Keeps I (k a)) : Keeps I (mailboxNoting note call k) := by
  refine .act (fun s a s' hs he => ?_) fun a => ?_
  · unfold mailboxIssue at he
    split at he <;> cases he
    · exact C.wmb hs
    · exact C.postCall (C.wmb hs)
  · split
    · exact hk _
    · refine .act (fun s a s' hs he => ?_) hk
      unfold mailboxAnswer at he
      split at he <;> cases he
      exact hn _ _ (C.me _ _ (C.fw _ _ hs))

theorem keeps_mailbox (C : Closed I) {call : State → MailboxCall} {k : Nat → Prog} (hk : ∀ a, Keeps I (k a)) :
    Keeps I (mailbox call k) := keeps_mailboxNoting C (fun _ _ hs => hs) hk

theorem keeps_setFwStatus (C : Closed I) {fw : Nat} {k : Prog} (hk : Keeps I k) : Keeps I (setFwStatus fw k) :=
  .eff (fun _ hs => C.setResp hs) hk

theorem keeps_keepStatus (C : Closed I) {keep : Bool} {fw : Nat} {k : Prog} (hk : Keeps I k) :
    Keeps I ((if keep then setFwStatus fw else fun k => k) k) := by
  cases keep
  · exact hk
  · exact keeps_setFwStatus C hk

theorem keeps_resolveBy (C : Closed I) {kind : Kind} {h : Handle} {act : State → ActRes} {fail : Prog} {k : Nat → Prog}
    (ha : ActKeeps I act) (hf : Keeps I fail) (hk : ∀ a, Keeps I (k a)) : Keeps I (resolveBy kind h act fail k) := by
  refine .ask fun a => ?_
  split
  · exact hf
  · refine keeps_underShardAt C ha fun a => ?_
    split
    · exact hf
    · exact hk _

theorem actKeeps_resolve (C : Closed I) {kind : Kind} {h : Handle} {use : Bool} : ActKeeps I (resolveAct kind h use) := by
  intro s a s' hs he
  unfold resolveAct at he
  split at he
  · cases he; exact hs
  · split at he
    · split at he <;> cases he
      exact C.me _ _ hs
    · cases he; exact hs

theorem actKeeps_resolveDestroy (C : Closed I) {kind : Kind} {h : Handle} : ActKeeps I (resolveDestroyAct kind h) := by
  intro s a s' hs he
  unfold resolveDestroyAct at he
  split at he
  · cases he; exact hs
  · split at he <;> cases he
    exact C.agents _ _ hs

theorem keeps_resolve (C : Closed I) {kind : Kind} {h : Handle} {use : Bool} {fail : Prog} {k : Nat → Prog}
    (hf : Keeps I fail) (hk : ∀ a, Keeps I (k a)) : Keeps I (resolve kind h use fail k) :=
  keeps_resolveBy C (actKeeps_resolve C) hf hk

theorem keeps_resolveRef (C : Closed I) {kind : Kind} {h : State → Option Handle} {gone : Prog} {k : Nat → Prog}
    (hf : Keeps I gone) (hk : ∀ a, Keeps I (k a)) : Keeps I (resolveRef kind h gone k) := by
  refine .ask fun a => ?_
  split
  · exact hf
  · refine keeps_underShardAt C (.same fun s a s' he => by cases he; rfl) fun a => ?_
    split
    · exact hf
    · exact hk _

theorem keeps_useFault (C : Closed I) : Keeps I useFault := .guard (keeps_done C)

theorem keeps_insert (C : Closed I) {kind : Kind} {num : Num24} {buf : State → Nat × Nat}
    {make : State → Handle → Nat → State} {busy : Prog} {k : Nat → Prog}
    (hm : ∀ s i g h, I s → I (make ((s.setEntry kind i { gen := g, occ := some { num, obj := s.nextObj } }).setNextObj
      (s.nextObj + 1)) h s.nextObj))
    (hb : Keeps I busy) (hk : ∀ a, Keeps I (k a)) : Keeps I (insert kind num buf make busy k) := by
  refine keeps_underShard C (fun s a s' hs he => ?_) fun a => ?_
  · simp only [insertAct] at he
    split at he
    · cases he; exact hs
    · split at he <;> cases he
      exact hm _ _ _ _ hs
  · split
    · exact hb
    · exact hk _

theorem keeps_emptyEntry (C : Closed I) {s : State} {kind : Kind} {h : Handle} (hs : I s) : I (s.emptyEntry kind h) :=
  C.drop _ _ _ _ hs

theorem keeps_dropEntry (C : Closed I) {s : State} {kind : Kind} {h : Handle} (hs : I s) : I (s.dropEntry kind h) :=
  C.me _ _ (keeps_emptyEntry C hs)

theorem keeps_remove (C : Closed I) {kind : Kind} {h : Handle} {k : Nat → Prog} (hk : ∀ a, Keeps I (k a)) :
    Keeps I (remove kind h k) := by
  refine keeps_underShardAt C (fun s a s' hs he => ?_) hk
  unfold removeAct at he
  split at he
  · cases he; exact hs
  · split at he <;> cases he
    exact keeps_dropEntry C hs

theorem keeps_removeUnattached (C : Closed I) {kind : Kind} {h : Handle} {fail : Status → Prog} {k : Prog}
    (hf : ∀ st, Keeps I (fail st)) (hk : Keeps I k) : Keeps I (removeUnattached kind h fail k) := by
  refine keeps_underShardAt C (fun s a s' hs he => ?_) fun a => ?_
  · unfold removeUnattachedAct at he
    split at he
    · cases he; exact hs
    · split at he
      · cases he; exact hs
      · split at he <;> cases he
        exact keeps_dropEntry C hs
  · split
    · exact hf _
    · split
      · exact hf _
      · exact hk

theorem keeps_bumpAttach (C : Closed I) {s : State} {kind : Kind} {o : Nat} {f : Nat → Nat} (hs : I s) :
    I (s.bumpAttach kind o f) := by
  cases kind <;> simp only [State.bumpAttach]
  · exact hs
  · split
    · exact C.cq _ _ _ _ ‹_› hs
    · exact hs
  · split
    · exact C.srq _ _ _ _ ‹_› hs
    · exact hs

theorem keeps_attach (C : Closed I) {kind : Kind} {h : Handle} {gone k : Prog} (hg : Keeps I gone) (hk : Keeps I k) :
    Keeps I (attach kind h gone k) := by
  refine keeps_underShardAt C (fun s a s' hs he => ?_) fun a => ?_
  · unfold attachAct at he
    split at he <;> cases he
    · exact hs
    · exact keeps_bumpAttach C hs
  · split
    · exact hg
    · exact hk

theorem keeps_detach (C : Closed I) {kind : Kind} {h : State → Option Handle} {k : Prog} (hk : Keeps I k) :
    Keeps I (detach kind h k) := by
  refine keeps_underShard C (fun s a s' hs he => ?_) fun a => hk
  unfold detachAct at he
  split at he <;> cases he
  · exact hs
  · exact keeps_bumpAttach C hs

theorem keeps_allocRecs (C : Closed I) {spec : List (BitVec 3 × Num24)} {k : Prog} (hk : Keeps I k) :
    Keeps I (allocRecs spec k) := by
  refine .ask fun a => ?_
  split
  · exact hk
  · refine keeps_acquire C (.act (fun s a s' hs he => ?_) fun a => keeps_release C ?_)
    · unfold allocAct at he
      split at he <;> cases he
      · exact hs
      · exact C.me _ _ (C.recs _ _ _ hs)
    · split
      · exact keeps_raise C
      · exact .eff (fun s hs => C.writes (writes_initRecs _ _ s) hs) hk

theorem keeps_freeRec (C : Closed I) {r : State → Option Nat} {k : Prog} (hk : Keeps I k) : Keeps I (freeRec r k) := by
  refine .ask fun a => ?_
  split
  · exact hk
  · exact .eff (fun s hs => C.writeRec1 (C.wmb hs)) (keeps_acquire C (.eff (fun s hs => C.recs _ _ _ hs) (keeps_release C hk)))

theorem keeps_freeTaken (C : Closed I) {n : Nat} {k : Prog} (hk : Keeps I k) : Keeps I (freeTaken n k) := by
  induction n generalizing k with
  | zero => exact hk
  | succ n ih => exact ih (keeps_freeRec C hk)

end Sys2Proof.Machine
end

