-- ==== Sys2Proof/Laws/Contract.lean ====
section
/-! SUPPORT. The lemmas of what the requesters own (spec/60_exceptions.md R430) and of the device's side of the contract
(Sys2Proof/Machine/Contract.lean): what each operation can change, once. -/

namespace Sys2Proof.Machine

open Sys2Proof

/-! ### Ranges -/

/-- Is an address in a range? -/
def inRange (r : Nat × Nat) (b : Nat) : Prop := r.1 ≤ b ∧ b < r.1 + r.2

/-- What is left of a range is what is in it and not in the range taken out. -/
theorem mem_rangeWithout (r d : Nat × Nat) (b : Nat) :
    (∃ e ∈ rangeWithout r d, inRange e b) ↔ inRange r b ∧ ¬ inRange d b := by
  obtain ⟨a, n⟩ := r
  obtain ⟨c, k⟩ := d
  unfold rangeWithout overlaps inRange
  by_cases h1 : a < c <;> by_cases h2 : c + k < a + n <;> by_cases h3 : c < a + n <;> by_cases h4 : a < c + k <;>
    simp [h1, h2, h3, h4] <;> omega

theorem rangeWithout_pos {r d e : Nat × Nat} (hr : 0 < r.2) (h : e ∈ rangeWithout r d) : 0 < e.2 := by
  unfold rangeWithout at h
  split at h
  · rcases List.mem_append.mp h with h | h <;> split at h <;> simp_all
  · simp_all

/-- What is left of some ranges is what is in one of them and in none that was taken out. -/
theorem mem_rangesWithout (rs ds : List (Nat × Nat)) (b : Nat) :
    (∃ e ∈ rangesWithout rs ds, inRange e b) ↔ (∃ e ∈ rs, inRange e b) ∧ ∀ d ∈ ds, ¬ inRange d b := by
  induction ds generalizing rs with
  | nil => simp [rangesWithout]
  | cons d ds ih =>
    rw [rangesWithout, ih]
    have : (∃ e ∈ rs.flatMap fun r => rangeWithout r d, inRange e b) ↔ (∃ e ∈ rs, inRange e b) ∧ ¬ inRange d b := by
      simp only [List.mem_flatMap]
      constructor
      · rintro ⟨e, ⟨r, hr, he⟩, hb⟩
        have := (mem_rangeWithout r d b).mp ⟨e, he, hb⟩
        exact ⟨⟨r, hr, this.1⟩, this.2⟩
      · rintro ⟨⟨r, hr, h1⟩, h2⟩
        obtain ⟨e, he, hb⟩ := (mem_rangeWithout r d b).mpr ⟨h1, h2⟩
        exact ⟨e, ⟨r, hr, he⟩, hb⟩
    rw [this]
    simp [and_assoc]

theorem rangesWithout_pos {rs ds : List (Nat × Nat)} (hr : ∀ r ∈ rs, 0 < r.2) : ∀ e ∈ rangesWithout rs ds, 0 < e.2 := by
  induction ds generalizing rs with
  | nil => exact hr
  | cons d ds ih =>
    refine ih fun e he => ?_
    obtain ⟨r, h, he⟩ := List.mem_flatMap.mp he
    exact rangeWithout_pos (hr r h) he

/-- The requesters own a range exactly when it is empty, or inside the address space with every byte in a range they own: two
ranges that meet count as one. -/
theorem owns_iff (s : State) (r : Nat × Nat) :
    s.owns r = true ↔ r.2 = 0 ∨ (r.1 + r.2 ≤ 2 ^ s.cfg.hostAddrBits ∧ ∀ b, inRange r b → ∃ o ∈ s.owned, inRange o b) := by
  have key : 0 < r.2 → ((rangesWithout [r] s.owned) = [] ↔ ∀ b, inRange r b → ∃ o ∈ s.owned, inRange o b) := by
    intro hr
    constructor
    · intro h b hb
      by_contra hn
      have := (mem_rangesWithout [r] s.owned b).mpr ⟨⟨r, by simp, hb⟩, fun d hd hi => hn ⟨d, hd, hi⟩⟩
      simp [h] at this
    · intro h
      by_contra hn
      obtain ⟨e, he⟩ := List.exists_mem_of_ne_nil _ hn
      have hp := rangesWithout_pos (ds := s.owned) (fun x hx => by simp_all) e he
      obtain ⟨⟨x, hx, hb⟩, hno⟩ := (mem_rangesWithout [r] s.owned e.1).mp ⟨e, he, by simp only [inRange]; omega⟩
      obtain ⟨o, ho, hi⟩ := h e.1 (by simp_all)
      exact hno o ho hi
  unfold State.owns
  by_cases h0 : r.2 = 0
  · simp [h0]
  · simp only [h0, decide_false, Bool.false_or, Bool.and_eq_true, decide_eq_true_eq, List.isEmpty_iff, false_or,
      key (by omega)]

/-! ### What the device keeps -/

/-- A change of the CQ of a number changes no field of the state but its object. -/
theorem onCqNum_frame (s : State) (num : Num24) (f : Cq → Cq) : s.onCqNum num f = { s with cqs := (s.onCqNum num f).cqs } := by
  unfold State.onCqNum
  split
  · rfl
  · split <;> rfl

theorem onCqNum_cq? {s : State} {num : Num24} {c : Nat} {y : Cq} (f : Cq → Cq) (hn : s.lookupNum .cq num = some c)
    (hc : s.cq? c = some y) : s.onCqNum num f = s.setCq c (f y) := by
  simp only [State.onCqNum, hn, hc]

/-- A change of the QP of a number changes no field of the state but its object. -/
theorem onQpNum_frame (s : State) (num : Num24) (f : Qp → Qp) : s.onQpNum num f = { s with qps := (s.onQpNum num f).qps } := by
  unfold State.onQpNum
  split
  · rfl
  · split <;> rfl

/-- A change of the SRQ of a number changes no field of the state but its object. -/
theorem onSrqNum_frame (s : State) (num : Num24) (f : Srq → Srq) :
    s.onSrqNum num f = { s with srqs := (s.onSrqNum num f).srqs } := by
  unfold State.onSrqNum
  split
  · rfl
  · split <;> rfl

/-- What a doorbell tells the device is about rings and CQs only. -/
theorem deviceGets_frame (s : State) (i : Instr) : s.deviceGets i =
    { s with qps := (s.deviceGets i).qps, cqs := (s.deviceGets i).cqs, srqs := (s.deviceGets i).srqs } := by
  unfold State.deviceGets
  split
  any_goals rfl
  all_goals
    first
    | rw [onQpNum_frame]
    | rw [onSrqNum_frame]
    | rw [onCqNum_frame]

/-- What the device notes of an event is about a CQ. -/
theorem noteRaised_frame (s : State) (i : Instr) : s.noteRaised i = { s with cqs := (s.noteRaised i).cqs } := by
  unfold State.noteRaised
  split <;> first | rfl | exact onCqNum_frame ..

/-! ### A field of the state after what the device keeps has changed -/

@[simp] theorem State.deviceReads_cfg (s : State) (r : Nat) (w : Word) : (s.deviceReads r w).cfg = s.cfg := rfl
@[simp] theorem State.deviceReads_started (s : State) (r : Nat) (w : Word) : (s.deviceReads r w).started = s.started := rfl
@[simp] theorem State.deviceReads_mode (s : State) (r : Nat) (w : Word) : (s.deviceReads r w).mode = s.mode := rfl
@[simp] theorem State.deviceReads_fatal (s : State) (r : Nat) (w : Word) : (s.deviceReads r w).fatal = s.fatal := rfl
@[simp] theorem State.deviceReads_qpTable (s : State) (r : Nat) (w : Word) : (s.deviceReads r w).qpTable = s.qpTable := rfl
@[simp] theorem State.deviceReads_cqTable (s : State) (r : Nat) (w : Word) : (s.deviceReads r w).cqTable = s.cqTable := rfl
@[simp] theorem State.deviceReads_srqTable (s : State) (r : Nat) (w : Word) :
    (s.deviceReads r w).srqTable = s.srqTable := rfl
@[simp] theorem State.deviceReads_locks (s : State) (r : Nat) (w : Word) : (s.deviceReads r w).locks = s.locks := rfl
@[simp] theorem State.deviceReads_dbRecFree (s : State) (r : Nat) (w : Word) :
    (s.deviceReads r w).dbRecFree = s.dbRecFree := rfl
@[simp] theorem State.deviceReads_dbRecBase (s : State) (r : Nat) (w : Word) :
    (s.deviceReads r w).dbRecBase = s.dbRecBase := rfl
@[simp] theorem State.deviceReads_dbRecUsed (s : State) (r : Nat) (w : Word) :
    (s.deviceReads r w).dbRecUsed = s.dbRecUsed := rfl
@[simp] theorem State.deviceReads_nextObj (s : State) (r : Nat) (w : Word) : (s.deviceReads r w).nextObj = s.nextObj := rfl
@[simp] theorem State.deviceReads_mem (s : State) (r : Nat) (w : Word) : (s.deviceReads r w).mem = s.mem := rfl
@[simp] theorem State.deviceReads_agents (s : State) (r : Nat) (w : Word) : (s.deviceReads r w).agents = s.agents := rfl
@[simp] theorem State.deviceReads_cur (s : State) (r : Nat) (w : Word) : (s.deviceReads r w).cur = s.cur := rfl
@[simp] theorem State.deviceReads_slice (s : State) (r : Nat) (w : Word) : (s.deviceReads r w).slice = s.slice := rfl
@[simp] theorem State.deviceReads_inbox (s : State) (r : Nat) (w : Word) : (s.deviceReads r w).inbox = s.inbox := rfl
@[simp] theorem State.deviceReads_eventQ (s : State) (r : Nat) (w : Word) : (s.deviceReads r w).eventQ = s.eventQ := rfl
@[simp] theorem State.deviceReads_eventOut (s : State) (r : Nat) (w : Word) :
    (s.deviceReads r w).eventOut = s.eventOut := rfl
@[simp] theorem State.deviceReads_fw (s : State) (r : Nat) (w : Word) : (s.deviceReads r w).fw = s.fw := rfl
@[simp] theorem State.deviceReads_bus (s : State) (r : Nat) (w : Word) : (s.deviceReads r w).bus = s.bus := rfl
@[simp] theorem State.deviceReads_owned (s : State) (r : Nat) (w : Word) : (s.deviceReads r w).owned = s.owned := rfl
@[simp] theorem State.deviceReads_quiet (s : State) (r : Nat) (w : Word) : (s.deviceReads r w).quiet = s.quiet := rfl
@[simp] theorem State.deviceReads_me (s : State) (r : Nat) (w : Word) : (s.deviceReads r w).me = s.me := rfl
@[simp] theorem State.deviceReads_holder (s : State) (r : Nat) (w : Word) (x0 : Lock) :
    (s.deviceReads r w).holder x0 = s.holder x0 := rfl
@[simp] theorem State.deviceReads_entry (s : State) (r : Nat) (w : Word) (k0 : Kind) (i0 : Nat) :
    (s.deviceReads r w).entry k0 i0 = s.entry k0 i0 := by
  cases k0 <;> rfl
@[simp] theorem State.deviceReads_lookup (s : State) (r : Nat) (w : Word) (k0 : Kind) (h0 : Handle) :
    (s.deviceReads r w).lookup k0 h0 = s.lookup k0 h0 := by
  cases k0 <;> rfl
@[simp] theorem State.deviceReads_lookupNum (s : State) (r : Nat) (w : Word) (k0 : Kind) (n0 : Num24) :
    (s.deviceReads r w).lookupNum k0 n0 = s.lookupNum k0 n0 := by
  cases k0 <;> rfl
@[simp] theorem State.deviceReads_recAddr (s : State) (r : Nat) (w : Word) (r0 : Nat) :
    (s.deviceReads r w).recAddr r0 = s.recAddr r0 := rfl

@[simp] theorem State.deviceGets_cfg (s : State) (i : Instr) : (s.deviceGets i).cfg = s.cfg := by rw [deviceGets_frame]
@[simp] theorem State.deviceGets_started (s : State) (i : Instr) :
    (s.deviceGets i).started = s.started := by rw [deviceGets_frame]
@[simp] theorem State.deviceGets_mode (s : State) (i : Instr) : (s.deviceGets i).mode = s.mode := by rw [deviceGets_frame]
@[simp] theorem State.deviceGets_fatal (s : State) (i : Instr) : (s.deviceGets i).fatal = s.fatal := by rw [deviceGets_frame]
@[simp] theorem State.deviceGets_qpTable (s : State) (i : Instr) :
    (s.deviceGets i).qpTable = s.qpTable := by rw [deviceGets_frame]
@[simp] theorem State.deviceGets_cqTable (s : State) (i : Instr) :
    (s.deviceGets i).cqTable = s.cqTable := by rw [deviceGets_frame]
@[simp] theorem State.deviceGets_srqTable (s : State) (i : Instr) :
    (s.deviceGets i).srqTable = s.srqTable := by rw [deviceGets_frame]
@[simp] theorem State.deviceGets_locks (s : State) (i : Instr) : (s.deviceGets i).locks = s.locks := by rw [deviceGets_frame]
@[simp] theorem State.deviceGets_dbRecFree (s : State) (i : Instr) :
    (s.deviceGets i).dbRecFree = s.dbRecFree := by rw [deviceGets_frame]
@[simp] theorem State.deviceGets_dbRecBase (s : State) (i : Instr) :
    (s.deviceGets i).dbRecBase = s.dbRecBase := by rw [deviceGets_frame]
@[simp] theorem State.deviceGets_dbRecUsed (s : State) (i : Instr) :
    (s.deviceGets i).dbRecUsed = s.dbRecUsed := by rw [deviceGets_frame]

@[simp] theorem State.deviceGets_nextObj (s : State) (i : Instr) :
    (s.deviceGets i).nextObj = s.nextObj := by rw [deviceGets_frame]
@[simp] theorem State.deviceGets_mem (s : State) (i : Instr) : (s.deviceGets i).mem = s.mem := by rw [deviceGets_frame]
@[simp] theorem State.deviceGets_agents (s : State) (i : Instr) : (s.deviceGets i).agents = s.agents := by rw [deviceGets_frame]
@[simp] theorem State.deviceGets_cur (s : State) (i : Instr) : (s.deviceGets i).cur = s.cur := by rw [deviceGets_frame]
@[simp] theorem State.deviceGets_slice (s : State) (i : Instr) : (s.deviceGets i).slice = s.slice := by rw [deviceGets_frame]
@[simp] theorem State.deviceGets_inbox (s : State) (i : Instr) : (s.deviceGets i).inbox = s.inbox := by rw [deviceGets_frame]
@[simp] theorem State.deviceGets_eventQ (s : State) (i : Instr) : (s.deviceGets i).eventQ = s.eventQ := by rw [deviceGets_frame]
@[simp] theorem State.deviceGets_eventOut (s : State) (i : Instr) :
    (s.deviceGets i).eventOut = s.eventOut := by rw [deviceGets_frame]
@[simp] theorem State.deviceGets_fw (s : State) (i : Instr) : (s.deviceGets i).fw = s.fw := by rw [deviceGets_frame]
@[simp] theorem State.deviceGets_bus (s : State) (i : Instr) : (s.deviceGets i).bus = s.bus := by rw [deviceGets_frame]
@[simp] theorem State.deviceGets_owned (s : State) (i : Instr) : (s.deviceGets i).owned = s.owned := by rw [deviceGets_frame]
@[simp] theorem State.deviceGets_quiet (s : State) (i : Instr) : (s.deviceGets i).quiet = s.quiet := by rw [deviceGets_frame]
@[simp] theorem State.deviceGets_me (s : State) (i : Instr) : (s.deviceGets i).me = s.me := by rw [deviceGets_frame]; rfl
@[simp] theorem State.deviceGets_holder (s : State) (i : Instr) (x0 : Lock) :
    (s.deviceGets i).holder x0 = s.holder x0 := by rw [deviceGets_frame]; rfl
@[simp] theorem State.deviceGets_entry (s : State) (i : Instr) (k0 : Kind) (i0 : Nat) :
    (s.deviceGets i).entry k0 i0 = s.entry k0 i0 := by rw [deviceGets_frame]; cases k0 <;> rfl
@[simp] theorem State.deviceGets_lookup (s : State) (i : Instr) (k0 : Kind) (h0 : Handle) :
    (s.deviceGets i).lookup k0 h0 = s.lookup k0 h0 := by rw [deviceGets_frame]; cases k0 <;> rfl
@[simp] theorem State.deviceGets_lookupNum (s : State) (i : Instr) (k0 : Kind) (n0 : Num24) :
    (s.deviceGets i).lookupNum k0 n0 = s.lookupNum k0 n0 := by rw [deviceGets_frame]; cases k0 <;> rfl
@[simp] theorem State.deviceGets_recAddr (s : State) (i : Instr) (r0 : Nat) :
    (s.deviceGets i).recAddr r0 = s.recAddr r0 := by rw [deviceGets_frame]; rfl

@[simp] theorem State.noteRaised_cfg (s : State) (i : Instr) : (s.noteRaised i).cfg = s.cfg := by rw [noteRaised_frame]
@[simp] theorem State.noteRaised_started (s : State) (i : Instr) :
    (s.noteRaised i).started = s.started := by rw [noteRaised_frame]
@[simp] theorem State.noteRaised_mode (s : State) (i : Instr) : (s.noteRaised i).mode = s.mode := by rw [noteRaised_frame]
@[simp] theorem State.noteRaised_fatal (s : State) (i : Instr) : (s.noteRaised i).fatal = s.fatal := by rw [noteRaised_frame]
@[simp] theorem State.noteRaised_qpTable (s : State) (i : Instr) :
    (s.noteRaised i).qpTable = s.qpTable := by rw [noteRaised_frame]
@[simp] theorem State.noteRaised_cqTable (s : State) (i : Instr) :
    (s.noteRaised i).cqTable = s.cqTable := by rw [noteRaised_frame]
@[simp] theorem State.noteRaised_srqTable (s : State) (i : Instr) :
    (s.noteRaised i).srqTable = s.srqTable := by rw [noteRaised_frame]
@[simp] theorem State.noteRaised_locks (s : State) (i : Instr) : (s.noteRaised i).locks = s.locks := by rw [noteRaised_frame]
@[simp] theorem State.noteRaised_dbRecFree (s : State) (i : Instr) :
    (s.noteRaised i).dbRecFree = s.dbRecFree := by rw [noteRaised_frame]
@[simp] theorem State.noteRaised_dbRecBase (s : State) (i : Instr) :
    (s.noteRaised i).dbRecBase = s.dbRecBase := by rw [noteRaised_frame]
@[simp] theorem State.noteRaised_dbRecUsed (s : State) (i : Instr) :
    (s.noteRaised i).dbRecUsed = s.dbRecUsed := by rw [noteRaised_frame]
@[simp] theorem State.noteRaised_qps (s : State) (i : Instr) : (s.noteRaised i).qps = s.qps := by rw [noteRaised_frame]
@[simp] theorem State.noteRaised_srqs (s : State) (i : Instr) : (s.noteRaised i).srqs = s.srqs := by rw [noteRaised_frame]
@[simp] theorem State.noteRaised_nextObj (s : State) (i : Instr) :
    (s.noteRaised i).nextObj = s.nextObj := by rw [noteRaised_frame]
@[simp] theorem State.noteRaised_mem (s : State) (i : Instr) : (s.noteRaised i).mem = s.mem := by rw [noteRaised_frame]
@[simp] theorem State.noteRaised_agents (s : State) (i : Instr) : (s.noteRaised i).agents = s.agents := by rw [noteRaised_frame]
@[simp] theorem State.noteRaised_cur (s : State) (i : Instr) : (s.noteRaised i).cur = s.cur := by rw [noteRaised_frame]
@[simp] theorem State.noteRaised_slice (s : State) (i : Instr) : (s.noteRaised i).slice = s.slice := by rw [noteRaised_frame]
@[simp] theorem State.noteRaised_inbox (s : State) (i : Instr) : (s.noteRaised i).inbox = s.inbox := by rw [noteRaised_frame]
@[simp] theorem State.noteRaised_eventQ (s : State) (i : Instr) : (s.noteRaised i).eventQ = s.eventQ := by rw [noteRaised_frame]
@[simp] theorem State.noteRaised_eventOut (s : State) (i : Instr) :
    (s.noteRaised i).eventOut = s.eventOut := by rw [noteRaised_frame]
@[simp] theorem State.noteRaised_fw (s : State) (i : Instr) : (s.noteRaised i).fw = s.fw := by rw [noteRaised_frame]
@[simp] theorem State.noteRaised_bus (s : State) (i : Instr) : (s.noteRaised i).bus = s.bus := by rw [noteRaised_frame]
@[simp] theorem State.noteRaised_owned (s : State) (i : Instr) : (s.noteRaised i).owned = s.owned := by rw [noteRaised_frame]
@[simp] theorem State.noteRaised_quiet (s : State) (i : Instr) : (s.noteRaised i).quiet = s.quiet := by rw [noteRaised_frame]
@[simp] theorem State.noteRaised_me (s : State) (i : Instr) : (s.noteRaised i).me = s.me := by rw [noteRaised_frame]; rfl
@[simp] theorem State.noteRaised_qpOf (s : State) (i : Instr) (q0 : Nat) :
    (s.noteRaised i).qp? q0 = s.qp? q0 := by rw [noteRaised_frame]; rfl
@[simp] theorem State.noteRaised_srqOf (s : State) (i : Instr) (r0 : Nat) :
    (s.noteRaised i).srq? r0 = s.srq? r0 := by rw [noteRaised_frame]; rfl
@[simp] theorem State.noteRaised_holder (s : State) (i : Instr) (x0 : Lock) :
    (s.noteRaised i).holder x0 = s.holder x0 := by rw [noteRaised_frame]; rfl
@[simp] theorem State.noteRaised_entry (s : State) (i : Instr) (k0 : Kind) (i0 : Nat) :
    (s.noteRaised i).entry k0 i0 = s.entry k0 i0 := by rw [noteRaised_frame]; cases k0 <;> rfl
@[simp] theorem State.noteRaised_lookup (s : State) (i : Instr) (k0 : Kind) (h0 : Handle) :
    (s.noteRaised i).lookup k0 h0 = s.lookup k0 h0 := by rw [noteRaised_frame]; cases k0 <;> rfl
@[simp] theorem State.noteRaised_lookupNum (s : State) (i : Instr) (k0 : Kind) (n0 : Num24) :
    (s.noteRaised i).lookupNum k0 n0 = s.lookupNum k0 n0 := by rw [noteRaised_frame]; cases k0 <;> rfl
@[simp] theorem State.noteRaised_recAddr (s : State) (i : Instr) (r0 : Nat) :
    (s.noteRaised i).recAddr r0 = s.recAddr r0 := by rw [noteRaised_frame]; rfl

theorem assocGet_map {α : Type} (l : List (Nat × α)) (g : α → α) (k : Nat) :
    assocGet (l.map fun e => (e.1, g e.2)) k = (assocGet l k).map g := by
  induction l with
  | nil => rfl
  | cons e l ih =>
    obtain ⟨j, x⟩ := e
    simp only [List.map_cons, assocGet]
    split
    · rfl
    · exact ih

/-- A record that is written tells the device of the CQ whose consumer-index record it is. -/
theorem deviceReads_cq? (s : State) (r : Nat) (w0 : Word) (c : Nat) :
    (s.deviceReads r w0).cq? c = (s.cq? c).map fun y => if y.setCiRec = some r then y.tookIndex w0 else y := by
  have : (s.deviceReads r w0).cqs
      = s.cqs.map fun e => (e.1, if e.2.setCiRec = some r then e.2.tookIndex w0 else e.2) := by
    unfold State.deviceReads
    refine List.map_congr_left fun e _ => ?_
    split <;> rfl
  rw [State.cq?, this]
  exact assocGet_map _ (fun y : Cq => if y.setCiRec = some r then y.tookIndex w0 else y) _

@[simp] theorem Qp.readRec_state (x : Qp) (r : Nat) (w0 : Word) : (x.readRec r w0).state = x.state := rfl

/-- A record that is written shows the device the rings of the QP whose record it is. -/
theorem deviceReads_qp? (s : State) (r : Nat) (w0 : Word) (q : Nat) :
    (s.deviceReads r w0).qp? q = (s.qp? q).map fun x => x.readRec r w0 :=
  assocGet_map _ (fun x : Qp => x.readRec r w0) _

/-- A record that is written shows the device the WQEs of the SRQ whose record it is. -/
theorem deviceReads_srq? (s : State) (r : Nat) (w0 : Word) (k : Nat) :
    (s.deviceReads r w0).srq? k = (s.srq? k).map fun x => if x.dbRec = some r then x.counted w0 else x := by
  have : (s.deviceReads r w0).srqs = s.srqs.map fun e => (e.1, if e.2.dbRec = some r then e.2.counted w0 else e.2) := by
    unfold State.deviceReads
    refine List.map_congr_left fun e _ => ?_
    split <;> rfl
  rw [State.srq?, this]
  exact assocGet_map _ (fun x : Srq => if x.dbRec = some r then x.counted w0 else x) _

/-- The greatest number up to `l` that is one more than a number congruent to `i`. -/
theorem newest_spec {l c i : Nat} (h : i < c) (hp : 0 < l - (l % c + c - 1 - i) % c) :
    (l - (l % c + c - 1 - i) % c - 1) % c = i ∧ l - (l % c + c - 1 - i) % c ≤ l ∧ l < l - (l % c + c - 1 - i) % c + c := by
  have hm : l % c < c := Nat.mod_lt _ (by omega)
  have hd := Nat.div_add_mod l c
  generalize l % c = m at hm hd hp ⊢
  generalize l / c = k at hd
  by_cases hi : i < m
  · have e : (m + c - 1 - i) % c = m - 1 - i := by
      rw [show m + c - 1 - i = (m - 1 - i) + c by omega, Nat.add_mod_right, Nat.mod_eq_of_lt (by omega)]
    rw [e] at hp ⊢
    refine ⟨?_, by omega, by omega⟩
    rw [show l - (m - 1 - i) - 1 = c * k + i by omega, Nat.mul_add_mod, Nat.mod_eq_of_lt h]
  · have e : (m + c - 1 - i) % c = m + c - 1 - i := Nat.mod_eq_of_lt (by omega)
    rw [e] at hp ⊢
    refine ⟨?_, by omega, by omega⟩
    cases k with
    | zero => simp at hd; omega
    | succ k =>
      rw [Nat.mul_succ] at hd
      rw [show l - (m + c - 1 - i) - 1 = c * k + i by omega, Nat.mul_add_mod, Nat.mod_eq_of_lt h]

theorem newest_unique {l c i n : Nat} (hn : 0 < n) (hi : (n - 1) % c = i) (hl : n ≤ l) (hc : l < n + c) :
    l - (l % c + c - 1 - i) % c = n := by
  have h : i < c := hi ▸ Nat.mod_lt _ (by omega)
  obtain ⟨d, rfl⟩ : ∃ d, l = n + d := ⟨l - n, by omega⟩
  have h1 : (n + d) % c = (i + 1 + d) % c := by
    rw [show n + d = (n - 1) + (1 + d) by omega, show i + 1 + d = i + (1 + d) by omega, ← hi]
    simp
  have e : ((n + d) % c + c - 1 - i) % c = d := by
    rw [h1]
    by_cases hb : i + 1 + d < c
    · rw [Nat.mod_eq_of_lt hb, show i + 1 + d + c - 1 - i = d + c by omega, Nat.add_mod_right, Nat.mod_eq_of_lt (by omega)]
    · have e2 : (i + 1 + d) % c = i + 1 + d - c := by
        rw [Nat.mod_eq_sub_mod (by omega), Nat.mod_eq_of_lt (by omega)]
      rw [e2, show i + 1 + d - c + c - 1 - i = d by omega, Nat.mod_eq_of_lt (by omega)]
  rw [e]; omega

/-- What the device may report of a slot (R85, R86): the WQE that stands in it, where it has not passed it, may read it and every
one before it that it has not passed, and every one of those may go without a completion. -/
theorem Ring.reports_iff {r r' : Ring} {skip : Nat → Bool} {done i : Nat} : r.reports skip done i = some r' ↔
    ∃ n, (n - 1) % r.capacity = i ∧ n ≤ r.live ∧ r.live < n + r.capacity ∧ done < n ∧ r.first ≠ 0 ∧ r.first ≤ done + 1
      ∧ (∀ m, done < m → m < n → skip ((m - 1) % r.capacity) = true) ∧ r' = { r with devDone := n } := by
  have hall : ∀ n, (List.range (n - (done + 1))).all (fun k => skip ((done + k) % r.capacity)) = true
      ↔ ∀ m, done < m → m < n → skip ((m - 1) % r.capacity) = true := by
    intro n
    rw [List.all_eq_true]
    constructor
    · intro h m h1 h2
      have := h (m - 1 - done) (List.mem_range.mpr (by omega))
      rwa [show done + (m - 1 - done) = m - 1 by omega] at this
    · intro h k hk
      have := List.mem_range.mp hk
      have := h (done + k + 1) (by omega) (by omega)
      simpa using this
  simp only [Ring.reports]
  constructor
  · intro h
    split at h
    · obtain ⟨h1, h2, h3, h4, h5⟩ := ‹_ ∧ _ ∧ _ ∧ _ ∧ _›
      obtain ⟨a, b, c⟩ := newest_spec h1 (l := r.live) (by unfold Ring.doneTo at h2; omega)
      exact ⟨_, a, b, c, h2, h3, h4, (hall _).mp h5, (Option.some.inj h).symm⟩
    · cases h
  · rintro ⟨n, h1, h2, h3, h4, h5, h6, h7, rfl⟩
    have e : r.doneTo i = n := newest_unique (by omega) h1 h2 h3
    rw [e, if_pos ⟨h1 ▸ Nat.mod_lt _ (by omega), h4, h5, h6, (hall n).mpr h7⟩]

/-- What an error CQE stands for is noted in the ring; nothing else of the ring changes. -/
theorem startChain_ring {s : State} {q : Nat} {x : Qp} {b : Bool} {a : Nat} {r r' : Ring} (h : s.startChain q x b a r = some r') :
    r' = { r with chain := r'.chain } := by
  simp only [State.startChain] at h
  split at h
  · split at h <;> cases h; rfl
  · cases h; rfl

theorem reportRing_frame {s t : State} {q a : Nat} {x : Qp} {b : Bool} (h : s.reportRing q x b a = some t) :
    t = { s with qps := t.qps, srqs := t.srqs } := by
  unfold State.reportRing at h
  split at h
  · cases h; rfl
  · split at h
    · obtain ⟨_, -, rfl⟩ := Option.map_eq_some_iff.mp h; rfl
    · cases h

theorem reportSrq_frame {s t : State} {q r a : Nat} {x : Qp} {z : Srq} (h : s.reportSrq q r x z a = some t) :
    t = { s with qps := t.qps, srqs := t.srqs } := by
  simp only [State.reportSrq] at h
  split at h
  · obtain ⟨_, -, rfl⟩ := Option.map_eq_some_iff.mp h; rfl
  · cases h; rfl

theorem reportQp_frame {s t : State} {q a : Nat} {x : Qp} (h : s.reportQp q x a = some t) :
    t = { s with qps := t.qps, srqs := t.srqs } := by
  have h0 : some s = some t → t = { s with qps := t.qps, srqs := t.srqs } := by rintro ⟨⟩; rfl
  unfold State.reportQp at h
  split at h
  · exact reportRing_frame h
  split at h
  · exact h0 h
  split at h
  · exact h0 h
  · exact reportSrq_frame h

/-- The report of a completion changes only what the device keeps of rings, QPs and SRQs. -/
theorem reportCqe_frame {s t : State} {c a : Nat} (h : s.reportCqe c a = some t) :
    t = { s with qps := t.qps, srqs := t.srqs } := by
  unfold State.reportCqe at h
  split at h
  · cases h; rfl
  · split at h
    · exact reportQp_frame h
    · cases h

/-- A CQE of a QP is taken in the CQ that is the QP's for its kind only, as that QP's completion. -/
theorem reportCqe_qp {s : State} {c a q : Nat} {x : Qp} (hq : s.deviceQp (s.cqeQpn a) = some q) (hx : s.qp? q = some x) :
    s.reportCqe c a = if s.lookup .cq (x.cqOf (s.cqeIsSend a)) = some c then s.reportQp q x a else none := by
  simp [State.reportCqe, hq, hx]

/-! ### The chain of a `LEGACY` error CQE (R308) -/

/-- The next WQE of a chain: there is one where the header at `h` has a size and there is credit for it. -/
theorem chainNext_eq (s : State) (h cnt : Nat) : s.chainNext h cnt =
    if s.memRead (h + 4) 4 % 64 = 0 ∨ (cnt = 0 ∧ s.memRead (h + 4) 4 / 128 % 2 = 1) then none
    else some ((cnt + 65536 - s.memRead (h + 4) 4 / 128 % 2) % 65536) := by
  unfold State.chainNext
  rfl

/-- The chain from the WQE of number `n` on, one WQE at a time. -/
theorem chainEnd_succ (s : State) (x : Qp) (isSend : Bool) (fuel n cnt : Nat) : s.chainEnd x isSend (fuel + 1) n cnt =
    if s.memRead (x.slotAddr isSend ((n - 1) % (x.ring isSend).capacity) + 4) 4 % 64 = 0 ∨ (cnt = 0 ∧ s.dbdAt x isSend n = 1) then n
    else s.chainEnd x isSend fuel (n + 1) ((cnt + 65536 - s.dbdAt x isSend n) % 65536) := by
  rw [State.chainEnd, chainNext_eq]
  unfold Qp.wqeAddr State.dbdAt
  split <;> rfl

/-- What an error CQE stands for depends on memory alone, and in `startChain` on the mode and the locks. -/
theorem chainNext_congr {s s' : State} (h : s'.mem = s.mem) (a cnt : Nat) : s'.chainNext a cnt = s.chainNext a cnt := by
  unfold State.chainNext State.memRead
  rw [h]

theorem chainEnd_congr {s s' : State} (h : s'.mem = s.mem) (x : Qp) (isSend : Bool) (fuel : Nat) : ∀ n cnt,
    s'.chainEnd x isSend fuel n cnt = s.chainEnd x isSend fuel n cnt := by
  induction fuel with
  | zero => exact fun _ _ => rfl
  | succ fuel ih => intro n cnt; simp only [State.chainEnd, chainNext_congr h, ih]

theorem chainCloses_congr {s s' : State} (h : s'.mem = s.mem) (x : Qp) (isSend : Bool) (fuel : Nat) : ∀ n cnt,
    s'.chainCloses x isSend fuel n cnt = s.chainCloses x isSend fuel n cnt := by
  induction fuel with
  | zero => intro n cnt; simp only [State.chainCloses, chainNext_congr h]
  | succ fuel ih => intro n cnt; simp only [State.chainCloses, chainNext_congr h, ih]

theorem ringDone_congr {s s' : State} (h : s'.mem = s.mem) (x : Qp) (isSend : Bool) : s'.ringDone x isSend = s.ringDone x isSend := by
  simp only [State.ringDone, chainEnd_congr h]

theorem startChain_congr {s s' : State} (h : s'.mem = s.mem) (hm : s'.mode = s.mode) (hl : s'.locks = s.locks) (q : Nat) (x : Qp)
    (isSend : Bool) (a : Nat) (r : Ring) : s'.startChain q x isSend a r = s.startChain q x isSend a r := by
  have e : s'.legacyErrDue a = s.legacyErrDue a := by unfold State.legacyErrDue State.cqeByte; rw [h, hm]
  have e2 : s'.memRead (a + 0x12) 2 = s.memRead (a + 0x12) 2 := by unfold State.memRead; rw [h]
  have e3 : s'.oneSlotPost q isSend r = s.oneSlotPost q isSend r := by unfold State.oneSlotPost State.holder; rw [hl]
  simp only [State.startChain, e, e2, e3, chainCloses_congr h]

theorem creditAt_self {s : State} {x : Qp} {isSend : Bool} {n cnt : Nat} (h : cnt < 65536) : s.creditAt x isSend n cnt n cnt := by
  refine ⟨h, ?_⟩
  simp [Nat.mod_eq_of_lt h]

/-- The credit after one more link. -/
theorem creditAt_succ {s : State} {x : Qp} {isSend : Bool} {n cnt m k : Nat} (hc : cnt < 65536) (hm : n < m)
    (h : s.creditAt x isSend (n + 1) ((cnt + 65536 - s.dbdAt x isSend n) % 65536) m k) : s.creditAt x isSend n cnt m k := by
  obtain ⟨d, rfl⟩ : ∃ d, m = n + 1 + d := ⟨m - (n + 1), by omega⟩
  obtain ⟨h1, h2⟩ := h
  refine ⟨h1, ?_⟩
  have hd : s.dbdAt x isSend n < 2 := Nat.mod_lt _ (by decide)
  have e : ((List.range (n + 1 + d - n)).map fun j => s.dbdAt x isSend (n + j)).sum
      = s.dbdAt x isSend n + ((List.range (n + 1 + d - (n + 1))).map fun j => s.dbdAt x isSend (n + 1 + j)).sum := by
    rw [show n + 1 + d - n = d + 1 by omega, show n + 1 + d - (n + 1) = d by omega, List.range_succ_eq_map]
    simp [Function.comp_def, Nat.add_assoc, Nat.add_comm 1]
  rw [e]
  generalize ((List.range (n + 1 + d - (n + 1))).map fun j => s.dbdAt x isSend (n + 1 + j)).sum = S at h2 ⊢
  generalize s.dbdAt x isSend n = q at hd h2 ⊢
  omega

/-- The last WQE that an error CQE stands for: every WQE before it has a next one and the credit for it; it is the last live one, has
no next one, or no credit is left for it. -/
theorem chainEnd_spec (s : State) (x : Qp) (isSend : Bool) (fuel : Nat) : ∀ {n cnt e : Nat}, cnt < 65536 →
    s.chainEnd x isSend fuel n cnt = e →
    n ≤ e ∧ e ≤ n + fuel
    ∧ (∀ m h, n ≤ m → m < e → x.slotAddr isSend ((m - 1) % (x.ring isSend).capacity) = h →
      s.memRead (h + 4) 4 % 64 ≠ 0 ∧ ∃ k, s.creditAt x isSend n cnt m k ∧ ¬ (k = 0 ∧ s.memRead (h + 4) 4 / 128 % 2 = 1))
    ∧ ∀ h, x.slotAddr isSend ((e - 1) % (x.ring isSend).capacity) = h → e = n + fuel ∨ s.memRead (h + 4) 4 % 64 = 0
      ∨ ∃ k, s.creditAt x isSend n cnt e k ∧ k = 0 ∧ s.memRead (h + 4) 4 / 128 % 2 = 1 := by
  induction fuel with
  | zero =>
    rintro n cnt e hc rfl
    exact ⟨Nat.le_refl _, Nat.le_refl _, fun m h h1 h2 => absurd h2 (Nat.not_lt.mpr h1), fun h _ => Or.inl rfl⟩
  | succ fuel ih =>
    intro n cnt e hc he
    rw [chainEnd_succ] at he
    split at he
    · rename_i hstop
      subst he
      refine ⟨Nat.le_refl _, by omega, fun m h h1 h2 => by omega, ?_⟩
      rintro h rfl
      exact Or.inr (hstop.imp_right fun ⟨h0, h1⟩ => ⟨cnt, creditAt_self hc, h0, h1⟩)
    · rename_i hgo
      obtain ⟨i1, i2, i3, i4⟩ := ih (Nat.mod_lt _ (by decide)) he
      refine ⟨by omega, by omega, fun m h h1 h2 h3 => ?_, fun h h3 => ?_⟩
      · rcases Nat.eq_or_lt_of_le h1 with rfl | h1
        · subst h3
          exact ⟨fun h => hgo (Or.inl h), cnt, creditAt_self hc, fun h => hgo (Or.inr h)⟩
        · obtain ⟨j1, k, j2, j3⟩ := i3 m h h1 h2 h3
          exact ⟨j1, k, creditAt_succ hc h1 j2, j3⟩
      · rcases i4 h h3 with h | h | ⟨k, h1, h2⟩
        · exact Or.inl (by omega)
        · exact Or.inr (Or.inl h)
        · exact Or.inr (Or.inr ⟨k, creditAt_succ hc (by omega) h1, h2⟩)

/-- An error CQE that stands for live WQEs only comes to the end of its chain or credit at one of them. -/
theorem chainCloses_spec (s : State) (x : Qp) (isSend : Bool) (fuel : Nat) : ∀ {n cnt : Nat}, cnt < 65536 →
    s.chainCloses x isSend fuel n cnt = true → ∃ e k, n ≤ e ∧ e ≤ n + fuel ∧ s.creditAt x isSend n cnt e k
      ∧ (s.memRead (x.wqeAddr isSend e + 4) 4 % 64 = 0 ∨ (k = 0 ∧ s.dbdAt x isSend e = 1)) := by
  induction fuel with
  | zero =>
    intro n cnt hc h
    rw [State.chainCloses, chainNext_eq] at h
    split at h
    · exact ⟨n, cnt, Nat.le_refl _, Nat.le_refl _, creditAt_self hc, by assumption⟩
    · cases h
  | succ fuel ih =>
    intro n cnt hc h
    rw [State.chainCloses, chainNext_eq] at h
    split at h
    · exact ⟨n, cnt, Nat.le_refl _, by omega, creditAt_self hc, by assumption⟩
    · obtain ⟨e, k, h1, h2, h3, h4⟩ := ih (Nat.mod_lt _ (by decide)) h
      exact ⟨e, k, by omega, by omega, creditAt_succ hc (by omega) h3, h4⟩

end Sys2Proof.Machine
end

