-- ==== Sys2Proof/Laws/Encoding.lean ====
section
/-! SUPPORT. The fields of the words of spec/30_encoding.md: what each field of an encoded word reads as, and that four bytes
and a word carry the same bits. -/

namespace Sys2Proof

/-! ### Words and bytes -/

theorem bytesWord_wordBytes (w : Word) :
    bytesWord (w.extractLsb' 24 8) (w.extractLsb' 16 8) (w.extractLsb' 8 8) (w.extractLsb' 0 8) = w := by
  apply BitVec.eq_of_getLsbD_eq
  intro i hi
  simp only [bytesWord, BitVec.getLsbD_append, BitVec.getLsbD_extractLsb']
  grind

theorem wordBytes_bytesWord (a b c d : Byte) : wordBytes (bytesWord a b c d) = [a, b, c, d] := by
  have h3 : (bytesWord a b c d).extractLsb' 24 8 = a := by
    apply BitVec.eq_of_getLsbD_eq; intro i hi; simp only [bytesWord, BitVec.getLsbD_extractLsb']; grind
  have h2 : (bytesWord a b c d).extractLsb' 16 8 = b := by
    apply BitVec.eq_of_getLsbD_eq; intro i hi; simp only [bytesWord, BitVec.getLsbD_extractLsb']; grind
  have h1 : (bytesWord a b c d).extractLsb' 8 8 = c := by
    apply BitVec.eq_of_getLsbD_eq; intro i hi; simp only [bytesWord, BitVec.getLsbD_extractLsb']; grind
  have h0 : (bytesWord a b c d).extractLsb' 0 8 = d := by
    apply BitVec.eq_of_getLsbD_eq; intro i hi; simp only [bytesWord, BitVec.getLsbD_extractLsb']; grind
  simp [wordBytes, h0, h1, h2, h3]

theorem decode_command (w : Word) : decode .command (wordBytes w) = .ok (decodeCommand w) := by
  simp [decode, wordBytes, bytesWord_wordBytes]

theorem decode_link (w : Word) : decode .link (wordBytes w) = decodeLink w := by
  simp [decode, wordBytes, bytesWord_wordBytes]

theorem decode_pair (f : Format) (w0 w1 : Word) : decode f (pairBytes (w0, w1)) = decodePair f w0 w1 := by
  simp [decode, pairBytes, wordBytes, bytesWord_wordBytes]

/-! ### Fields -/

/-- The word of a link: offset and opcode. -/
theorem linkWord_nda (nda : BitVec 26) (op : BitVec 6) : (linkWord nda op).extractLsb' 6 26 = nda := by
  apply BitVec.eq_of_getLsbD_eq; intro i hi; simp only [linkWord, BitVec.getLsbD_extractLsb']; grind

theorem linkWord_op (nda : BitVec 26) (op : BitVec 6) : (linkWord nda op).extractLsb' 0 6 = op := by
  apply BitVec.eq_of_getLsbD_eq; intro i hi; simp only [linkWord, BitVec.getLsbD_extractLsb']; grind

theorem cons8_hi (k : Byte) (n : Num24) : (k ++ n : Word).extractLsb' 24 8 = k := by
  apply BitVec.eq_of_getLsbD_eq; intro i hi; simp only [BitVec.getLsbD_extractLsb']; grind

theorem cons8_lo (k : Byte) (n : Num24) : (k ++ n : Word).extractLsb' 0 24 = n := by
  apply BitVec.eq_of_getLsbD_eq; intro i hi; simp only [BitVec.getLsbD_extractLsb']; grind

theorem snoc8_hi (n : Num24) (k : Byte) : (n ++ k : Word).extractLsb' 8 24 = n := by
  apply BitVec.eq_of_getLsbD_eq; intro i hi; simp only [BitVec.getLsbD_extractLsb']; grind

theorem snoc8_lo (n : Num24) (k : Byte) : (n ++ k : Word).extractLsb' 0 8 = k := by
  apply BitVec.eq_of_getLsbD_eq; intro i hi; simp only [BitVec.getLsbD_extractLsb']; grind

theorem setWidth_lo (k : Byte) : (k.setWidth 32).extractLsb' 0 8 = k := by
  apply BitVec.eq_of_getLsbD_eq; intro i hi; simp only [BitVec.getLsbD_extractLsb']; grind

theorem hiLo5_hi (hi : BitVec 3) (lo : BitVec 5) : (hi ++ lo : Byte).extractLsb' 5 3 = hi := by
  apply BitVec.eq_of_getLsbD_eq; intro i h; simp only [BitVec.getLsbD_extractLsb']; grind

theorem hiLo5_lo (hi : BitVec 3) (lo : BitVec 5) : (hi ++ lo : Byte).extractLsb' 0 5 = lo := by
  apply BitVec.eq_of_getLsbD_eq; intro i h; simp only [BitVec.getLsbD_extractLsb']; grind

/-- Word 0 of a legacy send doorbell. -/
theorem send0_wqe (a : BitVec 26) (f : Bool) (op : BitVec 5) : (a ++ bit f ++ op : Word).extractLsb' 6 26 = a := by
  apply BitVec.eq_of_getLsbD_eq; intro i hi; simp only [BitVec.getLsbD_extractLsb']; grind

theorem send0_fence (a : BitVec 26) (f : Bool) (op : BitVec 5) : (a ++ bit f ++ op : Word).getLsbD 5 = f := by
  have h : (a ++ bit f ++ op : Word).getLsbD 5 = (bit f).getLsbD 0 := by grind
  rw [h]; cases f <;> rfl

theorem send0_op (a : BitVec 26) (f : Bool) (op : BitVec 5) : (a ++ bit f ++ op : Word).extractLsb' 0 5 = op := by
  apply BitVec.eq_of_getLsbD_eq; intro i hi; simp only [BitVec.getLsbD_extractLsb']; grind

/-- Word 0 of a legacy receive doorbell, and of an SRQ doorbell with size 0. -/
theorem recv0_wqe (a : BitVec 26) (n : BitVec 6) : (a ++ n : Word).extractLsb' 6 26 = a := by
  apply BitVec.eq_of_getLsbD_eq; intro i hi; simp only [BitVec.getLsbD_extractLsb']; grind

theorem recv0_size (a : BitVec 26) (n : BitVec 6) : (a ++ n : Word).extractLsb' 0 6 = n := by
  apply BitVec.eq_of_getLsbD_eq; intro i hi; simp only [BitVec.getLsbD_extractLsb']; grind

/-- Word 0 of a memory-free send doorbell. -/
theorem mfSend0_n (n : Byte) (h : BitVec 16) (f : Bool) (op : BitVec 5) :
    (n ++ h ++ (0 : BitVec 2) ++ bit f ++ op : Word).extractLsb' 24 8 = n := by
  apply BitVec.eq_of_getLsbD_eq; intro i hi; simp only [BitVec.getLsbD_extractLsb']; grind

theorem mfSend0_head (n : Byte) (h : BitVec 16) (f : Bool) (op : BitVec 5) :
    (n ++ h ++ (0 : BitVec 2) ++ bit f ++ op : Word).extractLsb' 8 16 = h := by
  apply BitVec.eq_of_getLsbD_eq; intro i hi; simp only [BitVec.getLsbD_extractLsb']; grind

theorem mfSend0_zero (n : Byte) (h : BitVec 16) (f : Bool) (op : BitVec 5) :
    (n ++ h ++ (0 : BitVec 2) ++ bit f ++ op : Word).extractLsb' 6 2 = 0 := by
  apply BitVec.eq_of_getLsbD_eq; intro i hi; simp only [BitVec.getLsbD_extractLsb']; grind

theorem mfSend0_fence (n : Byte) (h : BitVec 16) (f : Bool) (op : BitVec 5) :
    (n ++ h ++ (0 : BitVec 2) ++ bit f ++ op : Word).getLsbD 5 = f := by
  have e : (n ++ h ++ (0 : BitVec 2) ++ bit f ++ op : Word).getLsbD 5 = (bit f).getLsbD 0 := by grind
  rw [e]; cases f <;> rfl

theorem mfSend0_op (n : Byte) (h : BitVec 16) (f : Bool) (op : BitVec 5) :
    (n ++ h ++ (0 : BitVec 2) ++ bit f ++ op : Word).extractLsb' 0 5 = op := by
  apply BitVec.eq_of_getLsbD_eq; intro i hi; simp only [BitVec.getLsbD_extractLsb']; grind

/-- Word 0 of a memory-free arm doorbell. -/
theorem mfArm0_zero (sn : BitVec 2) (c : BitVec 4) (n : Num24) :
    ((0 : BitVec 2) ++ sn ++ c ++ n : Word).extractLsb' 30 2 = 0 := by
  apply BitVec.eq_of_getLsbD_eq; intro i hi; simp only [BitVec.getLsbD_extractLsb']; grind

theorem mfArm0_sn (sn : BitVec 2) (c : BitVec 4) (n : Num24) :
    ((0 : BitVec 2) ++ sn ++ c ++ n : Word).extractLsb' 28 2 = sn := by
  apply BitVec.eq_of_getLsbD_eq; intro i hi; simp only [BitVec.getLsbD_extractLsb']; grind

theorem mfArm0_cmd (sn : BitVec 2) (c : BitVec 4) (n : Num24) :
    ((0 : BitVec 2) ++ sn ++ c ++ n : Word).extractLsb' 24 4 = c := by
  apply BitVec.eq_of_getLsbD_eq; intro i hi; simp only [BitVec.getLsbD_extractLsb']; grind

theorem mfArm0_cqn (sn : BitVec 2) (c : BitVec 4) (n : Num24) :
    ((0 : BitVec 2) ++ sn ++ c ++ n : Word).extractLsb' 0 24 = n := by
  apply BitVec.eq_of_getLsbD_eq; intro i hi; simp only [BitVec.getLsbD_extractLsb']; grind

/-- Word 1 of a doorbell record. -/
theorem rec1_num (n : Num24) (ty : BitVec 3) (low : BitVec 5) : (n ++ ty ++ low : Word).extractLsb' 8 24 = n := by
  apply BitVec.eq_of_getLsbD_eq; intro i hi; simp only [BitVec.getLsbD_extractLsb']; grind

theorem rec1_type (n : Num24) (ty : BitVec 3) (low : BitVec 5) : (n ++ ty ++ low : Word).extractLsb' 5 3 = ty := by
  apply BitVec.eq_of_getLsbD_eq; intro i hi; simp only [BitVec.getLsbD_extractLsb']; grind

theorem rec1_low (n : Num24) (ty : BitVec 3) (low : BitVec 5) : (n ++ ty ++ low : Word).extractLsb' 0 5 = low := by
  apply BitVec.eq_of_getLsbD_eq; intro i hi; simp only [BitVec.getLsbD_extractLsb']; grind

/-! ### Illegal command words -/

theorem decodeCommand_illegal {w v : Word} (h : decodeCommand w = .illegalCommand v) : v = w := by
  unfold decodeCommand at h
  split at h
  · cases h; rfl
  · split at h <;> first
      | (unfold unlessSol at h; split at h <;> cases h; rfl)
      | (cases h; rfl)
      | cases h

end Sys2Proof
end

