-- ==== Sys2Proof/Laws/Kept.lean ====
section
/-! SUPPORT. A closed property is kept by every program of the core: one lemma for each program, and `exec_keeps` for the
instructions. -/

namespace Sys2Proof.Machine

open Sys2Proof

variable {I : State → Prop}

/-- A step that reads an object and changes nothing. -/
theorem actKeeps_readQp {q : Nat} {f : State → Qp → Nat} : ActKeeps I fun s => withQp q s fun x => .ok (f s x) s :=
  .withQp fun _ _ _ _ _ hs he => by cases he; exact hs

theorem actKeeps_readCq {c : Nat} {f : State → Cq → Nat} : ActKeeps I fun s => withCq c s fun x => .ok (f s x) s :=
  .withCq fun _ _ _ _ _ hs he => by cases he; exact hs

theorem actKeeps_readSrq {r : Nat} {f : State → Srq → Nat} : ActKeeps I fun s => withSrq r s fun x => .ok (f s x) s :=
  .withSrq fun _ _ _ _ _ hs he => by cases he; exact hs

/-! ### Posts -/

theorem keeps_overflow (C : Closed I) {q : Nat} {isSend : Bool} {full room : Prog} (hf : Keeps I full) (hr : Keeps I room) :
    Keeps I (overflow q isSend full room) := by
  refine .act actKeeps_readQp fun a => ?_
  split
  · exact hr
  · refine keeps_resolveRef C (keeps_useFault C) fun c => keeps_acquire C (.act actKeeps_readQp fun a => keeps_release C ?_)
    split
    · exact hr
    · exact hf

theorem actKeeps_wrid (C : Closed I) {rr : RingRef} {ind : Nat} {w : BitVec 64} : ActKeeps I (wridAct rr ind w) := by
  cases rr
  · exact .withQp fun _ _ _ _ hx hs he => by cases he; exact C.qp _ _ _ _ hx rfl hs
  · exact .withQp fun _ _ _ _ hx hs he => by cases he; exact C.qp _ _ _ _ hx rfl hs
  · exact .withSrq fun _ _ _ _ hx hs he => by cases he; exact C.srq _ _ _ _ hx hs

theorem actKeeps_advance (C : Closed I) {rr : RingRef} {ind : Nat} : ActKeeps I (advanceAct rr ind) := by
  cases rr
  · exact .withQp fun _ _ _ _ hx hs he => by cases he; exact C.qp _ _ _ _ hx rfl hs
  · exact .withQp fun _ _ _ _ hx hs he => by cases he; exact C.qp _ _ _ _ hx rfl hs
  · exact .withSrq fun _ _ _ _ hx hs he => by cases he; exact C.srq _ _ _ _ hx hs

theorem keeps_publishTail (C : Closed I) {rr : RingRef} {ind prev : Nat} {w : BitVec 64} {op : BitVec 6} {fence : Bool}
    {size : Nat} {k : Prog} (hk : Keeps I k) : Keeps I (publishTail rr ind prev w op fence size k) := by
  refine .act (actKeeps_wrid C) fun _ => .eff (fun _ hs => C.wmb hs) (.act (fun s a s' hs he => ?_) fun _ =>
    .eff (fun _ hs => C.wmb hs) (.act (fun s a s' hs he => ?_) fun _ => .act (actKeeps_advance C) fun _ => hk))
  · unfold linkAct at he
    split at he <;> cases he
    exact C.memWrite hs
  · unfold sizeAct at he
    split at he <;> cases he
    exact C.goLive (C.memWrite hs)

theorem writeInline_keeps (C : Closed I) {s : State} {a : Nat} {sg : List Sge} (hs : I s) : I (s.writeInline a sg) := by
  obtain ⟨m, l, he, hw, -⟩ := writeInline_eq s a sg
  rw [he]
  exact C.bus _ _ (C.mem _ _ (fun h => (hw h).1) hs)

theorem keeps_publishSend (C : Closed I) {q ind prev : Nat} {wr : SendWr} {k : Nat → Prog} (hk : ∀ n, Keeps I (k n)) :
    Keeps I (publishSend q ind prev wr k) := by
  refine keeps_act (.withQp fun _ _ _ _ _ hs he => ?_) fun _ => keeps_act (.withQp fun _ _ _ _ _ hs he => ?_) fun _ =>
    keeps_act (.withQp fun s x _ _ _ hs he => ?_) fun _ => keeps_publishTail C (hk _)
  · cases he; exact C.writeFields hs
  · cases he; exact C.writeFields hs
  · cases he
    split
    · exact writeInline_keeps C hs
    · exact C.writeFields hs

theorem keeps_publishRecv (C : Closed I) {rr : RingRef} {ind prev size : Nat} {wr : RecvWr} {k : Prog} (hk : Keeps I k) :
    Keeps I (publishRecv rr ind prev size wr k) := by
  refine .act (fun s a s' hs he => ?_) fun _ => .act (fun s a s' hs he => ?_) fun _ => keeps_publishTail C hk
  · unfold recvHeaderAct at he
    split at he <;> cases he
    exact C.writeFields hs
  · unfold recvDataAct at he
    split at he <;> cases he
    exact C.writeFields hs

theorem keeps_sendLoop (C : Closed I) {q k : Nat} {wrs : List SendWr} : Keeps I (sendLoop q k wrs) := by
  induction wrs generalizing k with
  | nil => exact keeps_dbEnd C (keeps_release C (keeps_respond C))
  | cons wr wrs ih =>
    refine keeps_overflow C (keeps_raise C) (.act actKeeps_readQp fun c => ?_)
    repeat' split
    all_goals first
      | exact keeps_raise C
      | exact .guard (.ask fun _ => .ask fun _ => keeps_publishSend C fun _ => keeps_dbAfterWqe C ih)

theorem keeps_postSendOn (C : Closed I) {op : Operands} {bad : Option Nat} {k : Nat → Prog} (hk : ∀ q, Keeps I (k q)) :
    Keeps I (postSendOn op bad k) := by
  refine keeps_precond C (keeps_resolve C (keeps_raise C) fun q => keeps_acquire C (.act actKeeps_readQp fun a => ?_))
  split
  · exact keeps_raise C
  · exact hk q

theorem keeps_postRecvOn (C : Closed I) {op : Operands} {bad : Option Nat} {k : Nat → Prog} (hk : ∀ q, Keeps I (k q)) :
    Keeps I (postRecvOn op bad k) := by
  refine keeps_precond C (keeps_resolve C (keeps_raise C) fun q => keeps_acquire C (.act actKeeps_readQp fun a => ?_))
  split
  · exact keeps_raise C
  · exact hk q

theorem keeps_dbBegin (C : Closed I) {rr : RingRef} {k : Prog} (hk : Keeps I k) : Keeps I (dbBegin rr k) :=
  .eff (fun _ hs => C.setBatch hs) hk

theorem keeps_postSendProg (C : Closed I) (op : Operands) : Keeps I (postSendProg op) :=
  keeps_postSendOn C fun _ => keeps_dbBegin C (keeps_sendLoop C)

theorem keeps_recvLoop (C : Closed I) {q k : Nat} {wrs : List RecvWr} : Keeps I (recvLoop q k wrs) := by
  induction wrs generalizing k with
  | nil => exact keeps_dbEnd C (keeps_release C (keeps_respond C))
  | cons wr wrs ih =>
    refine keeps_overflow C (keeps_raise C) (.act actKeeps_readQp fun c => ?_)
    split
    · exact keeps_raise C
    · exact .ask fun _ => .ask fun _ => .ask fun _ => keeps_publishRecv C (keeps_dbAfterWqe C ih)

theorem keeps_postRecvProg (C : Closed I) (op : Operands) : Keeps I (postRecvProg op) :=
  keeps_postRecvOn C fun _ => keeps_dbBegin C (keeps_recvLoop C)

theorem keeps_srqLoop (C : Closed I) {r k : Nat} {wrs : List RecvWr} : Keeps I (srqLoop r k wrs) := by
  induction wrs generalizing k with
  | nil => exact keeps_dbEnd C (keeps_release C (keeps_respond C))
  | cons wr wrs ih =>
    refine .act actKeeps_readSrq fun c => ?_
    repeat' split
    all_goals first
      | exact keeps_raise C
      | exact keeps_act (.withSrq fun _ _ _ _ hx hs he => by cases he; exact C.srq _ _ _ _ hx hs) fun _ => .ask fun _ => .ask fun _ =>
          keeps_publishRecv C (keeps_dbAfterWqe C ih)

theorem keeps_postSrqRecvProg (C : Closed I) (op : Operands) : Keeps I (postSrqRecvProg op) :=
  keeps_precond C (keeps_resolve C (keeps_raise C) fun _ => keeps_acquire C (keeps_dbBegin C (keeps_srqLoop C)))

/-! ### CQs -/

theorem keeps_ciPublish (C : Closed I) {c n : Nat} {k : Prog} (hk : Keeps I k) : Keeps I (ciPublish c n k) := by
  unfold ciPublish
  split
  · exact hk
  · refine keeps_act (.withCq fun s x _ _ hx hs he => ?_) fun _ => hk
    cases he
    split
    · exact C.ring (C.cq _ _ _ _ hx hs)
    · exact C.writeRec0 (C.wmb (C.cq _ _ _ _ hx hs))

theorem keeps_srqFree (C : Closed I) {r : Nat} {idx : Srq → Nat} {k : Prog} (hk : Keeps I k) : Keeps I (srqFree r idx k) :=
  keeps_acquire C (keeps_act (.withSrq fun _ _ _ _ hx hs he => by cases he; exact C.srq _ _ _ _ hx hs) fun _ => keeps_release C hk)

theorem keeps_cleanLoop (C : Closed I) {c r : Nat} {qpn : Num24} {todo nfreed : Nat} {k : Nat → Prog}
    (hk : ∀ n, Keeps I (k n)) : Keeps I (cleanLoop c r qpn todo nfreed k) := by
  induction todo generalizing nfreed with
  | zero => exact hk _
  | succ j ih =>
    refine keeps_act (.withCq fun s x a s' _ hs he => ?_) fun a => ?_
    · simp only at he
      split at he <;> cases he <;> exact hs
    · split
      · split
        · exact ih
        · exact keeps_act (.withCq fun s x _ _ _ hs he => by cases he; exact C.writes (writes_writeBytes s _ _) hs) fun _ => ih
      · split
        · exact ih
        · exact keeps_srqFree C ih

theorem keeps_giveSlots (C : Closed I) {x : Cq} {n : Nat} : ∀ {s : State} {j : Nat}, I s → I (giveSlots s x j n) := by
  induction n with
  | zero => exact fun hs => hs
  | succ n ih => exact fun hs => ih (C.memWrite hs)

theorem keeps_cqCleanOn (C : Closed I) {c r : Nat} {qpn : Num24} {k : Prog} (hk : Keeps I k) :
    Keeps I (cqCleanOn c r qpn k) := by
  refine keeps_acquire C (.act actKeeps_readCq fun n => .eff (fun _ hs => C.rmb hs) (keeps_cleanLoop C fun nfreed => ?_))
  split
  · exact keeps_release C hk
  · exact keeps_act (.withCq fun s x _ _ _ hs he => by cases he; exact keeps_giveSlots C hs) fun _ => .eff (fun _ hs => C.wmb hs)
      (keeps_act (.withCq fun _ _ _ _ hx hs he => by cases he; exact C.cq _ _ _ _ hx hs) fun _ =>
        keeps_ciPublish C (keeps_release C hk))

theorem keeps_cqClean (C : Closed I) {q : Nat} {isSend withSrq : Bool} {k : Prog} (hk : Keeps I k) :
    Keeps I (cqClean q isSend withSrq k) := by
  refine .ask fun qpn => keeps_resolveRef C (keeps_useFault C) fun c => .ask fun via => ?_
  split
  · exact keeps_cqCleanOn C hk
  · exact keeps_resolveRef C (keeps_useFault C) fun r => keeps_cqCleanOn C hk

theorem keeps_cleanBoth (C : Closed I) {q : Nat} {k : Prog} (hk : Keeps I k) : Keeps I (cleanBoth q k) := by
  refine keeps_cqClean C (.ask fun same => ?_)
  split
  · exact hk
  · exact keeps_cqClean C hk

theorem keeps_removeNew (C : Closed I) {kind : Kind} {h : State → Handle} {k : Prog} (hk : Keeps I k) :
    Keeps I (removeNew kind h k) := by
  refine keeps_underShard C (fun s a s' hs he => ?_) fun _ => hk
  unfold removeNewAct at he
  split at he <;> cases he
  · exact hs
  · exact keeps_emptyEntry C hs

theorem keeps_createCqProg (C : Closed I) (op : Operands) : Keeps I (createCqProg op) := by
  refine keeps_precond C (.ask fun bad => ?_)
  split
  · exact keeps_raise C
  · refine .guard (keeps_allocRecs C (keeps_insert C (fun s i g h hs => C.newCq s i g op.cqn _ hs)
      (keeps_freeTaken C (keeps_raise C)) fun c => keeps_act (.withCq fun s x _ _ _ hs he => ?_) fun _ =>
        keeps_mailbox C fun fw => keeps_setFwStatus C ?_))
    · cases he; exact C.writes (writes_initOwners s _ _) hs
    · split
      · exact keeps_removeNew C (.eff (fun _ hs => C.eraseCq _ _ hs) (keeps_freeTaken C (keeps_raise C)))
      · exact .eff (fun _ hs => C.setResp hs) (keeps_respond C)

theorem keeps_consume (C : Closed I) {c a : Nat} {k : Prog} (hk : Keeps I k) : Keeps I (consume c a k) :=
  .eff (fun _ hs => C.memWrite hs)
    (keeps_act (.withCq fun _ _ _ _ hx hs he => by cases he; exact C.cq _ _ _ _ hx hs) fun _ => hk)

theorem setRing_state (x : Qp) (isSend : Bool) (r : Ring) : (x.setRing isSend r).state = x.state := by cases isSend <;> rfl

/-- The reads of `LEGACY_ERR`. -/
theorem actKeeps_legacyErr (C : Closed I) {q i a n : Nat} {isSend : Bool} : ActKeeps I (legacyErrAct q isSend i a n) :=
  .withQp fun s x b s' hx hs he => by
    simp only at he
    split at he <;> cases he <;> exact C.qp _ _ _ _ hx (setRing_state _ _ _) hs

/-- The writes to an error CQE that is kept. -/
theorem keeps_keepErr (C : Closed I) {a v : Nat} {k : Prog} (hk : Keeps I k) : Keeps I (keepErr a v k) :=
  .eff (fun _ hs => C.memWrite hs) (.eff (fun _ hs => C.memWrite hs) (.eff (fun _ hs => C.memWrite hs) hk))

theorem keeps_pollOne (C : Closed I) {c a n freed derr : Nat} {next : Nat → Nat → Nat → Prog}
    (hk : ∀ n f d, Keeps I (next n f d)) : Keeps I (pollOne c a n freed derr next) := by
  have hbad : ∀ n f d, Keeps I (.act (decodeErrorAct c) fun _ => consume c a (next n f d)) := fun n f d =>
    keeps_act (.withCq fun _ _ _ _ hx hs he => by cases he; exact C.cq _ _ _ _ hx hs) fun _ => keeps_consume C (hk _ _ _)
  have hrec : ∀ q b w, ActKeeps I (recordAct q b a w) := fun q b w =>
    .withQp fun _ _ _ _ _ hs he => by cases he; exact C.setResp hs
  have hwrid : ∀ (l : List (Option (BitVec 64))) i s b s', I s → readWrid l i s = .ok b s' → I s' := by
    intro l i s b s' hs he
    unfold readWrid at he
    split at he <;> cases he
    exact hs
  refine .ask fun qpn => .ask fun snd => .ask fun wqe => ?_
  refine keeps_underShard C (.same fun s a s' he => by cases he; rfl) fun q => ?_
  split
  · exact hbad _ _ _
  · refine .ask fun via => ?_
    split
    · refine keeps_resolveRef C (keeps_useFault C) fun r => keeps_acquire C (.act actKeeps_readSrq fun i => keeps_release C ?_)
      split
      · exact hbad _ _ _
      · exact keeps_act (.withSrq fun s x b s' _ hs he => hwrid _ _ s b s' hs he) fun w => keeps_srqFree C (.act (hrec _ _ _)
          fun _ =>
          keeps_consume C (hk _ _ _))
    · refine .act actKeeps_readQp fun i => ?_
      split
      · exact hbad _ _ _
      · refine keeps_act (.withQp fun s x b s' _ hs he => hwrid _ _ s b s' hs he) fun w =>
          keeps_act (.withQp fun s x _ _ hx hs he => by cases he; exact C.qp _ _ _ _ hx (setRing_state _ _ _) hs) fun num =>
          .act (hrec _ _ _) fun _ => .ask fun due => ?_
        split
        · exact keeps_consume C (hk _ _ _)
        · refine .act (actKeeps_legacyErr C) fun keep => ?_
          split
          · exact keeps_consume C (hk _ _ _)
          · exact keeps_keepErr C (hk _ _ _)

theorem keeps_pollEnd (C : Closed I) {c n freed derr : Nat} : Keeps I (pollEnd c n freed derr) :=
  keeps_ciPublish C (keeps_release C (.eff (fun _ hs => C.setResp hs) (keeps_respond C)))

theorem keeps_pollLoop (C : Closed I) {c mx fuel n freed derr : Nat} : Keeps I (pollLoop c mx fuel n freed derr) := by
  induction fuel generalizing n freed derr with
  | zero => exact keeps_pollEnd C
  | succ fuel ih =>
    unfold pollLoop
    split
    · refine .act actKeeps_readCq fun a => .ask fun hw => ?_
      split
      · exact keeps_pollEnd C
      · exact .eff (fun _ hs => C.rmb hs) (keeps_pollOne C fun _ _ _ => ih)
    · exact keeps_pollEnd C

theorem keeps_pollOn (C : Closed I) {op : Operands} {k : Nat → Prog} (hk : ∀ c, Keeps I (k c)) : Keeps I (pollOn op k) :=
  keeps_precond C (keeps_resolve C (keeps_raise C) fun _ => keeps_acquire C (hk _))

theorem keeps_pollCqProg (C : Closed I) (op : Operands) : Keeps I (pollCqProg op) :=
  keeps_pollOn C fun _ => .act actKeeps_readCq fun _ => keeps_pollLoop C

theorem keeps_reqNotifyCqProg (C : Closed I) (sol : Bool) (op : Operands) : Keeps I (reqNotifyCqProg sol op) := by
  refine keeps_precond C (keeps_resolve C (keeps_raise C) fun c => keeps_acquire C (.ask fun mf => ?_))
  split
  · exact keeps_act (.withCq fun _ _ _ _ hx hs he => by cases he; exact C.cq _ _ _ _ (by simpa using hx) (C.ring hs)) fun _ =>
      keeps_release C (keeps_respond C)
  · refine .act actKeeps_readCq fun sn => .act actKeeps_readCq fun ci => keeps_act (.withCq fun _ _ _ _ _ hs he => ?_) fun _ =>
      keeps_act (.withCq fun _ _ _ _ hx hs he => by cases he; exact C.cq _ _ _ _ (by simpa using hx) (C.ring hs)) fun _ =>
        keeps_release C (keeps_respond C)
    cases he
    split
    · exact C.memWrite (C.wmb hs)
    · exact C.wmb hs

theorem keeps_destroyCqSteps (C : Closed I) {h : Handle} {keep : Bool} {fin : Status → Prog} (hf : ∀ st, Keeps I (fin st)) :
    Keeps I (destroyCqSteps h keep fin) :=
  keeps_resolve C (hf _) fun _ => keeps_removeUnattached C hf (keeps_mailbox C fun _ => keeps_keepStatus C
    (keeps_freeRec C (keeps_freeRec C (.eff (fun _ hs => C.eraseCq _ _ (C.hold hs)) (hf _)))))

/-! ### SRQs -/

theorem keeps_createSrqProg (C : Closed I) (op : Operands) : Keeps I (createSrqProg op) := by
  refine keeps_precond C (.ask fun bad => ?_)
  split
  · exact keeps_raise C
  · refine .guard (keeps_allocRecs C (keeps_insert C (fun s i g h hs => C.newSrq s i g op.srqn _ hs)
      (keeps_freeTaken C (keeps_raise C)) fun c => keeps_act (.withSrq fun s x _ _ _ hs he => ?_) fun _ =>
        keeps_mailbox C fun fw => keeps_setFwStatus C ?_))
    · cases he; exact C.writes (writes_fill s _ _ _) hs
    · split
      · exact keeps_removeNew C (.eff (fun _ hs => C.eraseSrq _ _ hs) (keeps_freeTaken C (keeps_raise C)))
      · exact .eff (fun _ hs => C.setResp hs) (keeps_respond C)

theorem keeps_destroySrqSteps (C : Closed I) {h : Handle} {keep : Bool} {fin : Status → Prog} (hf : ∀ st, Keeps I (fin st)) :
    Keeps I (destroySrqSteps h keep fin) :=
  keeps_resolve C (hf _) fun _ => keeps_removeUnattached C hf (keeps_mailbox C fun _ => keeps_keepStatus C
    (keeps_freeRec C (.eff (fun _ hs => C.eraseSrq _ _ (C.hold hs)) (hf _))))

/-! ### QPs -/

theorem keeps_undoCreateQp (C : Closed I) {q : Nat} {done : List Handle} : Keeps I (undoCreateQp q done) := by
  refine keeps_removeNew C (.eff (fun _ hs => C.eraseQp _ _ hs) (keeps_freeTaken C ?_))
  have : ∀ (l : List Handle) (k : Prog), Keeps I k → Keeps I (l.foldl (fun k h => detach .cq (fun _ => some h) k) k) := by
    intro l
    induction l with
    | nil => exact fun _ hk => hk
    | cons h l ih => exact fun k hk => ih _ (keeps_detach C hk)
  exact this _ _ (keeps_raise C)

theorem keeps_createQpProg (C : Closed I) (op : Operands) : Keeps I (createQpProg op) := by
  have hsrq : ∀ k, Keeps I k → Keeps I (resolveSrqOperand op k) := by
    intro k hk
    unfold resolveSrqOperand
    split
    · exact hk
    · exact keeps_resolve C (keeps_raise C) fun _ => hk
  have hat : ∀ g k, Keeps I g → Keeps I k → Keeps I (attachSrqOperand op g k) := by
    intro g k hg hk
    unfold attachSrqOperand
    split
    · exact hk
    · exact keeps_attach C hg hk
  refine keeps_precond C (keeps_resolve C (keeps_raise C) fun _ => keeps_resolve C (keeps_raise C) fun _ =>
    hsrq _ (.ask fun bad => ?_))
  split
  · exact keeps_raise C
  · refine .guard (keeps_allocRecs C (keeps_insert C (fun s i g h hs => C.newQp s i g op.qpn _ hs)
      (keeps_freeTaken C (keeps_raise C)) fun q => keeps_act (.withQp fun s x _ _ _ hs he => ?_) fun _ =>
        keeps_attach C (keeps_undoCreateQp C) (keeps_attach C (keeps_undoCreateQp C) (hat _ _ (keeps_undoCreateQp C)
          (.eff (fun _ hs => C.setResp hs) (keeps_respond C))))))
    cases he; exact C.writes (writes_fill s _ _ _) hs

theorem keeps_note (C : Closed I) {q : Nat} {new : QpState} {fw : Nat} {s : State} (hs : I s) : I (noteTransition q new fw s) := by
  unfold noteTransition
  split
  · exact C.quiet _ _ hs
  · exact hs

theorem keeps_portCalls (C : Closed I) {q : Nat} {cur new : QpState} {k : Prog} (hk : Keeps I k) :
    Keeps I (portCalls q cur new k) := by
  refine .act actKeeps_readQp fun c => ?_
  repeat' split
  all_goals first
    | exact keeps_mailbox C fun _ => .eff (fun _ hs => C.setResp hs) hk
    | exact hk

theorem keeps_resetRing (C : Closed I) {q : Nat} {isSend : Bool} {k : Prog} (hk : Keeps I k) : Keeps I (resetRing q isSend k) := by
  refine keeps_acquire C (keeps_act (.withQp fun _ _ _ _ hx hs he => ?_)
      fun _ => keeps_act (.withQp fun s x _ _ _ hs he => ?_) fun _ =>
    keeps_release C hk)
  · cases he; exact C.qp _ _ _ _ hx (setRing_state _ _ _) hs
  · cases he
    split
    · exact hs
    · exact C.writeRec0 (C.wmb hs)

/-- `MODIFY_QP` keeps what a change of a live QP's cached state does not break either. -/
theorem keeps_modifyQpProg (C : Closed I) (hst : ∀ s q x y, s.qp? q = some x → I s → I (s.setQp q y)) (op : Operands) :
    Keeps I (modifyQpProg op) := by
  refine keeps_precond C (keeps_resolve C (keeps_raise C) fun q => keeps_acquire C (.act actKeeps_readQp fun a => ?_))
  repeat' split
  all_goals first
    | exact keeps_raise C
    | skip
  refine keeps_mailboxNoting C (fun _ _ hs => keeps_note C hs) fun fw => keeps_setFwStatus C ?_
  split
  · exact keeps_raise C
  · refine keeps_act (.withQp fun s x _ _ hx hs he => by cases he; exact hst _ _ _ _ hx hs) fun _ => keeps_portCalls C ?_
    split
    · exact keeps_cleanBoth C (keeps_resetRing C (keeps_resetRing C (keeps_release C (keeps_respond C))))
    · exact keeps_release C (keeps_respond C)

theorem keeps_queryQpProg (C : Closed I) (op : Operands) : Keeps I (queryQpProg op) := by
  refine keeps_precond C (keeps_resolve C (keeps_raise C) fun q => keeps_acquire C (keeps_mailbox C fun fw =>
    keeps_setFwStatus C ?_))
  split
  · exact keeps_raise C
  · exact keeps_act (.withQp fun s x _ _ _ hs he => by cases he; exact C.setResp hs) fun _ => keeps_release C (keeps_respond C)

theorem keeps_removeQpLocked (C : Closed I) {q : Nat} {h : Handle} {gone : Prog} {k : Nat → Prog} (hg : Keeps I gone)
    (hk : ∀ a, Keeps I (k a)) : Keeps I (removeQpLocked q h gone k) := by
  refine .ask fun same => keeps_resolveRef C hg fun c1 => ?_
  split
  · exact keeps_acquire C (keeps_remove C fun _ => keeps_release C (hk _))
  · exact keeps_resolveRef C hg fun c2 => keeps_acquire C (keeps_acquire C (keeps_remove C fun _ =>
      keeps_release C (keeps_release C (hk _))))

theorem keeps_destroyQpSteps (C : Closed I) {h : Handle} {keep : Bool} {fin : Status → Prog} (hf : ∀ st, Keeps I (fin st)) :
    Keeps I (destroyQpSteps h keep fin) := by
  have hfin : ∀ q k, Keeps I k → Keeps I (finalReset q keep k) := by
    intro q k hk
    refine .ask fun a => ?_
    split
    · exact hk
    · exact keeps_mailboxNoting C (fun _ _ hs => keeps_note C hs) fun fw => keeps_keepStatus C hk
  have hdet : ∀ q k, Keeps I k → Keeps I (detachSrq q k) := by
    intro q k hk
    refine .ask fun a => ?_
    split
    · exact hk
    · exact keeps_detach C hk
  refine keeps_resolveBy C (actKeeps_resolveDestroy C) (hf _) fun q => keeps_removeQpLocked C (hf _) fun a => ?_
  split
  · exact hf _
  · exact .waitFor (keeps_acquire C (hfin _ _ (keeps_cleanBoth C (keeps_freeRec C (keeps_freeRec C (keeps_detach C
      (keeps_detach C (hdet _ _ (keeps_release C (.eff (fun _ hs => C.eraseQp _ _ (C.hold hs)) (hf _)))))))))))

end Sys2Proof.Machine
end

