-- ==== Sys2Proof/Laws/ExecKept.lean ====
section
/-! SUPPORT. A closed property is kept by every instruction: `exec_keeps` says which further updates the instructions make that start
and stop the instance, change a QP's cached state or handle an event, and `runWord_keeps` carries it to a decoded word. -/

namespace Sys2Proof.Machine

open Sys2Proof

variable {I : State → Prop}

/-- The updates of the instance flags (R22), by `DEVICE_START`, `DEVICE_STOP` and a fatal failure. -/
def FlagsKept (I : State → Prop) : Prop :=
  (∀ s b, I s → I (s.setFatal b)) ∧ (∀ s b, I s → I (s.setStarted b)) ∧ ∀ s a, I s → I (s.setRecBase a)

/-- A live QP's cached state, changed. -/
def QpsKept (I : State → Prop) : Prop := ∀ s q x y, s.qp? q = some x → I s → I (s.setQp q y)

/-- What the handling of an event changes besides. -/
def EventsKept (I : State → Prop) : Prop := (∀ s, I s → I (s.setCur eventAgent)) ∧ ∀ s l, I s → I (s.setEventQ l)

/-! ### The instance -/

theorem keeps_zeroRecords (C : Closed I) {todo i : Nat} {k : Prog} (hk : Keeps I k) : Keeps I (zeroRecords todo i k) := by
  induction todo generalizing i with
  | zero => exact hk
  | succ n ih => exact .eff (fun _ hs => C.writeRec0 (C.wmb hs)) (.eff (fun _ hs => C.writeRec1 (C.wmb hs)) ih)

theorem keeps_freeAllRecords (C : Closed I) {k : Prog} (hk : Keeps I k) : Keeps I (freeAllRecords k) :=
  keeps_acquire C (.eff (fun _ hs => C.recs _ _ _ hs) (keeps_release C hk))

theorem keeps_deviceStartProg (C : Closed I) (hf : FlagsKept I) (hm : ∀ s m, I s → I (s.setMode m)) (op : Operands) :
    Keeps I (deviceStartProg op) := by
  have hend : Keeps I (eff (fun s => s.setFatal false) <| eff (fun s => s.setStarted true) <| respond .ok none) :=
    .eff (fun _ hs => hf.1 _ _ hs) (.eff (fun _ hs => hf.2.1 _ _ hs) (keeps_respond C))
  refine .ask fun c => ?_
  repeat' split
  · exact keeps_raise C
  · exact keeps_raise C
  · refine .eff (fun _ hs => hm _ _ hs) ?_
    unfold startRecords
    split
    · exact hend
    · exact .guard (.eff (fun _ hs => hf.2.2 _ _ hs) (.ask fun _ => keeps_zeroRecords C (keeps_freeAllRecords C hend)))

theorem keeps_destroySteps (C : Closed I) {kind : Kind} {h : Handle} {fin : Status → Prog} (hf : ∀ st, Keeps I (fin st)) :
    Keeps I (destroySteps kind h fin) := by
  cases kind <;> simp only [destroySteps]
  · exact keeps_destroyQpSteps C hf
  · exact keeps_destroyCqSteps C hf
  · exact keeps_destroySrqSteps C hf

theorem keeps_stopLoop (C : Closed I) {kind : Kind} {todo i : Nat} {k : Prog} (hk : Keeps I k) :
    Keeps I (stopLoop kind todo i k) := by
  induction todo generalizing i with
  | zero => exact hk
  | succ n ih =>
    unfold stopLoop
    refine keeps_underShardAt C (.same fun s a s' he => by cases he; rfl) fun g => ?_
    split
    · exact ih
    · exact keeps_destroySteps C fun _ => ih

theorem keeps_deviceStopProg (C : Closed I) (hf : FlagsKept I) (hv : ∀ s l, I s → I (s.setEventQ l)) (op : Operands) : Keeps I (deviceStopProg op) := by
  have hk : ∀ kind k, Keeps I k → Keeps I (stopKind kind k) := fun kind k hk => .ask fun _ => keeps_stopLoop C hk
  exact keeps_precond C (hk _ _ (hk _ _ (hk _ _ (.eff (fun _ hs => hf.2.1 _ _ (C.agents _ _ (C.unlock _ _ (hv _ _ hs))))
    (.eff (fun _ hs => hf.1 _ _ hs) (keeps_freeAllRecords C (keeps_respond C)))))))

/-! ### Events -/

theorem keeps_whileStarted (C : Closed I) {k : Prog} (hk : Keeps I k) : Keeps I (whileStarted k) := by
  refine .ask fun b => ?_
  split
  · exact keeps_done C
  · exact hk

theorem keeps_eventCompletionProg (C : Closed I) (num : Num24) (op : Operands) : Keeps I (eventCompletionProg num op) := by
  refine keeps_whileStarted C (.act (actKeeps_acquire C _) fun _ => .act (fun s a s' hs he => ?_) fun c => ?_)
  · unfold armSnNextAct at he
    split at he
    · cases he; exact hs
    · simp only [withCq] at he
      split at he <;> cases he
      exact C.cq _ _ _ _ ‹_› hs
  · split
    · exact .act (actKeeps_release C _) fun _ => keeps_done C
    · exact .eff (fun _ hs => C.emit _ _ hs) (.act (actKeeps_release C _) fun _ => keeps_done C)

theorem onQp_keeps {q : Nat} {f : State → Qp → State} {s : State} (h : ∀ x, s.qp? q = some x → I s → I (f s x)) (hs : I s) :
    I (onQp q f s) := by
  unfold onQp
  split
  · exact h _ ‹_› hs
  · exact hs

theorem keeps_unref (C : Closed I) {q i : Nat} {k : Prog} (hk : Keeps I k) : Keeps I (unref q i k) :=
  keeps_underShardAt C (fun _ _ _ hs he => by cases he; exact onQp_keeps (fun _ hx hs => C.qp _ _ _ _ hx rfl hs) hs) fun _ => hk

theorem keeps_eventQpProg (C : Closed I) (num : Num24) (ty : Byte) (hq : ty = 2 → QpsKept I) (op : Operands) :
    Keeps I (eventQpProg num ty op) := by
  unfold eventQpProg
  split
  · exact keeps_done C
  · refine keeps_whileStarted C (.ask fun i => keeps_underShardAt C (fun s a s' hs he => ?_) fun q => ?_)
    · unfold refNumAct at he
      split at he
      · cases he; exact hs
      · simp only [withQp] at he
        split at he <;> cases he
        exact C.qp _ _ _ _ ‹_› (by simp) hs
    · split
      · exact keeps_done C
      · refine keeps_acquire C (.eff (fun s hs => onQp_keeps (fun x hx hs => ?_) hs) (keeps_release C
          (.eff (fun _ hs => onQp_keeps (fun _ _ hs => C.emit _ _ hs) hs) (keeps_unref C (keeps_done C)))))
        split
        · exact hq ‹_ ∧ _›.1 _ _ _ _ hx hs
        · exact hs

theorem keeps_fatalLoop (C : Closed I) (hq : QpsKept I) {todo i : Nat} {k : Prog} (hk : Keeps I k) :
    Keeps I (fatalLoop todo i k) := by
  induction todo generalizing i with
  | zero => exact hk
  | succ n ih =>
    refine keeps_underShardAt C (fun s a s' hs he => ?_) fun q => ?_
    · unfold refEntryAct at he
      split at he
      · cases he; exact hs
      · simp only [withQp] at he
        split at he <;> cases he
        exact C.qp _ _ _ _ ‹_› (by simp) hs
    · split
      · exact ih
      · exact keeps_acquire C (.eff (fun _ hs => onQp_keeps (fun _ hx hs => hq _ _ _ _ hx hs) hs) <|
          keeps_release C (keeps_unref C ih))

theorem keeps_eventFatalProg (C : Closed I) (hf : FlagsKept I) (hq : QpsKept I) (op : Operands) :
    Keeps I (eventFatalProg op) :=
  keeps_whileStarted C (.eff (fun _ hs => hf.1 _ _ hs) (.ask fun _ => keeps_fatalLoop C hq
    (.eff (fun _ hs => C.emit _ _ hs) (keeps_done C))))

/-! ### The other rows -/

theorem keeps_linkOn (C : Closed I) {rr : RingRef} {w : Word} {e : State → Bool} : Keeps I (linkOn rr w e) := by
  refine .ask fun a => ?_
  split
  · exact keeps_raise C
  · refine .act (fun s a s' hs he => ?_) fun _ => keeps_release C (keeps_respond C)
    unfold linkWriteAct at he
    split at he <;> cases he
    exact C.memWrite hs

theorem keeps_sendLinkProg (C : Closed I) (w : Word) (op : Operands) : Keeps I (sendLinkProg w op) :=
  keeps_postSendOn C fun _ => keeps_linkOn C

theorem keeps_recvLinkProg (C : Closed I) (w : Word) (op : Operands) : Keeps I (recvLinkProg w op) := by
  unfold recvLinkProg
  split
  · exact keeps_postRecvOn C fun _ => keeps_linkOn C
  · exact keeps_precond C (keeps_resolve C (keeps_raise C) fun _ => keeps_acquire C (keeps_linkOn C))

theorem keeps_cqeProg (C : Closed I) (i : Instr) (op : Operands) : Keeps I (cqeProg i op) := by
  refine keeps_pollOn C fun c => .act actKeeps_readCq fun a => .ask fun hw => ?_
  split
  · exact keeps_pollEnd C
  · refine .eff (fun _ hs => C.rmb hs) (.ask fun same => ?_)
    split
    · exact keeps_pollEnd C
    · exact keeps_pollOne C fun _ _ _ => keeps_pollEnd C

theorem keeps_onCqNum (C : Closed I) {s : State} {num : Num24} {f : Cq → Cq} (hs : I s) : I (s.onCqNum num f) := by
  unfold State.onCqNum
  split
  · exact hs
  · split
    · exact hs
    · exact C.cq _ _ _ _ ‹_› hs

theorem rungAt_state (x : Qp) (isSend : Bool) (off : Nat) : (x.rungAt isSend off).state = x.state := by
  unfold Qp.rungAt
  split
  · rfl
  · exact setRing_state ..

theorem keeps_onQpNum (C : Closed I) {s : State} {num : Num24} {f : Qp → Qp} (hf : ∀ x, (f x).state = x.state) (hs : I s) :
    I (s.onQpNum num f) := by
  unfold State.onQpNum
  split
  · exact hs
  · split
    · exact hs
    · exact C.qp _ _ _ _ ‹_› (hf _) hs

theorem keeps_onSrqNum (C : Closed I) {s : State} {num : Num24} {f : Srq → Srq} (hs : I s) : I (s.onSrqNum num f) := by
  unfold State.onSrqNum
  split
  · exact hs
  · split
    · exact hs
    · exact C.srq _ _ _ _ ‹_› hs

theorem keeps_deviceGets (C : Closed I) {s : State} {i : Instr} (hs : I s) : I (s.deviceGets i) := by
  unfold State.deviceGets
  split
  any_goals exact hs
  all_goals
    first
    | exact keeps_onQpNum C (fun x => rungAt_state x _ _) hs
    | exact keeps_onSrqNum C hs
    | exact keeps_onCqNum C hs

theorem keeps_doorbellProg (C : Closed I) (mode : Mode) (reg : DbReg) (i : Instr) (op : Operands) :
    Keeps I (doorbellProg mode reg i op) := by
  refine .ask fun a => ?_
  split
  · exact keeps_done C
  · exact .eff (fun _ hs => keeps_deviceGets C (C.ring hs)) (keeps_done C)

theorem keeps_dbrecProg (C : Closed I) (r : Word) (i : Instr) (op : Operands) : Keeps I (dbrecProg r i op) := by
  refine .ask fun a => ?_
  split
  · exact keeps_done C
  · exact .eff (fun _ hs => C.wmb hs) (.eff (fun _ hs => C.reads _ _ _ (C.writeRec0 hs)) (.eff (fun _ hs => C.wmb hs)
      (.eff (fun _ hs => C.writeRec1 hs) (keeps_done C))))

/-! ### Instructions and steps -/

theorem runCmd_keeps (C : Closed I) {i : Instr} {p : Operands → Prog} (hp : ∀ op, Keeps I (p op)) {s t : State} (hs : I s)
    (h : runCmd i p s = .next t) : I t :=
  Keeps.runCmd (fun _ _ hs => C.park hs) (fun _ _ hs => C.beginCmd hs) hp hs h

theorem runOn_keeps (C : Closed I) {i : Instr} {p : Operands → Prog} (hp : ∀ op, Keeps I (p op)) {s t : State} (hs : I s)
    (h : runOn i p s = .next t) : I t :=
  Keeps.runOn (fun _ _ hs => C.park hs) (fun _ _ hs => C.beginCmd hs) hp hs h

theorem runEvent_keeps (C : Closed I) (he : EventsKept I) {i : Instr} {p : Operands → Prog} (hp : ∀ op, Keeps I (p op))
    {s t : State} (hs : I s) (h : runEvent i p s = .next t) : I t := by
  simp only [runEvent] at h
  split at h
  · exact runOn_keeps C hp (he.1 _ hs) h
  · split at h
    · exact runOn_keeps C hp (he.1 _ hs) h
    · cases h; exact he.2 _ _ (he.1 _ hs)

/-- What no elementary update of an instruction breaks, the instruction keeps. -/
theorem exec_keeps (C : Closed I) (he : EventsKept I) {i : Instr}
    (hf : i = .deviceStart ∨ i = .deviceStop ∨ i = .eventFatal → FlagsKept I)
    (hm : i = .deviceStart → ∀ s m, I s → I (s.setMode m))
    (hq : i = .modifyQp ∨ i = .eventFatal ∨ (∃ num, i = .eventQp num 2) → QpsKept I)
    {s t : State} (hs : I s) (h : exec i s = .next t) : I t := by
  cases i with
  | deviceStart => exact runCmd_keeps C (keeps_deviceStartProg C (hf (.inl rfl)) (hm rfl)) hs h
  | deviceStop => exact runCmd_keeps C (keeps_deviceStopProg C (hf (.inr (.inl rfl))) he.2) hs h
  | createQp => exact runCmd_keeps C (keeps_createQpProg C) hs h
  | modifyQp => exact runCmd_keeps C (keeps_modifyQpProg C (hq (.inl rfl))) hs h
  | queryQp => exact runCmd_keeps C (keeps_queryQpProg C) hs h
  | destroyQp => exact runCmd_keeps C (fun _ => keeps_precond C (keeps_destroyQpSteps C (keeps_endWith C))) hs h
  | postSend => exact runCmd_keeps C (keeps_postSendProg C) hs h
  | postRecv => exact runCmd_keeps C (keeps_postRecvProg C) hs h
  | createCq => exact runCmd_keeps C (keeps_createCqProg C) hs h
  | pollCq => exact runCmd_keeps C (keeps_pollCqProg C) hs h
  | reqNotifyCq sol => exact runCmd_keeps C (keeps_reqNotifyCqProg C sol) hs h
  | destroyCq => exact runCmd_keeps C (fun _ => keeps_precond C (keeps_destroyCqSteps C (keeps_endWith C))) hs h
  | createSrq => exact runCmd_keeps C (keeps_createSrqProg C) hs h
  | postSrqRecv => exact runCmd_keeps C (keeps_postSrqRecvProg C) hs h
  | destroySrq => exact runCmd_keeps C (fun _ => keeps_precond C (keeps_destroySrqSteps C (keeps_endWith C))) hs h
  | illegalCommand w => exact runCmd_keeps C (fun _ => keeps_raise C) hs h
  | wrRdmaWrite => exact runCmd_keeps C (fun _ => keeps_postSendProg C _) hs h
  | wrRdmaWriteImm => exact runCmd_keeps C (fun _ => keeps_postSendProg C _) hs h
  | wrSend => exact runCmd_keeps C (fun _ => keeps_postSendProg C _) hs h
  | wrSendImm => exact runCmd_keeps C (fun _ => keeps_postSendProg C _) hs h
  | wrRdmaRead => exact runCmd_keeps C (fun _ => keeps_postSendProg C _) hs h
  | wrAtomicCs => exact runCmd_keeps C (fun _ => keeps_postSendProg C _) hs h
  | wrAtomicFa => exact runCmd_keeps C (fun _ => keeps_postSendProg C _) hs h
  | wrReserved7 => exact runCmd_keeps C (fun _ => keeps_postSendProg C _) hs h
  | wqeOpNop nda => exact runCmd_keeps C (fun _ => keeps_respond C) hs h
  | wqeOpRecvLink nda => exact runCmd_keeps C (keeps_recvLinkProg C _) hs h
  | wqeOpRdmaWrite nda => exact runCmd_keeps C (keeps_sendLinkProg C _) hs h
  | wqeOpRdmaWriteImm nda => exact runCmd_keeps C (keeps_sendLinkProg C _) hs h
  | wqeOpSend nda => exact runCmd_keeps C (keeps_sendLinkProg C _) hs h
  | wqeOpSendImm nda => exact runCmd_keeps C (keeps_sendLinkProg C _) hs h
  | wqeOpRdmaRead nda => exact runCmd_keeps C (keeps_sendLinkProg C _) hs h
  | wqeOpAtomicCs nda => exact runCmd_keeps C (keeps_sendLinkProg C _) hs h
  | wqeOpAtomicFa nda => exact runCmd_keeps C (keeps_sendLinkProg C _) hs h
  | cqeError send => exact runCmd_keeps C (keeps_cqeProg C _) hs h
  | cqeSend08 => exact runCmd_keeps C (keeps_cqeProg C _) hs h
  | cqeSend09 => exact runCmd_keeps C (keeps_cqeProg C _) hs h
  | cqeSend0A => exact runCmd_keeps C (keeps_cqeProg C _) hs h
  | cqeSend0B => exact runCmd_keeps C (keeps_cqeProg C _) hs h
  | cqeSend10 => exact runCmd_keeps C (keeps_cqeProg C _) hs h
  | cqeSend11 => exact runCmd_keeps C (keeps_cqeProg C _) hs h
  | cqeSend12 => exact runCmd_keeps C (keeps_cqeProg C _) hs h
  | cqeSend18 => exact runCmd_keeps C (keeps_cqeProg C _) hs h
  | cqeSendOther b => exact runCmd_keeps C (keeps_cqeProg C _) hs h
  | cqeRecv03 b => exact runCmd_keeps C (keeps_cqeProg C _) hs h
  | cqeRecv05 b => exact runCmd_keeps C (keeps_cqeProg C _) hs h
  | cqeRecv09 b => exact runCmd_keeps C (keeps_cqeProg C _) hs h
  | cqeRecv0B b => exact runCmd_keeps C (keeps_cqeProg C _) hs h
  | cqeRecvOther b => exact runCmd_keeps C (keeps_cqeProg C _) hs h
  | eventCompletion num => exact runEvent_keeps C he (keeps_eventCompletionProg C num) hs h
  | eventQp num ty =>
      exact runEvent_keeps C he (keeps_eventQpProg C num ty fun h => hq (.inr (.inr ⟨num, by rw [h]⟩))) hs h
  | eventFatal => exact runEvent_keeps C he (keeps_eventFatalProg C (hf (.inr (.inr rfl))) (hq (.inr (.inl rfl)))) hs h
  | eventOther kind => exact runEvent_keeps C he (fun _ => keeps_done C) hs h
  | dbLegacySend w f o n z => exact runCmd_keeps C (keeps_doorbellProg C _ _ _) hs h
  | dbLegacyRecv w z n k => exact runCmd_keeps C (keeps_doorbellProg C _ _ _) hs h
  | dbLegacySrq w n k => exact runCmd_keeps C (keeps_doorbellProg C _ _ _) hs h
  | dbLegacyCqInc n k => exact runCmd_keeps C (keeps_doorbellProg C _ _ _) hs h
  | dbLegacyCqArm f n => exact runCmd_keeps C (keeps_doorbellProg C _ _ _) hs h
  | dbMemfreeSend k hd f o n z => exact runCmd_keeps C (keeps_doorbellProg C _ _ _) hs h
  | dbMemfreeCqArm n f c w => exact runCmd_keeps C (keeps_doorbellProg C _ _ _) hs h
  | dbrecMemfree r w n t l => exact runCmd_keeps C (keeps_dbrecProg C _ _) hs h

theorem runWord_keeps (C : Closed I) (he : EventsKept I) (hf : FlagsKept I) (hm : ∀ s m, I s → I (s.setMode m))
    (hq : QpsKept I) {f : Format} {bytes : List Byte} {s t : State} (hs : I s) (h : runWord f bytes s = .next t) : I t := by
  unfold runWord at h
  split at h
  · exact exec_keeps C he (fun _ => hf) (fun _ => hm) (fun _ => hq) hs h
  · cases h

end Sys2Proof.Machine
end

