-- ==== Sys2Proof/Laws/PerInstr.lean ====
section
/-! SUPPORT. The family DecodeEncode, one lemma per instruction: the encoding of a well-formed instruction decodes to it. -/

namespace Sys2Proof.Laws.DecodeEncode

open Sys2Proof

/-- The encoding of the instruction, where it is well formed, decodes to the instruction. -/
def Statement (i : Instr) : Prop := i.wf = true → decode (encode i).1 (encode i).2 = .ok i

theorem deviceStart : Statement .deviceStart := fun _ => rfl

theorem deviceStop : Statement .deviceStop := fun _ => rfl

theorem createQp : Statement .createQp := fun _ => rfl

theorem modifyQp : Statement .modifyQp := fun _ => rfl

theorem queryQp : Statement .queryQp := fun _ => rfl

theorem destroyQp : Statement .destroyQp := fun _ => rfl

theorem postSend : Statement .postSend := fun _ => rfl

theorem postRecv : Statement .postRecv := fun _ => rfl

theorem createCq : Statement .createCq := fun _ => rfl

theorem pollCq : Statement .pollCq := fun _ => rfl

theorem reqNotifyCq (sol : Bool) : Statement (.reqNotifyCq sol) := fun _ => by cases sol <;> rfl

theorem destroyCq : Statement .destroyCq := fun _ => rfl

theorem createSrq : Statement .createSrq := fun _ => rfl

theorem postSrqRecv : Statement .postSrqRecv := fun _ => rfl

theorem destroySrq : Statement .destroySrq := fun _ => rfl

theorem illegalCommand (w : Word) : Statement (.illegalCommand w) := fun h => by
  show decode .command (wordBytes w) = _
  rw [decode_command]
  unfold Instr.wf isCommandWord at h
  cases hd : decodeCommand w with
  | illegalCommand v => rw [decodeCommand_illegal hd]
  | _ => simp [hd] at h

theorem wrRdmaWrite : Statement .wrRdmaWrite := fun _ => rfl

theorem wrRdmaWriteImm : Statement .wrRdmaWriteImm := fun _ => rfl

theorem wrSend : Statement .wrSend := fun _ => rfl

theorem wrSendImm : Statement .wrSendImm := fun _ => rfl

theorem wrRdmaRead : Statement .wrRdmaRead := fun _ => rfl

theorem wrAtomicCs : Statement .wrAtomicCs := fun _ => rfl

theorem wrAtomicFa : Statement .wrAtomicFa := fun _ => rfl

theorem wrReserved7 : Statement .wrReserved7 := fun _ => rfl

theorem wqeOpNop (nda : BitVec 26) : Statement (.wqeOpNop nda) := fun _ => by
  unfold encode
  simp only [decode_link, decodeLink, linkWord_nda, linkWord_op]
  rfl

theorem wqeOpRecvLink (nda : BitVec 26) : Statement (.wqeOpRecvLink nda) := fun _ => by
  unfold encode
  simp only [decode_link, decodeLink, linkWord_nda, linkWord_op]
  rfl

theorem wqeOpRdmaWrite (nda : BitVec 26) : Statement (.wqeOpRdmaWrite nda) := fun _ => by
  unfold encode
  simp only [decode_link, decodeLink, linkWord_nda, linkWord_op]
  rfl

theorem wqeOpRdmaWriteImm (nda : BitVec 26) : Statement (.wqeOpRdmaWriteImm nda) := fun _ => by
  unfold encode
  simp only [decode_link, decodeLink, linkWord_nda, linkWord_op]
  rfl

theorem wqeOpSend (nda : BitVec 26) : Statement (.wqeOpSend nda) := fun _ => by
  unfold encode
  simp only [decode_link, decodeLink, linkWord_nda, linkWord_op]
  rfl

theorem wqeOpSendImm (nda : BitVec 26) : Statement (.wqeOpSendImm nda) := fun _ => by
  unfold encode
  simp only [decode_link, decodeLink, linkWord_nda, linkWord_op]
  rfl

theorem wqeOpRdmaRead (nda : BitVec 26) : Statement (.wqeOpRdmaRead nda) := fun _ => by
  unfold encode
  simp only [decode_link, decodeLink, linkWord_nda, linkWord_op]
  rfl

theorem wqeOpAtomicCs (nda : BitVec 26) : Statement (.wqeOpAtomicCs nda) := fun _ => by
  unfold encode
  simp only [decode_link, decodeLink, linkWord_nda, linkWord_op]
  rfl

theorem wqeOpAtomicFa (nda : BitVec 26) : Statement (.wqeOpAtomicFa nda) := fun _ => by
  unfold encode
  simp only [decode_link, decodeLink, linkWord_nda, linkWord_op]
  rfl

theorem cqeError (send : Bool) : Statement (.cqeError send) := fun _ => by cases send <;> rfl

theorem cqeSend08 : Statement .cqeSend08 := fun _ => rfl

theorem cqeSend09 : Statement .cqeSend09 := fun _ => rfl

theorem cqeSend0A : Statement .cqeSend0A := fun _ => rfl

theorem cqeSend0B : Statement .cqeSend0B := fun _ => rfl

theorem cqeSend10 : Statement .cqeSend10 := fun _ => rfl

theorem cqeSend11 : Statement .cqeSend11 := fun _ => rfl

theorem cqeSend12 : Statement .cqeSend12 := fun _ => rfl

theorem cqeSend18 : Statement .cqeSend18 := fun _ => rfl

theorem cqeSendOther (opcode : Byte) : Statement (.cqeSendOther opcode) := fun h => by
  revert h; unfold Instr.wf; revert opcode; decide

theorem cqeRecv03 (hi : BitVec 3) : Statement (.cqeRecv03 hi) := fun _ => by revert hi; decide

theorem cqeRecv05 (hi : BitVec 3) : Statement (.cqeRecv05 hi) := fun _ => by revert hi; decide

theorem cqeRecv09 (hi : BitVec 3) : Statement (.cqeRecv09 hi) := fun _ => by revert hi; decide

theorem cqeRecv0B (hi : BitVec 3) : Statement (.cqeRecv0B hi) := fun _ => by revert hi; decide

theorem cqeRecvOther (opcode : Byte) : Statement (.cqeRecvOther opcode) := fun h => by
  revert h; unfold Instr.wf; revert opcode; decide

theorem eventCompletion (num : Num24) : Statement (.eventCompletion num) := fun _ => by
  unfold encode eventWords
  simp only [decode_pair, decodePair, decodeEvent, cons8_hi, cons8_lo]
  rfl

theorem eventQp (num : Num24) (ty : Byte) : Statement (.eventQp num ty) := fun _ => by
  unfold encode eventWords
  simp only [decode_pair, decodePair, decodeEvent, cons8_hi, cons8_lo, setWidth_lo]
  rfl

theorem eventFatal : Statement .eventFatal := fun _ => by decide

theorem eventOther (kind : Byte) : Statement (.eventOther kind) := fun h => by
  revert h; unfold Instr.wf; revert kind; decide

theorem dbLegacySend (wqe : BitVec 26) (fence : Bool) (op : BitVec 5)
    (qpn : Num24) (size : Byte) : Statement (.dbLegacySend wqe fence op qpn size) :=
  fun _ => by
    unfold encode doorbellWords
    simp only [decode_pair, decodePair, decodeLegacyDoorbell, send0_wqe, send0_fence, send0_op, snoc8_hi, snoc8_lo]

theorem dbLegacyRecv (wqe : BitVec 26) (size : BitVec 6) (qpn : Num24) (n : Byte) : Statement (.dbLegacyRecv wqe size qpn n) :=
  fun h => by
    have hs : size ≠ 0 := by simpa [Instr.wf] using h
    unfold encode doorbellWords
    simp only [decode_pair, decodePair, decodeLegacyDoorbell, recv0_wqe, recv0_size, hs, if_false, snoc8_hi, snoc8_lo]

theorem dbLegacySrq (wqe : BitVec 26) (srqn : Num24) (n : Byte) : Statement (.dbLegacySrq wqe srqn n) := fun _ => by
  unfold encode doorbellWords
  simp only [decode_pair, decodePair, decodeLegacyDoorbell, recv0_wqe, recv0_size, if_true, snoc8_hi, snoc8_lo]

theorem dbLegacyCqInc (cqn : Num24) (countLess1 : Word) : Statement (.dbLegacyCqInc cqn countLess1) := fun _ => by
  unfold encode doorbellWords
  simp only [decode_pair, decodePair, decodeLegacyDoorbell, cons8_hi, cons8_lo]
  rfl

theorem dbLegacyCqArm (sol : Bool) (cqn : Num24) : Statement (.dbLegacyCqArm sol cqn) := fun _ => by
  unfold encode doorbellWords
  simp only [decode_pair, decodePair, decodeLegacyDoorbell, cons8_hi, cons8_lo]
  cases sol <;> rfl

theorem dbMemfreeSend (n : Byte) (head0 : BitVec 16) (fence : Bool) (op : BitVec 5) (qpn : Num24) (size : Byte) :
    Statement (.dbMemfreeSend n head0 fence op qpn size) :=
  fun _ => by
    unfold encode doorbellWords
    simp only [decode_pair, decodePair, decodeMemfreeDoorbell, mfSend0_n, mfSend0_head, mfSend0_zero, mfSend0_fence,
      mfSend0_op, snoc8_hi, snoc8_lo, if_true]

theorem dbMemfreeCqArm (sn : BitVec 2) (sol : Bool) (cqn : Num24) (ci : Word) : Statement (.dbMemfreeCqArm sn sol cqn ci) :=
  fun _ => by
    unfold encode doorbellWords
    simp only [decode_pair, decodePair, decodeMemfreeDoorbell, mfArm0_zero, mfArm0_sn, mfArm0_cmd, mfArm0_cqn, if_true]
    cases sol <;> rfl

theorem dbrecMemfree (r : Word) (word0 : Word) (num : Num24) (ty : BitVec 3)
    (low : BitVec 5) : Statement (.dbrecMemfree r word0 num ty low) :=
  fun _ => by
    unfold encode doorbellWords
    simp only [decode_pair, decodePair, rec1_num, rec1_type, rec1_low]

end Sys2Proof.Laws.DecodeEncode
end

