-- ==== Sys2Proof/Laws/Polling.lean ====
section
/-! SUPPORT. What the parts of a poll do, said once each: from the start of the command to the hold of the CQ's lock, the
read of the CQE at the head, the QP's own ring, the return of the CQE's slot, one iteration of the loop and the whole of it, the
end. -/

namespace Sys2Proof.Machine

open Sys2Proof

/-- A poll that holds the lock of its CQ and has made some records. -/
def polling (s : State) (i : Instr) (c : Nat) (wc : List CompRec := []) : State :=
  (s.setMe { op := s.me.op, cmd := some i, uses := [s.me.op.cq], resp := { wc } }).setLocks [(.cq c, s.cur)]

/-- A poll up to the hold of the CQ's lock. -/
theorem runs_pollOn {s : State} {i : Instr} {c : Nat} {k t} (hu : s.unlocked) (h1 : s.started = true)
    (hn : s.names .cq s.me.op.cq c) :
    Runs (pollOn s.me.op k) (s.beginCmd i) t ↔ Runs (k c) (polling s i c) t := by
  have hl : s.locks = [] := hu
  unfold pollOn
  rw [runs_precond (by simpa) (by simp),
    runs_resolve_found (o := c) (by simpa using hn.1) hn.2 (by simp) ((hu.begin _).holder _), runs_acquire]
  have e : ((s.beginCmd i).noteUse true s.me.op.cq).holder (.cq c) = none := hu.holder _
  have e2 : ((s.beginCmd i).noteUse true s.me.op.cq).setLocks
      ((Lock.cq c, ((s.beginCmd i).noteUse true s.me.op.cq).cur) :: ((s.beginCmd i).noteUse true s.me.op.cq).locks)
      = polling s i c := by
    unfold polling
    ext1 <;> simp [State.noteUse, hl]
  rw [e, e2]; simp

/-- The end of a poll that has consumed nothing. -/
theorem pollEnd_zero {s : State} {i c n d t} (hu : s.unlocked) :
    (Runs (pollEnd c n 0 d) (polling s i c) t ↔
      t = s.ended { status := some .ok, n := some (BitVec.ofNat 32 n), decodeErrors := some (BitVec.ofNat 32 d) })
    ∧ (Runs (pollEnd c n 0 d) (polling s i c).rmb t ↔
      t = s.rmb.ended { status := some .ok, n := some (BitVec.ofNat 32 n), decodeErrors := some (BitVec.ofNat 32 d) }) := by
  have hl : s.locks = [] := hu
  constructor <;>
  · unfold pollEnd ciPublish
    simp only [if_true]
    rw [runs_release_newest (l := []) (by simp [polling]) rfl, runs_eff, runs_respond]
    constructor <;> rintro rfl <;> ext1 <;> simp [State.ended, polling, hl]

/-- A CQE row is the poll of one CQE of its kind. -/
theorem exec_cqeRow {i : Instr} (h : cqeRow i = true) (s : State) : exec i s = runCmd i (cqeProg i) s := by
  cases i <;> first | rfl | cases h

/-- The address of the head CQE. -/
theorem runs_head {B : State} {c : Nat} {y : Cq} {k t} (hy : B.cq? c = some y) :
    Runs (.act (headAddrAct c) k) B t ↔ Runs (k y.headAddr) B t := by
  rw [runs_act_ok (by simp only [headAddrAct]; rw [withCq_eq hy])]

/-- A poll of one CQE that waits, up to `POLL_ONE`; after one record it ends. -/
theorem runs_pollsOne {i : Instr} {s : State} {c a : Nat} {y : Cq} (ha : s.alone) (hu : s.unlocked)
    (hc : s.me.cmd = none) (hs : s.slice = none) (h1 : s.started = true) (hn : s.names .cq s.me.op.cq c)
    (hy : s.cq? c = some y) (hh : y.headAddr = a) (hhw : s.cqeHwOwned a = false) (hp : s.pollsOne i a) :
    ∃ next, (∀ f d, next 1 f d = pollEnd c 1 f d) ∧
      ∀ t, Runs (pollOne c a 0 0 0 next) (polling s i c).rmb t → exec i s = .next t := by
  have yA : ∀ i, (polling s i c).cq? c = some y := by intro i; simpa [polling] using hy
  have hwA : ∀ i, (polling s i c).cqeHwOwned y.headAddr = s.cqeHwOwned y.headAddr := by
    intro i; simp [polling, State.cqeHwOwned, State.cqeByte]
  rcases hp with ⟨rfl, hm⟩ | ⟨hr, hm⟩
  · refine ⟨fun n f d => pollLoop c 1 (1 + y.capacity) n f d, fun f d => ?_, fun t ht => ?_⟩
    · rw [show 1 + y.capacity = y.capacity + 1 by omega]; simp [pollLoop]
    · refine runCmd_of_runs hc hs (ha.mayIssue _) ?_
      unfold pollCqProg
      rw [runs_pollOn hu h1 hn, runs_act_ok (by simp only [cqCapacityAct]; rw [withCq_eq (yA _)]), hm]
      simp only [BitVec.ofNat_eq_ofNat, BitVec.toNat_ofNat, pollLoop]
      norm_num
      rw [runs_head (yA _), runs_ask, hwA, hh, hhw]
      simp only [Bool.false_eq_true, if_false, Nat.zero_ne_one, runs_eff]
      exact ht
  · refine ⟨fun n f d => pollEnd c n f d, fun f d => rfl, fun t ht => ?_⟩
    rw [exec_cqeRow hr]
    refine runCmd_of_runs hc hs (ha.mayIssue _) ?_
    unfold cqeProg
    rw [runs_pollOn hu h1 hn, runs_head (yA _), runs_ask, hwA, hh, hhw]
    simp only [Bool.false_eq_true, if_false, Nat.zero_ne_one, runs_eff, runs_ask]
    have : (polling s i c).rmb.cqeMatches i a = true := by
      rw [← hm]; simp [polling, State.cqeMatches, State.cqeByte]
    rw [this]
    exact ht

/-- The return of one CQE slot and the end of the poll. -/
theorem runs_consume {B s : State} {i : Instr} {c a n : Nat} {y : Cq} {d : Nat} {wc : List CompRec} {k : Prog}
    (hk : k = pollEnd c n 1 d) (hl : B.locks = [(.cq c, B.cur)]) (hy : B.cq? c = some y)
    (hme : B.me = { op := s.me.op, cmd := some i, uses := [s.me.op.cq], resp := { wc := wc } }) :
    Runs (consume c a k) B ((((B.setLocks []).memWrite (a + 0x1F) 1 0x80).published c y).ended
      { status := some .ok, n := some (BitVec.ofNat 32 n), decodeErrors := some (BitVec.ofNat 32 d), wc := wc }) := by
  unfold consume
  rw [runs_eff, hk]
  unfold pollEnd ciPublish
  rw [if_neg (by simp)]
  rw [runs_act_ok (by simp only [advanceConsAct]; rw [withCq_eq (x := y) (by simpa using hy)])]
  cases hm : B.mode
  · rw [runs_act_ok (by
      simp only [ciPublishAct]; rw [withCq_eq (x := { y with consIndex := y.consIndex + BitVec.ofNat 32 1 }) (by simp)])]
    rw [runs_release_newest (l := []) (by simp [hm, State.ring, hl]) rfl, runs_eff, runs_respond]
    ext1 <;> simp [hm, State.ring, State.published, State.ended, Cq.tookInc, hme, State.regOff]
  · rw [runs_act_ok (by
      simp only [ciPublishAct]; rw [withCq_eq (x := { y with consIndex := y.consIndex + BitVec.ofNat 32 1 }) (by simp)])]
    rw [runs_release_newest (l := []) (by cases y.setCiRec <;> simp [hm, State.writeRec0, hl]) rfl, runs_eff,
      runs_respond]
    cases hci : y.setCiRec <;> ext1 <;> simp [hm, State.writeRec0, State.published, State.ended, Cq.tookIndex, hme, hci]

/-- The send flag, as an answer of a step. -/
theorem ofNat_isSend (b : Bool) : decide ((if b then 1 else 0 : Nat) = 1) = b := by cases b <;> rfl

/-- `POLL_ONE` up to the QP that the CQE's number names. -/
theorem runs_pollOne {s : State} {i : Instr} {c a n f d : Nat} {wc : List CompRec} {next t} (hu : s.unlocked) :
    Runs (pollOne c a n f d next) (polling s i c wc).rmb t ↔
    Runs (
      let q := (s.lookupNum .qp (s.cqeQpn a)).getD 0
      let isSend := s.cqeIsSend a
      let wqe := (s.cqeWord a 0x18).toNat
      if q = 0 then .act (decodeErrorAct c) fun _ => consume c a <| next n (f + 1) (d + 1)
      else ask (fun st => if isSend = false ∧ (st.srqHandle q).isSome then 1 else 0) fun viaSrq =>
      if viaSrq = 1 then
        resolveRef .srq (fun st => st.srqHandle q) useFault fun r =>
        acquire (.srq r) <| .act (srqIndexAct r wqe) fun i => release (.srq r) <|
        if i = 0 then .act (decodeErrorAct c) fun _ => consume c a <| next n (f + 1) (d + 1)
        else .act (srqWridAct r (i - 1)) fun w => srqFree r (fun _ => i - 1) <| .act (recordAct q isSend a w) fun _ =>
          consume c a <| next (n + 1) (f + 1) d
      else
        .act (qpIndexAct q isSend wqe) fun i =>
        if i = 0 then .act (decodeErrorAct c) fun _ => consume c a <| next n (f + 1) (d + 1)
        else .act (qpWridAct q isSend (i - 1)) fun w =>
          .act (tailAdvanceAct q isSend (i - 1)) fun num => .act (recordAct q isSend a w) fun _ =>
          ask (fun s => s.legacyErrDue a) fun due =>
          if due = 0 then consume c a <| next (n + 1) (f + 1) d
          else .act (legacyErrAct q isSend (i - 1) a num) fun keep =>
            if keep = 0 then consume c a <| next (n + 1) (f + 1) d
            else keepErr a (keep - 1) <| next (n + 1) f d) (polling s i c wc).rmb t := by
  have hl : s.locks = [] := hu
  have e1 : (polling s i c wc).rmb.cqeQpn a = s.cqeQpn a := by
    simp [polling, State.cqeQpn, State.cqeWord, State.memRead]
  have e2 : (polling s i c wc).rmb.cqeIsSend a = s.cqeIsSend a := by simp [polling, State.cqeIsSend, State.cqeByte]
  have e3 : (polling s i c wc).rmb.cqeWord a 0x18 = s.cqeWord a 0x18 := by simp [polling, State.cqeWord, State.memRead]
  have e4 : BitVec.ofNat 24 (s.cqeQpn a).toNat = s.cqeQpn a := by simp
  have e5 : ∀ k, (polling s i c wc).rmb.holder (.shard .qp k) = none := by
    intro k; simp [polling, State.holder, holderIn]
  unfold pollOne
  simp only [runs_ask (s := (polling s i c wc).rmb), e1, e2, e3, ofNat_isSend, e4]
  rw [runs_underShard (a := (s.lookupNum .qp (s.cqeQpn a)).getD 0) (s1 := (polling s i c wc).rmb) (e5 _) ?_ rfl rfl rfl]
  have : ((polling s i c wc).rmb.lockShard .qp ((polling s i c wc).rmb.indexOf .qp (s.cqeQpn a))).lookupNum .qp (s.cqeQpn a)
      = s.lookupNum .qp (s.cqeQpn a) := by
    simp [polling, State.lockShard]
  rw [this]; rfl

/-- A completion record reads memory, the parameters, and of the QP its handle and its number. -/
theorem completion_congr {s s' : State} {x x' : Qp} (hm : s'.mem = s.mem) (hc : s'.cfg = s.cfg) (h1 : x'.self = x.self)
    (h2 : x'.qpn = x.qpn) (b a w) : completion s' x' b a w = completion s x b a w := by
  unfold completion
  have e1 : ∀ o, s'.cqeByte a o = s.cqeByte a o := by intro o; simp [State.cqeByte, hm]
  have e2 : ∀ o, s'.cqeWord a o = s.cqeWord a o := by intro o; simp [State.cqeWord, State.memRead, hm]
  have e3 : ∀ o n, s'.memRead o n = s.memRead o n := by intro o n; simp [State.memRead, hm]
  simp only [e1, e2, e3, hc, h1, h2]

/-- A ring's slots stand where they stood when its WQEs are retired. -/
theorem retire_slotAddr (x : Qp) (isSend : Bool) (idx i : Nat) :
    (x.setRing isSend ((x.ring isSend).retire idx)).slotAddr isSend i = x.slotAddr isSend i := by cases isSend <;> rfl

/-- A CQE of a QP's own ring, up to its record: the ring's tail has moved on. -/
theorem runs_ownRing {s : State} {i : Instr} {c a n f d q idx : Nat} {x : Qp} {w : BitVec 64} {isSend : Bool}
    {wc : List CompRec}
    {next : Nat → Nat → Nat → Prog} {t} (hu : s.unlocked) (hq : s.lookupNum .qp (s.cqeQpn a) = some q) (hq0 : q ≠ 0)
    (hx : s.qp? q = some x) (hsnd : s.cqeIsSend a = isSend) (hsrq : isSend = false → x.srq = none)
    (hidx : x.wqeIndex isSend (s.cqeWord a 0x18).toNat = some idx) (hw : (x.ring isSend).wrid.getD idx none = some w) :
    Runs (pollOne c a n f d next) (polling s i c wc).rmb t ↔
    Runs (
      if s.legacyErrDue a = 0 then consume c a <| next (n + 1) (f + 1) d
      else .act (legacyErrAct q isSend idx a ((x.ring isSend).doneTo idx)) fun keep =>
        if keep = 0 then consume c a <| next (n + 1) (f + 1) d else keepErr a (keep - 1) <| next (n + 1) f d)
      (polling (s.rmb.setQp q (x.setRing isSend ((x.ring isSend).retire idx))) i c (wc ++ [completion s x isSend a w])) t := by
  rw [runs_pollOne hu, hq]
  simp only [Option.getD_some]
  rw [if_neg hq0, runs_ask]
  have qA : (polling s i c wc).rmb.qp? q = some x := by simpa [polling] using hx
  have sA : ¬ (s.cqeIsSend a = false ∧ ((polling s i c wc).rmb.srqHandle q).isSome) := by
    rintro ⟨h1, h2⟩
    rw [hsnd] at h1
    simp [State.srqHandle, qA, hsrq h1] at h2
  simp only [sA, if_false, Nat.zero_ne_one]
  rw [hsnd]
  rw [runs_act_ok (a := idx + 1) (by simp only [qpIndexAct]; rw [withQp_eq qA, hidx])]
  simp only [Nat.add_one_ne_zero, if_false, Nat.add_sub_cancel]
  rw [runs_act_ok (a := w.toNat) (by simp only [qpWridAct]; rw [withQp_eq qA]; simp only [readWrid, hw]; rfl),
    runs_act_ok (by simp only [tailAdvanceAct]; rw [withQp_eq qA])]
  generalize hx' : x.setRing isSend ((x.ring isSend).retire idx) = x'
  rw [runs_act_ok (by simp only [recordAct]; rw [withQp_eq (x := x') (by simp)])]
  have cc : completion ((polling s i c wc).rmb.setQp q x') x' isSend a (BitVec.ofNat 64 w.toNat)
      = completion s x isSend a w := by
    rw [BitVec.ofNat_toNat, BitVec.setWidth_eq]
    exact completion_congr (by simp [polling]) (by simp [polling]) (by subst hx'; cases isSend <;> rfl)
      (by subst hx'; cases isSend <;> rfl) _ _ _
  rw [cc, show State.setResp _ _ = polling (s.rmb.setQp q x') i c (wc ++ [completion s x isSend a w]) by
    ext1 <;> simp [polling], runs_ask]
  have e2 : (polling (s.rmb.setQp q x') i c (wc ++ [completion s x isSend a w])).legacyErrDue a = s.legacyErrDue a := by
    unfold State.legacyErrDue; simp [State.cqeByte, polling]; rfl
  rw [e2]

/-- Publishing the consumer index changes word 0 of its record alone. -/
theorem published_frame (s : State) (c : Nat) (y : Cq) (b : Nat)
    (h : ∀ r ∈ s.recsOf [y.setCiRec], Outside b (s.recAddr r, 4)) : memGet (s.published c y).mem b = memGet s.mem b := by
  cases hm : s.mode
  · simp [State.published, hm, State.ring]
  · obtain ⟨m, l, e, w, f⟩ := writes_writeRec0
      (s.setCq c { y with consIndex := y.consIndex + 1, devCons := y.consIndex + 1 }).wmb y.setCiRec
      (y.consIndex + 1).toNat
    simp only [State.published, hm]
    rw [e]
    simp only [State.setBus_mem, State.setMem_mem]
    rw [f]
    · simp
    · rintro ⟨r, hr, h1, h2⟩
      have := h r (by simp [State.recsOf, hm, hr])
      simp only [Outside] at this
      simp at h1 h2
      omega

/-! ### Polls of several entries (R300, R301) -/

/-- The return of one CQE slot. -/
theorem runs_consumeOne {B : State} {c a : Nat} {y : Cq} {k : Prog} {t} (hy : B.cq? c = some y) :
    Runs (consume c a k) B t ↔ Runs k (B.gives c a y) t := by
  unfold consume
  rw [runs_eff, runs_act_ok (by simp only [advanceConsAct]; rw [withCq_eq (x := y) (by simpa using hy)])]
  rfl

/-- The reads of `LEGACY_ERR` (R308): the error CQE goes on to the next WQE of its chain, or is at the end of its chain or credit. -/
theorem legacyErrAct_spec {B : State} {q idx a n h nds dbd cnt : Nat} {isSend : Bool} {x : Qp} (hx : B.qp? q = some x)
    (hc : B.chainAt x isSend a idx h nds dbd cnt) :
    (nds ≠ 0 ∧ ¬ (cnt = 0 ∧ dbd = 1) → legacyErrAct q isSend idx a n B =
      .ok (1 + ((B.memRead h 4 / 64 * 64 + nds) * 65536 + (cnt + 65536 - dbd) % 65536))
        (B.setQp q (x.setRing isSend ((x.ring isSend).moveChain n (some (n + 1, (cnt + 65536 - dbd) % 65536))))))
    ∧ (nds = 0 ∨ (cnt = 0 ∧ dbd = 1) →
      legacyErrAct q isSend idx a n B = .ok 0 (B.setQp q (x.setRing isSend ((x.ring isSend).moveChain n none)))) := by
  obtain ⟨rfl, rfl, rfl, rfl⟩ := hc
  refine ⟨fun ⟨h1, h2⟩ => ?_, fun h => ?_⟩ <;> simp only [legacyErrAct] <;> rw [withQp_eq hx, chainNext_eq]
  · rw [if_neg (by tauto)]
  · rw [if_pos h]

/-- The writes to an error CQE that is kept: the credit, the WQE, the syndrome. -/
theorem runs_keepErr {B : State} {a wqe cnt : Nat} {k : Prog} {t} (h : cnt < 65536) :
    Runs (keepErr a (wqe * 65536 + cnt) k) B t ↔
      Runs k (((B.memWrite (a + 0x12) 2 cnt).memWrite (a + 0x18) 4 wqe).memWrite (a + 0x10) 1 0x05) t := by
  unfold keepErr
  rw [runs_eff, runs_eff, runs_eff, show (wqe * 65536 + cnt) % 65536 = cnt by omega,
    show (wqe * 65536 + cnt) / 65536 = wqe by omega]

/-- One iteration of the loop of R300, as `pollsTo` says it: what `POLL_ONE` does to a poll that holds its CQ's lock. -/
theorem runs_pollsTo {s u : State} {i : Instr} {c n f d a : Nat} {wc : List CompRec} {rec : Option CompRec} {freed : Bool} {y : Cq}
    {next : Nat → Nat → Nat → Prog} {t} (hu : s.unlocked) (hy : s.cq? c = some y) (ha : y.headAddr = a)
    (hp : s.pollsTo c rec freed u) :
    Runs (pollOne c a n f d next) (polling s i c wc).rmb t ↔
      Runs (next (n + rec.toList.length) (f + freed.toNat) (d + rec.isNone.toNat)) (polling u i c (wc ++ rec.toList)) t := by
  obtain ⟨y', a', hy', ha', hhw, hp⟩ := hp
  obtain rfl : y = y' := by rw [hy] at hy'; exact Option.some.inj hy'
  obtain rfl : a = a' := by rw [← ha, ← ha']
  have hl : s.locks = [] := hu
  rcases hp with ⟨q, x, isSend, idx, w, hq, hq0, hx, hsnd, hsrq, hidx, hw, hdue, rfl, rfl, rfl⟩
    | ⟨q, x, isSend, idx, w, h, nds, dbd, cnt, hq, hq0, hx, hsnd, hsrq, hidx, hw, hdue, rfl, hch, hp⟩
    | ⟨q, x, g, r, z, idx, w, hq, hq0, hx, hsnd, hg, hr, hz, hidx, hw, rfl, rfl, rfl⟩ | ⟨hun, rfl, rfl, rfl⟩
  · have qA : (polling s i c wc).rmb.qp? q = some x := by simpa [polling] using hx
    rw [runs_ownRing hu hq hq0 hx hsnd hsrq hidx hw, if_pos hdue, runs_consumeOne (y := y) (by simpa [polling] using hy)]
    refine Iff.of_eq (congrArg (Runs _ · t) ?_)
    ext1 <;> simp [State.gives, polling]
  · have qA : (polling s i c wc).rmb.qp? q = some x := by simpa [polling] using hx
    rw [runs_ownRing hu hq hq0 hx hsnd hsrq hidx hw, if_neg (by omega)]
    obtain ⟨x', hx'⟩ : ∃ x', x' = x.setRing isSend ((x.ring isSend).retire idx) := ⟨_, rfl⟩
    have hB : (polling (s.rmb.setQp q x') i c (wc ++ [completion s x isSend a w])).chainAt x' isSend a idx h nds dbd cnt := by
      subst hx'
      unfold State.chainAt at hch ⊢
      rw [retire_slotAddr]
      simpa [polling, State.memRead] using hch
    have e : x'.ring isSend = (x.ring isSend).retire idx ∧ ∀ r, x'.setRing isSend r = x.setRing isSend r := by
      subst hx'; cases isSend <;> exact ⟨rfl, fun _ => rfl⟩
    rw [← hx']
    rcases hp with ⟨h1, h2, rfl, rfl⟩ | ⟨h1, rfl, rfl⟩
    · rw [runs_act_ok ((legacyErrAct_spec (by simp [polling]) hB).1 ⟨h1, h2⟩), if_neg (by omega), Nat.add_sub_cancel_left,
        runs_keepErr (Nat.mod_lt _ (by decide)), e.1, e.2]
      refine Iff.of_eq (congrArg (Runs _ · t) ?_)
      ext1 <;> simp [State.keepsErr, polling, State.memRead]
    · rw [runs_act_ok ((legacyErrAct_spec (by simp [polling]) hB).2 h1), if_pos rfl, e.1, e.2,
        runs_consumeOne (y := y) (by simpa [polling] using hy)]
      refine Iff.of_eq (congrArg (Runs _ · t) ?_)
      ext1 <;> simp [State.endsErr, State.gives, polling]
  · have qA : (polling s i c wc).rmb.qp? q = some x := by simpa [polling] using hx
    have zA : (polling s i c wc).rmb.srq? r = some z := by simpa [polling] using hz
    rw [runs_pollOne hu, hq, Option.getD_some, if_neg hq0, runs_ask]
    simp only [show (s.cqeIsSend a = false ∧ ((polling s i c wc).rmb.srqHandle q).isSome) by
      simp [State.srqHandle, qA, hg, hsnd], and_self, if_true]
    rw [runs_resolveRef (g := g) (o := r) (by simp [State.srqHandle, qA, hg]) (by simpa [polling] using hr.1) hr.2
      (by simp [polling, State.holder, holderIn, State.shardLock]) (by intro l; rfl)]
    rw [runs_acquire, and_iff_right (by simp [polling, State.holder, holderIn])]
    rw [runs_act_ok (a := idx + 1) (by simp only [srqIndexAct]; rw [withSrq_eq (x := z) (by simpa [polling] using hz), hidx])]
    rw [runs_release_newest (l := [(.cq c, s.cur)]) (by simp [polling]) (by simp [holderIn])]
    simp only [Nat.add_one_ne_zero, if_false, Nat.add_sub_cancel]
    rw [runs_act_ok (a := w.toNat) (by
      simp only [srqWridAct]; rw [withSrq_eq (x := z) (by simpa [polling] using hz)]; simp only [readWrid, hw]; rfl)]
    unfold srqFree
    rw [runs_acquire, and_iff_right (by simp [polling, State.holder, holderIn])]
    rw [runs_act_ok (a := 0) (by simp only [srqFreeAct]; rw [withSrq_eq (x := z) (by simpa [polling] using hz)])]
    rw [runs_release_newest (l := [(.cq c, s.cur)]) (by simp [polling]) (by simp [holderIn])]
    rw [runs_act_ok (by simp only [recordAct]; rw [withQp_eq (x := x) (by simpa [polling] using hx)])]
    rw [runs_consumeOne (y := y) (by simpa [polling] using hy)]
    refine Iff.of_eq (congrArg (Runs _ · t) ?_)
    have cc : ∀ v : State, v.mem = s.mem → v.cfg = s.cfg →
        completion v x false a (BitVec.ofNat 64 w.toNat) = completion s x false a w := by
      intro v h1 h2
      rw [BitVec.ofNat_toNat, BitVec.setWidth_eq]
      exact completion_congr h1 h2 rfl rfl _ _ _
    rw [cc _ (by simp [polling]) (by simp [polling])]
    ext1 <;> simp [State.gives, polling]
  · have key : Runs (.act (decodeErrorAct c) fun _ => consume c a <| next n (f + 1) (d + 1)) (polling s i c wc).rmb t ↔
        Runs (next n (f + 1) (d + 1))
          (polling (s.rmb.gives c a { y with decodeErrors := y.decodeErrors + 1 }) i c wc) t := by
      rw [runs_act_ok (by simp only [decodeErrorAct]; rw [withCq_eq (x := y) (by simpa [polling] using hy)])]
      rw [runs_consumeOne (y := { y with decodeErrors := y.decodeErrors + 1 }) (by simp)]
      refine Iff.of_eq (congrArg (Runs _ · t) ?_)
      ext1 <;> simp [State.gives, polling]
    simp only [Option.toList_none, List.append_nil, List.length_nil, Nat.add_zero, Option.isNone_none, Bool.toNat_true]
    rw [← key, runs_pollOne hu]
    rcases hun with hq | ⟨q, x, hq, hq0, hx, hsrq, hidx⟩ | ⟨q, x, g, r, z, hq, hq0, hx, hsnd, hg, hr, hz, hidx⟩
    · rw [hq]; rfl
    · have qA : (polling s i c wc).rmb.qp? q = some x := by simpa [polling] using hx
      rw [hq, Option.getD_some, if_neg hq0, runs_ask]
      have sA : ¬ (s.cqeIsSend a = false ∧ ((polling s i c wc).rmb.srqHandle q).isSome) := by
        rintro ⟨h1, h2⟩
        simp [State.srqHandle, qA, hsrq h1] at h2
      simp only [sA, if_false, Nat.zero_ne_one]
      rw [runs_act_ok (a := 0) (by simp only [qpIndexAct]; rw [withQp_eq qA, hidx])]
      rfl
    · have qA : (polling s i c wc).rmb.qp? q = some x := by simpa [polling] using hx
      rw [hq, Option.getD_some, if_neg hq0, runs_ask]
      simp only [show (s.cqeIsSend a = false ∧ ((polling s i c wc).rmb.srqHandle q).isSome) by
        simp [State.srqHandle, qA, hg, hsnd], and_self, if_true]
      rw [runs_resolveRef (g := g) (o := r) (by simp [State.srqHandle, qA, hg]) (by simpa [polling] using hr.1) hr.2
        (by simp [polling, State.holder, holderIn, State.shardLock]) (by intro l; rfl)]
      rw [runs_acquire, and_iff_right (by simp [polling, State.holder, holderIn])]
      rw [runs_act_ok (a := 0) (by simp only [srqIndexAct]; rw [withSrq_eq (x := z) (by simpa [polling] using hz), hidx])]
      rw [runs_release_newest (l := [(.cq c, s.cur)]) (by simp [polling]) (by simp [holderIn])]
      refine Iff.of_eq (congrArg (Runs _ · t) ?_)
      ext1 <;> simp [polling]

/-- What an iteration of the loop leaves as it is, and the CQ it polls. -/
theorem State.pollsTo.frame {s u : State} {c : Nat} {rec : Option CompRec} {freed : Bool} (h : s.pollsTo c rec freed u) :
    (u.locks = s.locks ∧ u.agents = s.agents ∧ u.cur = s.cur ∧ u.cfg = s.cfg ∧ u.mode = s.mode ∧ u.doorbells = s.doorbells
      ∧ u.dbRecBase = s.dbRecBase)
    ∧ (Memory.wf s.mem = true → Memory.wf u.mem = true)
    ∧ ∃ y z, s.cq? c = some y ∧ u.cq? c = some z ∧ z.consIndex = y.consIndex + BitVec.ofNat 32 freed.toNat
      ∧ z.cqn = y.cqn ∧ z.setCiRec = y.setCiRec ∧ z.devCons = y.devCons := by
  obtain ⟨y, a, hy, ha, hhw, hp⟩ := h
  rcases hp with ⟨q, x, isSend, idx, w, hq, hq0, hx, hsnd, hsrq, hidx, hw, hdue, rfl, rfl, rfl⟩
    | ⟨q, x, isSend, idx, w, h, nds, dbd, cnt, hq, hq0, hx, hsnd, hsrq, hidx, hw, hdue, rfl, hch, ⟨h1, h2, rfl, rfl⟩ | ⟨h1, rfl, rfl⟩⟩
    | ⟨q, x, g, r, z, idx, w, hq, hq0, hx, hsnd, hg, hr, hz, hidx, hw, rfl, rfl, rfl⟩ | ⟨hun, rfl, rfl, rfl⟩
  all_goals
    refine ⟨by simp [State.gives, State.keepsErr, State.endsErr, State.doorbells], fun hw => ?_, y, ?_⟩
    · simp only [State.gives, State.keepsErr, State.endsErr, State.setCq_mem, State.setQp_mem, State.setSrq_mem, State.memWrite_mem,
        State.rmb_mem]
      repeat (first | exact hw | apply memPutBytes_wf)
    · simp [State.gives, State.keepsErr, State.endsErr, hy]

/-- The loop of R300 over the CQEs that `pollsAll` polls, up to the end of the poll. -/
theorem runs_pollLoop {u : State} {i : Instr} {c max : Nat} {z : Cq} {t} (l : List (Option CompRec × Bool)) :
    ∀ {s : State} {fuel n f d : Nat} {wc : List CompRec}, s.unlocked → s.pollsAll c l u → u.cq? c = some z → l.length < fuel →
    (∀ k, k < l.length → n + ((l.take k).filterMap (·.1)).length < max) →
    n + (l.filterMap (·.1)).length = max ∨ u.cqeHwOwned z.headAddr = true →
    (Runs (pollLoop c max fuel n f d) (polling s i c wc) t ↔
      Runs (pollEnd c (n + (l.filterMap (·.1)).length) (f + (l.filter (·.2)).length)
        (d + (l.length - (l.filterMap (·.1)).length))) (polling u i c (wc ++ l.filterMap (·.1))) t) := by
  induction l with
  | nil =>
    intro s fuel n f d wc hu hp hz hf hk he
    obtain rfl : u = s := hp
    obtain ⟨fuel, rfl⟩ : ∃ m, fuel = m + 1 := ⟨fuel - 1, by simp at hf; omega⟩
    simp only [List.filterMap_nil, List.length_nil, Nat.add_zero, List.filter_nil, List.append_nil, Nat.sub_zero] at he ⊢
    unfold pollLoop
    by_cases h : n < max
    · rw [if_pos h, runs_head (by simpa [polling] using hz), runs_ask]
      have : (polling u i c wc).cqeHwOwned z.headAddr = true := by
        rw [← he.resolve_left (by omega)]; simp [polling, State.cqeHwOwned, State.cqeByte]
      simp [this]
    · rw [if_neg h]
  | cons e l ih =>
    intro s fuel n f d wc hu hp hz hf hk he
    obtain ⟨v, hv, hp⟩ := hp
    obtain ⟨fuel, rfl⟩ : ∃ m, fuel = m + 1 := ⟨fuel - 1, by simp at hf; omega⟩
    have h0 : n < max := by simpa using hk 0 (by simp)
    obtain ⟨y, a, hy, ha, hhw, -⟩ := id hv
    unfold pollLoop
    rw [if_pos h0, runs_head (y := y) (by simpa [polling] using hy), runs_ask, ha]
    have : (polling s i c wc).cqeHwOwned a = false := by
      rw [← hhw]; simp [polling, State.cqeHwOwned, State.cqeByte]
    simp only [this, Bool.false_eq_true, if_false, Nat.zero_ne_one]
    rw [runs_eff, runs_pollsTo hu hy ha hv, ih (by rw [State.unlocked, hv.frame.1.1]; exact hu) hp hz (by simp at hf; omega)]
    · have hle : (l.filterMap (·.1)).length ≤ l.length := List.length_filterMap_le _ _
      have h1 : n + e.1.toList.length + (l.filterMap (·.1)).length = n + ((e :: l).filterMap (·.1)).length := by
        rcases e with ⟨_ | r, _⟩ <;> simp
        omega
      have h2 : f + e.2.toNat + (l.filter (·.2)).length = f + ((e :: l).filter (·.2)).length := by
        rcases e with ⟨_, _ | _⟩ <;> simp
        omega
      have h3 : d + e.1.isNone.toNat + (l.length - (l.filterMap (·.1)).length)
          = d + ((e :: l).length - ((e :: l).filterMap (·.1)).length) := by
        rcases e with ⟨_ | r, _⟩ <;> simp
        omega
      have h4 : wc ++ e.1.toList ++ l.filterMap (·.1) = wc ++ (e :: l).filterMap (·.1) := by
        rcases e with ⟨_ | r, _⟩ <;> simp
      rw [h1, h2, h3, h4]
    · intro k hk'
      have := hk (k + 1) (by simpa using hk')
      rcases e with ⟨_ | r, _⟩ <;> simp at this ⊢ <;> omega
    · rcases e with ⟨_ | r, _⟩ <;> simpa [Nat.add_assoc, Nat.add_comm 1] using he

/-- The end of a poll that has given `f` slots back: the consumer index published once. -/
theorem runs_pollEnd {u : State} {i : Instr} {c n f d : Nat} {z : Cq} {wc : List CompRec} {t} (hu : u.unlocked)
    (hz : u.cq? c = some z) :
    Runs (pollEnd c n f d) (polling u i c wc) t ↔ t = (u.publishes c f).ended
      { status := some .ok, n := some (BitVec.ofNat 32 n), wc, decodeErrors := some (BitVec.ofNat 32 d) } := by
  have hl : u.locks = [] := hu
  unfold pollEnd ciPublish State.publishes
  rw [hz]
  by_cases hf : f = 0
  · simp only [hf, if_true]
    rw [runs_release_newest (l := []) (by simp [polling]) rfl, runs_eff, runs_respond]
    refine Iff.of_eq (congrArg (t = ·) ?_)
    ext1 <;> simp [State.ended, polling, hl]
  · simp only [hf, if_false]
    cases hm : u.mode
    · rw [runs_act_ok (by simp only [ciPublishAct]; rw [withCq_eq (x := z) (by simpa [polling] using hz)])]
      rw [runs_release_newest (l := []) (by simp [hm, polling, State.ring]) rfl, runs_eff, runs_respond]
      refine Iff.of_eq (congrArg (t = ·) ?_)
      ext1 <;> simp [State.ended, polling, hl, hm, State.ring, Cq.tookInc, State.regOff]
    · rw [runs_act_ok (by simp only [ciPublishAct]; rw [withCq_eq (x := z) (by simpa [polling] using hz)])]
      rw [runs_release_newest (l := []) (by cases z.setCiRec <;> simp [hm, polling, State.writeRec0]) rfl, runs_eff, runs_respond]
      refine Iff.of_eq (congrArg (t = ·) ?_)
      cases hci : z.setCiRec <;> ext1 <;> simp [State.ended, polling, hl, hm, State.writeRec0, Cq.tookIndex, hci]

end Sys2Proof.Machine
end

