-- ==== Sys2Proof/Tests/Slice0.lean ====
section
/-! SUPPORT. The model's own tests: the well-formedness smoke, words written out from the encoding tables of spec/30_encoding.md,
single steps whose results stand in spec/95_test_vectors.md, and for each statement states and operands that meet its
hypotheses. -/

namespace Sys2Proof.Machine.Tests

open Sys2Proof Sys2Proof.Machine

-- One theorem after another: many at once take a stack of their own each, and the package as one text then runs out of memory.
set_option Elab.async false

/-! ### Well-formedness: each check refuses a term -/

theorem test_wf_illegal_command_is_no_command :
    (Instr.illegalCommand 0x00000014).wf = false ∧ (Instr.illegalCommand 0x00000114).wf = true := by decide

theorem test_wf_send_other_is_not_listed :
    (Instr.cqeSendOther 0x0A).wf = false ∧ (Instr.cqeSendOther 0xFE).wf = false ∧ (Instr.cqeSendOther 0x0C).wf = true := by
  decide

theorem test_wf_recv_other_is_not_listed :
    (Instr.cqeRecvOther 0x63).wf = false ∧ (Instr.cqeRecvOther 0xFF).wf = false ∧ (Instr.cqeRecvOther 0x04).wf = true := by
  decide

theorem test_wf_event_other_is_not_assigned :
    (Instr.eventOther 0x82).wf = false ∧ (Instr.eventOther 0x83).wf = true := by decide

theorem test_wf_legacy_recv_has_a_size :
    (Instr.dbLegacyRecv 1 0 5 1).wf = false ∧ (Instr.dbLegacyRecv 1 2 5 1).wf = true := by decide

theorem test_wf_operands_list_too_long :
    Operands.wf { vectorConfig with maxWrList := 1 } { sendWrs := [{}, {}] } = false
      ∧ Operands.wf { vectorConfig with maxWrList := 1 } { recvWrs := [{}, {}] } = false
      ∧ Operands.wf { vectorConfig with maxWrList := 1 } { sendWrs := [{}], recvWrs := [{}] } = true := by decide

set_option maxRecDepth 4000 in
theorem test_wf_operands_too_many_entries :
    Operands.wf vectorConfig { sendWrs := [{ sg := List.replicate 256 {} }] } = false
      ∧ Operands.wf vectorConfig { recvWrs := [{ sg := List.replicate 256 {} }] } = false := by decide

theorem test_wf_config : Config.wf vectorConfig .legacy = true ∧ Config.wf vectorConfig .memfree = true := by decide +kernel

theorem test_wf_config_refuses :
    Config.wf { vectorConfig with hostAddrBits := 65 } .legacy = false
      ∧ Config.wf { vectorConfig with numQps := 48 } .legacy = false
      ∧ Config.wf { vectorConfig with numCqs := 0 } .legacy = false
      ∧ Config.wf { vectorConfig with numSrqs := 3 } .legacy = false
      ∧ Config.wf { vectorConfig with numQps := 2 ^ 25 } .legacy = false
      ∧ Config.wf { vectorConfig with shardShift := 7 } .legacy = false
      ∧ Config.wf { vectorConfig with maxWqes := 65537 } .memfree = false
      ∧ Config.wf { vectorConfig with maxWqes := 1048577 } .legacy = false
      ∧ Config.wf { vectorConfig with legacyRecvDbBatch := 257 } .legacy = false
      ∧ Config.wf { vectorConfig with mfSendDbBatch := 256 } .memfree = false
      ∧ Config.wf { vectorConfig with minWqeShift := 5 } .legacy = false
      ∧ Config.wf { vectorConfig with numPorts := 2 } .legacy = false
      ∧ Config.wf { vectorConfig with mfRecvMmio := true } .memfree = false := by decide +kernel

/-- R153: the default table meets its conditions; without the rows from RESET to INIT (a), without those to RESET (b), with a row
out of ERR to RTS (c), with an RC row from INIT to RTR without the destination QP number (d), with `STATE` in a mask (e), with an
attribute both required and optional (f), a table does not. -/
theorem test_wf_legality : legalityOk defaultLegality = true
    ∧ legalityOk (defaultLegality.filter fun r => decide (r.new ≠ .init)) = false
    ∧ legalityOk (defaultLegality.filter fun r => decide (r.new ≠ .reset)) = false
    ∧ [legalityRow .err .rts .rc [] [], legalityRow .init .rtr .rc [] [.destQpn], legalityRow .sqd .rts .rc [.state] [],
        legalityRow .sqd .rts .rc [.port] [.port]].all (fun r => !legalityOk (r :: defaultLegality)) = true := by decide +kernel

/-- R103, R1: the codes of `mode`. -/
theorem test_mode_codes : [Mode.legacy, .memfree].map modeCode = [0, 1] ∧ [0, 1].map modeOf = [Mode.legacy, .memfree] := by decide

/-! ### Decoding: words written out from the encoding tables -/

/-- R104: the fifteen commands. -/
theorem test_decode_commands :
    decode .command [0x00, 0x00, 0x00, 0x01] = .ok .deviceStart
      ∧ decode .command [0x00, 0x00, 0x00, 0x02] = .ok .deviceStop
      ∧ decode .command [0x00, 0x00, 0x00, 0x10] = .ok .createQp
      ∧ decode .command [0x00, 0x00, 0x00, 0x11] = .ok .modifyQp
      ∧ decode .command [0x00, 0x00, 0x00, 0x12] = .ok .queryQp
      ∧ decode .command [0x00, 0x00, 0x00, 0x13] = .ok .destroyQp
      ∧ decode .command [0x00, 0x00, 0x00, 0x14] = .ok .postSend
      ∧ decode .command [0x00, 0x00, 0x00, 0x15] = .ok .postRecv
      ∧ decode .command [0x00, 0x00, 0x00, 0x20] = .ok .createCq
      ∧ decode .command [0x00, 0x00, 0x00, 0x21] = .ok .pollCq
      ∧ decode .command [0x00, 0x00, 0x00, 0x22] = .ok (.reqNotifyCq false)
      ∧ decode .command [0x00, 0x00, 0x01, 0x22] = .ok (.reqNotifyCq true)
      ∧ decode .command [0x00, 0x00, 0x00, 0x23] = .ok .destroyCq
      ∧ decode .command [0x00, 0x00, 0x00, 0x30] = .ok .createSrq
      ∧ decode .command [0x00, 0x00, 0x00, 0x31] = .ok .postSrqRecv
      ∧ decode .command [0x00, 0x00, 0x00, 0x32] = .ok .destroySrq := by
  simp only [decode]; decide

/-- V-CW-3, V-CW-5 to V-CW-8: `sol` on another command, reserved bits, unassigned codes. -/
theorem test_decode_illegal_commands :
    decode .command [0x00, 0x00, 0x01, 0x14] = .ok (.illegalCommand 0x00000114)
      ∧ decode .command [0x00, 0x01, 0x00, 0x14] = .ok (.illegalCommand 0x00010014)
      ∧ decode .command [0x00, 0x00, 0x02, 0x14] = .ok (.illegalCommand 0x00000214)
      ∧ decode .command [0x00, 0x00, 0x00, 0x03] = .ok (.illegalCommand 0x00000003)
      ∧ decode .command [0x00, 0x00, 0x00, 0x33] = .ok (.illegalCommand 0x00000033)
      ∧ decode .command [0x14] = .error .wrongLength := by
  simp only [decode]; decide

/-- R108. -/
theorem test_decode_work_requests :
    decode .sendWr [0] = .ok .wrRdmaWrite ∧ decode .sendWr [1] = .ok .wrRdmaWriteImm ∧ decode .sendWr [2] = .ok .wrSend
      ∧ decode .sendWr [3] = .ok .wrSendImm ∧ decode .sendWr [4] = .ok .wrRdmaRead ∧ decode .sendWr [5] = .ok .wrAtomicCs
      ∧ decode .sendWr [6] = .ok .wrAtomicFa ∧ decode .sendWr [7] = .ok .wrReserved7
      ∧ decode .sendWr [8] = .error .fieldTooWide := by
  simp only [decode]; decide

/-- R112, R118: `nda` in bits 31 to 6 (0x480 / 64 = 0x12). The link words of V-WQE-2 and V-WQE-3 are among them. -/
theorem test_decode_links :
    decode .link [0x00, 0x00, 0x04, 0x80] = .ok (.wqeOpNop 0x12)
      ∧ decode .link [0x00, 0x00, 0x04, 0x81] = .ok (.wqeOpRecvLink 0x12)
      ∧ decode .link [0x00, 0x00, 0x04, 0x88] = .ok (.wqeOpRdmaWrite 0x12)
      ∧ decode .link [0x00, 0x00, 0x04, 0x49] = .ok (.wqeOpRdmaWriteImm 0x11)
      ∧ decode .link [0x80, 0x00, 0x00, 0x0A] = .ok (.wqeOpSend 0x2000000)
      ∧ decode .link [0x00, 0x00, 0x00, 0x4B] = .ok (.wqeOpSendImm 1)
      ∧ decode .link [0x00, 0x00, 0x00, 0x50] = .ok (.wqeOpRdmaRead 1)
      ∧ decode .link [0x00, 0x00, 0x00, 0x51] = .ok (.wqeOpAtomicCs 1)
      ∧ decode .link [0x00, 0x00, 0x04, 0x92] = .ok (.wqeOpAtomicFa 0x12)
      ∧ decode .link [0x00, 0x00, 0x00, 0x02] = .error .reservedLinkOpcode := by
  simp only [decode]; decide

/-- R123, R124. -/
theorem test_decode_send_cqes :
    decode (.cqe true) [0x08] = .ok .cqeSend08 ∧ decode (.cqe true) [0x09] = .ok .cqeSend09
      ∧ decode (.cqe true) [0x0A] = .ok .cqeSend0A ∧ decode (.cqe true) [0x0B] = .ok .cqeSend0B
      ∧ decode (.cqe true) [0x10] = .ok .cqeSend10 ∧ decode (.cqe true) [0x11] = .ok .cqeSend11
      ∧ decode (.cqe true) [0x12] = .ok .cqeSend12 ∧ decode (.cqe true) [0x18] = .ok .cqeSend18
      ∧ decode (.cqe true) [0x03] = .ok (.cqeSendOther 0x03) ∧ decode (.cqe true) [0xFD] = .ok (.cqeSendOther 0xFD)
      ∧ decode (.cqe false) [0xFF] = .ok (.cqeError true) ∧ decode (.cqe true) [0xFE] = .ok (.cqeError false) := by
  simp only [decode]; decide

/-- R123, R125: bits 4 to 0 select. -/
theorem test_decode_recv_cqes :
    decode (.cqe false) [0x03] = .ok (.cqeRecv03 0) ∧ decode (.cqe false) [0x65] = .ok (.cqeRecv05 3)
      ∧ decode (.cqe false) [0x09] = .ok (.cqeRecv09 0) ∧ decode (.cqe false) [0xEB] = .ok (.cqeRecv0B 7)
      ∧ decode (.cqe false) [0x04] = .ok (.cqeRecvOther 0x04) ∧ decode (.cqe false) [0x08] = .ok (.cqeRecvOther 0x08) := by
  simp only [decode]; decide

/-- R140; the second word is V-SM-16b's. -/
theorem test_decode_events :
    decode .event [0x80, 0x00, 0x00, 0x05, 0x00, 0x00, 0x00, 0x00] = .ok (.eventCompletion 5)
      ∧ decode .event [0x81, 0x00, 0x00, 0x05, 0x00, 0x00, 0x00, 0x02] = .ok (.eventQp 5 2)
      ∧ decode .event [0x82, 0x00, 0x00, 0x00, 0x00, 0x00, 0x00, 0x00] = .ok .eventFatal
      ∧ decode .event [0x83, 0x12, 0x34, 0x56, 0x00, 0x00, 0x00, 0x00] = .ok (.eventOther 0x83)
      ∧ decode .event [0x80, 0x00, 0x00, 0x05] = .error .wrongLength := by
  simp only [decode]; decide

/-- R126 to R128: V-WQE-2's send doorbell 0x00000469 0x00000503, and words of the others. -/
theorem test_decode_legacy_doorbells :
    decode (.doorbell .legacy .send) [0x00, 0x00, 0x04, 0x69, 0x00, 0x00, 0x05, 0x03] = .ok (.dbLegacySend 0x11 true 0x09 5 3)
      ∧ decode (.doorbell .legacy .recv) [0x00, 0x00, 0x00, 0x42, 0x00, 0x00, 0x05, 0x01] = .ok (.dbLegacyRecv 1 2 5 1)
      ∧ decode (.doorbell .legacy .recv) [0x00, 0x00, 0x00, 0x40, 0x00, 0x00, 0x02, 0x08] = .ok (.dbLegacySrq 1 2 8)
      ∧ decode (.doorbell .legacy .cq) [0x01, 0x00, 0x00, 0x03, 0x00, 0x00, 0x00, 0x02] = .ok (.dbLegacyCqInc 3 2)
      ∧ decode (.doorbell .legacy .cq) [0x02, 0x00, 0x00, 0x03, 0xFF, 0xFF, 0xFF, 0xFF] = .ok (.dbLegacyCqArm false 3)
      ∧ decode (.doorbell .legacy .cq) [0x03, 0x00, 0x00, 0x03, 0xFF, 0xFF, 0xFF, 0xFF] = .ok (.dbLegacyCqArm true 3)
      ∧ decode (.doorbell .legacy .cq) [0x02, 0x00, 0x00, 0x03, 0x00, 0x00, 0x00, 0x00] = .error .noSuchDoorbell := by
  simp only [decode]; decide

/-- R129, R130: V-WQE-2's send doorbell 0x01000129 0x00000503, and words of the others. -/
theorem test_decode_memfree_doorbells :
    decode (.doorbell .memfree .send) [0x01, 0x00, 0x01, 0x29, 0x00, 0x00, 0x05, 0x03]
        = .ok (.dbMemfreeSend 1 1 true 0x09 5 3)
      ∧ decode (.doorbell .memfree .cq) [0x21, 0x00, 0x00, 0x03, 0x00, 0x00, 0x00, 0x07]
        = .ok (.dbMemfreeCqArm 2 true 3 7)
      ∧ decode (.doorbell .memfree .recv) [0x00, 0x00, 0x00, 0x40, 0x00, 0x00, 0x02, 0x08] = .error .noSuchDoorbell
      ∧ decode (.dbrec 4) [0x00, 0x00, 0x00, 0x09, 0x00, 0x00, 0x03, 0x5A] = .ok (.dbrecMemfree 4 9 3 2 0x1A) := by
  simp only [decode]; decide

/-- The encoder writes the same words. -/
theorem test_encode :
    encode (.reqNotifyCq true) = (.command, [0x00, 0x00, 0x01, 0x22])
      ∧ encode (.wqeOpAtomicFa 0x12) = (.link, [0x00, 0x00, 0x04, 0x92])
      ∧ encode (.eventQp 5 2) = (.event, [0x81, 0x00, 0x00, 0x05, 0x00, 0x00, 0x00, 0x02])
      ∧ encode (.dbMemfreeSend 1 1 true 0x09 5 3)
        = (.doorbell .memfree .send, [0x01, 0x00, 0x01, 0x29, 0x00, 0x00, 0x05, 0x03]) := by decide

/-! ### Small worlds

A started instance with one QP (number 5, arena index 7), one CQ (number 2, index 8) and one SRQ (number 4, index 9), whose
requester is agent 1. Host memory lists only what a test puts there: every other byte reads 0, so a CQE slot is software-owned
unless its owner byte is put there. -/

def qpName : Handle := { kind := .qp, index := 5 }
def cqName : Handle := { kind := .cq, index := 2 }
def srqName : Handle := { kind := .srq, index := 4 }

def cqA : Cq := { self := cqName, cqn := 2, capacity := 8, bufBase := 0x1000, armSn := 1, setCiRec := some 3, armRec := some 4 }

def srqA : Srq :=
  { self := srqName, srqn := 4, pd := 1, capacity := 4, shift := 6, maxGs := 1, bufBase := 0x2000, freeHead := some 0
    freeTail := some 3, link := [some 1, some 2, some 3, none], lastIdx := 3, wrid := List.replicate 4 none
    posted := List.replicate 4 false, dbRec := some 5 }

/-- An RC QP with rings of four 64-byte slots: receives at 0x4000, sends at 0x4100. -/
def qpA (st : QpState) : Qp :=
  { self := qpName, qpn := 5, transport := .rc, state := st, pd := 1, sendCq := cqName, recvCq := cqName, maxInline := 12
    bufBase := 0x4000, sendWqeOffset := 256, sq := freshRing 4 6 1, rq := freshRing 4 6 1, sqDbRec := some 1
    rqDbRec := some 2 }

/-- As `qpA`, with its receives on the SRQ. -/
def qpB (st : QpState) : Qp := { qpA st with srq := some srqName, sendWqeOffset := 0, rq := freshRing 0 6 0 }

/-- As `qpA` in RTS, with one WQE posted to each ring, in slot 0. -/
def qpPosted : Qp :=
  { qpA .rts with
    sq := { freshRing 4 6 1 with
      head := 1, nextInd := 1, lastIdx := 0, wrid := [some 0xA, none, none, none], live := 1, first := 1, ops := [0x0A, 0, 0, 0] }
    rq := { freshRing 4 6 1 with
      head := 1, nextInd := 1, lastIdx := 0, wrid := [some 0xB, none, none, none], live := 1, first := 1 } }

/-- As `srqA`, with slot 0 posted. -/
def srqPosted : Srq :=
  { srqA with freeHead := some 1, link := [none, some 2, some 3, none], lastIdx := 0, outstanding := 1
              wrid := [some 0xC, none, none, none], posted := [true, false, false, false], live := 1, first := 1
              queue := [(0, 1)] }

def world (m : Mode) (mem : List Host.Cell) (x : Qp) (y : Cq) (z : Srq) (op : Operands) : State :=
  { State.reset with
    started := true, mode := m, dbRecBase := 0x8000, dbRecUsed := [1, 2, 3, 4, 5], dbRecFree := 59, nextObj := 10, mem
    qps := [(7, x)], cqs := [(8, y)], srqs := [(9, z)], fw := [{}]
    qpTable := State.reset.qpTable.set 5 { occ := some { num := 5, obj := 7 } }
    cqTable := State.reset.cqTable.set 2 { occ := some { num := 2, obj := 8 } }
    srqTable := State.reset.srqTable.set 4 { occ := some { num := 4, obj := 9 } }
    agents := [(1, { op })] }

theorem world_quiet (m mem x y z op) : (world m mem x y z op).quietStart :=
  ⟨⟨⟨Nat.one_ne_zero, rfl, rfl⟩, rfl, rfl⟩, rfl, rfl⟩

theorem world_qp (m mem x y z op) : (world m mem x y z op).names .qp qpName 7 := ⟨by rfl, by decide⟩
theorem world_cq (m mem x y z op) : (world m mem x y z op).names .cq cqName 8 := ⟨by rfl, by decide⟩
theorem world_srq (m mem x y z op) : (world m mem x y z op).names .srq srqName 9 := ⟨by rfl, by decide⟩

theorem world_tables (m mem x y z op) : (world m mem x y z op).tablesWf := ⟨by rfl, by rfl, by rfl⟩

theorem quiet_fw {s : State} (h : s.quietStart) (l) : ({ s with fw := l } : State).quietStart := h
theorem names_fw {s : State} {k h o} (e : s.names k h o) (l) : ({ s with fw := l } : State).names k h o := e
theorem names_locks {s : State} {k h o} (e : s.names k h o) (l) : ({ s with locks := l } : State).names k h o := e

/-- What a step leaves, where it goes on. -/
def after {α : Type} (o : Host.Outcome State Fault Refusal) (f : State → α) : Option α :=
  match o with
  | .next t => some (f t)
  | _ => none

theorem after_some {α : Type} {o : Host.Outcome State Fault Refusal} {f : State → α} {v : α} (h : after o f = some v) :
    ∃ t, o = .next t ∧ f t = v := by
  unfold after at h
  split at h
  · exact ⟨_, rfl, Option.some.inj h⟩
  · cases h

/-- What a step is refused by. -/
def refusedBy (o : Host.Outcome State Fault Refusal) : Option Refusal :=
  match o with
  | .refused r => some r
  | _ => none

theorem refused_of {o : Host.Outcome State Fault Refusal} {r : Refusal} (h : refusedBy o = some r) : o = .refused r := by
  unfold refusedBy at h
  split at h
  · cases h; rfl
  · cases h

/-- The world with its CQ empty: the owner byte of the head slot is 0x80. -/
def emptyCq : List Host.Cell := [(0x101F, 0x80)]

/-- A CQE at the head slot: its QP number, the WQE offset 256 * `w`, its opcode byte and its send byte. -/
def cqeMem (qpn w opcode send : Byte) : List Host.Cell :=
  [(0x1003, qpn), (0x101A, w), (0x101C, opcode), (0x101D, send)].filter fun e => decide (e.2 ≠ 0)

/-! ### Witnesses: each statement's hypotheses, met together

The theorem `witness_X` is about the statement Obligations.X; where a statement has clauses with hypotheses of their own, each
clause has its state and operands, at a boundary of its range where it has one. -/

theorem witness_DecodeEncode :
    (Instr.illegalCommand 0x00000003).wf = true ∧ (Instr.eventOther 0x83).wf = true ∧ (Instr.cqeSendOther 0xFD).wf = true
      ∧ (Instr.dbLegacyRecv 0 1 0 0).wf = true := by decide

theorem witness_EncodeDecode :
    ∃ (f : Format) (bytes : List Byte) (i : Instr), f ≠ .event ∧ decode f bytes = .ok i :=
  ⟨.command, [0, 0, 0, 1], .deviceStart, by decide, rfl⟩

/-- A property of the arena indices of a table's entries, by a computation over the entries. -/
theorem entries_nonzero {l : List Entry} (h : l.all (fun e => match e.occ with | some o => o.obj != 0 | none => true) = true) :
    ∀ e ∈ l, ∀ o, e.occ = some o → o.obj ≠ 0 := by
  intro e he o ho
  have := List.all_eq_true.mp h e he
  simpa [ho] using this

/-- The one key of a one-element arena. -/
theorem assocGet_one {α : Type} {k q : Nat} {x : α} (h : (assocGet [(k, x)] q).isSome) : q = k := by
  by_cases e : k = q
  · exact e.symm
  · simp [assocGet, e] at h

set_option maxRecDepth 10000 in
theorem world_inv (m x y z op) : (world m emptyCq x y z op).Inv := by
  have e : (world m emptyCq x y z op).nextObj = 10 := rfl
  refine ⟨rfl, List.nodup_nil, world_tables .., by rw [e]; decide, entries_nonzero (by rfl), ?_, ?_, ?_⟩ <;> rw [e]
  · intro q h; have := assocGet_one (k := 7) (x := x) h; omega
  · intro q h; have := assocGet_one (k := 8) (x := y) h; omega
  · intro q h; have := assocGet_one (k := 9) (x := z) h; omega

theorem witness_StepKeepsInv : ∃ s t : State, s.Inv ∧ step s = .next t :=
  ⟨world .memfree emptyCq (qpA .rts) cqA srqA {}, _, world_inv .., rfl⟩

theorem witness_StepKeepsConfig : ∃ s t : State, step s = .next t ∧ t.fw = [{}] :=
  ⟨{ State.reset with inbox := [.firmware {}] }, _, rfl, rfl⟩

theorem witness_ModeFixed : ∃ (i : Instr) (s t : State), i ≠ .deviceStart ∧ exec i s = .next t :=
  ⟨.deviceStop, State.reset, _, by decide, rfl⟩

/-- A `QP_EVENT` of another type than `SQ_DRAINED` completes on a state with a QP. -/
theorem witness_StateChangesOnly : ∃ (s t : State) (x y : Qp),
    (∀ q, (s.qp? q).isSome → q < s.nextObj) ∧ exec (.eventQp 5 1) s = .next t ∧ s.qp? 7 = some x ∧ t.qp? 7 = some y :=
  ⟨world .legacy emptyCq (qpA .draining) cqA srqA {}, _, qpA .draining, qpA .draining, (world_inv ..).2.2.2.2.2.1, rfl, rfl,
    rfl⟩

theorem witness_StepRunsIssued : ∃ (s : State) (rest : List Input),
    s.inbox = .issue 1 .command [0, 0, 0, 0x21] (some {}) none :: rest ∧ 1 ≠ eventAgent ∧ (s.agent 1).cmd = none
      ∧ Format.command ≠ .event ∧ expressible s.cfg (some {}) = true ∧ decode .command [0, 0, 0, 0x21] = .ok .pollCq :=
  ⟨{ State.reset with inbox := [.issue 1 .command [0, 0, 0, 0x21] (some {}) none] }, [], rfl, by decide, rfl, by decide,
    by decide, rfl⟩

/-- The event of a fatal failure, which a device that has not failed may raise: with the event agent idle, and busy. -/
theorem witness_StepRunsEvent : ∀ busy : Bool, ∃ (s : State) (rest : List Input),
    s.inbox = .event [0x82, 0, 0, 0, 0, 0, 0, 0] none :: rest ∧ decode .event [0x82, 0, 0, 0, 0, 0, 0, 0] = .ok .eventFatal
      ∧ s.started = true ∧ s.eventAllowed .eventFatal = true
      ∧ (if busy then (s.agent eventAgent).cmd.isSome else (s.agent eventAgent).cmd.isNone && s.eventQ.isEmpty) = true
  | true => ⟨{ State.reset with
      started := true, inbox := [.event [0x82, 0, 0, 0, 0, 0, 0, 0] none], agents := [(0, { cmd := some (.eventQp 5 1) })] }, [],
      rfl, rfl, rfl, by decide, rfl⟩
  | false => ⟨{ State.reset with started := true, inbox := [.event [0x82, 0, 0, 0, 0, 0, 0, 0] none] }, [], rfl, rfl, rfl,
      by decide, rfl⟩

theorem witness_StepRunsEvent_stopped : ∀ busy : Bool, ∃ (s : State) (rest : List Input),
    s.inbox = .event [0x82, 0, 0, 0, 0, 0, 0, 0] none :: rest ∧ s.started = false
      ∧ (s.agent eventAgent).cmd.isSome = busy
  | true => ⟨{ State.reset with
      inbox := [.event [0x82, 0, 0, 0, 0, 0, 0, 0] none], agents := [(0, { cmd := some .eventFatal })] }, [], rfl, rfl, rfl⟩
  | false => ⟨{ State.reset with inbox := [.event [0x82, 0, 0, 0, 0, 0, 0, 0] none] }, [], rfl, rfl, rfl⟩

theorem witness_FetchRuns :
    decodeTableWord 32 0x21 = some .pollCq ∧ decodeTableWord 32 0x82000000 = some .eventFatal
      ∧ decodeTableWord 32 0x92 = some (.wqeOpAtomicFa 2) ∧ decodeTableWord 8 2 = some .wrSend
      ∧ (State.reset.agent eventAgent).cmd = none ∧ State.reset.eventQ = []
      ∧ (State.reset.agent State.reset.requester).cmd = none
      ∧ State.reset.started = false ∧ ({ State.reset with started := true } : State).eventAllowed .eventFatal = true := by decide

theorem reset_idle : State.reset.idle := ⟨⟨Nat.one_ne_zero, rfl, rfl⟩, rfl, rfl⟩

theorem witness_DeviceStart_legacy : ∃ s : State, s.idle ∧ s.started = false ∧ s.me.op.mode = .legacy :=
  ⟨State.reset, reset_idle, rfl, rfl⟩

/-- The machine after reset, with an operand record. -/
def resetOp (op : Operands) : State := { State.reset with agents := [(1, { op })] }

theorem witness_DeviceStart_memfree : ∃ (s : State) (base : Nat),
    s.idle ∧ s.started = false ∧ s.me.op.mode = .memfree ∧ s.me.op.dbRecBase.toNat = base ∧ base % 8 = 0
      ∧ s.owns (base, 8 * s.cfg.dbRecCount) = true ∧ Memory.wf s.mem = true :=
  ⟨resetOp { mode := .memfree, dbRecBase := 0x8000 }, 0x8000, ⟨⟨Nat.one_ne_zero, rfl, rfl⟩, rfl, rfl⟩, rfl, rfl, rfl, rfl,
    by decide, rfl⟩

theorem witness_DeviceStartRejected :
    (∃ s : State, s.idle ∧ s.started = true)
      ∧ ∃ s : State, s.idle ∧ s.started = false ∧ s.me.op.mode = .memfree ∧ s.me.op.dbRecBase.toNat % 8 ≠ 0 :=
  ⟨⟨world .legacy [] (qpA .rts) cqA srqA {}, (world_quiet ..).1, rfl⟩,
    resetOp { mode := .memfree, dbRecBase := 0x8004 }, ⟨⟨Nat.one_ne_zero, rfl, rfl⟩, rfl, rfl⟩, rfl, rfl, by decide⟩

theorem reset_entry (k : Kind) (i : Nat) : (State.reset.entry k i).occ = none := by
  have : ∀ n, ((List.replicate n ({} : Entry)).getD i {}).occ = none := by
    intro n
    rw [List.getD_eq_getElem?_getD, List.getElem?_replicate]
    split <;> rfl
  cases k <;> exact this _

/-- An event waits. -/
theorem witness_DeviceStopEmpty : ∃ s : State,
    s.idle ∧ s.started = true ∧ (∀ k i, (s.entry k i).occ = none) ∧ s.eventQ ≠ [] :=
  ⟨{ State.reset with started := true, eventQ := [[0x82, 0, 0, 0, 0, 0, 0, 0]] }, ⟨⟨Nat.one_ne_zero, rfl, rfl⟩, rfl, rfl⟩, rfl,
    reset_entry, by decide⟩

/-- The world's live entries. -/
theorem world_entry {m mem x y z op k i o} (h : ((world m mem x y z op).entry k i).occ = some o) :
    (k = .qp ∧ i = 5 ∧ o = { num := 5, obj := 7 }) ∨ (k = .cq ∧ i = 2 ∧ o = { num := 2, obj := 8 })
      ∨ (k = .srq ∧ i = 4 ∧ o = { num := 4, obj := 9 }) := by
  have e := reset_entry k i
  cases k <;> simp only [State.entry, State.table, world, List.getD_eq_getElem?_getD, List.getElem?_set] at h e
  · by_cases hi : 5 = i
    · subst hi; cases h; simp
    · rw [if_neg hi, e] at h; cases h
  · by_cases hi : 2 = i
    · subst hi; cases h; simp
    · rw [if_neg hi, e] at h; cases h
  · by_cases hi : 4 = i
    · subst hi; cases h; simp
    · rw [if_neg hi, e] at h; cases h

/-- An instance with a QP, a CQ that the QP names twice, and an SRQ, where the stop has all the firmware answers it asks for. -/
def stopWorld (m : Mode) : State :=
  { world m emptyCq (qpA .rts) { cqA with attach := 2 } srqA {} with fw := [{}, {}, {}] }

theorem stopWorld_linked (m : Mode) : (stopWorld m).linked := by
  have he : ∀ k i, (stopWorld m).entry k i = (world m emptyCq (qpA .rts) { cqA with attach := 2 } srqA {}).entry k i :=
    fun _ _ => rfl
  refine ⟨⟨by rfl, by rfl, by rfl⟩, fun k => by cases k <;> exact (by decide : 64 ≤ 2 ^ 24), ?_, ?_, ?_, ?_⟩
  · intro k i o h
    obtain ⟨-, -, rfl⟩ | ⟨-, -, rfl⟩ | ⟨-, -, rfl⟩ := world_entry (he k i ▸ h) <;> simp
  · intro k i j o p h1 h2 _
    obtain ⟨rfl, rfl, rfl⟩ | ⟨rfl, rfl, rfl⟩ | ⟨rfl, rfl, rfl⟩ := world_entry (he k i ▸ h1) <;>
    obtain ⟨h, rfl, rfl⟩ | ⟨h, rfl, rfl⟩ | ⟨h, rfl, rfl⟩ := world_entry (he _ j ▸ h2) <;> first | rfl | cases h
  · intro i o h
    obtain ⟨-, rfl, rfl⟩ | ⟨h, -⟩ | ⟨h, -⟩ := world_entry (he .qp i ▸ h)
    · exact ⟨qpA .rts, rfl, rfl, rfl, fun g h => (nomatch h)⟩
    · cases h
    · cases h
  · intro k i o hk h
    obtain ⟨rfl, -⟩ | ⟨rfl, -, rfl⟩ | ⟨rfl, -, rfl⟩ := world_entry (he k i ▸ h)
    · exact absurd rfl hk
    · cases m <;> decide +kernel
    · cases m <;> decide +kernel

/-- A stop that ends; a live entry of each kind is there. -/
theorem witness_DeviceStop : ∀ m : Mode, ∃ s t : State, s.mode = m ∧
    s.idle ∧ s.started = true ∧ s.linked ∧ exec .deviceStop s = .next t ∧ t.me.cmd = none ∧ (s.entry .qp 5).occ.isSome
      ∧ (s.entry .cq 2).occ.isSome ∧ (s.entry .srq 4).occ.isSome := by
  intro m
  have h : after (exec .deviceStop (stopWorld m)) (fun t => t.me.cmd) = some none := by cases m <;> decide +kernel
  obtain ⟨t, h1, h2⟩ := after_some h
  exact ⟨stopWorld m, t, rfl, ⟨⟨Nat.one_ne_zero, rfl, rfl⟩, rfl, rfl⟩, rfl, stopWorld_linked m, h1, h2, rfl, rfl, rfl⟩

theorem witness_NotStarted : ∃ s : State, s.idle ∧ s.started = false := ⟨State.reset, reset_idle, rfl⟩

theorem witness_DeviceFatal : ∃ s : State, s.idle ∧ s.started = true ∧ s.fatal = true :=
  ⟨{ State.reset with started := true, fatal := true }, ⟨⟨Nat.one_ne_zero, rfl, rfl⟩, rfl, rfl⟩, rfl, rfl⟩

/-- A handle whose entry is empty, a handle of an old generation, and no SRQ of the name. -/
theorem witness_InvalidHandle :
    (∃ s : State, s.quietStart ∧ s.lookup .qp s.me.op.qp = none ∧ s.lookup .cq s.me.op.cq = none)
      ∧ (∃ s : State, s.quietStart ∧ s.me.op.qp.index = 5 ∧ s.lookup .qp s.me.op.qp = none)
      ∧ ∃ (s : State) (h : Handle), s.quietStart ∧ s.me.op.srq = some h ∧ s.lookup .srq h = none :=
  ⟨⟨world .legacy [] (qpA .rts) cqA srqA {}, world_quiet .., by decide, by decide⟩,
    ⟨world .legacy [] (qpA .rts) cqA srqA { qp := { qpName with gen := 1 } }, world_quiet .., rfl, by decide⟩,
    world .legacy [] (qpA .rts) cqA srqA { srq := some { kind := .srq, index := 63 } }, _, world_quiet .., rfl, by decide⟩

theorem witness_IllegalCommand : ∃ s : State, s.idle := ⟨State.reset, reset_idle⟩

/-! Creates. -/

theorem world_canInsert (m x y z op) (k : Kind) (num : Num24)
    (h : ((world m [] x y z op).entry k ((world m [] x y z op).indexOf k num)).occ = none)
    (h2 : (world m [] x y z op).indexOf k num < Config.entries vectorConfig k) : (world m [] x y z op).canInsert k num :=
  ⟨h, h2, world_tables .., (by decide : (10 : Nat) ≠ 0)⟩

theorem witness_CreateCq_memfree : ∃ (s : State) (op : Operands) (cap : Nat) (recs : List Nat) (a : FwAnswer)
    (rest : List FwAnswer),
    s.quietStart ∧ s.me.op = op ∧ cqCapacity op.cqDepth.toNat = cap ∧ cap ≤ s.cfg.maxCqes ∧ op.bufBase.toNat % 32 = 0
      ∧ s.bufferOk (op.bufBase.toNat, 32 * cap) = true ∧ s.canInsert .cq op.cqn ∧ s.takesRecs 2 recs ∧ s.fw = a :: rest
      ∧ a.status = 0 ∧ Memory.wf s.mem = true
      ∧ ∀ r ∈ recs, s.recAddr r + 8 ≤ op.bufBase.toNat ∨ op.bufBase.toNat + 32 * cap ≤ s.recAddr r :=
  ⟨world .memfree [] (qpA .rts) cqA srqA { cqn := 63, cqDepth := 4095, bufBase := 0x10000 }, _, 4096, [0, 6], _, _,
    world_quiet .., rfl, by decide, by decide, by decide, by decide, world_canInsert _ _ _ _ _ _ _ (by decide) (by decide),
    Or.inr ⟨rfl, by decide, by decide⟩, rfl, rfl, rfl, by decide⟩

theorem witness_CreateCq_legacy : ∃ (s : State) (op : Operands) (cap : Nat),
    s.quietStart ∧ s.me.op = op ∧ cqCapacity op.cqDepth.toNat = cap ∧ cap ≤ s.cfg.maxCqes ∧ op.bufBase.toNat % 32 = 0
      ∧ s.bufferOk (op.bufBase.toNat, 32 * cap) = true ∧ s.canInsert .cq op.cqn ∧ s.takesRecs 2 [] :=
  ⟨world .legacy [] (qpA .rts) cqA srqA { cqn := 3, cqDepth := 0, bufBase := 0x10020 }, _, 1,
    world_quiet .., rfl, by decide, by decide, by decide, by decide, world_canInsert _ _ _ _ _ _ _ (by decide) (by decide),
    Or.inl ⟨rfl, rfl⟩⟩

theorem witness_CreateSrq : ∃ (s : State) (op : Operands) (cap sh : Nat) (recs : List Nat) (a : FwAnswer)
    (rest : List FwAnswer),
    s.quietStart ∧ s.me.op = op ∧ ringCapacity s.mode op.srqDepth.toNat = cap
      ∧ slotShift s.cfg (16 + 16 * op.maxGs.toNat) = sh ∧ op.srqDepth.toNat ≤ s.cfg.maxSrqWqes
      ∧ op.maxGs.toNat ≤ s.cfg.maxSrqSge ∧ 16 + 16 * op.maxGs.toNat ≤ 1008 ∧ op.bufBase.toNat % 2 ^ sh = 0
      ∧ s.bufferOk (op.bufBase.toNat, cap * 2 ^ sh) = true ∧ s.canInsert .srq op.srqn ∧ s.takesRecs 1 recs ∧ s.fw = a :: rest
      ∧ a.status = 0 ∧ Memory.wf s.mem = true
      ∧ ∀ r ∈ recs, s.recAddr r + 8 ≤ op.bufBase.toNat ∨ op.bufBase.toNat + cap * 2 ^ sh ≤ s.recAddr r :=
  ⟨world .memfree [] (qpA .rts) cqA srqA { srqn := 5, srqDepth := 6, maxGs := 62, bufBase := 0x10000 }, _, 8, 10, [0], _, _,
    world_quiet .., rfl, by decide, by decide, by decide, by decide, by decide, by decide, by decide,
    world_canInsert _ _ _ _ _ _ _ (by decide) (by decide), Or.inr ⟨rfl, by decide, by decide⟩, rfl, rfl, rfl, by decide⟩

/-- With an SRQ, and with a receive ring of its own. -/
theorem witness_CreateQp : ∀ (srq : Option Handle), srq = none ∨ srq = some srqName →
    ∃ (s : State) (op : Operands) (g : QpGeometry) (recs : List Nat) (c1 c2 : Nat),
      op.srq = srq ∧ s.quietStart ∧ s.me.op = op ∧ qpGeometry op s = g ∧ createQpBad op s = false
      ∧ s.bufferOk (op.bufBase.toNat, g.sendWqeOffset + g.sqCapacity * 2 ^ g.sqShift) = true
      ∧ s.names .cq op.sendCq c1 ∧ s.names .cq op.recvCq c2 ∧ (∀ h, op.srq = some h → ∃ r, s.names .srq h r)
      ∧ s.canInsert .qp op.qpn ∧ s.takesRecs 2 recs ∧ Memory.wf s.mem = true
      ∧ ∀ r ∈ recs, s.recAddr r + 8 ≤ op.bufBase.toNat
        ∨ op.bufBase.toNat + (g.sendWqeOffset + g.sqCapacity * 2 ^ g.sqShift) ≤ s.recAddr r := by
  rintro srq (rfl | rfl)
  · exact ⟨world .memfree [] (qpA .rts) cqA srqA
      { qpn := 6, sendCq := cqName, recvCq := cqName, sqDepth := 1024, rqDepth := 3, sqMaxGs := 60, rqMaxGs := 1, pd := 1
        bufBase := 0x10000 }, _, _, [0, 6], 8, 8, rfl, world_quiet .., rfl, rfl, by decide, by decide, world_cq .., world_cq ..,
      fun h e => (nomatch e), world_canInsert _ _ _ _ _ _ _ (by decide) (by decide), Or.inr ⟨rfl, by decide, by decide⟩, rfl,
      by decide⟩
  · exact ⟨world .memfree [] (qpA .rts) cqA srqA
      { qpn := 6, sendCq := cqName, recvCq := cqName, srq := some srqName, sqDepth := 4, sqMaxGs := 1, pd := 1
        bufBase := 0x10000 }, _, _, [0, 6], 8, 8, rfl, world_quiet .., rfl, rfl, by decide, by decide, world_cq .., world_cq ..,
      fun h e => ⟨9, by cases e; exact world_srq ..⟩, world_canInsert _ _ _ _ _ _ _ (by decide) (by decide),
      Or.inr ⟨rfl, by decide, by decide⟩, rfl, by decide⟩

/-- Creates of numbers whose entries are live, in either mode. -/
theorem witness_Busy_create : ∀ (m : Mode) (r1 r2 : List Nat),
    (m = .legacy ∧ r1 = [] ∧ r2 = []) ∨ (m = .memfree ∧ r1 = [0] ∧ r2 = [0, 6]) →
    ∃ (s : State) (op : Operands) (o1 o2 o3 : Occupant), s.quietStart ∧ s.me.op = op ∧ s.mode = m ∧ s.takesRecs 1 r1
      ∧ s.takesRecs 2 r2 ∧ Memory.wf s.mem = true
      ∧ createCqBad op s = false ∧ s.bufferOk (createCqBuf op s) = true ∧ (s.entry .cq (s.indexOf .cq op.cqn)).occ = some o1
      ∧ createSrqBad op s = false ∧ s.bufferOk (createSrqBuf op s) = true ∧ (s.entry .srq (s.indexOf .srq op.srqn)).occ = some o2
      ∧ createQpBad op s = false ∧ s.bufferOk (createQpBuf op s) = true ∧ s.names .cq op.sendCq 8 ∧ s.names .cq op.recvCq 8
      ∧ (∀ h, op.srq = some h → ∃ r, s.names .srq h r) ∧ (s.entry .qp (s.indexOf .qp op.qpn)).occ = some o3 := by
  rintro m r1 r2 (⟨rfl, rfl, rfl⟩ | ⟨rfl, rfl, rfl⟩)
  · exact ⟨world .legacy [] (qpA .rts) cqA srqA
      { cqn := 66, cqDepth := 7, srqn := 4, srqDepth := 8, maxGs := 1, qpn := 5, sendCq := cqName, recvCq := cqName
        sqDepth := 4, rqDepth := 4, sqMaxGs := 1, rqMaxGs := 1, bufBase := 0x10000 }, _, _, _, _, world_quiet .., rfl, rfl,
      Or.inl ⟨rfl, rfl⟩, Or.inl ⟨rfl, rfl⟩, rfl, by decide, by decide, rfl, by decide, by decide, rfl, by decide, by decide,
      world_cq .., world_cq .., fun h e => (nomatch e), rfl⟩
  · exact ⟨world .memfree [] (qpA .rts) cqA srqA
      { cqn := 66, cqDepth := 7, srqn := 4, srqDepth := 8, maxGs := 1, qpn := 5, sendCq := cqName, recvCq := cqName
        sqDepth := 4, rqDepth := 4, sqMaxGs := 1, rqMaxGs := 1, bufBase := 0x10000 }, _, _, _, _, world_quiet .., rfl, rfl,
      Or.inr ⟨rfl, by decide, by decide⟩, Or.inr ⟨rfl, by decide, by decide⟩, rfl, by decide, by decide, rfl, by decide,
      by decide, rfl, by decide, by decide, world_cq .., world_cq .., fun h e => (nomatch e), rfl⟩

/-- Creates with an operand out of range: a depth too large, buffers off their alignment. -/
theorem witness_Busy_outOfRange : ∃ (s : State) (op : Operands), s.quietStart ∧ s.me.op = op ∧ createCqBad op s = true
    ∧ createSrqBad op s = true ∧ createQpBad op s = true ∧ s.names .cq op.sendCq 8 ∧ s.names .cq op.recvCq 8
    ∧ ∀ h, op.srq = some h → ∃ r, s.names .srq h r :=
  ⟨world .memfree [] (qpA .rts) cqA srqA
      { cqn := 3, cqDepth := 65535, srqn := 5, srqDepth := 2, maxGs := 1, qpn := 6, sendCq := cqName, recvCq := cqName
        sqDepth := 2, rqDepth := 2, sqMaxGs := 1, rqMaxGs := 1, bufBase := 0x10010 }, _, world_quiet .., rfl, by decide, by decide,
    by decide, world_cq .., world_cq .., fun h e => (nomatch e)⟩

/-- One doorbell record is free, then none; the operands are in range. -/
theorem witness_Busy_noResources : ∀ n, n = 1 ∨ n = 0 → ∃ (s : State) (op : Operands), s.quietStart ∧ s.me.op = op
    ∧ s.mode = .memfree ∧ s.dbRecFree = n ∧ createCqBad op s = false ∧ s.bufferOk (createCqBuf op s) = true
    ∧ createSrqBad op s = false ∧ s.bufferOk (createSrqBuf op s) = true ∧ createQpBad op s = false
    ∧ s.bufferOk (createQpBuf op s) = true ∧ s.names .cq op.sendCq 8 ∧ s.names .cq op.recvCq 8
    ∧ ∀ h, op.srq = some h → ∃ r, s.names .srq h r := by
  rintro n (rfl | rfl) <;>
  exact ⟨{ world .memfree [] (qpA .rts) cqA srqA
      { cqn := 3, cqDepth := 7, srqn := 5, srqDepth := 8, maxGs := 1, qpn := 6, sendCq := cqName, recvCq := cqName
        sqDepth := 4, rqDepth := 4, sqMaxGs := 1, rqMaxGs := 1, bufBase := 0x10000 } with dbRecFree := _ }, _,
    ⟨⟨⟨Nat.one_ne_zero, rfl, rfl⟩, rfl, rfl⟩, rfl, rfl⟩, rfl, rfl, rfl, by decide, by decide, by decide, by decide, by decide,
    by decide, ⟨by rfl, by decide⟩, ⟨by rfl, by decide⟩, fun h e => (nomatch e)⟩

theorem witness_Busy_handles :
    (∃ s : State, s.quietStart ∧ s.lookup .cq s.me.op.sendCq = none)
    ∧ ∃ (s : State) (h : Handle), s.quietStart ∧ s.me.op.srq = some h ∧ s.lookup .srq h = none :=
  ⟨⟨world .legacy [] (qpA .rts) cqA srqA { sendCq := { cqName with gen := 1 }, recvCq := cqName }, world_quiet .., by decide⟩,
    world .legacy [] (qpA .rts) cqA srqA { sendCq := cqName, recvCq := cqName, srq := some { srqName with index := 5 } }, _,
    world_quiet .., rfl, by decide⟩

/-- Creates of new numbers whose firmware call fails. -/
theorem witness_Busy_mailbox : ∃ (s : State) (op : Operands) (a : FwAnswer) (rest : List FwAnswer), s.quietStart ∧ s.me.op = op
    ∧ s.fw = a :: rest ∧ a.status ≠ 0 ∧ Memory.wf s.mem = true
    ∧ (cqCapacity op.cqDepth.toNat = 8 ∧ createCqBad op s = false ∧ s.bufferOk (createCqBuf op s) = true ∧ s.canInsert .cq op.cqn
      ∧ s.takesRecs 2 [0, 6]
      ∧ ∀ r ∈ [0, 6], s.recAddr r + 8 ≤ op.bufBase.toNat ∨ op.bufBase.toNat + 32 * 8 ≤ s.recAddr r)
    ∧ ringCapacity s.mode op.srqDepth.toNat = 8 ∧ slotShift s.cfg (16 + 16 * op.maxGs.toNat) = 6 ∧ createSrqBad op s = false
    ∧ s.bufferOk (createSrqBuf op s) = true ∧ s.canInsert .srq op.srqn ∧ s.takesRecs 1 [0]
    ∧ ∀ r ∈ [0], s.recAddr r + 8 ≤ op.bufBase.toNat ∨ op.bufBase.toNat + 8 * 2 ^ 6 ≤ s.recAddr r :=
  ⟨{ world .memfree [] (qpA .rts) cqA srqA { cqn := 3, cqDepth := 7, srqn := 5, srqDepth := 8, maxGs := 1, bufBase := 0x10000 } with
      fw := [{ status := 3 }] }, _, _, _, quiet_fw (world_quiet ..) _, rfl, rfl, by decide, rfl,
    ⟨by decide, by decide, by decide, ⟨by decide, by decide, ⟨by rfl, by rfl, by rfl⟩, by decide⟩, Or.inr ⟨rfl, by decide, by decide⟩,
      by decide⟩,
    by decide, by decide, by decide, by decide, ⟨by decide, by decide, ⟨by rfl, by rfl, by rfl⟩, by decide⟩,
    Or.inr ⟨rfl, by decide, by decide⟩, by decide⟩

/-! `MODIFY_QP`, `QUERY_QP`, destroys. -/

/-- The world in which the requester modifies the QP. -/
abbrev modWorld (mem : List Host.Cell) (x : Qp) (mask : Word) (attrs : AttrValues) : State :=
  world .memfree mem x cqA srqA { qp := qpName, mask, attrs }

/-- No row (V-SM-4), and a supplied state of 7 (V-SM-5). -/
theorem witness_ModifyQpRejected_transition : ∀ new : QpState, new = .rtr ∨ new = .draining → ∃ (s : State) (x : Qp),
    s.quietStart ∧ s.names .qp s.me.op.qp 7 ∧ s.qp? 7 = some x ∧ curState x s.me.op = .reset ∧ newState x s.me.op = new
      ∧ (suppliesDraining s.me.op = true ∨ legalityOf s.cfg .reset new x.transport = none) := by
  intro new h
  exact ⟨modWorld [] (qpA .reset) 1 { qpState := new }, _, world_quiet .., world_qp .., rfl,
    by rcases h with rfl | rfl <;> decide,
    by rcases h with rfl | rfl <;> decide, by rcases h with rfl | rfl <;> decide⟩

/-- The masks of V-SM-3, V-SM-3b and V-SM-1, each with its row of the legality table. -/
theorem witness_ModifyQpRejected_attrs : ∀ mask : Word, mask = 0x29 ∨ mask = 0x79 ∨ mask = 0x39 →
    ∃ (s : State) (x : Qp) (row : LegalityRow) (tr : Transition),
      s.me.op.mask = mask ∧ s.quietStart ∧ s.names .qp s.me.op.qp 7 ∧ s.qp? 7 = some x ∧ curState x s.me.op = .reset
      ∧ newState x s.me.op = .init ∧ suppliesDraining s.me.op = false
      ∧ legalityOf s.cfg .reset .init x.transport = some row ∧ transitionOf .reset .init = some tr
      ∧ (mask = 0x29 → mask &&& row.required ≠ row.required)
      ∧ (mask = 0x79 → mask &&& row.required = row.required ∧ mask &&& ~~~(row.required ||| row.opt ||| 1) ≠ 0)
      ∧ (mask = 0x39 → mask &&& row.required = row.required ∧ mask &&& ~~~(row.required ||| row.opt ||| 1) = 0
          ∧ attrsOutOfRange s.cfg s.me.op = true) := by
  rintro mask (rfl | rfl | rfl) <;>
  exact ⟨modWorld [] (qpA .reset) _ { qpState := .init, accessFlags := 6 }, _,
    legalityRow .reset .init .rc [.pkeyIndex, .port, .accessFlags] [], .rst2init, rfl, world_quiet .., world_qp .., rfl, rfl,
    rfl, by decide, by decide, rfl, by decide, by decide, by decide⟩

theorem witness_ModifyQpMissingDestQpn : ∃ (s : State) (x : Qp),
    s.quietStart ∧ s.names .qp s.me.op.qp 7 ∧ s.qp? 7 = some x ∧ s.cfg.legality = defaultLegality ∧ x.transport = .rc
      ∧ x.state = .init ∧ s.me.op.attrs.qpState = .rtr
      ∧ s.me.op.mask = maskOf [.state, .av, .pathMtu, .rqPsn, .maxDestRdAtomic, .minRnrTimer] :=
  ⟨modWorld [] (qpA .init) 0x29181 { qpState := .rtr }, _, world_quiet .., world_qp .., rfl, rfl, rfl, rfl, rfl, by decide⟩

theorem witness_ModifyQpAccepted : ∃ (s : State) (x : Qp) (tr : Transition),
    s.quietStart ∧ s.names .qp s.me.op.qp 7 ∧ s.qp? 7 = some x ∧ modifyError s.cfg x s.me.op = none
      ∧ curState x s.me.op = .rts ∧ newState x s.me.op = .sqd ∧ transitionOf .rts .sqd = some tr ∧ s.fw = [{}]
      ∧ portCall s.cfg (x.commit .rts .sqd s.me.op) .rts .sqd = 0 :=
  ⟨modWorld [] (qpA .rts) 1 { qpState := .sqd }, _, _, world_quiet .., world_qp .., rfl, by decide, by decide, by decide, rfl,
    rfl, by decide⟩

/-- DRAINING kept on a further change to SQD; a change that supplies the port. -/
theorem witness_ModifyQpAccepted_commit :
    (∃ (s : State) (x : Qp), s.quietStart ∧ s.names .qp s.me.op.qp 7 ∧ s.qp? 7 = some x ∧ modifyError s.cfg x s.me.op = none
      ∧ x.state = .draining ∧ curState x s.me.op = .sqd ∧ newState x s.me.op = .sqd ∧ (transitionOf .sqd .sqd).isSome
      ∧ portCall s.cfg (x.commit .sqd .sqd s.me.op) .sqd .sqd = 0)
    ∧ ∃ (s : State) (x : Qp), s.quietStart ∧ s.names .qp s.me.op.qp 7 ∧ s.qp? 7 = some x ∧ modifyError s.cfg x s.me.op = none
      ∧ curState x s.me.op = .reset ∧ newState x s.me.op = .init ∧ (transitionOf .reset .init).isSome
      ∧ hasAttr s.me.op.mask .port = true ∧ hasAttr s.me.op.mask .accessFlags = true
      ∧ portCall s.cfg (x.commit .reset .init s.me.op) .reset .init = 0 :=
  ⟨⟨modWorld [] (qpA .draining) 1 { qpState := .sqd }, _, world_quiet .., world_qp .., rfl, by decide, rfl, by decide, by decide,
      by decide, by decide⟩,
    modWorld [] (qpA .reset) 0x39 { qpState := .init, portNum := 1 }, _, world_quiet .., world_qp .., rfl, by decide, by decide,
    by decide, by decide, by decide, by decide, by decide⟩

/-- V-SM-31 and V-SM-33: QP0 opens its port on INIT to RTR and closes it on RTS to ERR. -/
theorem witness_ModifyQpAccepted_port : ∀ cur new n, (cur = .init ∧ new = .rtr ∧ n = 1) ∨ (cur = .rts ∧ new = .err ∧ n = 2) →
    ∃ (s : State) (x : Qp) (tr : Transition),
      s.quietStart ∧ s.names .qp s.me.op.qp 7 ∧ s.qp? 7 = some x ∧ modifyError s.cfg x s.me.op = none
      ∧ curState x s.me.op = cur ∧ newState x s.me.op = new ∧ transitionOf cur new = some tr ∧ s.fw = [{}, {}]
      ∧ portCall s.cfg (x.commit cur new s.me.op) cur new = n := by
  rintro cur new n (⟨rfl, rfl, rfl⟩ | ⟨rfl, rfl, rfl⟩)
  · exact ⟨{ modWorld [] { qpA .init with transport := .mlx, qpn := 0, port := 1 } 1 { qpState := .rtr } with fw := [{}, {}] },
      _, _, quiet_fw (world_quiet ..) _, names_fw (world_qp ..) _, rfl, by decide, by decide, by decide, rfl, rfl, by decide⟩
  · exact ⟨{ modWorld [] { qpA .rts with transport := .mlx, qpn := 0, port := 1 } 1 { qpState := .err } with fw := [{}, {}] },
      _, _, quiet_fw (world_quiet ..) _, names_fw (world_qp ..) _, rfl, by decide, by decide, by decide, rfl, rfl, by decide⟩

theorem witness_MailboxFail : ∃ (s : State) (x : Qp) (a : FwAnswer) (rest : List FwAnswer) (tr : Transition),
    s.quietStart ∧ s.names .qp s.me.op.qp 7 ∧ s.qp? 7 = some x ∧ s.fw = a :: rest ∧ a.status ≠ 0
      ∧ modifyError s.cfg x s.me.op = none ∧ transitionOf (curState x s.me.op) (newState x s.me.op) = some tr :=
  ⟨{ modWorld [] (qpA .rts) 1 { qpState := .sqd } with fw := [{ status := 3 }] }, _, _, [], .rts2sqd, quiet_fw (world_quiet ..) _,
    names_fw (world_qp ..) _, rfl, rfl, by decide, by decide, by decide⟩

theorem world_emptyCq (m x z op) : (world m emptyCq x cqA z op).namesEmptyCq cqName 8 := ⟨world_cq .., cqA, rfl,
  (by decide : (memGet emptyCq (cqA.headAddr + 0x1F)).getLsbD 7 = true)⟩

/-- A QP without an SRQ, one with, and QP0 of port 1, which closes its port. -/
theorem witness_ModifyQpReset : ∀ x more, (x = qpA .err ∧ more = []) ∨ (x = qpB .rts ∧ more = [])
    ∨ (x = { qpA .rts with transport := .mlx, qpn := 0, port := 1 } ∧ more = [{ status := 4 }]) → ∃ (s : State) (cur : QpState),
    s.quietStart ∧ s.names .qp s.me.op.qp 7 ∧ s.qp? 7 = some x ∧ modifyError s.cfg x s.me.op = none
      ∧ curState x s.me.op = cur ∧ newState x s.me.op = .reset ∧ s.fw = {} :: (more ++ [])
      ∧ more.length = (if portCall s.cfg (x.commit cur .reset s.me.op) cur .reset = 0 then 0 else 1) ∧ s.namesEmptyCq x.sendCq 8
      ∧ s.namesEmptyCq x.recvCq 8 ∧ (∀ g, x.srq = some g → ∃ r, s.names .srq g r) ∧ Memory.wf s.mem = true := by
  rintro x more (⟨rfl, rfl⟩ | ⟨rfl, rfl⟩ | ⟨rfl, rfl⟩)
  · exact ⟨modWorld emptyCq (qpA .err) 1 { qpState := .reset }, _, world_quiet .., world_qp .., rfl, by decide, rfl, by decide,
      rfl, by decide, world_emptyCq .., world_emptyCq .., fun g h => (nomatch h), rfl⟩
  · exact ⟨modWorld emptyCq (qpB .rts) 1 { qpState := .reset }, _, world_quiet .., world_qp .., rfl, by decide, rfl, by decide,
      rfl, by decide, world_emptyCq .., world_emptyCq .., fun g h => ⟨9, by cases h; exact world_srq ..⟩, rfl⟩
  · have e : { modWorld emptyCq { qpA .rts with transport := .mlx, qpn := 0, port := 1 } 1 { qpState := .reset } with
        fw := [{}, { status := 4 }] }.namesEmptyCq cqName 8 := ⟨names_fw (world_cq ..) _, cqA, rfl,
      (by decide : (memGet emptyCq (cqA.headAddr + 0x1F)).getLsbD 7 = true)⟩
    exact ⟨{ modWorld emptyCq { qpA .rts with transport := .mlx, qpn := 0, port := 1 } 1 { qpState := .reset } with
        fw := [{}, { status := 4 }] }, _, quiet_fw (world_quiet ..) _, names_fw (world_qp ..) _, rfl, by decide, rfl, by decide,
      rfl, by decide, e, e, fun g h => (nomatch h), rfl⟩

/-- Two ranges, one above the other: no address is in both. -/
theorem apart {a n c k : Nat} (h : a + n ≤ c ∨ c + k ≤ a) (b : Nat) : Outside b (a, n) ∨ Outside b (c, k) := by
  simp only [Outside]; omega

/-- A second CQ of two slots, for receives. -/
def cqName2 : Handle := { kind := .cq, index := 3 }
def cqRecv : Cq := { self := cqName2, cqn := 3, capacity := 2, bufBase := 0x3000, armSn := 1, setCiRec := some 6, armRec := some 7 }

/-- The world with both CQs: in each a CQE of QP 5 waits, a send and a receive. -/
def cleanWorld (x : Qp) (op : Operands) : State :=
  { world .memfree (cqeMem 5 1 0x0A 0x80 ++ [(0x103F, 0x80), (0x3003, 5), (0x301C, 0x03), (0x303F, 0x80)]) x cqA srqPosted op with
    cqs := [(8, cqA), (10, cqRecv)], nextObj := 11, dbRecUsed := [1, 2, 3, 4, 5, 6, 7], dbRecFree := 57
    cqTable := (State.reset.cqTable.set 2 { occ := some { num := 2, obj := 8 } }).set 3 { occ := some { num := 3, obj := 10 } } }

/-- A QP with one CQ for both its rings, and one with two and with an SRQ. -/
theorem cleanWorld_cleanable : ∀ x c, (x = qpA .rts ∧ c = 8) ∨ (x = { qpB .rts with recvCq := cqName2 } ∧ c = 10) → ∀ op,
    (cleanWorld x op).cleanable x 8 c ((cleanWorld x op).recsOf [x.sqDbRec, x.rqDbRec])
    ∧ (cleanWorld x op).quietStart ∧ (∀ g, x.srq = some g → ∃ r z, (cleanWorld x op).names .srq g r ∧ (cleanWorld x op).srq? r = some z)
    ∧ Memory.wf (cleanWorld x op).mem = true := by
  have out : ∀ r b, Outside b (0x8000 + 8 * r, 8) ∨ (Outside b cqA.buffer ∧ Outside b cqRecv.buffer) := by
    intro r b
    show Outside b (0x8000 + 8 * r, 8) ∨ (Outside b (0x1000, 256) ∧ Outside b (0x3000, 64))
    simp only [Outside]; omega
  have out1 : ∀ r b, Outside b (0x8000 + 8 * r, 8) ∨ (Outside b cqA.buffer ∧ Outside b cqA.buffer) := by
    intro r b
    exact (out r b).imp_right fun h => ⟨h.1, h.1⟩
  have two : ∀ b, Outside b cqA.buffer ∨ Outside b cqRecv.buffer := by
    intro b
    show Outside b (0x1000, 256) ∨ Outside b (0x3000, 64)
    simp only [Outside]; omega
  have q : ∀ x op, (cleanWorld x op).quietStart := fun x op => ⟨⟨⟨Nat.one_ne_zero, rfl, rfl⟩, rfl, rfl⟩, rfl, rfl⟩
  rintro x c (⟨rfl, rfl⟩ | ⟨rfl, rfl⟩) op
  · exact ⟨⟨⟨by rfl, by decide⟩, ⟨by rfl, by decide⟩, fun h => absurd rfl h, cqA, cqA, rfl, rfl, ⟨3, by decide, rfl⟩,
      ⟨3, by decide, rfl⟩, fun h => absurd rfl h, fun r _ b => out1 r b⟩, q _ op, fun g h => (nomatch h), by rfl⟩
  · exact ⟨⟨⟨by rfl, by decide⟩, ⟨by rfl, by decide⟩, fun _ => by decide, cqA, cqRecv, rfl, rfl, ⟨3, by decide, rfl⟩,
      ⟨1, by decide, rfl⟩, fun _ => two, fun r _ b => out r b⟩, q _ op, 
      fun g h => ⟨9, _, by cases h; exact ⟨by rfl, by decide⟩, rfl⟩, by rfl⟩

theorem witness_CqCleaned : ∀ x c, (x = qpA .rts ∧ c = 8) ∨ (x = { qpB .rts with recvCq := cqName2 } ∧ c = 10) →
    ∃ s : State, s.quietStart ∧ s.names .qp s.me.op.qp 7 ∧ s.qp? 7 = some x ∧ modifyError s.cfg x s.me.op = none
      ∧ curState x s.me.op = .rts ∧ newState x s.me.op = .reset ∧ s.fw = {} :: ([] ++ [])
      ∧ portCall s.cfg (x.commit .rts .reset s.me.op) .rts .reset = 0
      ∧ s.cleanable x 8 c (s.recsOf [x.sqDbRec, x.rqDbRec]) ∧ (∀ g, x.srq = some g → ∃ r z, s.names .srq g r ∧ s.srq? r = some z)
      ∧ Memory.wf s.mem = true ∧ (s.cqes cqA).map cqeBytesQpn = [5] ∧ (s.cqes cqRecv).map (isRecvOf 5) = [true] := by
  intro x c h
  obtain ⟨h1, h2, h3, h4⟩ := cleanWorld_cleanable x c h { qp := qpName, mask := 1, attrs := { qpState := .reset } }
  refine ⟨cleanWorld x { qp := qpName, mask := 1, attrs := { qpState := .reset } }, h2, ?_, rfl, ?_, ?_, ?_, rfl, ?_, h1, h3, h4, ?_, ?_⟩
  · exact ⟨by rfl, by decide⟩
  all_goals rcases h with ⟨rfl, rfl⟩ | ⟨rfl, rfl⟩ <;> decide

theorem witness_QueryQp : ∃ (s : State) (x : Qp) (a : FwAnswer) (rest : List FwAnswer),
    s.quietStart ∧ s.names .qp s.me.op.qp 7 ∧ s.qp? 7 = some x ∧ x.state = .draining ∧ s.fw = a :: rest ∧ a.status = 0 :=
  ⟨world .legacy [] (qpA .draining) cqA srqA { qp := qpName }, _, _, _, world_quiet .., world_qp .., rfl, rfl, rfl, rfl⟩

/-- A QP in RESET without an SRQ, and one in RTS with one. -/
theorem witness_DestroyQp : ∀ x, x = qpA .reset ∨ x = qpB .rts → ∃ (s : State) (a : FwAnswer) (rest : List FwAnswer),
    s.quietStart ∧ s.names .qp s.me.op.qp 7 ∧ s.qp? 7 = some x ∧ x.refcount = 0 ∧ s.namesEmptyCq x.sendCq 8
      ∧ s.namesEmptyCq x.recvCq 8 ∧ x.sendCq = x.recvCq ∧ (∀ g, x.srq = some g → ∃ r, s.names .srq g r)
      ∧ s.fw = a :: rest ∧ s.recsOf [x.sqDbRec, x.rqDbRec] = [1, 2] ∧ Memory.wf s.mem = true := by
  rintro x (rfl | rfl)
  · exact ⟨world .memfree emptyCq (qpA .reset) cqA srqA { qp := qpName }, _, _, world_quiet .., world_qp .., rfl, rfl,
      world_emptyCq .., world_emptyCq .., rfl, fun g h => (nomatch h), rfl, rfl, rfl⟩
  · exact ⟨world .memfree emptyCq (qpB .rts) cqA srqA { qp := qpName }, _, _, world_quiet .., world_qp .., rfl, rfl,
      world_emptyCq .., world_emptyCq .., rfl, fun g h => ⟨9, by cases h; exact world_srq ..⟩, rfl, rfl, rfl⟩

/-- CQEs wait in the CQs of a QP that is destroyed. -/
theorem witness_DestroyQp_clean : ∀ x c, (x = qpA .rts ∧ c = 8) ∨ (x = { qpB .rts with recvCq := cqName2 } ∧ c = 10) →
    ∃ (s : State) (a : FwAnswer) (rest : List FwAnswer), s.quietStart ∧ s.names .qp s.me.op.qp 7 ∧ s.qp? 7 = some x
      ∧ x.refcount = 0 ∧ (∀ g, x.srq = some g → ∃ r, s.names .srq g r) ∧ s.fw = a :: rest
      ∧ s.cleanable x 8 c (s.recsOf [x.sqDbRec, x.rqDbRec]) ∧ (∀ g r, x.srq = some g → s.names .srq g r → ∃ z, s.srq? r = some z)
      ∧ Memory.wf s.mem = true := by
  intro x c h
  obtain ⟨h1, h2, h3, h4⟩ := cleanWorld_cleanable x c h { qp := qpName }
  refine ⟨cleanWorld x { qp := qpName }, _, _, h2, ⟨by rfl, by decide⟩, rfl, ?_,
    fun g e => let ⟨r, _, hr, _⟩ := h3 g e; ⟨r, hr⟩, rfl, h1, fun g r e hr => ?_, h4⟩
  rotate_left
  · obtain ⟨r', z, hr', hz⟩ := h3 g e
    cases hr.1.symm.trans hr'.1
    exact ⟨z, hz⟩
  rcases h with ⟨rfl, rfl⟩ | ⟨rfl, rfl⟩ <;> rfl

theorem witness_DestroyCq : ∃ (s : State) (y : Cq) (a : FwAnswer) (rest : List FwAnswer),
    s.quietStart ∧ s.names .cq s.me.op.cq 8 ∧ s.cq? 8 = some y ∧ y.attach = 0 ∧ s.fw = a :: rest
      ∧ s.recsOf [y.setCiRec, y.armRec] = [3, 4] ∧ Memory.wf s.mem = true :=
  ⟨world .memfree [] (qpA .rts) cqA srqA { cq := cqName }, _, _, _, world_quiet .., world_cq .., rfl, rfl, rfl, rfl, rfl⟩

theorem witness_DestroySrq : ∃ (s : State) (h : Handle) (y : Srq) (a : FwAnswer) (rest : List FwAnswer),
    s.quietStart ∧ s.me.op.srq = some h ∧ s.names .srq h 9 ∧ s.srq? 9 = some y ∧ y.attach = 0 ∧ s.fw = a :: rest
      ∧ s.recsOf [y.dbRec] = [5] ∧ Memory.wf s.mem = true :=
  ⟨world .memfree [] (qpA .rts) cqA srqA { srq := some srqName }, _, _, _, _, world_quiet .., rfl, world_srq .., rfl, rfl, rfl,
    rfl, rfl⟩

theorem witness_Busy_destroy :
    ∃ (s : State) (h : Handle) (y : Cq) (z : Srq), s.quietStart ∧ s.names .cq s.me.op.cq 8 ∧ s.cq? 8 = some y ∧ y.attach ≠ 0
      ∧ s.me.op.srq = some h ∧ s.names .srq h 9 ∧ s.srq? 9 = some z ∧ z.attach ≠ 0 :=
  ⟨world .legacy [] (qpA .rts) { cqA with attach := 1 } { srqA with attach := 1 } { cq := cqName, srq := some srqName }, _, _, _,
    world_quiet .., world_cq .., rfl, by decide, rfl, world_srq .., rfl, by decide⟩

/-! Posts. -/

/-- One entry of 64 bytes, as in `41_wqe_ring.md` R240. -/
def oneSge : List Sge := [{ addr := 0x20000, length := 64, lkey := 0x1234 }]

def oneSend : SendWr := { wrId := 0xA, opcode := 2, signaled := true, sg := oneSge }
def oneRecv : RecvWr := { wrId := 0x20, sg := oneSge }

abbrev postWorld (m : Mode) (x : Qp) (z : Srq) (sends : List SendWr) (recvs : List RecvWr) : State :=
  world m [] x cqA z { qp := qpName, srq := some srqName, sendWrs := sends, recvWrs := recvs }

/-- As `postWorld`, with a batch limit of two for sends. -/
def batchWorld (m : Mode) (sends : List SendWr) : State :=
  { postWorld m (qpA .rts) srqA sends [] with cfg := { vectorConfig with legacySendDbBatch := 2, mfSendDbBatch := 2 } }

theorem batchWorld_quiet (m sends) : (batchWorld m sends).quietStart := ⟨⟨⟨Nat.one_ne_zero, rfl, rfl⟩, rfl, rfl⟩, rfl, rfl⟩
theorem batchWorld_qp (m sends) : (batchWorld m sends).names .qp qpName 7 := ⟨by rfl, by decide⟩
theorem batchWorld_cq (m sends) : (batchWorld m sends).names .cq cqName 8 := ⟨by rfl, by decide⟩

theorem witness_PostEmpty : ∃ (s : State) (x : Qp) (h : Handle),
    s.quietStart ∧ s.me.op.sendWrs = [] ∧ s.me.op.recvWrs = [] ∧ s.names .qp s.me.op.qp 7 ∧ s.qp? 7 = some x
      ∧ postStateOk s.cfg x.state true = true ∧ postStateOk s.cfg x.state false = true ∧ s.me.op.srq = some h
      ∧ s.names .srq h 9 :=
  ⟨postWorld .legacy (qpA .rts) srqA [] [], _, _, world_quiet .., rfl, rfl, world_qp .., rfl, by decide, by decide, rfl,
    world_srq ..⟩

/-- A record table above a QP's buffer: no byte of a record is a byte of a slot. -/
theorem world_recs_apart {m x z sends recvs rs} (a n p : Nat) (ha : a + n ≤ 0x8000) (hp : p + 8 ≤ 0x8000) :
    ∀ r ∈ (postWorld m x z sends recvs).recsOf rs, ∀ b, Outside b ((postWorld m x z sends recvs).recAddr r, 4)
      ∨ (Outside b (a, n) ∧ Outside b (p, 8)) := by
  intro r _ b
  have : (postWorld m x z sends recvs).recAddr r = 0x8000 + 8 * r := rfl
  rw [this]
  simp only [Outside]; omega

/-- An ordinary send in either mode, and an inline one at the QP's largest inline length. -/
theorem witness_PostSendOne : ∀ (m : Mode) (wr : SendWr),
    wr = oneSend ∨ wr = { oneSend with inl := true, sg := [{ addr := 0x20000, length := 12 }] } →
    ∃ (s : State) (x : Qp) (size : Nat),
      s.mode = m ∧ s.quietStart ∧ postsOne .postSend s.me.op wr ∧ s.names .qp s.me.op.qp 7 ∧ s.qp? 7 = some x
      ∧ postStateOk s.cfg x.state true = true ∧ x.sq.count < x.sq.capacity ∧ opcodeLegal x.transport wr.opcode = true
      ∧ (isInline wr = false → wr.sg.length ≤ x.sq.maxGs)
      ∧ (isInline wr = true → inlineLen wr.sg ≤ x.maxInline.toNat ∧ inlineOwned wr s = true)
      ∧ x.sq.nextInd = 0 ∧ x.sq.lastIdx = 3 ∧ x.slotAddr true 0 = 0x4100 ∧ x.slotAddr true 3 = 0x41C0
      ∧ sendSize s.mode x wr = size ∧ 16 * size ≤ 2 ^ x.sq.shift ∧ wqeOpcode wr.opcode = 0x0A
      ∧ transportFields s.mode x wr = [] ∧ Memory.wf s.mem = true
      ∧ ∀ r ∈ s.recsOf [x.sqDbRec], ∀ b, Outside b (s.recAddr r, 4) ∨ (Outside b (0x4100, 16 * size) ∧ Outside b (0x41C0, 8)) := by
  rintro m wr (rfl | rfl) <;> cases m <;>
  exact ⟨postWorld _ (qpA .rts) srqA [_] [], _, 2, rfl, world_quiet .., Or.inl ⟨rfl, rfl⟩, world_qp .., rfl, by decide,
    by decide, by decide, by decide, by decide, rfl, rfl, by decide, by decide, by decide, by decide, by decide, rfl, rfl,
    world_recs_apart _ _ _ (by decide) (by decide)⟩

/-- The rows of the work-request opcodes take their request from the operand record. -/
theorem witness_PostSendOne_rows : ∀ e ∈ wrRows, ∃ (s : State) (x : Qp) (wr : SendWr) (size : Nat),
    s.quietStart ∧ postsOne e.1 s.me.op wr ∧ s.names .qp s.me.op.qp 7 ∧ s.qp? 7 = some x
      ∧ postStateOk s.cfg x.state true = true ∧ x.sq.count < x.sq.capacity ∧ opcodeLegal x.transport wr.opcode = true
      ∧ isInline wr = false ∧ wr.sg.length ≤ x.sq.maxGs ∧ sendSize s.mode x wr = size ∧ 16 * size ≤ 2 ^ x.sq.shift := by
  intro e he
  refine ⟨postWorld .legacy (qpA .rts) srqA [oneSend] [], _, { oneSend with opcode := e.2 }, _, world_quiet ..,
    Or.inr ⟨e, he, rfl, rfl⟩, world_qp .., rfl, by decide, by decide, ?_, ?_, Nat.le_refl 1, rfl, ?_⟩ <;>
  revert e <;> decide

/-- A batch limit of two: three requests that fill three slots, in `LEGACY` with none left, in `MEMFREE` with one that fails a
check left; and four that fill the ring, with a fifth. -/
theorem witness_PostSendList : ∀ (m : Mode) (n : Nat) (left : List SendWr) (st : Status),
    (m, n, left, st) ∈ [(Mode.legacy, 3, ([] : List SendWr), Status.ok), (.memfree, 3, [{ opcode := 7 }], .invalidOpcode),
      (.legacy, 4, [oneSend], .queueFull), (.memfree, 0, [{ opcode := 2, sg := oneSge ++ oneSge }], .tooManySge)] →
    ∃ (s : State) (x : Qp), s.mode = m ∧ s.quietStart ∧ s.me.op.sendWrs = List.replicate n oneSend ++ left
      ∧ s.names .qp s.me.op.qp 7 ∧ s.qp? 7 = some x ∧ postStateOk s.cfg x.state true = true ∧ x.sq.Wf ∧ x.sq.capacity = 4
      ∧ x.sq.lastIdx = (x.sq.nextInd + 4 - 1) % 4 ∧ x.sq.count + (List.replicate n oneSend).length ≤ 4
      ∧ (∀ j wr, (List.replicate n oneSend)[j]? = some wr → s.sendPasses x wr
        ∧ 16 * sendSize s.mode (x.sent s.mode ((List.replicate n oneSend).take j)) wr ≤ 2 ^ x.sq.shift)
      ∧ s.sendEnds x (List.replicate n oneSend).length left st ∧ s.batchLimit (.sq 7) = 2 ∧ Memory.wf s.mem = true
      ∧ ∀ r ∈ s.recsOf [x.sqDbRec], ∀ b, Outside b (s.recAddr r, 4) ∨ Outside b x.buffer := by
  intro m n left st h
  have pass : ∀ (s : State) (n j : Nat) (wr : SendWr), (List.replicate n oneSend)[j]? = some wr → s.sendPasses (qpA .rts) wr
      ∧ 16 * sendSize s.mode ((qpA .rts).sent s.mode ((List.replicate n oneSend).take j)) wr ≤ 2 ^ (qpA .rts).sq.shift := by
    intro s n j wr h
    obtain rfl := List.eq_of_mem_replicate (List.mem_of_getElem? h)
    exact ⟨⟨by decide, by decide, fun h => (nomatch h)⟩, by
      have e : sendSize s.mode ((qpA .rts).sent s.mode ((List.replicate n oneSend).take j)) oneSend = 2 := by
        simp [sendSize, transportFields, Qp.sent, qpA, oneSend, fieldBytes, sendUnits, isInline, oneSge]
      rw [e]; decide⟩
  have apart : ∀ (r b : Nat), Outside b (0x8000 + 8 * r, 4) ∨ Outside b (qpA .rts).buffer := by
    intro r b
    show Outside b (0x8000 + 8 * r, 4) ∨ Outside b (0x4000, 512)
    simp only [Outside]; omega
  simp only [List.mem_cons, List.not_mem_nil, or_false, Prod.mk.injEq] at h
  obtain ⟨rfl, rfl, rfl, rfl⟩ | ⟨rfl, rfl, rfl, rfl⟩ | ⟨rfl, rfl, rfl, rfl⟩ | ⟨rfl, rfl, rfl, rfl⟩ := h
  · exact ⟨batchWorld .legacy (List.replicate 3 oneSend), _, rfl, batchWorld_quiet .., rfl, batchWorld_qp .., rfl, by decide,
      ⟨rfl, fun _ => by decide, by decide⟩, rfl, by decide, by decide, pass _ _, rfl, rfl, rfl, fun r _ b => apart r b⟩
  · exact ⟨batchWorld .memfree (List.replicate 3 oneSend ++ [{ opcode := 7 }]), _, rfl, batchWorld_quiet .., rfl,
      batchWorld_qp .., rfl, by decide, ⟨rfl, fun _ => by decide, by decide⟩, rfl, by decide, by decide, pass _ _,
      Or.inr ⟨by decide, Or.inl ⟨by decide, rfl⟩⟩, rfl, rfl, fun r _ b => apart r b⟩
  · exact ⟨batchWorld .legacy (List.replicate 4 oneSend ++ [oneSend]), _, rfl, batchWorld_quiet .., rfl, batchWorld_qp .., rfl,
      by decide, ⟨rfl, fun _ => by decide, by decide⟩, rfl, by decide, by decide, pass _ _,
      Or.inl ⟨by decide, rfl, 8, batchWorld_cq ..⟩, rfl, rfl, fun r _ b => apart r b⟩
  · exact ⟨batchWorld .memfree [{ opcode := 2, sg := oneSge ++ oneSge }], _, rfl, batchWorld_quiet .., rfl, batchWorld_qp .., rfl,
      by decide, ⟨rfl, fun _ => by decide, by decide⟩, rfl, by decide, by decide, pass _ _,
      Or.inr ⟨by decide, Or.inr (Or.inl ⟨by decide, by decide, by decide, rfl⟩)⟩, rfl, rfl, fun r _ b => apart r b⟩

/-- A send of 8 inline bytes. -/
def inlineSend : SendWr := { wrId := 0xD, opcode := 2, inl := true, sg := [{ addr := 0x20000, length := 8 }] }

/-- An inline request behind one that is not. -/
theorem witness_PostSendList_inline : ∃ (s : State) (x : Qp), s.quietStart ∧ s.me.op.sendWrs = [oneSend, inlineSend] ++ []
    ∧ s.names .qp s.me.op.qp 7 ∧ s.qp? 7 = some x ∧ postStateOk s.cfg x.state true = true ∧ x.sq.Wf ∧ x.sq.capacity = 4
    ∧ x.sq.lastIdx = (x.sq.nextInd + 4 - 1) % 4 ∧ x.sq.count + [oneSend, inlineSend].length ≤ 4
    ∧ (∀ j wr, [oneSend, inlineSend][j]? = some wr → s.sendPasses x wr
      ∧ 16 * sendSize s.mode (x.sent s.mode ([oneSend, inlineSend].take j)) wr ≤ 2 ^ x.sq.shift)
    ∧ s.sendEnds x [oneSend, inlineSend].length [] .ok ∧ s.batchLimit (.sq 7) = 2 ∧ Memory.wf s.mem = true
    ∧ (∀ r ∈ s.recsOf [x.sqDbRec], ∀ b, Outside b (s.recAddr r, 4) ∨ Outside b x.buffer)
    ∧ [oneSend, inlineSend][1]? = some inlineSend ∧ isInline inlineSend = true
    ∧ ∀ e ∈ inlineSend.sg, ∀ k, k < e.length.toNat → Outside (e.addr.toNat + k) x.buffer
      ∧ ∀ r ∈ s.recsOf [x.sqDbRec], Outside (e.addr.toNat + k) (s.recAddr r, 4) := by
  refine ⟨batchWorld .memfree ([oneSend, inlineSend] ++ []), qpA .rts, batchWorld_quiet .., rfl, batchWorld_qp .., rfl, by decide,
    ⟨rfl, fun _ => by decide, by decide⟩, rfl, by decide, by decide, fun j wr h => ?_, rfl, rfl, rfl, fun r hr b => ?_, rfl, by decide,
    fun e he k hk => ?_⟩
  · rcases j with _ | _ | j
    · cases h; exact ⟨⟨by decide, by decide, fun h => (nomatch h)⟩, by decide⟩
    · cases h; exact ⟨⟨by decide, fun h => (nomatch h), fun _ => ⟨by decide, by decide +kernel⟩⟩, by decide⟩
    · cases h
  · obtain rfl : r = 1 := by simpa [State.recsOf, batchWorld, world, qpA] using hr
    show Outside b (0x8000 + 8 * 1, 4) ∨ Outside b (0x4000, 512)
    simp only [Outside]; omega
  · obtain rfl : e = { addr := 0x20000, length := 8 } := by simpa [inlineSend] using he
    refine ⟨?_, fun r hr => ?_⟩
    · show Outside (0x20000 + k) (0x4000, 512)
      simp only [Outside]; omega
    · obtain rfl : r = 1 := by simpa [State.recsOf, batchWorld, world, qpA] using hr
      show Outside (0x20000 + k) (0x8000 + 8 * 1, 4)
      simp only [Outside]; omega

theorem witness_PostRecvOne : ∀ m : Mode, ∃ (s : State) (x : Qp) (size : Nat),
    s.mode = m ∧ s.quietStart ∧ s.me.op.recvWrs = [oneRecv] ∧ s.names .qp s.me.op.qp 7 ∧ s.qp? 7 = some x
      ∧ postStateOk s.cfg x.state false = true ∧ x.rq.count < x.rq.capacity ∧ oneRecv.sg.length ≤ x.rq.maxGs
      ∧ x.rq.nextInd = 0 ∧ x.rq.lastIdx = 3 ∧ x.slotAddr false 0 = 0x4000 ∧ x.slotAddr false 3 = 0x40C0
      ∧ recvSize s.mode oneRecv.sg.length x.rq.maxGs = size ∧ 16 * size ≤ 2 ^ x.rq.shift ∧ Memory.wf s.mem = true
      ∧ ∀ r ∈ s.recsOf [x.rqDbRec], ∀ b, Outside b (s.recAddr r, 4) ∨ (Outside b (0x4000, 16 * size) ∧ Outside b (0x40C0, 8)) := by
  intro m
  cases m <;>
  exact ⟨postWorld _ (qpA .init) srqA [] [oneRecv], _, 2, rfl, world_quiet .., rfl, world_qp .., rfl, by decide, by decide,
    by decide, rfl, rfl, by decide, by decide, by decide, by decide, rfl, world_recs_apart _ _ _ (by decide) (by decide)⟩

theorem witness_PostSrqRecvOne : ∀ m : Mode, ∃ (s : State) (h : Handle) (y : Srq) (size : Nat),
    s.mode = m ∧ s.quietStart ∧ s.me.op.recvWrs = [oneRecv] ∧ s.me.op.srq = some h ∧ s.names .srq h 9 ∧ s.srq? 9 = some y
      ∧ y.freeHead = some 0 ∧ y.link.getD 0 none = some 1 ∧ oneRecv.sg.length ≤ y.maxGs ∧ y.lastIdx = 3
      ∧ y.slotAddr 0 = 0x2000 ∧ y.slotAddr 3 = 0x20C0 ∧ recvSize s.mode oneRecv.sg.length y.maxGs = size
      ∧ 16 * size ≤ 2 ^ y.shift ∧ Memory.wf s.mem = true
      ∧ ∀ r ∈ s.recsOf [y.dbRec], ∀ b, Outside b (s.recAddr r, 4) ∨ (Outside b (0x2000, 16 * size) ∧ Outside b (0x20C0, 8)) := by
  intro m
  cases m <;>
  exact ⟨postWorld _ (qpB .init) srqA [] [oneRecv], _, _, 2, rfl, world_quiet .., rfl, rfl, world_srq .., rfl, rfl, rfl,
    by decide, rfl, by decide, by decide, by decide, by decide, rfl, world_recs_apart _ _ _ (by decide) (by decide)⟩

/-- A batch limit of two receives: three that fill three slots, with none left and with one of too many entries left; four that fill
the ring, with a fifth; none, with a failing one. -/
theorem witness_PostRecv_list : ∀ (m : Mode) (n : Nat) (left : List RecvWr) (st : Status),
    (m, n, left, st) ∈ [(Mode.legacy, 3, ([] : List RecvWr), Status.ok), (.memfree, 3, [{ sg := oneSge ++ oneSge }], .tooManySge),
      (.legacy, 4, [oneRecv], .queueFull), (.memfree, 0, [{ sg := oneSge ++ oneSge }], .tooManySge)] →
    ∃ (s : State) (x : Qp), s.mode = m ∧ s.quietStart ∧ s.me.op.recvWrs = List.replicate n oneRecv ++ left
      ∧ s.names .qp s.me.op.qp 7 ∧ s.qp? 7 = some x ∧ postStateOk s.cfg x.state false = true ∧ x.rq.Wf ∧ x.rq.capacity = 4
      ∧ x.rq.lastIdx = (x.rq.nextInd + 4 - 1) % 4 ∧ x.rq.count + (List.replicate n oneRecv).length ≤ 4
      ∧ (∀ wr ∈ List.replicate n oneRecv, wr.sg.length ≤ x.rq.maxGs
        ∧ 16 * recvSize s.mode wr.sg.length x.rq.maxGs ≤ 2 ^ x.rq.shift)
      ∧ s.recvEnds x (List.replicate n oneRecv).length left st ∧ s.batchLimit (.rq 7) = (if m = .legacy then 256 else 255)
      ∧ Memory.wf s.mem = true
      ∧ ∀ r ∈ s.recsOf [x.rqDbRec], ∀ b, Outside b (s.recAddr r, 4) ∨ Outside b (x.bufBase.toNat, 4 * 2 ^ x.rq.shift) := by
  intro m n left st h
  have pass : ∀ (m : Mode) (n : Nat), ∀ wr ∈ List.replicate n oneRecv, wr.sg.length ≤ (qpA .rts).rq.maxGs
      ∧ 16 * recvSize m wr.sg.length (qpA .rts).rq.maxGs ≤ 2 ^ (qpA .rts).rq.shift := by
    intro m n wr h
    obtain rfl := List.eq_of_mem_replicate h
    cases m <;> decide
  have apart : ∀ (r b : Nat), Outside b (0x8000 + 8 * r, 4) ∨ Outside b (0x4000, 256) := by
    intro r b
    simp only [Outside]; omega
  simp only [List.mem_cons, List.not_mem_nil, or_false, Prod.mk.injEq] at h
  obtain ⟨rfl, rfl, rfl, rfl⟩ | ⟨rfl, rfl, rfl, rfl⟩ | ⟨rfl, rfl, rfl, rfl⟩ | ⟨rfl, rfl, rfl, rfl⟩ := h
  · exact ⟨postWorld .legacy (qpA .rts) srqA [] (List.replicate 3 oneRecv ++ []), _, rfl, world_quiet .., rfl, world_qp .., rfl,
      by decide, ⟨rfl, fun _ => by decide, by decide⟩, rfl, by decide, by decide, pass _ _, rfl, by decide, rfl, fun r _ b => apart r b⟩
  · exact ⟨postWorld .memfree (qpA .rts) srqA [] (List.replicate 3 oneRecv ++ [{ sg := oneSge ++ oneSge }]), _, rfl, world_quiet ..,
      rfl, world_qp .., rfl, by decide, ⟨rfl, fun _ => by decide, by decide⟩, rfl, by decide, by decide, pass _ _,
      Or.inr ⟨by decide, by decide, rfl⟩, by decide, rfl, fun r _ b => apart r b⟩
  · exact ⟨postWorld .legacy (qpA .rts) srqA [] (List.replicate 4 oneRecv ++ [oneRecv]), _, rfl, world_quiet .., rfl, world_qp .., rfl,
      by decide, ⟨rfl, fun _ => by decide, by decide⟩, rfl, by decide, by decide, pass _ _,
      Or.inl ⟨by decide, rfl, 8, world_cq ..⟩, by decide, rfl, fun r _ b => apart r b⟩
  · exact ⟨postWorld .memfree (qpA .rts) srqA [] [{ sg := oneSge ++ oneSge }], _, rfl, world_quiet .., rfl, world_qp .., rfl,
      by decide, ⟨rfl, fun _ => by decide, by decide⟩, rfl, by decide, by decide, pass _ _,
      Or.inr ⟨by decide, by decide, rfl⟩, by decide, rfl, fun r _ b => apart r b⟩

theorem srqA_wf : srqA.Wf := by
  have e : srqA.freeList = [0, 1, 2, 3] := by decide
  refine ⟨rfl, rfl, by rw [e]; decide, fun i => ?_, by rw [e]; rfl, by rw [e]; rfl, rfl⟩
  rw [e]
  by_cases h : i < 4
  · interval_cases i <;> decide
  · simp only [List.mem_cons, List.not_mem_nil, or_false]
    have : srqA.capacity = 4 := rfl
    omega

/-- Two requests on an SRQ with none left; four that empty its free list, with a fifth; none, with one of too many entries. -/
theorem witness_PostSrqRecv_list : ∀ (m : Mode) (n : Nat) (left : List RecvWr) (st : Status),
    (n, left, st) ∈ [(2, ([] : List RecvWr), Status.ok), (4, [oneRecv], .queueFull), (0, [{ sg := oneSge ++ oneSge }], .tooManySge)] →
    ∃ (s : State) (h : Handle) (y : Srq), s.mode = m ∧ s.quietStart ∧ s.me.op.recvWrs = List.replicate n oneRecv ++ left
      ∧ s.me.op.srq = some h ∧ s.names .srq h 9 ∧ s.srq? 9 = some y ∧ y.Wf ∧ y.lastIdx < y.capacity
      ∧ (List.replicate n oneRecv).length ≤ y.freeList.length
      ∧ (∀ wr ∈ List.replicate n oneRecv, wr.sg.length ≤ y.maxGs ∧ 16 * recvSize s.mode wr.sg.length y.maxGs ≤ 2 ^ y.shift)
      ∧ y.postEnds (List.replicate n oneRecv).length left st ∧ 0 < s.batchLimit (.srq 9) ∧ Memory.wf s.mem = true
      ∧ ∀ r ∈ s.recsOf [y.dbRec], ∀ b, Outside b (s.recAddr r, 4) ∨ Outside b y.buffer := by
  intro m n left st h
  have pass : ∀ (m : Mode) (n : Nat), ∀ wr ∈ List.replicate n oneRecv, wr.sg.length ≤ srqA.maxGs
      ∧ 16 * recvSize m wr.sg.length srqA.maxGs ≤ 2 ^ srqA.shift := by
    intro m n wr h
    obtain rfl := List.eq_of_mem_replicate h
    cases m <;> decide
  have apart : ∀ (r b : Nat), Outside b (0x8000 + 8 * r, 4) ∨ Outside b srqA.buffer := by
    intro r b
    show Outside b (0x8000 + 8 * r, 4) ∨ Outside b (0x2000, 256)
    simp only [Outside]; omega
  simp only [List.mem_cons, List.not_mem_nil, or_false, Prod.mk.injEq] at h
  obtain ⟨rfl, rfl, rfl⟩ | ⟨rfl, rfl, rfl⟩ | ⟨rfl, rfl, rfl⟩ := h
  · exact ⟨postWorld m (qpB .rts) srqA [] (List.replicate 2 oneRecv ++ []), _, _, rfl, world_quiet .., rfl, rfl, world_srq .., rfl,
      srqA_wf, by decide, by decide, pass _ _, rfl, by cases m <;> decide, rfl, fun r _ b => apart r b⟩
  · exact ⟨postWorld m (qpB .rts) srqA [] (List.replicate 4 oneRecv ++ [oneRecv]), _, _, rfl, world_quiet .., rfl, rfl, world_srq ..,
      rfl, srqA_wf, by decide, by decide, pass _ _, Or.inl ⟨by decide, rfl⟩, by cases m <;> decide, rfl, fun r _ b => apart r b⟩
  · exact ⟨postWorld m (qpB .rts) srqA [] [{ sg := oneSge ++ oneSge }], _, _, rfl, world_quiet .., rfl, rfl, world_srq .., rfl,
      srqA_wf, by decide, by decide, pass _ _, Or.inr ⟨by decide, by decide, rfl⟩, by cases m <;> decide, rfl, fun r _ b => apart r b⟩

theorem witness_PostRejected_state : ∃ (s : State) (x : Qp),
    s.quietStart ∧ s.names .qp s.me.op.qp 7 ∧ s.qp? 7 = some x ∧ postStateOk s.cfg x.state true = false
      ∧ postStateOk s.cfg x.state false = false :=
  ⟨postWorld .legacy (qpA .err) srqA [] [], _, world_quiet .., world_qp .., rfl, by decide, by decide⟩

/-- Both rings full. -/
def qpFull : Qp := { qpA .rts with sq := { freshRing 4 6 1 with head := 4 }, rq := { freshRing 4 6 1 with head := 4 } }

theorem witness_PostRejected_full : ∃ (s : State) (x : Qp),
    s.quietStart ∧ s.names .qp s.me.op.qp 7 ∧ s.qp? 7 = some x ∧ s.me.op.sendWrs = [oneSend] ∧ s.me.op.recvWrs = [oneRecv]
      ∧ postStateOk s.cfg x.state true = true ∧ postStateOk s.cfg x.state false = true ∧ x.sq.capacity ≤ x.sq.count
      ∧ x.rq.capacity ≤ x.rq.count ∧ s.names .cq x.sendCq 8 ∧ s.names .cq x.recvCq 8 :=
  ⟨postWorld .legacy qpFull srqA [oneSend] [oneRecv], _, world_quiet .., world_qp .., rfl, rfl, rfl, by decide, by decide,
    by decide, by decide, world_cq .., world_cq ..⟩

/-- Opcode 7, two entries on rings of one, and thirteen inline bytes where twelve are the most. -/
theorem witness_PostRejected_request : ∃ (s : State) (x : Qp) (w1 w2 w3 : SendWr) (v : RecvWr),
    s.quietStart ∧ s.names .qp s.me.op.qp 7 ∧ s.qp? 7 = some x ∧ postStateOk s.cfg x.state true = true
      ∧ postStateOk s.cfg x.state false = true ∧ x.sq.count < x.sq.capacity ∧ x.rq.count < x.rq.capacity
      ∧ s.me.op.sendWrs = [w1, w2, w3] ∧ s.me.op.recvWrs = [v] ∧ opcodeLegal x.transport w1.opcode = false
      ∧ opcodeLegal x.transport w2.opcode = true ∧ isInline w2 = false ∧ x.sq.maxGs < w2.sg.length
      ∧ opcodeLegal x.transport w3.opcode = true ∧ isInline w3 = true ∧ x.maxInline.toNat < inlineLen w3.sg
      ∧ x.rq.maxGs < v.sg.length :=
  ⟨postWorld .legacy (qpA .rts) srqA
      [{ opcode := 7 }, { opcode := 2, sg := oneSge ++ oneSge }, { opcode := 2, inl := true, sg := [{ length := 13 }] }]
      [{ sg := oneSge ++ oneSge }], _, _, _, _, _, world_quiet .., world_qp .., rfl, by decide, by decide, by decide, by decide,
    rfl, rfl, by decide, by decide, by decide, by decide, by decide, by decide, by decide, by decide⟩

theorem witness_PostRejected_srq :
    (∃ (s : State) (h : Handle) (y : Srq), s.quietStart ∧ s.me.op.srq = some h ∧ s.names .srq h 9 ∧ s.srq? 9 = some y
      ∧ s.me.op.recvWrs = [oneRecv] ∧ y.freeHead = none)
    ∧ ∃ (s : State) (h : Handle) (y : Srq) (wr : RecvWr), s.quietStart ∧ s.me.op.srq = some h ∧ s.names .srq h 9
      ∧ s.srq? 9 = some y ∧ s.me.op.recvWrs = [wr] ∧ y.freeHead ≠ none ∧ y.maxGs < wr.sg.length :=
  ⟨⟨postWorld .legacy (qpB .rts) { srqA with freeHead := none } [] [oneRecv], _, _, world_quiet .., rfl, world_srq .., rfl, rfl,
      rfl⟩,
    postWorld .legacy (qpB .rts) srqA [] [{ sg := oneSge ++ oneSge }], _, _, _, world_quiet .., rfl, world_srq .., rfl, rfl,
    by decide, by decide⟩

theorem witness_LinkRows_send : ∃ (s : State) (x : Qp),
    s.quietStart ∧ s.names .qp s.me.op.qp 7 ∧ s.qp? 7 = some x ∧ postStateOk s.cfg x.state true = true ∧ 0 < x.sq.capacity
      ∧ x.slotAddr true x.sq.lastIdx = 0x41C0 ∧ Memory.wf s.mem = true :=
  ⟨postWorld .memfree (qpA .sqd) srqA [] [], _, world_quiet .., world_qp .., rfl, by decide, by decide, by decide, rfl⟩

theorem witness_LinkRows_recv :
    (∃ (s : State) (x : Qp), s.quietStart ∧ Memory.wf s.mem = true ∧ s.me.op.srq = none ∧ s.names .qp s.me.op.qp 7
      ∧ s.qp? 7 = some x ∧ postStateOk s.cfg x.state false = true ∧ 0 < x.rq.capacity
      ∧ x.slotAddr false x.rq.lastIdx = 0x40C0)
    ∧ ∃ (s : State) (h : Handle) (y : Srq), s.quietStart ∧ Memory.wf s.mem = true ∧ s.me.op.srq = some h
      ∧ s.names .srq h 9 ∧ s.srq? 9 = some y ∧ y.slotAddr y.lastIdx = 0x20C0 :=
  ⟨⟨world .legacy [] (qpA .sqe) cqA srqA { qp := qpName }, _, world_quiet .., rfl, rfl, world_qp .., rfl, by decide, by decide,
      by decide⟩,
    postWorld .legacy (qpA .rts) srqA [] [], _, _, world_quiet .., rfl, rfl, world_srq .., rfl, by decide⟩

/-! Polls. -/

abbrev pollWorld (m : Mode) (mem : List Host.Cell) (x : Qp) (y : Cq) (z : Srq) (n : Word) : State :=
  world m mem x y z { cq := cqName, maxEntries := n }

theorem witness_PollEmpty :
    (∃ s : State, s.idle ∧ s.started = true ∧ s.names .cq s.me.op.cq 8 ∧ s.cq? 8 = some cqA ∧ s.cqeHwOwned cqA.headAddr = true)
    ∧ (∃ s : State, s.idle ∧ s.started = true ∧ s.names .cq s.me.op.cq 8 ∧ s.cq? 8 = some cqA ∧ s.me.op.maxEntries = 0)
    ∧ ∃ s : State, s.idle ∧ s.started = true ∧ s.names .cq s.me.op.cq 8 ∧ s.cq? 8 = some cqA ∧ cqeRow .cqeSend08 = true
      ∧ s.cqeHwOwned cqA.headAddr = false ∧ s.cqeMatches .cqeSend08 cqA.headAddr = false :=
  ⟨⟨pollWorld .legacy emptyCq qpPosted cqA srqA 4, (world_quiet ..).1, rfl, world_cq .., rfl, by decide⟩,
    ⟨pollWorld .legacy [] qpPosted cqA srqA 0, (world_quiet ..).1, rfl, world_cq .., rfl, rfl⟩,
    pollWorld .legacy (cqeMem 5 1 0x09 0x80) qpPosted cqA srqA 4, (world_quiet ..).1, rfl, world_cq .., rfl, rfl, by decide,
    by decide⟩

/-- A send CQE, a receive CQE, and in `MEMFREE` an error CQE, by `POLL_CQ` and by the row of their kind. -/
theorem witness_PollOne : ∀ (m : Mode) (w op b : Byte) (row : Instr) (isSend : Bool),
    (w, op, b, row, isSend) ∈ [((1 : Byte), (0x0A : Byte), (0x80 : Byte), Instr.cqeSend0A, true),
      (1, 0x18, 0x80, .cqeSend18, true), (0, 0x63, 0, .cqeRecv03 3, false)] ∨
      ((w, op, b, row, isSend) = (1, 0xFF, 0, .cqeError true, true) ∧ m = .memfree) → ∀ i, i = .pollCq ∨ i = row →
    ∃ (s : State) (x : Qp) (id : BitVec 64), s.mode = m ∧ s.idle ∧ s.started = true ∧ s.names .cq s.me.op.cq 8
      ∧ s.cq? 8 = some cqA ∧ cqA.headAddr = 0x1000 ∧ s.cqeHwOwned 0x1000 = false ∧ s.pollsOne i 0x1000
      ∧ s.lookupNum .qp (s.cqeQpn 0x1000) = some 7 ∧ s.qp? 7 = some x ∧ s.cqeIsSend 0x1000 = isSend
      ∧ (isSend = false → x.srq = none) ∧ x.wqeIndex isSend (s.cqeWord 0x1000 0x18).toNat = some 0
      ∧ (x.ring isSend).wrid.getD 0 none = some id ∧ s.legacyErrDue 0x1000 = 0 := by
  intro m w op b row isSend h i hi
  have hp : ∀ mem, (pollWorld m mem qpPosted cqA srqA 1).cqeMatches row 0x1000 = true → cqeRow row = true →
      (pollWorld m mem qpPosted cqA srqA 1).pollsOne i 0x1000 := by
    intro mem h1 h2
    rcases hi with rfl | rfl
    · exact Or.inl ⟨rfl, rfl⟩
    · exact Or.inr ⟨h2, h1⟩
  simp only [List.mem_cons, List.not_mem_nil, or_false, Prod.mk.injEq] at h
  obtain (⟨rfl, rfl, rfl, rfl, rfl⟩ | ⟨rfl, rfl, rfl, rfl, rfl⟩ | ⟨rfl, rfl, rfl, rfl, rfl⟩)
    | ⟨⟨rfl, rfl, rfl, rfl, rfl⟩, rfl⟩ := h
  · cases m <;>
    exact ⟨pollWorld _ (cqeMem 5 1 0x0A 0x80) qpPosted cqA srqA 1, _, _, rfl, (world_quiet ..).1, rfl, world_cq .., rfl,
      by decide, by decide, hp _ (by decide) rfl, by decide, rfl, by decide, fun _ => rfl, by decide, rfl, by decide⟩
  · cases m <;>
    exact ⟨pollWorld _ (cqeMem 5 1 0x18 0x80) qpPosted cqA srqA 1, _, _, rfl, (world_quiet ..).1, rfl, world_cq .., rfl,
      by decide, by decide, hp _ (by decide) rfl, by decide, rfl, by decide, fun _ => rfl, by decide, rfl, by decide⟩
  · cases m <;>
    exact ⟨pollWorld _ (cqeMem 5 0 0x63 0) qpPosted cqA srqA 1, _, _, rfl, (world_quiet ..).1, rfl, world_cq .., rfl,
      by decide, by decide, hp _ (by decide) rfl, by decide, rfl, by decide, fun _ => rfl, by decide, rfl, by decide⟩
  · exact ⟨pollWorld .memfree (cqeMem 5 1 0xFF 0) qpPosted cqA srqA 1, _, _, rfl, (world_quiet ..).1, rfl, world_cq .., rfl,
      by decide, by decide, hp _ (by decide) rfl, by decide, rfl, by decide, fun _ => rfl, by decide, rfl, by decide⟩

/-- A poll of four entries: the CQE of a send, one of a number that names no QP, and then a slot of the hardware's. -/
theorem witness_PollOne_several : ∀ m : Mode, ∃ (s u : State) (z : Cq) (l : List (Option CompRec × Bool)),
    s.mode = m ∧ s.idle ∧ s.started = true ∧ s.names .cq s.me.op.cq 8 ∧ s.cq? 8 = some cqA ∧ s.pollsAll 8 l u ∧ u.cq? 8 = some z
      ∧ (l.filterMap (·.1)).length = 1 ∧ (l.filter (·.2)).length = 2 ∧ l.length ≤ s.me.op.maxEntries.toNat + cqA.capacity
      ∧ (∀ k, k < l.length → ((l.take k).filterMap (·.1)).length < s.me.op.maxEntries.toNat)
      ∧ u.cqeHwOwned z.headAddr = true := by
  intro m
  cases m <;>
  exact ⟨pollWorld _ (cqeMem 5 1 0x0A 0x80 ++ [(0x1023, 9), (0x105F, 0x80)]) qpPosted cqA srqA 4, _, _, [(some _, true), (none, true)],
    rfl, (world_quiet ..).1, rfl, world_cq .., rfl,
    ⟨_, ⟨cqA, 0x1000, rfl, by decide, by decide, Or.inl ⟨7, qpPosted, true, 0, 0xA, by decide, by decide, rfl, by decide,
        fun h => (nomatch h), by decide, rfl, by decide, rfl, rfl, rfl⟩⟩,
      _, ⟨{ cqA with consIndex := 1 }, 0x1020, rfl, by decide, by decide,
        Or.inr (Or.inr (Or.inr ⟨Or.inl (by decide), rfl, rfl, rfl⟩))⟩, rfl⟩,
    rfl, rfl, rfl, by decide, fun k hk => by
      have : k < 2 := hk
      interval_cases k <;> decide, by decide⟩

/-- A poll of one entry that a kept error CQE fills, and none goes back. -/
theorem witness_PollOne_kept : ∃ (s u : State) (z : Cq) (l : List (Option CompRec × Bool)),
    s.idle ∧ s.started = true ∧ s.names .cq s.me.op.cq 8 ∧ s.cq? 8 = some cqA ∧ s.pollsAll 8 l u ∧ u.cq? 8 = some z
      ∧ (l.filterMap (·.1)).length = s.me.op.maxEntries.toNat ∧ (l.filter (·.2)).length = 0 ∧ l.length = 1 :=
  ⟨pollWorld .legacy [(0x1003, 5), (0x1013, 1), (0x101A, 1), (0x101C, 0xFF), (0x4107, 0x82)] qpPosted cqA srqA 1, _, _,
    [(some _, false)], (world_quiet ..).1, rfl, world_cq .., rfl,
    ⟨_, ⟨cqA, 0x1000, rfl, by decide, by decide, Or.inr (Or.inl ⟨7, qpPosted, true, 0, 0xA, 0x4100, 2, 1, 1, by decide, by decide, rfl,
        by decide, fun h => (nomatch h), by decide, rfl, by decide, rfl, ⟨by decide, by decide, by decide, by decide⟩,
        Or.inl ⟨by decide, by decide, rfl, rfl⟩⟩)⟩, rfl⟩, rfl, rfl, rfl, rfl⟩

theorem witness_PollSrq : ∃ (s : State) (x : Qp) (g : Handle), s.idle ∧ s.started = true ∧ s.names .cq s.me.op.cq 8
    ∧ s.cq? 8 = some cqA ∧ s.cqeHwOwned 0x1000 = false ∧ s.pollsOne .pollCq 0x1000
    ∧ s.lookupNum .qp (s.cqeQpn 0x1000) = some 7 ∧ s.qp? 7 = some x ∧ s.cqeIsSend 0x1000 = false ∧ x.srq = some g
    ∧ s.names .srq g 9 ∧ s.srq? 9 = some srqPosted ∧ srqPosted.wqeIndex (s.cqeWord 0x1000 0x18).toNat = some 0
    ∧ srqPosted.wrid.getD 0 none = some 0xC :=
  ⟨pollWorld .memfree (cqeMem 5 0 0x04 0) (qpB .rts) cqA srqPosted 1, _, _, (world_quiet ..).1, rfl, world_cq .., rfl,
    by decide, Or.inl ⟨rfl, rfl⟩, by decide, rfl, by decide, rfl, world_srq .., rfl, by decide, rfl⟩

/-- An error CQE of send slot 0, whose header says there is a next WQE of two units; with a doorbell credit left, and without. -/
theorem witness_PollErrorLegacy : ∀ cnt : Byte, cnt = 1 ∨ cnt = 0 → ∃ (s : State) (x : Qp), s.mode = .legacy ∧ s.idle
    ∧ s.started = true ∧ s.names .cq s.me.op.cq 8 ∧ s.cq? 8 = some cqA ∧ cqA.headAddr = 0x1000 ∧ s.cqeHwOwned 0x1000 = false
    ∧ s.pollsOne .pollCq 0x1000 ∧ s.lookupNum .qp (s.cqeQpn 0x1000) = some 7 ∧ s.qp? 7 = some x
    ∧ s.cqeIsSend 0x1000 = true ∧ isErrOpcode (s.cqeByte 0x1000 0x1C) = true
    ∧ x.wqeIndex true (s.cqeWord 0x1000 0x18).toNat = some 0 ∧ (x.ring true).wrid.getD 0 none = some 0xA
    ∧ x.slotAddr true 0 = 0x4100 ∧ s.memRead (0x4100 + 4) 4 % 64 = 2 ∧ s.memRead (0x4100 + 4) 4 / 128 % 2 = 1
    ∧ s.memRead (0x1000 + 0x12) 2 = cnt.toNat := by
  rintro cnt (rfl | rfl)
  · exact ⟨pollWorld .legacy [(0x1003, 5), (0x1013, 1), (0x101A, 1), (0x101C, 0xFF), (0x4107, 0x82)] qpPosted cqA srqA 1, _, rfl,
      (world_quiet ..).1, rfl, world_cq .., rfl, by decide, by decide, Or.inl ⟨rfl, rfl⟩, by decide, rfl, by decide, by decide,
      by decide, rfl, by decide, by decide, by decide, by decide⟩
  · exact ⟨pollWorld .legacy [(0x1003, 5), (0x101A, 1), (0x101C, 0xFF), (0x4107, 0x82)] qpPosted cqA srqA 1, _, rfl,
      (world_quiet ..).1, rfl, world_cq .., rfl, by decide, by decide, Or.inl ⟨rfl, rfl⟩, by decide, rfl, by decide, by decide,
      by decide, rfl, by decide, by decide, by decide, by decide⟩

/-- QP 9 is not live; offset 512 of QP 5 is the first past its send ring; slot 0 of the SRQ is not posted. By the row of the CQE's
kind, and by `POLL_CQ` for any number of entries, with the next slot the hardware's. -/
theorem witness_PollDecodeError : ∀ (i row : Instr), i = .pollCq ∨ i = row →
    (row = .cqeSend0A →
      (∃ s : State, s.idle ∧ s.started = true ∧ s.names .cq s.me.op.cq 8 ∧ s.cq? 8 = some cqA ∧ s.cqeHwOwned 0x1000 = false
        ∧ ((i = .pollCq ∧ s.me.op.maxEntries ≠ 0
            ∧ (s.memWrite (0x1000 + 0x1F) 1 0x80).cqeHwOwned (cqA.slotAddr (cqA.consIndex + 1).toNat) = true)
          ∨ (cqeRow i = true ∧ s.cqeMatches i 0x1000 = true)) ∧ s.lookupNum .qp (s.cqeQpn 0x1000) = none)
      ∧ ∃ (s : State) (x : Qp), s.idle ∧ s.started = true ∧ s.names .cq s.me.op.cq 8 ∧ s.cq? 8 = some cqA
        ∧ s.cqeHwOwned 0x1000 = false
        ∧ ((i = .pollCq ∧ s.me.op.maxEntries ≠ 0
            ∧ (s.memWrite (0x1000 + 0x1F) 1 0x80).cqeHwOwned (cqA.slotAddr (cqA.consIndex + 1).toNat) = true)
          ∨ (cqeRow i = true ∧ s.cqeMatches i 0x1000 = true))
        ∧ s.lookupNum .qp (s.cqeQpn 0x1000) = some 7 ∧ s.qp? 7 = some x ∧ s.cqeIsSend 0x1000 = true
        ∧ x.wqeIndex true (s.cqeWord 0x1000 0x18).toNat = none)
    ∧ (row = .cqeRecv03 0 → ∃ (s : State) (x : Qp) (g : Handle), s.idle ∧ s.started = true ∧ s.names .cq s.me.op.cq 8
      ∧ s.cq? 8 = some cqA ∧ s.cqeHwOwned 0x1000 = false
      ∧ ((i = .pollCq ∧ s.me.op.maxEntries ≠ 0
          ∧ (s.memWrite (0x1000 + 0x1F) 1 0x80).cqeHwOwned (cqA.slotAddr (cqA.consIndex + 1).toNat) = true)
        ∨ (cqeRow i = true ∧ s.cqeMatches i 0x1000 = true))
      ∧ s.lookupNum .qp (s.cqeQpn 0x1000) = some 7 ∧ s.qp? 7 = some x ∧ s.cqeIsSend 0x1000 = false ∧ x.srq = some g
      ∧ s.names .srq g 9 ∧ s.srq? 9 = some srqA ∧ srqA.wqeIndex (s.cqeWord 0x1000 0x18).toNat = none) := by
  rintro i row hi
  constructor
  · rintro rfl
    constructor
    · refine ⟨pollWorld .legacy (cqeMem 9 1 0x0A 0x80 ++ [(0x103F, 0x80)]) qpPosted cqA srqA 4, (world_quiet ..).1, rfl,
        world_cq .., rfl, by decide, ?_, by decide⟩
      rcases hi with rfl | rfl
      · exact Or.inl ⟨rfl, by decide, by decide⟩
      · exact Or.inr ⟨rfl, by decide⟩
    · refine ⟨pollWorld .legacy (cqeMem 5 2 0x0A 0x80 ++ [(0x103F, 0x80)]) qpPosted cqA srqA 4, _, (world_quiet ..).1, rfl,
        world_cq .., rfl, by decide, ?_, by decide, rfl, by decide, by decide⟩
      rcases hi with rfl | rfl
      · exact Or.inl ⟨rfl, by decide, by decide⟩
      · exact Or.inr ⟨rfl, by decide⟩
  · rintro rfl
    refine ⟨pollWorld .memfree (cqeMem 5 0 0x03 0 ++ [(0x103F, 0x80)]) (qpB .rts) cqA srqA 4, _, _, (world_quiet ..).1, rfl,
      world_cq .., rfl, by decide, ?_, by decide, rfl, by decide, rfl, world_srq .., rfl, by decide⟩
    rcases hi with rfl | rfl
    · exact Or.inl ⟨rfl, by decide, by decide⟩
    · exact Or.inr ⟨rfl, by decide⟩

/-- CQEs of each clause: an error, listed and unlisted send types, listed and unlisted receive types. -/
theorem witness_CompletionFields : ∀ b ∈ ([0xFF, 0x08, 0x18, 0x13, 0x63, 0x0B, 0x04] : List Byte), ∃ s : State,
    s.cqeByte 0x1000 0x1C = b :=
  fun b _ => ⟨pollWorld .legacy [(0x101C, b)] qpPosted cqA srqA 1, rfl⟩

theorem witness_ReqNotify_legacy : ∃ s : State, s.quietStart ∧ s.mode = .legacy ∧ s.names .cq s.me.op.cq 8
    ∧ s.cq? 8 = some cqA :=
  ⟨pollWorld .legacy [] qpPosted cqA srqA 1, world_quiet .., rfl, world_cq .., rfl⟩

theorem witness_ReqNotify_memfree : ∃ (s : State) (y : Cq), s.quietStart ∧ s.mode = .memfree ∧ s.names .cq s.me.op.cq 8
    ∧ s.cq? 8 = some y ∧ y.armRec = some 4 ∧ y.armSn.toNat % 4 = 3 ∧ Memory.wf s.mem = true :=
  ⟨pollWorld .memfree [] qpPosted { cqA with armSn := 0xFFFFFFFF } srqA 1, _, world_quiet .., rfl, world_cq .., rfl, rfl,
    by decide, rfl⟩

/-! Events, doorbells, rings, waits, stops. -/

theorem world_eventIdle (m mem x y z op) : (world m mem x y z op).eventIdle := ⟨rfl, rfl, rfl⟩

theorem witness_EventCompletion : ∃ s : State, s.eventIdle ∧ s.started = true ∧ s.lookupNum .cq 2 = some 8
    ∧ s.cq? 8 = some cqA :=
  ⟨world .legacy [] (qpA .rts) cqA srqA {}, world_eventIdle .., rfl, by decide, rfl⟩

/-- `SQ_DRAINED` at a draining QP; the last type. -/
theorem witness_EventQp : ∀ ty : Byte, ty = 2 ∨ ty = 6 → ∃ (s : State) (x : Qp), s.eventIdle ∧ s.started = true ∧ ty.toNat ≤ 6
    ∧ s.lookupNum .qp 5 = some 7 ∧ s.qp? 7 = some x ∧ x.state = .draining := by
  rintro ty (rfl | rfl) <;>
  exact ⟨world .legacy [] (qpA .draining) cqA srqA {}, _, world_eventIdle .., rfl, by decide, by decide, rfl, rfl⟩

theorem witness_EventFatal : ∃ s : State, s.eventIdle ∧ s.started = true ∧ s.tablesWf
    ∧ (∀ i o, (s.entry .qp i).occ = some o → o.obj ≠ 0 ∧ (s.qp? o.obj).isSome) ∧ (s.entry .qp 5).occ.isSome := by
  refine ⟨world .legacy [] (qpA .rts) cqA srqA {}, world_eventIdle .., rfl, world_tables .., ?_, rfl⟩
  intro i o h
  obtain ⟨-, -, rfl⟩ | ⟨h, -⟩ | ⟨h, -⟩ := world_entry h
  · exact ⟨by decide, rfl⟩
  · cases h
  · cases h

theorem witness_EventIgnored :
    (∃ s : State, s.eventIdle ∧ s.lookupNum .cq 3 = none ∧ s.lookupNum .qp 69 = none)
      ∧ (∃ s : State, s.eventIdle ∧ 6 < (7 : Byte).toNat) ∧ ∃ s : State, s.eventIdle ∧ s.started = false :=
  ⟨⟨world .legacy [] (qpA .rts) cqA srqA {}, world_eventIdle .., by decide, by decide⟩,
    ⟨world .legacy [] (qpA .rts) cqA srqA {}, world_eventIdle .., by decide⟩, State.reset, ⟨rfl, rfl, rfl⟩, rfl⟩

/-- A CQ with an empty ring and an arm: not taken yet, or taken. -/
def cqArmed (arms : List Arm) (armed : Option Arm) : Cq := { cqA with arms, armed }

/-- The world with an input to come. -/
def inputWorld (mem : List Host.Cell) (x : Qp) (y : Cq) (i : Input) : State :=
  { world .memfree mem x y srqA {} with inbox := [i] }

def completionBytes : List Byte := [0x80, 0, 0, 2, 0, 0, 0, 0]

/-- A completion event for a CQ that is not armed, and one that the machine takes. -/
theorem witness_DeviceContract_event :
    (∃ (s : State) (y : Cq), s.inbox = [.event completionBytes none] ∧ decode .event completionBytes = .ok (.eventCompletion 2)
      ∧ s.started = true ∧ s.lookupNum .cq 2 = some 8 ∧ s.cq? 8 = some y ∧ y.mayNotify = false)
    ∧ ∃ (s t : State) (y : Cq), s.inbox = [.event completionBytes none] ∧ s.started = true ∧ s.lookupNum .cq 2 = some 8
      ∧ s.cq? 8 = some y ∧ step s = .next t ∧ t.eventOut = [.completion cqName] := by
  refine ⟨⟨inputWorld [] (qpA .rts) cqA (.event completionBytes none), _, rfl, rfl, rfl, by decide, rfl, rfl⟩, ?_⟩
  have h : after (step (inputWorld [] (qpA .rts) (cqArmed [] (some {})) (.event completionBytes none))) State.eventOut
      = some [.completion cqName] := by decide +kernel
  obtain ⟨t, h1, h2⟩ := after_some h
  exact ⟨_, t, cqArmed [] (some {}), rfl, rfl, by decide, rfl, h1, h2⟩

/-- A device that has failed, its failure delivered, and not. -/
theorem witness_DeviceContract_failed : ∀ x : Input, ∃ s : State, s.inbox = [x] ∧ s.started = true ∧ s.deviceFailed = true
    ∧ s.fatal = false :=
  fun x => ⟨{ inputWorld [] (qpA .rts) cqA x with eventQ := [[0x82, 0, 0, 0, 0, 0, 0, 0]] }, rfl, rfl, by rfl, rfl⟩

/-- A slot the core owns; a ring the core has not freed a slot of. -/
theorem witness_DeviceContract_slot :
    (∃ (s : State) (y : Cq), s.lookupNum .cq 2 = some 8 ∧ s.cq? 8 = some y ∧ s.cqeHwOwned y.prodAddr = false)
    ∧ ∃ (s : State) (y : Cq), s.lookupNum .cq 2 = some 8 ∧ s.cq? 8 = some y ∧ s.cqeHwOwned y.prodAddr = true
      ∧ y.capacity ≤ (y.devProd - y.devCons).toNat :=
  ⟨⟨inputWorld [] (qpA .rts) cqA .takeEvent, _, by decide, rfl, by decide⟩,
    inputWorld emptyCq (qpA .rts) { cqA with devProd := 8 } .takeEvent, _, by decide, rfl, by decide, by decide⟩

/-- The owner byte of the CQE of the one send posted. -/
theorem witness_DeviceContract_owner : ∃ (s t : State), s.inbox = [.deviceOwner 2 0] ∧ Memory.wf s.mem = true
    ∧ s.lookupNum .cq 2 = some 8 ∧ s.cq? 8 = some cqA ∧ step s = .next t := by
  have h : after (step (inputWorld (cqeMem 5 1 0x0A 0x80 ++ emptyCq) qpPosted cqA (.deviceOwner 2 0)))
      (fun t => (t.cq? 8).map (·.devProd)) = some (some 1) := by decide +kernel
  obtain ⟨t, h1, -⟩ := after_some h
  exact ⟨_, t, rfl, rfl, by decide, rfl, h1⟩

/-- An arm with the device's sequence number, one without, and a stale one. -/
theorem witness_DeviceContract_arm : ∀ a : Arm, a ∈ [({ sn := some 1 } : Arm), {}, { sn := some 0 }] →
    (cqArmed [a] none).arms[0]? = some a ∧ (cqArmed [a] none).devSn.setWidth 2 = (1 : BitVec 2) := by
  intro a _
  exact ⟨rfl, rfl⟩

/-- A send ring with three sends in its slots 0 to 2, published and covered from the first on. -/
def threeSends : Ring := (freshRing 4 6 1).filled .legacy [(0xA, 0x0A), (0xB, 0x0A), (0xC, 0x0A)]

/-- A send CQE of slot `j` of QP 5 is about to come; of three sends, the first is that of a `LEGACY` error CQE that waits, whose
chain ends at the second. -/
def chainWorld (j op : Byte) : State :=
  { inputWorld ([(0x1003, 5), (0x1010, 0x15), (0x1013, 1), (0x101A, 1), (0x101C, 0xFF), (0x1023, 5), (0x103A, 1), (0x103B, j * 64),
      (0x103C, op), (0x103D, 0x80), (0x103F, 0x80), (0x4102, 1), (0x4103, 0x4A), (0x4107, 0x82)].filter fun e => decide (e.2 ≠ 0))
    { qpA .rts with sq := { threeSends with devDone := 1, chain := some (1, 1) } }
    { cqA with devProd := 1 } (.deviceOwner 2 0) with mode := .legacy }

/-- The CQE of the second of three sends is about to come, none reported yet; the flags of the first one's header end in `flags`, and
the first that the device may read is number `first`. -/
def passWorld (flags : Byte) (first : Nat) : State :=
  { inputWorld ([(0x1003, 5), (0x101A, 1), (0x101B, 0x40), (0x101C, 0x0A), (0x101D, 0x80), (0x101F, 0x80), (0x410B, flags)])
    { qpA .rts with sq := { threeSends with first := first } } cqA (.deviceOwner 2 0) with mode := .legacy }

/-- The first of three sends that no rule covers more of is the second: slot 1 holds number 2 alone. -/
theorem second_of_three {n : Nat} (h : (n - 1) % 4 = 1) (hl : n ≤ 3) : n = 2 := by omega

/-- The report that comes next, behind the chain of an error CQE that waits; the report of the second send, which passes over the
first, whose header asks for no completion. -/
theorem witness_DeviceContract_report :
    (∃ (s t : State) (y : Cq) (x : Qp), s.inbox = [.deviceOwner 2 0] ∧ s.lookupNum .cq 2 = some 8 ∧ s.cq? 8 = some y
      ∧ s.deviceQp (s.cqeQpn y.prodAddr) = some 7 ∧ s.qp? 7 = some x ∧ s.cqeIsSend y.prodAddr = true
      ∧ x.wqeIndex true (s.cqeWord y.prodAddr 0x18).toNat = some 2 ∧ s.ringDone x true = 2 ∧ step s = .next t)
    ∧ ∃ (s t : State) (x : Qp), s.inbox = [.deviceOwner 2 0] ∧ s.lookupNum .cq 2 = some 8 ∧ s.cq? 8 = some cqA
      ∧ s.deviceQp (s.cqeQpn cqA.prodAddr) = some 7 ∧ s.qp? 7 = some x ∧ s.cqeIsSend cqA.prodAddr = true
      ∧ x.wqeIndex true (s.cqeWord cqA.prodAddr 0x18).toNat = some 1 ∧ s.ringDone x true = 0 ∧ step s = .next t := by
  have h1 : after (step (chainWorld 2 0x0A)) (fun t => (t.qp? 7).map (·.sq.devDone)) = some (some 3) := by decide +kernel
  have h2 : after (step (passWorld 1 1)) (fun t => (t.qp? 7).map (·.sq.devDone)) = some (some 2) := by decide +kernel
  obtain ⟨t1, h1, -⟩ := after_some h1
  obtain ⟨t2, h2, -⟩ := after_some h2
  exact ⟨⟨_, t1, _, _, rfl, by decide, rfl, by decide, rfl, by decide, by decide, by decide +kernel, h1⟩,
    _, t2, _, rfl, by decide, rfl, by decide, rfl, by decide, by decide, by decide +kernel, h2⟩

/-- Reports that break the order: of a send that the chain has passed, of another opcode, past a send that asks for its completion,
past one that the device may not read, and of a send where it may read none. -/
theorem witness_DeviceContract_refused :
    step (chainWorld 1 0x0A) = .refused .deviceContract ∧ step (chainWorld 2 0x0B) = .refused .deviceContract
    ∧ step (passWorld 9 1) = .refused .deviceContract ∧ step (passWorld 1 2) = .refused .deviceContract
    ∧ step (passWorld 1 0) = .refused .deviceContract :=
  ⟨refused_of (by decide +kernel), refused_of (by decide +kernel), refused_of (by decide +kernel), refused_of (by decide +kernel),
    refused_of (by decide +kernel)⟩

/-- Two of them meet the clause's premise by its ring: the CQE of slot 1 is that of number 2, which has been passed, or which follows
one that asks for its completion. -/
theorem witness_DeviceContract_order :
    (∃ (s : State) (y : Cq) (x : Qp), s.inbox = [.deviceOwner 2 0] ∧ s.cq? 8 = some y ∧ s.qp? 7 = some x
      ∧ x.wqeIndex true (s.cqeWord y.prodAddr 0x18).toNat = some 1
      ∧ ∀ n, (n - 1) % x.sq.capacity = 1 → n ≤ x.sq.live → n ≤ s.ringDone x true)
    ∧ ∃ (s : State) (x : Qp), s.inbox = [.deviceOwner 2 0] ∧ s.cq? 8 = some cqA ∧ s.qp? 7 = some x
      ∧ x.wqeIndex true (s.cqeWord cqA.prodAddr 0x18).toNat = some 1
      ∧ ∀ n, (n - 1) % x.sq.capacity = 1 → n ≤ x.sq.live → ∃ m, s.ringDone x true < m ∧ m < n
        ∧ s.memRead (x.slotAddr true ((m - 1) % x.sq.capacity) + 8) 4 / 8 % 2 ≠ 0 := by
  refine ⟨⟨chainWorld 1 0x0A, _, _, rfl, rfl, rfl, by decide, fun n h hl => ?_⟩,
    passWorld 9 1, _, rfl, rfl, rfl, by decide, fun n h hl => ?_⟩
  · obtain rfl := second_of_three h hl; decide +kernel
  · obtain rfl := second_of_three h hl
    exact ⟨1, by decide +kernel, by decide, by decide +kernel⟩

/-- An error CQE that waits, whose credit of 1 the chain uses up, and one at the end of its credit. -/
theorem witness_DeviceContract_chain : ∀ cnt, cnt = 1 ∨ cnt = 0 → ∃ (s : State) (x : Qp), x.sq.chain = some (1, cnt) ∧ cnt < 65536
    ∧ 1 ≤ x.sq.live ∧ x.sq.live < 1 + x.sq.capacity ∧ s.ringDone x true = cnt + 1 := by
  rintro cnt (rfl | rfl)
  · exact ⟨chainWorld 1 0x0A, { qpA .rts with sq := { threeSends with chain := some (1, 1) } }, rfl, by decide, by decide, by decide,
      by decide +kernel⟩
  · exact ⟨chainWorld 1 0x0A, { qpA .rts with sq := { threeSends with chain := some (1, 0) } }, rfl, by decide, by decide, by decide,
      by decide +kernel⟩

/-- On an SRQ the report of its one WQE, and one of a slot where none is. -/
theorem witness_DeviceContract_srq :
    (∃ (s t : State) (x : Qp), s.inbox = [.deviceOwner 2 0] ∧ s.lookupNum .cq 2 = some 8 ∧ s.cq? 8 = some cqA
      ∧ s.deviceQp (s.cqeQpn cqA.prodAddr) = some 7 ∧ s.qp? 7 = some x ∧ s.cqeIsSend cqA.prodAddr = false
      ∧ x.srq = some srqName ∧ s.lookup .srq srqName = some 9 ∧ s.srq? 9 = some srqPosted
      ∧ (s.cqeWord cqA.prodAddr 0x18).toNat / 2 ^ srqPosted.shift = 0 ∧ step s = .next t)
    ∧ ∀ n, (1, n) ∈ srqPosted.queue → n ≤ (qpB .rts).srqDone ∨ srqPosted.first = 0 ∨ n < srqPosted.first := by
  refine ⟨?_, fun n h => by simp [srqPosted, srqA] at h⟩
  have h : after (step { inputWorld (cqeMem 5 0 0x03 0 ++ emptyCq) (qpB .rts) cqA (.deviceOwner 2 0) with
      srqs := [(9, srqPosted)] }) (fun t => (t.qp? 7).map (·.srqDone)) = some (some 1) := by decide +kernel
  obtain ⟨t, h1, -⟩ := after_some h
  exact ⟨_, t, _, rfl, by decide, rfl, by decide, rfl, by decide, rfl, by rfl, rfl, by decide, h1⟩

/-- The CQE of a QP comes in a live CQ that is not the QP's for its kind; that of a QP whose entry is gone comes in its CQ. -/
theorem witness_DeviceContract_cq :
    (∃ (s : State) (x : Qp), s.inbox = [.deviceOwner 2 0] ∧ s.lookupNum .cq 2 = some 8 ∧ s.cq? 8 = some cqA
      ∧ s.deviceQp (s.cqeQpn cqA.prodAddr) = some 7 ∧ s.qp? 7 = some x
      ∧ s.lookup .cq (if s.cqeIsSend cqA.prodAddr then x.sendCq else x.recvCq) = some 10 ∧ step s = .refused .deviceContract)
    ∧ ∃ (s t : State), s.inbox = [.deviceOwner 2 0] ∧ s.lookupNum .qp (s.cqeQpn cqA.prodAddr) = none
      ∧ s.deviceQp (s.cqeQpn cqA.prodAddr) = some 7 ∧ step s = .next t := by
  have h : after (step { passWorld 1 1 with qpTable := State.reset.qpTable }) (fun t => (t.qp? 7).map (·.sq.devDone)) = some (some 2) := by
    decide +kernel
  obtain ⟨t, h, -⟩ := after_some h
  exact ⟨⟨{ cleanWorld { qpA .rts with sendCq := cqName2 } {} with mem := (passWorld 1 1).mem, inbox := [.deviceOwner 2 0] }, _, rfl,
      by decide, rfl, by decide, rfl, by decide, refused_of (by decide +kernel)⟩, _, t, rfl, by decide, by decide, h⟩

/-- An error CQE with credit `cnt` in `LEGACY`, of the one WQE of a ring of one slot, whose link names itself (R467). -/
def loopWorld (cnt : Byte) : State :=
  { inputWorld ([(0x1003, 5), (0x1013, cnt), (0x101A, 1), (0x101C, 0xFF), (0x101F, 0x80), (0x4107, 0x82)].filter
      fun e => decide (e.2 ≠ 0))
    { qpA .rts with sq := (freshRing 1 6 1).filled .legacy [(0xA, 0x0A)] } cqA (.deviceOwner 2 0) with mode := .legacy }

/-- Without credit it stands for that WQE alone; with credit it would stand for the WQE again, and has no step. -/
theorem witness_DeviceContract_loop :
    (∃ t, step (loopWorld 0) = .next t ∧ (loopWorld 0).legacyErrDue 0x1000 = 1)
    ∧ (∃ x, (loopWorld 1).qp? 7 = some x ∧ (loopWorld 1).legacyErrDue 0x1000 = 1
      ∧ ∀ n e k h, n ≤ x.sq.live → x.sq.live < n + x.sq.capacity → n ≤ e → e ≤ x.sq.live →
        (loopWorld 1).creditAt x true n ((loopWorld 1).memRead (0x1000 + 0x12) 2) e k →
        x.slotAddr true ((e - 1) % x.sq.capacity) = h →
        (loopWorld 1).memRead (h + 4) 4 % 64 ≠ 0 ∧ ¬ (k = 0 ∧ (loopWorld 1).memRead (h + 4) 4 / 128 % 2 = 1))
    ∧ step (loopWorld 1) = .refused .deviceContract := by
  have h : after (step (loopWorld 0)) (fun t => (t.qp? 7).map (·.sq.chain)) = some (some (some (1, 0))) := by decide +kernel
  obtain ⟨t, h, -⟩ := after_some h
  refine ⟨⟨t, h, by decide +kernel⟩, ⟨_, rfl, by decide +kernel, fun n e k h h1 h2 h3 h4 h5 h6 => ?_⟩, refused_of (by decide +kernel)⟩
  have e1 : ((freshRing 1 6 1).filled .legacy [(0xA, 0x0A)]).live = 1 := rfl
  have e2 : ((freshRing 1 6 1).filled .legacy [(0xA, 0x0A)]).capacity = 1 := rfl
  simp only [e1, e2] at h1 h2 h4
  obtain ⟨rfl, rfl⟩ : n = 1 ∧ e = 1 := by omega
  subst h6
  have h7 : (loopWorld 1).memRead (0x1000 + 0x12) 2 = 1 := by decide +kernel
  rw [h7] at h5
  refine ⟨by decide +kernel, fun hk => ?_⟩
  rw [hk.1] at h5
  exact absurd h5.2 (by decide)

/-- While a post to that ring is in progress the error CQE without credit has no step either. -/
theorem witness_DeviceContract_oneSlot : ∃ (s : State) (x : Qp), s = { loopWorld 0 with locks := [(.sq 7, 2)] } ∧ s.qp? 7 = some x
    ∧ s.legacyErrDue 0x1000 = 1 ∧ s.cqeIsSend 0x1000 = true ∧ x.sq.capacity = 1 ∧ (s.holder (.sq 7)).isSome
    ∧ step s = .refused .deviceContract :=
  ⟨_, _, rfl, rfl, by decide +kernel, by decide +kernel, rfl, rfl, refused_of (by decide +kernel)⟩

theorem witness_Doorbells :
    (∀ m, ∃ s : State, s.idle ∧ s.started = true ∧ s.mode = m)
      ∧ (∃ s : State, s.idle ∧ s.started = true ∧ s.mode = .memfree ∧ (63 : Word).toNat < s.cfg.dbRecCount
        ∧ Memory.wf s.mem = true)
      ∧ (∃ s : State, s.idle ∧ s.started = true ∧ s.mode = .memfree ∧ s.cfg.dbRecCount ≤ (64 : Word).toNat)
      ∧ ∃ s : State, s.idle ∧ s.started = false :=
  ⟨fun m => ⟨world m [] (qpA .rts) cqA srqA {}, (world_quiet ..).1, rfl, rfl⟩,
    ⟨world .memfree [] (qpA .rts) cqA srqA {}, (world_quiet ..).1, rfl, rfl, by decide, rfl⟩,
    ⟨world .memfree [] (qpA .rts) cqA srqA {}, (world_quiet ..).1, rfl, rfl, by decide⟩, State.reset, reset_idle, rfl⟩

/-- A ring and an SRQ of 64-byte slots, the last slot below 2^32, and the largest size. -/
theorem witness_LegacyRingDoorbells : ∃ (x : Qp) (y : Srq) (b : Batch),
    6 ≤ x.sq.shift ∧ x.sendWqeOffset % 64 = 0 ∧ (b.firstInd <<< x.sq.shift) + x.sendWqeOffset < 2 ^ 32 ∧ b.op0.toNat < 32
      ∧ b.size0 < 64 ∧ 6 ≤ x.rq.shift ∧ b.firstInd <<< x.rq.shift < 2 ^ 32 ∧ 6 ≤ y.shift ∧ b.firstInd <<< y.shift < 2 ^ 32 :=
  ⟨{ sq := { shift := 6 }, rq := { shift := 6 } }, { shift := 6 }, { firstInd := 0x3FFFFFF, op0 := 0x1F, size0 := 63 },
    by decide⟩

/-- An SRQ with one slot posted, and one with a post possible. -/
theorem witness_SrqKept : srqPosted.Wf ∧ srqPosted.freeHead = some 1 ∧ srqPosted.posted.getD 0 false = true := by
  have e : srqPosted.freeList = [1, 2, 3] := by decide
  refine ⟨⟨rfl, rfl, by rw [e]; decide, ?_, by rw [e]; rfl, by rw [e]; rfl, rfl⟩, rfl, rfl⟩
  intro i
  rw [e]
  by_cases h : i < 4
  · interval_cases i <;> decide
  · simp only [List.mem_cons, List.not_mem_nil, or_false]
    have : srqPosted.capacity = 4 := rfl
    omega

theorem witness_RingKept : qpPosted.sq.Wf ∧ qpPosted.sq.capacity < 2 ^ 32 ∧ qpPosted.sq.count < qpPosted.sq.capacity
    ∧ 1 ≤ qpPosted.sq.count ∧ (qpPosted.sq.lastComp + 1) % qpPosted.sq.capacity = 0 :=
  ⟨⟨rfl, fun _ => by decide, by decide⟩, by decide, by decide, by decide, by decide⟩

/-- The last slots; a UD ring for neither entries nor inline bytes, with the inline request of no bytes that passes on it. -/
theorem witness_Geometry : 3 < (qpPosted.ring true).capacity ∧ 0 < srqPosted.capacity
    ∧ srqPosted.posted.getD 0 false = true
    ∧ ∃ (x : Qp) (wr : SendWr), x.transport = .ud ∧ x.sq.shift = slotShift vectorConfig (sendBytes x.transport 0 0)
      ∧ x.sq.maxGs = 0 ∧ x.maxInline = 0 ∧ opcodeLegal x.transport wr.opcode = true ∧ isInline wr = true
      ∧ inlineLen wr.sg ≤ x.maxInline.toNat ∧ sendSize .legacy x wr = 5 :=
  ⟨by decide, by decide, by decide, { transport := .ud, sq := { shift := 7 } }, { opcode := 2, inl := true }, by decide⟩

/-- Each of the locks held by another agent; the commands that need it can be issued. -/
theorem witness_CommandWaits_lock : ∀ x ∈ [Lock.sq 7, .rq 7, .mlock 7, .cq 8, .srq 9], ∃ s : State, s.ready
    ∧ s.stopInProgress = false ∧ s.started = true ∧ s.fatal = false ∧ 2 ≠ s.cur ∧ (∀ k sh, s.holder (.shard k sh) = none)
    ∧ s.names .qp s.me.op.qp 7 ∧ (s.qp? 7).isSome ∧ s.beingDestroyed s.me.op.qp = false ∧ s.names .cq s.me.op.cq 8
    ∧ (s.cq? 8).isSome ∧ s.beingDestroyed s.me.op.cq = false ∧ s.me.op.srq = some srqName ∧ s.names .srq srqName 9
    ∧ (s.srq? 9).isSome ∧ s.beingDestroyed srqName = false ∧ s.holder x = some 2 := by
  intro x hx
  refine ⟨{ world .legacy [] (qpA .rts) cqA srqA { qp := qpName, cq := cqName, srq := some srqName } with locks := [(x, 2)] },
    ⟨Nat.one_ne_zero, rfl, rfl⟩, rfl, rfl, rfl, (by decide : (2 : Nat) ≠ 1), fun k sh => ?_, names_locks (world_qp ..) _, rfl, rfl,
    names_locks (world_cq ..) _, rfl, rfl, rfl, names_locks (world_srq ..) _, rfl, rfl, ?_⟩ <;>
  simp only [List.mem_cons, List.not_mem_nil, or_false] at hx <;>
  obtain rfl | rfl | rfl | rfl | rfl := hx <;> rfl

/-- The lock of the shard of each handle held by another agent, beside a row of each group that resolves it. -/
theorem witness_CommandWaits_shard : ∀ (k : Kind) (h : Handle), (k = .qp ∧ h = qpName) ∨ (k = .cq ∧ h = cqName)
    ∨ (k = .srq ∧ h = srqName) → ∃ s : State, s.ready ∧ s.stopInProgress = false ∧ s.started = true ∧ s.fatal = false ∧ 2 ≠ s.cur
    ∧ s.me.op.qp = qpName ∧ s.me.op.cq = cqName ∧ s.me.op.sendCq = cqName ∧ s.me.op.srq = some srqName ∧ h.kind = k
    ∧ h.index.toNat < Config.entries s.cfg k ∧ s.beingDestroyed h = false ∧ s.beingDestroyed s.me.op.recvCq = false
    ∧ s.beingDestroyed srqName = false ∧ s.holder (s.shardLock k h.index.toNat) = some 2 := by
  intro k h H
  refine ⟨{ world .legacy [] (qpA .rts) cqA srqA { qp := qpName, cq := cqName, srq := some srqName, sendCq := cqName } with
    locks := [(.shard k (h.index.toNat >>> vectorConfig.shardShift), 2)] }, ⟨Nat.one_ne_zero, rfl, rfl⟩, rfl, rfl, rfl,
    (by decide : (2 : Nat) ≠ 1), rfl, rfl, rfl, rfl, ?_, ?_, ?_, rfl, rfl, ?_⟩ <;>
  rcases H with ⟨rfl, rfl⟩ | ⟨rfl, rfl⟩ | ⟨rfl, rfl⟩ <;> decide

/-- A CQ's handle given where a QP's is due, the lock of the shard of its index held by another agent. -/
theorem witness_CommandWaits_kind : ∃ s : State, s.ready ∧ s.stopInProgress = false ∧ s.started = true ∧ s.fatal = false
    ∧ 2 ≠ s.cur ∧ s.me.op.qp = cqName ∧ cqName.kind ≠ .qp ∧ cqName.index.toNat < Config.entries s.cfg .qp
    ∧ s.beingDestroyed cqName = false ∧ s.holder (s.shardLock .qp cqName.index.toNat) = some 2 :=
  ⟨{ world .legacy [] (qpA .rts) cqA srqA { qp := cqName } with
      locks := [(.shard .qp (cqName.index.toNat >>> vectorConfig.shardShift), 2)] },
    ⟨Nat.one_ne_zero, rfl, rfl⟩, rfl, rfl, rfl, (by decide : (2 : Nat) ≠ 1), rfl, by decide, by decide, rfl, by decide⟩

/-- A QP with an event in delivery, and one without whose firmware has not answered. -/
theorem witness_CommandWaits_destroy : ∀ n, n = 1 ∨ n = 0 → ∃ (s : State) (x : Qp), s.quietStart ∧ s.names .qp s.me.op.qp 7
    ∧ s.qp? 7 = some x ∧ s.names .cq x.sendCq 8 ∧ s.names .cq x.recvCq 8 ∧ x.sendCq = x.recvCq ∧ x.refcount = n
    ∧ x.state ≠ .reset ∧ s.fw = [] := by
  rintro n (rfl | rfl) <;>
  exact ⟨{ world .legacy [] { qpA .rts with refcount := _ } cqA srqA { qp := qpName } with fw := [] }, _, quiet_fw (world_quiet ..) _,
    names_fw (world_qp ..) _, rfl, names_fw (world_cq ..) _, names_fw (world_cq ..) _, rfl, rfl, by decide, rfl⟩

/-- Commands that call the firmware, which has not answered. -/
theorem witness_CommandWaits_firmware : ∃ (s : State) (op : Operands) (x : Qp) (tr : Transition), s.quietStart ∧ s.me.op = op
    ∧ s.fw = [] ∧ s.names .qp op.qp 7 ∧ s.qp? 7 = some x ∧ modifyError s.cfg x op = none
    ∧ transitionOf (curState x op) (newState x op) = some tr ∧ s.names .cq op.cq 8 ∧ s.cq? 8 = some cqA ∧ cqA.attach = 0
    ∧ op.srq = some srqName ∧ s.names .srq srqName 9 ∧ s.srq? 9 = some srqA ∧ srqA.attach = 0
    ∧ s.takesRecs 2 [0, 6] ∧ createCqBad op s = false ∧ s.bufferOk (createCqBuf op s) = true ∧ s.canInsert .cq op.cqn
    ∧ s.takesRecs 1 [0] ∧ createSrqBad op s = false ∧ s.bufferOk (createSrqBuf op s) = true ∧ s.canInsert .srq op.srqn :=
  ⟨{ modWorld [] (qpA .rts) 1 {} with
      fw := [], agents := [(1, { op := { qp := qpName, mask := 1, attrs := { qpState := .sqd }, cq := cqName, srq := some srqName
                                         cqn := 3, cqDepth := 7, srqn := 5, srqDepth := 8, maxGs := 1, bufBase := 0x10000 } })] },
    _, _, .rts2sqd, ⟨⟨⟨Nat.one_ne_zero, rfl, rfl⟩, rfl, rfl⟩, rfl, rfl⟩, rfl, rfl, ⟨by rfl, by decide⟩, rfl, by decide, by decide,
    ⟨by rfl, by decide⟩, rfl, rfl, rfl, ⟨by rfl, by decide⟩, rfl, rfl, Or.inr ⟨rfl, by decide, by decide⟩, by decide, by decide,
    ⟨by decide, by decide, ⟨by rfl, by rfl, by rfl⟩, by decide⟩, Or.inr ⟨rfl, by decide, by decide⟩, by decide, by decide,
    by decide, by decide, ⟨by rfl, by rfl, by rfl⟩, by decide⟩

theorem witness_Stops_destroy : ∃ s : State, s.ready ∧ s.stopInProgress = false ∧ s.started = true
    ∧ s.names .cq s.me.op.cq 8 ∧ s.cq? 8 = some cqA ∧ cqA.attach = 0 ∧ (∀ sh, s.holder (.shard .cq sh) = none)
    ∧ s.usedByOther s.me.op.cq = true :=
  ⟨{ world .legacy [] (qpA .rts) cqA srqA {} with
      agents := [(1, { op := { cq := cqName } }), (2, { cmd := some .pollCq, uses := [cqName] })] },
    ⟨Nat.one_ne_zero, rfl, rfl⟩, rfl, rfl, world_cq .legacy [] (qpA .rts) cqA srqA {}, rfl, rfl, fun sh => rfl, by decide⟩

theorem witness_Stops_destroySrq : ∃ s : State, s.ready ∧ s.stopInProgress = false ∧ s.started = true
    ∧ s.me.op.srq = some srqName ∧ s.names .srq srqName 9 ∧ s.srq? 9 = some srqA ∧ srqA.attach = 0
    ∧ (∀ sh, s.holder (.shard .srq sh) = none) ∧ s.usedByOther srqName = true :=
  ⟨{ world .legacy [] (qpA .rts) cqA srqA {} with
      agents := [(1, { op := { srq := some srqName } }), (2, { cmd := some .postSrqRecv, uses := [srqName] })] },
    ⟨Nat.one_ne_zero, rfl, rfl⟩, rfl, rfl, rfl, world_srq .legacy [] (qpA .rts) cqA srqA {}, rfl, rfl, fun sh => rfl, by decide⟩

/-- A `DEVICE_STOP` of another requester, beside which nothing may be issued; another requester's poll; and a destroy of another
requester between its removal and its response. -/
theorem witness_Stops_stop : ∀ i : Instr, i = .deviceStop ∨ i = .pollCq → ∃ s : State, s.ready
    ∧ (i = .deviceStop → s.stopInProgress = true) ∧ (encode i).1 ≠ .event ∧ s.othersIdle = false := by
  intro i h
  refine ⟨{ world .legacy [] (qpA .rts) cqA srqA {} with agents := [(1, {}), (2, { cmd := some i })] },
    ⟨Nat.one_ne_zero, rfl, rfl⟩, ?_, ?_, ?_⟩ <;> rcases h with rfl | rfl <;> decide

theorem witness_Stops_named : ∃ s : State, s.ready ∧ (encode .pollCq).1 ≠ .event ∧ s.stopInProgress = false
    ∧ ∃ h ∈ namedHandles .pollCq s.me.op, s.beingDestroyed h = true :=
  ⟨{ world .legacy [] (qpA .rts) cqA srqA {} with
      agents := [(1, { op := { cq := cqName } }), (2, { cmd := some .destroyCq, destroying := [cqName] })] },
    ⟨Nat.one_ne_zero, rfl, rfl⟩, by decide, rfl, cqName, List.mem_singleton.mpr rfl, by decide⟩

theorem witness_Stops_destroyQp : ∃ s : State, s.ready ∧ s.stopInProgress = false ∧ s.started = true
    ∧ s.names .qp s.me.op.qp 7 ∧ (∀ sh, s.holder (.shard .qp sh) = none) ∧ s.usedByOther s.me.op.qp = true :=
  ⟨{ world .legacy [] (qpA .rts) cqA srqA {} with
      agents := [(1, { op := { qp := qpName } }), (2, { cmd := some .postSend, uses := [qpName] })] },
    ⟨Nat.one_ne_zero, rfl, rfl⟩, rfl, rfl, world_qp .legacy [] (qpA .rts) cqA srqA {}, fun sh => rfl, by decide⟩

theorem witness_Stops_eventWord : ∃ s : State, s.inbox = [.issue 1 .event completionBytes none none] ∧ 1 ≠ eventAgent
    ∧ (s.agent 1).cmd = none ∧ expressible s.cfg none = true :=
  ⟨{ State.reset with inbox := [.issue 1 .event completionBytes none none] }, rfl, by decide, rfl, rfl⟩

/-- A buffer whose last byte is the first of the live CQ; the ring buffers of a QP and of an SRQ that share a byte with it. -/
theorem witness_Stops_buffer : ∃ (s : State) (op : Operands), s.quietStart ∧ s.me.op = op
    ∧ createCqBad op s = false ∧ s.bufferOk (createCqBuf op s) = false
    ∧ createSrqBad op s = false ∧ s.bufferOk (createSrqBuf op s) = false
    ∧ s.names .cq op.sendCq 8 ∧ s.names .cq op.recvCq 8 ∧ (∀ h, op.srq = some h → ∃ r, s.names .srq h r)
    ∧ createQpBad op s = false ∧ s.bufferOk (createQpBuf op s) = false :=
  ⟨world .legacy [] (qpA .rts) cqA srqA
      { cqn := 3, cqDepth := 3, srqn := 5, srqDepth := 2, maxGs := 1, qpn := 6, sendCq := cqName, recvCq := cqName
        sqDepth := 2, rqDepth := 2, sqMaxGs := 1, rqMaxGs := 1, bufBase := 0xFC0 }, _, world_quiet .., rfl, by decide, by decide,
    by decide, by decide, world_cq .., world_cq .., fun h e => (nomatch e), by decide, by decide⟩

/-- The last byte of a live CQ, and of an object whose destroy has not returned. -/
theorem witness_Stops_unmap : ∀ x : Input, x = .unmapRegion 0x10FF 1 ∨ (∃ bytes, x = .hostWrite 0x10FF bytes ∧ bytes.length = 1) →
    (∃ s : State, s.inbox = [x] ∧ cqA.buffer ∈ s.liveBuffers)
    ∧ (∃ s : State, s.inbox = [x] ∧ ∃ e ∈ s.agents, cqA.buffer ∈ e.2.freed) ∧ overlaps (0x10FF, 1) cqA.buffer = true := by
  intro x _
  exact ⟨⟨inputWorld [] (qpA .rts) cqA x, rfl, by simp [State.liveBuffers, inputWorld, world]⟩,
    ⟨{ State.reset with inbox := [x], agents := [(1, { freed := [cqA.buffer] })] }, rfl, _, List.mem_singleton_self _,
      List.mem_singleton_self _⟩, by decide⟩

theorem witness_Stops_unset : ∃ (s : State) (x : Qp), s.idle ∧ s.started = true ∧ s.names .cq s.me.op.cq 8
    ∧ s.cq? 8 = some cqA ∧ s.cqeHwOwned 0x1000 = false ∧ s.pollsOne .pollCq 0x1000
    ∧ s.lookupNum .qp (s.cqeQpn 0x1000) = some 7 ∧ s.qp? 7 = some x ∧ s.cqeIsSend 0x1000 = true
    ∧ x.wqeIndex true (s.cqeWord 0x1000 0x18).toNat = some 0 ∧ (x.ring true).wrid.getD 0 none = none :=
  ⟨pollWorld .legacy (cqeMem 5 1 0x0A 0x80) (qpA .rts) cqA srqA 1, _, (world_quiet ..).1, rfl, world_cq .., rfl, by decide,
    Or.inl ⟨rfl, rfl⟩, by decide, rfl, by decide, by decide, rfl⟩

set_option maxRecDepth 4000 in
/-- A request of 256 entries, which no operand record can hold. -/
theorem witness_Stops_inexpressible : ∃ (s : State) (op : Operands),
    s.inbox = [.issue 1 .command [0, 0, 0, 0x14] (some op) none] ∧ 1 ≠ eventAgent ∧ (s.agent 1).cmd = none
      ∧ expressible s.cfg (some op) = false :=
  ⟨{ State.reset with
      inbox := [.issue 1 .command [0, 0, 0, 0x14] (some { sendWrs := [{ sg := List.replicate 256 {} }] }) none] }, _, rfl,
    by decide, rfl, by decide⟩

theorem witness_Stops_second : ∃ s : State, s.inbox = [.issue 1 .command [0, 0, 0, 0x21] none none] ∧ (s.agent 1).cmd.isSome :=
  ⟨{ State.reset with inbox := [.issue 1 .command [0, 0, 0, 0x21] none none], agents := [(1, { cmd := some .pollCq })] }, rfl,
    rfl⟩

/-! ### Single steps

The results are those of spec/95_test_vectors.md where a vector is named, and else worked out by hand from the rules named. -/

/-- The last doorbell an agent rang: its offset and its words. -/
def lastBell (s : State) : Option (BitVec 8 × Word × Word) :=
  s.bus.findSome? fun e => match e with
    | .mmio _ off w0 w1 => some (off, w0, w1)
    | _ => none

/-- V-RG-1 to V-RG-3. -/
theorem test_capacities :
    [0, 1, 16, 17, 1000].map (ringCapacity .memfree) = [1, 1, 16, 32, 1024]
      ∧ [0, 1, 16, 17, 1000].map (ringCapacity .legacy) = [1, 1, 16, 17, 1000]
      ∧ [0, 15, 16, 31].map cqCapacity = [1, 16, 32, 32] := by decide +kernel

/-- V-RG-4 to V-RG-10, V-RG-14 to V-RG-16. -/
theorem test_slot_sizes :
    [sendBytes .rc 1 0, sendBytes .uc 1 0, sendBytes .ud 1 0, sendBytes .rc 4 0, sendBytes .rc 1 12, sendBytes .rc 1 13]
        = [64, 48, 80, 112, 64, 80] ∧ slotShift vectorConfig (sendBytes .ud 0 0) = 7
      ∧ [64, 48, 80, 112, 32, 1008].map (slotShift vectorConfig) = [6, 6, 7, 7, 6, 10]
      ∧ [1, 3, 4].map recvBytes = [32, 64, 80] ∧ sendOffset false 16 6 6 = 0x400 ∧ sendOffset false 3 6 7 = 0x100
      ∧ sendOffset true 16 6 6 = 0 := by decide +kernel

/-- V-CW-11, through the fetch. -/
theorem test_step_device_start :
    after (step (State.reset.withFetchWord 32 0x00000001)) (fun t => (t.started, t.me.resp.status)) = some (true, some .ok) := by
  decide +kernel

/-- V-CW-10. -/
theorem test_step_not_started :
    after (step (State.reset.withFetchWord 32 0x00000021)) (fun t => t.me.resp.status) = some (some .notStarted) := by
  decide +kernel

/-- V-SM-2: RESET to INIT. -/
theorem test_modify_init :
    after (exec .modifyQp (modWorld [] (qpA .reset) 0x39 { qpState := .init, portNum := 1, accessFlags := 6 }))
      (fun t => (t.me.resp.status, (t.qp? 7).map fun x => (x.state, x.port, x.accessFlags)))
      = some (some .ok, some (.init, 1, 6)) := by decide +kernel

/-- V-SM-4, V-SM-19: no RESET to RTR; SQE to RTS under a supplied current state. -/
theorem test_modify_lookup :
    after (exec .modifyQp (modWorld [] (qpA .reset) 1 { qpState := .rtr })) (fun t => t.me.resp.status)
        = some (some .invalidTransition)
      ∧ after (exec .modifyQp (modWorld [] (qpA .rts) 3 { curQpState := .sqe, qpState := .rts })) (fun t => t.me.resp.status)
        = some (some .ok) := by decide +kernel

/-- V-SM-16 and its query: RTS to SQD drains. -/
theorem test_modify_drains :
    after (exec .modifyQp (modWorld [] (qpA .rts) 1 { qpState := .sqd })) (fun t => (t.qp? 7).map (·.state))
        = some (some .draining)
      ∧ after (exec .queryQp (modWorld [] (qpA .draining) 0 {})) (fun t => (t.me.resp.state, t.me.resp.draining))
        = some (some .sqd, some true) := by decide +kernel

/-- V-SM-16b. -/
theorem test_event_drained :
    after (exec (.eventQp 5 2) (world .legacy [] (qpA .draining) cqA srqA {}))
      (fun t => ((t.qp? 7).map (·.state), t.eventOut)) = some (some .sqd, [.qpEvent qpName 2]) := by decide +kernel

/-- R427. -/
theorem test_event_fatal :
    after (exec .eventFatal (world .legacy [] (qpA .rts) cqA srqA {}))
      (fun t => (t.fatal, (t.qp? 7).map (·.state), t.eventOut)) = some (true, some .err, [.fatal]) := by decide +kernel

/-- The first post of `41_wqe_ring.md` R240, at this QP's addresses: the flags, the data, the link (offset 0x100, opcode 0x0A),
`DBD` with size 2, the doorbell record, the doorbell. -/
theorem test_post_send :
    after (exec .postSend (postWorld .memfree (qpA .rts) srqA [oneSend] []))
      (fun t => ([0x4108, 0x410C, 0x4110, 0x4114, 0x411C, 0x41C0, 0x41C4, 0x8008].map fun a => t.memRead a 4, lastBell t))
      = some ([9, 0, 64, 0x1234, 0x20000, 0x10A, 0x82, 1], some (0x10, 0x0100000A, 0x00000502)) := by decide +kernel

/-- V-WQE-2 in `LEGACY`, as the first post of its ring: flags 0x0B, the immediate, the fence in the link's size word. -/
theorem test_post_rdma_write_imm :
    after (exec .wrRdmaWriteImm (postWorld .legacy (qpA .rts) srqA [{ oneSend with
        solicited := true, fence := true, imm := 0xDEADBEEF, remoteAddr := 0x100002000, rkey := 0x77 }] []))
      (fun t => ([0x4108, 0x410C, 0x4110, 0x4114, 0x4118, 0x41C0, 0x41C4].map fun a => t.memRead a 4, lastBell t))
      = some ([0x0B, 0xDEADBEEF, 1, 0x2000, 0x77, 0x109, 0xC3], some (0x10, 0x00000129, 0x00000503)) := by decide +kernel

/-- R232, R253: the first receive of a `LEGACY` ring. -/
theorem test_post_recv :
    after (exec .postRecv (postWorld .legacy (qpA .init) srqA [] [oneRecv]))
      (fun t => ([0x4008, 0x4010, 0x40C0, 0x40C4].map fun a => t.memRead a 4, lastBell t))
      = some ([0, 64, 1, 0x82], some (0x18, 0x00000002, 0x00000501)) := by decide +kernel

/-- R374, R258: the first receive of an SRQ, in both modes. -/
theorem test_post_srq :
    after (exec .postSrqRecv (postWorld .legacy (qpB .rts) srqA [] [oneRecv])) lastBell = some (some (0x18, 0, 0x00000401))
      ∧ after (exec .postSrqRecv (postWorld .memfree (qpB .rts) srqA [] [oneRecv]))
        (fun t => (t.memRead 0x8028 4, lastBell t, (t.srq? 9).map (·.freeHead))) = some (1, none, some (some 1)) := by
  decide +kernel

/-- R306: the record of one send CQE. -/
theorem test_poll_send :
    after (exec .pollCq (pollWorld .legacy (cqeMem 5 1 0x10 0x80) qpPosted cqA srqA 4))
      (fun t => (t.me.resp.n, t.me.resp.wc.map (fun r => (r.wrId, r.type, r.isSend))))
      = some (some 1, [(0xA, .rdmaRead, true)]) := by decide +kernel

/-- R305, R260: its slot is retired, the consumer index published. -/
theorem test_poll_send_retires :
    after (exec .cqeSend10 (pollWorld .legacy (cqeMem 5 1 0x10 0x80) qpPosted cqA srqA 4))
      (fun t => (lastBell t, (t.qp? 7).map fun x => (x.sq.tail.toNat, x.sq.lastComp)))
      = some (some (0x20, 0x01000002, 0), some (1, 0)) := by decide +kernel

/-- R376: a receive CQE of an SRQ frees its slot behind the others. -/
theorem test_poll_srq :
    after (exec (.cqeRecv03 0) (pollWorld .memfree (cqeMem 5 0 0x03 0) (qpB .rts) cqA srqPosted 4))
      (fun t => ((t.srq? 9).map (·.freeList), t.me.resp.wc.map fun r => (r.wrId, r.immPresent), t.memRead 0x8018 4))
      = some (some [1, 2, 3, 0], [(0xC, true)], 1) := by decide +kernel

/-- R308: with a credit left the CQE stays, for the next WQE of the chain, as flushed. -/
theorem test_poll_legacy_error :
    after (exec (.cqeError true)
      (pollWorld .legacy [(0x1003, 5), (0x1010, 0x15), (0x1013, 1), (0x101A, 1), (0x101C, 0xFF), (0x4102, 1), (0x4103, 0x4A),
        (0x4107, 0x82)] qpPosted cqA srqA 1))
      (fun t => (t.me.resp.wc.map (·.status), [0x1010, 0x101F].map (fun a => t.memRead a 1), t.memRead 0x1018 4,
        (t.cq? 8).map (·.consIndex)))
      = some ([.retryExcErr], [5, 0], 0x142, some 0) := by decide +kernel

/-- R262: the arm doorbells of both modes. -/
theorem test_req_notify :
    after (exec (.reqNotifyCq true) (pollWorld .legacy [] qpPosted cqA srqA 1)) lastBell
        = some (some (0x20, 0x03000002, 0xFFFFFFFF))
      ∧ after (exec (.reqNotifyCq false) (pollWorld .memfree [] qpPosted cqA srqA 1))
        (fun t => (t.memRead 0x8020 4, t.memRead 0x8024 4, lastBell t)) = some (0, 0x24A, some (0x20, 0x12000002, 0)) := by
  decide +kernel

/-- R292: a CQ of depth 15. -/
theorem test_create_cq :
    after (exec .createCq (world .memfree [] (qpA .rts) cqA srqA { cqn := 3, cqDepth := 15, bufBase := 0x10000 }))
      (fun t => (t.me.resp.capacity, t.me.resp.cq.map (·.index), t.memRead 0x1001F 1, t.memRead 0x8004 4, t.memRead 0x8034 4))
      = some (some 16, some 3, 0x80, 0x320, 0x3A0) := by decide +kernel

/-- R345, R182: a destroyed QP's handle is stale. -/
theorem test_destroy_qp :
    after (exec .destroyQp (world .memfree emptyCq (qpA .reset) { cqA with attach := 2 } srqA { qp := qpName }))
      (fun t => (t.me.resp.status, t.lookup .qp qpName, (t.entry .qp 5).gen, (t.cq? 8).map (·.attach), t.dbRecUsed))
      = some (some .ok, none, 1, some 0, [3, 4, 5]) := by decide +kernel

/-- R90, R431: an event for a CQ that is not armed has no step; R263: the arm taken, it has one, and the next has none. -/
theorem test_device_arm :
    refusedBy (step (inputWorld [] (qpA .rts) (cqArmed [{ sn := some 1 }] none) (.event completionBytes none)))
        = some .deviceContract
      ∧ (match step (inputWorld [] (qpA .rts) (cqArmed [{ sn := some 1 }] none) (.deviceArm 2 0)) with
        | .next t => after (step { t with inbox := [.event completionBytes none] }) fun u =>
            (u.eventOut, (u.cq? 8).map fun y => (y.armed, y.armSn, y.devSn))
        | _ => none) = some ([.completion cqName], some (none, 2, 2)) := by decide +kernel

/-- R87: the bytes of a CQE first, then its owner byte; the CQ is empty till then. -/
theorem test_device_writes_cqe :
    (match step (inputWorld emptyCq qpPosted cqA (.deviceCqe 2 0x1C [0x0A, 0x80])) with
      | .next t => (match step { t with inbox := [.deviceCqe 2 3 [5]] } with
        | .next u => (match step { u with inbox := [.deviceCqe 2 0x1A [1]] } with
          | .next v => (after (step { v with inbox := [.deviceOwner 2 0] }) fun w =>
              (v.cqeHwOwned 0x1000, w.cqeHwOwned 0x1000, (w.cq? 8).map (·.devProd)))
          | _ => none)
        | _ => none)
      | _ => none) = some (true, false, some 1) := by decide +kernel

/-- R431: a CQ's buffer may be unmapped only when its destroy has returned, not after the step that takes the object away. -/
theorem test_unmap_waits_for_destroy :
    [14, 15].map (fun k => after (exec .destroyCq { world .legacy [] (qpA .rts) cqA srqA { cq := cqName } with slice := some k })
      fun t => ((t.cq? 8).isSome, (after (unmapInput (0x1000, 256) t) fun _ => ()).isSome))
      = [some (false, false), some (false, true)] := by decide +kernel

/-- R301, R308: a poll of the error CQE of the first of three sends, with credit for one more. After its tail's advance and its record
the CQE still stands at the first send, after the reads of `LEGACY_ERR` at the second; the device has passed both all along. -/
theorem test_poll_error_moves_chain : ∀ e ∈ [(21, [0, 1, 1, 1, 2]), (22, [1, 1, 1, 1, 2]), (24, [1, 1, 2, 0, 2])],
    after (exec (.cqeError true)
        { pollWorld .legacy [(0x1003, 5), (0x1010, 0x15), (0x1013, 1), (0x101A, 1), (0x101C, 0xFF), (0x4102, 1), (0x4103, 0x4A),
            (0x4107, 0x82)] { qpA .rts with sq := { threeSends with devDone := 1, chain := some (1, 1) } } cqA srqA 1 with
          slice := some e.1 })
      (fun t => (t.qp? 7).map fun x =>
        [t.me.resp.wc.length, x.sq.tail.toNat, (x.sq.chain.getD (0, 0)).1, (x.sq.chain.getD (0, 0)).2, t.ringDone x true])
    = some (some e.2) := by
  decide +kernel

/-- R301, R308: where a post has filled the slot anew before the reads of `LEGACY_ERR`, its header has size 0: the CQE is at the end of
its chain, and the device may report the second send. -/
theorem test_post_before_legacy_err :
    (match legacyErrAct 7 true 0 0x1000 1 (pollWorld .legacy [(0x1003, 5), (0x1010, 0x15), (0x1013, 1), (0x101A, 1), (0x101C, 0xFF)]
        { qpA .rts with sq := { threeSends with tail := 1, lastComp := 0, devDone := 1, chain := some (1, 1) } } cqA srqA 1) with
      | .ok n t => some (n, (t.qp? 7).map fun x => (x.sq.chain, t.ringDone x true))
      | _ => none) = some (0, some (none, 1)) := by
  decide +kernel

/-- R157: the bounds of the attributes, at their ends. -/
theorem test_attr_bounds :
    [0, 1, 2].map (fun n => attrsOutOfRange vectorConfig { mask := 0x20, attrs := { portNum := n } }) = [true, false, true]
    ∧ [63, 64].map (fun n => attrsOutOfRange vectorConfig { mask := 0x10, attrs := { pkeyIndex := n } }) = [false, true]
    ∧ [4, 5].map (fun n => attrsOutOfRange vectorConfig { mask := 0x2000, attrs := { maxRdAtomic := n } }) = [false, true]
    ∧ [4, 5].map (fun n => attrsOutOfRange vectorConfig { mask := 0x20000, attrs := { maxDestRdAtomic := n } }) = [false, true]
    ∧ attrsOutOfRange vectorConfig { attrs := { portNum := 2, pkeyIndex := 64 } } = false := by decide

/-- R292, R372, R170: the bounds of the creates, at their ends. -/
theorem test_create_bounds :
    [4095, 4096].map (fun n => createCqBad { cqDepth := n } State.reset) = [false, true]
    ∧ [32, 16].map (fun n => createCqBad { bufBase := n } State.reset) = [false, true]
    ∧ [(1024, 62), (1025, 62), (1024, 63)].map (fun n => createSrqBad { srqDepth := n.1, maxGs := n.2 } State.reset)
      = [false, true, true]
    ∧ [64, 32].map (fun n => createSrqBad { bufBase := n } State.reset) = [false, true]
    ∧ [(1024, 60, 512), (1025, 60, 512), (1024, 61, 512), (1024, 60, 513)].map (fun n =>
        createQpBad { sqDepth := n.1, sqMaxGs := n.2.1, maxInline := n.2.2 } State.reset) = [false, true, true, true]
    ∧ [(1024, 62), (1025, 62), (1024, 63)].map (fun n => createQpBad { rqDepth := n.1, rqMaxGs := n.2 } State.reset)
      = [false, true, true]
    ∧ createQpBad { rqDepth := 1025, rqMaxGs := 63, srq := some {} } State.reset = false := by decide +kernel

/-- R430: two ranges that meet count as one range a requester owns. -/
theorem test_owns_two_ranges :
    [(0x1000, 0x2000), (0x1000, 0x2001)].map ({ State.reset with owned := [(0x2000, 0x1000), (0x1000, 0x1000)] } : State).owns
      = [true, false] := by decide +kernel

/-- R222, R252 to R254: two sends of three are a batch; `dbd` is clear on the second in `LEGACY`. -/
theorem test_post_send_list :
    after (exec .postSend (batchWorld .legacy [oneSend, oneSend, oneSend]))
        (fun t => (t.doorbells, [0x41C4, 0x4104, 0x4144].map fun a => t.memRead a 4))
      = some ([(0x10, 0x0000018A, 0x00000502), (0x10, 0x0000010A, 0x00000502)], [0x82, 0x02, 0x82])
    ∧ after (exec .postSend (batchWorld .memfree [oneSend, oneSend, { opcode := 7 }]))
        (fun t => (t.doorbells, t.memRead 0x8008 4, t.me.resp.status, t.me.resp.badIndex))
      = some ([(0x10, 0x0200000A, 0x00000502)], 2, some .invalidOpcode, some 2) := by decide +kernel

/-- R117, R219: an inline request behind another one of its list. -/
theorem test_post_list_inline :
    after (exec .postSend { batchWorld .memfree [oneSend, inlineSend] with mem := [(0x20000, 0xAB), (0x20007, 0xCD)] })
      (fun t => [0x4148, 0x4150, 0x4154, 0x4158].map fun a => t.memRead a 4) = some [1, 0x80000008, 0xAB000000, 0xCD] := by
  decide +kernel

/-- R441: the stop of an instance with live objects. -/
theorem test_device_stop :
    after (exec .deviceStop (stopWorld .memfree))
      (fun t => (t.started, [t.entry .qp 5, t.entry .cq 2, t.entry .srq 4].map (·.gen), t.dbRecUsed))
      = some (false, [1, 1, 1], []) := by decide +kernel

/-- A command that has to wait for a lock runs on when it is free (R350, R432). -/
theorem test_wait_and_resume :
    after (exec .pollCq { pollWorld .legacy emptyCq qpPosted cqA srqA 1 with locks := [(.cq 8, 2)] }) (fun t => t.me.cmd)
        = some (some .pollCq)
      ∧ (match exec .pollCq { pollWorld .legacy emptyCq qpPosted cqA srqA 1 with locks := [(.cq 8, 2)] } with
        | .next t => after (step { t.setLocks [] with inbox := [.resume 1 none] }) fun u => (u.me.cmd, u.me.resp.status)
        | _ => none) = some (none, some .ok) := by decide +kernel

end Sys2Proof.Machine.Tests
end

section
/-! SUPPORT. What no step breaks, whatever input it takes: `step_keeps` carries `exec_keeps` from the instructions to the inputs of
the machine. Then the statements of spec/00_scope.md. -/

namespace Sys2Proof.Machine

open Sys2Proof

variable {I : State → Prop}

/-! ### Steps and inputs -/

theorem step_nil {s : State} (h : s.inbox = []) : step s = .next s := by simp only [step, h]

theorem step_cons {s : State} {x : Input} {rest : List Input} (h : s.inbox = x :: rest) :
    step s = stepInput x (s.setInbox rest) := by simp only [step, h]

theorem runWord_of_decode {f : Format} {bytes : List Byte} {i : Instr} (h : decode f bytes = .ok i) (s : State) :
    runWord f bytes s = exec i s := by simp only [runWord, h]

/-- An idle requester's word that is no event's, with an operand record that can be expressed, is run (R20, R21, R103). -/
theorem issueInput_idle {s : State} {a : Nat} {f : Format} {op : Option Operands} (ha : a ≠ eventAgent)
    (hidle : (s.agent a).cmd = none) (hf : f ≠ .event) (hop : expressible s.cfg op = true) (bytes : List Byte)
    (sl : Option Nat) : issueInput a f bytes op sl s = runWord f bytes ((s.withAgent a sl).withOperands op) := by
  simp [issueInput, ha, hidle, hf, hop]

/-- An input about a CQ's number that goes on names a live CQ. -/
theorem withCqNum_next {cqn : Num24} {s t : State} {f : Nat → Cq → Host.Outcome State Fault Refusal}
    (h : withCqNum cqn s f = .next t) : ∃ c x, s.lookupNum .cq cqn = some c ∧ s.cq? c = some x ∧ f c x = .next t := by
  unfold withCqNum at h
  split at h
  · cases h
  · split at h
    · cases h
    · exact ⟨_, _, ‹_›, ‹_›, h⟩

/-! ### What the inputs keep -/

/-- The updates that inputs make besides those of `Closed`. -/
structure InputsKept (I : State → Prop) : Prop where
  inbox : ∀ s l, I s → I (s.setInbox l)
  agent : ∀ s a sl, I s → I (s.withAgent a sl)
  owned : ∀ s l, I s → I { s with owned := l }
  eventOut : ∀ s l, I s → I { s with eventOut := l }

theorem noteRaised_keeps (C : Closed I) {s : State} {i : Instr} (hs : I s) : I (s.noteRaised i) := by
  unfold State.noteRaised
  split
  · exact keeps_onCqNum C hs
  · exact hs

theorem withOperands_keeps (C : Closed I) {s : State} {op : Option Operands} (hs : I s) : I (s.withOperands op) := by
  cases op with
  | none => exact hs
  | some o => exact C.me _ _ hs

theorem reportRing_keeps (C : Closed I) {s t : State} {q a : Nat} {x : Qp} {b : Bool} (hx : s.qp? q = some x) (hs : I s)
    (h : s.reportRing q x b a = some t) : I t := by
  unfold State.reportRing at h
  split at h
  · cases h; exact hs
  · split at h
    · obtain ⟨r, -, rfl⟩ := Option.map_eq_some_iff.mp h
      exact C.qp _ _ _ _ hx (setRing_state ..) hs
    · cases h

theorem reportSrq_keeps (C : Closed I) {s t : State} {q r a : Nat} {x : Qp} {z : Srq} (hx : s.qp? q = some x)
    (hz : s.srq? r = some z) (hs : I s) (h : s.reportSrq q r x z a = some t) : I t := by
  simp only [State.reportSrq] at h
  split at h
  · obtain ⟨e, -, rfl⟩ := Option.map_eq_some_iff.mp h
    exact C.qp _ _ _ _ ((State.setSrq_qpOf ..).trans hx) rfl (C.srq _ _ _ _ hz hs)
  · cases h; exact hs

theorem reportQp_keeps (C : Closed I) {s t : State} {q a : Nat} {x : Qp} (hx : s.qp? q = some x) (hs : I s)
    (h : s.reportQp q x a = some t) : I t := by
  unfold State.reportQp at h
  split at h
  · exact reportRing_keeps C hx hs h
  split at h
  · cases h; exact hs
  split at h
  · cases h; exact hs
  · exact reportSrq_keeps C hx ‹_› hs h

/-- The report of a completion writes live rings, QPs and SRQs only, and no QP's cached state. -/
theorem reportCqe_keeps (C : Closed I) {s t : State} {c a : Nat} (hs : I s) (h : s.reportCqe c a = some t) : I t := by
  unfold State.reportCqe at h
  split at h
  · cases h; exact hs
  next q x hqx =>
    obtain ⟨q', -, hq'⟩ := Option.bind_eq_some_iff.mp hqx
    obtain ⟨x', hx, he⟩ := Option.map_eq_some_iff.mp hq'
    cases he
    split at h
    · exact reportQp_keeps C hx hs h
    · cases h

theorem reportCqe_cq? {s t : State} {c a : Nat} (h : s.reportCqe c a = some t) (d : Nat) : t.cq? d = s.cq? d := by
  rw [reportCqe_frame h]; rfl

theorem reportCqe_mem {s t : State} {c a : Nat} (h : s.reportCqe c a = some t) : t.mem = s.mem := by rw [reportCqe_frame h]

theorem deviceCqeInput_keeps (C : Closed I) {s t : State} {cqn : Num24} {off : Nat} {bytes : List Byte} (hs : I s)
    (h : deviceCqeInput cqn off bytes s = .next t) : I t := by
  obtain ⟨c, x, -, -, h⟩ := withCqNum_next h
  split at h <;> cases h
  exact C.mem _ _ (memPutBytes_wf _ _ _) hs

theorem deviceOwnerInput_keeps (C : Closed I) {s t : State} {cqn : Num24} {owner : Byte} (hs : I s)
    (h : deviceOwnerInput cqn owner s = .next t) : I t := by
  obtain ⟨c, x, -, hx, h⟩ := withCqNum_next h
  split at h
  · split at h <;> cases h
    next s1 h1 =>
      have hmem := C.mem s1 (memPut s1.mem (x.prodAddr + 0x1F) owner) (memPut_wf _ _ _) (reportCqe_keeps C hs h1)
      rw [reportCqe_mem h1] at hmem
      exact C.cq _ _ x _ (by rw [State.setMem_cqOf, reportCqe_cq? h1, hx]) hmem
  · cases h

theorem deviceArmInput_keeps (C : Closed I) {s t : State} {cqn : Num24} {k : Nat} (hs : I s)
    (h : deviceArmInput cqn k s = .next t) : I t := by
  obtain ⟨c, x, -, hx, h⟩ := withCqNum_next h
  split at h <;> cases h
  exact C.cq _ _ _ _ hx hs

theorem hostWriteInput_keeps (C : Closed I) {s t : State} {a : Nat} {bytes : List Byte} (hs : I s)
    (h : hostWriteInput a bytes s = .next t) : I t := by
  unfold hostWriteInput at h
  split at h <;> cases h
  exact C.mem _ _ (memPutBytes_wf _ _ _) hs

theorem unmapInput_keeps (hin : InputsKept I) {s t : State} {r : Nat × Nat} (hs : I s) (h : unmapInput r s = .next t) :
    I t := by
  unfold unmapInput at h
  split at h <;> cases h
  exact hin.owned _ _ hs

section

variable (C : Closed I) (hin : InputsKept I) (he : EventsKept I) (hf : FlagsKept I)
  (hm : ∀ s m, I s → I (s.setMode m)) (hq : QpsKept I)

include C hin he hf hm hq

theorem issueInput_keeps {s t : State} {a : Nat} {f : Format} {bytes : List Byte} {op : Option Operands} {sl : Option Nat}
    (hs : I s) (h : issueInput a f bytes op sl s = .next t) : I t := by
  unfold issueInput at h
  split at h
  · cases h
  split at h
  · split at h
    · cases h
    · exact runWord_keeps C he hf hm hq (withOperands_keeps C (hin.agent _ _ _ hs)) h
  · cases h

theorem eventInput_keeps {s t : State} {bytes : List Byte} {sl : Option Nat} (hs : I s)
    (h : eventInput bytes sl s = .next t) : I t := by
  have hexec : ∀ {i u}, I u → exec i u = .next t → I t := exec_keeps C he (fun _ => hf) (fun _ => hm) (fun _ => hq)
  unfold eventInput at h
  split at h
  · cases h
  split at h
  · split at h
    · cases h; exact hs
    · exact hexec (hin.agent _ _ _ hs) h
  · split at h
    · split at h
      · cases h; exact he.2 _ _ (noteRaised_keeps C hs)
      · exact hexec (hin.agent _ _ _ (noteRaised_keeps C hs)) h
    · cases h

theorem resumeInput_keeps {s t : State} {a : Nat} {sl : Option Nat} (hs : I s) (h : resumeInput a sl s = .next t) : I t := by
  unfold resumeInput at h
  split at h
  · exact exec_keeps C he (fun _ => hf) (fun _ => hm) (fun _ => hq) (hin.agent _ _ _ hs) h
  split at h
  · cases h; exact hs
  · split at h
    · exact runWord_keeps C he hf hm hq (hin.agent _ _ _ (he.2 _ _ hs)) h
    · cases h; exact hs

theorem stepInput_keeps {x : Input} {s t : State} (hs : I s) (h : stepInput x s = .next t) : I t := by
  cases x with
  | issue a f bytes op sl => exact issueInput_keeps C hin he hf hm hq hs h
  | resume a sl => exact resumeInput_keeps C hin he hf hm hq hs h
  | event bytes sl => exact eventInput_keeps C hin he hf hm hq hs h
  | firmware ans => cases h; exact C.fw _ _ hs
  | deviceCqe cqn off bytes => exact deviceCqeInput_keeps C hs h
  | deviceOwner cqn owner => exact deviceOwnerInput_keeps C hs h
  | deviceArm cqn k => exact deviceArmInput_keeps C hs h
  | hostWrite a bytes => exact hostWriteInput_keeps C hs h
  | mapRegion base len => cases h; exact hin.owned _ _ hs
  | unmapRegion base len => exact unmapInput_keeps hin hs h
  | takeEvent => cases h; exact hin.eventOut _ _ hs

/-- What no elementary update of an instruction and of an input breaks, every step keeps. -/
theorem step_keeps {s t : State} (hs : I s) (h : step s = .next t) : I t := by
  cases hi : s.inbox with
  | nil => rw [step_nil hi] at h; cases h; exact hs
  | cons x rest => rw [step_cons hi] at h; exact stepInput_keeps C hin he hf hm hq (hin.inbox _ _ hs) h

end

/-! ### Properties of the parameters and the mode -/

/-- A property of states that only speaks of the implementation parameters (R7) and the mode (R3). -/
def OfCfgMode (I : State → Prop) : Prop := ∀ s t : State, t.cfg = s.cfg → t.mode = s.mode → I s → I t

namespace OfCfgMode

theorem closed (h : OfCfgMode I) : Closed I where
  me _ _ := h _ _ rfl rfl
  bus _ _ := h _ _ rfl rfl
  mem _ _ _ := h _ _ rfl rfl
  lock _ _ _ := h _ _ rfl rfl
  unlock _ _ := h _ _ rfl rfl
  fw _ _ := h _ _ rfl rfl
  quiet _ _ := h _ _ rfl rfl
  recs _ _ _ := h _ _ rfl rfl
  qp _ _ _ _ _ _ := h _ _ rfl rfl
  cq _ _ _ _ _ := h _ _ rfl rfl
  srq _ _ _ _ _ := h _ _ rfl rfl
  eraseQp _ _ := h _ _ rfl rfl
  eraseCq _ _ := h _ _ rfl rfl
  eraseSrq _ _ := h _ _ rfl rfl
  drop _ _ _ _ := h _ _ (State.setEntry_cfg ..) (State.setEntry_mode ..)
  newQp _ _ _ _ _ := h _ _ rfl rfl
  newCq _ _ _ _ _ := h _ _ rfl rfl
  newSrq _ _ _ _ _ := h _ _ rfl rfl
  emit _ _ := h _ _ rfl rfl
  reads _ _ _ := h _ _ rfl rfl
  agents _ _ := h _ _ rfl rfl

theorem eventsKept (h : OfCfgMode I) : EventsKept I := ⟨fun _ => h _ _ rfl rfl, fun _ _ => h _ _ rfl rfl⟩

theorem flagsKept (h : OfCfgMode I) : FlagsKept I :=
  ⟨fun _ _ => h _ _ rfl rfl, fun _ _ => h _ _ rfl rfl, fun _ _ => h _ _ rfl rfl⟩

theorem qpsKept (h : OfCfgMode I) : QpsKept I := fun _ _ _ _ _ => h _ _ rfl rfl

theorem inputsKept (h : OfCfgMode I) : InputsKept I :=
  ⟨fun _ _ => h _ _ rfl rfl, fun _ _ _ => h _ _ rfl rfl, fun _ _ => h _ _ rfl rfl, fun _ _ => h _ _ rfl rfl⟩

end OfCfgMode

theorem ofCfgMode_cfg (c : Config) : OfCfgMode fun s => s.cfg = c := fun _ _ hcfg _ hs => hcfg.trans hs

theorem ofCfgMode_mode (m : Mode) : OfCfgMode fun s => s.mode = m := fun _ _ _ hmode hs => hmode.trans hs

/-! ### The statements of spec/00_scope.md -/

/-- Settles O6: no update of any input writes `cfg`, not even `DEVICE_START`'s write of the mode. -/
theorem stepKeepsConfig : Obligations.StepKeepsConfig := by
  intro s t h
  have K := ofCfgMode_cfg s.cfg
  exact step_keeps K.closed K.inputsKept K.eventsKept K.flagsKept (fun _ _ hs => hs) K.qpsKept rfl h

/-- Settles O7: of the updates the instructions make, only `setMode` writes the mode, and only `DEVICE_START` makes it. -/
theorem modeFixed : Obligations.ModeFixed := by
  intro i s t hi h
  have K := ofCfgMode_mode s.mode
  exact exec_keeps K.closed K.eventsKept (fun _ => K.flagsKept) (fun e => absurd e hi) (fun _ => K.qpsKept) rfl h

/-- Settles O10: the step takes the issued word, its checks pass, and the word decodes to `i`. -/
theorem stepRunsIssued : Obligations.StepRunsIssued := by
  intro s a f bytes op sl rest i hinbox ha hidle hf hop hdec
  calc step s
      = issueInput a f bytes op sl (s.setInbox rest) := step_cons hinbox
    _ = runWord f bytes (((s.setInbox rest).withAgent a sl).withOperands op) :=
        issueInput_idle ha (by rwa [State.setInbox_agent]) hf (by rwa [State.setInbox_cfg]) bytes sl
    _ = exec i (((s.setInbox rest).withAgent a sl).withOperands op) := runWord_of_decode hdec _

end Sys2Proof.Machine
end

section
/-! SUPPORT. The invariant of the machine (R50, R340 and the model's arenas): it holds after power-on, no elementary update of State
breaks it, and so no step does. -/

namespace Sys2Proof.Machine

open Sys2Proof

/-! ### Keys of an arena -/

/-- Every index an arena has an object at lies below a bound. -/
def KeysBelow {α : Type} (l : List (Nat × α)) (n : Nat) : Prop := ∀ k, (assocGet l k).isSome → k < n

namespace KeysBelow

variable {α : Type} {l : List (Nat × α)} {n m k : Nat}

theorem nil : KeysBelow ([] : List (Nat × α)) n := fun _ h => nomatch h

theorem mono (h : KeysBelow l n) (hm : n ≤ m) : KeysBelow l m := fun k hk => (h k hk).trans_le hm

theorem assocSet (h : KeysBelow l n) (hk : k < n) (v : α) : KeysBelow (assocSet l k v) n := by
  intro j hj
  by_cases e : j = k
  · exact e ▸ hk
  · exact h j (assocGet_assocSet_ne l v e ▸ hj)

theorem assocDel (h : KeysBelow l n) : KeysBelow (assocDel l k) n := by
  intro j hj
  by_cases e : j = k
  · rw [e, assocGet_assocDel_self] at hj; cases hj
  · exact h j (assocGet_assocDel_ne l e ▸ hj)

end KeysBelow

/-! ### Entries of the lookup tables -/

theorem State.tablesWf_iff (s : State) : s.tablesWf ↔ ∀ k, (s.table k).length = Config.entries s.cfg k :=
  ⟨fun h k => table_length h k, fun h => ⟨h .qp, h .cq, h .srq⟩⟩

/-- Occupied entries name arena indices from 1 on. -/
def State.objsNonzero (s : State) : Prop := ∀ k, ∀ e ∈ s.table k, ∀ o, e.occ = some o → o.obj ≠ 0

theorem State.objsNonzero_iff (s : State) : s.objsNonzero ↔
    ∀ e ∈ s.qpTable ++ s.cqTable ++ s.srqTable, ∀ o, e.occ = some o → o.obj ≠ 0 := by
  simp only [List.mem_append, or_imp, forall_and, and_assoc]
  exact ⟨fun h => ⟨h .qp, h .cq, h .srq⟩, fun ⟨hq, hc, hr⟩ k => by cases k <;> assumption⟩

theorem State.mem_table_setEntry {s : State} {k j : Kind} {i : Nat} {e x : Entry} (h : x ∈ (s.setEntry k i e).table j) :
    x ∈ s.table j ∨ x = e := by
  by_cases hj : j = k
  · subst hj
    rw [State.setEntry_table] at h
    exact List.mem_or_eq_of_mem_set h
  · rw [State.setEntry, State.setTable_table_ne _ _ hj] at h
    exact .inl h

theorem State.length_table_setEntry (s : State) (k j : Kind) (i : Nat) (e : Entry) :
    ((s.setEntry k i e).table j).length = (s.table j).length := by
  by_cases hj : j = k
  · subst hj
    rw [State.setEntry_table, List.length_set]
  · rw [State.setEntry, State.setTable_table_ne _ _ hj]

/-! ### What the invariant says, part by part -/

theorem State.inv_iff (s : State) : s.Inv ↔ Memory.wf s.mem = true ∧ s.locksWf ∧ s.tablesWf
    ∧ s.nextObj ≠ 0 ∧ s.objsNonzero ∧ KeysBelow s.qps s.nextObj ∧ KeysBelow s.cqs s.nextObj ∧ KeysBelow s.srqs s.nextObj := by
  rw [State.objsNonzero_iff]
  exact Iff.rfl

namespace State.Inv

variable {s : State} (hs : s.Inv)

include hs

theorem setMem {m : List Host.Cell} (hm : Memory.wf s.mem = true → Memory.wf m = true) : (s.setMem m).Inv :=
  ⟨hm hs.1, hs.2⟩

/-- A free lock, taken, is held once. -/
theorem lock {x : Lock} (hx : s.holder x = none) : (s.setLocks ((x, s.cur) :: s.locks)).Inv := by
  obtain ⟨hmem, hlocks, hrest⟩ := hs
  refine ⟨hmem, List.nodup_cons.mpr ⟨fun hin => ?_, hlocks⟩, hrest⟩
  obtain ⟨e, he, hex⟩ := List.mem_map.mp hin
  exact holderIn_none.mp hx e he hex

theorem unlock (p : Lock × Nat → Bool) : (s.setLocks (s.locks.filter p)).Inv := by
  obtain ⟨hmem, hlocks, hrest⟩ := hs
  exact ⟨hmem, hlocks.sublist (List.filter_sublist.map _), hrest⟩

/-- An entry written that is empty or names an object keeps the invariant. -/
theorem setEntry (k : Kind) (i : Nat) {e : Entry} (he : ∀ o, e.occ = some o → o.obj ≠ 0) : (s.setEntry k i e).Inv := by
  obtain ⟨hmem, hlocks, htables, hnext, hobjs, hq, hc, hr⟩ := s.inv_iff.mp hs
  simp only [State.inv_iff, State.locksWf, State.tablesWf_iff, State.length_table_setEntry, State.setEntry_mem, State.setEntry_cfg,
    State.setEntry_locks, State.setEntry_nextObj, State.setEntry_qps, State.setEntry_cqs, State.setEntry_srqs]
  refine ⟨hmem, hlocks, s.tablesWf_iff.mp htables, hnext, fun j x hx => ?_, hq, hc, hr⟩
  rcases State.mem_table_setEntry hx with hx | rfl
  · exact hobjs j x hx
  · exact he

/-- The next arena index, counted up. -/
theorem bumpNextObj : (s.setNextObj (s.nextObj + 1)).Inv := by
  obtain ⟨hmem, hlocks, htables, -, hobjs, hq, hc, hr⟩ := hs
  have hle := Nat.le_succ s.nextObj
  exact ⟨hmem, hlocks, htables, Nat.succ_ne_zero _, hobjs, KeysBelow.mono hq hle, KeysBelow.mono hc hle, KeysBelow.mono hr hle⟩

theorem setQp {q : Nat} (hlt : q < s.nextObj) (x : Qp) : (s.setQp q x).Inv := by
  obtain ⟨hmem, hlocks, htables, hnext, hobjs, hq, hc, hr⟩ := hs
  exact ⟨hmem, hlocks, htables, hnext, hobjs, KeysBelow.assocSet hq hlt x, hc, hr⟩

theorem setCq {c : Nat} (hlt : c < s.nextObj) (x : Cq) : (s.setCq c x).Inv := by
  obtain ⟨hmem, hlocks, htables, hnext, hobjs, hq, hc, hr⟩ := hs
  exact ⟨hmem, hlocks, htables, hnext, hobjs, hq, KeysBelow.assocSet hc hlt x, hr⟩

theorem setSrq {r : Nat} (hlt : r < s.nextObj) (x : Srq) : (s.setSrq r x).Inv := by
  obtain ⟨hmem, hlocks, htables, hnext, hobjs, hq, hc, hr⟩ := hs
  exact ⟨hmem, hlocks, htables, hnext, hobjs, hq, hc, KeysBelow.assocSet hr hlt x⟩

theorem nextObj_ne_zero : s.nextObj ≠ 0 := by
  obtain ⟨-, -, -, hnext, -⟩ := hs
  exact hnext

theorem qp_lt {q : Nat} {x : Qp} (h : s.qp? q = some x) : q < s.nextObj := by
  obtain ⟨-, -, -, -, -, hq, -, -⟩ := hs
  exact hq q (Option.isSome_of_eq_some h)

theorem cq_lt {c : Nat} {x : Cq} (h : s.cq? c = some x) : c < s.nextObj := by
  obtain ⟨-, -, -, -, -, -, hc, -⟩ := hs
  exact hc c (Option.isSome_of_eq_some h)

theorem srq_lt {r : Nat} {x : Srq} (h : s.srq? r = some x) : r < s.nextObj := by
  obtain ⟨-, -, -, -, -, -, -, hr⟩ := hs
  exact hr r (Option.isSome_of_eq_some h)

theorem eraseQp (q : Nat) : (s.eraseQp q).Inv := by
  obtain ⟨hmem, hlocks, htables, hnext, hobjs, hq, hc, hr⟩ := hs
  exact ⟨hmem, hlocks, htables, hnext, hobjs, KeysBelow.assocDel hq, hc, hr⟩

theorem eraseCq (c : Nat) : (s.eraseCq c).Inv := by
  obtain ⟨hmem, hlocks, htables, hnext, hobjs, hq, hc, hr⟩ := hs
  exact ⟨hmem, hlocks, htables, hnext, hobjs, hq, KeysBelow.assocDel hc, hr⟩

theorem eraseSrq (r : Nat) : (s.eraseSrq r).Inv := by
  obtain ⟨hmem, hlocks, htables, hnext, hobjs, hq, hc, hr⟩ := hs
  exact ⟨hmem, hlocks, htables, hnext, hobjs, hq, hc, KeysBelow.assocDel hr⟩

/-- An entry that names the next arena index, which is counted up: the index is from then on one in range. -/
theorem insert (k : Kind) (i : Nat) (g : BitVec 32) (num : Num24) :
    ((s.setEntry k i { gen := g, occ := some { num, obj := s.nextObj } }).setNextObj (s.nextObj + 1)).Inv := by
  have hentry := hs.setEntry k i (e := { gen := g, occ := some { num, obj := s.nextObj } }) fun o ho => by
    cases ho
    exact hs.nextObj_ne_zero
  simpa only [State.setEntry_nextObj] using hentry.bumpNextObj

theorem deviceReads (r : Nat) (w : Word) : (s.deviceReads r w).Inv := by
  obtain ⟨hmem, hlocks, htables, hnext, hobjs, hq, hc, hr⟩ := hs
  refine ⟨hmem, hlocks, htables, hnext, hobjs, fun q h => hq q ?_, fun c h => hc c ?_, fun k h => hr k ?_⟩
  · simpa only [deviceReads_qp?, Option.isSome_map] using h
  · simpa only [deviceReads_cq?, Option.isSome_map] using h
  · simpa only [deviceReads_srq?, Option.isSome_map] using h

end State.Inv

/-! ### No update breaks the invariant -/

theorem State.Inv.closed : Closed State.Inv where
  me _ _ hs := hs
  bus _ _ hs := hs
  mem _ _ hm hs := hs.setMem hm
  lock _ _ hx hs := hs.lock hx
  unlock _ p hs := hs.unlock p
  fw _ _ hs := hs
  quiet _ _ hs := hs
  recs _ _ _ hs := hs
  qp _ _ _ y hx _ hs := hs.setQp (hs.qp_lt hx) y
  cq _ _ _ y hx hs := hs.setCq (hs.cq_lt hx) y
  srq _ _ _ y hx hs := hs.setSrq (hs.srq_lt hx) y
  eraseQp _ q hs := hs.eraseQp q
  eraseCq _ c hs := hs.eraseCq c
  eraseSrq _ r hs := hs.eraseSrq r
  drop _ k i _ hs := hs.setEntry k i fun _ ho => nomatch ho
  newQp _ i g num x hs := (hs.insert .qp i g num).setQp (Nat.lt_succ_self _) x
  newCq _ i g num x hs := (hs.insert .cq i g num).setCq (Nat.lt_succ_self _) x
  newSrq _ i g num x hs := (hs.insert .srq i g num).setSrq (Nat.lt_succ_self _) x
  emit _ _ hs := hs
  reads _ r w hs := hs.deviceReads r w
  agents _ _ hs := hs

theorem State.Inv.qpsKept : QpsKept State.Inv := fun _ _ _ y hx hs => hs.setQp (hs.qp_lt hx) y

/-- Settles O5: every elementary update of an instruction and of an input keeps the invariant (`State.Inv.closed`); the flags, the
event queue, the inbox and the owned memory are no part of it. -/
theorem stepKeepsInv : Obligations.StepKeepsInv := by
  intro s t hs h
  exact step_keeps State.Inv.closed ⟨fun _ _ hs => hs, fun _ _ _ hs => hs, fun _ _ hs => hs, fun _ _ hs => hs⟩
    ⟨fun _ hs => hs, fun _ _ hs => hs⟩ ⟨fun _ _ hs => hs, fun _ _ hs => hs, fun _ _ hs => hs⟩ (fun _ _ hs => hs)
    State.Inv.qpsKept hs h

/-! ### Power-on -/

theorem reset_entry (k : Kind) (i : Nat) : State.reset.entry k i = { gen := 0, occ := none } := by
  cases k <;> simp only [State.entry, State.table, State.reset, List.getD, List.getElem?_replicate] <;> split <;> rfl

theorem reset_tablesWf : State.reset.tablesWf :=
  ⟨List.length_replicate, List.length_replicate, List.length_replicate⟩

theorem reset_objsNonzero : State.reset.objsNonzero := by
  intro k e he o ho
  have hempty : e = {} := by cases k <;> exact List.eq_of_mem_replicate he
  rw [hempty] at ho
  cases ho

theorem reset_inv : State.reset.Inv :=
  State.reset.inv_iff.mpr ⟨rfl, List.nodup_nil, reset_tablesWf, Nat.one_ne_zero, reset_objsNonzero, .nil, .nil, .nil⟩

/-- Settles O9: `reset_inv` and `reset_entry` say what needs an argument, the rest are fields of `State.reset`. -/
theorem resetState : Obligations.ResetState :=
  ⟨reset_inv, rfl, rfl, reset_entry, fun _ => rfl, rfl, rfl, rfl, rfl, rfl⟩

end Sys2Proof.Machine
end

section
/-! SUPPORT. A table word that stands next in the inbox: the input it comes in as, and what the step makes of it (R20, R21). -/

namespace Sys2Proof.Machine

open Sys2Proof

theorem decode_of_decodeTableWord {nbits w : Nat} {i : Instr} (h : decodeTableWord nbits w = some i) :
    decode (tableFormat nbits w).1 (tableFormat nbits w).2 = .ok i := by
  unfold decodeTableWord at h
  split at h
  · cases h; assumption
  · cases h

theorem State.requester_ne_eventAgent (s : State) : s.requester ≠ eventAgent := by
  unfold State.requester
  split
  · exact Nat.one_ne_zero
  · assumption

theorem fetchInput_of_event {nbits w : Nat} (h : (tableFormat nbits w).1 = .event) (s : State) :
    fetchInput s nbits w = .event (tableFormat nbits w).2 none := by
  unfold fetchInput
  split
  · next e => rw [e]
  · next hne e => exact (hne ((congrArg Prod.fst e).symm.trans h)).elim

theorem fetchInput_of_ne_event {nbits w : Nat} (h : (tableFormat nbits w).1 ≠ .event) (s : State) :
    fetchInput s nbits w = .issue s.requester (tableFormat nbits w).1 (tableFormat nbits w).2 none none := by
  unfold fetchInput
  split
  · next e => exact absurd (congrArg Prod.fst e) h
  · next e => rw [e]

/-- The step takes the word fetched, and what was in the inbox before is left. -/
theorem step_withFetchWord (s : State) (nbits w : Nat) :
    step (s.withFetchWord nbits w) = stepInput (fetchInput s nbits w) s :=
  step_cons (s := s.withFetchWord nbits w) rfl

/-- An event that the idle event agent takes at once, nothing waiting before it, is run (R423). -/
theorem eventInput_idle {s : State} {bytes : List Byte} {i : Instr} (hdec : decode .event bytes = .ok i)
    (hstarted : s.started = true) (hallowed : s.eventAllowed i = true) (hidle : (s.agent eventAgent).cmd = none)
    (hq : s.eventQ = []) (sl : Option Nat) :
    eventInput bytes sl s = exec i ((s.noteRaised i).withAgent eventAgent sl) := by
  simp [eventInput, hdec, hstarted, hallowed, hidle, hq]

/-- An event that comes before `DEVICE_START` or after `DEVICE_STOP` is run by the idle event agent, which drops it (R441). -/
theorem eventInput_stopped {s : State} {bytes : List Byte} {i : Instr} (hdec : decode .event bytes = .ok i)
    (hstopped : s.started = false) (hidle : (s.agent eventAgent).cmd = none) (sl : Option Nat) :
    eventInput bytes sl s = exec i (s.withAgent eventAgent none) := by
  simp [eventInput, hdec, hstopped, hidle]

/-- Settles O12: the fetched word is the step's input, in the format of its row, and decodes to `i`. -/
theorem fetchRuns : Obligations.FetchRuns := by
  intro s nbits w i h
  have hdec := decode_of_decodeTableWord h
  rw [step_withFetchWord]
  refine ⟨fun hf hidle => ?_, fun hf hidle hq => ?_⟩
  · calc stepInput (fetchInput s nbits w) s
        = issueInput s.requester (tableFormat nbits w).1 (tableFormat nbits w).2 none none s := by
          rw [fetchInput_of_ne_event hf]; rfl
      _ = runWord (tableFormat nbits w).1 (tableFormat nbits w).2 (s.withAgent s.requester none) :=
          issueInput_idle s.requester_ne_eventAgent hidle hf rfl _ _
      _ = exec i (s.withAgent s.requester none) := runWord_of_decode hdec _
  · have hinput : stepInput (fetchInput s nbits w) s = eventInput (tableFormat nbits w).2 none s := by
      rw [fetchInput_of_event hf]; rfl
    rw [hf] at hdec
    rw [hinput]
    exact ⟨fun hstarted hallowed => eventInput_idle hdec hstarted hallowed hidle hq none,
      fun hstopped => eventInput_stopped hdec hstopped hidle none⟩

end Sys2Proof.Machine
end

section
/-! SUPPORT. A ring keeps its form through a post and through a completion (R31, R206, R211, R305). -/

namespace Sys2Proof.Machine

open Sys2Proof

/-- The length of the way around a ring of `c` slots from slot `last` on to slot `idx`, as `TAIL_ADVANCE` computes it (R305). -/
theorem retired_eq {last d c idx : Nat} (hlast : last < c) (hd : 0 < d) (hdc : d ≤ c) (hidx : (last + d) % c = idx) :
    (if last < idx then idx - last else idx + c - last) = d := by
  by_cases hwrap : last + d < c
  · rw [Nat.mod_eq_of_lt hwrap] at hidx
    rw [if_pos (by omega)]
    omega
  · have hmod : (last + d) % c = last + d - c := by
      rw [Nat.mod_eq_sub_mod (by omega), Nat.mod_eq_of_lt (by omega)]
    rw [if_neg (by omega)]
    omega

/-- One more WQE counts one more, where the 32-bit difference has room (R33). -/
theorem Ring.count_advance (r : Ring) (ind : Nat) (h : r.count + 1 < 2 ^ 32) : (r.advance ind).count = r.count + 1 := by
  unfold Ring.count at h
  simp only [Ring.count, Ring.advance]
  bv_omega

theorem Ring.Wf.advance {r : Ring} (hr : r.Wf) (hcap : r.capacity < 2 ^ 32) (hroom : r.count < r.capacity) :
    (r.advance r.nextInd).Wf ∧ (r.advance r.nextInd).count = r.count + 1 := by
  obtain ⟨hwrid, hslots, -⟩ := hr
  have hpos : 0 < r.capacity := by omega
  obtain ⟨hnext, -, hlast⟩ := hslots hpos
  have hcount := r.count_advance r.nextInd (by omega)
  exact ⟨⟨hwrid, fun _ => ⟨Nat.mod_lt _ hpos, hnext, hlast⟩, hcount.trans_le hroom⟩, hcount⟩

/-- The completion of the `d`th outstanding WQE retires `d` WQEs (R305). -/
theorem Ring.count_retire {r : Ring} {idx d : Nat} (hlast : r.lastComp < r.capacity) (hd : 0 < d) (hdc : d ≤ r.capacity)
    (hcount : d ≤ r.count) (hidx : (r.lastComp + d) % r.capacity = idx) : (r.retire idx).count + d = r.count := by
  simp only [Ring.count, Ring.retire, retired_eq hlast hd hdc hidx] at hcount ⊢
  bv_omega

theorem Ring.Wf.retire {r : Ring} (hr : r.Wf) {idx d : Nat} (hlt : idx < r.capacity) (hd : 0 < d) (hdc : d ≤ r.capacity)
    (hcount : d ≤ r.count) (hidx : (r.lastComp + d) % r.capacity = idx) :
    (r.retire idx).Wf ∧ (r.retire idx).count + d = r.count := by
  obtain ⟨hwrid, hslots, hle⟩ := hr
  obtain ⟨hnext, hlastIdx, hlast⟩ := hslots (by omega)
  have hretired := Ring.count_retire hlast hd hdc hcount hidx
  exact ⟨⟨hwrid, fun _ => ⟨hnext, hlastIdx, hlt⟩, (Nat.le_of_add_right_le hretired.le).trans hle⟩, hretired⟩

/-- Settles O57: a post counts one more (`Ring.Wf.advance`), a completion as many fewer as it retires (`Ring.Wf.retire`). -/
theorem ringKept : Obligations.RingKept := by
  intro r hr hcap
  refine ⟨hr.advance hcap, fun idx d hlt hd hcount hidx hdc => ?_⟩
  obtain ⟨hwf, hretired⟩ := hr.retire hlt hd hdc hcount hidx
  exact ⟨hwf, hretired, rfl⟩

end Sys2Proof.Machine
end

section
/-! SUPPORT. The free list of an SRQ (R46, R374, R376, R377): a list linked from its head to the end sentinel is what
`Srq.freeList` reads, so a change of the links is followed on the list itself. -/

namespace Sys2Proof.Machine

open Sys2Proof

/-! ### Linked lists of slots -/

/-- The slots `l`, in their order, are linked from `head` on, and the last one ends the list (R46). -/
def LinkedFrom (link : List (Option Nat)) (head : Option Nat) (l : List Nat) : Prop :=
  match l with
  | [] => head = none
  | j :: l => head = some j ∧ LinkedFrom link (link.getD j none) l

/-- The links of other slots do not matter. -/
theorem LinkedFrom.congr {link link' : List (Option Nat)} {head : Option Nat} {l : List Nat}
    (h : LinkedFrom link head l) (hl : ∀ j ∈ l, link'.getD j none = link.getD j none) : LinkedFrom link' head l := by
  induction l generalizing head with
  | nil => exact h
  | cons j l ih =>
    refine ⟨h.1, ?_⟩
    rw [hl j List.mem_cons_self]
    exact ih h.2 fun i hi => hl i (List.mem_cons_of_mem j hi)

theorem getD_set_self {α : Type} (l : List α) {i : Nat} (h : i < l.length) (v d : α) : (l.set i v).getD i d = v := by
  simp [List.getD, h]

theorem getD_set_ne {α : Type} (l : List α) {i j : Nat} (h : j ≠ i) (v d : α) : (l.set i v).getD j d = l.getD j d := by
  simp [List.getD, List.getElem?_set_ne h.symm]

/-- The last slot linked to a further one, whose own link ends the list. -/
theorem LinkedFrom.concat {link : List (Option Nat)} {head : Option Nat} {l : List Nat} {t i : Nat}
    (h : LinkedFrom link head (l ++ [t])) (hl : t ∉ l) (ht : t < link.length) (hti : t ≠ i)
    (hend : link.getD i none = none) : LinkedFrom (link.set t (some i)) head (l ++ [t, i]) := by
  induction l generalizing head with
  | nil =>
    refine ⟨h.1, getD_set_self link ht _ _, ?_⟩
    rw [getD_set_ne link hti.symm]
    exact hend
  | cons j l ih =>
    refine ⟨h.1, ?_⟩
    rw [getD_set_ne link (List.ne_of_not_mem_cons hl).symm]
    exact ih h.2 (List.not_mem_of_not_mem_cons hl)

/-- With fuel for every slot and the end, `freeListFrom` reads what is linked. -/
theorem freeListFrom_of_linked {x : Srq} {fuel : Nat} {head : Option Nat} {l : List Nat} (h : LinkedFrom x.link head l)
    (hfuel : l.length < fuel) : x.freeListFrom fuel head = l := by
  induction fuel generalizing head l with
  | zero => exact absurd hfuel (Nat.not_lt_zero _)
  | succ n ih =>
    cases l with
    | nil => rw [show head = none from h]; rfl
    | cons j l =>
      obtain ⟨rfl, h⟩ := h
      exact congrArg (j :: ·) (ih h (Nat.lt_of_succ_lt_succ hfuel))

/-- Where the fuel outlasts what `freeListFrom` reads, it has read up to the end sentinel. -/
theorem linked_freeListFrom {x : Srq} {fuel : Nat} {head : Option Nat} (h : (x.freeListFrom fuel head).length < fuel) :
    LinkedFrom x.link head (x.freeListFrom fuel head) := by
  induction fuel generalizing head with
  | zero => exact absurd h (Nat.not_lt_zero _)
  | succ n ih =>
    cases head with
    | none => rfl
    | some j => exact ⟨rfl, ih (Nat.lt_of_succ_lt_succ h)⟩

theorem freeList_of_linked {x : Srq} {l : List Nat} (h : LinkedFrom x.link x.freeHead l) (hlen : l.length ≤ x.capacity) :
    x.freeList = l := freeListFrom_of_linked h (Nat.lt_succ_of_le hlen)

/-- Slots that are all below `n`, each once, are at most `n`. -/
theorem length_le_of_nodup_of_lt {l : List Nat} {n : Nat} (hl : l.Nodup) (h : ∀ i ∈ l, i < n) : l.length ≤ n := by
  have hsub : l ⊆ List.range n := fun i hi => List.mem_range.mpr (h i hi)
  simpa using (List.subperm_of_subset hl hsub).length_le

/-! ### The count of the posted slots -/

theorem count_set_false {l : List Bool} {i : Nat} (h : l.getD i false = true) :
    (l.set i false).count true = l.count true - 1 := by
  have hi : i < l.length := by
    by_contra hge
    simp [List.getD, List.getElem?_eq_none (Nat.le_of_not_lt hge)] at h
  have hget : l[i] = true := by simpa [List.getD, hi] using h
  simp [List.count_set hi, hget]

theorem count_set_true {l : List Bool} {i : Nat} (hi : i < l.length) (h : l.getD i false = false) :
    (l.set i true).count true = l.count true + 1 := by
  have hget : l[i] = false := by simpa [List.getD, hi] using h
  simp [List.count_set hi, hget]

/-! ### What a release and a post change -/

section

variable {x : Srq} {idx : Nat}

theorem freeSlot_of_not_posted {x : Srq} {idx : Nat} (h : x.capacity ≤ idx ∨ x.posted.getD idx false = false) :
    x.freeSlot idx = x := by
  refine if_neg fun ⟨hlt, hp⟩ => ?_
  rcases h with h | h
  · omega
  · rw [h] at hp; cases hp

variable (hlt : idx < x.capacity) (hp : x.posted.getD idx false = true)

include hlt hp

/-- A slot released into the empty list is the whole list. -/
theorem freeSlot_of_empty (htail : x.freeTail = none) : x.freeSlot idx = { x with
    posted := x.posted.set idx false, freeHead := some idx, link := x.link.set idx none, freeTail := some idx
    outstanding := x.outstanding - 1 } := by
  rw [Srq.freeSlot, if_pos ⟨hlt, hp⟩, htail]

/-- A slot released into a list with a tail is linked behind the tail. -/
theorem freeSlot_of_tail {t : Nat} (htail : x.freeTail = some t) : x.freeSlot idx = { x with
    posted := x.posted.set idx false, link := (x.link.set idx none).set t (some idx), freeTail := some idx
    outstanding := x.outstanding - 1 } := by
  rw [Srq.freeSlot, if_pos ⟨hlt, hp⟩, htail]

end

theorem pop_of_head {x : Srq} {ind : Nat} (h : x.freeHead = some ind) : x.pop = (ind, { x with
    freeHead := x.link.getD ind none, freeTail := if x.link.getD ind none = none then none else x.freeTail
    link := x.link.set ind none }) := by
  rw [Srq.pop, h]

/-! ### Well-formed SRQs by their linked list -/

/-- `l` is the free list of an SRQ in good form: what `Srq.Wf` says, of a list that is linked from the head. -/
structure Srq.FreeIs (x : Srq) (l : List Nat) : Prop where
  posted : x.posted.length = x.capacity
  link : x.link.length = x.capacity
  nodup : l.Nodup
  mem : ∀ i, i ∈ l ↔ i < x.capacity ∧ x.posted.getD i false = false
  last : l.getLast? = x.freeTail
  linked : LinkedFrom x.link x.freeHead l
  outstanding : x.outstanding = x.posted.count true

theorem LinkedFrom.head? {link : List (Option Nat)} {head : Option Nat} {l : List Nat} (h : LinkedFrom link head l) :
    l.head? = head := by
  cases l with
  | nil => exact h.symm
  | cons j l => exact h.1.symm

theorem Srq.Wf.freeIs {x : Srq} (h : x.Wf) : x.FreeIs x.freeList := by
  obtain ⟨hposted, hlink, hnodup, hmem, hlast, -, hout⟩ := h
  have hlen : x.freeList.length ≤ x.capacity := length_le_of_nodup_of_lt hnodup fun i hi => ((hmem i).mp hi).1
  exact ⟨hposted, hlink, hnodup, hmem, hlast, linked_freeListFrom (Nat.lt_succ_of_le hlen), hout⟩

namespace Srq.FreeIs

variable {x : Srq} {l : List Nat}

theorem freeList_eq (h : x.FreeIs l) : x.freeList = l :=
  freeListFrom_of_linked h.linked <|
    Nat.lt_succ_of_le <| length_le_of_nodup_of_lt h.nodup fun i hi => ((h.mem i).mp hi).1

theorem wf (h : x.FreeIs l) : x.Wf := by
  have e := h.freeList_eq.symm
  subst e
  exact ⟨h.posted, h.link, h.nodup, h.mem, h.last, h.linked.head?, h.outstanding⟩

theorem lt_capacity (h : x.FreeIs l) {i : Nat} (hi : i ∈ l) : i < x.capacity := ((h.mem i).mp hi).1

/-- A posted slot is not on the free list. -/
theorem not_mem_of_posted (h : x.FreeIs l) {i : Nat} (hi : x.posted.getD i false = true) : i ∉ l := by
  intro hmem
  rw [((h.mem i).mp hmem).2] at hi
  cases hi

/-! ### Release (R376) -/

theorem nodup_release (h : x.FreeIs l) {idx : Nat} (hp : x.posted.getD idx false = true) : (l ++ [idx]).Nodup := by
  rw [← List.concat_eq_append]
  exact h.nodup.concat (h.not_mem_of_posted hp)

/-- The slots that are not posted, one more being released. -/
theorem mem_release (h : x.FreeIs l) {idx : Nat} (hlt : idx < x.capacity) (i : Nat) :
    i ∈ l ++ [idx] ↔ i < x.capacity ∧ (x.posted.set idx false).getD i false = false := by
  rw [List.mem_append, List.mem_singleton, h.mem]
  by_cases e : i = idx
  · subst e
    rw [getD_set_self x.posted (h.posted.symm ▸ hlt)]
    simp [hlt]
  · rw [getD_set_ne _ e]
    simp [e]

/-- A released slot is the last of the free list. -/
theorem freeSlot (h : x.FreeIs l) {idx : Nat} (hlt : idx < x.capacity) (hp : x.posted.getD idx false = true) :
    (x.freeSlot idx).FreeIs (l ++ [idx]) := by
  have hlen : idx < x.link.length := h.link.symm ▸ hlt
  have hnot := h.not_mem_of_posted hp
  have hend : (x.link.set idx none).getD idx none = none := getD_set_self x.link hlen _ _
  have hcount : x.outstanding - 1 = (x.posted.set idx false).count true := by rw [h.outstanding, count_set_false hp]
  cases htail : x.freeTail with
  | none =>
    obtain rfl : l = [] := List.getLast?_eq_none_iff.mp (h.last.trans htail)
    rw [freeSlot_of_empty hlt hp htail]
    exact ⟨List.length_set.trans h.posted, List.length_set.trans h.link, h.nodup_release hp, h.mem_release hlt, rfl,
      ⟨rfl, hend⟩, hcount⟩
  | some t =>
    obtain ⟨l', rfl⟩ := List.getLast?_eq_some_iff.mp (h.last.trans htail)
    have ht : t ∈ l' ++ [t] := List.mem_append_right _ (List.mem_singleton_self t)
    have hlinked : LinkedFrom (x.link.set idx none) x.freeHead (l' ++ [t]) :=
      h.linked.congr fun j hj => getD_set_ne x.link (ne_of_mem_of_not_mem hj hnot) _ _
    have hgrown : LinkedFrom ((x.link.set idx none).set t (some idx)) x.freeHead (l' ++ [t] ++ [idx]) := by
      rw [List.append_assoc]
      exact hlinked.concat (fun hmem => List.disjoint_of_nodup_append h.nodup hmem (List.mem_singleton_self t))
        (by rw [List.length_set, h.link]; exact h.lt_capacity ht) (ne_of_mem_of_not_mem ht hnot) hend
    rw [freeSlot_of_tail hlt hp htail]
    exact ⟨List.length_set.trans h.posted, by simp only [List.length_set, h.link], h.nodup_release hp, h.mem_release hlt,
      List.getLast?_concat, hgrown, hcount⟩

/-! ### Post (R374) -/

section

variable {ind : Nat} {rest : List Nat} (h : x.FreeIs (ind :: rest))

include h

theorem linked_pop : LinkedFrom x.pop.2.link x.pop.2.freeHead rest := by
  rw [pop_of_head h.linked.1]
  exact h.linked.2.congr fun j hj => getD_set_ne x.link (ne_of_mem_of_not_mem hj (List.nodup_cons.mp h.nodup).1) _ _

/-- The tail of the list without its head: the old one, or none where the head was the only slot. -/
theorem last_pop : rest.getLast? = x.pop.2.freeTail := by
  have hlast := h.last
  have hnext := h.linked.2
  rw [pop_of_head h.linked.1]
  cases rest with
  | nil => exact (if_pos hnext).symm
  | cons j rest =>
    rw [List.getLast?_cons_cons] at hlast
    rw [hlast, hnext.1]
    rfl

/-- The free list after the pop of its head, also before the slot is counted as posted. -/
theorem freeList_pop : x.pop.2.freeList = rest := by
  refine freeList_of_linked h.linked_pop ?_
  have hlen := length_le_of_nodup_of_lt h.nodup fun i hi => h.lt_capacity hi
  rw [pop_of_head h.linked.1]
  exact (Nat.le_succ _).trans hlen

theorem mem_post (i : Nat) : i ∈ rest ↔ i < x.capacity ∧ (x.posted.set ind true).getD i false = false := by
  obtain ⟨hlt, -⟩ := (h.mem ind).mp List.mem_cons_self
  have hmem := h.mem i
  by_cases e : i = ind
  · subst e
    rw [getD_set_self _ (h.posted.symm ▸ hlt)]
    simp [(List.nodup_cons.mp h.nodup).1]
  · rw [getD_set_ne _ e, ← hmem]
    simp [e]

/-- The post of the head leaves the rest. -/
theorem post : (x.pop.2.advance ind).FreeIs rest := by
  obtain ⟨hlt, hfree⟩ := (h.mem ind).mp List.mem_cons_self
  have hlinked := h.linked_pop
  have hlast := h.last_pop
  have hcount : x.outstanding + 1 = (x.posted.set ind true).count true := by
    rw [h.outstanding, count_set_true (h.posted.symm ▸ hlt) hfree]
  rw [pop_of_head h.linked.1] at hlinked hlast ⊢
  exact ⟨List.length_set.trans h.posted, List.length_set.trans h.link, (List.nodup_cons.mp h.nodup).2, h.mem_post, hlast,
    hlinked, hcount⟩

end

/-! ### The empty list -/

/-- The list is empty where every slot is posted. -/
theorem eq_nil_iff (h : x.FreeIs l) : l = [] ↔ x.outstanding = x.capacity := by
  rw [h.outstanding, ← h.posted, List.count_eq_length, List.eq_nil_iff_forall_not_mem]
  constructor
  · intro hempty b hb
    obtain ⟨i, hi, rfl⟩ := List.getElem_of_mem hb
    have := mt (h.mem i).mpr (hempty i)
    simpa [← h.posted, hi] using this
  · intro hall i hi
    obtain ⟨hlt, hfree⟩ := (h.mem i).mp hi
    have hlen : i < x.posted.length := h.posted.symm ▸ hlt
    have := hall _ (List.getElem_mem hlen)
    simp [List.getD, hlen, ← this] at hfree

end Srq.FreeIs

/-- Settles O56: `Srq.FreeIs` says what `Srq.Wf` says of a linked list, which a release appends to (`Srq.FreeIs.freeSlot`) and a post
takes the head of (`Srq.FreeIs.post`). -/
theorem srqKept : Obligations.SrqKept := by
  intro x hx
  have h := hx.freeIs
  refine ⟨fun idx => ⟨?_, fun hlt hp => (h.freeSlot hlt hp).freeList_eq, freeSlot_of_not_posted⟩, fun ind hhead => ?_, ?_⟩
  · by_cases hp : idx < x.capacity ∧ x.posted.getD idx false = true
    · exact (h.freeSlot hp.1 hp.2).wf
    · rw [freeSlot_of_not_posted (by simpa [imp_iff_not_or] using hp)]
      exact hx
  · obtain ⟨rest, hlist⟩ := List.head?_eq_some_iff.mp (h.linked.head?.trans hhead)
    rw [hlist] at h ⊢
    exact ⟨h.post.wf, congrArg _ h.freeList_pop.symm⟩
  · rw [← h.eq_nil_iff, ← h.linked.head?, List.head?_eq_none_iff]

end Sys2Proof.Machine
end

section
/-! SUPPORT. What the device's contract (R85 to R90, R263, R308) lets the inputs of the device do: an arm taken, an event raised, a
report in the order of a ring or of an SRQ. -/

namespace Sys2Proof.Machine

open Sys2Proof

/-! ### Arms and completion events (R263, R424) -/

theorem Cq.takeArm_of_getElem? {y : Cq} {k : Nat} {a : Arm} (h : y.arms[k]? = some a) (waits : Bool) : y.takeArm k waits =
    { y with
      arms := y.arms.eraseIdx k
      armed := if a.sn = none ∨ a.sn = some (y.devSn.setWidth 2) then some { a with met := waits } else y.armed } := by
  simp only [Cq.takeArm, h]

/-- A CQ that is there and holds no arm. -/
def State.Disarmed (s : State) (c : Nat) : Prop := ∃ z, s.cq? c = some z ∧ z.armed = none

theorem State.Disarmed.congr {s t : State} {c : Nat} (h : s.Disarmed c) (he : t.cqs = s.cqs) : t.Disarmed c := by
  obtain ⟨z, hz, ha⟩ := h
  exact ⟨z, by rw [State.cq?, he]; exact hz, ha⟩

/-- A CQ set that holds no arm if it is this one leaves this one disarmed. -/
theorem State.Disarmed.setCq {s : State} {c d : Nat} {z : Cq} (h : s.Disarmed c) (hz : c = d → z.armed = none) :
    (s.setCq d z).Disarmed c := by
  by_cases e : c = d
  · subst e
    exact ⟨z, assocGet_assocSet_self _ _ _, hz rfl⟩
  · obtain ⟨w, hw, ha⟩ := h
    exact ⟨w, (assocGet_assocSet_ne _ _ e).trans hw, ha⟩

theorem acquireAct_cqs {x : Lock} {s s' : State} {a : Nat} (h : acquireAct x s = .ok a s') : s'.cqs = s.cqs := by
  unfold acquireAct at h
  split at h
  · cases h; rfl
  · split at h <;> cases h

theorem releaseAct_cqs {x : Lock} {s s' : State} {a : Nat} (h : releaseAct x s = .ok a s') : s'.cqs = s.cqs := by
  unfold releaseAct at h
  split at h <;> cases h
  rfl

/-- The count of `arm_sn` up leaves the device's arm alone. -/
theorem armSnNextAct_disarmed {num : Num24} {c a : Nat} {s s' : State} (hs : s.Disarmed c)
    (h : armSnNextAct num s = .ok a s') : s'.Disarmed c := by
  unfold armSnNextAct at h
  split at h
  · cases h; exact hs
  · unfold withCq at h
    split at h <;> cases h
    next d _ x hx =>
      refine hs.setCq fun e => ?_
      obtain ⟨z, hz, ha⟩ := hs
      subst e
      cases hz.symm.trans hx
      exact ha

/-- No step of a completion event arms a CQ. -/
theorem keeps_eventCompletionProg_disarmed (num : Num24) (c : Nat) (op : Operands) :
    Keeps (State.Disarmed · c) (eventCompletionProg num op) := by
  have hdone : Keeps (State.Disarmed · c) .done := .done fun _ hs => hs.congr rfl
  have hrelease : Keeps (State.Disarmed · c)
      (.act (fun s => releaseAct (s.shardLock .cq (s.indexOf .cq num)) s) fun _ => .done) :=
    .act (fun _ _ _ hs h => hs.congr (releaseAct_cqs h)) fun _ => hdone
  refine .ask fun b => ?_
  split
  · exact hdone
  refine .act (fun _ _ _ hs h => hs.congr (acquireAct_cqs h)) fun _ =>
    .act (fun _ _ _ hs h => armSnNextAct_disarmed hs h) fun d => ?_
  split
  · exact hrelease
  · exact .eff (fun _ hs => hs.congr rfl) hrelease

theorem execEventCompletion_disarmed {num : Num24} {c : Nat} {s t : State} (hs : s.Disarmed c)
    (h : execEventCompletion num s = .next t) : t.Disarmed c := by
  have hrun : ∀ {t : State}, runOn (.eventCompletion num) (eventCompletionProg num) (s.setCur eventAgent) = .next t →
      t.Disarmed c :=
    Keeps.runOn (I := (State.Disarmed · c)) (fun _ _ hs => hs.congr rfl) (fun _ _ hs => hs.congr rfl)
      (keeps_eventCompletionProg_disarmed num c) (hs.congr rfl)
  simp only [execEventCompletion, runEvent] at h
  split at h
  · exact hrun h
  · split at h
    · exact hrun h
    · cases h; exact hs.congr rfl

theorem exec_eventCompletion (num : Num24) (s : State) : exec (.eventCompletion num) s = execEventCompletion num s := rfl

theorem noteRaised_disarmed {s : State} {num : Num24} {c : Nat} {y : Cq} (hn : s.lookupNum .cq num = some c)
    (hc : s.cq? c = some y) : (s.noteRaised (.eventCompletion num)).Disarmed c := by
  rw [State.noteRaised, onCqNum_cq? _ hn hc]
  exact ⟨y.notified, assocGet_assocSet_self _ _ _, rfl⟩

/-- While the core is started, an event that the device may not raise has no step (R90, R431). -/
theorem eventInput_refused {s : State} {bytes : List Byte} {sl : Option Nat} {i : Instr} (hdec : decode .event bytes = .ok i)
    (hst : s.started = true) (h : s.eventAllowed i = false) : eventInput bytes sl s = .refused .deviceContract := by
  simp [eventInput, hdec, hst, h]

/-- The event of a CQ disarms it, whether it is run at once or waits (R263, R423). -/
theorem eventInput_completion_disarmed {s t : State} {bytes : List Byte} {sl : Option Nat} {num : Num24} {c : Nat} {y : Cq}
    (hdec : decode .event bytes = .ok (.eventCompletion num)) (hst : s.started = true) (hn : s.lookupNum .cq num = some c)
    (hc : s.cq? c = some y) (h : eventInput bytes sl s = .next t) : t.Disarmed c := by
  have hs := noteRaised_disarmed hn hc
  simp only [eventInput, hdec, hst, Bool.true_eq_false, if_false] at h
  split at h
  · split at h
    · cases h; exact hs.congr rfl
    · rw [exec_eventCompletion] at h
      exact execEventCompletion_disarmed (s := (s.noteRaised _).withAgent eventAgent sl) (hs.congr rfl) h
  · cases h

/-! ### When the device may write (R87, R89, R90) -/

theorem State.deviceWrites_iff {s : State} {y : Cq} : s.deviceWrites y = true ↔
    s.deviceFailed = false ∧ s.cqeHwOwned y.prodAddr = true ∧ (y.devProd - y.devCons).toNat < y.capacity := by
  simp [State.deviceWrites, and_assoc]

theorem withCqNum_of_live {cqn : Num24} {s : State} {c : Nat} {y : Cq} (hn : s.lookupNum .cq cqn = some c)
    (hc : s.cq? c = some y) (f : Nat → Cq → Host.Outcome State Fault Refusal) : withCqNum cqn s f = f c y := by
  simp only [withCqNum, hn, hc]

/-- An input about a CQ's number that is refused on every live CQ of that number is refused. -/
theorem withCqNum_refused {cqn : Num24} {s : State} {f : Nat → Cq → Host.Outcome State Fault Refusal}
    (h : ∀ c y, s.lookupNum .cq cqn = some c → s.cq? c = some y → f c y = .refused .deviceContract) :
    withCqNum cqn s f = .refused .deviceContract := by
  unfold withCqNum
  split
  · rfl
  · split
    · rfl
    · exact h _ _ ‹_› ‹_›

/-- What the owner byte does: the report, the byte, and the device's next slot (R87). -/
theorem deviceOwnerInput_next {cqn : Num24} {s t : State} {b : Byte} {c : Nat} {y : Cq}
    (hn : s.lookupNum .cq cqn = some c) (hc : s.cq? c = some y) (h : deviceOwnerInput cqn b s = .next t) :
    b.getLsbD 7 = false ∧ s.cqeQpn y.prodAddr ∉ s.quiet ∧ ∃ u, s.reportCqe c y.prodAddr = some u
      ∧ t = (u.setMem (memPut s.mem (y.prodAddr + 0x1F) b)).setCq c (y.produced (s.cqeSolicited y.prodAddr)) := by
  rw [deviceOwnerInput, withCqNum_of_live hn hc] at h
  split at h
  next hw =>
    obtain ⟨-, hb, hquiet⟩ := hw
    split at h <;> cases h
    exact ⟨hb, hquiet, _, ‹_›, rfl⟩
  · cases h

/-- A report taken of a CQE of a QP is that QP's, in the QP's CQ for its kind. -/
theorem reportCqe_qp_eq_some {s u : State} {c a q : Nat} {x : Qp} (hq : s.deviceQp (s.cqeQpn a) = some q)
    (hx : s.qp? q = some x) :
    s.reportCqe c a = some u ↔ s.lookup .cq (x.cqOf (s.cqeIsSend a)) = some c ∧ s.reportQp q x a = some u := by
  rw [reportCqe_qp hq hx, Option.ite_none_right_eq_some]

/-- A report on a QP's own ring is one of that ring. -/
theorem reportQp_own {s : State} {q a : Nat} {x : Qp} {isSend : Bool} (hk : s.cqeIsSend a = isSend)
    (hown : isSend = false → x.srq = none) : s.reportQp q x a = s.reportRing q x isSend a := by
  cases isSend with
  | true => simp only [State.reportQp, hk, if_pos]
  | false => simp [State.reportQp, hk, hown]

theorem reportQp_srq {s : State} {q a r : Nat} {x : Qp} {z : Srq} {h : Handle} (hk : s.cqeIsSend a = false)
    (hx : x.srq = some h) (hl : s.lookup .srq h = some r) (hz : s.srq? r = some z) :
    s.reportQp q x a = s.reportSrq q r x z a := by
  simp [State.reportQp, hk, hx, hl, hz]

/-! ### The inputs that wait do not matter to a report -/

@[simp] theorem State.setInbox_deviceFailed (s : State) (l : List Input) : (s.setInbox l).deviceFailed = s.deviceFailed := rfl
@[simp] theorem State.setInbox_deviceWrites (s : State) (l : List Input) (y : Cq) :
    (s.setInbox l).deviceWrites y = s.deviceWrites y := rfl
@[simp] theorem State.setInbox_cqeWord (s : State) (l : List Input) (a off : Nat) :
    (s.setInbox l).cqeWord a off = s.cqeWord a off := rfl
@[simp] theorem State.setInbox_cqeQpn (s : State) (l : List Input) (a : Nat) : (s.setInbox l).cqeQpn a = s.cqeQpn a := rfl
@[simp] theorem State.setInbox_cqeIsSend (s : State) (l : List Input) (a : Nat) :
    (s.setInbox l).cqeIsSend a = s.cqeIsSend a := rfl
@[simp] theorem State.setInbox_echoes (s : State) (l : List Input) (x : Qp) (isSend : Bool) (a i : Nat) :
    (s.setInbox l).echoes x isSend a i = s.echoes x isSend a i := rfl
@[simp] theorem State.setInbox_skippable (s : State) (l : List Input) (x : Qp) (isSend : Bool) :
    (s.setInbox l).skippable x isSend = s.skippable x isSend := rfl
@[simp] theorem State.setInbox_ringDone (s : State) (l : List Input) (x : Qp) (isSend : Bool) :
    (s.setInbox l).ringDone x isSend = s.ringDone x isSend :=
  ringDone_congr (s := s) (s' := s.setInbox l) rfl x isSend
@[simp] theorem State.setInbox_startChain (s : State) (l : List Input) (q : Nat) (x : Qp) (isSend : Bool) (a : Nat) :
    (s.setInbox l).startChain q x isSend a = s.startChain q x isSend a :=
  funext (startChain_congr (s := s) (s' := s.setInbox l) rfl rfl rfl q x isSend a)
@[simp] theorem State.setInbox_deviceQp (s : State) (l : List Input) (num : Num24) :
    (s.setInbox l).deviceQp num = s.deviceQp num := by simp only [State.deviceQp, State.setInbox_lookupNum, State.setInbox_qps]

theorem reportRing_setInbox (s : State) (l : List Input) (q : Nat) (x : Qp) (isSend : Bool) (a : Nat) :
    (s.setInbox l).reportRing q x isSend a = (s.reportRing q x isSend a).map (·.setInbox l) := by
  simp only [State.reportRing, State.setInbox_cqeWord, State.setInbox_echoes, State.setInbox_skippable,
    State.setInbox_ringDone, State.setInbox_startChain]
  cases x.wqeIndex isSend (s.cqeWord a 0x18).toNat with
  | none => rfl
  | some i =>
    simp only [apply_ite (Option.map (State.setInbox · l)), Option.map_map]
    rfl

theorem reportSrq_setInbox (s : State) (l : List Input) (q r : Nat) (x : Qp) (z : Srq) (a : Nat) :
    (s.setInbox l).reportSrq q r x z a = (s.reportSrq q r x z a).map (·.setInbox l) := by
  simp only [State.reportSrq, State.setInbox_cqeWord, apply_ite (Option.map (State.setInbox · l)), Option.map_map]
  rfl

theorem reportQp_setInbox (s : State) (l : List Input) (q : Nat) (x : Qp) (a : Nat) :
    (s.setInbox l).reportQp q x a = (s.reportQp q x a).map (·.setInbox l) := by
  by_cases hown : s.cqeIsSend a = false → x.srq = none
  · rw [reportQp_own rfl hown, reportQp_own (State.setInbox_cqeIsSend s l a) hown, reportRing_setInbox]
  · obtain ⟨hk, h, hx⟩ : s.cqeIsSend a = false ∧ ∃ h, x.srq = some h := by
      simpa [Option.ne_none_iff_exists'] using hown
    cases hl : s.lookup .srq h with
    | none => simp [State.reportQp, hk, hx, hl]
    | some r =>
      cases hz : s.srq? r with
      | none => simp [State.reportQp, hk, hx, hl, hz]
      | some z => simp [State.reportQp, hk, hx, hl, hz, reportSrq_setInbox]

theorem reportCqe_setInbox (s : State) (l : List Input) (c a : Nat) :
    (s.setInbox l).reportCqe c a = (s.reportCqe c a).map (·.setInbox l) := by
  simp only [State.reportCqe, State.setInbox_cqeQpn, State.setInbox_deviceQp, State.setInbox_qpOf, State.setInbox_lookup,
    State.setInbox_cqeIsSend, reportQp_setInbox]
  cases (s.deviceQp (s.cqeQpn a)).bind fun q => (s.qp? q).map fun x => (q, x) with
  | none => rfl
  | some e =>
    simp only [apply_ite (Option.map (State.setInbox · l))]
    rfl

/-! ### A report in the order of a ring (R85, R86, R242) -/

theorem memRead_lt (s : State) (a n : Nat) : s.memRead a n < 256 ^ n := by
  simpa [State.memRead] using beNat_lt (memGetBytes s.mem a n)

theorem skippable_iff {s : State} {x : Qp} {isSend : Bool} {i : Nat} : s.skippable x isSend i = true ↔
    isSend = true ∧ s.memRead (x.slotAddr true i + 8) 4 / 8 % 2 = 0 := by
  simp [State.skippable]

theorem echoes_iff {s : State} {x : Qp} {isSend : Bool} {a i : Nat} : s.echoes x isSend a i = true ↔
    (isSend = true → isErrOpcode (s.cqeByte a 0x1C) = false →
      (s.cqeByte a 0x1C).toNat = ((x.ring isSend).ops.getD i 0).toNat) := by
  have hop : ∀ (b : Byte) (o : BitVec 6), b = o.setWidth 8 ↔ b.toNat = o.toNat := fun b o => by
    rw [← BitVec.toNat_inj, BitVec.toNat_setWidth_of_le (by decide)]
  cases isSend with
  | false => simp [State.echoes]
  | true => cases h : isErrOpcode (s.cqeByte a 0x1C) <;> simp [State.echoes, Qp.ring, h, hop]

/-- The WQE of number `n` is the live one in slot `i`; the device may read it and has not passed it; each WQE before it that the
device has not passed is a send whose header asks for no completion (R85, R86, R217). -/
structure State.ReportsNext (s : State) (x : Qp) (isSend : Bool) (i n : Nat) : Prop where
  slot : (n - 1) % (x.ring isSend).capacity = i
  live : n ≤ (x.ring isSend).live
  newest : (x.ring isSend).live < n + (x.ring isSend).capacity
  ahead : s.ringDone x isSend < n
  read : (x.ring isSend).first ≠ 0
  reached : (x.ring isSend).first ≤ s.ringDone x isSend + 1
  passed : ∀ m, s.ringDone x isSend < m → m < n →
    isSend = true ∧ s.memRead (x.slotAddr true ((m - 1) % (x.ring isSend).capacity) + 8) 4 / 8 % 2 = 0

theorem ring_reports_iff {s : State} {x : Qp} {isSend : Bool} {i : Nat} {r : Ring} :
    (x.ring isSend).reports (s.skippable x isSend) (s.ringDone x isSend) i = some r ↔
      ∃ n, s.ReportsNext x isSend i n ∧ r = { x.ring isSend with devDone := n } := by
  simp only [Ring.reports_iff, skippable_iff]
  constructor
  · rintro ⟨n, h1, h2, h3, h4, h5, h6, h7, h8⟩
    exact ⟨n, ⟨h1, h2, h3, h4, h5, h6, h7⟩, h8⟩
  · rintro ⟨n, ⟨h1, h2, h3, h4, h5, h6, h7⟩, h8⟩
    exact ⟨n, h1, h2, h3, h4, h5, h6, h7, h8⟩

/-- What has to hold of a `LEGACY` error CQE, which stands for the chain from its WQE on (R308, notes/assumptions/47.md). -/
theorem startChain_iff {s : State} {q a : Nat} {x : Qp} {isSend : Bool} {r r' : Ring} :
    s.startChain q x isSend a r = some r' ↔
      (s.legacyErrDue a = 1 → s.chainCloses x isSend (r.live - r.devDone) r.devDone (s.memRead (a + 0x12) 2) = true
        ∧ s.oneSlotPost q isSend r = false)
      ∧ r' = { r with chain := if s.legacyErrDue a = 1 then some (r.devDone, s.memRead (a + 0x12) 2) else r.chain } := by
  rw [eq_comm (a := r')]
  by_cases hdue : s.legacyErrDue a = 1
  · simp [State.startChain, hdue, Option.ite_none_right_eq_some]
  · simp [State.startChain, hdue]

theorem oneSlotPost_eq_true {s : State} {q : Nat} {isSend : Bool} {r : Ring} : s.oneSlotPost q isSend r = true ↔
    isSend = true ∧ r.capacity = 1 ∧ (s.holder (.sq q)).isSome := by
  simp [State.oneSlotPost, and_assoc]

/-- The report of a CQE that names slot `i` of a QP's own ring. -/
theorem reportRing_iff {s u : State} {q a i : Nat} {x : Qp} {isSend : Bool}
    (hi : x.wqeIndex isSend (s.cqeWord a 0x18).toNat = some i) :
    s.reportRing q x isSend a = some u ↔
      s.echoes x isSend a i = true ∧ ∃ n r, s.ReportsNext x isSend i n
        ∧ s.startChain q x isSend a { x.ring isSend with devDone := n } = some r ∧ u = s.setQp q (x.setRing isSend r) := by
  simp only [State.reportRing, hi, Option.ite_none_right_eq_some, Option.map_eq_some_iff, Option.bind_eq_some_iff,
    ring_reports_iff]
  constructor
  · rintro ⟨hecho, r, ⟨_, ⟨n, hn, rfl⟩, hchain⟩, rfl⟩
    exact ⟨hecho, n, r, hn, hchain, rfl⟩
  · rintro ⟨hecho, n, r, hn, hchain, rfl⟩
    exact ⟨hecho, r, ⟨_, ⟨n, hn, rfl⟩, hchain⟩, rfl⟩

/-- A WQE that may be reported next breaks no rule of the order. -/
theorem State.ReportsNext.not_broken {s : State} {x : Qp} {isSend : Bool} {i n : Nat} (h : s.ReportsNext x isSend i n) :
    ¬ (n ≤ s.ringDone x isSend ∨ (x.ring isSend).first = 0 ∨ s.ringDone x isSend + 1 < (x.ring isSend).first
      ∨ ∃ m, s.ringDone x isSend < m ∧ m < n ∧ (isSend = false
        ∨ s.memRead (x.slotAddr true ((m - 1) % (x.ring isSend).capacity) + 8) 4 / 8 % 2 ≠ 0)) := by
  rintro (hpast | hnone | hgap | ⟨m, hlo, hhi, hcomp⟩)
  · exact absurd h.ahead (Nat.not_lt.mpr hpast)
  · exact h.read hnone
  · exact absurd h.reached (Nat.not_le.mpr hgap)
  · obtain ⟨hsend, hskip⟩ := h.passed m hlo hhi
    rcases hcomp with hrecv | hasks
    · simp [hsend] at hrecv
    · exact hasks hskip

/-- The chain of an error CQE ends at a live WQE: with a header without size, or at a delimiter without credit left. -/
theorem startChain_closes {s : State} {q a n : Nat} {x : Qp} {isSend : Bool} {r : Ring} (hn : n ≤ (x.ring isSend).live)
    (hdue : s.legacyErrDue a = 1) (h : s.startChain q x isSend a { x.ring isSend with devDone := n } = some r) :
    ∃ e k h, n ≤ e ∧ e ≤ (x.ring isSend).live ∧ s.creditAt x isSend n (s.memRead (a + 0x12) 2) e k
      ∧ x.slotAddr isSend ((e - 1) % (x.ring isSend).capacity) = h
      ∧ (s.memRead (h + 4) 4 % 64 = 0 ∨ (k = 0 ∧ s.memRead (h + 4) 4 / 128 % 2 = 1)) := by
  obtain ⟨hcloses, -⟩ := (startChain_iff.mp h).1 hdue
  obtain ⟨e, k, h1, h2, h3, h4⟩ := chainCloses_spec s x isSend _ (memRead_lt s (a + 0x12) 2) hcloses
  simp only at h2
  exact ⟨e, k, _, h1, by omega, h3, rfl, h4⟩

/-- A post in progress on a send ring of one slot keeps an error CQE back. -/
theorem startChain_not_posting {s : State} {q a n : Nat} {x : Qp} {isSend : Bool} {r : Ring} (hdue : s.legacyErrDue a = 1)
    (h : s.startChain q x isSend a { x.ring isSend with devDone := n } = some r) :
    ¬ (isSend = true ∧ (x.ring isSend).capacity = 1 ∧ (s.holder (.sq q)).isSome) := fun hpost =>
  Bool.false_ne_true (((startChain_iff.mp h).1 hdue).2.symm.trans
    (oneSlotPost_eq_true (r := { x.ring isSend with devDone := n }) |>.mpr hpost))

/-- What a report taken of a CQE of slot `i` of a QP's own ring says of it, and what it notes. -/
theorem reportCqe_ring {s u : State} {c a q i : Nat} {x : Qp} {isSend : Bool} (hq : s.deviceQp (s.cqeQpn a) = some q)
    (hx : s.qp? q = some x) (hk : s.cqeIsSend a = isSend) (hown : isSend = false → x.srq = none)
    (hi : x.wqeIndex isSend (s.cqeWord a 0x18).toNat = some i) (h : s.reportCqe c a = some u) :
    s.echoes x isSend a i = true ∧ ∃ n r, s.ReportsNext x isSend i n
      ∧ s.startChain q x isSend a { x.ring isSend with devDone := n } = some r ∧ u = s.setQp q (x.setRing isSend r) := by
  obtain ⟨-, h⟩ := (reportCqe_qp_eq_some hq hx).mp h
  rw [reportQp_own hk hown] at h
  exact (reportRing_iff hi).mp h

/-! ### A report of an SRQ's slot (R85, R86) -/

/-- The report of a CQE that names slot `i` of an SRQ takes a WQE of that slot, one the device may read and has not passed for this
QP. -/
theorem reportSrq_eq_some {s u : State} {q a r i : Nat} {x : Qp} {z : Srq}
    (hi : (s.cqeWord a 0x18).toNat / 2 ^ z.shift = i) (hc : i < z.capacity) (h : s.reportSrq q r x z a = some u) :
    ∃ n, (i, n) ∈ z.queue ∧ x.srqDone < n ∧ z.first ≠ 0 ∧ z.first ≤ n
      ∧ u = (s.setSrq r { z with queue := z.queue.erase (i, n) }).setQp q { x with srqDone := n } := by
  rw [← Nat.shiftRight_eq_div_pow] at hi
  simp only [State.reportSrq, hi, if_pos hc] at h
  obtain ⟨⟨j, n⟩, hfind, rfl⟩ := Option.map_eq_some_iff.mp h
  have hp := List.find?_some hfind
  simp only [decide_eq_true_eq] at hp
  obtain ⟨rfl, hdone, hfirst, hle⟩ := hp
  exact ⟨n, List.mem_of_find?_eq_some hfind, hdone, hfirst, hle, rfl⟩

/-- What a report taken of a CQE of slot `i` of an SRQ says of it, and what it notes. -/
theorem reportCqe_srq {s u : State} {c a q r i : Nat} {x : Qp} {z : Srq} {g : Handle} (hq : s.deviceQp (s.cqeQpn a) = some q)
    (hx : s.qp? q = some x) (hk : s.cqeIsSend a = false) (hsrq : x.srq = some g) (hl : s.lookup .srq g = some r)
    (hz : s.srq? r = some z) (hi : (s.cqeWord a 0x18).toNat / 2 ^ z.shift = i) (hc : i < z.capacity)
    (h : s.reportCqe c a = some u) :
    ∃ n, (i, n) ∈ z.queue ∧ x.srqDone < n ∧ z.first ≠ 0 ∧ z.first ≤ n
      ∧ u = (s.setSrq r { z with queue := z.queue.erase (i, n) }).setQp q { x with srqDone := n } := by
  obtain ⟨-, h⟩ := (reportCqe_qp_eq_some hq hx).mp h
  rw [reportQp_srq hk hsrq hl hz] at h
  exact reportSrq_eq_some hi hc h

/-! ### The step on an input of the device -/

/-- A CQE's bytes and its owner byte come only where the device may write. -/
theorem step_cqe_refused {s : State} {cqn : Num24} {x : Input} {rest : List Input} (hi : s.inbox = x :: rest)
    (hx : (∃ off bytes, x = .deviceCqe cqn off bytes) ∨ ∃ b, x = .deviceOwner cqn b)
    (h : ∀ c y, s.lookupNum .cq cqn = some c → s.cq? c = some y → ¬ s.deviceWrites y = true) :
    step s = .refused .deviceContract := by
  have hno : ∀ c y, (s.setInbox rest).lookupNum .cq cqn = some c → (s.setInbox rest).cq? c = some y →
      ¬ (s.setInbox rest).deviceWrites y = true := by simpa using h
  rw [step_cons hi]
  rcases hx with ⟨off, bytes, rfl⟩ | ⟨b, rfl⟩
  · exact withCqNum_refused fun c y hn hc => if_neg fun hw => hno c y hn hc hw.1
  · exact withCqNum_refused fun c y hn hc => if_neg fun hw => hno c y hn hc hw.1

/-- A failed device takes no arm. -/
theorem step_deviceArm_refused {s : State} {cqn : Num24} {k : Nat} {rest : List Input}
    (hi : s.inbox = .deviceArm cqn k :: rest) (hfail : s.deviceFailed = true) : step s = .refused .deviceContract := by
  rw [step_cons hi]
  exact withCqNum_refused fun _ _ _ _ => if_neg fun hok => by simp [hfail] at hok

/-- A CQE that is no report the device may make has no step. -/
theorem step_deviceOwner_refused {s : State} {cqn : Num24} {c : Nat} {b : Byte} {y : Cq} {rest : List Input}
    (hi : s.inbox = .deviceOwner cqn b :: rest) (hn : s.lookupNum .cq cqn = some c) (hc : s.cq? c = some y)
    (h : ∀ u, s.reportCqe c y.prodAddr ≠ some u) : step s = .refused .deviceContract := by
  rw [step_cons hi, stepInput, deviceOwnerInput,
    withCqNum_of_live (s := s.setInbox rest) ((State.setInbox_lookupNum ..).trans hn) hc, reportCqe_setInbox, Option.eq_none_iff_forall_ne_some.mpr h]
  exact ite_self _

/-- What the step on an owner byte does: the report, the byte, and the device's next slot (R87). -/
theorem step_deviceOwner_next {s t : State} {cqn : Num24} {c : Nat} {b : Byte} {y : Cq} {rest : List Input}
    (hi : s.inbox = .deviceOwner cqn b :: rest) (hn : s.lookupNum .cq cqn = some c) (hc : s.cq? c = some y)
    (h : step s = .next t) :
    b.getLsbD 7 = false ∧ s.cqeQpn y.prodAddr ∉ s.quiet ∧ ∃ u, s.reportCqe c y.prodAddr = some u
      ∧ t = ((u.setInbox rest).setMem (memPut s.mem (y.prodAddr + 0x1F) b)).setCq c
        (y.produced (s.cqeSolicited y.prodAddr)) := by
  rw [step_cons hi] at h
  obtain ⟨hb, hquiet, v, hv, rfl⟩ :=
    deviceOwnerInput_next (s := s.setInbox rest) ((State.setInbox_lookupNum ..).trans hn) hc h
  rw [reportCqe_setInbox] at hv
  obtain ⟨u, hu, rfl⟩ := Option.map_eq_some_iff.mp hv
  exact ⟨hb, hquiet, u, hu, rfl⟩

/-- Settles O53, clause by clause: an event, a device that has failed, a slot, an arm, the CQ of a QP, the order of a ring
(`State.ReportsNext`), the chain of a waiting error CQE (`chainEnd_spec`), the order on an SRQ. -/
theorem deviceContract : Obligations.DeviceContract := by
  refine ⟨?event, ?failed, ?slot, ?arm, ?cq, ?ring, ?chain, ?srq⟩
  case event =>
    intro s bytes sl rest num c y hi hdec hst hn hc
    rw [step_cons hi]
    refine ⟨fun hno => eventInput_refused hdec hst ?_, fun t ht => ?_⟩
    · simp [State.eventAllowed, hn, hc, hno]
    · exact eventInput_completion_disarmed (s := s.setInbox rest) hdec hst ((State.setInbox_lookupNum ..).trans hn) hc ht
  case failed =>
    intro s x rest hi hfail hst hx
    have hno : ∀ y, ¬ s.deviceWrites y = true := fun y hw => by simp [State.deviceWrites_iff, hfail] at hw
    rcases hx with ⟨bytes, sl, i, rfl, hdec⟩ | ⟨cqn, off, bytes, rfl⟩ | ⟨cqn, b, rfl⟩ | ⟨cqn, k, rfl⟩
    · rw [step_cons hi]
      exact eventInput_refused hdec hst (by simp [State.eventAllowed, hfail])
    · exact step_cqe_refused hi (.inl ⟨off, bytes, rfl⟩) fun _ y _ _ => hno y
    · exact step_cqe_refused hi (.inr ⟨b, rfl⟩) fun _ y _ _ => hno y
    · exact step_deviceArm_refused hi hfail
  case slot =>
    intro s cqn c y rest hn hc
    refine ⟨fun hfull x hx hi => step_cqe_refused hi hx fun c' y' hn' hc' hw => ?_, fun b t hi hwf ht => ?_⟩
    · cases hn.symm.trans hn'
      cases hc.symm.trans hc'
      obtain ⟨-, hown, hroom⟩ := State.deviceWrites_iff.mp hw
      rcases hfull with hsw | hfull
      · simp [hsw] at hown
      · omega
    · obtain ⟨hb, hquiet, u, -, rfl⟩ := step_deviceOwner_next hi hn hc ht
      exact ⟨hb, hquiet, memGet_memPut_self _ _ _ hwf, fun d hd => memGet_memPut_ne _ _ (by simp only [Outside] at hd; omega),
        _, assocGet_assocSet_self _ _ _, rfl⟩
  case arm =>
    intro y k a waits ha
    rw [Cq.takeArm_of_getElem? ha]
    refine ⟨rfl, fun hsn => ?_, fun h0 h1 => if_neg (by simp [h0, h1])⟩
    simp [Cq.mayNotify, hsn]
  case cq =>
    intro s cqn c q b y x rest hi hn hc hq hx hcq
    exact step_deviceOwner_refused hi hn hc fun u hu => hcq ((reportCqe_qp_eq_some hq hx).mp hu).1
  case ring =>
    rintro s cqn c q i b y x r isSend rest hi hn hc hq hx hk hown rfl hidx
    refine ⟨fun t ht => ?_, fun hbreak => step_deviceOwner_refused hi hn hc fun u hu => ?_⟩
    · obtain ⟨-, -, u, hu, rfl⟩ := step_deviceOwner_next hi hn hc ht
      obtain ⟨hecho, n, r, hr, hchain, rfl⟩ := reportCqe_ring hq hx hk hown hidx hu
      refine ⟨echoes_iff.mp hecho, n, hr.slot, hr.ahead, hr.live, hr.newest, hr.read, hr.reached, hr.passed,
        fun hdue => startChain_closes hr.live hdue hchain, ?_⟩
      rw [← (startChain_iff.mp hchain).2]
      exact assocGet_assocSet_self _ _ _
    · obtain ⟨hecho, n, r, hr, hchain, rfl⟩ := reportCqe_ring hq hx hk hown hidx hu
      rcases hbreak with horder | ⟨hs, herr, hop⟩ | ⟨hdue, hopen⟩ | ⟨hdue, hs, hone, hpost⟩
      · exact hr.not_broken (horder n hr.slot hr.live hr.newest)
      · exact hop (echoes_iff.mp hecho hs herr)
      · obtain ⟨e, k, h, hne, he, hcr, hh, hend⟩ := startChain_closes hr.live hdue hchain
        obtain ⟨hnds, hdbd⟩ := hopen n e k h hr.slot hr.live hr.newest hne he hcr hh
        exact hend.elim hnds hdbd
      · exact startChain_not_posting hdue hchain ⟨hs, hone, hpost⟩
  case chain =>
    rintro s x isSend _ n cnt rfl hchain hcnt hlive hnew
    obtain ⟨h1, h2, h3, h4⟩ := chainEnd_spec s x isSend ((x.ring isSend).live - n) hcnt rfl
    refine ⟨_, ?_, h1, by omega, h3, fun h hh => ?_⟩
    · simp only [State.ringDone, hchain, if_pos hnew]
    · exact (h4 h hh).imp_left fun h => by omega
  case srq =>
    rintro s cqn c q r i b y x z h rest hi hn hc hq hx hk hsrq hl hz hidx hcap
    refine ⟨fun t ht => ?_, fun hno => step_deviceOwner_refused hi hn hc fun u hu => ?_⟩
    · obtain ⟨-, -, u, hu, rfl⟩ := step_deviceOwner_next hi hn hc ht
      obtain ⟨n, hmem, hdone, hfirst, hle, rfl⟩ := reportCqe_srq hq hx hk hsrq hl hz hidx hcap hu
      exact ⟨n, hmem, hdone, hfirst, hle, assocGet_assocSet_self _ _ _, assocGet_assocSet_self _ _ _⟩
    · obtain ⟨n, hmem, hdone, hfirst, hle, rfl⟩ := reportCqe_srq hq hx hk hsrq hl hz hidx hcap hu
      rcases hno n hmem with hpast | hnone | hgap
      · exact absurd hdone (Nat.not_lt.mpr hpast)
      · exact hfirst hnone
      · exact absurd hle (Nat.not_le.mpr hgap)

end Sys2Proof.Machine
end

section
/-! SUPPORT. The decoder and the encoder of spec/30_encoding.md against each other: which command words are commands, and that a word
is put together again from the fields it was taken apart into. -/

namespace Sys2Proof

/-! ### Fields put together -/

theorem eq_ofNat_of_toNat_eq {w n : Nat} {x : BitVec w} (h : x.toNat = n) : x = BitVec.ofNat w n := by
  rw [← h, BitVec.ofNat_toNat, BitVec.setWidth_eq]

theorem bit_getLsbD (w : Word) (i : Nat) : bit (w.getLsbD i) = w.extractLsb' i 1 := by
  apply BitVec.eq_of_getLsbD_eq
  intro j hj
  obtain rfl : j = 0 := by omega
  simp [bit]

/-- Neighbouring fields read as one field, with the widths given, so that it rewrites fields of literal width. -/
theorem extract_append {v : Nat} (x : BitVec v) {i k : Nat} (m n : Nat) (h : k = i + n) :
    x.extractLsb' k m ++ x.extractLsb' i n = x.extractLsb' i (m + n) :=
  BitVec.extractLsb'_append_extractLsb'_eq_extractLsb' h

/-- Word 1 of a doorbell; word 0 of a consumer-index doorbell. -/
theorem number_append_byte (w : Word) : (w.extractLsb' 8 24 ++ w.extractLsb' 0 8 : Word) = w := by
  rw [extract_append w 24 8 rfl, BitVec.extractLsb'_eq_self]

theorem byte_append_number (w : Word) : (w.extractLsb' 24 8 ++ w.extractLsb' 0 24 : Word) = w := by
  rw [extract_append w 8 24 rfl, BitVec.extractLsb'_eq_self]

/-- A link word; word 0 of a legacy receive doorbell. -/
theorem offset_append_low (w : Word) : (w.extractLsb' 6 26 ++ w.extractLsb' 0 6 : Word) = w := by
  rw [extract_append w 26 6 rfl, BitVec.extractLsb'_eq_self]

/-- Word 0 of a legacy send doorbell. -/
theorem offset_append_fence_op (w : Word) :
    (w.extractLsb' 6 26 ++ bit (w.getLsbD 5) ++ w.extractLsb' 0 5 : Word) = w := by
  rw [bit_getLsbD, extract_append w 26 1 rfl, extract_append w 27 5 rfl, BitVec.extractLsb'_eq_self]

/-- Word 0 of a memory-free send doorbell, whose bits 7 and 6 are 0. -/
theorem mfSend0_fields (w : Word) (h : w.extractLsb' 6 2 = 0) :
    (w.extractLsb' 24 8 ++ w.extractLsb' 8 16 ++ (0 : BitVec 2) ++ bit (w.getLsbD 5) ++ w.extractLsb' 0 5 : Word) = w := by
  rw [← h, bit_getLsbD, extract_append w 8 16 rfl, extract_append w 24 2 rfl, extract_append w 26 1 rfl,
    extract_append w 27 5 rfl, BitVec.extractLsb'_eq_self]

/-- Word 0 of a memory-free arm doorbell, whose bits 31 and 30 are 0. -/
theorem mfArm0_fields (w : Word) (h : w.extractLsb' 30 2 = 0) :
    ((0 : BitVec 2) ++ w.extractLsb' 28 2 ++ w.extractLsb' 24 4 ++ w.extractLsb' 0 24 : Word) = w := by
  rw [← h, extract_append w 2 2 rfl, extract_append w 4 4 rfl, extract_append w 8 24 rfl, BitVec.extractLsb'_eq_self]

/-- Word 1 of a doorbell record. -/
theorem rec1_fields (w : Word) : (w.extractLsb' 8 24 ++ w.extractLsb' 5 3 ++ w.extractLsb' 0 5 : Word) = w := by
  rw [extract_append w 24 3 rfl, extract_append w 27 5 rfl, BitVec.extractLsb'_eq_self]

/-- A command word without reserved bits. -/
theorem commandWord_fields (w : Word) (h : w.extractLsb' 9 23 = 0) :
    commandWord (w.getLsbD 8) (w.extractLsb' 0 8) = w := by
  unfold commandWord
  rw [← h, bit_getLsbD, extract_append w 23 1 rfl, extract_append w 24 8 rfl, BitVec.extractLsb'_eq_self]

/-- The opcode byte of a receive CQE. -/
theorem hiLo5_fields (b : Byte) : (b.extractLsb' 5 3 ++ b.extractLsb' 0 5 : Byte) = b := by
  rw [extract_append b 3 5 rfl, BitVec.extractLsb'_eq_self]

/-- An error byte of a CQE holds its send bit alone (R123). -/
theorem errorByte_eq (b : Byte) (h : b &&& 0xFE = 0xFE) : b = if b.getLsbD 0 then 0xFF else 0xFE := by
  revert b; decide

/-! ### Command words (R101, R104, R110) -/

/-- The commands that take no `sol`, each with its `opc` (R104): all but `REQ_NOTIFY_CQ`. -/
def plainCommands : List (BitVec 8 × Instr) :=
  [(0x01, .deviceStart), (0x02, .deviceStop), (0x10, .createQp), (0x11, .modifyQp), (0x12, .queryQp), (0x13, .destroyQp),
    (0x14, .postSend), (0x15, .postRecv), (0x20, .createCq), (0x21, .pollCq), (0x23, .destroyCq), (0x30, .createSrq),
    (0x31, .postSrqRecv), (0x32, .destroySrq)]

/-- The fifteen assigned values of `opc` (R104). -/
def assignedOpcs : List (BitVec 8) := 0x22 :: plainCommands.map (·.1)

theorem mem_assignedOpcs {opc : BitVec 8} :
    opc ∈ assignedOpcs ↔ opc = 0x22 ∨ ∃ e ∈ plainCommands, opc = e.1 := by
  simp only [assignedOpcs, List.mem_cons, List.mem_map, eq_comm]

theorem encode_plainCommand {e : BitVec 8 × Instr} (he : e ∈ plainCommands) :
    (encode e.2).2 = wordBytes (commandWord false e.1) := by
  revert e; decide

theorem plainCommand_ne_illegal {e : BitVec 8 × Instr} (he : e ∈ plainCommands) (w : Word) : e.2 ≠ .illegalCommand w := by
  revert e; simp [plainCommands]

theorem plainCommand_ne_notify {e : BitVec 8 × Instr} (he : e ∈ plainCommands) : e.1 ≠ 0x22 := by
  revert e; decide

theorem decodeCommand_reserved {w : Word} (h : w.extractLsb' 9 23 ≠ 0) : decodeCommand w = .illegalCommand w := if_pos h

theorem decodeCommand_notify {w : Word} (h : w.extractLsb' 9 23 = 0) (hopc : w.extractLsb' 0 8 = 0x22) :
    decodeCommand w = .reqNotifyCq (w.getLsbD 8) := by
  simp [decodeCommand, h, hopc]

theorem decodeCommand_plain {w : Word} {e : BitVec 8 × Instr} (h : w.extractLsb' 9 23 = 0) (he : e ∈ plainCommands)
    (hopc : w.extractLsb' 0 8 = e.1) : decodeCommand w = unlessSol w e.2 := by
  simp only [plainCommands, List.mem_cons, List.not_mem_nil, or_false] at he
  rcases he with rfl | rfl | rfl | rfl | rfl | rfl | rfl | rfl | rfl | rfl | rfl | rfl | rfl | rfl <;>
    simp [decodeCommand, h, hopc]

theorem decodeCommand_unassigned {w : Word} (h : w.extractLsb' 9 23 = 0) (hopc : w.extractLsb' 0 8 ∉ assignedOpcs) :
    decodeCommand w = .illegalCommand w := by
  have hne : ∀ k, BitVec.ofNat 8 k ∈ assignedOpcs → (w.extractLsb' 0 8).toNat ≠ k := by
    intro k hk hw
    exact hopc (eq_ofNat_of_toNat_eq hw ▸ hk)
  simp only [decodeCommand, h, ne_eq, not_true, if_false]
  split
  case h_16 => rfl
  all_goals exact absurd ‹_› (hne _ (by decide))

/-- The `opc` of a word is that of `REQ_NOTIFY_CQ`, of another command or unassigned. -/
theorem opc_cases (w : Word) : w.extractLsb' 0 8 = 0x22 ∨ (∃ e ∈ plainCommands, w.extractLsb' 0 8 = e.1)
    ∨ w.extractLsb' 0 8 ∉ assignedOpcs := by
  rw [mem_assignedOpcs, ← or_assoc]
  exact Classical.em _

theorem encode_decodeCommand (w : Word) : (encode (decodeCommand w)).2 = wordBytes w := by
  by_cases hres : w.extractLsb' 9 23 = 0
  · have hw := commandWord_fields w hres
    rcases opc_cases w with hopc | ⟨e, he, hopc⟩ | hopc
    · rw [decodeCommand_notify hres hopc]
      rw [hopc] at hw
      exact congrArg wordBytes hw
    · rw [decodeCommand_plain hres he hopc, unlessSol]
      cases hsol : w.getLsbD 8 with
      | true => rfl
      | false =>
        rw [hopc, hsol] at hw
        exact (encode_plainCommand he).trans (congrArg wordBytes hw)
    · rw [decodeCommand_unassigned hres hopc]; rfl
  · rw [decodeCommand_reserved hres]; rfl

/-- The illegal command words of R110. -/
theorem decodeCommand_eq_illegal (w : Word) : decodeCommand w = .illegalCommand w ↔
    (w.extractLsb' 9 23 ≠ 0 ∨ (w.getLsbD 8 = true ∧ w.extractLsb' 0 8 ≠ 0x22) ∨ w.extractLsb' 0 8 ∉ assignedOpcs) := by
  by_cases hres : w.extractLsb' 9 23 = 0
  · rcases opc_cases w with hopc | ⟨e, he, hopc⟩ | hopc
    · rw [decodeCommand_notify hres hopc]
      refine iff_of_false nofun ?_
      rintro (h | ⟨-, h⟩ | h)
      exacts [h hres, h hopc, h (mem_assignedOpcs.mpr (.inl hopc))]
    · have hne : w.extractLsb' 0 8 ≠ 0x22 := hopc ▸ plainCommand_ne_notify he
      rw [decodeCommand_plain hres he hopc, unlessSol]
      cases w.getLsbD 8 with
      | true => exact iff_of_true rfl (.inr (.inl ⟨rfl, hne⟩))
      | false =>
        refine iff_of_false (plainCommand_ne_illegal he w) ?_
        rintro (h | ⟨h, -⟩ | h)
        exacts [h hres, Bool.false_ne_true h, h (mem_assignedOpcs.mpr (.inr ⟨e, he, hopc⟩))]
    · exact iff_of_true (decodeCommand_unassigned hres hopc) (.inr (.inr hopc))
  · exact iff_of_true (decodeCommand_reserved hres) (.inl hres)

/-! ### The other formats -/

theorem encode_decodeSendWr {b : Byte} {i : Instr} (h : decodeSendWr b = .ok i) : (encode i).2 = [b] := by
  unfold decodeSendWr at h
  split at h
  case h_9 => cases h
  all_goals
    rename_i hb
    cases h
    rw [eq_ofNat_of_toNat_eq hb]
    rfl

theorem encode_decodeLink {w : Word} {i : Instr} (h : decodeLink w = .ok i) : (encode i).2 = wordBytes w := by
  have hw : linkWord (w.extractLsb' 6 26) (w.extractLsb' 0 6) = w := offset_append_low w
  simp only [decodeLink] at h
  split at h
  case h_10 => cases h
  all_goals
    rename_i hop
    cases h
    rw [eq_ofNat_of_toNat_eq hop] at hw
    exact congrArg wordBytes hw

theorem encode_decodeSendCqe (b : Byte) : (encode (decodeSendCqe b)).2 = [b] := by
  unfold decodeSendCqe
  split
  case h_9 => rfl
  all_goals
    rename_i hb
    rw [eq_ofNat_of_toNat_eq hb]
    rfl

theorem encode_decodeRecvCqe (b : Byte) : (encode (decodeRecvCqe b)).2 = [b] := by
  have hb := hiLo5_fields b
  simp only [decodeRecvCqe]
  split
  case h_5 => rfl
  all_goals
    rename_i hlo
    rw [eq_ofNat_of_toNat_eq hlo] at hb
    exact congrArg (fun c => [c]) hb

theorem encode_decodeCqe (isSend : Bool) (b : Byte) : (encode (decodeCqe isSend b)).2 = [b] := by
  unfold decodeCqe
  split
  · next herr => exact congrArg (fun c => [c]) (errorByte_eq b herr).symm
  · cases isSend
    · exact encode_decodeRecvCqe b
    · exact encode_decodeSendCqe b

theorem encode_decodeLegacyDoorbell {reg : DbReg} {w0 w1 : Word} {i : Instr} (h : decodeLegacyDoorbell reg w0 w1 = .ok i) :
    (encode i).2 = pairBytes (w0, w1) := by
  cases reg with
  | send =>
    cases h
    exact congrArg pairBytes (Prod.ext (offset_append_fence_op w0) (number_append_byte w1))
  | recv =>
    have hw := offset_append_low w0
    simp only [decodeLegacyDoorbell] at h
    split at h
    · next hsize =>
      cases h
      rw [hsize] at hw
      exact congrArg pairBytes (Prod.ext hw (number_append_byte w1))
    · cases h
      exact congrArg pairBytes (Prod.ext hw (number_append_byte w1))
  | cq =>
    have hw := byte_append_number w0
    simp only [decodeLegacyDoorbell] at h
    split at h
    case h_1 hcmd =>
      cases h
      rw [eq_ofNat_of_toNat_eq hcmd] at hw
      exact congrArg pairBytes (Prod.ext hw rfl)
    case h_4 => cases h
    all_goals
      rename_i hcmd
      rw [eq_ofNat_of_toNat_eq hcmd] at hw
      split at h <;> cases h
      next hones => exact congrArg pairBytes (Prod.ext hw hones.symm)

theorem encode_decodeMemfreeDoorbell {reg : DbReg} {w0 w1 : Word} {i : Instr} (h : decodeMemfreeDoorbell reg w0 w1 = .ok i) :
    (encode i).2 = pairBytes (w0, w1) := by
  cases reg with
  | send =>
    simp only [decodeMemfreeDoorbell] at h
    split at h <;> cases h
    next hzero => exact congrArg pairBytes (Prod.ext (mfSend0_fields w0 hzero) (number_append_byte w1))
  | recv => cases h
  | cq =>
    simp only [decodeMemfreeDoorbell] at h
    split at h
    · next hzero =>
      have hw := mfArm0_fields w0 hzero
      split at h
      case h_3 => cases h
      all_goals
        rename_i hcmd
        cases h
        rw [eq_ofNat_of_toNat_eq hcmd] at hw
        exact congrArg pairBytes (Prod.ext hw rfl)
    · cases h

theorem encode_decodePair {f : Format} {w0 w1 : Word} {i : Instr} (hf : f ≠ .event) (h : decodePair f w0 w1 = .ok i) :
    (encode i).2 = pairBytes (w0, w1) := by
  cases f with
  | doorbell mode reg =>
    cases mode with
    | legacy => exact encode_decodeLegacyDoorbell h
    | memfree => exact encode_decodeMemfreeDoorbell h
  | dbrec r =>
    cases h
    exact congrArg pairBytes (Prod.ext rfl (rec1_fields w1))
  | event => exact absurd rfl hf
  | command => cases h
  | sendWr => cases h
  | link => cases h
  | cqe isSend => cases h

theorem pairBytes_bytesWord (a b c d e g h i : Byte) :
    pairBytes (bytesWord a b c d, bytesWord e g h i) = [a, b, c, d, e, g, h, i] := by
  simp [pairBytes, wordBytes_bytesWord]

/-! ### The statements of spec/30_encoding.md -/

/-- Settles O1, row by row of the opcode table. -/
theorem decodeEncode : Obligations.DecodeEncode := by
  intro i
  cases i with
  | deviceStart => exact Laws.DecodeEncode.deviceStart
  | deviceStop => exact Laws.DecodeEncode.deviceStop
  | createQp => exact Laws.DecodeEncode.createQp
  | modifyQp => exact Laws.DecodeEncode.modifyQp
  | queryQp => exact Laws.DecodeEncode.queryQp
  | destroyQp => exact Laws.DecodeEncode.destroyQp
  | postSend => exact Laws.DecodeEncode.postSend
  | postRecv => exact Laws.DecodeEncode.postRecv
  | createCq => exact Laws.DecodeEncode.createCq
  | pollCq => exact Laws.DecodeEncode.pollCq
  | reqNotifyCq sol => exact Laws.DecodeEncode.reqNotifyCq sol
  | destroyCq => exact Laws.DecodeEncode.destroyCq
  | createSrq => exact Laws.DecodeEncode.createSrq
  | postSrqRecv => exact Laws.DecodeEncode.postSrqRecv
  | destroySrq => exact Laws.DecodeEncode.destroySrq
  | illegalCommand w => exact Laws.DecodeEncode.illegalCommand w
  | wrRdmaWrite => exact Laws.DecodeEncode.wrRdmaWrite
  | wrRdmaWriteImm => exact Laws.DecodeEncode.wrRdmaWriteImm
  | wrSend => exact Laws.DecodeEncode.wrSend
  | wrSendImm => exact Laws.DecodeEncode.wrSendImm
  | wrRdmaRead => exact Laws.DecodeEncode.wrRdmaRead
  | wrAtomicCs => exact Laws.DecodeEncode.wrAtomicCs
  | wrAtomicFa => exact Laws.DecodeEncode.wrAtomicFa
  | wrReserved7 => exact Laws.DecodeEncode.wrReserved7
  | wqeOpNop nda => exact Laws.DecodeEncode.wqeOpNop nda
  | wqeOpRecvLink nda => exact Laws.DecodeEncode.wqeOpRecvLink nda
  | wqeOpRdmaWrite nda => exact Laws.DecodeEncode.wqeOpRdmaWrite nda
  | wqeOpRdmaWriteImm nda => exact Laws.DecodeEncode.wqeOpRdmaWriteImm nda
  | wqeOpSend nda => exact Laws.DecodeEncode.wqeOpSend nda
  | wqeOpSendImm nda => exact Laws.DecodeEncode.wqeOpSendImm nda
  | wqeOpRdmaRead nda => exact Laws.DecodeEncode.wqeOpRdmaRead nda
  | wqeOpAtomicCs nda => exact Laws.DecodeEncode.wqeOpAtomicCs nda
  | wqeOpAtomicFa nda => exact Laws.DecodeEncode.wqeOpAtomicFa nda
  | cqeError send => exact Laws.DecodeEncode.cqeError send
  | cqeSend08 => exact Laws.DecodeEncode.cqeSend08
  | cqeSend09 => exact Laws.DecodeEncode.cqeSend09
  | cqeSend0A => exact Laws.DecodeEncode.cqeSend0A
  | cqeSend0B => exact Laws.DecodeEncode.cqeSend0B
  | cqeSend10 => exact Laws.DecodeEncode.cqeSend10
  | cqeSend11 => exact Laws.DecodeEncode.cqeSend11
  | cqeSend12 => exact Laws.DecodeEncode.cqeSend12
  | cqeSend18 => exact Laws.DecodeEncode.cqeSend18
  | cqeSendOther opcode => exact Laws.DecodeEncode.cqeSendOther opcode
  | cqeRecv03 hi => exact Laws.DecodeEncode.cqeRecv03 hi
  | cqeRecv05 hi => exact Laws.DecodeEncode.cqeRecv05 hi
  | cqeRecv09 hi => exact Laws.DecodeEncode.cqeRecv09 hi
  | cqeRecv0B hi => exact Laws.DecodeEncode.cqeRecv0B hi
  | cqeRecvOther opcode => exact Laws.DecodeEncode.cqeRecvOther opcode
  | eventCompletion num => exact Laws.DecodeEncode.eventCompletion num
  | eventQp num ty => exact Laws.DecodeEncode.eventQp num ty
  | eventFatal => exact Laws.DecodeEncode.eventFatal
  | eventOther kind => exact Laws.DecodeEncode.eventOther kind
  | dbLegacySend wqe fence op qpn size => exact Laws.DecodeEncode.dbLegacySend wqe fence op qpn size
  | dbLegacyRecv wqe size qpn n => exact Laws.DecodeEncode.dbLegacyRecv wqe size qpn n
  | dbLegacySrq wqe srqn n => exact Laws.DecodeEncode.dbLegacySrq wqe srqn n
  | dbLegacyCqInc cqn countLess1 => exact Laws.DecodeEncode.dbLegacyCqInc cqn countLess1
  | dbLegacyCqArm sol cqn => exact Laws.DecodeEncode.dbLegacyCqArm sol cqn
  | dbMemfreeSend n head0 fence op qpn size => exact Laws.DecodeEncode.dbMemfreeSend n head0 fence op qpn size
  | dbMemfreeCqArm sn sol cqn ci => exact Laws.DecodeEncode.dbMemfreeCqArm sn sol cqn ci
  | dbrecMemfree r word0 num ty low => exact Laws.DecodeEncode.dbrecMemfree r word0 num ty low

/-- Settles O2, by the number of bytes and the format; in each format the word is put together from its fields. -/
theorem encodeDecode : Obligations.EncodeDecode := by
  intro f bytes i hf h
  unfold decode at h
  split at h
  · split at h
    · exact encode_decodeSendWr h
    · cases h; exact encode_decodeCqe ..
    · cases h
  · rw [← wordBytes_bytesWord]
    split at h
    · cases h; exact encode_decodeCommand _
    · exact encode_decodeLink h
    · cases h
  · rw [← pairBytes_bytesWord]
    exact encode_decodePair hf h
  · cases h

/-- Settles O3: `assignedOpcs` lists the fifteen codes of R104. -/
theorem illegalWords : Obligations.IllegalWords := by
  intro w
  rw [decode_command, Except.ok.injEq, decodeCommand_eq_illegal]
  exact or_congr Iff.rfl (or_congr Iff.rfl (not_congr (List.Perm.mem_iff (by decide))))

/-- Settles O4. -/
theorem decodeWords : Obligations.DecodeWords := by
  unfold Obligations.DecodeWords
  simp only [decode]
  decide

end Sys2Proof
end

section
/-! SUPPORT. The words of the doorbells that the batches of the legacy protocol ring, as numbers (R126, R127). -/

namespace Sys2Proof.Machine

open Sys2Proof

/-- Two fields side by side, as a number. -/
theorem append_eq_ofNat {m n : Nat} (x : BitVec m) (y : BitVec n) :
    x ++ y = BitVec.ofNat (m + n) ((x.toNat <<< n) ||| y.toNat) := by
  rw [← BitVec.toNat_append, BitVec.ofNat_toNat, BitVec.setWidth_eq]

/-- The offset of a slot is a multiple of 64 in a ring whose slots are 64 bytes or more (R202). -/
theorem shiftLeft_mod_64 (n : Nat) {k : Nat} (h : 6 ≤ k) : n <<< k % 64 = 0 := by
  obtain ⟨d, rfl⟩ := Nat.exists_eq_add_of_le h
  rw [Nat.shiftLeft_eq, Nat.pow_add, Nat.mul_left_comm]
  exact Nat.mul_mod_right _ _

/-- The 26-bit field of a WQE offset holds all of it. -/
theorem offset_shiftLeft {off : Nat} (h64 : off % 64 = 0) (hlt : off < 2 ^ 32) :
    (BitVec.ofNat 26 (off / 64)).toNat <<< 6 = off := by
  rw [BitVec.toNat_ofNat, Nat.shiftLeft_eq]
  omega

/-- A WQE offset beside a field of 6 bits. -/
theorem offset_append_eq_ofNat {off n : Nat} (h64 : off % 64 = 0) (hlt : off < 2 ^ 32) (hn : n < 64) :
    (BitVec.ofNat 26 (off / 64) ++ BitVec.ofNat 6 n : Word) = BitVec.ofNat 32 (off ||| n) := by
  rw [append_eq_ofNat, offset_shiftLeft h64 hlt, BitVec.toNat_ofNat, Nat.mod_eq_of_lt hn]

/-- A WQE offset beside the fence flag and a field of 5 bits. -/
theorem offset_append_fence_op_eq_ofNat {off : Nat} (h64 : off % 64 = 0) (hlt : off < 2 ^ 32) (f : Bool) {op : BitVec 6}
    (hop : op.toNat < 32) :
    (BitVec.ofNat 26 (off / 64) ++ bit f ++ op.setWidth 5 : Word) = BitVec.ofNat 32 (off ||| (f.toNat <<< 5) ||| op.toNat) := by
  have hf : (bit f).toNat = f.toNat := by cases f <;> rfl
  rw [append_eq_ofNat, BitVec.toNat_append, hf, Nat.shiftLeft_or_distrib, ← Nat.shiftLeft_add, offset_shiftLeft h64 hlt,
    BitVec.toNat_setWidth, Nat.mod_eq_of_lt hop]

/-- An object's number beside a count, of which its 8 bits hold the rest modulo 256. -/
theorem number_append_eq_ofNat (num : Num24) (n : Nat) :
    (num ++ BitVec.ofNat 8 n : Word) = BitVec.ofNat 32 ((num.toNat <<< 8) ||| (n % 256)) := by
  rw [append_eq_ofNat, BitVec.toNat_ofNat]

theorem number_append_eq_ofNat_of_lt (num : Num24) {n : Nat} (hn : n < 64) :
    (num ++ BitVec.ofNat 8 n : Word) = BitVec.ofNat 32 ((num.toNat <<< 8) ||| n) := by
  rw [number_append_eq_ofNat, Nat.mod_eq_of_lt (by omega)]

/-- Settles O55: `State.ring` writes the two words of the doorbell, whose fields hold the batch's numbers whole. -/
theorem legacyRingDoorbells : Obligations.LegacyRingDoorbells := by
  intro s x y b
  refine ⟨fun hsh hoff hlt hop hsize => ?_, fun hsh hlt hsize => ?_, fun hsh hlt => ?_, fun _ _ _ _ _ => rfl⟩
  · have h64 : ((b.firstInd <<< x.sq.shift) + x.sendWqeOffset) % 64 = 0 := by
      rw [Nat.add_mod, shiftLeft_mod_64 _ hsh, hoff]
    rw [← offset_append_fence_op_eq_ofNat h64 hlt b.f0 hop, ← number_append_eq_ofNat_of_lt x.qpn hsize]
    rfl
  · rw [← offset_append_eq_ofNat (shiftLeft_mod_64 _ hsh) hlt hsize, ← number_append_eq_ofNat]
    rfl
  · rw [← Nat.or_zero (b.firstInd <<< y.shift), ← offset_append_eq_ofNat (shiftLeft_mod_64 _ hsh) hlt (by decide : 0 < 64),
      ← number_append_eq_ofNat]
    rfl

end Sys2Proof.Machine
end

section
/-! SUPPORT. The rows of the WQE link words (R112, R118): the link write of R222 into the chain tail of a ring. -/

namespace Sys2Proof.Machine

open Sys2Proof

theorem linkWord_toNat (nda : BitVec 26) (op : BitVec 6) : (linkWord nda op).toNat = nda.toNat * 64 + op.toNat := by
  rw [linkWord, BitVec.toNat_append, ← Nat.shiftLeft_add_eq_or_of_lt op.isLt, Nat.shiftLeft_eq]

/-- The state in which a command has resolved one handle and holds one lock. -/
def State.holding (s : State) (i : Instr) (h : Handle) (x : Lock) : State :=
  (s.setMe { op := s.me.op, cmd := some i, uses := [h] }).setLocks [(x, s.cur)]

/-- The state in which a link word has been written and its row has ended. -/
def State.linkWritten (s : State) (p : Nat) (w : Word) : State := (s.memWrite p 4 w.toNat).ended { status := some .ok }

theorem linkWritten_memRead {s : State} (hwf : Memory.wf s.mem = true) (p : Nat) (w : Word) :
    (s.linkWritten p w).memRead p 4 = w.toNat :=
  (State.memRead_memWrite s p 4 w.toNat hwf).trans (Nat.mod_eq_of_lt w.isLt)

theorem linkWritten_sameMemOutside (s : State) (p : Nat) (w : Word) : SameMemOutside s (s.linkWritten p w) p 4 :=
  fun b hb => State.memWrite_outside s p 4 w.toNat b hb

/-- The link write on a ring that has slots, by a command that holds the ring's lock alone. -/
theorem runs_linkOn {s t : State} {i : Instr} {h : Handle} {rr : RingRef} {w : Word} {empty : State → Bool} {p : Nat}
    (hu : s.unlocked) (hempty : empty (s.holding i h (ringLock rr)) = false)
    (hp : s.slotAddr rr (s.lastIdx rr) = some p) :
    Runs (linkOn rr w empty) (s.holding i h (ringLock rr)) t ↔ t = s.linkWritten p w := by
  have hl : s.locks = [] := hu
  have hact : linkWriteAct rr w (s.holding i h (ringLock rr))
      = .ok 0 ((s.holding i h (ringLock rr)).memWrite p 4 w.toNat) := by
    have hp' : (s.holding i h (ringLock rr)).slotAddr rr ((s.holding i h (ringLock rr)).lastIdx rr) = some p := by
      cases rr <;> exact hp
    simp only [linkWriteAct, hp']
  unfold linkOn
  rw [runs_ask, hempty]
  simp only [Bool.false_eq_true, if_false, Nat.zero_ne_one]
  rw [runs_act_ok hact, runs_release_newest (l := []) rfl rfl, runs_respond]
  refine iff_of_eq (congrArg (t = ·) ?_)
  ext1 <;> simp [State.holding, State.linkWritten, State.ended, hl]

/-- A row that comes to the link write of a ring that has slots ends with the word written. -/
theorem runsTo_linkOn {s : State} {i : Instr} {prog : Operands → Prog} {h : Handle} {rr : RingRef} {nda : BitVec 26}
    {op : BitVec 6} {empty : State → Bool} {p : Nat} (hq : s.quietStart) (hwf : Memory.wf s.mem = true)
    (hstart : ∀ t, Runs (prog s.me.op) (s.beginCmd i) t ↔
      Runs (linkOn rr (linkWord nda op) empty) (s.holding i h (ringLock rr)) t)
    (hempty : empty (s.holding i h (ringLock rr)) = false) (hp : s.slotAddr rr (s.lastIdx rr) = some p) :
    RunsTo (runCmd i prog s) fun t =>
      t.memRead p 4 = nda.toNat * 64 + op.toNat ∧ SameMemOutside s t p 4
      ∧ t = (s.memWrite p 4 (nda.toNat * 64 + op.toNat)).ended { status := some .ok } := by
  obtain ⟨⟨⟨-, hcmd, hslice⟩, halone, hu⟩, -, -⟩ := hq
  refine runsTo_runCmd hcmd hslice (halone.mayIssue i) ⟨_, (hstart _).mpr ((runs_linkOn hu hempty hp).mpr rfl), ?_⟩
  rw [← linkWord_toNat]
  exact ⟨linkWritten_memRead hwf p _, linkWritten_sameMemOutside s p _, rfl⟩

/-- A command on an SRQ up to the hold of the SRQ's lock. -/
theorem runs_srqLocked {s : State} {r : Nat} {h : Handle} {k : Nat → Prog} {fail : Prog} {t : State} (hu : s.unlocked)
    (hstarted : s.started = true) (hfatal : s.fatal = false) (hn : s.names .srq h r) (b : Bool) (bad : Option Nat) (i : Instr) :
    Runs (precond b bad <| resolve .srq h true fail fun r => acquire (.srq r) <| k r) (s.beginCmd i) t ↔
      Runs (k r) (s.holding i h (.srq r)) t := by
  have hr : ∀ l, ((s.beginCmd i).noteUse true h).holder l = none := fun l => hu.holder _
  rw [runs_precond (by simpa) (by simp [hfatal]),
    runs_resolve_found (by simpa using hn.1) hn.2 (by simp) ((hu.begin _).holder _), runs_acquire, noteUse_locked hu]
  simp only [hr, true_and]
  rfl

theorem noSlots_holding {s : State} {q : Nat} {x : Qp} {isSend : Bool} (hx : s.qp? q = some x)
    (hcap : 0 < (x.ring isSend).capacity) (i : Instr) (h : Handle) (l : Lock) :
    (s.holding i h l).noSlots q isSend = false := by
  have hx' : (s.holding i h l).qp? q = some x := hx
  simp [State.noSlots, hx', Nat.ne_of_gt hcap]

theorem slotAddr_lastIdx_sq {s : State} {q : Nat} {x : Qp} (hx : s.qp? q = some x) :
    s.slotAddr (.sq q) (s.lastIdx (.sq q)) = some (x.slotAddr true x.sq.lastIdx) := by
  simp [State.slotAddr, State.lastIdx, hx]

theorem slotAddr_lastIdx_rq {s : State} {q : Nat} {x : Qp} (hx : s.qp? q = some x) :
    s.slotAddr (.rq q) (s.lastIdx (.rq q)) = some (x.slotAddr false x.rq.lastIdx) := by
  simp [State.slotAddr, State.lastIdx, hx]

theorem slotAddr_lastIdx_srq {s : State} {r : Nat} {y : Srq} (hy : s.srq? r = some y) :
    s.slotAddr (.srq r) (s.lastIdx (.srq r)) = some (y.slotAddr y.lastIdx) := by
  simp [State.slotAddr, State.lastIdx, hy]

/-- The rows of the send opcodes, each with its WQE opcode (R118). -/
def sendLinkRows (nda : BitVec 26) : List (Instr × Nat) :=
  [(.wqeOpRdmaWrite nda, 0x08), (.wqeOpRdmaWriteImm nda, 0x09), (.wqeOpSend nda, 0x0A), (.wqeOpSendImm nda, 0x0B),
    (.wqeOpRdmaRead nda, 0x10), (.wqeOpAtomicCs nda, 0x11), (.wqeOpAtomicFa nda, 0x12)]

theorem exec_sendLinkRow {nda : BitVec 26} {e : Instr × Nat} (he : e ∈ sendLinkRows nda) (s : State) :
    exec e.1 s = runCmd e.1 (sendLinkProg (linkWord nda (linkOpcode e.1))) s ∧ (linkOpcode e.1).toNat = e.2 := by
  simp only [sendLinkRows, List.mem_cons, List.not_mem_nil, or_false] at he
  rcases he with rfl | rfl | rfl | rfl | rfl | rfl | rfl <;> exact ⟨rfl, rfl⟩

theorem runs_sendLinkProg {s t : State} {q : Nat} {x : Qp} (i : Instr) (w : Word) (hq : s.quietStart)
    (hn : s.names .qp s.me.op.qp q) (hx : s.qp? q = some x) (hok : postStateOk s.cfg x.state true = true) :
    Runs (sendLinkProg w s.me.op) (s.beginCmd i) t ↔
      Runs (linkOn (.sq q) w fun s => s.noSlots q true) (s.holding i s.me.op.qp (ringLock (.sq q))) t := by
  obtain ⟨⟨-, -, hu⟩, hstarted, hfatal⟩ := hq
  exact runs_postStart true i hu hstarted hfatal hn hx hok

/-- A receive link without an SRQ goes to the QP's receive ring. -/
theorem runs_recvLinkProg_qp {s t : State} {q : Nat} {x : Qp} (i : Instr) (w : Word) (hq : s.quietStart)
    (hsrq : s.me.op.srq = none) (hn : s.names .qp s.me.op.qp q) (hx : s.qp? q = some x)
    (hok : postStateOk s.cfg x.state false = true) :
    Runs (recvLinkProg w s.me.op) (s.beginCmd i) t ↔
      Runs (linkOn (.rq q) w fun s => s.noSlots q false) (s.holding i s.me.op.qp (ringLock (.rq q))) t := by
  obtain ⟨⟨-, -, hu⟩, hstarted, hfatal⟩ := hq
  unfold recvLinkProg
  rw [hsrq]
  exact runs_postStart false i hu hstarted hfatal hn hx hok

/-- A receive link with an SRQ goes to the SRQ. -/
theorem runs_recvLinkProg_srq {s t : State} {h : Handle} {r : Nat} (i : Instr) (w : Word) (hq : s.quietStart)
    (hsrq : s.me.op.srq = some h) (hn : s.names .srq h r) :
    Runs (recvLinkProg w s.me.op) (s.beginCmd i) t ↔
      Runs (linkOn (.srq r) w fun _ => false) (s.holding i h (ringLock (.srq r))) t := by
  obtain ⟨⟨-, -, hu⟩, hstarted, hfatal⟩ := hq
  unfold recvLinkProg
  rw [hsrq]
  exact runs_srqLocked hu hstarted hfatal hn true none i

/-- Settles O41: each row comes to the link write (`runs_sendLinkProg`, `runs_recvLinkProg_qp`, `runs_recvLinkProg_srq`), which
`runsTo_linkOn` says the effect of; `NOP` answers at once. -/
theorem linkRows : Obligations.LinkRows := by
  intro s nda hq hwf
  refine ⟨fun q x p hn hx hok hcap hp e he => ?_, fun q x p hsrq hn hx hok hcap hp => ?_, fun h r y p hsrq hn hy hp => ?_, ?_⟩
  · obtain ⟨hexec, hop⟩ := exec_sendLinkRow he s
    rw [hexec, ← hop, ← hp]
    exact runsTo_linkOn hq hwf (fun _ => runs_sendLinkProg e.1 _ hq hn hx hok) (noSlots_holding (isSend := true) hx hcap ..)
      (slotAddr_lastIdx_sq hx)
  · rw [← hp]
    exact runsTo_linkOn (op := 1) hq hwf (fun _ => runs_recvLinkProg_qp _ _ hq hsrq hn hx hok)
      (noSlots_holding (isSend := false) hx hcap ..) (slotAddr_lastIdx_rq hx)
  · rw [← hp]
    exact runsTo_linkOn (op := 1) hq hwf (fun _ => runs_recvLinkProg_srq _ _ hq hsrq hn) rfl (slotAddr_lastIdx_srq hy)
  · obtain ⟨⟨⟨-, hcmd, hslice⟩, halone, -⟩, -, -⟩ := hq
    refine runCmd_of_runs hcmd hslice (halone.mayIssue _) (runs_respond.mpr ?_)
    ext1 <;> simp [State.ended]

end Sys2Proof.Machine
end

section
/-! SUPPORT. An input of the device event port (R140, R423), the events that come to nothing (R140, R424, R426, R441), and the command
words that are no command (R110). -/

namespace Sys2Proof.Machine

open Sys2Proof

/-! ### Events come in -/

/-- An event that the busy event agent, or one behind others, cannot take at once waits (R423). -/
theorem eventInput_waits {s : State} {bytes : List Byte} {i : Instr} (hdec : decode .event bytes = .ok i)
    (hstarted : s.started = true) (hallowed : s.eventAllowed i = true)
    (hbusy : (s.agent eventAgent).cmd.isSome ∨ s.eventQ ≠ []) (sl : Option Nat) :
    eventInput bytes sl s = .next ((s.noteRaised i).setEventQ (s.eventQ ++ [bytes])) := by
  simp [eventInput, hdec, hstarted, hallowed, hbusy]

/-- An event that comes to a busy event agent before `DEVICE_START` or after `DEVICE_STOP` leaves nothing (R441). -/
theorem eventInput_stopped_busy {s : State} {bytes : List Byte} {i : Instr} (hdec : decode .event bytes = .ok i)
    (hstopped : s.started = false) (hbusy : (s.agent eventAgent).cmd.isSome) (sl : Option Nat) :
    eventInput bytes sl s = .next s := by
  simp [eventInput, hdec, hstopped, hbusy]

theorem State.setInbox_eventAllowed (s : State) (l : List Input) (i : Instr) :
    (s.setInbox l).eventAllowed i = s.eventAllowed i := rfl

/-- Settles O11: the step takes the event, and `eventInput` makes of it what its four lemmas say. -/
theorem stepRunsEvent : Obligations.StepRunsEvent := by
  intro s bytes sl rest i hinbox hdec
  have hinput : step s = eventInput bytes sl (s.setInbox rest) := step_cons hinbox
  rw [hinput, ← s.setInbox_started rest, ← s.setInbox_eventAllowed rest i, ← s.setInbox_agent rest, ← s.setInbox_eventQ rest]
  exact ⟨fun hstarted hallowed =>
      ⟨fun hidle hq => eventInput_idle hdec hstarted hallowed hidle hq sl,
        fun hbusy => eventInput_waits hdec hstarted hallowed hbusy sl⟩,
    fun hstopped =>
      ⟨fun hidle => eventInput_stopped hdec hstopped hidle sl,
        fun hbusy => eventInput_stopped_busy hdec hstopped hbusy sl⟩⟩

/-! ### Events that come to nothing -/

theorem beginCmd_endCmd (s : State) (i : Instr) : (s.beginCmd i).endCmd = s.ended {} := by
  ext1 <;> simp [State.ended]

/-- The lock of a shard, taken where it is free. -/
theorem acquireAct_shardLock {s : State} {kind : Kind} {i : Nat} (hfree : s.holder (s.shardLock kind i) = none) :
    acquireAct (s.shardLock kind i) s = .ok 0 (s.lockShard kind i) := by
  simp [acquireAct, hfree, State.lockShard]

/-- The lock of a shard, taken and given back. -/
theorem releaseAct_shardLock {s : State} {kind : Kind} {i : Nat} (hfree : s.holder (s.shardLock kind i) = none) :
    releaseAct (s.shardLock kind i) (s.lockShard kind i) = .ok 0 s := by
  have hheld : (s.lockShard kind i).holder (s.shardLock kind i) = some (s.lockShard kind i).cur := by
    simp [State.lockShard, State.holder, holderIn]
  have hlocks : ((s.lockShard kind i).locks.filter fun e => decide (e.1 ≠ s.shardLock kind i)) = s.locks := by
    simp only [State.lockShard, State.setLocks_locks]
    rw [List.filter_cons]
    simpa using holderIn_none.mp hfree
  rw [releaseAct, if_pos hheld, hlocks]
  rfl

/-- A completion event for a number without a live CQ takes and frees the lock of its shard. -/
theorem runs_eventCompletion_dropped {s t : State} {num : Num24} (op : Operands) (hstarted : s.started = true)
    (hu : s.unlocked) (hnone : s.lookupNum .cq num = none) : Runs (eventCompletionProg num op) s t ↔ t = s.endCmd := by
  have hfree := hu.holder (s.shardLock .cq (s.indexOf .cq num))
  have hlookup : armSnNextAct num (s.lockShard .cq (s.indexOf .cq num)) = .ok 0 (s.lockShard .cq (s.indexOf .cq num)) := by
    simp [armSnNextAct, State.lockShard, hnone]
  unfold eventCompletionProg
  rw [runs_whileStarted hstarted,
    runs_act_ok (f := fun s => acquireAct (s.shardLock .cq (s.indexOf .cq num)) s) (acquireAct_shardLock hfree),
    runs_act_ok hlookup]
  simp only [if_true]
  rw [runs_act_ok (f := fun s => releaseAct (s.shardLock .cq (s.indexOf .cq num)) s) (releaseAct_shardLock hfree), runs_done]

/-- A QP event for a number without a live QP takes no reference. -/
theorem runs_eventQp_dropped {s t : State} {num : Num24} {ty : Byte} (op : Operands) (hstarted : s.started = true)
    (hu : s.unlocked) (hty : ¬ ty.toNat > 6) (hnone : s.lookupNum .qp num = none) :
    Runs (eventQpProg num ty op) s t ↔ t = s.endCmd := by
  have href : refNumAct num (s.lockShard .qp (s.indexOf .qp num)) = .ok 0 (s.lockShard .qp (s.indexOf .qp num)) := by
    simp [refNumAct, State.lockShard, hnone]
  unfold eventQpProg
  rw [if_neg hty, runs_whileStarted hstarted, runs_ask, runs_underShardAt (hu.holder _) href rfl rfl rfl, if_pos rfl,
    runs_done]

/-- A QP event of an unassigned type does nothing (R426, U12). -/
theorem runs_eventQp_unassigned {s t : State} {num : Num24} {ty : Byte} (op : Operands) (hty : ty.toNat > 6) :
    Runs (eventQpProg num ty op) s t ↔ t = s.endCmd := by
  rw [eventQpProg, if_pos hty, runs_done]

/-- A QP event does nothing before `DEVICE_START` or after `DEVICE_STOP` (R441). -/
theorem runs_eventQp_stopped {s t : State} {num : Num24} {ty : Byte} (op : Operands) (hstopped : s.started = false) :
    Runs (eventQpProg num ty op) s t ↔ t = s.endCmd := by
  by_cases hty : ty.toNat > 6
  · exact runs_eventQp_unassigned op hty
  · rw [eventQpProg, if_neg hty, runs_whileStarted_no hstopped]

/-- An event whose program ends where it starts leaves only the mark of its end. -/
theorem runEvent_ignored {s : State} {i : Instr} {p : Operands → Prog} (he : s.eventIdle)
    (h : ∀ op t, Runs (p op) ((s.setCur eventAgent).beginCmd i) t ↔ t = ((s.setCur eventAgent).beginCmd i).endCmd) :
    runEvent i p s = .next ((s.setCur eventAgent).ended {}) := by
  obtain ⟨hcmd, hslice, -⟩ := he
  rw [← beginCmd_endCmd _ i]
  exact runEvent_of_runs hcmd hslice ((h _ _).mpr rfl)

/-- Settles O52, kind by kind: the program of such an event ends where it starts. -/
theorem eventIgnored : Obligations.EventIgnored := by
  intro s he
  have hu (i : Instr) : ((s.setCur eventAgent).beginCmd i).unlocked := by
    obtain ⟨-, -, hlocks⟩ := he
    exact hlocks
  have hstopped (hst : s.started = false) (num : Num24) (op : Operands) (t : State) :
      Runs (eventCompletionProg num op) ((s.setCur eventAgent).beginCmd (.eventCompletion num)) t ↔
        t = ((s.setCur eventAgent).beginCmd (.eventCompletion num)).endCmd := runs_whileStarted_no hst
  refine ⟨fun kind => runEvent_ignored he fun _ _ => runs_done, fun num hnone => runEvent_ignored he fun op t => ?_,
    fun num ty hdrop => runEvent_ignored he fun op t => ?_, fun i hst hi => ?_⟩
  · cases hst : s.started with
    | true => exact runs_eventCompletion_dropped op hst (hu _) hnone
    | false => exact hstopped hst num op t
  · by_cases hty : ty.toNat > 6
    · exact runs_eventQp_unassigned op hty
    have hnone := hdrop.resolve_right hty
    cases hst : s.started with
    | true => exact runs_eventQp_dropped op hst (hu _) hty hnone
    | false => exact runs_eventQp_stopped op hst
  · rcases hi with rfl | ⟨num, rfl⟩ | ⟨num, ty, rfl⟩
    · exact runEvent_ignored he fun _ _ => runs_whileStarted_no hst
    · exact runEvent_ignored he (hstopped hst num)
    · exact runEvent_ignored he fun op _ => runs_eventQp_stopped op hst

/-! ### Command words that are no command -/

/-- Settles O20: the command raises at once, having changed nothing. -/
theorem illegalCommand : Obligations.IllegalCommand := by
  intro s w hidle
  obtain ⟨⟨-, hcmd, hslice⟩, halone, hu⟩ := hidle
  exact runCmd_of_runs hcmd hslice (halone.mayIssue _) ((runs_raise_begin hu).mpr rfl)

end Sys2Proof.Machine
end

section
/-! SUPPORT. The cached state of a QP (R150): apart from a write of a live QP's cached state, no elementary update of State changes the
state of a QP that was there and stays there, because an arena index is never given out twice. -/

namespace Sys2Proof.Machine

open Sys2Proof

/-- The QPs of `t` that were there in `s` have the cached state they had (R150), and no index at which `s` has a QP is given out
again. -/
def KeepsStatesOf (s t : State) : Prop :=
  KeysBelow s.qps t.nextObj ∧ ∀ q x y, s.qp? q = some x → t.qp? q = some y → y.state = x.state

namespace KeepsStatesOf

variable {s t u : State}

theorem refl (hs : KeysBelow s.qps s.nextObj) : KeepsStatesOf s s :=
  ⟨hs, fun _ _ _ hx hy => by cases hx.symm.trans hy; rfl⟩

/-- An update that gives out no index and makes no QP: each QP that is there after it was there, in the same state. -/
theorem of_qps (h : KeepsStatesOf s t) (hn : u.nextObj = t.nextObj)
    (hq : ∀ q y, u.qp? q = some y → ∃ x, t.qp? q = some x ∧ y.state = x.state) : KeepsStatesOf s u := by
  obtain ⟨hkeys, hstates⟩ := h
  refine ⟨hn ▸ hkeys, fun q x y hx hy => ?_⟩
  obtain ⟨z, hz, hyz⟩ := hq q y hy
  exact hyz.trans (hstates q x z hx hz)

theorem setQp (h : KeepsStatesOf s t) {q : Nat} {x y : Qp} (hx : t.qp? q = some x) (hy : y.state = x.state) :
    KeepsStatesOf s (t.setQp q y) := by
  refine h.of_qps rfl fun p z hz => ?_
  by_cases hp : p = q
  · subst hp
    cases (State.setQp_qp_self t p y).symm.trans hz
    exact ⟨x, hx, hy⟩
  · exact ⟨z, (State.setQp_qp_ne t y hp).symm.trans hz, rfl⟩

theorem eraseQp (h : KeepsStatesOf s t) (q : Nat) : KeepsStatesOf s (t.eraseQp q) := by
  refine h.of_qps rfl fun p z hz => ?_
  by_cases hp : p = q
  · subst hp
    cases (State.eraseQp_qp_self t p).symm.trans hz
  · exact ⟨z, (State.eraseQp_qp_ne t hp).symm.trans hz, rfl⟩

/-- An insert gives out the next arena index. -/
theorem insert (h : KeepsStatesOf s t) (k : Kind) (i : Nat) (e : Entry) :
    KeepsStatesOf s ((t.setEntry k i e).setNextObj (t.nextObj + 1)) := by
  obtain ⟨hkeys, hstates⟩ := h
  refine ⟨hkeys.mono (Nat.le_succ _), fun q x y hx hy => hstates q x y hx ?_⟩
  simpa only [State.qp?, State.setNextObj_qps, State.setEntry_qps] using hy

/-- A new QP is at an index that no QP of `s` has. -/
theorem newQp (h : KeepsStatesOf s t) (i : Nat) (e : Entry) (x : Qp) :
    KeepsStatesOf s (((t.setEntry .qp i e).setNextObj (t.nextObj + 1)).setQp t.nextObj x) := by
  obtain ⟨hkeys, hstates⟩ := h.insert .qp i e
  refine ⟨hkeys, fun q y z hy hz => hstates q y z hy ?_⟩
  have hq : q < t.nextObj := h.1 q (Option.isSome_of_eq_some hy)
  exact (State.setQp_qp_ne _ x (Nat.ne_of_lt hq)).symm.trans hz

theorem deviceReads (h : KeepsStatesOf s t) (r : Nat) (w : Word) : KeepsStatesOf s (t.deviceReads r w) := by
  refine h.of_qps rfl fun q y hy => ?_
  rw [deviceReads_qp?, Option.map_eq_some_iff] at hy
  obtain ⟨x, hx, rfl⟩ := hy
  exact ⟨x, hx, rfl⟩

theorem closed (s : State) : Closed (KeepsStatesOf s) where
  me _ _ h := h
  bus _ _ h := h
  mem _ _ _ h := h
  lock _ _ _ h := h
  unlock _ _ h := h
  fw _ _ h := h
  quiet _ _ h := h
  recs _ _ _ h := h
  qp _ _ _ _ hx hy h := h.setQp hx hy
  cq _ _ _ _ _ h := h
  srq _ _ _ _ _ h := h
  eraseQp _ q h := h.eraseQp q
  eraseCq _ _ h := h
  eraseSrq _ _ h := h
  drop _ k _ _ h := by cases k <;> exact h
  newQp _ i _ _ x h := h.newQp i _ x
  newCq t i g num _ h := h.insert .cq i { gen := g, occ := some { num, obj := t.nextObj } }
  newSrq t i g num _ h := h.insert .srq i { gen := g, occ := some { num, obj := t.nextObj } }
  emit _ _ h := h
  reads _ r w h := h.deviceReads r w
  agents _ _ h := h

end KeepsStatesOf

/-- Settles O8: `exec_keeps` asks for a further update of a live QP, which would write its cached state, of the three instructions
of R150 only. -/
theorem stateChangesOnly : Obligations.StateChangesOnly := by
  intro i s t hmodify hfatal hdrained hbelow h
  have hexec : KeepsStatesOf s t :=
    exec_keeps (KeepsStatesOf.closed s) ⟨fun _ h => h, fun _ _ h => h⟩
      (fun _ => ⟨fun _ _ h => h, fun _ _ h => h, fun _ _ h => h⟩) (fun _ _ _ h => h)
      (fun hi => by
        rcases hi with hi | hi | ⟨num, hi⟩
        · exact absurd hi hmodify
        · exact absurd hi hfatal
        · exact absurd hi (hdrained num))
      (KeepsStatesOf.refl hbelow) h
  exact hexec.2

end Sys2Proof.Machine
end

section
/-! SUPPORT. `MODIFY_QP` and `QUERY_QP` (R154 to R164, R180): the checks, the commit, the port call of QP0, the report. -/

namespace Sys2Proof.Machine

open Sys2Proof

/-- A command of a requester that can issue, alone, while the device runs, to its end. -/
theorem State.quietStart.runCmd {s t : State} (h : s.quietStart) {i : Instr} {p : Operands → Prog}
    (hr : Runs (p s.me.op) (s.beginCmd i) t) : Machine.runCmd i p s = .next t := by
  obtain ⟨⟨⟨-, hcmd, hslice⟩, halone, -⟩, -⟩ := h
  exact runCmd_of_runs hcmd hslice (halone.mayIssue i) hr

/-! ### A command that holds the `mlock` of its QP -/

/-- A command of the current agent on a QP that holds the QP's `mlock`; `r` and `out` are what it has in its response record and from
the firmware. -/
def State.qpCmd (s : State) (i : Instr) (q : Nat) (r : Response) (out : List Byte) : State :=
  (s.setMe { op := s.me.op, cmd := some i, uses := [s.me.op.qp], resp := r, fwOut := out }).setLocks [(.mlock q, s.cur)]

section

variable {s t : State} {i : Instr} {q : Nat} {x : Qp} {r : Response} {out : List Byte} {st : Status}

@[simp] theorem State.qpCmd_me : (s.qpCmd i q r out).me =
    { op := s.me.op, cmd := some i, uses := [s.me.op.qp], resp := r, fwOut := out } := by simp [State.qpCmd]

@[simp] theorem State.qpCmd_setResp (f : Response → Response) : (s.qpCmd i q r out).setResp f = s.qpCmd i q (f r) out := by
  rw [State.setResp, State.qpCmd_me]
  ext1 <;> simp [State.qpCmd]

/-- Such a command ends: it releases its lock and responds. -/
theorem runs_qpCmd_end (hu : s.unlocked) : Runs (release (.mlock q) <| respond st none) (s.qpCmd i q r out) t ↔
    t = s.ended { r with status := some st, badIndex := none } := by
  have hl : s.locks = [] := hu
  rw [runs_release_newest (l := []) (by simp [State.qpCmd]) rfl, runs_respond]
  refine iff_of_eq (congrArg (t = ·) ?_)
  ext1 <;> simp [State.qpCmd, State.ended, hl]

theorem runs_qpCmd_raise (hu : s.unlocked) : Runs (raise st) (s.qpCmd i q r out) t ↔
    t = s.ended { r with status := some st, badIndex := none } := runs_raise_locked hu r out

/-! ### The checks of `MODIFY_QP` (R155 to R157) -/

theorem modifyRow_none {cfg : Config} {op : Operands}
    (h : suppliesDraining op = true ∨ legalityOf cfg (curState x op) (newState x op) x.transport = none) :
    modifyRow cfg x op = none := by
  unfold modifyRow
  split
  · rfl
  · rename_i hok
    exact h.resolve_left fun hd => hok (.inl hd)

theorem modifyRow_some {cfg : Config} {op : Operands} {row : LegalityRow} {tr : Transition} (hd : suppliesDraining op = false)
    (hrow : legalityOf cfg (curState x op) (newState x op) x.transport = some row)
    (htr : transitionOf (curState x op) (newState x op) = some tr) : modifyRow cfg x op = some row := by
  simp [modifyRow, hd, htr, hrow]

theorem modifyError_noRow {cfg : Config} {op : Operands} (h : modifyRow cfg x op = none) :
    modifyError cfg x op = some .invalidTransition := by
  simp only [modifyError, h]

/-- The checks of a pair that the legality table has a row for, in their order. -/
theorem modifyError_row {cfg : Config} {op : Operands} {row : LegalityRow} (h : modifyRow cfg x op = some row) :
    modifyError cfg x op =
      if op.mask &&& row.required ≠ row.required then some .missingAttr
      else if op.mask &&& ~~~(row.required ||| row.opt ||| 1) ≠ 0 then some .extraAttr
      else if attrsOutOfRange cfg op then some .outOfRange
      else none := by
  simp only [modifyError, h]

/-- The statuses of these checks: those that a step of the program can answer. -/
theorem modifyError_statuses {cfg : Config} {op : Operands} (h : modifyError cfg x op = some st) :
    st = .invalidTransition ∨ st = .missingAttr ∨ st = .extraAttr ∨ st = .outOfRange := by
  cases hrow : modifyRow cfg x op with
  | none =>
    rw [modifyError_noRow hrow] at h
    cases h
    exact .inl rfl
  | some row =>
    rw [modifyError_row hrow] at h
    split_ifs at h <;> cases h <;> simp

/-- A `MODIFY_QP` that fails a check ends with its status, having changed nothing and made no call (R158). -/
theorem exec_modify_rejected (hs : s.quietStart) (hn : s.names .qp s.me.op.qp q) (hq : s.qp? q = some x)
    (he : modifyError s.cfg x s.me.op = some st) : exec .modifyQp s = .next (s.ended { status := some st }) := by
  refine hs.runCmd ?_
  obtain ⟨⟨-, -, hu⟩, hstarted, hfatal⟩ := hs
  have hcheck : modifyCheckAct q s.me.op (s.qpCmd .modifyQp q {} []) = .ok (modifyErrorCode st) (s.qpCmd .modifyQp q {} []) := by
    have hq' : (s.qpCmd .modifyQp q {} []).qp? q = some x := hq
    have hcfg : (s.qpCmd .modifyQp q {} []).cfg = s.cfg := rfl
    rw [modifyCheckAct, withQp_eq hq', hcfg, he]
  have hraise := (runs_qpCmd_raise (i := .modifyQp) (q := q) (r := {}) (out := []) (st := st) hu).mpr rfl
  refine (runs_qpLocked hu hstarted hfatal hn ..).mpr ((runs_act_ok hcheck).mpr ?_)
  rcases modifyError_statuses he with rfl | rfl | rfl | rfl <;> exact hraise

end

/-- What R157 calls out of range. -/
theorem attrsOutOfRange_iff (cfg : Config) (op : Operands) : attrsOutOfRange cfg op = true ↔
    (hasAttr op.mask .port = true ∧ (op.attrs.portNum.toNat = 0 ∨ cfg.numPorts < op.attrs.portNum.toNat))
    ∨ (hasAttr op.mask .pkeyIndex = true ∧ cfg.pkeyTableLen ≤ op.attrs.pkeyIndex.toNat)
    ∨ (hasAttr op.mask .maxQpRdAtomic = true ∧ cfg.maxQpInitRdma < op.attrs.maxRdAtomic.toNat)
    ∨ (hasAttr op.mask .maxDestRdAtomic = true ∧ cfg.maxQpRespRdma < op.attrs.maxDestRdAtomic.toNat) := by
  have hzero : op.attrs.portNum = 0 ↔ op.attrs.portNum.toNat = 0 := ⟨congrArg _, fun h => BitVec.eq_of_toNat_eq h⟩
  simp only [attrsOutOfRange, Bool.or_eq_true, Bool.and_eq_true, decide_eq_true_eq, hzero, ge_iff_le, gt_iff_lt, or_assoc]

/-- Settles O24: each clause says which check fails first; a failing check ends the command (`exec_modify_rejected`). -/
theorem modifyQpRejected : Obligations.ModifyQpRejected := by
  refine ⟨fun s op q x cur new hs hop hn hq hcur hnew => ?_, attrsOutOfRange_iff⟩
  subst hop hcur hnew
  refine ⟨fun h => exec_modify_rejected hs hn hq (modifyError_noRow (modifyRow_none h)), fun row tr hd hrow htr => ?_⟩
  have herror := modifyError_row (modifyRow_some hd hrow htr)
  refine ⟨fun hmissing => ?_, fun hreq hextra => ?_, fun hreq hno hrange => ?_⟩
  all_goals refine exec_modify_rejected hs hn hq (herror.trans ?_)
  · rw [if_pos hmissing]
  · rw [if_neg (not_not_intro hreq), if_pos hextra]
  · rw [if_neg (not_not_intro hreq), if_neg (not_not_intro hno), if_pos hrange]

/-- The row of the default table for INIT to RTR on RC (R152). -/
theorem legality_rc_init_rtr : ∃ row, defaultLegality.find? (fun r => decide (r.cur = .init ∧ r.new = .rtr ∧ r.transport = .rc)) = some row
    ∧ maskOf [.state, .av, .pathMtu, .rqPsn, .maxDestRdAtomic, .minRnrTimer] &&& row.required ≠ row.required := by
  decide

/-- Settles O25: the pair is legal, its row requires the destination QP number, and the mask does not have it. -/
theorem modifyQpMissingDestQpn : Obligations.ModifyQpMissingDestQpn := by
  intro s op q x hs hop hn hq hlegality hrc hinit hrtr hmask
  subst hop
  have hnoCur : hasAttr s.me.op.mask .curState = false := by rw [hmask]; decide
  have hState : hasAttr s.me.op.mask .state = true := by rw [hmask]; decide
  have hcur : curState x s.me.op = .init := by simp [curState, hnoCur, hinit]
  have hnew : newState x s.me.op = .rtr := by simp [newState, hState, hrtr]
  have hdraining : suppliesDraining s.me.op = false := by simp [suppliesDraining, hnoCur, hrtr]
  obtain ⟨row, hrow, hmissing⟩ := legality_rc_init_rtr
  have hlegal : legalityOf s.cfg .init .rtr x.transport = some row := by rw [legalityOf, hlegality, hrc]; exact hrow
  obtain ⟨-, hchecks⟩ := modifyQpRejected.1 s s.me.op q x .init .rtr hs rfl hn hq hcur hnew
  exact (hchecks row .init2rtr hdraining hlegal rfl).1 (hmask ▸ hmissing)

/-! ### The firmware's answer (R161, R180) -/

theorem status_toNat {a : FwAnswer} : a.status.toNat = 0 ↔ a.status = 0 :=
  ⟨fun h => BitVec.eq_of_toNat_eq h, congrArg BitVec.toNat⟩

/-- The state in which the firmware has been called with a transition of the QP and has answered. -/
def State.modifyCalled (s : State) (x : Qp) (tr : Transition) (new : QpState) (rest : List FwAnswer) : State :=
  (s.wmb.postCall (.modifyQp tr x.qpn (some (contextImage s.cfg x tr new s.me.op)))).setFw rest

/-- Settles O27: the raise finds the call on the bus and nothing else changed. -/
theorem mailboxFail : Obligations.MailboxFail := by
  intro s op q x a rest hs hop hn hq hfw hstatus
  subst hop
  obtain ⟨⟨-, -, hu⟩, hstarted, hfatal⟩ := id hs
  have hfail : a.status.toNat ≠ 0 := fun h => hstatus (status_toNat.mp h)
  refine ⟨fun tr he htr => hs.runCmd ?_, hs.runCmd ?_⟩
  · refine (runs_modify_call hu hstarted hfatal hn hq he rfl rfl htr hfw).mpr ?_
    rw [if_pos hfail, noteTransition, if_neg hfail]
    exact (runs_qpCmd_raise (s := s.modifyCalled x tr (newState x s.me.op) rest) hu).mpr rfl
  · refine (runs_query_call hu hstarted hfatal hn hq hfw).mpr ?_
    rw [if_pos hfail]
    exact (runs_qpCmd_raise (s := (s.wmb.postCall (.queryQp x.qpn)).setFw rest) hu).mpr rfl

/-- What `QUERY_QP` reports of a QP (R180), besides the firmware's bytes. -/
def Qp.report (x : Qp) (fwStatus : Byte) (out : List Byte) : Response :=
  { fwStatus := some fwStatus, state := some (if x.state = .draining then .sqd else x.state)
    draining := some (decide (x.state = .draining)), port := some x.port, accessFlags := some x.accessFlags
    respDepth := some x.respDepth, attrCache := some x.attrCache, context := some out }

theorem queryAct_qpCmd {s : State} {q : Nat} {x : Qp} (hq : s.qp? q = some x) (fw : Byte) (out : List Byte) :
    queryAct q (s.qpCmd .queryQp q { fwStatus := some fw } out) = .ok 0 (s.qpCmd .queryQp q (x.report fw out) out) := by
  have hq' : (s.qpCmd .queryQp q { fwStatus := some fw } out).qp? q = some x := hq
  rw [queryAct, withQp_eq hq', State.qpCmd_setResp, State.qpCmd_me, Qp.report]

/-- The report and the end of a `QUERY_QP` that the firmware has answered. -/
theorem runs_query_end {s : State} {q : Nat} {x : Qp} (hu : s.unlocked) (hq : s.qp? q = some x) (fw : Byte) (out : List Byte) :
    Runs (.act (queryAct q) fun _ => release (.mlock q) <| respond .ok none) (s.qpCmd .queryQp q { fwStatus := some fw } out)
      (s.ended { x.report fw out with status := some .ok }) :=
  (runs_act_ok (queryAct_qpCmd hq fw out)).mpr ((runs_qpCmd_end hu).mpr rfl)

/-- Settles O30: the report reads the QP, whose fields the call has not changed. -/
theorem queryQp : Obligations.QueryQp := by
  intro s q x a rest hs hn hq hfw hstatus
  refine hs.runCmd ?_
  obtain ⟨⟨-, -, hu⟩, hstarted, hfatal⟩ := hs
  refine (runs_query_call hu hstarted hfatal hn hq hfw).mpr ?_
  rw [if_neg (not_not_intro (status_toNat.mpr hstatus)), hstatus]
  exact runs_query_end (s := (s.wmb.postCall (.queryQp x.qpn)).setFw rest) hu hq 0 a.out

end Sys2Proof.Machine
end

section
/-! SUPPORT. An accepted `MODIFY_QP` (R159 to R164, R166): the commit, the port call of QP0, and for a move to RESET the cleanup. -/

namespace Sys2Proof.Machine

open Sys2Proof

/-! ### The commit (R162) -/

/-- The value at a key of a list that holds, in the order of some distinct keys, what `f` gives them. -/
theorem attrGet_filterMap {α : Type} (f : Attr → Option α) {l : List Attr} (hl : l.Nodup) {a : Attr} (ha : a ∈ l) :
    attrGet (l.filterMap fun b => (f b).map fun v => (b, v)) a = f a := by
  have hnone : ∀ {l : List Attr}, a ∉ l → attrGet (l.filterMap fun b => (f b).map fun v => (b, v)) a = none := by
    intro l
    induction l with
    | nil => exact fun _ => rfl
    | cons b l ih =>
      intro hb
      rw [List.mem_cons, not_or] at hb
      cases hf : f b <;> simp [hf, attrGet, ih hb.2, Ne.symm hb.1]
  induction l with
  | nil => cases ha
  | cons b l ih =>
    obtain ⟨hb, hl⟩ := List.nodup_cons.mp hl
    by_cases h : b = a
    · subst h
      cases hf : f b
      · simpa [hf] using hnone hb
      · simp [hf, attrGet]
    · have ha' := ih hl ((List.mem_cons.mp ha).resolve_left (Ne.symm h))
      cases hf : f b <;> simp [hf, attrGet, h, ha']

/-- A cached value after the commit of R162. -/
theorem attrGet_mergedCache (old : List (Attr × BitVec 320)) (op : Operands) (a : Attr) :
    attrGet (mergedCache old op) a =
      if hasAttr op.mask a = true ∧ a ≠ .state ∧ a ≠ .curState then some (attrValue op.attrs a) else attrGet old a := by
  have hmerged : mergedCache old op = allAttrs.filterMap fun b =>
      (if hasAttr op.mask b && !isStateAttr b then some (attrValue op.attrs b) else attrGet old b).map fun v => (b, v) := by
    refine List.filterMap_congr fun b _ => ?_
    split <;> rfl
  rw [hmerged, attrGet_filterMap _ (by decide) (by cases a <;> decide)]
  refine if_congr ?_ rfl rfl
  simp [isStateAttr]

/-- A move to SQD from RTS, and of a QP that is DRAINING, leaves it DRAINING. -/
theorem committedState_draining {old cur : QpState} (h : cur = .rts ∨ old = .draining) :
    committedState old cur .sqd = .draining := by
  rcases h with rfl | rfl <;> simp [committedState]

theorem committedState_new {old cur new : QpState} (h : new ≠ .sqd ∨ (cur ≠ .rts ∧ old ≠ .draining)) :
    committedState old cur new = new := by
  rcases h with h | ⟨h, h'⟩ <;> simp [committedState, *]

/-! ### The port call of QP0 (R164) -/

theorem portCall_cases (cfg : Config) (x : Qp) (cur new : QpState) :
    portCall cfg x cur new = 0 ∨ portCall cfg x cur new = 1 ∨ portCall cfg x cur new = 2 := by
  unfold portCall
  split_ifs <;> simp

/-- The call that a number of `portCall` stands for. -/
def portCallOf (n : Nat) (port : BitVec 8) : Option MailboxCall :=
  match n with
  | 1 => some (.initIb port)
  | 2 => some (.closeIb port)
  | _ => none

/-- The state in which the firmware has been called, where there is a call, and has answered. -/
def State.called (s : State) (call : Option MailboxCall) (rest : List FwAnswer) : State :=
  match call with
  | none => s.setFw rest
  | some c => (s.wmb.postCall c).setFw rest

theorem State.called_locks (s : State) (call : Option MailboxCall) (rest : List FwAnswer) : (s.called call rest).locks = s.locks := by
  cases call <;> rfl

variable {s t : State} {i : Instr} {q : Nat} {x : Qp} {r : Response} {out : List Byte} {k : Prog}

/-- The port calls: `more` is the firmware's answer to one, where there is one. -/
theorem runs_portCalls {cur new : QpState} {n : Nat} {more rest : List FwAnswer} (hq : s.qp? q = some x) (hfatal : s.fatal = false)
    (hfw : s.fw = more ++ rest) (hn : portCall s.cfg x cur new = n) (hmore : more.length = if n = 0 then 0 else 1)
    (hr : r.portFwStatus = none) :
    Runs (portCalls q cur new k) (s.qpCmd i q r out) t ↔
      Runs k ((s.called (portCallOf n x.port) rest).qpCmd i q
        { r with portFwStatus := more.head?.map (·.status) } ((more.head?.map (·.out)).getD out)) t := by
  have hq' : (s.qpCmd i q r out).qp? q = some x := hq
  have hact : portCallAct q cur new (s.qpCmd i q r out) = .ok n (s.qpCmd i q r out) := by
    rw [portCallAct, withQp_eq hq', ← hn]; rfl
  have hport : (s.qpCmd i q r out).portOf q = x.port := by rw [State.portOf, hq']; rfl
  have hone : ∀ (call : State → MailboxCall) (a : FwAnswer), s.fw = a :: rest →
      (Runs (mailbox call fun st => setPortStatus st k) (s.qpCmd i q r out) t ↔
        Runs k (((s.wmb.postCall (call (s.qpCmd i q r out))).setFw rest).qpCmd i q { r with portFwStatus := some a.status } a.out) t) := by
    intro call a ha
    rw [runs_mailbox (s := s.qpCmd i q r out) (a := a) (rest := rest) hfatal ha, setPortStatus, runs_eff]
    refine iff_of_eq (congrArg₂ _ ?_ rfl)
    ext1 <;> simp [State.qpCmd, State.setResp]
  unfold portCalls
  rw [runs_act_ok hact]
  rcases hn ▸ portCall_cases s.cfg x cur new with rfl | rfl | rfl
  · obtain rfl := List.eq_nil_of_length_eq_zero hmore
    obtain rfl : s.fw = rest := hfw
    have hr' : { r with portFwStatus := none } = r := by rw [← hr]
    exact iff_of_eq (congrArg (fun r => Runs k (s.qpCmd i q r out) t) hr'.symm)
  · obtain ⟨a, rfl⟩ := List.length_eq_one_iff.mp hmore
    rw [if_pos rfl, hone _ a hfw, hport]
    rfl
  · obtain ⟨a, rfl⟩ := List.length_eq_one_iff.mp hmore
    rw [if_neg (by decide), if_pos rfl, hone _ a hfw, hport]
    rfl

/-! ### The commit of an accepted request -/

/-- What the model notes of an accepted transition (R88). -/
def quietAfter (new : QpState) (qpn : Num24) (l : List Num24) : List Num24 :=
  if new = .reset then qpn :: l.filter fun n => decide (n ≠ qpn) else l.filter fun n => decide (n ≠ qpn)

/-- The state in which a transition has been accepted and committed (R162). -/
def State.modified (s : State) (q : Nat) (x : Qp) (tr : Transition) (cur new : QpState) (rest : List FwAnswer) : State :=
  { s with
    bus := .mailbox s.cur (.modifyQp tr x.qpn (some (contextImage s.cfg x tr new s.me.op))) :: .wmb s.cur :: s.bus
    fw := rest, quiet := quietAfter new x.qpn s.quiet, qps := assocSet s.qps q (x.commit cur new s.me.op) }

theorem State.modified_eq (s : State) (q : Nat) (x : Qp) (tr : Transition) (cur new : QpState) (rest : List FwAnswer) :
    s.modified q x tr cur new rest =
      ((s.modifyCalled x tr new rest).setQuiet (quietAfter new x.qpn s.quiet)).setQp q (x.commit cur new s.me.op) := by
  ext1 <;> simp [State.modified, State.modifyCalled]

/-- The state after the firmware's answer, written out, is that of a command that holds its `mlock`. -/
theorem qpCmd_of_setMe {u : State} (hop : u.me.op = s.me.op) (hcur : u.cur = s.cur) :
    (u.setMe { op := s.me.op, cmd := some i, uses := [s.me.op.qp], resp := r, fwOut := out }).setLocks [(.mlock q, s.cur)]
      = u.qpCmd i q r out := by
  rw [State.qpCmd, hop, hcur]

theorem commitAct_qpCmd (hq : s.qp? q = some x) (cur new : QpState) (op : Operands) (r : Response) (out : List Byte) :
    commitAct q cur new op (s.qpCmd i q r out) = .ok 0 ((s.setQp q (x.commit cur new op)).qpCmd i q r out) := by
  have hq' : (s.qpCmd i q r out).qp? q = some x := hq
  rw [commitAct, withQp_eq hq']
  rfl

/-- `MODIFY_QP` of an accepted request, up to the port call of QP0. -/
theorem runs_modify_commit {cur new : QpState} {tr : Transition} {a : FwAnswer} {rest : List FwAnswer} (hs : s.quietStart)
    (hn : s.names .qp s.me.op.qp q) (hq : s.qp? q = some x) (he : modifyError s.cfg x s.me.op = none)
    (hcur : curState x s.me.op = cur) (hnew : newState x s.me.op = new) (htr : transitionOf cur new = some tr)
    (hfw : s.fw = a :: rest) (hstatus : a.status = 0) :
    Runs (modifyQpProg s.me.op) (s.beginCmd .modifyQp) t ↔
      Runs (portCalls q cur new <| (if new = .reset then resetCleanup q else fun k => k) <| release (.mlock q) <| respond .ok none)
        ((s.modified q x tr cur new rest).qpCmd .modifyQp q { fwStatus := some 0 } a.out) t := by
  obtain ⟨⟨-, -, hu⟩, hstarted, hfatal⟩ := hs
  have hnote : noteTransition q new 0 (s.modifyCalled x tr new rest)
      = (s.modifyCalled x tr new rest).setQuiet (quietAfter new x.qpn s.quiet) := by
    have hqpn : (s.modifyCalled x tr new rest).qpnOf q = x.qpn.toNat := by
      have hq' : (s.modifyCalled x tr new rest).qp? q = some x := hq
      rw [State.qpnOf, hq']; rfl
    rw [noteTransition, if_pos rfl, hqpn, BitVec.ofNat_toNat, BitVec.setWidth_eq]
    rfl
  rw [runs_modify_call hu hstarted hfatal hn hq he hcur hnew htr hfw, if_neg (not_not_intro (status_toNat.mpr hstatus)), hstatus,
    show BitVec.toNat (0 : Byte) = 0 from rfl, ← State.modifyCalled, hnote, State.modified_eq,
    qpCmd_of_setMe (by simp [State.modifyCalled]) (by simp [State.modifyCalled])]
  exact runs_act_ok (commitAct_qpCmd (by simpa [State.modifyCalled] using hq) ..)


/-- An accepted `MODIFY_QP` to another state than RESET: `more` is the firmware's answer to the port call, where there is one. -/
theorem exec_modify_accepted {cur new : QpState} {tr : Transition} {a : FwAnswer} {more rest : List FwAnswer} (hs : s.quietStart)
    (hn : s.names .qp s.me.op.qp q) (hq : s.qp? q = some x) (he : modifyError s.cfg x s.me.op = none)
    (hcur : curState x s.me.op = cur) (hnew : newState x s.me.op = new) (hreset : new ≠ .reset)
    (htr : transitionOf cur new = some tr) (hfw : s.fw = a :: (more ++ rest)) (hstatus : a.status = 0)
    (hmore : more.length = if portCall s.cfg (x.commit cur new s.me.op) cur new = 0 then 0 else 1) :
    exec .modifyQp s = .next (((s.modified q x tr cur new (more ++ rest)).called
        (portCallOf (portCall s.cfg (x.commit cur new s.me.op) cur new) (x.commit cur new s.me.op).port) rest).ended
      { status := some .ok, fwStatus := some 0, portFwStatus := more.head?.map (·.status) }) := by
  refine hs.runCmd ?_
  rw [runs_modify_commit hs hn hq he hcur hnew htr hfw hstatus]
  obtain ⟨⟨-, -, hu⟩, -, hfatal⟩ := hs
  rw [if_neg hreset, runs_portCalls (s := s.modified q x tr cur new (more ++ rest)) (x := x.commit cur new s.me.op)
    (State.setQp_qp_self ..) hfatal rfl rfl hmore rfl]
  have hu' : ∀ call, ((s.modified q x tr cur new (more ++ rest)).called call rest).unlocked := fun _ => (State.called_locks ..).trans hu
  exact (runs_qpCmd_end (hu' _)).mpr rfl

/-- Settles O26: the commit of R162, then the port call of R164 that the transition makes, if one. -/
theorem modifyQpAccepted : Obligations.ModifyQpAccepted := by
  intro s u op q x y cur new tr a rest hs hop hn hq he hcur hnew hreset htr hfw hstatus hy hu
  subst hop
  subst hy
  have hmodified : s.modified q x tr cur new rest = u := by
    rw [hu, State.modified_eq, quietAfter, if_neg hreset]; rfl
  refine ⟨fun h => ?_, fun b rest' hrest => ⟨fun h => ?_, fun h => ?_⟩, rfl, ?_, committedState_new, rfl, rfl, rfl,
    attrGet_mergedCache x.attrCache s.me.op⟩
  · have hexec := exec_modify_accepted (more := []) hs hn hq he hcur hnew hreset htr hfw hstatus (by rw [if_pos h]; rfl)
    rw [List.nil_append, hmodified, h] at hexec
    have hsame : u.setFw rest = u := by rw [hu]; rfl
    rwa [show u.called (portCallOf 0 _) rest = u from hsame] at hexec
  · subst hrest
    have hexec := exec_modify_accepted (more := [b]) hs hn hq he hcur hnew hreset htr hfw hstatus (by rw [h]; rfl)
    rwa [List.singleton_append, hmodified, h] at hexec
  · subst hrest
    have hexec := exec_modify_accepted (more := [b]) hs hn hq he hcur hnew hreset htr hfw hstatus (by rw [h]; rfl)
    rwa [List.singleton_append, hmodified, h] at hexec
  · rintro rfl h
    exact committedState_draining h

end Sys2Proof.Machine
end

section
/-! SUPPORT. An accepted `MODIFY_QP` to RESET (R162, R164, R166): the doorbell records of both rings are zeroed, the rings are as after a
create. -/

namespace Sys2Proof.Machine

open Sys2Proof

/-! ### The doorbell record of a ring, zeroed (R166) -/

/-- The state after word 0 of the record of a field has been zeroed: nothing in `LEGACY`, and where the field holds none. -/
def State.clearedRec (s : State) (o : Option Nat) : State :=
  match s.mode with
  | .legacy => s
  | .memfree => s.wmb.writeRec0 o 0

/-- The calls on a bus. -/
theorem State.calls_congr {s t : State} (h : t.bus = s.bus) : t.calls = s.calls := by rw [State.calls, State.calls, h]

/-- What the zeroing of a record does. -/
theorem clearedRec_eq (s : State) (o : Option Nat) :
    ∃ m l, s.clearedRec o = (s.setMem m).setBus l ∧ (s.setBus l).calls = s.calls
      ∧ (Memory.wf s.mem = true → Memory.wf m = true ∧ ∀ r ∈ s.recsOf [o], (s.setMem m).memRead (s.recAddr r) 4 = 0)
      ∧ ∀ b, (∀ r ∈ s.recsOf [o], Outside b (s.recAddr r, 4)) → memGet m b = memGet s.mem b := by
  cases hm : s.mode with
  | legacy =>
    exact ⟨s.mem, s.bus, by simp only [State.clearedRec, hm]; rfl, rfl,
      fun h => ⟨h, by simp [State.recsOf, hm]⟩, fun _ _ => rfl⟩
  | memfree =>
    cases o with
    | none =>
      exact ⟨s.mem, s.wmb.bus, by simp only [State.clearedRec, hm]; rfl, rfl,
        fun h => ⟨h, by simp [State.recsOf, hm]⟩, fun _ _ => rfl⟩
    | some r =>
      have hr : s.recsOf [some r] = [r] := by simp [State.recsOf, hm]
      refine ⟨(s.wmb.memWrite (s.recAddr r) 4 0).mem, (s.wmb.memWrite (s.recAddr r) 4 0).bus, ?_, rfl,
        fun h => ⟨(writes_memWrite s.wmb (s.recAddr r) 4 0).mem_wf h, fun p hp => ?_⟩,
        fun b hb => State.memWrite_outside s.wmb (s.recAddr r) 4 0 b ?_⟩
      · simp only [State.clearedRec, hm]; rfl
      · rw [hr, List.mem_singleton] at hp
        subst hp
        exact State.memRead_memWrite s.wmb (s.recAddr p) 4 0 h
      · exact hb r (by rw [hr]; exact List.mem_singleton_self r)

/-- What the zeroing of two records does. -/
theorem clearedRec_two (s : State) (o p : Option Nat) :
    ∃ m l, (s.clearedRec o).clearedRec p = (s.setMem m).setBus l ∧ (s.setBus l).calls = s.calls
      ∧ (Memory.wf s.mem = true → ∀ r ∈ s.recsOf [o, p], (s.setMem m).memRead (s.recAddr r) 4 = 0)
      ∧ ∀ b, (∀ r ∈ s.recsOf [o, p], Outside b (s.recAddr r, 4)) → memGet m b = memGet s.mem b := by
  obtain ⟨m1, l1, he1, hc1, hw1, hf1⟩ := clearedRec_eq s o
  obtain ⟨m2, l2, he2, hc2, hw2, hf2⟩ := clearedRec_eq (s.clearedRec o) p
  have hrecs : (s.clearedRec o).recsOf [p] = s.recsOf [p] := by rw [he1]; rfl
  have haddr : ∀ r, (s.clearedRec o).recAddr r = s.recAddr r := by intro r; rw [he1]; rfl
  have hmem : (s.clearedRec o).mem = m1 := by rw [he1]; rfl
  simp only [hrecs, haddr, hmem] at he2 hw2 hf2
  have hboth := recsOf_cons s o [p]
  refine ⟨m2, l2, by rw [he2, he1]; rfl, ?_, fun h r hr => ?_, fun b hb => ?_⟩
  · calc (s.setBus l2).calls = ((s.clearedRec o).setBus l2).calls := State.calls_congr rfl
      _ = (s.clearedRec o).calls := hc2
      _ = (s.setBus l1).calls := State.calls_congr (by rw [he1]; rfl)
      _ = s.calls := hc1
  · obtain ⟨w1, v1⟩ := hw1 h
    obtain ⟨-, v2⟩ := hw2 w1
    by_cases hp : r ∈ s.recsOf [p]
    · rw [← v2 r hp, he1]; rfl
    · have ho : r ∈ s.recsOf [o] := by
        rw [hboth, List.mem_append] at hr
        exact hr.resolve_right hp
      rw [← v1 r ho]
      refine congrArg beNat (memGetBytes_congr _ _ _ _ fun b hb hb' => hf2 b fun r' hr' => ?_)
      have hne : r' ≠ r := fun e => hp (e ▸ hr')
      simp only [Outside, State.recAddr] at *
      omega
  · rw [hf2 b fun r hr => hb r (by rw [hboth]; exact List.mem_append_right _ hr),
      hf1 b fun r hr => hb r (by rw [hboth]; exact List.mem_append_left _ hr)]

/-! ### Both rings reset (R166) -/

/-- A QP whose rings are as after a create, with their geometry. -/
def Qp.emptied (x : Qp) : Qp := { x with sq := x.sq.cleared, rq := x.rq.cleared }

variable {s t : State} {i : Instr} {q : Nat} {x : Qp} {r : Response} {out : List Byte} {k : Prog}

theorem State.clearedRec_setQp (s : State) (o : Option Nat) (q : Nat) (x : Qp) :
    (s.clearedRec o).setQp q x = (s.setQp q x).clearedRec o := by
  simp only [State.clearedRec, State.setQp_mode]
  cases s.mode <;> cases o <;> rfl

theorem State.clearedRec_frame (s : State) (o : Option Nat) : (s.clearedRec o).qps = s.qps ∧ (s.clearedRec o).locks = s.locks := by
  obtain ⟨m, l, h, -⟩ := clearedRec_eq s o
  rw [h]
  exact ⟨rfl, rfl⟩

theorem runs_resetRing_cleared {isSend : Bool} (hx : s.qp? q = some x) (hf : s.holder (if isSend then .sq q else .rq q) = none) :
    Runs (resetRing q isSend k) s t ↔ Runs k ((s.setQp q (x.setRing isSend (x.ring isSend).cleared)).clearedRec
      (if isSend then x.sqDbRec else x.rqDbRec)) t := by
  rw [runs_resetRing hx hf]
  cases hm : s.mode <;> simp only [State.clearedRec, State.setQp_mode, hm]

theorem runs_resetRings (hx : s.qp? q = some x) (hsq : s.holder (.sq q) = none) (hrq : s.holder (.rq q) = none) :
    Runs (resetRing q true <| resetRing q false k) s t ↔
      Runs k (((s.setQp q x.emptied).clearedRec x.sqDbRec).clearedRec x.rqDbRec) t := by
  let u := (s.setQp q (x.setRing true (x.ring true).cleared)).clearedRec x.sqDbRec
  obtain ⟨hqps, hlocks⟩ := State.clearedRec_frame (s.setQp q (x.setRing true (x.ring true).cleared)) x.sqDbRec
  have hu : u.qp? q = some (x.setRing true (x.ring true).cleared) := by
    rw [State.qp?, hqps]; exact State.setQp_qp_self ..
  have hurq : u.holder (.rq q) = none := by rw [State.holder, hlocks]; exact hrq
  rw [runs_resetRing_cleared (isSend := true) hx hsq, if_pos rfl, runs_resetRing_cleared (s := u) (isSend := false) hu hurq,
    State.clearedRec_setQp, State.setQp_setQp]
  rfl

/-! ### `MODIFY_QP` to RESET -/

theorem State.qpCmd_clearedRec (s : State) (o : Option Nat) :
    (s.qpCmd i q r out).clearedRec o = (s.clearedRec o).qpCmd i q r out := by
  simp only [State.clearedRec, State.qpCmd, State.setLocks_mode, State.setMe_mode]
  cases s.mode <;> cases o <;> rfl

theorem State.setBus_setQp_setMem_setBus (s : State) (l0 l : List BusEvent) (q : Nat) (x : Qp) (m : List Host.Cell) :
    (((s.setBus l0).setQp q x).setMem m).setBus l = ((s.setQp q x).setMem m).setBus l := rfl

/-- The RESET cleanup of a QP with no CQE waiting in its CQs, and the end of the command. -/
theorem runs_resetCleanup_end {c1 c2 : Nat} {st : Status} (hu : s.unlocked) (hx : s.qp? q = some x) (h1 : s.namesEmptyCq x.sendCq c1)
    (h2 : s.namesEmptyCq x.recvCq c2) (hsrq : ∀ g, x.srq = some g → ∃ p, s.names .srq g p) :
    ∃ m l, Runs (resetCleanup q <| release (.mlock q) <| respond st none) (s.qpCmd i q r out)
        ((((s.setQp q x.emptied).setMem m).setBus l).ended { r with status := some st, badIndex := none })
      ∧ (s.setBus l).calls = s.calls
      ∧ (Memory.wf s.mem = true → ∀ p ∈ s.recsOf [x.sqDbRec, x.rqDbRec], (s.setMem m).memRead (s.recAddr p) 4 = 0)
      ∧ ∀ b, (∀ p ∈ s.recsOf [x.sqDbRec, x.rqDbRec], Outside b (s.recAddr p, 4)) → memGet m b = memGet s.mem b := by
  obtain ⟨l0, hbarriers, hcalls⟩ : ∃ l0, (if x.sendCq = x.recvCq then (s.qpCmd i q r out).rmb else (s.qpCmd i q r out).rmb.rmb)
      = (s.setBus l0).qpCmd i q r out ∧ (s.setBus l0).calls = s.calls := by
    by_cases h : x.sendCq = x.recvCq
    · exact ⟨.rmb s.cur :: s.bus, if_pos h, rfl⟩
    · exact ⟨.rmb s.cur :: .rmb s.cur :: s.bus, if_neg h, rfl⟩
  have hfree : ∀ (v : State) y, y ≠ .mlock q → (v.qpCmd i q r out).holder y = none := fun v y hy => by
    simp [State.holder, State.qpCmd, holderIn, Ne.symm hy]
  obtain ⟨m, l, he, hc, hw, hf⟩ := clearedRec_two ((s.setBus l0).setQp q x.emptied) x.sqDbRec x.rqDbRec
  refine ⟨m, l, ?_, ?_, hw, hf⟩
  · have hlocked : ∀ y, (∃ k j, y = Lock.shard k j) ∨ y = .cq c1 ∨ y = .cq c2 → (s.qpCmd i q r out).holder y = none := by
      rintro y (⟨k, j, rfl⟩ | rfl | rfl) <;> exact hfree s _ nofun
    unfold resetCleanup
    rw [runs_cleanBoth_empty (s := s.qpCmd i q r out) hx h1 h2 hsrq hlocked, hbarriers,
      runs_resetRings (s := (s.setBus l0).qpCmd i q r out) hx (hfree _ _ nofun) (hfree _ _ nofun),
      show ((s.setBus l0).qpCmd i q r out).setQp q x.emptied = ((s.setBus l0).setQp q x.emptied).qpCmd i q r out from rfl,
      State.qpCmd_clearedRec, State.qpCmd_clearedRec, he, State.setBus_setQp_setMem_setBus]
    exact (runs_qpCmd_end (s := ((s.setQp q x.emptied).setMem m).setBus l) hu).mpr rfl
  · calc (s.setBus l).calls = (((s.setBus l0).setQp q x.emptied).setBus l).calls := State.calls_congr rfl
      _ = ((s.setBus l0).setQp q x.emptied).calls := hc
      _ = (s.setBus l0).calls := State.calls_congr rfl
      _ = s.calls := hcalls

theorem State.ended_calls (s : State) (r : Response) : (s.ended r).calls = s.calls := rfl

theorem State.called_calls (s : State) (call : Option MailboxCall) (rest : List FwAnswer) :
    (s.called call rest).calls = call.toList ++ s.calls := by
  cases call <;> rfl

/-- The state after the commit and the port call, written out. -/
theorem State.modified_called (s : State) (q : Nat) (x : Qp) (tr : Transition) (cur new : QpState) (l rest : List FwAnswer)
    (call : Option MailboxCall) : ∃ b, (s.modified q x tr cur new l).called call rest =
      { s with
        qps := assocSet s.qps q (x.commit cur new s.me.op), bus := b, fw := rest, quiet := quietAfter new x.qpn s.quiet } := by
  cases call
  · exact ⟨_, rfl⟩
  · exact ⟨_, rfl⟩

theorem State.modified_calls (s : State) (q : Nat) (x : Qp) (tr : Transition) (cur new : QpState) (rest : List FwAnswer) :
    (s.modified q x tr cur new rest).calls = .modifyQp tr x.qpn (some (contextImage s.cfg x tr new s.me.op)) :: s.calls := rfl

/-- A move to RESET closes the port, if it makes a call at all. -/
theorem portCallOf_reset (cfg : Config) (x : Qp) (cur : QpState) (port : BitVec 8) :
    (portCallOf (portCall cfg x cur .reset) port).toList = if portCall cfg x cur .reset = 0 then [] else [.closeIb port] := by
  have hno : portCall cfg x cur .reset ≠ 1 := by
    unfold portCall
    split_ifs <;> simp_all
  rcases portCall_cases cfg x cur .reset with h | h | h
  · rw [h]; rfl
  · exact absurd h hno
  · rw [h]; rfl

/-- Both rings of a QP that a commit has moved to RESET, emptied. -/
theorem Qp.commit_reset_emptied (x : Qp) (cur : QpState) (op : Operands) : (x.commit cur .reset op).emptied =
    { x.commit cur .reset op with
      state := .reset, sq := freshRing x.sq.capacity x.sq.shift x.sq.maxGs, rq := freshRing x.rq.capacity x.rq.shift x.rq.maxGs } := by
  have hstate : committedState x.state cur .reset = .reset := committedState_new (.inl nofun)
  rw [Qp.emptied, Qp.commit, hstate]
  rfl

/-- The run of an accepted `MODIFY_QP` to RESET of a QP with no CQE waiting in its CQs: `b` is the bus before the cleanup. -/
theorem runs_modify_reset {c1 c2 : Nat} {y : Qp} {cur : QpState} {a : FwAnswer} {more rest : List FwAnswer} (hs : s.quietStart)
    (hn : s.names .qp s.me.op.qp q) (hq : s.qp? q = some x) (he : modifyError s.cfg x s.me.op = none)
    (hcur : curState x s.me.op = cur) (hnew : newState x s.me.op = .reset) (hy : x.commit cur .reset s.me.op = y)
    (hfw : s.fw = a :: (more ++ rest)) (hstatus : a.status = 0)
    (hmore : more.length = if portCall s.cfg y cur .reset = 0 then 0 else 1) (h1 : s.namesEmptyCq x.sendCq c1)
    (h2 : s.namesEmptyCq x.recvCq c2) (hsrq : ∀ g, x.srq = some g → ∃ r, s.names .srq g r) :
    ∃ m l, Runs (modifyQpProg s.me.op) (s.beginCmd .modifyQp)
        (State.ended { s with
          qps := assocSet s.qps q y.emptied, mem := m, bus := l, fw := rest, quiet := quietAfter .reset x.qpn s.quiet }
          { status := some .ok, fwStatus := some 0, portFwStatus := more.head?.map (·.status) })
      ∧ (s.setBus l).calls = (if portCall s.cfg y cur .reset = 0 then [] else [.closeIb y.port])
          ++ .modifyQp .any2rst x.qpn (some (contextImage s.cfg x .any2rst .reset s.me.op)) :: s.calls
      ∧ (Memory.wf s.mem = true → ∀ p ∈ s.recsOf [x.sqDbRec, x.rqDbRec], (s.setMem m).memRead (s.recAddr p) 4 = 0)
      ∧ ∀ b, (∀ p ∈ s.recsOf [x.sqDbRec, x.rqDbRec], Outside b (s.recAddr p, 4)) → memGet m b = memGet s.mem b := by
  have hport := State.called_calls (s.modified q x .any2rst cur .reset (more ++ rest)) (portCallOf (portCall s.cfg y cur .reset) y.port) rest
  obtain ⟨b, hb⟩ := s.modified_called q x .any2rst cur .reset (more ++ rest) rest (portCallOf (portCall s.cfg y cur .reset) y.port)
  rw [State.modified_calls, portCallOf_reset, hb] at hport
  subst hy
  obtain ⟨m, l, hrun, hcalls, hrecs, hmem⟩ := runs_resetCleanup_end (i := .modifyQp) (q := q) (x := x.commit cur .reset s.me.op)
    (r := { fwStatus := some 0, portFwStatus := more.head?.map (·.status) }) (out := (more.head?.map (·.out)).getD a.out) (c1 := c1)
    (c2 := c2) (st := .ok)
    (s := { s with
      qps := assocSet s.qps q (x.commit cur .reset s.me.op), bus := b, fw := rest, quiet := quietAfter .reset x.qpn s.quiet })
    hs.1.2.2 (assocGet_assocSet_self ..) h1 h2 hsrq
  refine ⟨m, l, ?_, hcalls.trans hport, hrecs, hmem⟩
  rw [runs_modify_commit hs hn hq he hcur hnew rfl hfw hstatus, if_pos rfl]
  obtain ⟨-, -, hfatal⟩ := hs
  rw [runs_portCalls (s := s.modified q x .any2rst cur .reset (more ++ rest)) (x := x.commit cur .reset s.me.op)
    (assocGet_assocSet_self ..) hfatal rfl rfl hmore rfl, show (s.modified q x .any2rst cur .reset (more ++ rest)).cfg = s.cfg from rfl, hb]
  simpa only [State.setQp, State.setMem, State.setBus, assocSet_assocSet] using hrun

/-- Settles O28: the run of `runs_modify_reset`, read field by field. -/
theorem modifyQpReset : Obligations.ModifyQpReset := by
  intro s op q c1 c2 x y cur a more rest hs hop hn hq he hcur hnew hy hfw hstatus hmore h1 h2 hsrq hwf
  subst hop
  obtain ⟨m, l, hrun, hcalls, hrecs, hmem⟩ := runs_modify_reset hs hn hq he hcur hnew hy hfw hstatus hmore h1 h2 hsrq
  refine ⟨_, hs.runCmd hrun, ?_, fun p hp => ?_, hcalls, hrecs hwf, hmem, rfl, rfl⟩
  · subst hy
    rw [← Qp.commit_reset_emptied]
    exact assocGet_assocSet_self ..
  · exact assocGet_assocSet_ne _ _ hp

end Sys2Proof.Machine
end

section
/-! SUPPORT. The references of a QP to its CQs and its SRQ (R349): what a create's attaches and a destroy's detaches do. -/

namespace Sys2Proof.Machine

open Sys2Proof

/-- The `attach` count of the SRQ that a handle names, if one, changed. -/
def State.bumpSrq (s : State) (h : Option Handle) (f : Nat → Nat) : State :=
  match h.bind (s.lookup .srq) with
  | some r => s.bumpAttach .srq r f
  | none => s

/-- The `attach` counts of two CQs, each for itself, and of the SRQ that a handle names, changed. -/
def State.bumpRefs (s : State) (c1 c2 : Nat) (h : Option Handle) (f : Nat → Nat) : State :=
  ((s.bumpAttach .cq c1 f).bumpAttach .cq c2 f).bumpSrq h f

theorem State.bumpAttach_frame (s : State) (k : Kind) (o : Nat) (f : Nat → Nat) :
    s.bumpAttach k o f = { s with cqs := (s.bumpAttach k o f).cqs, srqs := (s.bumpAttach k o f).srqs } := by
  ext1 <;> simp

theorem State.bumpSrq_frame (s : State) (h : Option Handle) (f : Nat → Nat) :
    s.bumpSrq h f = { s with srqs := (s.bumpSrq h f).srqs } := by
  unfold State.bumpSrq
  split
  · ext1 <;> simp
  · rfl

theorem State.bumpRefs_frame (s : State) (c1 c2 : Nat) (h : Option Handle) (f : Nat → Nat) :
    s.bumpRefs c1 c2 h f = { s with cqs := (s.bumpRefs c1 c2 h f).cqs, srqs := (s.bumpRefs c1 c2 h f).srqs } := by
  unfold State.bumpRefs
  rw [State.bumpSrq_frame, State.bumpAttach_frame, State.bumpAttach_frame s]

theorem State.bumpSrq_srqOf (s : State) (h : Option Handle) (f : Nat → Nat) (r : Nat) : (s.bumpSrq h f).srq? r =
    (s.srq? r).map fun z => if h.bind (s.lookup .srq) = some r then { z with attach := f z.attach } else z := by
  unfold State.bumpSrq
  split
  · rename_i p hp
    rw [State.bumpAttach_srq_srqOf, hp]
    simp only [Option.some.injEq, eq_comm]
  · rename_i hnone
    simp [hnone]

theorem State.bumpRefs_srqOf (s : State) (c1 c2 : Nat) (h : Option Handle) (f : Nat → Nat) (r : Nat) :
    (s.bumpRefs c1 c2 h f).srq? r =
      (s.srq? r).map fun z => if h.bind (s.lookup .srq) = some r then { z with attach := f z.attach } else z := by
  have hlookup : ((s.bumpAttach .cq c1 f).bumpAttach .cq c2 f).lookup .srq = s.lookup .srq := funext fun g => by simp
  rw [State.bumpRefs, State.bumpSrq_srqOf, hlookup, State.bumpAttach_cq_srqOf, State.bumpAttach_cq_srqOf]

theorem State.bumpRefs_cqOf (s : State) (c1 c2 : Nat) (h : Option Handle) (f : Nat → Nat) (c : Nat) :
    (s.bumpRefs c1 c2 h f).cq? c = (s.cq? c).map fun y =>
      { y with attach := (if c = c2 then f else id) ((if c = c1 then f else id) y.attach) } := by
  have hsrq : ∀ u : State, (u.bumpSrq h f).cq? c = u.cq? c := fun u => by rw [State.bumpSrq_frame]; rfl
  rw [State.bumpRefs, hsrq, State.bumpAttach_cq_cqOf, State.bumpAttach_cq_cqOf, Option.map_map]
  refine Option.map_congr fun y _ => ?_
  simp only [Function.comp_apply]
  split_ifs <;> rfl

/-! ### An agent's record beside the references -/

theorem State.setMe_bumpAttach (s : State) (a : Agent) (k : Kind) (o : Nat) (f : Nat → Nat) :
    (s.setMe a).bumpAttach k o f = (s.bumpAttach k o f).setMe a := by
  cases k <;> simp only [State.bumpAttach, State.setMe_cqOf, State.setMe_srqOf]
  · cases s.cq? o <;> rfl
  · cases s.srq? o <;> rfl

theorem State.setMe_bumpSrq (s : State) (a : Agent) (h : Option Handle) (f : Nat → Nat) :
    (s.setMe a).bumpSrq h f = (s.bumpSrq h f).setMe a := by
  unfold State.bumpSrq
  have hlookup : (s.setMe a).lookup .srq = s.lookup .srq := rfl
  rw [hlookup]
  split
  · exact State.setMe_bumpAttach ..
  · rfl

theorem State.setMe_bumpRefs (s : State) (a : Agent) (c1 c2 : Nat) (h : Option Handle) (f : Nat → Nat) :
    (s.setMe a).bumpRefs c1 c2 h f = (s.bumpRefs c1 c2 h f).setMe a := by
  rw [State.bumpRefs, State.setMe_bumpAttach, State.setMe_bumpAttach, State.setMe_bumpSrq]
  rfl

/-- The attach of the SRQ operand. -/
theorem runs_attachSrqOperand {op : Operands} {gone k : Prog} {s t : State} (hu : s.unlocked)
    (hn : ∀ h, op.srq = some h → ∃ r, s.names .srq h r) :
    Runs (attachSrqOperand op gone k) s t ↔ Runs k (s.bumpSrq op.srq (· + 1)) t := by
  unfold attachSrqOperand State.bumpSrq
  cases hop : op.srq with
  | none => rfl
  | some h =>
    obtain ⟨r, hr, -⟩ := hn h hop
    simp only [Option.bind_some, hr]
    exact runs_attach hr (hu.holder _)

/-- The detach of the SRQ, of a QP that is there. -/
theorem runs_detachSrq {q : Nat} {x : Qp} {k : Prog} {s t : State} (hx : s.qp? q = some x)
    (hn : ∀ h, x.srq = some h → ∃ r, s.names .srq h r) (hl : ∀ k i, s.holder (.shard k i) = none) :
    Runs (detachSrq q k) s t ↔ Runs k (s.bumpSrq x.srq (· - 1)) t := by
  have hh : s.srqHandle q = x.srq := by simp [State.srqHandle, hx]
  unfold detachSrq State.bumpSrq
  rw [runs_ask, hh]
  cases hop : x.srq with
  | none => rfl
  | some h =>
    obtain ⟨r, hr, -⟩ := hn h hop
    simp only [Option.isSome_some, if_true, Nat.one_ne_zero, if_false, Option.bind_some, hr]
    exact runs_detach (hh.trans hop) hr (hl _ _) fun _ => rfl

end Sys2Proof.Machine
end

section
/-! SUPPORT. `CREATE_QP` (R170): its handles are resolved, its records allocated, the QP inserted, its buffer zeroed, its CQs and SRQ
attached. -/

namespace Sys2Proof.Machine

open Sys2Proof

variable {s t : State} {op : Operands}

/-- The state of a `CREATE_QP` of the current agent that has used some handles and taken some doorbell records. -/
def State.creating (s : State) (uses : List Handle) (recs : List Nat) : State :=
  s.setMe { op := s.me.op, cmd := some .createQp, uses := uses, recs := recs }

/-- The handles a `CREATE_QP` names, resolved: they are noted as used. -/
theorem runs_createQp_resolves {c1 c2 : Nat} (hs : s.quietStart) (h1 : s.names .cq op.sendCq c1)
    (h2 : s.names .cq op.recvCq c2) (hsrq : ∀ h, op.srq = some h → ∃ r, s.names .srq h r) :
    ∃ uses, ∀ (e1 e2 : Prog) (k : Prog) (t : State),
      Runs (precond true none <| resolve .cq op.sendCq true e1 fun _ => resolve .cq op.recvCq true e2 fun _ =>
        resolveSrqOperand op k) (s.beginCmd .createQp) t ↔ Runs k (s.creating uses []) t := by
  obtain ⟨⟨-, -, hu⟩, hstarted, hfatal⟩ := hs
  have hbegin : s.beginCmd .createQp = s.creating [] [] := rfl
  have huse : ∀ uses h, (s.creating uses []).noteUse true h = s.creating (h :: uses) [] := fun uses h => by
    simp [State.noteUse, State.creating]
  have hresolve : ∀ (kind : Kind) (h : Handle) (o : Nat) (uses : List Handle) (e : Prog) (k : Nat → Prog) (t : State), s.names kind h o →
      (Runs (resolve kind h true e k) (s.creating uses []) t ↔ Runs (k o) (s.creating (h :: uses) []) t) := by
    intro kind h o uses e k t hn
    rw [runs_resolve_found (s := s.creating uses []) (by simpa [State.creating] using hn.1) hn.2 (fun _ => by simp [State.creating])
      (State.unlocked.holder hu _), huse]
  refine ⟨op.srq.toList ++ [op.recvCq, op.sendCq], fun e1 e2 k t => ?_⟩
  rw [hbegin, runs_precond (s := s.creating [] []) hstarted (fun h => absurd h (by simp [State.creating, hfatal])),
    hresolve _ _ _ _ _ _ _ h1, hresolve _ _ _ _ _ _ _ h2, resolveSrqOperand]
  cases hsome : op.srq with
  | none => rfl
  | some h =>
    obtain ⟨r, hr⟩ := hsrq h hsome
    exact hresolve _ _ _ _ _ _ _ hr

/-! ### The insert (R344) -/

theorem qpGeometry_congr {s u : State} (hcfg : u.cfg = s.cfg) (hmode : u.mode = s.mode) (op : Operands) :
    qpGeometry op u = qpGeometry op s := by
  simp only [qpGeometry, hcfg, hmode]

theorem createQpBad_congr {s u : State} (hcfg : u.cfg = s.cfg) (hmode : u.mode = s.mode) (op : Operands) :
    createQpBad op u = createQpBad op s := by
  simp only [createQpBad, qpGeometry_congr hcfg hmode, hcfg]

/-- The buffer of a QP of a geometry. -/
def qpBuffer (op : Operands) (g : QpGeometry) : Nat × Nat := (op.bufBase.toNat, g.sendWqeOffset + g.sqCapacity * 2 ^ g.sqShift)

theorem createQpBuf_eq (op : Operands) (s : State) : createQpBuf op s = qpBuffer op (qpGeometry op s) := by
  rw [createQpBuf, qpBuffer, Nat.shiftLeft_eq]

/-- The QP that a create of a geometry makes. -/
def madeQp (op : Operands) (g : QpGeometry) (self : Handle) (recs : List Nat) : Qp :=
  { self, qpn := op.qpn, transport := op.transport, state := .reset, pd := op.pd, sendCq := op.sendCq, recvCq := op.recvCq
    srq := op.srq, sigAll := op.sigAll, maxInline := op.maxInline, bufBase := op.bufBase, sendWqeOffset := g.sendWqeOffset
    sq := freshRing g.sqCapacity g.sqShift op.sqMaxGs.toNat, rq := freshRing g.rqCapacity g.rqShift (rqMaxGsOf op)
    sqDbRec := recs[0]?, rqDbRec := recs[1]? }

theorem madeQp_buffer (op : Operands) (g : QpGeometry) (self : Handle) (recs : List Nat) :
    (madeQp op g self recs).buffer = qpBuffer op g := by
  simp only [Qp.buffer, madeQp, qpBuffer, freshRing, Nat.shiftLeft_eq]

/-- The state in which a create has taken its records and placed its QP; memory and the bus are given. -/
def State.made (s : State) (num : Num24) (x : Qp) (recs : List Nat) (m : List Host.Cell) (l : List BusEvent) : State :=
  { s with
    qpTable := s.qpTable.set (s.indexOf .qp num)
      { gen := (s.entry .qp (s.indexOf .qp num)).gen, occ := some { num, obj := s.nextObj } }
    qps := assocSet s.qps s.nextObj x, nextObj := s.nextObj + 1, mem := m, bus := l
    dbRecUsed := recs.foldl insertSorted s.dbRecUsed, dbRecFree := s.dbRecFree - recs.length }

/-- The state in which a create has taken its records and written them. -/
def State.tookThese (s : State) (recs : List Nat) (m : List Host.Cell) (l : List BusEvent) : State :=
  { s with mem := m, bus := l, dbRecUsed := recs.foldl insertSorted s.dbRecUsed, dbRecFree := s.dbRecFree - recs.length }

theorem inserted_newQp (op : Operands) (s : State) : s.inserted .qp op.qpn (newQp op) =
    { s with
      qpTable := s.qpTable.set (s.indexOf .qp op.qpn)
        { gen := (s.entry .qp (s.indexOf .qp op.qpn)).gen, occ := some { num := op.qpn, obj := s.nextObj } }
      qps := assocSet s.qps s.nextObj (madeQp op (qpGeometry op s) (s.freshHandle .qp op.qpn) s.me.recs)
      nextObj := s.nextObj + 1 } := rfl

theorem runs_createQp_insert {recs : List Nat} {uses : List Handle} {m : List Host.Cell} {l : List BusEvent} {busy : Prog} {k : Nat → Prog}
    {g : QpGeometry} (hu : s.unlocked) (hg : qpGeometry op s = g) (hins : s.canInsert .qp op.qpn) (hb : s.bufferOk (qpBuffer op g) = true) :
    Runs (insert .qp op.qpn (createQpBuf op) (newQp op) busy k) ((s.tookThese recs m l).creating uses recs) t ↔
      Runs (k s.nextObj) ((s.made op.qpn (madeQp op g (s.freshHandle .qp op.qpn) recs) recs m l).creating uses recs) t := by
  obtain ⟨hempty, -, -, hnext⟩ := hins
  have hgeo : qpGeometry op ((s.tookThese recs m l).creating uses recs) = g := (qpGeometry_congr rfl rfl op).trans hg
  have hbuf : createQpBuf op ((s.tookThese recs m l).creating uses recs) = qpBuffer op g := by rw [createQpBuf_eq, hgeo]
  have hrecs : ((s.tookThese recs m l).creating uses recs).me.recs = recs := by simp [State.creating]
  refine (runs_insert (s := (s.tookThese recs m l).creating uses recs) (kind := .qp) (num := op.qpn) (buf := createQpBuf op)
    (make := newQp op) hempty hnext (hbuf ▸ hb) (fun _ => rfl) (State.unlocked.holder hu _)
    (fun _ _ _ => ⟨rfl, rfl, rfl⟩) (fun _ _ _ _ => rfl)).trans (iff_of_eq (congrArg₂ _ ?_ rfl))
  rw [inserted_newQp, hgeo, hrecs]
  rfl

/-! ### The buffer, the attaches, the response -/

theorem zeroQpAct_made {x : Qp} {recs : List Nat} {uses : List Handle} {m : List Host.Cell} {l : List BusEvent} :
    zeroQpAct s.nextObj ((s.made op.qpn x recs m l).creating uses recs) =
      .ok 0 ((s.made op.qpn x recs (memFill m x.buffer.1 x.buffer.2 0) (.fill s.cur x.buffer.1 x.buffer.2 0 :: l)).creating uses recs) := by
  have hx : ((s.made op.qpn x recs m l).creating uses recs).qp? s.nextObj = some x := assocGet_assocSet_self ..
  rw [zeroQpAct, withQp_eq hx]
  rfl

/-- The attaches of a create (R349). -/
theorem runs_createQp_attaches {c1 c2 : Nat} {a : Agent} {e1 e2 e3 k : Prog} (hu : s.unlocked) (h1 : s.names .cq op.sendCq c1)
    (h2 : s.names .cq op.recvCq c2) (hsrq : ∀ h, op.srq = some h → ∃ r, s.names .srq h r) :
    Runs (attach .cq op.sendCq e1 <| attach .cq op.recvCq e2 <| attachSrqOperand op e3 k) (s.setMe a) t ↔
      Runs k ((s.bumpRefs c1 c2 op.srq (· + 1)).setMe a) t := by
  have hnames : ∀ (f : Nat → Nat) (kind : Kind) (h : Handle) (o : Nat), s.names kind h o →
      (((s.setMe a).bumpAttach .cq c1 f).bumpAttach .cq c2 f).names kind h o := by
    intro f kind h o hn
    rw [State.names, State.bumpAttach_lookup, State.bumpAttach_lookup]
    exact hn
  have hunlocked : ∀ f, ((s.setMe a).bumpAttach .cq c1 f).unlocked ∧ (((s.setMe a).bumpAttach .cq c1 f).bumpAttach .cq c2 f).unlocked := by
    intro f
    simp only [State.unlocked, State.bumpAttach_locks]
    exact ⟨hu, hu⟩
  have hrecv : ∀ f, ((s.setMe a).bumpAttach .cq c1 f).lookup .cq op.recvCq = some c2 := fun f => by
    rw [State.bumpAttach_lookup]
    exact h2.1
  rw [runs_attach (s := s.setMe a) h1.1 (State.unlocked.holder hu _), runs_attach (hrecv _) ((hunlocked _).1.holder _),
    runs_attachSrqOperand (hunlocked _).2 fun h hh => (hsrq h hh).imp fun r hr => hnames _ _ _ _ hr,
    ← State.setMe_bumpRefs, State.bumpRefs]

/-- The response of a create (R170). -/
theorem runs_createQp_respond {x : Qp} {q : Nat} {g : QpGeometry} {a : Agent} (hx : s.qp? q = some x) (hg : qpGeometry op s = g)
    (ha : a.op = s.me.op) (hr : a.resp = {}) :
    Runs (eff (fun s => s.setResp fun r =>
      { r with
        qp := some (s.qpSelf q), sqCapacity := some (qpGeometry op s).sqCapacity
        rqCapacity := some (qpGeometry op s).rqCapacity, sqShift := some (qpGeometry op s).sqShift
        rqShift := some (qpGeometry op s).rqShift, sendWqeOffset := some (qpGeometry op s).sendWqeOffset }) <|
      respond .ok none) (s.setMe a) t ↔ t = s.ended
        { status := some .ok, qp := some x.self, sqCapacity := some g.sqCapacity, rqCapacity := some g.rqCapacity
          sqShift := some g.sqShift, rqShift := some g.rqShift, sendWqeOffset := some g.sendWqeOffset } := by
  have hself : (s.setMe a).qpSelf q = x.self := by
    have hx' : (s.setMe a).qp? q = some x := hx
    rw [State.qpSelf, hx']; rfl
  have hgeo : qpGeometry op (s.setMe a) = g := (qpGeometry_congr rfl rfl op).trans hg
  rw [runs_eff, runs_respond, hself, hgeo]
  refine iff_of_eq (congrArg (t = ·) ?_)
  ext1 <;> simp [State.ended, ha, hr]

/-- The end of a create (R170, R349). -/
theorem runs_createQp_end {x : Qp} {q c1 c2 : Nat} {g : QpGeometry} {a : Agent} {e1 e2 e3 : Prog} (hu : s.unlocked)
    (h1 : s.names .cq op.sendCq c1) (h2 : s.names .cq op.recvCq c2) (hsrq : ∀ h, op.srq = some h → ∃ r, s.names .srq h r)
    (hx : s.qp? q = some x) (hg : qpGeometry op s = g) (ha : a.op = s.me.op) (hr : a.resp = {}) :
    Runs (attach .cq op.sendCq e1 <| attach .cq op.recvCq e2 <| attachSrqOperand op e3 <| eff (fun s => s.setResp fun r =>
      { r with
        qp := some (s.qpSelf q), sqCapacity := some (qpGeometry op s).sqCapacity
        rqCapacity := some (qpGeometry op s).rqCapacity, sqShift := some (qpGeometry op s).sqShift
        rqShift := some (qpGeometry op s).rqShift, sendWqeOffset := some (qpGeometry op s).sendWqeOffset }) <|
      respond .ok none) (s.setMe a) t ↔ t = (s.bumpRefs c1 c2 op.srq (· + 1)).ended
        { status := some .ok, qp := some x.self, sqCapacity := some g.sqCapacity, rqCapacity := some g.rqCapacity
          sqShift := some g.sqShift, rqShift := some g.rqShift, sendWqeOffset := some g.sendWqeOffset } := by
  have hframe := s.bumpRefs_frame c1 c2 op.srq (· + 1)
  rw [runs_createQp_attaches hu h1 h2 hsrq]
  exact runs_createQp_respond (by rw [hframe]; exact hx) (by rw [hframe]; exact (qpGeometry_congr rfl rfl op).trans hg)
    (by rw [hframe]; exact ha) hr

/-- A create of two records has no third one. -/
theorem State.takesRecs.index {recs : List Nat} {k r : Nat} (h : s.takesRecs 2 recs) (hr : recs[k]? = some r) : k = 0 ∨ k = 1 := by
  have hk := (List.getElem?_eq_some_iff.mp hr).1
  have hlen : recs.length ≤ 2 := by
    rcases h with ⟨-, rfl⟩ | ⟨-, -, rfl⟩
    · exact Nat.zero_le 2
    · exact (lowestFree_length ..).le
  omega

/-- The run of a `CREATE_QP` that passes its checks: `m` and `l` are memory and the bus after the doorbell records. -/
theorem exec_createQp {g : QpGeometry} {recs : List Nat} {c1 c2 : Nat} (hs : s.quietStart) (hop : s.me.op = op)
    (hg : qpGeometry op s = g) (hbad : createQpBad op s = false) (hb : s.bufferOk (qpBuffer op g) = true)
    (h1 : s.names .cq op.sendCq c1) (h2 : s.names .cq op.recvCq c2) (hsrq : ∀ h, op.srq = some h → ∃ r, s.names .srq h r)
    (hins : s.canInsert .qp op.qpn) (hrecs : s.takesRecs 2 recs) (hwf : Memory.wf s.mem = true) :
    ∃ m l, Memory.wf m = true
      ∧ (∀ b, (∀ r ∈ recs, Outside b (s.recAddr r, 8)) → memGet m b = memGet s.mem b)
      ∧ (∀ (k r : Nat), recs[k]? = some r → (s.setMem m).memRead (s.recAddr r) 4 = 0
          ∧ (s.setMem m).memRead (s.recAddr r + 4) 4 = op.qpn.toNat * 256 + (if k = 0 then 3 else 2) * 32)
      ∧ exec .createQp s = .next (((s.made op.qpn (madeQp op g (s.freshHandle .qp op.qpn) recs) recs
            (memFill m (qpBuffer op g).1 (qpBuffer op g).2 0) l).bumpRefs c1 c2 op.srq (· + 1)).ended
          { status := some .ok, qp := some (s.freshHandle .qp op.qpn), sqCapacity := some g.sqCapacity
            rqCapacity := some g.rqCapacity, sqShift := some g.sqShift, rqShift := some g.rqShift
            sendWqeOffset := some g.sendWqeOffset }) := by
  subst hop
  obtain ⟨uses, hresolves⟩ := runs_createQp_resolves hs h1 h2 hsrq
  have hu : s.unlocked := hs.1.2.2
  obtain ⟨m, l, hm, hout, hwords, halloc⟩ := runs_allocRecs (ag := { op := s.me.op, cmd := some .createQp, uses := uses })
    (spec := [(3, s.me.op.qpn), (2, s.me.op.qpn)]) rfl hrecs hu hwf
  let x := madeQp s.me.op g (s.freshHandle .qp s.me.op.qpn) recs
  have hx : x.buffer = qpBuffer s.me.op g := madeQp_buffer ..
  refine ⟨m, .fill s.cur x.buffer.1 x.buffer.2 0 :: l, hm, hout, fun k r hr => ?_, hs.runCmd ((hresolves ..).mpr ?_)⟩
  · obtain rfl | rfl := hrecs.index hr
    · exact hwords 0 r 3 s.me.op.qpn hr rfl
    · exact hwords 1 r 2 s.me.op.qpn hr rfl
  have hnobad : createQpBad s.me.op (s.creating uses []) = false := (createQpBad_congr rfl rfl _).trans hbad
  have hbuf : createQpBuf s.me.op (s.creating uses []) = qpBuffer s.me.op g := by
    rw [createQpBuf_eq, qpGeometry_congr (s := s) (u := s.creating uses []) rfl rfl, hg]
  have hqp : (s.made s.me.op.qpn x recs (memFill m x.buffer.1 x.buffer.2 0) (.fill s.cur x.buffer.1 x.buffer.2 0 :: l)).qp? s.nextObj
      = some x := assocGet_assocSet_self ..
  rw [runs_ask, hnobad, if_neg Bool.false_ne_true, if_neg Nat.zero_ne_one, runs_guard, hbuf]
  refine ⟨hb, (halloc ..).mpr ((runs_createQp_insert hu hg hins hb).mpr ((runs_act_ok zeroQpAct_made).mpr ?_))⟩
  rw [← hx]
  exact (runs_createQp_end (q := s.nextObj) (a := { op := s.me.op, cmd := some .createQp, uses := uses, recs := recs })
    (s := s.made s.me.op.qpn x recs (memFill m x.buffer.1 x.buffer.2 0) (.fill s.cur x.buffer.1 x.buffer.2 0 :: l))
    hu h1 h2 hsrq hqp ((qpGeometry_congr rfl rfl _).trans hg) rfl rfl).mpr rfl

/-- A field that lies outside a fill reads as before it. -/
theorem memRead_memFill_outside (s : State) {m : List Host.Cell} {a n b k : Nat} (v : Byte) (h : b + k ≤ a ∨ a + n ≤ b) :
    (s.setMem (memFill m a n v)).memRead b k = (s.setMem m).memRead b k :=
  congrArg beNat (memGetBytes_congr _ _ _ _ fun c hc hc' => memGet_memFill_outside m a n v c (by omega))

/-- Settles O23: the run of `exec_createQp`, read field by field; of memory, the fill leaves the doorbell records alone. -/
theorem createQp : Obligations.CreateQp := by
  intro s op g recs c1 c2 hs hop hg hbad hb h1 h2 hsrq hins hrecs hwf hdisjoint
  obtain ⟨m, l, hm, hout, hwords, hexec⟩ := exec_createQp hs hop hg hbad hb h1 h2 hsrq hins hrecs hwf
  refine ⟨_, hexec, ?_⟩
  generalize hv : s.made _ _ _ _ _ = v
  have hC := v.bumpRefs_cqOf c1 c2 op.srq (· + 1)
  have hR := v.bumpRefs_srqOf c1 c2 op.srq (· + 1)
  rw [State.bumpRefs_frame]
  generalize hcq : (v.bumpRefs c1 c2 op.srq (· + 1)).cqs = C
  generalize hsq : (v.bumpRefs c1 c2 op.srq (· + 1)).srqs = R
  simp only [State.cq?, State.srq?, hcq, hsq] at hC hR
  subst hv
  refine ⟨lookup_inserted hins rfl rfl, assocGet_assocSet_self .., fun q hq => assocGet_assocSet_ne _ _ hq, fun c x hx => ?_,
    fun r x hx => ?_, fun b hb hb' => memGet_memFill_inside _ _ _ _ _ hm ⟨hb, hb'⟩, fun k r hr => ?_, fun b hb hb' => ?_, rfl, rfl⟩
  · refine (hC c).trans ((congrArg _ hx).trans ?_)
    split_ifs <;> rfl
  · refine (hR r).trans ((congrArg _ hx).trans ?_)
    split_ifs with hsome hnone hnone
    · rfl
    · exact absurd hsome hnone
    · exact absurd hnone hsome
    · rfl
  · obtain ⟨hzero, hword⟩ := hwords k r hr
    have hapart := hdisjoint r (List.mem_of_getElem? hr)
    exact ⟨(memRead_memFill_outside s 0 (by simp only [qpBuffer]; omega)).trans hzero,
      (memRead_memFill_outside s 0 (by simp only [qpBuffer]; omega)).trans hword⟩
  · exact (memGet_memFill_outside _ _ _ _ _ hb).trans (hout b hb')

end Sys2Proof.Machine
end

section
/-! SUPPORT. The ring of a CQ as a sequence of slots: where they are, which CQEs of it wait, and what a write to one slot leaves of the
others. -/

namespace Sys2Proof.Machine

open Sys2Proof

/-- The bytes of the CQE slot `j` after the consumer index. -/
def Cq.cqeIn (y : Cq) (m : List Host.Cell) (j : Nat) : List Byte := memGetBytes m (y.slotAfter j) 32

/-- A ring of a power of two of slots, not more than the consumer index can number (R291). -/
def Cq.pow2 (y : Cq) : Prop := ∃ k, k ≤ 32 ∧ y.capacity = 2 ^ k

variable {s t : State} {y : Cq} {m m' : List Host.Cell}

theorem Cq.pow2.pos (hy : y.pow2) : 0 < y.capacity := by
  obtain ⟨k, -, hk⟩ := hy
  exact hk ▸ Nat.two_pow_pos k

theorem Cq.pow2.slotAfter (hy : y.pow2) (j : Nat) :
    y.slotAfter j = y.bufBase.toNat + 32 * ((y.consIndex.toNat + j) % y.capacity) := by
  obtain ⟨k, hk, hcap⟩ := hy
  have hdvd : y.capacity ∣ 2 ^ 32 := hcap ▸ Nat.pow_dvd_pow 2 hk
  rw [Cq.slotAfter, Cq.slotAddr, BitVec.toNat_add, BitVec.toNat_ofNat, Nat.add_mod_mod, Nat.mod_mod_of_dvd _ hdvd]

theorem Cq.pow2.slotAfter_bounds (hy : y.pow2) (j : Nat) :
    y.bufBase.toNat ≤ y.slotAfter j ∧ y.slotAfter j + 32 ≤ y.bufBase.toNat + 32 * y.capacity := by
  have hlt := Nat.mod_lt (y.consIndex.toNat + j) hy.pos
  rw [hy.slotAfter]
  omega

theorem Cq.pow2.slotAfter_apart (hy : y.pow2) {i j : Nat} (hi : i < y.capacity) (hj : j < y.capacity) (hne : i ≠ j) :
    y.slotAfter i + 32 ≤ y.slotAfter j ∨ y.slotAfter j + 32 ≤ y.slotAfter i := by
  have hmod : (y.consIndex.toNat + i) % y.capacity ≠ (y.consIndex.toNat + j) % y.capacity := fun h =>
    hne (by simpa [Nat.ModEq, Nat.mod_eq_of_lt hi, Nat.mod_eq_of_lt hj] using Nat.ModEq.add_left_cancel' y.consIndex.toNat h)
  rw [hy.slotAfter, hy.slotAfter]
  omega

theorem Cq.pow2.slotAfter_capacity (hy : y.pow2) : y.slotAfter y.capacity = y.slotAfter 0 := by
  rw [hy.slotAfter, hy.slotAfter, Nat.add_mod_right, Nat.add_zero]

/-- A byte of a slot is in the buffer. -/
theorem Cq.pow2.not_outside (hy : y.pow2) {j b : Nat} (h : y.slotAfter j ≤ b) (h' : b < y.slotAfter j + 32) : ¬ Outside b y.buffer := by
  obtain ⟨hlo, hhi⟩ := hy.slotAfter_bounds j
  simp only [Outside, Cq.buffer]
  omega

/-- The slots after a consumer index that has moved on. -/
theorem Cq.slotAfter_advance {z : Cq} {n : Nat} (hcons : z.consIndex = y.consIndex + BitVec.ofNat 32 n)
    (hbase : z.bufBase = y.bufBase) (hcap : z.capacity = y.capacity) (j : Nat) : z.slotAfter j = y.slotAfter (n + j) := by
  rw [Cq.slotAfter, Cq.slotAfter, Cq.slotAddr, Cq.slotAddr, hcons, hbase, hcap, BitVec.add_assoc, ← BitVec.ofNat_add]

/-! ### A slot and the rest of memory -/

theorem Cq.cqeIn_congr {j : Nat} (h : ∀ b, y.slotAfter j ≤ b → b < y.slotAfter j + 32 → memGet m' b = memGet m b) :
    y.cqeIn m' j = y.cqeIn m j :=
  memGetBytes_congr _ _ _ _ h

/-- A write inside one slot leaves the others. -/
theorem Cq.pow2.cqeIn_put_ne (hy : y.pow2) {i j o : Nat} {bs : List Byte} (hi : i < y.capacity) (hj : j < y.capacity) (hne : i ≠ j)
    (hlen : o + bs.length ≤ 32) : y.cqeIn (memPutBytes m (y.slotAfter j + o) bs) i = y.cqeIn m i := by
  have hapart := hy.slotAfter_apart hi hj hne
  exact Cq.cqeIn_congr fun b hb hb' => memGet_memPutBytes_outside _ _ _ _ (by omega)

/-- A write inside one slot leaves what is outside the buffer. -/
theorem Cq.pow2.put_outside (hy : y.pow2) {j o b : Nat} {bs : List Byte} (hlen : o + bs.length ≤ 32) (hb : Outside b y.buffer) :
    memGet (memPutBytes m (y.slotAfter j + o) bs) b = memGet m b := by
  obtain ⟨hlo, hhi⟩ := hy.slotAfter_bounds j
  refine memGet_memPutBytes_outside _ _ _ _ ?_
  simp only [Outside, Cq.buffer] at hb
  omega

theorem memGetBytes_getElem? {m : List Host.Cell} {n i : Nat} :
    ∀ {a : Nat}, i < n → (memGetBytes m a n)[i]? = some (memGet m (a + i)) := by
  induction n generalizing i with
  | zero => exact fun h => absurd h (Nat.not_lt_zero i)
  | succ n ih =>
    intro a h
    cases i with
    | zero => rfl
    | succ i =>
      rw [memGetBytes, List.getElem?_cons_succ, ih (by omega), Nat.add_right_comm, Nat.add_assoc]

/-- A byte of a CQE. -/
theorem memGetBytes_getD {m : List Host.Cell} {a n i : Nat} (h : i < n) : (memGetBytes m a n).getD i 0 = memGet m (a + i) := by
  rw [List.getD_eq_getElem?_getD, memGetBytes_getElem? h, Option.getD_some]

/-- A field of a CQE. -/
theorem memGetBytes_drop_take {m : List Host.Cell} {a n i k : Nat} (h : i + k ≤ n) :
    ((memGetBytes m a n).drop i).take k = memGetBytes m (a + i) k := by
  obtain ⟨j, rfl⟩ := Nat.exists_eq_add_of_le h
  rw [Nat.add_assoc, memGetBytes_add, memGetBytes_add, List.drop_left' (memGetBytes_length ..),
    List.take_left' (memGetBytes_length ..)]

/-! ### The fields of a CQE, by its bytes -/

/-- Is a CQE, given by its bytes, the hardware's (R122)? -/
def isHwCqe (e : List Byte) : Bool := (e.getD 0x1F 0).getLsbD 7

theorem isHwCqe_cqe (s : State) (a : Nat) : isHwCqe (memGetBytes s.mem a 32) = s.cqeHwOwned a := by
  rw [isHwCqe, memGetBytes_getD (by decide)]
  rfl

theorem cqeBytesQpn_cqe (s : State) (a : Nat) : cqeBytesQpn (memGetBytes s.mem a 32) = s.cqeQpn a := by
  have htake : (memGetBytes s.mem a 32).take 4 = memGetBytes s.mem a 4 := memGetBytes_drop_take (i := 0) (by decide)
  rw [cqeBytesQpn, htake, State.cqeQpn, State.cqeWord, State.memRead, Nat.add_zero, BitVec.setWidth_ofNat_of_le (by decide)]

theorem isSendCqe_cqe (s : State) (a : Nat) :
    isSendCqe ((memGetBytes s.mem a 32).getD 0x1C 0) ((memGetBytes s.mem a 32).getD 0x1D 0) = s.cqeIsSend a := by
  rw [memGetBytes_getD (by decide), memGetBytes_getD (by decide)]
  rfl

theorem cqeWqe_cqe (s : State) (a : Nat) :
    beNat (((memGetBytes s.mem a 32).drop 0x18).take 4) = (s.cqeWord a 0x18).toNat := by
  have hlt := beNat_lt (memGetBytes s.mem (a + 0x18) 4)
  rw [memGetBytes_length] at hlt
  rw [memGetBytes_drop_take (by decide), State.cqeWord, State.memRead, BitVec.toNat_ofNat,
    Nat.mod_eq_of_lt (hlt.trans_eq (by norm_num))]

/-! ### The CQEs that wait -/

/-- The scan finds the first slot that is the hardware's. -/
theorem scanOwned_spec (s : State) (y : Cq) (n : Nat) : ∀ i : Word, scanOwned s y i n ≤ n
    ∧ (∀ j, j < scanOwned s y i n → s.cqeHwOwned (y.slotAddr (i + BitVec.ofNat 32 j).toNat) = false)
    ∧ (scanOwned s y i n < n → s.cqeHwOwned (y.slotAddr (i + BitVec.ofNat 32 (scanOwned s y i n)).toNat) = true) := by
  have hnext : ∀ (i : Word) j, i + BitVec.ofNat 32 (1 + j) = i + 1 + BitVec.ofNat 32 j := fun i j => by
    rw [BitVec.ofNat_add, ← BitVec.add_assoc]; rfl
  have hhere : ∀ i : Word, i + BitVec.ofNat 32 0 = i := BitVec.add_zero
  induction n with
  | zero => exact fun i => ⟨le_rfl, fun j hj => absurd hj (Nat.not_lt_zero j), fun h => absurd h (Nat.lt_irrefl 0)⟩
  | succ n ih =>
    intro i
    obtain ⟨hle, hsw, hhw⟩ := ih (i + 1)
    rw [scanOwned]
    split_ifs with hi
    · exact ⟨Nat.zero_le _, fun j hj => absurd hj (Nat.not_lt_zero j), fun _ => by rwa [hhere]⟩
    · refine ⟨by omega, fun j hj => ?_, fun h => by rw [hnext]; exact hhw (by omega)⟩
      cases j with
      | zero => rw [hhere]; exact Bool.eq_false_of_not_eq_true hi
      | succ j => rw [Nat.add_comm, hnext]; exact hsw j (by omega)

theorem State.cqes_length (s : State) (y : Cq) : (s.cqes y).length = scanOwned s y y.consIndex y.capacity := by
  rw [State.cqes, List.length_map, List.length_range]

theorem State.cqes_eq_map (s : State) (y : Cq) : s.cqes y = (List.range (s.cqes y).length).map (y.cqeIn s.mem) := by
  rw [State.cqes_length]; rfl

theorem State.cqes_length_le (s : State) (y : Cq) : (s.cqes y).length ≤ y.capacity :=
  s.cqes_length y ▸ (scanOwned_spec s y y.capacity y.consIndex).1

theorem State.cqes_software {e : List Byte} (h : e ∈ s.cqes y) : isHwCqe e = false := by
  rw [State.cqes_eq_map, List.mem_map] at h
  obtain ⟨j, hj, rfl⟩ := h
  rw [List.mem_range, State.cqes_length] at hj
  exact (isHwCqe_cqe ..).trans ((scanOwned_spec s y y.capacity y.consIndex).2.1 j hj)

theorem State.cqes_end (h : (s.cqes y).length < y.capacity) : isHwCqe (y.cqeIn s.mem (s.cqes y).length) = true := by
  rw [State.cqes_length] at h ⊢
  exact (isHwCqe_cqe ..).trans ((scanOwned_spec s y y.capacity y.consIndex).2.2 h)

/-- The CQEs that wait are those before the first slot that is the hardware's. -/
theorem State.cqes_eq_of {es : List (List Byte)} (hle : es.length ≤ y.capacity)
    (hes : (List.range es.length).map (y.cqeIn s.mem) = es) (hsw : ∀ e ∈ es, isHwCqe e = false)
    (hend : es.length < y.capacity → isHwCqe (y.cqeIn s.mem es.length) = true) : s.cqes y = es := by
  have hin : ∀ j, j < es.length → isHwCqe (y.cqeIn s.mem j) = false := fun j hj =>
    hsw _ (hes ▸ List.mem_map_of_mem (List.mem_range.mpr hj))
  have hlen : (s.cqes y).length = es.length := by
    rcases Nat.lt_trichotomy (s.cqes y).length es.length with h | h | h
    · exact absurd ((hin _ h).symm.trans (State.cqes_end (h.trans_le hle))) Bool.false_ne_true
    · exact h
    · have hmem : y.cqeIn s.mem es.length ∈ s.cqes y := by
        rw [State.cqes_eq_map]
        exact List.mem_map_of_mem (List.mem_range.mpr h)
      exact absurd ((State.cqes_software hmem).symm.trans (hend (h.trans_le (s.cqes_length_le y)))) Bool.false_ne_true
  rw [State.cqes_eq_map, hlen, hes]

/-- The CQEs that wait depend on the bytes of the buffer only. -/
theorem State.cqes_congr (hy : y.pow2) (h : ∀ b, ¬ Outside b y.buffer → memGet t.mem b = memGet s.mem b) : t.cqes y = s.cqes y := by
  have hin : ∀ j, y.cqeIn t.mem j = y.cqeIn s.mem j := fun j => Cq.cqeIn_congr fun b hb hb' => h b (hy.not_outside hb hb')
  refine State.cqes_eq_of (s.cqes_length_le y) ?_ (fun e he => State.cqes_software he) fun hlt => hin _ ▸ State.cqes_end hlt
  rw [funext hin]
  exact (s.cqes_eq_map y).symm

end Sys2Proof.Machine
end

section
/-! SUPPORT. `CQ_CLEAN` of one CQ (R310): the loop moves the CQEs of other QPs toward the producer and gives the SRQ slots of the
others back; the slots left over at the consumer index become the hardware's. -/

namespace Sys2Proof.Machine

open Sys2Proof

variable {s t : State} {y : Cq} {qpn : Num24} {m m' m1 : List Host.Cell} {c r j nfreed nf : Nat}

/-- The CQEs that a cleaning leaves. -/
def keptCqes (qpn : Num24) (es : List (List Byte)) : List (List Byte) := es.filter fun e => decide (cqeBytesQpn e ≠ qpn)

/-! ### The SRQ slots given back (R376) -/

/-- The SRQs after the slots of receive CQEs have been given back to the SRQ at `r`, 0 for none. -/
def State.srqsFreed (s : State) (srqs : List (Nat × Srq)) (r : Nat) (es : List (List Byte)) : Prop :=
  ∀ o, assocGet srqs o = (s.srq? o).map fun z => if o = r ∧ r ≠ 0 then z.freed es else z

theorem Srq.freed_append (z : Srq) (es es' : List (List Byte)) : z.freed (es ++ es') = (z.freed es').freed es := by
  rw [Srq.freed, List.reverse_append, List.foldl_append]
  rfl

theorem State.srqsFreed_nil (s : State) (r : Nat) : s.srqsFreed s.srqs r [] := fun o => by
  have hid : (fun z : Srq => if o = r ∧ r ≠ 0 then z.freed [] else z) = id := funext fun z => ite_self z
  rw [hid, Option.map_id]
  rfl

/-- Without an SRQ nothing is given back. -/
theorem State.srqsFreed_zero_iff {srqs : List (Nat × Srq)} {es : List (List Byte)} :
    s.srqsFreed srqs 0 es ↔ ∀ o, assocGet srqs o = s.srq? o := by
  have hid : ∀ o, (fun z : Srq => if o = 0 ∧ 0 ≠ 0 then z.freed es else z) = id := fun o => funext fun z => if_neg fun h => h.2 rfl
  simp only [State.srqsFreed, hid, Option.map_id, id]

theorem State.srqsFreed.trans {R R' : List (Nat × Srq)} {es es' : List (List Byte)} {u : State} (h : s.srqsFreed R r es')
    (hu : u.srqs = R) (h' : u.srqsFreed R' r es) : s.srqsFreed R' r (es ++ es') := fun o => by
  rw [h' o, State.srq?, hu, h o, Option.map_map]
  refine Option.map_congr fun z _ => ?_
  simp only [Function.comp_apply]
  split_ifs
  · exact (z.freed_append es es').symm
  · rfl

theorem State.srqsFreed_set {z : Srq} (e : List Byte) (hz : s.srq? r = some z) (hr : r ≠ 0) :
    s.srqsFreed (assocSet s.srqs r (z.freeSlot (beNat ((e.drop 0x18).take 4) >>> z.shift))) r [e] := fun o => by
  by_cases ho : o = r
  · subst ho
    rw [assocGet_assocSet_self, hz, Option.map_some, if_pos ⟨rfl, hr⟩]
    rfl
  · have hid : (fun w : Srq => if o = r ∧ r ≠ 0 then w.freed [e] else w) = id := funext fun w => if_neg fun h => ho h.1
    rw [assocGet_assocSet_ne _ _ ho, hid, Option.map_id]
    rfl

theorem runs_srqFree {idx : Srq → Nat} {k : Prog} {z : Srq} (hz : s.srq? r = some z) (hl : s.holder (.srq r) = none) :
    Runs (srqFree r idx k) s t ↔ Runs k { s with srqs := assocSet s.srqs r (z.freeSlot (idx z)) } t := by
  have hact : srqFreeAct r idx (s.setLocks ((.srq r, s.cur) :: s.locks)) =
      .ok 0 ((s.setLocks ((.srq r, s.cur) :: s.locks)).setSrq r (z.freeSlot (idx z))) := withSrq_eq hz _
  rw [srqFree, runs_acquire, runs_act_ok hact, runs_release_newest (l := s.locks) rfl hl]
  exact and_iff_right hl

/-! ### The test of a CQE -/

/-- The answer of `cleanTestAct`, by the bytes of the CQE. -/
def cleanAnswer (r : Nat) (qpn : Num24) (e : List Byte) : Nat :=
  if cqeBytesQpn e ≠ qpn then 0 else if r ≠ 0 ∧ isRecvOf qpn e = true then 2 + beNat ((e.drop 0x18).take 4) else 1

theorem cleanTestAct_eq (hc : s.cq? c = some y) : cleanTestAct c r qpn j s = .ok (cleanAnswer r qpn (y.cqeIn s.mem j)) s := by
  rw [cleanTestAct, withCq_eq hc, cleanAnswer, isRecvOf, Cq.cqeIn, cqeBytesQpn_cqe, isSendCqe_cqe, cqeWqe_cqe]
  by_cases hq : s.cqeQpn (y.slotAfter j) = qpn
  · simp [hq]
  · simp [hq]

/-- A CQE of another QP is moved by as many slots as have been found of this one: where the memory afterwards is `m`. -/
theorem runs_cleanLoop_kept (hc : s.cq? c = some y) (hy : y.pow2) (hj : j + nfreed < y.capacity) (hwf : Memory.wf s.mem = true)
    (hq : cqeBytesQpn (y.cqeIn s.mem j) ≠ qpn) :
    ∃ m l, y.cqeIn m (j + nfreed) = y.cqeIn s.mem j
      ∧ (∀ i, i < y.capacity → i ≠ j + nfreed → y.cqeIn m i = y.cqeIn s.mem i)
      ∧ (∀ b, Outside b y.buffer → memGet m b = memGet s.mem b) ∧ Memory.wf m = true
      ∧ ∀ k t, Runs (cleanLoop c r qpn (j + 1) nfreed k) s t ↔
          Runs (cleanLoop c r qpn j nfreed k) { s with mem := m, bus := l } t := by
  have hanswer : cleanAnswer r qpn (y.cqeIn s.mem j) = 0 := if_pos hq
  have hloop : ∀ k t, Runs (cleanLoop c r qpn (j + 1) nfreed k) s t ↔ Runs (if nfreed = 0 then cleanLoop c r qpn j nfreed k
      else .act (cleanCopyAct c j nfreed) fun _ => cleanLoop c r qpn j nfreed k) s t := fun k t => by
    rw [cleanLoop, runs_act_ok (cleanTestAct_eq hc), hanswer, if_pos rfl]
  by_cases h0 : nfreed = 0
  · subst h0
    exact ⟨s.mem, s.bus, rfl, fun _ _ _ => rfl, fun _ _ => rfl, hwf, fun k t => (hloop k t).trans (by rw [if_pos rfl])⟩
  · have hlen : (y.cqeIn s.mem j).length = 32 := memGetBytes_length ..
    have hput : y.slotAfter (j + nfreed) = y.slotAfter (j + nfreed) + 0 := rfl
    refine ⟨memPutBytes s.mem (y.slotAfter (j + nfreed)) (y.cqeIn s.mem j),
      .write s.cur (y.slotAfter (j + nfreed)) (y.cqeIn s.mem j) :: s.bus, ?_, fun i hi hne => ?_, fun b hb => ?_,
      memPutBytes_wf _ _ _ hwf, fun k t => (hloop k t).trans ?_⟩
    · have hread := memGetBytes_memPutBytes s.mem (y.slotAfter (j + nfreed)) (y.cqeIn s.mem j) hwf
      rwa [hlen] at hread
    · rw [hput]; exact hy.cqeIn_put_ne hi hj hne (by omega)
    · rw [hput]; exact hy.put_outside (by omega) hb
    · have hcopy : cleanCopyAct c j nfreed s = .ok 0 (s.writeBytes (y.slotAfter (j + nfreed)) (y.cqeIn s.mem j)) := by
        rw [cleanCopyAct, withCq_eq hc]
        rfl
      have hwrite : ∀ a bs, s.writeBytes a bs = { s with mem := memPutBytes s.mem a bs, bus := .write s.cur a bs :: s.bus } :=
        fun _ _ => rfl
      rw [if_neg h0, runs_act_ok hcopy, hwrite]

/-- A CQE of the QP is dropped; a receive CQE gives its slot back to the SRQ. -/
theorem runs_cleanLoop_dropped (hc : s.cq? c = some y) (hl : s.holder (.srq r) = none) (hr : r ≠ 0 → ∃ z, s.srq? r = some z)
    (hq : cqeBytesQpn (y.cqeIn s.mem j) = qpn) :
    ∃ R, s.srqsFreed R r ([y.cqeIn s.mem j].filter (isRecvOf qpn))
      ∧ ∀ k t, Runs (cleanLoop c r qpn (j + 1) nfreed k) s t ↔
          Runs (cleanLoop c r qpn j (nfreed + 1) k) { s with srqs := R } t := by
  simp only [cleanLoop, runs_act_ok (cleanTestAct_eq hc)]
  generalize y.cqeIn s.mem j = e at hq ⊢
  by_cases hrecv : isRecvOf qpn e = true
  · by_cases h0 : r = 0
    · subst h0
      have hanswer : cleanAnswer 0 qpn e = 1 := by
        rw [cleanAnswer, if_neg (fun h => h hq), if_neg fun h => h.1 rfl]
      exact ⟨s.srqs, State.srqsFreed_zero_iff.mpr fun _ => rfl, fun k t => by rw [hanswer]; rfl⟩
    · obtain ⟨z, hz⟩ := hr h0
      have hanswer : cleanAnswer r qpn e = 2 + beNat ((e.drop 0x18).take 4) := by
        rw [cleanAnswer, if_neg (fun h => h hq), if_pos ⟨h0, hrecv⟩]
      refine ⟨_, by rw [List.filter_cons_of_pos hrecv]; exact s.srqsFreed_set e hz h0, fun k t => ?_⟩
      rw [hanswer, if_neg (by omega), if_neg (by omega), runs_srqFree hz hl, Nat.add_sub_cancel_left]
  · have hanswer : cleanAnswer r qpn e = 1 := by
      rw [cleanAnswer, if_neg (fun h => h hq), if_neg fun h => hrecv h.2]
    refine ⟨s.srqs, by rw [List.filter_cons_of_neg hrecv]; exact s.srqsFreed_nil r, fun k t => by rw [hanswer]; rfl⟩

/-! ### The loop -/

/-- What the loop does to the ring while `todo` CQEs are left and `nfreed` slots are free above them: the CQEs that stay are the
newest, `nf` slots are free below them. -/
structure Cq.Swept (y : Cq) (qpn : Num24) (m m' : List Host.Cell) (todo nfreed nf : Nat) : Prop where
  count : nf + (keptCqes qpn ((List.range todo).map (y.cqeIn m))).length = todo + nfreed
  kept : (List.range (keptCqes qpn ((List.range todo).map (y.cqeIn m))).length).map (fun j => y.cqeIn m' (nf + j)) =
    keptCqes qpn ((List.range todo).map (y.cqeIn m))
  above : ∀ j, todo + nfreed ≤ j → j < y.capacity → y.cqeIn m' j = y.cqeIn m j
  outside : ∀ b, Outside b y.buffer → memGet m' b = memGet m b
  wf : Memory.wf m' = true

theorem range_succ_map {α : Type} (f : Nat → α) (n : Nat) : (List.range (n + 1)).map f = (List.range n).map f ++ [f n] := by
  rw [List.range_succ, List.map_append]; rfl

theorem keptCqes_append (qpn : Num24) (es es' : List (List Byte)) : keptCqes qpn (es ++ es') = keptCqes qpn es ++ keptCqes qpn es' :=
  List.filter_append ..

theorem Cq.Swept.zero (hwf : Memory.wf m = true) : y.Swept qpn m m 0 nfreed nfreed :=
  ⟨(Nat.zero_add nfreed).symm, rfl, fun _ _ _ => rfl, fun _ _ => rfl, hwf⟩

theorem Cq.Swept.dropped (hq : cqeBytesQpn (y.cqeIn m j) = qpn) (h : y.Swept qpn m m' j (nfreed + 1) nf) :
    y.Swept qpn m m' (j + 1) nfreed nf := by
  have hnone : keptCqes qpn [y.cqeIn m j] = [] := by simp [keptCqes, hq]
  have hes : keptCqes qpn ((List.range (j + 1)).map (y.cqeIn m)) = keptCqes qpn ((List.range j).map (y.cqeIn m)) := by
    rw [range_succ_map, keptCqes_append, hnone, List.append_nil]
  obtain ⟨hcount, hkept, habove, houtside, hwf⟩ := h
  exact ⟨by rw [hes]; omega, by rwa [hes], fun i hi hi' => habove i (by omega) hi', houtside, hwf⟩

theorem Cq.Swept.moved (hj : j + nfreed < y.capacity) (hq : cqeBytesQpn (y.cqeIn m j) ≠ qpn)
    (hcopy : y.cqeIn m1 (j + nfreed) = y.cqeIn m j)
    (hothers : ∀ i, i < y.capacity → i ≠ j + nfreed → y.cqeIn m1 i = y.cqeIn m i)
    (hout : ∀ b, Outside b y.buffer → memGet m1 b = memGet m b) (h : y.Swept qpn m1 m' j nfreed nf) :
    y.Swept qpn m m' (j + 1) nfreed nf := by
  have hlower : (List.range j).map (y.cqeIn m1) = (List.range j).map (y.cqeIn m) :=
    List.map_congr_left fun i hi => hothers i (by have := List.mem_range.mp hi; omega) (by have := List.mem_range.mp hi; omega)
  have hone : keptCqes qpn [y.cqeIn m j] = [y.cqeIn m j] := by simp [keptCqes, hq]
  have hes : keptCqes qpn ((List.range (j + 1)).map (y.cqeIn m)) =
      keptCqes qpn ((List.range j).map (y.cqeIn m)) ++ [y.cqeIn m j] := by
    rw [range_succ_map, keptCqes_append, hone]
  obtain ⟨hcount, hkept, habove, houtside, hwf⟩ := h
  rw [hlower] at hcount hkept
  refine ⟨?_, ?_, fun i hi hi' => ?_, fun b hb => (houtside b hb).trans (hout b hb), hwf⟩
  · rw [hes, List.length_append, List.length_singleton]
    omega
  · rw [hes, List.length_append, List.length_singleton, range_succ_map, hkept, hcount, habove _ le_rfl hj, hcopy]
  · rw [habove i (by omega) hi', hothers i hi' (by omega)]

theorem runs_cleanLoop (hy : y.pow2) (todo : Nat) : ∀ (nfreed : Nat) (s : State), s.cq? c = some y → todo + nfreed ≤ y.capacity →
    Memory.wf s.mem = true → s.holder (.srq r) = none → (r ≠ 0 → ∃ z, s.srq? r = some z) →
    ∃ m l R nf, y.Swept qpn s.mem m todo nfreed nf
      ∧ s.srqsFreed R r (((List.range todo).map (y.cqeIn s.mem)).filter (isRecvOf qpn))
      ∧ ∀ k t, Runs (cleanLoop c r qpn todo nfreed k) s t ↔ Runs (k nf) { s with mem := m, bus := l, srqs := R } t := by
  induction todo with
  | zero =>
    intro nfreed s _ _ hwf _ _
    exact ⟨s.mem, s.bus, s.srqs, nfreed, .zero hwf, s.srqsFreed_nil r, fun k t => Iff.rfl⟩
  | succ j ih =>
    intro nfreed s hc hle hwf hl hr
    rw [range_succ_map, List.filter_append]
    by_cases hq : cqeBytesQpn (y.cqeIn s.mem j) = qpn
    · obtain ⟨R1, hfreed1, hrun1⟩ := runs_cleanLoop_dropped (nfreed := nfreed) hc hl hr hq
      have hr1 : r ≠ 0 → ∃ z, assocGet R1 r = some z := fun h0 => by
        obtain ⟨z, hz⟩ := hr h0
        exact ⟨_, (hfreed1 r).trans (congrArg _ hz)⟩
      obtain ⟨m, l, R, nf, hswept, hfreed, hrun⟩ := ih (nfreed + 1) { s with srqs := R1 } hc (by omega) hwf hl hr1
      exact ⟨m, l, R, nf, hswept.dropped hq, hfreed1.trans rfl hfreed, fun k t => (hrun1 k t).trans (hrun k t)⟩
    · obtain ⟨m1, l1, hcopy, hothers, hout, hwf1, hrun1⟩ := runs_cleanLoop_kept (r := r) (nfreed := nfreed) hc hy (by omega) hwf hq
      obtain ⟨m, l, R, nf, hswept, hfreed, hrun⟩ := ih nfreed { s with mem := m1, bus := l1 } hc (by omega) hwf1 hl hr
      have hlower : (List.range j).map (y.cqeIn m1) = (List.range j).map (y.cqeIn s.mem) :=
        List.map_congr_left fun i hi => hothers i (by have := List.mem_range.mp hi; omega) (by have := List.mem_range.mp hi; omega)
      have hnone : [y.cqeIn s.mem j].filter (isRecvOf qpn) = [] := by simp [isRecvOf, hq]
      refine ⟨m, l, R, nf, hswept.moved (by omega) hq hcopy hothers hout, ?_, fun k t => (hrun1 k t).trans (hrun k t)⟩
      rw [hnone, List.append_nil, ← hlower]
      exact hfreed

end Sys2Proof.Machine
end

section
/-! SUPPORT. The end of `CQ_CLEAN` (R310, R311): the slots left over at the consumer index become the hardware's, the consumer index
moves on and is published. -/

namespace Sys2Proof.Machine

open Sys2Proof

variable {s t : State} {y : Cq} {qpn : Num24} {c r : Nat}

/-- The owner byte of a slot, given to the hardware. -/
theorem isHwCqe_given (m : List Host.Cell) (j : Nat) (hwf : Memory.wf m = true) :
    isHwCqe (y.cqeIn (memPutBytes m (y.slotAfter j + 0x1F) (beBytes 1 0x80)) j) = true := by
  have hbyte : memGet (memPutBytes m (y.slotAfter j + 0x1F) (beBytes 1 0x80)) (y.slotAfter j + 0x1F + 0) = 0x80 :=
    memGet_memPutBytes_inside _ _ (beBytes 1 0x80) 0 hwf (by decide)
  rw [isHwCqe, Cq.cqeIn, memGetBytes_getD (by decide)]
  exact congrArg (fun b : Byte => b.getLsbD 7) hbyte

theorem giveSlots_spec (hy : y.pow2) (n : Nat) : ∀ (j : Nat) (s : State), j + n ≤ y.capacity → Memory.wf s.mem = true →
    ∃ m l, giveSlots s y j n = { s with mem := m, bus := l }
      ∧ (∀ i, j ≤ i → i < j + n → isHwCqe (y.cqeIn m i) = true)
      ∧ (∀ i, i < y.capacity → i < j ∨ j + n ≤ i → y.cqeIn m i = y.cqeIn s.mem i)
      ∧ (∀ b, Outside b y.buffer → memGet m b = memGet s.mem b) ∧ Memory.wf m = true := by
  induction n with
  | zero => exact fun j s _ hwf => ⟨s.mem, s.bus, rfl, fun i hi hi' => by omega, fun _ _ _ => rfl, fun _ _ => rfl, hwf⟩
  | succ n ih =>
    intro j s hle hwf
    obtain ⟨m, l, he, hhw, hsame, hout, hm⟩ := ih (j + 1) (s.memWrite (y.slotAfter j + 0x1F) 1 0x80) (by omega)
      (memPutBytes_wf _ _ _ hwf)
    refine ⟨m, l, he, fun i hi hi' => ?_, fun i hi hor => ?_, fun b hb => ?_, hm⟩
    · by_cases hij : i = j
      · subst hij
        rw [hsame i (by omega) (.inl (by omega))]
        exact isHwCqe_given _ _ hwf
      · exact hhw i (by omega) (by omega)
    · rw [hsame i hi (by omega)]
      exact hy.cqeIn_put_ne hi (by omega) (by omega) (by decide)
    · exact (hout b hb).trans (hy.put_outside (by decide) hb)

/-- The publication of a consumer index (R260): what it writes is the word 0 of the CQ's record, if anything. -/
theorem ciPublishAct_writes (n : Nat) (hc : s.cq? c = some y) :
    ∃ v z, ciPublishAct c n s = .ok 0 v ∧ z = { y with devCons := z.devCons }
      ∧ Writes (fun b => ∃ p ∈ s.recsOf [y.setCiRec], InRange (s.recAddr p) 4 b) (s.setCq c z) v := by
  rw [ciPublishAct, withCq_eq hc]
  cases hm : s.mode with
  | legacy => exact ⟨_, y.tookInc n, rfl, rfl, writes_ring ..⟩
  | memfree =>
    refine ⟨_, y.tookIndex y.consIndex, rfl, rfl, (writes_wmb _).trans ((writes_writeRec0 _ y.setCiRec _).mono ?_)⟩
    rintro b ⟨p, hp, hb⟩
    exact ⟨p, by simp [State.recsOf, hm, hp], hb⟩

/-! ### The end of a cleaning -/

/-- The state after the cleaning of the CQ `y` at `c` of the CQEs of a QP number, the SRQ at `r` (0 for none) taking back the slots of
its receive CQEs. -/
structure State.CleanedOne (s v : State) (c r : Nat) (y : Cq) (qpn : Num24) : Prop where
  frame : v = { s with cqs := v.cqs, srqs := v.srqs, mem := v.mem, bus := v.bus }
  others : ∀ d, d ≠ c → v.cq? d = s.cq? d
  cq : ∃ z, v.cq? c = some z ∧ z = { y with consIndex := z.consIndex, devCons := z.devCons }
    ∧ v.cqes z = keptCqes qpn (s.cqes y)
    ∧ z.consIndex + BitVec.ofNat 32 (v.cqes z).length = y.consIndex + BitVec.ofNat 32 (s.cqes y).length
  srqs : s.srqsFreed v.srqs r ((s.cqes y).filter (isRecvOf qpn))
  outside : ∀ b, Outside b y.buffer → (∀ p ∈ s.recsOf [y.setCiRec], Outside b (s.recAddr p, 4)) → memGet v.mem b = memGet s.mem b
  wf : Memory.wf v.mem = true

/-- The ring after a cleaning: `nf` slots at the consumer index are the hardware's, the CQEs that stay come after them. -/
theorem cqes_cleaned {m m' : List Host.Cell} {nf : Nat} {z : Cq} (hy : y.pow2) (h : y.Swept qpn s.mem m (s.cqes y).length 0 nf)
    (hz : z = { y with consIndex := y.consIndex + BitVec.ofNat 32 nf, devCons := z.devCons })
    (hgiven : ∀ i, i < nf → isHwCqe (y.cqeIn m' i) = true)
    (hsame : ∀ i, i < y.capacity → nf ≤ i → y.cqeIn m' i = y.cqeIn m i) (hmem : t.mem = m') :
    t.cqes z = keptCqes qpn (s.cqes y) ∧ nf + (keptCqes qpn (s.cqes y)).length = (s.cqes y).length := by
  obtain ⟨hcount, hkept, habove, -, -⟩ := h
  rw [← State.cqes_eq_map, Nat.add_zero] at hcount
  rw [← State.cqes_eq_map] at hkept
  have hle := s.cqes_length_le y
  have hcap : z.capacity = y.capacity := by rw [hz]
  have hslot : ∀ j, z.cqeIn t.mem j = y.cqeIn m' (nf + j) := fun j => by
    rw [Cq.cqeIn, Cq.cqeIn, Cq.slotAfter_advance (by rw [hz]) (by rw [hz]) hcap, hmem]
  refine ⟨State.cqes_eq_of (by omega) ?_ (fun e he => State.cqes_software (List.mem_of_mem_filter he)) fun hlt => ?_, hcount⟩
  · refine Eq.trans (List.map_congr_left fun j hj => ?_) hkept
    have hj' := List.mem_range.mp hj
    rw [hslot, hsame _ (by omega) (by omega)]
  · rw [hslot, hcount]
    rcases hle.lt_or_eq with hlt' | heq
    · rw [hsame _ hlt' (by omega), habove _ (by omega) hlt']
      exact State.cqes_end hlt'
    · have hwrap : y.cqeIn m' (s.cqes y).length = y.cqeIn m' 0 := by rw [heq, Cq.cqeIn, hy.slotAfter_capacity, Cq.cqeIn]
      rw [hwrap]
      exact hgiven 0 (by omega)

/-- The steps of `cqCleanOn` after its loop has found `nf` CQEs. -/
def cleanEnd (c nf : Nat) (k : Prog) : Prog :=
  if nf = 0 then release (.cq c) k
  else .act (giveSlotsAct c nf) fun _ => eff State.wmb <| .act (advanceConsAct c nf) fun _ => ciPublish c nf <| release (.cq c) k

theorem cqCleanOn_eq (c r : Nat) (qpn : Num24) (k : Prog) : cqCleanOn c r qpn k =
    acquire (.cq c) (.act (cleanScanAct c) fun n => eff State.rmb <| cleanLoop c r qpn n 0 fun nf => cleanEnd c nf k) := rfl

theorem giveSlotsAct_eq {n : Nat} (hc : s.cq? c = some y) : giveSlotsAct c n s = .ok 0 (giveSlots s y 0 n) := withCq_eq hc _

theorem advanceConsAct_eq {n : Nat} (hc : s.cq? c = some y) :
    advanceConsAct c n s = .ok 0 (s.setCq c { y with consIndex := y.consIndex + BitVec.ofNat 32 n }) := withCq_eq hc _

/-- The consumer index moved on and published (R310, R260), and the CQ's lock released. -/
theorem runs_advance_publish {n : Nat} {rest : List (Lock × Nat)} (hc : s.cq? c = some y) (hn : n ≠ 0)
    (hlocks : s.locks = (.cq c, s.cur) :: rest) (hrest : holderIn rest (.cq c) = none) :
    ∃ m l z, z = { y with consIndex := y.consIndex + BitVec.ofNat 32 n, devCons := z.devCons }
      ∧ (Memory.wf s.mem = true → Memory.wf m = true)
      ∧ (∀ b, (∀ p ∈ s.recsOf [y.setCiRec], Outside b (s.recAddr p, 4)) → memGet m b = memGet s.mem b)
      ∧ ∀ k t, Runs (.act (advanceConsAct c n) fun _ => ciPublish c n <| release (.cq c) k) s t ↔
          Runs k { s with locks := rest, cqs := assocSet s.cqs c z, mem := m, bus := l } t := by
  have hadvanced : (s.setCq c { y with consIndex := y.consIndex + BitVec.ofNat 32 n }).cq? c =
      some { y with consIndex := y.consIndex + BitVec.ofNat 32 n } := assocGet_assocSet_self ..
  obtain ⟨v, z, hact, hz, m, l, hv, hm, hsame⟩ := ciPublishAct_writes n hadvanced
  refine ⟨m, l, z, hz, hm, fun b hb => hsame b fun ⟨p, hp, hp'⟩ => not_inRange.mpr (hb p hp) hp', fun k t => ?_⟩
  have hv' : v = { s with cqs := assocSet s.cqs c z, mem := m, bus := l } := by
    rw [hv, State.setCq, State.setCq, assocSet_assocSet]
    rfl
  have hnewest : v.locks = (.cq c, v.cur) :: rest := by
    rw [hv']
    exact hlocks
  rw [runs_act_ok (advanceConsAct_eq hc), ciPublish, if_neg hn, runs_act_ok hact, runs_release_newest hnewest hrest, hv']
  rfl

/-- The end of a cleaning that has found `nf` CQEs: as many slots at the consumer index are the hardware's, no other slot changes. -/
theorem runs_cleanEnd {u : State} {nf : Nat} {rest : List (Lock × Nat)} (hc : u.cq? c = some y) (hy : y.pow2) (hnf : nf ≤ y.capacity)
    (hwf : Memory.wf u.mem = true) (hlocks : u.locks = (.cq c, u.cur) :: rest) (hrest : holderIn rest (.cq c) = none)
    (hapart : ∀ p ∈ u.recsOf [y.setCiRec], ∀ b, Outside b (u.recAddr p, 4) ∨ Outside b y.buffer) :
    ∃ m l C z, (∀ k t, Runs (cleanEnd c nf k) u t ↔ Runs k { u with locks := rest, cqs := C, mem := m, bus := l } t)
      ∧ (∀ d, d ≠ c → assocGet C d = u.cq? d) ∧ assocGet C c = some z
      ∧ z = { y with consIndex := y.consIndex + BitVec.ofNat 32 nf, devCons := z.devCons }
      ∧ (∀ i, i < nf → isHwCqe (y.cqeIn m i) = true) ∧ (∀ i, i < y.capacity → nf ≤ i → y.cqeIn m i = y.cqeIn u.mem i)
      ∧ (∀ b, Outside b y.buffer → (∀ p ∈ u.recsOf [y.setCiRec], Outside b (u.recAddr p, 4)) → memGet m b = memGet u.mem b)
      ∧ Memory.wf m = true := by
  by_cases h0 : nf = 0
  · subst h0
    refine ⟨u.mem, u.bus, u.cqs, y, fun k t => ?_, fun _ _ => rfl, hc, ?_, fun i hi => absurd hi (Nat.not_lt_zero i),
      fun _ _ _ => rfl, fun _ _ _ => rfl, hwf⟩
    · rw [cleanEnd, if_pos rfl, runs_release_newest hlocks hrest]
      rfl
    · rw [show y.consIndex + BitVec.ofNat 32 0 = y.consIndex from BitVec.add_zero _]
  · obtain ⟨m1, l1, hgive, hhw, hsame, hout, hwf1⟩ := giveSlots_spec hy nf 0 u (by omega) hwf
    obtain ⟨m, l, z, hz, hm, hsame1, hpublish⟩ := runs_advance_publish (s := { u with mem := m1, bus := .wmb u.cur :: l1 })
      hc h0 hlocks hrest
    have hin : ∀ i, y.cqeIn m i = y.cqeIn m1 i := fun i => Cq.cqeIn_congr fun b hb hb' =>
      hsame1 b fun p hp => (hapart p hp b).resolve_right (hy.not_outside hb hb')
    have hwmb : State.wmb { u with mem := m1, bus := l1 } = { u with mem := m1, bus := .wmb u.cur :: l1 } := rfl
    refine ⟨m, l, assocSet u.cqs c z, z, fun k t => ?_, fun d hd => assocGet_assocSet_ne _ _ hd, assocGet_assocSet_self .., hz,
      fun i hi => ?_, fun i hi hi' => ?_, fun b hb hb' => ?_, hm hwf1⟩
    · rw [cleanEnd, if_neg h0, runs_act_ok (giveSlotsAct_eq hc), hgive, runs_eff, hwmb, hpublish]
    · rw [hin]; exact hhw i (Nat.zero_le i) (by omega)
    · rw [hin]; exact hsame i hi (.inr (by omega))
    · exact (hsame1 b hb').trans (hout b hb)

/-- The scan counts the CQEs that wait. -/
theorem cleanScanAct_eq (hc : s.cq? c = some y) : cleanScanAct c s = .ok (s.cqes y).length s := by
  rw [cleanScanAct, withCq_eq hc, State.cqes_length]

/-- `CQ_CLEAN` up to its loop. -/
theorem runs_cleanScan {k : Prog} (hc : s.cq? c = some y) (hy : y.pow2) (hcq : s.holder (.cq c) = none) :
    Runs (cqCleanOn c r qpn k) s t ↔ Runs (cleanLoop c r qpn (s.cqes y).length 0 fun nf => cleanEnd c nf k)
      { s with locks := (.cq c, s.cur) :: s.locks, bus := .rmb s.cur :: s.bus } t := by
  have hwait : (s.setLocks ((.cq c, s.cur) :: s.locks)).cqes y = s.cqes y := State.cqes_congr hy fun _ _ => rfl
  rw [cqCleanOn_eq, runs_acquire, runs_act_ok (cleanScanAct_eq (s := s.setLocks ((.cq c, s.cur) :: s.locks)) hc), runs_eff, hwait]
  exact and_iff_right hcq

/-- `CQ_CLEAN` of a CQ whose ring does not lie in its doorbell records. -/
theorem runs_cqCleanOn (hc : s.cq? c = some y) (hy : y.pow2) (hwf : Memory.wf s.mem = true) (hcq : s.holder (.cq c) = none)
    (hsrq : s.holder (.srq r) = none) (hr : r ≠ 0 → ∃ z, s.srq? r = some z)
    (hapart : ∀ p ∈ s.recsOf [y.setCiRec], ∀ b, Outside b (s.recAddr p, 4) ∨ Outside b y.buffer) :
    ∃ v, s.CleanedOne v c r y qpn ∧ ∀ k t, Runs (cqCleanOn c r qpn k) s t ↔ Runs k v t := by
  let u : State := { s with locks := (.cq c, s.cur) :: s.locks, bus := .rmb s.cur :: s.bus }
  have hlock : u.holder (.srq r) = none := by
    simpa [u, State.holder, holderIn] using hsrq
  obtain ⟨m1, l1, R, nf, hswept, hfreed, hloop⟩ := runs_cleanLoop (r := r) (c := c) (qpn := qpn) hy (s.cqes y).length 0 u hc
    (s.cqes_length_le y) hwf hlock hr
  have hnf : nf ≤ y.capacity := by
    have := hswept.count
    have := s.cqes_length_le y
    omega
  obtain ⟨m, l, C, z, hend, hothers, hz', hz, hgiven, hsame, hout, hm⟩ := runs_cleanEnd
    (u := { u with mem := m1, bus := l1, srqs := R }) (rest := s.locks) hc hy hnf hswept.wf rfl hcq hapart
  let v : State := { s with cqs := C, srqs := R, mem := m, bus := l }
  obtain ⟨hcqes, hlen⟩ := cqes_cleaned (s := s) (t := v) hy hswept hz hgiven hsame rfl
  refine ⟨v, ⟨rfl, hothers, ⟨z, hz', by rw [hz], hcqes, ?_⟩, ?_, fun b hb hb' => ?_, hm⟩, fun k t => ?_⟩
  · rw [hcqes, hz, BitVec.add_assoc, ← BitVec.ofNat_add, hlen]
  · rw [State.cqes_eq_map]
    exact hfreed
  · exact (hout b hb hb').trans (hswept.outside b hb)
  · exact (runs_cleanScan hc hy hcq).trans ((hloop _ t).trans (hend k t))

end Sys2Proof.Machine
end

section
/-! SUPPORT. The cleaning of both CQs of a QP (R166, R182): the receive CQ with its SRQ, then the send CQ where it is another. -/

namespace Sys2Proof.Machine

open Sys2Proof

variable {s t u v : State} {x : Qp} {y : Cq} {qpn : Num24} {q c c1 c2 a : Nat} {recs : List Nat}

/-! ### One CQ that has been cleaned -/

/-- The CQ at `c`, which was `y`, after a cleaning: its `attach` count is `a`. -/
def State.cqCleaned (s v : State) (c : Nat) (y : Cq) (qpn : Num24) (a : Nat) : Prop :=
  ∃ z, v.cq? c = some z ∧ z = { y with consIndex := z.consIndex, devCons := z.devCons, attach := a }
    ∧ v.cqes z = keptCqes qpn (s.cqes y)
    ∧ z.consIndex + BitVec.ofNat 32 (v.cqes z).length = y.consIndex + BitVec.ofNat 32 (s.cqes y).length

theorem State.CleanedOne.cleaned {r : Nat} (h : s.CleanedOne v c r y qpn) : s.cqCleaned v c y qpn y.attach := h.cq

/-- The CQEs that wait depend on memory and on the place of the ring only. -/
theorem State.cqes_same {z y : Cq} (hmem : t.mem = s.mem) (hcons : z.consIndex = y.consIndex) (hbase : z.bufBase = y.bufBase)
    (hcap : z.capacity = y.capacity) : t.cqes z = s.cqes y := by
  have hslot : ∀ i, z.slotAddr i = y.slotAddr i := fun i => by rw [Cq.slotAddr, Cq.slotAddr, hbase, hcap]
  have hown : ∀ n, t.cqeHwOwned n = s.cqeHwOwned n := fun n => by
    rw [State.cqeHwOwned, State.cqeHwOwned, State.cqeByte, State.cqeByte, hmem]
  have hscan : ∀ (n : Nat) (i : Word), scanOwned t z i n = scanOwned s y i n := by
    intro n
    induction n with
    | zero => exact fun _ => rfl
    | succ n ih =>
      intro i
      rw [scanOwned, scanOwned, ih, hslot, hown]
  rw [State.cqes, State.cqes, hscan, hcons, hcap, hmem]
  exact List.map_congr_left fun j _ => by rw [Cq.slotAfter, Cq.slotAfter, hslot, hcons]

/-- A cleaned CQ stays one where its ring is not written and only its `attach` count changes. -/
theorem State.cqCleaned.congr {f : Nat → Nat} (h : s.cqCleaned v c y qpn a) (hy : y.pow2)
    (hc : t.cq? c = (v.cq? c).map fun z => { z with attach := f z.attach })
    (hmem : ∀ n, ¬ Outside n y.buffer → memGet t.mem n = memGet v.mem n) : s.cqCleaned t c y qpn (f a) := by
  obtain ⟨z, hz, heq, hcqes, hidx⟩ := h
  have hpow : z.pow2 := by
    rw [heq]
    exact hy
  have hbuf : z.buffer = y.buffer := by rw [heq]; rfl
  have hattach : z.attach = a := by rw [heq]
  have hplace : t.cqes { z with attach := f z.attach } = t.cqes z :=
    State.cqes_same (z := { z with attach := f z.attach }) (y := z) rfl rfl rfl rfl
  have hsame : t.cqes { z with attach := f z.attach } = v.cqes z := hplace.trans (State.cqes_congr hpow (by rwa [hbuf]))
  refine ⟨{ z with attach := f z.attach }, by rw [hc, hz]; rfl, by rw [heq], hsame.trans hcqes, ?_⟩
  rw [hsame]
  exact hidx

/-! ### The handles of a QP, resolved for a cleaning -/

/-- The arena index of the SRQ of a QP, 0 for none. -/
def State.srqIndex (s : State) (x : Qp) : Nat := (x.srq.bind (s.lookup .srq)).getD 0

theorem State.srqIndex_eq_iff (hsrq : ∀ g, x.srq = some g → ∃ r, s.names .srq g r) (r : Nat) :
    r = s.srqIndex x ∧ s.srqIndex x ≠ 0 ↔ x.srq.bind (s.lookup .srq) = some r := by
  unfold State.srqIndex
  cases hx : x.srq with
  | none => simp
  | some g =>
    obtain ⟨p, hp, hp0⟩ := hsrq g hx
    simp [hp, hp0, eq_comm]

theorem runs_cqClean {isSend withSrq : Bool} {k : Prog} (hx : s.qp? q = some x) (hn : s.names .cq (x.cqOf isSend) c)
    (hsrq : ∀ g, x.srq = some g → ∃ r, s.names .srq g r) (hl : ∀ k i, s.holder (.shard k i) = none) :
    Runs (cqClean q isSend withSrq k) s t ↔ Runs (cqCleanOn c (if withSrq then s.srqIndex x else 0) x.qpn k) s t := by
  have hcq : s.cqHandle q isSend = some (x.cqOf isSend) := by simp [State.cqHandle, hx]
  have hh : s.srqHandle q = x.srq := by simp [State.srqHandle, hx]
  have hqpn : BitVec.ofNat 24 (s.qpnOf q) = x.qpn := by simp [State.qpnOf, hx]
  unfold cqClean State.srqIndex
  rw [runs_ask, runs_resolveRef hcq hn.1 hn.2 (hl _ _) (fun _ => rfl), runs_ask, hqpn, hh]
  cases hop : x.srq with
  | none => simp
  | some g =>
    obtain ⟨r, hr, hr0⟩ := hsrq g hop
    cases withSrq with
    | false => simp
    | true =>
      simp only [Option.isSome_some, and_self, if_true, Nat.one_ne_zero, if_false, Option.bind_some, hr, Option.getD_some]
      exact runs_resolveRef (hh.trans hop) hr hr0 (hl _ _) fun _ => rfl

/-! ### Both CQs -/

/-- The state after the cleaning of both CQs of a QP, its send CQ at `c1` and its receive CQ at `c2`. -/
structure State.CleanedBoth (s v : State) (x : Qp) (c1 c2 : Nat) : Prop where
  frame : v = { s with cqs := v.cqs, srqs := v.srqs, mem := v.mem, bus := v.bus }
  cqs : ∀ c y, c = c1 ∨ c = c2 → s.cq? c = some y → s.cqCleaned v c y x.qpn y.attach
  others : ∀ c, c ≠ c1 → c ≠ c2 → v.cq? c = s.cq? c
  srqs : ∀ y, s.cq? c2 = some y → s.srqsFreed v.srqs (s.srqIndex x) ((s.cqes y).filter (isRecvOf x.qpn))
  outside : ∀ b, s.outsideCqs [c1, c2] b → memGet v.mem b = memGet s.mem b
  wf : Memory.wf v.mem = true

/-- Where the CQs are one, its cleaning is all. -/
theorem State.CleanedOne.both (hv : s.CleanedOne v c (s.srqIndex x) y x.qpn) (hc : s.cq? c = some y) : s.CleanedBoth v x c c where
  frame := hv.frame
  cqs := by
    rintro d z (rfl | rfl) hz <;> cases hc.symm.trans hz <;> exact hv.cleaned
  others d hd _ := hv.others d hd
  srqs z hz := by
    cases hc.symm.trans hz
    exact hv.srqs
  outside b hb := by
    obtain ⟨hbuf, hrecs⟩ := hb c List.mem_cons_self y hc
    exact hv.outside b hbuf hrecs
  wf := hv.wf

/-- Where the CQs are two whose rings are apart, they are cleaned one after the other. -/
theorem State.CleanedOne.trans {y1 y2 : Cq} (hv : s.CleanedOne v c2 (s.srqIndex x) y2 x.qpn) (hu : v.CleanedOne u c1 0 y1 x.qpn)
    (hne : c1 ≠ c2) (hc1 : s.cq? c1 = some y1) (hc2 : s.cq? c2 = some y2) (hp1 : y1.pow2) (hp2 : y2.pow2)
    (hring1 : ∀ b, ¬ Outside b y1.buffer → memGet v.mem b = memGet s.mem b)
    (hring2 : ∀ b, ¬ Outside b y2.buffer → memGet u.mem b = memGet v.mem b) : s.CleanedBoth u x c1 c2 where
  frame := by
    have hframe := hu.frame
    rw [hv.frame] at hframe
    exact hframe
  cqs := by
    rintro d z (rfl | rfl) hz
    · cases hc1.symm.trans hz
      have hcqes : v.cqes y1 = s.cqes y1 := State.cqes_congr hp1 hring1
      simpa only [State.cqCleaned, hcqes] using hu.cleaned
    · cases hc2.symm.trans hz
      exact hv.cleaned.congr (f := id) hp2 ((hu.others d hne.symm).trans Option.map_id'.symm) hring2
  others d hd hd' := (hu.others d hd).trans (hv.others d hd')
  srqs z hz o := by
    cases hc2.symm.trans hz
    exact (State.srqsFreed_zero_iff.mp hu.srqs o).trans (hv.srqs o)
  outside b hb := by
    obtain ⟨hbuf1, hrecs1⟩ := hb c1 List.mem_cons_self y1 hc1
    obtain ⟨hbuf2, hrecs2⟩ := hb c2 (List.mem_cons_of_mem _ List.mem_cons_self) y2 hc2
    have hrecs : v.recsOf [y1.setCiRec] = s.recsOf [y1.setCiRec] := by rw [hv.frame]; rfl
    have haddr : ∀ p, v.recAddr p = s.recAddr p := fun p => by rw [hv.frame]; rfl
    exact (hu.outside b hbuf1 fun p hp => haddr p ▸ hrecs1 p (hrecs ▸ hp)).trans (hv.outside b hbuf2 hrecs2)
  wf := hu.wf

/-- The cleaning of both CQs of a QP. -/
theorem runs_cleanBoth (hx : s.qp? q = some x) (hclean : s.cleanable x c1 c2 recs)
    (hsrq : ∀ g, x.srq = some g → ∃ r, s.names .srq g r)
    (hobj : ∀ g r, x.srq = some g → s.names .srq g r → ∃ z, s.srq? r = some z)
    (hshard : ∀ k i, s.holder (.shard k i) = none) (hcq : ∀ c, s.holder (.cq c) = none) (hlock : ∀ r, s.holder (.srq r) = none)
    (hwf : Memory.wf s.mem = true) :
    ∃ v, s.CleanedBoth v x c1 c2 ∧ ∀ k t, Runs (cleanBoth q k) s t ↔ Runs k v t := by
  obtain ⟨hn1, hn2, hd, y1, y2, hc1, hc2, hp1, hp2, hrings, hapart⟩ := hclean
  have hword : ∀ p ∈ s.recsOf [y1.setCiRec, y2.setCiRec], ∀ b,
      Outside b (s.recAddr p, 4) ∨ (Outside b y1.buffer ∧ Outside b y2.buffer) := fun p hp b =>
    (hapart p (List.mem_append_right _ hp) b).imp_left fun h => by simp only [Outside] at *; omega
  have hrecs := recsOf_cons s y1.setCiRec [y2.setCiRec]
  have hword1 : ∀ p ∈ s.recsOf [y1.setCiRec], ∀ b, Outside b (s.recAddr p, 4) ∨ (Outside b y1.buffer ∧ Outside b y2.buffer) :=
    fun p hp => hword p (hrecs ▸ List.mem_append_left _ hp)
  have hword2 : ∀ p ∈ s.recsOf [y2.setCiRec], ∀ b, Outside b (s.recAddr p, 4) ∨ (Outside b y1.buffer ∧ Outside b y2.buffer) :=
    fun p hp => hword p (hrecs ▸ List.mem_append_right _ hp)
  have hfound : s.srqIndex x ≠ 0 → ∃ z, s.srq? (s.srqIndex x) = some z := fun h0 => by
    obtain ⟨g, hg, hlookup⟩ := Option.bind_eq_some_iff.mp ((State.srqIndex_eq_iff hsrq _).mp ⟨rfl, h0⟩)
    exact hobj g _ hg ⟨hlookup, h0⟩
  obtain ⟨v, hv, hrun⟩ := runs_cqCleanOn (qpn := x.qpn) hc2 hp2 hwf (hcq c2) (hlock _) hfound
    fun p hp b => (hword2 p hp b).imp_right And.right
  have hvq : v.qp? q = some x := by rw [hv.frame]; exact hx
  have hfirst : ∀ k t, Runs (cleanBoth q k) s t ↔ Runs (if v.sameCqs q = 1 then k else cqClean q true false k) v t := fun k t => by
    rw [cleanBoth, runs_cqClean (isSend := false) hx hn2 hsrq hshard, if_pos rfl, hrun, runs_ask]
  have hsame : v.sameCqs q = if x.sendCq = x.recvCq then 1 else 0 := by simp [State.sameCqs, State.cqHandle, hvq, Qp.cqOf]
  by_cases h : x.sendCq = x.recvCq
  · obtain rfl : c1 = c2 := Option.some.inj (hn1.1.symm.trans (h ▸ hn2.1))
    exact ⟨v, hv.both hc2, fun k t => (hfirst k t).trans (by rw [hsame, if_pos h, if_pos rfl])⟩
  · have hne := hd h
    have hlocks : ∀ y, v.holder y = s.holder y := fun y => by rw [hv.frame]; rfl
    have hlookup : ∀ k g, v.lookup k g = s.lookup k g := fun k g => by rw [hv.frame]; rfl
    have hrecs' : v.recsOf [y1.setCiRec] = s.recsOf [y1.setCiRec] := by rw [hv.frame]; rfl
    have haddr : ∀ p, v.recAddr p = s.recAddr p := fun p => by rw [hv.frame]; rfl
    obtain ⟨u, hu, hrun'⟩ := runs_cqCleanOn (s := v) (r := 0) (qpn := x.qpn) ((hv.others c1 hne).trans hc1) hp1 hv.wf
      ((hlocks _).trans (hcq c1)) ((hlocks _).trans (hlock 0)) (fun h0 => absurd rfl h0)
      fun p hp b => haddr p ▸ (hword1 p (hrecs' ▸ hp) b).imp_right And.left
    refine ⟨u, hv.trans hu hne hc1 hc2 hp1 hp2 (fun b hb => ?_) fun b hb => ?_, fun k t => (hfirst k t).trans ?_⟩
    · exact hv.outside b ((hrings hne b).resolve_left hb) fun p hp => (hword2 p hp b).resolve_right fun h => hb h.1
    · exact hu.outside b ((hrings hne b).resolve_right hb) fun p hp =>
        haddr p ▸ (hword1 p (hrecs' ▸ hp) b).resolve_right fun h => hb h.2
    · rw [hsame, if_neg h, if_neg (by decide), runs_cqClean (c := c1) (isSend := true) hvq
        ⟨(hlookup ..).trans hn1.1, hn1.2⟩ (fun g hg => (hsrq g hg).imp fun r hr => ⟨(hlookup ..).trans hr.1, hr.2⟩)
        fun k i => (hlocks _).trans (hshard k i)]
      exact hrun' k t

end Sys2Proof.Machine
end

section
/-! SUPPORT. The run of a `DESTROY_QP` before and after the cleaning of the QP's CQs (R182, R345, R349, R256). -/

namespace Sys2Proof.Machine

open Sys2Proof

variable {s t : State} {x : Qp} {q c1 c2 : Nat} {h : Handle} {k : Prog} {r : Response} {out : List Byte}

/-! ### From the cleaning on -/

/-- The steps of a `DESTROY_QP` after the cleaning of its CQs. -/
def destroyQpEnd (q : Nat) : Prog :=
  freeRec (fun s => (s.qp? q).bind (·.sqDbRec)) <| freeRec (fun s => (s.qp? q).bind (·.rqDbRec)) <|
  detach .cq (fun s => s.cqHandle q true) <| detach .cq (fun s => s.cqHandle q false) <| detachSrq q <|
  release (.mlock q) <| eff (fun s => (s.hold ((s.qp? q).map Qp.buffer)).eraseQp q) <| endWith .ok

theorem destroyQpProg_eq (op : Operands) : destroyQpProg op = precond false none
    (resolveBy .qp op.qp (resolveDestroyAct .qp op.qp) (endWith .invalidHandle) fun q =>
      removeQpLocked q op.qp (endWith .invalidHandle) fun removed =>
      if removed = 0 then endWith .invalidHandle
      else waitFor (fun s => s.noRefs q) <| acquire (.mlock q) <| finalReset q true <| cleanBoth q <| destroyQpEnd q) := rfl

theorem runs_freeRecs (hx : s.qp? q = some x) (hl : s.holder .dbRec = none) :
    Runs (freeRec (fun s => (s.qp? q).bind (·.sqDbRec)) <| freeRec (fun s => (s.qp? q).bind (·.rqDbRec)) k) s t ↔
      Runs k ((s.freedRec x.sqDbRec).freedRec x.rqDbRec) t := by
  obtain ⟨m, l, hfreed, -⟩ := freedRec_eq s x.sqDbRec
  have hx1 : (s.freedRec x.sqDbRec).qp? q = some x := by
    rw [hfreed]
    exact hx
  have hl1 : (s.freedRec x.sqDbRec).holder .dbRec = none := by
    rw [hfreed]
    exact hl
  have hsq : (s.qp? q).bind (·.sqDbRec) = x.sqDbRec := by rw [hx]; rfl
  have hrq : ((s.freedRec x.sqDbRec).qp? q).bind (·.rqDbRec) = x.rqDbRec := by rw [hx1]; rfl
  rw [runs_freeRec hl fun _ _ _ => rfl, hsq, runs_freeRec hl1 fun _ _ _ => rfl, hrq]

/-- The references are part of the CQs and SRQs only. -/
theorem State.bumpAttach_congr {u s : State} (hcqs : u.cqs = s.cqs) (hsrqs : u.srqs = s.srqs) (kind : Kind) (o : Nat) (f : Nat → Nat) :
    (u.bumpAttach kind o f).cqs = (s.bumpAttach kind o f).cqs ∧ (u.bumpAttach kind o f).srqs = (s.bumpAttach kind o f).srqs := by
  cases kind with
  | qp => exact ⟨hcqs, hsrqs⟩
  | cq =>
    simp only [State.bumpAttach, State.cq?, hcqs]
    cases assocGet s.cqs o
    · exact ⟨hcqs, hsrqs⟩
    · exact ⟨congrArg (assocSet · o _) hcqs, hsrqs⟩
  | srq =>
    simp only [State.bumpAttach, State.srq?, hsrqs]
    cases assocGet s.srqs o
    · exact ⟨hcqs, hsrqs⟩
    · exact ⟨hcqs, congrArg (assocSet · o _) hsrqs⟩

theorem State.bumpRefs_congr {u s : State} (hcqs : u.cqs = s.cqs) (hsrqs : u.srqs = s.srqs) (hlookup : u.lookup = s.lookup)
    (c1 c2 : Nat) (h : Option Handle) (f : Nat → Nat) :
    (u.bumpRefs c1 c2 h f).cqs = (s.bumpRefs c1 c2 h f).cqs ∧ (u.bumpRefs c1 c2 h f).srqs = (s.bumpRefs c1 c2 h f).srqs := by
  have hone := State.bumpAttach_congr hcqs hsrqs .cq c1 f
  have htwo := State.bumpAttach_congr hone.1 hone.2 .cq c2 f
  have hkeep : ∀ v : State, ((v.bumpAttach .cq c1 f).bumpAttach .cq c2 f).lookup .srq = v.lookup .srq := fun v => funext fun g => by simp
  simp only [State.bumpRefs, State.bumpSrq, hkeep, hlookup]
  cases h.bind (s.lookup .srq) with
  | none => exact htwo
  | some r => exact State.bumpAttach_congr htwo.1 htwo.2 .srq r f

/-- The detaches of a destroy (R349). -/
theorem runs_detachRefs (hx : s.qp? q = some x) (h1 : s.names .cq x.sendCq c1) (h2 : s.names .cq x.recvCq c2)
    (hsrq : ∀ g, x.srq = some g → ∃ r, s.names .srq g r) (hl : ∀ k i, s.holder (.shard k i) = none) :
    Runs (detach .cq (fun s => s.cqHandle q true) <| detach .cq (fun s => s.cqHandle q false) <| detachSrq q k) s t ↔
      Runs k (s.bumpRefs c1 c2 x.srq (· - 1)) t := by
  have hcq : ∀ isSend, s.cqHandle q isSend = some (x.cqOf isSend) := fun isSend => by simp [State.cqHandle, hx]
  have hframe : ∀ (u : State) o, (u.bumpAttach .cq o (· - 1)).lookup = u.lookup ∧ (u.bumpAttach .cq o (· - 1)).holder = u.holder
      ∧ (u.bumpAttach .cq o (· - 1)).qp? = u.qp? := fun u o => by
    rw [State.bumpAttach_frame]
    exact ⟨rfl, rfl, rfl⟩
  obtain ⟨hlookup1, hholder1, hqp1⟩ := hframe s c1
  obtain ⟨hlookup2, hholder2, hqp2⟩ := hframe (s.bumpAttach .cq c1 (· - 1)) c2
  rw [runs_detach (hcq true) h1.1 (hl _ _) (fun _ => rfl),
    runs_detach ((State.bumpAttach_cqHandle ..).trans (hcq false)) (by rw [hlookup1]; exact h2.1) (by rw [hholder1]; exact hl _ _)
      (fun _ => rfl),
    runs_detachSrq (x := x) (by rw [hqp2, hqp1]; exact hx)
      (fun g hg => (hsrq g hg).imp fun r hr => by rw [State.names, hlookup2, hlookup1]; exact hr)
      (fun k i => by rw [hholder2, hholder1]; exact hl k i)]
  rfl

/-- The end of a destroy, its QP's references given up. -/
theorem runs_destroyQp_release {rest : List (Lock × Nat)} (hlocks : s.locks = (.mlock q, s.cur) :: rest)
    (hrest : holderIn rest (.mlock q) = none) :
    Runs (release (.mlock q) <| eff (fun s => (s.hold ((s.qp? q).map Qp.buffer)).eraseQp q) <| endWith .ok) s t ↔
      t = { s with
        locks := rest, qps := assocDel s.qps q, bus := .commandEnd s.cur :: s.bus
        agents := assocSet s.agents s.cur { op := s.me.op, resp := { s.me.resp with status := some .ok, badIndex := none } } } := by
  rw [runs_release_newest hlocks hrest, runs_eff, endWith, if_pos rfl, runs_respond]
  refine iff_of_eq (congrArg (t = ·) ?_)
  ext1 <;> simp [State.hold]

/-- A destroy from the release of its QP's records on: `m` and `l` are memory and the bus afterwards. -/
theorem runs_destroyQpEnd {rest : List (Lock × Nat)} (hlocks : s.locks = (.mlock q, s.cur) :: rest) (hrest : ∀ y, holderIn rest y = none)
    (hx : s.qp? q = some x) (h1 : s.names .cq x.sendCq c1) (h2 : s.names .cq x.recvCq c2)
    (hsrq : ∀ g, x.srq = some g → ∃ r, s.names .srq g r) :
    ∃ m l, (Memory.wf s.mem = true → ∀ p ∈ s.recsOf [x.sqDbRec, x.rqDbRec], (s.setMem m).memRead (s.recAddr p + 4) 4 = 0)
      ∧ (∀ b, (∀ p ∈ s.recsOf [x.sqDbRec, x.rqDbRec], Outside b (s.recAddr p + 4, 4)) → memGet m b = memGet s.mem b)
      ∧ Runs (destroyQpEnd q) s { s with
          locks := rest, qps := assocDel s.qps q, cqs := (s.bumpRefs c1 c2 x.srq (· - 1)).cqs
          srqs := (s.bumpRefs c1 c2 x.srq (· - 1)).srqs, mem := m, bus := l
          dbRecUsed := s.dbRecUsed.filter fun p => decide (p ∉ s.recsOf [x.sqDbRec, x.rqDbRec])
          dbRecFree := s.dbRecFree + (s.recsOf [x.sqDbRec, x.rqDbRec]).length
          agents := assocSet s.agents s.cur { op := s.me.op, resp := { s.me.resp with status := some .ok, badIndex := none } } } := by
  obtain ⟨m, l, hfreed, hwords, hmem⟩ := freedRec_two s x.sqDbRec x.rqDbRec
  have hfree : ∀ y, y ≠ .mlock q → s.holder y = none := fun y hy => by
    rw [State.holder, hlocks, holderIn, if_neg hy.symm, hrest]
  have hbump : ∀ used free, (((s.setMem m).setBus l).setRecs used free).bumpRefs c1 c2 x.srq (· - 1) =
      { s with
        cqs := (s.bumpRefs c1 c2 x.srq (· - 1)).cqs, srqs := (s.bumpRefs c1 c2 x.srq (· - 1)).srqs, mem := m, bus := l
        dbRecUsed := used, dbRecFree := free } := fun used free => by
    have hsame := State.bumpRefs_congr (u := ((s.setMem m).setBus l).setRecs used free) (s := s) rfl rfl rfl c1 c2 x.srq (· - 1)
    rw [State.bumpRefs_frame, hsame.1, hsame.2]
    rfl
  refine ⟨m, .commandEnd s.cur :: l, fun hwf => (hwords hwf).2, hmem, ?_⟩
  rw [destroyQpEnd, runs_freeRecs hx (hfree _ nofun), hfreed,
    runs_detachRefs (s := ((s.setMem m).setBus l).setRecs _ _) hx h1 h2 hsrq fun k i => hfree _ nofun, hbump]
  refine (runs_destroyQp_release (rest := rest) ?_ (hrest _)).mpr ?_
  · exact hlocks
  · rfl

/-! ### Up to the cleaning -/

/-- The state of a `DESTROY_QP` that has removed the entry of its handle and holds the QP's `mlock`. -/
def State.destroyingQp (s : State) (h : Handle) (q : Nat) (r : Response) (out : List Byte) : State :=
  { s with
    qpTable := s.qpTable.set h.index.toNat { gen := h.gen + 1, occ := none }, locks := (.mlock q, s.cur) :: s.locks
    agents := assocSet s.agents s.cur { op := s.me.op, cmd := some .destroyQp, destroying := [h], resp := r, fwOut := out } }

/-- A `DESTROY_QP` until it holds the QP's `mlock`. -/
theorem runs_destroyQp_remove (hs : s.quietStart) (hn : s.names .qp s.me.op.qp q) (hx : s.qp? q = some x) (href : x.refcount = 0)
    (h1 : s.names .cq x.sendCq c1) (h2 : s.names .cq x.recvCq c2) (hd : x.sendCq ≠ x.recvCq → c1 ≠ c2) :
    Runs (destroyQpProg s.me.op) (s.beginCmd .destroyQp) t ↔
      Runs (finalReset q true <| cleanBoth q <| destroyQpEnd q) (s.destroyingQp s.me.op.qp q {} []) t := by
  obtain ⟨⟨-, halone, hu⟩, hstarted, -⟩ := hs
  have hfree : ∀ y, (s.beginCmd .destroyQp).holder y = none := (hu.begin _).holder
  have hlocked : ((s.beginCmd .destroyQp).dropEntry .qp s.me.op.qp).setLocks ((.mlock q, s.cur) :: s.locks) =
      s.destroyingQp s.me.op.qp q {} [] := by
    ext1 <;> simp [State.destroyingQp, State.dropEntry, State.emptyEntry, State.beginCmd, State.setEntry, State.setTable, State.table]
  have hrefs : ((s.beginCmd .destroyQp).dropEntry .qp s.me.op.qp).noRefs q = true := by
    have hx' : ((s.beginCmd .destroyQp).dropEntry .qp s.me.op.qp).qp? q = some x := hx
    rw [State.noRefs, hx']
    simp [href]
  have hmlock : ((s.beginCmd .destroyQp).dropEntry .qp s.me.op.qp).holder (.mlock q) = none := by
    rw [State.holder, State.dropEntry_locks]
    exact hfree _
  rw [destroyQpProg_eq, runs_precond (s := s.beginCmd .destroyQp) hstarted (fun _ => rfl),
    runs_resolveDestroy_found (halone.begin _) hn.1 hn.2 (hfree _),
    runs_removeQpLocked (s := s.beginCmd .destroyQp) hu hx h1 h2 hd hn.1 ((halone.begin _).used _), if_neg Nat.one_ne_zero,
    runs_waitFor_ok hrefs, runs_acquire, ← hlocked]
  exact and_iff_right hmlock

/-- The last move of a `DESTROY_QP` to RESET (R182): what it leaves but for the bus and the bytes of the firmware. -/
theorem runs_destroyQp_finalReset {a : FwAnswer} {rest : List FwAnswer} (hx : s.qp? q = some x) (hfatal : s.fatal = false)
    (hfw : x.state ≠ .reset → s.fw = a :: rest) :
    ∃ l out, ∀ k t, Runs (finalReset q true k) (s.destroyingQp h q {} []) t ↔
      Runs k (State.destroyingQp { s with
          bus := l, fw := if x.state = .reset then s.fw else rest
          quiet := if x.state = .reset ∨ a.status ≠ 0 then s.quiet else x.qpn :: s.quiet.filter fun n => decide (n ≠ x.qpn) }
        h q { fwStatus := if x.state = .reset then none else some a.status } out) t := by
  by_cases hreset : x.state = .reset
  · refine ⟨s.bus, [], fun k t => ?_⟩
    rw [runs_finalReset_reset (s := s.destroyingQp h q {} []) hx hreset, if_pos hreset, if_pos (.inl hreset), if_pos hreset]
  · refine ⟨.mailbox s.cur (.modifyQp .any2rst x.qpn none) :: .wmb s.cur :: s.bus, a.out, fun k t => ?_⟩
    rw [runs_finalReset (s := s.destroyingQp h q {} []) hx hreset hfatal (hfw hreset), if_neg hreset, if_neg hreset]
    refine iff_of_eq (congrArg₂ _ ?_ rfl)
    ext1 <;> simp [State.destroyingQp, hreset, State.me, State.agent]

end Sys2Proof.Machine
end

section
/-! SUPPORT. `DESTROY_QP` (R182): the run around the cleaning of the CQs, and what it leaves. -/

namespace Sys2Proof.Machine

open Sys2Proof

variable {s t w : State} {x : Qp} {q c1 c2 : Nat} {h : Handle} {a : FwAnswer} {rest : List FwAnswer} {recs : List Nat}

/-! ### The run -/

/-- The state in which a `DESTROY_QP` begins to clean the CQs of its QP. -/
def State.atCleaning (s : State) (h : Handle) (q : Nat) (x : Qp) (a : FwAnswer) (rest : List FwAnswer) (l : List BusEvent)
    (out : List Byte) : State :=
  State.destroyingQp { s with
      bus := l, fw := if x.state = .reset then s.fw else rest
      quiet := if x.state = .reset ∨ a.status ≠ 0 then s.quiet else x.qpn :: s.quiet.filter fun n => decide (n ≠ x.qpn) }
    h q { fwStatus := if x.state = .reset then none else some a.status } out

/-- The state after a cleaning, by what it has changed. -/
def State.cleanedTo (s : State) (C : List (Nat × Cq)) (R : List (Nat × Srq)) (m : List Host.Cell) (l : List BusEvent) : State :=
  { s with cqs := C, srqs := R, mem := m, bus := l }

theorem lookup_of_removed {i : Nat} {e : Entry} (he : e.occ = none) (hi : h.index.toNat = i) (ht : t.qpTable = s.qpTable.set i e) :
    t.lookup .qp h = none := by
  refine State.lookup_of_empty ?_
  rw [State.entry, State.table, ht, hi, List.getD_eq_getElem?_getD, List.getElem?_set, if_pos rfl]
  split_ifs
  · exact he
  · rfl

/-- A `DESTROY_QP` whose cleaning leaves the CQs `C`, the SRQs `R` and the memory `m0`, of which `P` holds. -/
theorem exec_destroyQp {P : List (Nat × Cq) → List (Nat × Srq) → List Host.Cell → Prop} (hs : s.quietStart)
    (hn : s.names .qp s.me.op.qp q) (hx : s.qp? q = some x) (href : x.refcount = 0)
    (hsrq : ∀ g, x.srq = some g → ∃ r, s.names .srq g r) (hfw : x.state ≠ .reset → s.fw = a :: rest)
    (hrecs : s.recsOf [x.sqDbRec, x.rqDbRec] = recs)
    (h1 : s.names .cq x.sendCq c1) (h2 : s.names .cq x.recvCq c2) (hd : x.sendCq ≠ x.recvCq → c1 ≠ c2)
    (hclean : ∀ l out, ∃ C R m0 l0, Memory.wf m0 = true ∧ P C R m0 ∧ ∀ k t,
      Runs (cleanBoth q k) (s.atCleaning s.me.op.qp q x a rest l out) t ↔
        Runs k ((s.atCleaning s.me.op.qp q x a rest l out).cleanedTo C R m0 l0) t) :
    ∃ C R m0 t, P C R m0 ∧ exec .destroyQp s = .next t ∧ s.qpGone t s.me.op.qp q x a rest recs
      ∧ (∀ c, t.cq? c = (assocGet C c).map fun z =>
          { z with attach := (if c = c2 then (· - 1) else id) ((if c = c1 then (· - 1) else id) z.attach) })
      ∧ (∀ r, t.srq? r = (assocGet R r).map fun z =>
          if x.srq.bind (s.lookup .srq) = some r then { z with attach := z.attach - 1 } else z)
      ∧ ∀ b, (∀ r ∈ recs, Outside b (s.recAddr r + 4, 4)) → memGet t.mem b = memGet m0 b := by
  subst hrecs
  obtain ⟨l, out, hreset⟩ := runs_destroyQp_finalReset (h := s.me.op.qp) hx hs.2.2 hfw
  obtain ⟨C, R, m0, l0, hwf, hP, hrun⟩ := hclean l out
  have hu : s.locks = [] := hs.1.2.2
  obtain ⟨m, l1, hwords, hmem, hend⟩ := runs_destroyQpEnd (q := q) (x := x) (c1 := c1) (c2 := c2) (rest := s.locks)
    (s := (s.atCleaning s.me.op.qp q x a rest l out).cleanedTo C R m0 l0) rfl
    (fun y => by rw [hu]; rfl) hx h1 h2 hsrq
  have hC := ((s.atCleaning s.me.op.qp q x a rest l out).cleanedTo C R m0 l0).bumpRefs_cqOf c1 c2 x.srq (· - 1)
  have hR := ((s.atCleaning s.me.op.qp q x a rest l out).cleanedTo C R m0 l0).bumpRefs_srqOf c1 c2 x.srq (· - 1)
  refine ⟨C, R, m0, _, hP, hs.runCmd ((runs_destroyQp_remove hs hn hx href h1 h2 hd).mpr ((hreset _ _).mpr ((hrun _ _).mpr hend))),
    ⟨lookup_of_removed rfl rfl rfl, assocGet_assocDel_self .., fun p hp => assocGet_assocDel_ne _ hp, hwords hwf, ?_, ?_⟩, hC, hR,
    hmem⟩
  · simp [State.ended, State.cleanedTo, State.atCleaning, State.destroyingQp, State.me, State.agent]
  · rfl

/-! ### The cleaning of CQs in which CQEs wait -/

/-- A cleaning depends on the CQs, the SRQs, memory and the tables of CQs and SRQs only. -/
theorem State.CleanedBoth.of_same {u v : State} (hv : u.CleanedBoth v x c1 c2) (hcqs : u.cqs = s.cqs) (hsrqs : u.srqs = s.srqs)
    (hmem : u.mem = s.mem) (hidx : u.srqIndex x = s.srqIndex x) (hout : ∀ b, s.outsideCqs [c1, c2] b → u.outsideCqs [c1, c2] b) :
    s.CleanedBoth { s with cqs := v.cqs, srqs := v.srqs, mem := v.mem } x c1 c2 where
  frame := rfl
  cqs c y hc hy := by
    obtain ⟨z, hz, heq, hcqes, hidx⟩ := hv.cqs c y hc (by rw [State.cq?, hcqs]; exact hy)
    have hs : u.cqes y = s.cqes y := State.cqes_same hmem rfl rfl rfl
    have hw : State.cqes { s with cqs := v.cqs, srqs := v.srqs, mem := v.mem } z = v.cqes z := State.cqes_same rfl rfl rfl rfl
    rw [hs] at hcqes hidx
    exact ⟨z, hz, heq, hw.trans hcqes, hw ▸ hidx⟩
  others c hc hc' := by
    have hkeep := hv.others c hc hc'
    rw [State.cq?, State.cq?, hcqs] at hkeep
    exact hkeep
  srqs y hy o := by
    have hfreed := hv.srqs y (by rw [State.cq?, hcqs]; exact hy) o
    have hs : u.cqes y = s.cqes y := State.cqes_same hmem rfl rfl rfl
    rw [hs, hidx, State.srq?, hsrqs] at hfreed
    exact hfreed
  outside b hb := by
    rw [← hmem]
    exact hv.outside b (hout b hb)
  wf := hv.wf

theorem Srq.freeSlot_attach (z : Srq) (i : Nat) : (z.freeSlot i).attach = z.attach := by
  unfold Srq.freeSlot
  split_ifs <;> rfl

theorem Srq.freed_attach (es : List (List Byte)) (z : Srq) : (z.freed es).attach = z.attach := by
  unfold Srq.freed
  generalize es.reverse = l
  induction l generalizing z with
  | nil => rfl
  | cons e l ih => exact (ih _).trans (z.freeSlot_attach _)

/-- The cleaning, together with the detaches (R349), as the obligations say it. -/
theorem State.CleanedBoth.cleanedOf (hw : s.CleanedBoth w x c1 c2) (hclean : s.cleanable x c1 c2 recs)
    (hsrq : ∀ g, x.srq = some g → ∃ r, s.names .srq g r)
    (hcqs : ∀ c, t.cq? c = (w.cq? c).map fun z =>
      { z with attach := (if c = c2 then (· - 1) else id) ((if c = c1 then (· - 1) else id) z.attach) })
    (hsrqs : ∀ r, t.srq? r = (w.srq? r).map fun z =>
      if x.srq.bind (s.lookup .srq) = some r then { z with attach := z.attach - 1 } else z)
    (hmem : ∀ b y, s.cq? c1 = some y ∨ s.cq? c2 = some y → ¬ Outside b y.buffer → memGet t.mem b = memGet w.mem b) :
    s.cleanedOf t x c1 c2 1 := by
  obtain ⟨-, -, -, y1, y2, hc1, hc2, hp1, hp2, -⟩ := hclean
  have hpow : ∀ c y, c = c1 ∨ c = c2 → s.cq? c = some y → y.pow2 := by
    rintro c y (rfl | rfl) hy
    · cases hc1.symm.trans hy
      exact hp1
    · cases hc2.symm.trans hy
      exact hp2
  refine ⟨fun c y hy => ?_, fun r z hz => ⟨fun hne => ?_, fun y hr hy => ?_⟩⟩
  · by_cases hc : c = c1 ∨ c = c2
    · have hring : ∀ b, ¬ Outside b y.buffer → memGet t.mem b = memGet w.mem b := fun b hb =>
        hmem b y (Or.imp (fun h : c = c1 => h ▸ hy) (fun h : c = c2 => h ▸ hy) hc) hb
      obtain ⟨z, hz, heq, hcqes, hidx⟩ := (hw.cqs c y hc hy).congr
        (f := fun n => (if c = c2 then (· - 1) else id) ((if c = c1 then (· - 1) else id) n)) (hpow c y hc hy) (hcqs c) hring
      refine ⟨z, hz, heq.trans ?_, fun h1 h2 => absurd hc (by rintro (h | h); exacts [h1 h, h2 h]), fun _ => ⟨hcqes, hidx⟩⟩
      split_ifs <;> simp [Nat.sub_sub]
    · obtain ⟨hne1, hne2⟩ := not_or.mp hc
      refine ⟨y, ?_, by simp [hne1, hne2], fun _ _ => ⟨rfl, rfl⟩, fun h => absurd h hc⟩
      rw [hcqs, hw.others c hne1 hne2, hy, if_neg hne1, if_neg hne2]
      rfl
  · have hkeep : ¬ (r = s.srqIndex x ∧ s.srqIndex x ≠ 0) := fun h => hne ((State.srqIndex_eq_iff hsrq r).mp h)
    have hwr : w.srq? r = some z := (hw.srqs y2 hc2 r).trans (by rw [hz, Option.map_some, if_neg hkeep])
    rw [hsrqs, hwr, Option.map_some, if_neg hne]
  · have hfree := (State.srqIndex_eq_iff hsrq r).mpr hr
    have hwr : w.srq? r = some (z.freed ((s.cqes y).filter (isRecvOf x.qpn))) :=
      (hw.srqs y hy r).trans (by rw [hz, Option.map_some, if_pos hfree])
    rw [hsrqs, hwr, Option.map_some, if_pos hr, Srq.freed_attach]

/-! ### The obligation -/

theorem State.atCleaning_holder (hu : s.unlocked) {l : List BusEvent} {out : List Byte} {y : Lock} (hy : y ≠ .mlock q) :
    (s.atCleaning h q x a rest l out).holder y = none := by
  have hlocks : (s.atCleaning h q x a rest l out).locks = [(.mlock q, s.cur)] := congrArg (List.cons (Lock.mlock q, s.cur)) hu
  rw [State.holder, hlocks, holderIn, if_neg hy.symm]
  rfl

/-- Settles O31: `exec_destroyQp` with the cleaning of empty CQs, which changes nothing, and with that of CQs where CQEs wait. -/
theorem destroyQp : Obligations.DestroyQp := by
  intro s h q c1 c2 x a rest recs hs hh hn hx href hsrq hfw hrecs hwf
  subst hh
  have hu : s.unlocked := hs.1.2.2
  refine ⟨fun h1 h2 hd => ?_, fun hclean hobj => ?_⟩
  · obtain ⟨C, R, m0, t, ⟨rfl, rfl, rfl⟩, hexec, hgone, hC, hR, hmem⟩ := exec_destroyQp
      (P := fun C R m => C = s.cqs ∧ R = s.srqs ∧ m = s.mem) hs hn hx href hsrq hfw hrecs h1.1 h2.1 hd fun l out =>
        ⟨s.cqs, s.srqs, s.mem, if x.sendCq = x.recvCq then .rmb s.cur :: l else .rmb s.cur :: .rmb s.cur :: l, hwf, ⟨rfl, rfl, rfl⟩,
          fun k t => by
            rw [runs_cleanBoth_empty (s := s.atCleaning s.me.op.qp q x a rest l out) hx h1 h2 hsrq
              (by rintro y (⟨k, i, rfl⟩ | rfl | rfl) <;> exact State.atCleaning_holder hu nofun)]
            split_ifs <;> rfl⟩
    refine ⟨t, hexec, hgone, fun c y hy => (hC c).trans ((congrArg _ hy).trans ?_), fun r y hy => (hR r).trans ((congrArg _ hy).trans ?_),
      hmem⟩
    · split_ifs <;> rfl
    · split_ifs <;> rfl
  · have ⟨h1, h2, hd, y1, y2, hc1, hc2, _, _, _, hapart⟩ := hclean
    obtain ⟨C, R, m0, t, hcleaned, hexec, hgone, hC, hR, hmem⟩ := exec_destroyQp
      (P := fun C R m => s.CleanedBoth { s with cqs := C, srqs := R, mem := m } x c1 c2) hs hn hx href hsrq hfw hrecs h1 h2 hd
      fun l out => by
        obtain ⟨v, hv, hrun⟩ := runs_cleanBoth (s := s.atCleaning s.me.op.qp q x a rest l out) hx hclean hsrq hobj
          (fun k i => State.atCleaning_holder hu nofun) (fun c => State.atCleaning_holder hu nofun)
          (fun r => State.atCleaning_holder hu nofun) hwf
        exact ⟨v.cqs, v.srqs, v.mem, v.bus, hv.wf, hv.of_same rfl rfl rfl rfl fun b hb => hb,
          fun k t => (hrun k t).trans (iff_of_eq (congrArg (Runs k · t) hv.frame))⟩
    refine ⟨t, hexec, hgone, hcleaned.cleanedOf hclean hsrq hC hR fun b y hy hb => ?_, fun b hb hb' =>
      (hmem b hb').trans (hcleaned.outside b hb)⟩
    refine hmem b fun r hr => ?_
    have hring := hapart r (List.mem_append_left _ hr) b
    obtain hout | ⟨hout1, hout2⟩ := hring
    · simp only [Outside] at *
      omega
    · rcases hy with hy | hy
      · cases hc1.symm.trans hy
        exact absurd hout1 hb
      · cases hc2.symm.trans hy
        exact absurd hout2 hb

end Sys2Proof.Machine
end

section
/-! SUPPORT. Ring geometry (R201 to R204, R291): capacities and slot sizes are least, offsets name their slots, WQEs fit. -/

namespace Sys2Proof.Machine

open Sys2Proof

/-! ### Powers of two -/

/-- `ceilLog2 n` is the least exponent whose power of two holds `n`. -/
theorem ceilLog2_le_iff {n k : Nat} : ceilLog2 n ≤ k ↔ n ≤ 2 ^ k := by
  unfold ceilLog2
  split_ifs with h
  · exact iff_of_true (Nat.zero_le k) (h.trans Nat.one_le_two_pow)
  · rw [Nat.succ_le_iff, Nat.log2_lt (by omega)]
    omega

theorem le_two_pow_ceilLog2 (n : Nat) : n ≤ 2 ^ ceilLog2 n := ceilLog2_le_iff.mp le_rfl

/-- `2 ^ ceilLog2 n` is the least power of two that is no less than `n`. -/
theorem leastPow_ceilLog2 (n : Nat) :
    (∃ k, 2 ^ ceilLog2 n = 2 ^ k) ∧ n ≤ 2 ^ ceilLog2 n ∧ ∀ k, n ≤ 2 ^ k → 2 ^ ceilLog2 n ≤ 2 ^ k :=
  ⟨⟨_, rfl⟩, le_two_pow_ceilLog2 n, fun _ h => Nat.pow_le_pow_right two_pos (ceilLog2_le_iff.mpr h)⟩

/-- A slot is the least, from `MIN_WQE_SHIFT` on, that holds `n` bytes (R202). -/
theorem slotShift_least (cfg : Config) (n : Nat) : cfg.minWqeShift ≤ slotShift cfg n ∧ n ≤ 2 ^ slotShift cfg n
    ∧ ∀ k, cfg.minWqeShift ≤ k → n ≤ 2 ^ k → slotShift cfg n ≤ k :=
  ⟨le_max_left _ _, (ceilLog2_le_iff.mp (le_max_right _ _)), fun _ hmin hn => max_le hmin (ceilLog2_le_iff.mpr hn)⟩

/-- `align_up` gives the least multiple (R8). -/
theorem alignUp_least {a : Nat} (ha : 0 < a) (x : Nat) :
    a ∣ alignUp x a ∧ x ≤ alignUp x a ∧ ∀ m, a ∣ m → x ≤ m → alignUp x a ≤ m := by
  have hdiv := Nat.div_add_mod (x + a - 1) a
  have hmod := Nat.mod_lt (x + a - 1) ha
  rw [Nat.mul_comm] at hdiv
  refine ⟨Dvd.intro_left _ rfl, ?_, ?_⟩
  · unfold alignUp
    omega
  · rintro _ ⟨c, rfl⟩ hx
    have hc : (x + a - 1) / a < c + 1 := by
      rw [Nat.div_lt_iff_lt_mul ha, Nat.add_mul, Nat.mul_comm c a]
      omega
    rw [alignUp, Nat.mul_comm a c]
    exact Nat.mul_le_mul_right a (Nat.le_of_lt_succ hc)

theorem alignUp_mono {x y : Nat} (a : Nat) (h : x ≤ y) : alignUp x a ≤ alignUp y a :=
  Nat.mul_le_mul_right a (Nat.div_le_div_right (by omega))

/-! ### The slot of an offset (R204, R304) -/

theorem Qp.wqeIndex_woff {x : Qp} {isSend : Bool} {i : Nat} (h : i < (x.ring isSend).capacity) :
    x.wqeIndex isSend (x.woff isSend i) = some i := by
  cases isSend <;> simp_all [Qp.wqeIndex, Qp.woff, Nat.shiftLeft_shiftRight]

theorem Srq.wqeIndex_woff {x : Srq} {i : Nat} (h : i < x.capacity) (hp : x.posted.getD i false = true) :
    x.wqeIndex (x.woff i) = some i := by
  simp only [Srq.wqeIndex, Srq.woff, Nat.shiftLeft_shiftRight]
  exact if_pos ⟨h, hp⟩

/-! ### The largest WQE of a ring (R202) -/

/-- Where requests can have entries or inline bytes, R202's formula; the slots of a ring for neither hold an empty inline segment
(notes/assumptions/38.md). -/
theorem sendBytes_eq (t : Transport) (gs inl : Nat) :
    (0 < gs ∨ 0 < inl → sendBytes t gs inl
      = 16 + transportBytes t + max (16 * gs) (if 0 < inl then (4 + inl + 15) / 16 * 16 else 0))
    ∧ sendBytes t 0 0 = 32 + transportBytes t := by
  refine ⟨fun h => ?_, ?_⟩
  · rcases Nat.eq_zero_or_pos inl with rfl | hinl
    · have : alignUp (4 + 0) 16 = 16 := rfl
      simp only [sendBytes, this, lt_self_iff_false, if_false]
      omega
    · rw [if_pos hinl]
      rfl
  · have : max (16 * 0) (alignUp (4 + 0) 16) = 16 := rfl
    rw [sendBytes, this]
    omega

/-! ### Every request that passes its checks fits (R119, R213 to R215) -/

theorem raddrFields_bytes (wr : SendWr) : fieldBytes (raddrFields wr) = 16 := rfl

theorem atomicFields_bytes (wr : SendWr) : fieldBytes (atomicFields wr) = 16 := by
  unfold atomicFields
  split <;> rfl

theorem udFields_bytes (mode : Mode) (wr : SendWr) : fieldBytes (udFields mode wr) = 48 := by
  cases mode <;> rfl

theorem mlxFields_bytes_le (x : Qp) (wr : SendWr) : fieldBytes (unitFields (mlxUnits x wr)) ≤ 64 := by
  have hunits : (mlxUnits x wr).length ≤ 4 := List.length_take_le ..
  rw [unitFields_bytes]
  omega

/-- The transport segments of a request that its transport accepts take no more than `T(t)` (R202, R218). -/
theorem transportFields_bytes_le {mode : Mode} {x : Qp} {wr : SendWr} (h : opcodeLegal x.transport wr.opcode = true) :
    fieldBytes (transportFields mode x wr) ≤ transportBytes x.transport := by
  unfold transportFields
  split
  · rename_i ht
    rw [ht, udFields_bytes]
    rfl
  · rename_i ht
    rw [ht]
    exact mlxFields_bytes_le x wr
  · rename_i hud hmlx
    have hcases : x.transport = .rc ∨ x.transport = .uc ∧ wr.opcode.toNat ≤ 3 := by
      cases ht : x.transport
      · exact .inl rfl
      · rw [ht] at h
        exact .inr ⟨rfl, of_decide_eq_true h⟩
      · exact absurd ht hud
      · exact absurd ht hmlx
    obtain ht | ⟨ht, hop⟩ := hcases <;> rw [ht] <;> split <;>
      simp [fieldBytes_append, raddrFields_bytes, atomicFields_bytes, fieldBytes, transportBytes] <;> omega

theorem sendSize_le_sendBytes {mode : Mode} {x : Qp} {wr : SendWr} (hop : opcodeLegal x.transport wr.opcode = true)
    (hsg : isInline wr = false → wr.sg.length ≤ x.sq.maxGs) (hinl : isInline wr = true → inlineLen wr.sg ≤ x.maxInline.toNat) :
    16 * sendSize mode x wr ≤ sendBytes x.transport x.sq.maxGs x.maxInline.toNat := by
  have htransport := transportFields_bytes_le (mode := mode) hop
  rw [sendSize_bytes, sendBytes]
  split
  · rename_i hin
    have := alignUp_mono 16 (Nat.add_le_add_left (hinl hin) 4)
    omega
  · rename_i hin
    have := hsg (Bool.eq_false_of_not_eq_true hin)
    omega

theorem one_le_sendSize (mode : Mode) (x : Qp) (wr : SendWr) : 1 ≤ sendSize mode x wr := by
  have := sendSize_bytes mode x wr
  omega

theorem recvSize_le {mode : Mode} {n gs : Nat} (h : n ≤ gs) : recvSize mode n gs ≤ 1 + gs := by
  unfold recvSize
  split <;> omega

/-- Settles O58: each clause is the lemma above about the function it names. -/
theorem geometry : Obligations.Geometry := by
  refine ⟨fun d => leastPow_ceilLog2 _, fun _ => rfl, fun d => leastPow_ceilLog2 _, fun x isSend i => Qp.wqeIndex_woff,
    fun x i => Srq.wqeIndex_woff, fun e he gs inl => ?_, slotShift_least, fun cap rs ss => ⟨rfl, ?_⟩, fun op s g hg => ?_,
    fun cfg mode x wr hshift hop hsg hinl => ?_, fun cfg mode n gs hn => ?_⟩
  · have ht : e.2 = transportBytes e.1 := by
      fin_cases he <;> rfl
    rw [ht]
    exact sendBytes_eq ..
  · have hleast := alignUp_least (Nat.two_pow_pos ss) (cap * 2 ^ rs)
    simpa only [sendOffset, Nat.shiftLeft_eq, Nat.one_mul, Bool.false_eq_true, if_false] using hleast
  · subst hg
    refine ⟨rfl, rfl, rfl, fun hsrq => ?_, fun hsrq => if_pos hsrq⟩
    simp [qpGeometry, recvBytes, rqMaxGsOf, hsrq]
  · have hsize := sendSize_le_sendBytes (mode := mode) hop hsg hinl
    rw [hshift]
    exact ⟨one_le_sendSize .., hsize.trans (slotShift_least cfg _).2.1, fun h => by omega⟩
  · have hsize := recvSize_le (mode := mode) hn
    have hslot := (slotShift_least cfg (16 + 16 * gs)).2.1
    exact ⟨Nat.le_add_right_of_le (Nat.le_add_right 1 n), by omega, fun h => by omega⟩

end Sys2Proof.Machine
end

section
/-! SUPPORT. A post in progress (R212, R230, R232, R374): the state it runs in, its start, how it ends; the posts that end at once. -/

namespace Sys2Proof.Machine

open Sys2Proof

/-! ### The state of a post -/

/-- A post of the current agent in progress, on the object of a handle: `ls` are the locks held, `b` is the batch, `m` and `l` are what
it has made of memory and the bus. -/
def State.posting (s : State) (i : Instr) (h : Handle) (ls : List (Lock × Nat)) (b : Batch) (m : List Host.Cell)
    (l : List BusEvent) : State :=
  (((s.setMe { op := s.me.op, cmd := some i, uses := [h], batch := b }).setLocks ls).setMem m).setBus l

/-- A post that has ended, in a state that its objects, memory and the bus are in. -/
def State.postEnded (s : State) (m : List Host.Cell) (l : List BusEvent) (st : Status) (k : Nat) : State :=
  ((s.setMem m).setBus l).ended { status := some st, badIndex := some (BitVec.ofNat 32 k) }

section

variable {s s' t : State} {i : Instr} {h : Handle} {ls ls' : List (Lock × Nat)} {b b' : Batch} {m m' : List Host.Cell}
  {l l' : List BusEvent} {lk : Lock} {k : Nat} {st : Status}

@[simp] theorem State.posting_me : (s.posting i h ls b m l).me = { op := s.me.op, cmd := some i, uses := [h], batch := b } := by
  simp [State.posting]

@[simp] theorem State.posting_setBatch : (s.posting i h ls b m l).setBatch b' = s.posting i h ls b' m l := by
  rw [State.setBatch, State.posting_me]
  ext1 <;> simp [State.posting]

@[simp] theorem State.posting_mode : (s.posting i h ls b m l).mode = s.mode := rfl
@[simp] theorem State.posting_cfg : (s.posting i h ls b m l).cfg = s.cfg := rfl
@[simp] theorem State.posting_mem : (s.posting i h ls b m l).mem = m := rfl
@[simp] theorem State.posting_locks : (s.posting i h ls b m l).locks = ls := rfl
@[simp] theorem State.posting_cur : (s.posting i h ls b m l).cur = s.cur := rfl
@[simp] theorem State.posting_qp (q : Nat) : (s.posting i h ls b m l).qp? q = s.qp? q := rfl
@[simp] theorem State.posting_srq (r : Nat) : (s.posting i h ls b m l).srq? r = s.srq? r := rfl
@[simp] theorem State.posting_setLocks : (s.posting i h ls b m l).setLocks ls' = s.posting i h ls' b m l := rfl

/-- The start of a post: its batch is empty, nothing is written. -/
theorem State.holding_setBatch : (s.holding i h lk).setBatch b = s.posting i h [(lk, s.cur)] b s.mem s.bus := by
  have hstart : s.holding i h lk = s.posting i h [(lk, s.cur)] {} s.mem s.bus := rfl
  rw [hstart, State.posting_setBatch]

theorem runs_dbBegin {rr : RingRef} {p : Prog} :
    Runs (dbBegin rr p) (s.holding i h lk) t ↔ Runs p (s.posting i h [(lk, s.cur)] { ring := some rr } s.mem s.bus) t := by
  rw [dbBegin, runs_eff, State.holding_setBatch]

/-! ### How a post ends (R11, R230) -/

/-- Once a post has released its lock and rung the doorbell it owes, it responds. -/
theorem posting_respond (hu : s.unlocked) (r : Response → Response) :
    ((s.posting i h [] b m l).setResp r).endCmd = ((s.setMem m).setBus l).ended (r {}) := by
  have hl : s.locks = [] := hu
  ext1 <;> simp [State.posting, State.ended, hl]

/-- A post that has run out of requests, and one that fails at a request: both release the lock and ring what is owed. -/
theorem runs_postEnd (hd : ∀ ls, dbEndAct (s.posting i h ls b m l) = .ok 0 (s'.posting i h ls b' m' l')) (hu : s'.unlocked)
    (hc : s'.cur = s.cur) :
    (Runs (dbEnd <| release lk <| respond .ok (some k)) (s.posting i h [(lk, s.cur)] b m l) t ↔ t = s'.postEnded m' l' .ok k)
    ∧ (Runs (raise st (some k)) (s.posting i h [(lk, s.cur)] b m l) t ↔ t = s'.postEnded m' l' st k) := by
  refine ⟨?_, ?_⟩
  · rw [dbEnd, runs_act_ok (hd _), runs_release_newest (l := []) (by simp [hc]) rfl, runs_respond, State.posting_setLocks,
      posting_respond hu]
    rfl
  · rw [runs_raise_owing (s := s.posting i h [(lk, s.cur)] b m l) (l := []) (hd []) rfl rfl rfl, posting_respond hu]
    rfl

theorem dbEndAct_owesNone (hb : b.cnt = 0) : dbEndAct (s.posting i h ls b m l) = .ok 0 (s.posting i h ls b m l) := by
  simp [dbEndAct, hb]

/-- A post whose first request fails has changed nothing. -/
theorem runs_raise_first (hu : s.unlocked) (hb : b.cnt = 0) :
    Runs (raise st (some 0)) (s.posting i h [(lk, s.cur)] b s.mem s.bus) t
      ↔ t = s.ended { status := some st, badIndex := some 0 } :=
  (runs_postEnd (k := 0) (fun _ => dbEndAct_owesNone hb) hu rfl).2

/-- A post without requests changes nothing. -/
theorem runs_dbEnd_first (hu : s.unlocked) (hb : b.cnt = 0) :
    Runs (dbEnd <| release lk <| respond .ok (some 0)) (s.posting i h [(lk, s.cur)] b s.mem s.bus) t
      ↔ t = s.ended { status := some .ok, badIndex := some 0 } :=
  (runs_postEnd (k := 0) (st := .ok) (fun _ => dbEndAct_owesNone hb) hu rfl).1

end

/-! ### The start of a post (R212) -/

/-- The ring of a QP that its send or receive posts go to. -/
def qpRing (q : Nat) (isSend : Bool) : RingRef :=
  match isSend with
  | true => .sq q
  | false => .rq q

section

variable {s t : State} {i : Instr} {op : Operands} {q r : Nat} {x : Qp} {k : Nat → Prog}

theorem runs_postSend_start (hs : s.quietStart) (hn : s.names .qp op.qp q) (hx : s.qp? q = some x)
    (hok : postStateOk s.cfg x.state true = true) :
    Runs (postSendProg op) (s.beginCmd i) t ↔
      Runs (sendLoop q 0 op.sendWrs) (s.posting i op.qp [(.sq q, s.cur)] { ring := some (.sq q) } s.mem s.bus) t := by
  obtain ⟨⟨-, -, hu⟩, hstarted, hfatal⟩ := hs
  exact (runs_postStart true i hu hstarted hfatal hn hx hok).trans runs_dbBegin

theorem runs_postRecv_start (hs : s.quietStart) (hn : s.names .qp op.qp q) (hx : s.qp? q = some x)
    (hok : postStateOk s.cfg x.state false = true) :
    Runs (postRecvProg op) (s.beginCmd i) t ↔
      Runs (recvLoop q 0 op.recvWrs) (s.posting i op.qp [(.rq q, s.cur)] { ring := some (.rq q) } s.mem s.bus) t := by
  obtain ⟨⟨-, -, hu⟩, hstarted, hfatal⟩ := hs
  exact (runs_postStart false i hu hstarted hfatal hn hx hok).trans runs_dbBegin

theorem runs_postSrqRecv_start {h : Handle} (hs : s.quietStart) (hop : op.srq = some h) (hn : s.names .srq h r) :
    Runs (postSrqRecvProg op) (s.beginCmd i) t ↔
      Runs (srqLoop r 0 op.recvWrs) (s.posting i h [(.srq r, s.cur)] { ring := some (.srq r) } s.mem s.bus) t := by
  obtain ⟨⟨-, -, hu⟩, hstarted, hfatal⟩ := hs
  have hopd : srqOperand op = h := by rw [srqOperand, hop, Option.getD_some]
  rw [postSrqRecvProg, hopd]
  exact (runs_srqLocked hu hstarted hfatal hn true (some 0) i).trans runs_dbBegin

/-- A post to a QP whose state does not accept it (R212). -/
theorem runs_postOn_refused (isSend : Bool) (hs : s.quietStart) (hn : s.names .qp op.qp q) (hx : s.qp? q = some x)
    (hok : postStateOk s.cfg x.state isSend = false) :
    Runs (if isSend then postSendOn op (some 0) k else postRecvOn op (some 0) k) (s.beginCmd i) t
      ↔ t = s.ended { status := some .invalidQpState, badIndex := some 0 } := by
  obtain ⟨⟨-, -, hu⟩, hstarted, hfatal⟩ := hs
  have hfree : ∀ l, ((s.beginCmd i).noteUse true op.qp).holder l = none := fun l => hu.holder _
  have hstate : ∀ l, postStateAct q isSend (s.holding i op.qp l) = .ok 0 (s.holding i op.qp l) := by
    intro l
    have hx' : (s.holding i op.qp l).qp? q = some x := hx
    have hcfg : (s.holding i op.qp l).cfg = s.cfg := rfl
    rw [postStateAct, withQp_eq hx', hcfg, hok]
    rfl
  have hraise : ∀ l, Runs (raise .invalidQpState (some 0)) (s.holding i op.qp l) t
      ↔ t = s.ended { status := some .invalidQpState, badIndex := some 0 } := fun l =>
    runs_raise_first (b := {}) hu rfl
  cases isSend <;> simp only [Bool.false_eq_true, if_false, if_true, postSendOn, postRecvOn] <;>
    rw [runs_precond (by simpa) (by simp [hfatal]),
      runs_resolve_found (by simpa using hn.1) hn.2 (by simp) ((hu.begin _).holder _), runs_acquire, noteUse_locked hu] <;>
    simp only [hfree, true_and] <;>
    exact (runs_act_ok (hstate _)).trans (hraise _)

end

/-- Settles O35: the loop over an empty list rings nothing and answers. -/
theorem postEmpty : Obligations.PostEmpty := by
  intro s op hs hop
  subst hop
  have hu := hs.1.2.2
  refine ⟨fun q x hlist hn hx hok => hs.runCmd ?_, fun q x hlist hn hx hok => hs.runCmd ?_, fun h r hlist hsrq hn => hs.runCmd ?_⟩
  · rw [runs_postSend_start hs hn hx hok, hlist]
    exact (runs_dbEnd_first hu rfl).mpr rfl
  · rw [runs_postRecv_start hs hn hx hok, hlist]
    exact (runs_dbEnd_first hu rfl).mpr rfl
  · rw [runs_postSrqRecv_start hs hsrq hn, hlist]
    exact (runs_dbEnd_first hu rfl).mpr rfl

/-! ### The checks of a request (R210, R213 to R216, R374) -/

section

variable {s t : State} {i : Instr} {h : Handle} {q k : Nat} {x : Qp} {b : Batch} {m : List Host.Cell} {l : List BusEvent}

/-- A post that finds its ring full fails at this request (R210). -/
theorem runs_overflow_posting {isSend : Bool} {c : Nat} {lk : Lock} {full room : Prog} (hx : s.qp? q = some x)
    (hfull : (x.ring isSend).capacity ≤ (x.ring isSend).count) (hn : s.names .cq (x.cqOf isSend) c)
    (hlk : ∀ y, (∃ k i, y = Lock.shard k i) ∨ y = .cq c → lk ≠ y) :
    Runs (overflow q isSend full room) (s.posting i h [(lk, s.cur)] b m l) t
      ↔ Runs full (s.posting i h [(lk, s.cur)] b m l) t := by
  refine runs_overflow_full (s := s.posting i h [(lk, s.cur)] b m l) hx hfull hn fun y hy => ?_
  exact if_neg (hlk y hy)

/-- A send request that finds room in the ring, and fails one of its checks. -/
theorem runs_sendLoop_fails {wr : SendWr} {wrs : List SendWr} {st : Status} {ls : List (Lock × Nat)} (hx : s.qp? q = some x)
    (hroom : x.sq.count < x.sq.capacity) (hf : sendFails x wr st) :
    Runs (sendLoop q k (wr :: wrs)) (s.posting i h ls b m l) t ↔ Runs (raise st (some k)) (s.posting i h ls b m l) t := by
  have hx' : (s.posting i h ls b m l).qp? q = some x := hx
  rw [sendLoop, runs_overflow_room (isSend := true) hx' hroom]
  obtain ⟨hop, rfl⟩ | ⟨hop, hin, hsg, rfl⟩ | ⟨hop, hin, hlen, rfl⟩ := hf
  · rw [runs_act_ok (a := 1) (s' := s.posting i h ls b m l) (by rw [sendCheckAct, withQp_eq hx']; simp [hop])]
    simp
  · rw [runs_act_ok (a := 2) (s' := s.posting i h ls b m l) (by rw [sendCheckAct, withQp_eq hx']; simp [hop, hin, hsg])]
    simp
  · rw [runs_act_ok (a := 3) (s' := s.posting i h ls b m l) (by rw [sendCheckAct, withQp_eq hx']; simp [hop, hin, hlen])]
    simp

/-- A receive request that finds room in the ring, and has too many entries. -/
theorem runs_recvLoop_fails {wr : RecvWr} {wrs : List RecvWr} {ls : List (Lock × Nat)} (hx : s.qp? q = some x)
    (hroom : x.rq.count < x.rq.capacity) (hsg : x.rq.maxGs < wr.sg.length) :
    Runs (recvLoop q k (wr :: wrs)) (s.posting i h ls b m l) t
      ↔ Runs (raise .tooManySge (some k)) (s.posting i h ls b m l) t := by
  have hx' : (s.posting i h ls b m l).qp? q = some x := hx
  rw [recvLoop, runs_overflow_room (isSend := false) hx' hroom,
    runs_act_ok (a := 1) (s' := s.posting i h ls b m l) (by rw [recvCheckAct, withQp_eq hx']; simp [hsg])]
  simp

/-- A request that finds the free list of its SRQ empty, or has too many entries. -/
theorem runs_srqLoop_fails {r : Nat} {y : Srq} {wr : RecvWr} {wrs : List RecvWr} {ls : List (Lock × Nat)} {st : Status}
    (hy : s.srq? r = some y)
    (hf : (y.freeHead = none ∧ st = .queueFull) ∨ (y.freeHead ≠ none ∧ y.maxGs < wr.sg.length ∧ st = .tooManySge)) :
    Runs (srqLoop r k (wr :: wrs)) (s.posting i h ls b m l) t ↔ Runs (raise st (some k)) (s.posting i h ls b m l) t := by
  have hy' : (s.posting i h ls b m l).srq? r = some y := hy
  rw [srqLoop]
  obtain ⟨hnone, rfl⟩ | ⟨hsome, hsg, rfl⟩ := hf
  · rw [runs_act_ok (a := 1) (s' := s.posting i h ls b m l) (by rw [srqCheckAct, withSrq_eq hy']; simp [hnone])]
    simp
  · rw [runs_act_ok (a := 2) (s' := s.posting i h ls b m l) (by rw [srqCheckAct, withSrq_eq hy']; simp [hsome, hsg])]
    simp

end

section

variable {s : State} {op : Operands} {q : Nat} {x : Qp} {i : Instr} {prog : Operands → Prog}

/-- A send post, by whichever instruction, whose first request finds the ring full. -/
theorem runCmd_send_full {c : Nat} {wr : SendWr} {wrs : List SendWr} (hs : s.quietStart) (hprog : prog s.me.op = postSendProg op)
    (hlist : op.sendWrs = wr :: wrs) (hn : s.names .qp op.qp q) (hx : s.qp? q = some x)
    (hok : postStateOk s.cfg x.state true = true) (hfull : x.sq.capacity ≤ x.sq.count) (hc : s.names .cq x.sendCq c) :
    runCmd i prog s = .next (s.ended { status := some .queueFull, badIndex := some 0 }) := by
  refine hs.runCmd ?_
  rw [hprog, runs_postSend_start hs hn hx hok, hlist, sendLoop,
    runs_overflow_posting (isSend := true) hx hfull hc (by rintro y (⟨k, i, rfl⟩ | rfl) <;> exact nofun)]
  exact (runs_raise_first hs.1.2.2 rfl).mpr rfl

/-- A send post, by whichever instruction, whose first request fails a check. -/
theorem runCmd_send_fails {wr : SendWr} {wrs : List SendWr} {st : Status} (hs : s.quietStart)
    (hprog : prog s.me.op = postSendProg op) (hlist : op.sendWrs = wr :: wrs) (hn : s.names .qp op.qp q)
    (hx : s.qp? q = some x) (hok : postStateOk s.cfg x.state true = true) (hroom : x.sq.count < x.sq.capacity)
    (hf : sendFails x wr st) : runCmd i prog s = .next (s.ended { status := some st, badIndex := some 0 }) := by
  refine hs.runCmd ?_
  rw [hprog, runs_postSend_start hs hn hx hok, hlist, runs_sendLoop_fails hx hroom hf]
  exact (runs_raise_first hs.1.2.2 rfl).mpr rfl

end

/-- No transport has an opcode 7 (R213). -/
theorem opcodeLegal_seven (t : Transport) : opcodeLegal t 7 = false := by
  cases t <;> decide

/-- Settles O40: each check raises its status before anything is written (`runs_raise_first`). -/
theorem postRejected : Obligations.PostRejected := by
  intro s op hs hop
  subst hop
  have hu := hs.1.2.2
  refine ⟨fun q x hn hx => ⟨?_, fun hok => ?_, fun wr wrs hlist hok => ⟨fun c hfull hc => ?_, fun hroom => ⟨fun hop => ?_,
    fun hop hin hsg => ?_, fun hop hin hlen => ?_⟩⟩, fun c hok hfull hc => ?_, fun hok hroom => ?_,
    fun wr wrs hlist hok => ⟨fun c hfull hc => ?_, fun hroom hsg => ?_⟩⟩, fun h r y wr wrs hsrq hn hy hlist => ?_⟩
  · rintro i (rfl | rfl) hok
    · exact hs.runCmd ((runs_postOn_refused true hs hn hx hok).mpr rfl)
    · exact hs.runCmd ((runs_postOn_refused (op := singleSend 7 s.me.op) true hs hn hx hok).mpr rfl)
  · exact hs.runCmd ((runs_postOn_refused false hs hn hx hok).mpr rfl)
  · exact runCmd_send_full hs rfl hlist hn hx hok hfull hc
  · exact runCmd_send_fails hs rfl hlist hn hx hok hroom (.inl ⟨hop, rfl⟩)
  · exact runCmd_send_fails hs rfl hlist hn hx hok hroom (.inr (.inl ⟨hop, hin, hsg, rfl⟩))
  · exact runCmd_send_fails hs rfl hlist hn hx hok hroom (.inr (.inr ⟨hop, hin, hlen, rfl⟩))
  · exact runCmd_send_full (op := singleSend 7 s.me.op) hs rfl rfl hn hx hok hfull hc
  · exact runCmd_send_fails (op := singleSend 7 s.me.op) hs rfl rfl hn hx hok hroom (.inl ⟨opcodeLegal_seven _, rfl⟩)
  · refine hs.runCmd ?_
    rw [runs_postRecv_start hs hn hx hok, hlist, recvLoop,
      runs_overflow_posting (isSend := false) hx hfull hc (by rintro y (⟨k, i, rfl⟩ | rfl) <;> exact nofun)]
    exact (runs_raise_first hu rfl).mpr rfl
  · refine hs.runCmd ?_
    rw [runs_postRecv_start hs hn hx hok, hlist, runs_recvLoop_fails hx hroom hsg]
    exact (runs_raise_first hu rfl).mpr rfl
  · have hfails : ∀ st, (y.freeHead = none ∧ st = .queueFull) ∨ (y.freeHead ≠ none ∧ y.maxGs < wr.sg.length ∧ st = .tooManySge) →
        exec .postSrqRecv s = .next (s.ended { status := some st, badIndex := some 0 }) := by
      intro st hf
      refine hs.runCmd ?_
      rw [runs_postSrqRecv_start hs hsrq hn, hlist, runs_srqLoop_fails hy hf]
      exact (runs_raise_first hu rfl).mpr rfl
    exact ⟨fun hnone => hfails _ (.inl ⟨hnone, rfl⟩), fun hsome hsg => hfails _ (.inr ⟨hsome, hsg, rfl⟩)⟩

end Sys2Proof.Machine
end

section
/-! SUPPORT. The WQE of a request in memory (R217 to R222): a run of bytes written, the slot and the chain tail's header written, the
doorbell record written; then a list of requests, one WQE after another. -/

namespace Sys2Proof.Machine

open Sys2Proof

/-! ### A run of bytes -/

/-- `m'` is `m` with the bytes `bs` written from `a` on. -/
structure Wrote (m m' : List Host.Cell) (a : Nat) (bs : List Byte) : Prop where
  wf : Memory.wf m' = true
  read : memGetBytes m' a bs.length = bs
  frame : ∀ b, Outside b (a, bs.length) → memGet m' b = memGet m b

section

variable {m m1 m' : List Host.Cell} {a p : Nat} {bs cs : List Byte}

theorem wrote_memPutBytes (hm : Memory.wf m = true) (a : Nat) (bs : List Byte) : Wrote m (memPutBytes m a bs) a bs :=
  ⟨memPutBytes_wf _ _ _ hm, memGetBytes_memPutBytes _ _ _ hm, fun _ hb => memGet_memPutBytes_outside _ _ _ _ hb⟩

theorem Wrote.nil (hm : Memory.wf m = true) (a : Nat) : Wrote m m a [] := ⟨hm, rfl, fun _ _ => rfl⟩

/-- A run of bytes that a write elsewhere has left alone. -/
theorem Wrote.read_outside (h : Wrote m m' a bs) {n : Nat} (hp : p + n ≤ a ∨ a + bs.length ≤ p) :
    memGetBytes m' p n = memGetBytes m p n :=
  memGetBytes_congr _ _ _ _ fun b _ _ => h.frame b (by simp only [Outside]; omega)

theorem Wrote.append (h : Wrote m m1 a bs) (h' : Wrote m1 m' (a + bs.length) cs) : Wrote m m' a (bs ++ cs) := by
  refine ⟨h'.wf, ?_, fun b hb => ?_⟩
  · rw [List.length_append, memGetBytes_add, h'.read, h'.read_outside (.inl le_rfl), h.read]
  · simp only [Outside, List.length_append] at hb
    exact (h'.frame b (by simp only [Outside]; omega)).trans (h.frame b (by simp only [Outside]; omega))

end

/-! ### Events on the bus other than doorbells -/

/-- `l'` is the bus after events of which none is a doorbell. -/
def Silent (l l' : List BusEvent) : Prop := ∃ e, l' = e ++ l ∧ ∀ a off w0 w1, BusEvent.mmio a off w0 w1 ∉ e

theorem Silent.refl (l : List BusEvent) : Silent l l := ⟨[], rfl, fun _ _ _ _ => List.not_mem_nil⟩

theorem Silent.trans {l l' l'' : List BusEvent} (h : Silent l l') (h' : Silent l' l'') : Silent l l'' := by
  obtain ⟨e, rfl, he⟩ := h
  obtain ⟨e', rfl, he'⟩ := h'
  refine ⟨e' ++ e, (List.append_assoc ..).symm, fun a off w0 w1 hmem => ?_⟩
  exact (List.mem_append.mp hmem).elim (he' a off w0 w1) (he a off w0 w1)

theorem Silent.cons {l : List BusEvent} {e : BusEvent} (he : ∀ a off w0 w1, e ≠ .mmio a off w0 w1) : Silent l (e :: l) :=
  ⟨[e], rfl, fun a off w0 w1 hmem => he a off w0 w1 (List.mem_singleton.mp hmem).symm⟩

theorem Silent.write (l : List BusEvent) (c a : Nat) (bs : List Byte) : Silent l (.write c a bs :: l) := .cons nofun

theorem Silent.wmb (l : List BusEvent) (c : Nat) : Silent l (.wmb c :: l) := .cons nofun

/-- Such events ring no doorbell. -/
theorem Silent.doorbells {l l' : List BusEvent} (h : Silent l l') (s : State) :
    (s.setBus l').doorbells = (s.setBus l).doorbells := by
  obtain ⟨e, rfl, he⟩ := h
  have hnone : (s.setBus e).doorbells = [] := List.filterMap_eq_nil_iff.mpr fun a ha => by
    cases a with
    | mmio a off w0 w1 => exact absurd ha (he a off w0 w1)
    | _ => rfl
  have happend : (s.setBus (e ++ l)).doorbells = (s.setBus e).doorbells ++ (s.setBus l).doorbells := List.filterMap_append ..
  rw [happend, hnone, List.nil_append]

/-! ### What a post writes -/

section

variable {s : State} {i : Instr} {h : Handle} {ls : List (Lock × Nat)} {b : Batch} {m : List Host.Cell} {l : List BusEvent}

theorem posting_wmb : (s.posting i h ls b m l).wmb = s.posting i h ls b m (.wmb s.cur :: l) := rfl

theorem posting_writeBytes (a : Nat) (bs : List Byte) :
    (s.posting i h ls b m l).writeBytes a bs = s.posting i h ls b (memPutBytes m a bs) (.write s.cur a bs :: l) := rfl

theorem posting_writeFields (hm : Memory.wf m = true) (a : Nat) (fs : List (Nat × Nat)) :
    ∃ m' l', (s.posting i h ls b m l).writeFields a fs = s.posting i h ls b m' l' ∧ Wrote m m' a (layout fs) ∧ Silent l l' := by
  induction fs generalizing m l a with
  | nil => exact ⟨m, l, rfl, .nil hm a, .refl l⟩
  | cons f fs ih =>
    obtain ⟨n, v⟩ := f
    have hfirst := wrote_memPutBytes hm a (beBytes n v)
    obtain ⟨m', l', hrun, hrest, hsilent⟩ := ih hfirst.wf (a + n) (l := .write s.cur a (beBytes n v) :: l)
    exact ⟨m', l', hrun, hfirst.append (by rwa [beBytes_length]), (Silent.write ..).trans hsilent⟩

/-- The inline segment: its length word, then the data, read before they are written (R117, R219). -/
theorem posting_writeInline (hm : Memory.wf m = true) (a : Nat) (sg : List Sge) :
    ∃ m' l' data, (s.posting i h ls b m l).writeInline a sg = s.posting i h ls b m' l'
      ∧ Wrote m m' a (layout [(4, (inlineWord sg).toNat)] ++ data) ∧ Silent l l' ∧ data.length = inlineLen sg
      ∧ ((∀ e ∈ sg, ∀ k, k < e.length.toNat → Outside (e.addr.toNat + k) (a, 4)) → data = inlineBytes m sg) := by
  have hlayout : layout [(4, (inlineWord sg).toNat)] = beBytes 4 (inlineWord sg).toNat := List.append_nil _
  have hword := wrote_memPutBytes hm a (beBytes 4 (inlineWord sg).toNat)
  have hdata := wrote_memPutBytes hword.wf (a + 4) (inlineBytes (memPutBytes m a (beBytes 4 (inlineWord sg).toNat)) sg)
  simp only [State.writeInline, State.memWrite, posting_writeBytes, State.posting_mem]
  rw [hlayout]
  exact ⟨_, _, _, rfl, hword.append (by rwa [beBytes_length]), (Silent.write ..).trans (Silent.write ..), inlineBytes_length _ _,
    fun hapart => inlineBytes_congr _ _ _ fun e he k hk => hword.frame _ (hapart e he k hk)⟩

end

/-! ### One WQE -/

/-- `m'` is `m` after the post of a WQE in the slot at `a`, of at most `n` bytes, which the header at `p` links to: `body` says what the
slot holds after its header, `link` and `nds` are the words of the link, `v` is what the doorbell records at `recs` hold. -/
structure WqePosted (m m' : List Host.Cell) (a n p : Nat) (recs : List Nat) (body : List Byte → Prop) (link nds : Word) (v : Nat) :
    Prop where
  wf : Memory.wf m' = true
  header : a ≠ p → memGetBytes m' a 8 = layout [(4, 0), (4, 0)]
  body : ∃ bs, 8 + bs.length ≤ n ∧ body bs ∧ memGetBytes m' (a + 8) bs.length = bs
  link : beNat (memGetBytes m' p 4) = link.toNat
  nds : beNat (memGetBytes m' (p + 4) 4) = nds.toNat
  record : ∀ d ∈ recs, beNat (memGetBytes m' d 4) = v
  frame : ∀ b, Outside b (a, n) → Outside b (p, 8) → (∀ d ∈ recs, Outside b (d, 4)) → memGet m' b = memGet m b

/-- A word just written reads back. -/
theorem beNat_beBytes_word (w : Word) : beNat (beBytes 4 w.toNat) = w.toNat :=
  (beNat_beBytes 4 w.toNat).trans (Nat.mod_eq_of_lt w.isLt)

/-- `m'` is `m` with a word written to each of some doorbell records: to none, or to one. -/
structure Recorded (m m' : List Host.Cell) (recs : List Nat) (v : Nat) : Prop where
  wf : Memory.wf m' = true
  record : ∀ d ∈ recs, beNat (memGetBytes m' d 4) = v
  frame : ∀ b, (∀ d ∈ recs, Outside b (d, 4)) → memGet m' b = memGet m b

theorem Recorded.read_outside {m m' : List Host.Cell} {recs : List Nat} {v p n : Nat} (h : Recorded m m' recs v)
    (hp : ∀ d ∈ recs, ∀ b, p ≤ b → b < p + n → Outside b (d, 4)) : memGetBytes m' p n = memGetBytes m p n :=
  memGetBytes_congr _ _ _ _ fun b hb hb' => h.frame b fun d hd => hp d hd b hb hb'

/-- The slot, the chain tail's header and the record, written one after another. -/
theorem WqePosted.of_wrote {m m1 m2 m' : List Host.Cell} {a n p v : Nat} {recs : List Nat} {bs : List Byte}
    {body : List Byte → Prop} {link nds : Word} (hslot : Wrote m m1 a (layout [(4, 0), (4, 0)] ++ bs))
    (hlink : Wrote m1 m2 p (beBytes 4 link.toNat ++ beBytes 4 nds.toNat)) (hrec : Recorded m2 m' recs v)
    (hbody : body bs) (hn : 8 + bs.length ≤ n) (hap : a = p ∨ a + n ≤ p ∨ p + n ≤ a)
    (hrecs : ∀ d ∈ recs, ∀ b, Outside b (d, 4) ∨ Outside b (a, n) ∧ Outside b (p, 8)) :
    WqePosted m m' a n p recs body link nds v := by
  have hlen : (layout [(4, 0), (4, 0)] ++ bs).length = 8 + bs.length := List.length_append
  have hlen' : (beBytes 4 link.toNat ++ beBytes 4 nds.toNat).length = 8 := by simp
  have hkeep : ∀ c k, (a ≤ c ∧ c + k ≤ a + n) ∨ (p ≤ c ∧ c + k ≤ p + 8) → memGetBytes m' c k = memGetBytes m2 c k :=
    fun c k hc => hrec.read_outside fun d hd b hb hb' => (hrecs d hd b).resolve_right fun hout => by
      simp only [Outside] at hout
      omega
  have hread := hslot.read
  rw [hlen, memGetBytes_add] at hread
  obtain ⟨hheader, hbs⟩ := List.append_inj hread (by simp [fieldBytes])
  have hwords := hlink.read
  rw [hlen', show (8 : Nat) = 4 + 4 from rfl, memGetBytes_add] at hwords
  obtain ⟨hword, hword'⟩ := List.append_inj hwords (by simp)
  refine ⟨hrec.wf, fun hne => ?_, ⟨bs, hn, hbody, ?_⟩, ?_, ?_, hrec.record, fun b hb hb' hbr => ?_⟩
  · rw [hkeep a 8 (by omega), hlink.read_outside (by omega), hheader]
  · rw [hkeep (a + 8) bs.length (by omega), hlink.read_outside (by omega), hbs]
  · rw [hkeep p 4 (by omega), hword, beNat_beBytes_word]
  · rw [hkeep (p + 4) 4 (by omega), hword', beNat_beBytes_word]
  · simp only [Outside] at hb hb'
    rw [hrec.frame b hbr, hlink.frame b (by simp only [Outside]; omega), hslot.frame b (by simp only [Outside]; omega)]

/-! ### The WQEs of a list -/

/-- What a list of requests writes to a ring: where each slot is, the doorbell records, and for the request at each place of the list
the bytes of its WQE, what they are after the header, and the words of its link. -/
structure PostPlan where
  ring : Ring
  addr : Nat → Nat
  recs : List Nat
  bytes : Nat → Nat
  body : Nat → List Byte → Prop
  link : Nat → Word
  nds : Nat → Word

/-- The slots of the plan share no byte with each other or with the doorbell records; the first `n` WQEs fit in their slots, of
`2 ^ shift` bytes. -/
structure PostPlan.Fits (P : PostPlan) (n : Nat) : Prop where
  room : n ≤ P.ring.capacity
  bytes : ∀ j < n, 8 ≤ P.bytes j ∧ P.bytes j ≤ 2 ^ P.ring.shift
  slots : ∀ i j, i < P.ring.capacity → j < P.ring.capacity → i ≠ j →
    P.addr i + 2 ^ P.ring.shift ≤ P.addr j ∨ P.addr j + 2 ^ P.ring.shift ≤ P.addr i
  recs : ∀ d ∈ P.recs, ∀ i < P.ring.capacity, ∀ b, Outside b (d, 4) ∨ Outside b (P.addr i, 2 ^ P.ring.shift)

/-- `m` is `m0` after the first `k` requests of the plan, where their doorbell records hold `v`. A link that a later WQE of the list
overwrites is not claimed: where the list fills the ring, the last WQE stands in the first chain tail. -/
structure PostPlan.Done (P : PostPlan) (m0 m : List Host.Cell) (k v : Nat) : Prop where
  wf : Memory.wf m = true
  body : ∀ j < k, ∃ bs, 8 + bs.length ≤ P.bytes j ∧ P.body j bs ∧ memGetBytes m (P.addr (P.ring.slotOf j) + 8) bs.length = bs
  links : ∀ j < k, 0 < j ∨ k < P.ring.capacity → beNat (memGetBytes m (P.addr (P.ring.tailOf j)) 4) = (P.link j).toNat
    ∧ beNat (memGetBytes m (P.addr (P.ring.tailOf j) + 4) 4) = (P.nds j).toNat
  record : 0 < k → ∀ d ∈ P.recs, beNat (memGetBytes m d 4) = v
  frame : ∀ b, (∀ j < k, Outside b (P.addr (P.ring.slotOf j), P.bytes j) ∧ Outside b (P.addr (P.ring.tailOf j), 8)) →
    (∀ d ∈ P.recs, Outside b (d, 4)) → memGet m b = memGet m0 b

section

variable {r : Ring}

theorem Ring.slotOf_lt {j : Nat} (h : 0 < r.capacity) : r.slotOf j < r.capacity := Nat.mod_lt _ h

/-- The slots of requests less than a round apart differ. -/
theorem Ring.slotOf_ne {j k : Nat} (h : j < k) (hk : k < j + r.capacity) : r.slotOf j ≠ r.slotOf k := by
  intro heq
  have hdvd : r.capacity ∣ (r.nextInd + k) - (r.nextInd + j) := (Nat.modEq_iff_dvd' (by omega)).mp heq
  have := Nat.le_of_dvd (by omega) hdvd
  omega

/-- The chain tail of a request is the slot of the one before it. -/
theorem Ring.tailOf_succ (r : Ring) (j : Nat) : r.tailOf (j + 1) = r.slotOf j := by
  rw [Ring.tailOf, Ring.slotOf, show r.nextInd + (j + 1) + r.capacity - 1 = r.nextInd + j + r.capacity by omega, Nat.add_mod_right]

/-- The first chain tail is a round's last slot. -/
theorem Ring.tailOf_zero (h : 0 < r.capacity) : r.tailOf 0 = r.slotOf (r.capacity - 1) := by
  rw [Ring.tailOf, Ring.slotOf, show r.nextInd + 0 + r.capacity - 1 = r.nextInd + (r.capacity - 1) by omega]

theorem Ring.tailOf_lt {j : Nat} (h : 0 < r.capacity) : r.tailOf j < r.capacity := Nat.mod_lt _ h

end

namespace PostPlan

variable {P : PostPlan} {m0 m m' : List Host.Cell} {n k v v' : Nat}

theorem Done.start (hm : Memory.wf m0 = true) (v : Nat) : P.Done m0 m0 0 v :=
  ⟨hm, nofun, nofun, nofun, fun _ _ _ => rfl⟩

/-- The requests so far have written nothing outside the slots of the ring and the records. -/
theorem Done.outside (h : P.Done m0 m k v) (hfits : P.Fits n) (hk : k ≤ n) {b : Nat}
    (hslots : ∀ i < P.ring.capacity, Outside b (P.addr i, 2 ^ P.ring.shift)) (hrecs : ∀ d ∈ P.recs, Outside b (d, 4)) :
    memGet m b = memGet m0 b := by
  refine h.frame b (fun j hj => ?_) hrecs
  have hroom := hfits.room
  have hbytes := hfits.bytes j (by omega)
  have hslot := hslots _ (P.ring.slotOf_lt (j := j) (by omega))
  have htail := hslots _ (P.ring.tailOf_lt (j := j) (by omega))
  simp only [Outside] at *
  omega

/-- What stands in a slot, and in its first 8 bytes, is left alone by the post of a WQE into another slot, linked to from a slot that
is another one too, or whose first 8 bytes are not meant. -/
theorem read_of_posted (hfits : P.Fits n) {a p c off len : Nat} (hlen : P.bytes a ≤ 2 ^ P.ring.shift)
    (h8 : 8 ≤ 2 ^ P.ring.shift) {body : List Byte → Prop} {link nds : Word}
    (ha : P.ring.slotOf a < P.ring.capacity) (hp : p < P.ring.capacity) (hc : c < P.ring.capacity)
    (hw : WqePosted m m' (P.addr (P.ring.slotOf a)) (P.bytes a) (P.addr p) P.recs body link nds v)
    (hca : c ≠ P.ring.slotOf a) (hcp : c ≠ p ∨ 8 ≤ off) (hoff : off + len ≤ 2 ^ P.ring.shift) :
    memGetBytes m' (P.addr c + off) len = memGetBytes m (P.addr c + off) len := by
  refine memGetBytes_congr _ _ _ _ fun b hb hb' => hw.frame b ?_ ?_ fun d hd => (hfits.recs d hd c hc b).resolve_right fun hout => ?_
  · have := hfits.slots c _ hc ha hca
    simp only [Outside]
    omega
  · rcases eq_or_ne c p with rfl | hne
    · have := hcp.resolve_left (not_not_intro rfl)
      simp only [Outside]
      omega
    · have := hfits.slots c p hc hp hne
      simp only [Outside]
      omega
  · simp only [Outside] at hout
    omega

/-- One more request. -/
theorem Done.step (h : P.Done m0 m k v) (hfits : P.Fits n) (hk : k < n)
    (hw : WqePosted m m' (P.addr (P.ring.slotOf k)) (P.bytes k) (P.addr (P.ring.tailOf k)) P.recs (P.body k) (P.link k) (P.nds k) v') :
    P.Done m0 m' (k + 1) v' := by
  have hroom := hfits.room
  have hpos : 0 < P.ring.capacity := by omega
  obtain ⟨h8, hle⟩ := hfits.bytes k hk
  have hread : ∀ {c off len : Nat}, c < P.ring.capacity → c ≠ P.ring.slotOf k → (c ≠ P.ring.tailOf k ∨ 8 ≤ off) →
      off + len ≤ 2 ^ P.ring.shift → memGetBytes m' (P.addr c + off) len = memGetBytes m (P.addr c + off) len :=
    fun hc => read_of_posted hfits hle (h8.trans hle) (P.ring.slotOf_lt hpos) (P.ring.tailOf_lt hpos) hc hw
  refine ⟨hw.wf, fun j hj => ?_, fun j hj hlink => ?_, fun _ => hw.record, fun b hb hbr => ?_⟩
  · rcases Nat.lt_succ_iff_lt_or_eq.mp hj with hj | rfl
    · obtain ⟨bs, hlen, hbody, hstands⟩ := h.body j hj
      have hfit := hfits.bytes j (by omega)
      refine ⟨bs, hlen, hbody, (hread (P.ring.slotOf_lt hpos) (Ring.slotOf_ne hj (by omega)) (.inr le_rfl) (by omega)).trans hstands⟩
    · exact hw.body
  · rcases Nat.lt_succ_iff_lt_or_eq.mp hj with hj | rfl
    · have htail : P.ring.tailOf j ≠ P.ring.slotOf k ∧ P.ring.tailOf j ≠ P.ring.tailOf k := by
        obtain ⟨k, rfl⟩ : ∃ i, k = i + 1 := ⟨k - 1, by omega⟩
        rw [Ring.tailOf_succ P.ring k]
        cases j with
        | zero =>
          rw [Ring.tailOf_zero hpos]
          exact ⟨(Ring.slotOf_ne (by omega) (by omega)).symm, (Ring.slotOf_ne (by omega) (by omega)).symm⟩
        | succ j =>
          rw [Ring.tailOf_succ]
          exact ⟨Ring.slotOf_ne (by omega) (by omega), Ring.slotOf_ne (by omega) (by omega)⟩
      obtain ⟨hl, hn⟩ := h.links j hj (by omega)
      have hread' : ∀ off, off + 4 ≤ 8 →
          memGetBytes m' (P.addr (P.ring.tailOf j) + off) 4 = memGetBytes m (P.addr (P.ring.tailOf j) + off) 4 :=
        fun off hoff => hread (P.ring.tailOf_lt hpos) htail.1 (.inl htail.2) (by omega)
      exact ⟨(congrArg beNat (hread' 0 (by omega))).trans hl, (congrArg beNat (hread' 4 le_rfl)).trans hn⟩
    · exact ⟨hw.link, hw.nds⟩
  · obtain ⟨hslot, htail⟩ := hb k (Nat.lt_succ_self k)
    exact (hw.frame b hslot htail hbr).trans (h.frame b (fun j hj => hb j (Nat.lt_succ_of_lt hj)) hbr)

end PostPlan

end Sys2Proof.Machine
end

section
/-! SUPPORT. What the post of one request does to its ring, its batch and the bus (R222, R252 to R255), on the send and the receive ring
of a QP alike. -/

namespace Sys2Proof.Machine

open Sys2Proof

/-! ### The ring of a QP -/

section

variable (x : Qp) (isSend : Bool) (r r' : Ring)

@[simp] theorem Qp.setRing_ring : (x.setRing isSend r).ring isSend = r := by cases isSend <;> rfl
@[simp] theorem Qp.setRing_setRing : (x.setRing isSend r).setRing isSend r' = x.setRing isSend r' := by cases isSend <;> rfl
@[simp] theorem Qp.setRing_self : x.setRing isSend (x.ring isSend) = x := by cases isSend <;> rfl

theorem Qp.setRing_woff (h : r.shift = (x.ring isSend).shift) (i : Nat) :
    (x.setRing isSend r).woff isSend i = x.woff isSend i := by
  cases isSend
  · exact congrArg (i <<< ·) h
  · exact congrArg (x.sendWqeOffset + i <<< ·) h

theorem Qp.setRing_slotAddr (h : r.shift = (x.ring isSend).shift) (i : Nat) :
    (x.setRing isSend r).slotAddr isSend i = x.slotAddr isSend i := by
  rw [Qp.slotAddr, Qp.setRing_woff x isSend r h]
  cases isSend <;> rfl

/-- The doorbell record of a ring. -/
def Qp.ringRec : Option Nat :=
  match isSend with
  | true => x.sqDbRec
  | false => x.rqDbRec

end

/-- The addresses of the doorbell record of a ring: none in `LEGACY`, or where the ring has none. -/
def State.recAddrs (s : State) (o : Option Nat) : List Nat := (s.recsOf [o]).map s.recAddr

theorem assocSet_of_assocGet {α : Type} {l : List (Nat × α)} {k : Nat} {v : α} (h : assocGet l k = some v) :
    assocSet l k v = l := by
  induction l with
  | nil => cases h
  | cons e l ih =>
    obtain ⟨j, x⟩ := e
    by_cases hj : j = k
    · subst hj
      rw [assocGet, if_pos rfl] at h
      rw [assocSet, if_pos rfl, Option.some.inj h]
    · rw [assocGet, if_neg hj] at h
      rw [assocSet, if_neg hj, ih h]

theorem State.setQp_self {s : State} {q : Nat} {x : Qp} (h : s.qp? q = some x) : s.setQp q x = s := by
  rw [State.setQp, assocSet_of_assocGet h]

/-! ### The counts of the ring (R86, R222) -/

/-- A ring after the steps 3 to 9 of R222 for a WQE in slot `ind`. -/
def Ring.published (r : Ring) (ind : Nat) (id : BitVec 64) (op : BitVec 6) : Ring :=
  (({ r with wrid := r.wrid.set ind (some id) }).goLive ind op).advance ind

/-- A ring after one more WQE, which in `LEGACY` the doorbell of its batch has yet to cover. -/
def Ring.queued (r : Ring) (mode : Mode) (id : BitVec 64) (op : BitVec 6) : Ring :=
  match mode with
  | .legacy => r.published r.nextInd id op
  | .memfree => (r.published r.nextInd id op).cover 1

/-- A ring after the doorbell of a batch whose first WQE has number `num`. -/
def Ring.rungFrom (r : Ring) (mode : Mode) (num : Nat) : Ring :=
  match mode with
  | .legacy => r.cover num
  | .memfree => r

@[simp] theorem Ring.queued_shift (r : Ring) (mode : Mode) (id : BitVec 64) (op : BitVec 6) :
    (r.queued mode id op).shift = r.shift := by cases mode <;> rfl

@[simp] theorem Ring.rungFrom_shift (r : Ring) (mode : Mode) (num : Nat) : (r.rungFrom mode num).shift = r.shift := by
  cases mode <;> rfl

/-- A batch in progress owes a doorbell for the ring `r`: once it is rung, `r` is `r'`. In `MEMFREE`, where the doorbell record has
covered every WQE, and for an empty batch, `r` is that already. -/
def Batch.Owes (b : Batch) (mode : Mode) (r r' : Ring) : Prop :=
  match mode with
  | .legacy => if b.cnt = 0 then r = r' else b.num ≠ 0 ∧ b.num ≤ r.live ∧ r.cover b.num = r'
  | .memfree => r = r'

namespace Batch.Owes

variable {b : Batch} {mode : Mode} {r r' : Ring}

theorem of_empty (hb : b.cnt = 0) : b.Owes mode r r := by
  cases mode
  · exact (if_pos hb).mpr rfl
  · rfl

theorem eq_of_empty (h : b.Owes mode r r') (hb : b.cnt = 0) : r = r' := by
  cases mode
  · exact (if_pos hb).mp h
  · exact h

theorem rung (h : b.Owes mode r r') (hb : b.cnt ≠ 0) : r.rungFrom mode b.num = r' := by
  cases mode
  · exact ((if_neg hb).mp h).2.2
  · exact h

/-- The two rings differ at most in what the device may read. -/
theorem eq_but_first (h : b.Owes mode r r') : r' = { r with first := r'.first } := by
  cases mode
  · simp only [Batch.Owes] at h
    split_ifs at h
    · rw [h]
    · obtain ⟨-, -, rfl⟩ := h
      rfl
  · rw [show r = r' from h]

/-- One more WQE counted in the batch. -/
theorem add (h : b.Owes mode r r') (ind : Nat) (fence : Bool) (op : BitVec 6) (size : Nat) (head0 : Word) (id : BitVec 64)
    (w : BitVec 6) :
    (b.add ind fence op size head0 (r.live + 1)).Owes mode (r.queued mode id w) (r'.posted mode id w) := by
  have hcnt : (b.add ind fence op size head0 (r.live + 1)).cnt ≠ 0 := by
    simp only [Batch.add, Batch.count]
    split_ifs <;> simp
  cases mode with
  | memfree =>
    obtain rfl : r = r' := h
    rfl
  | legacy =>
    refine (if_neg hcnt).mpr ?_
    by_cases hb : b.cnt = 0
    · obtain rfl := h.eq_of_empty hb
      have hnum : (b.add ind fence op size head0 (r.live + 1)).num = r.live + 1 := if_pos hb
      rw [hnum]
      exact ⟨by omega, le_rfl, rfl⟩
    · obtain ⟨hnum0, hle, rfl⟩ := (if_neg hb).mp h
      have hnum : (b.add ind fence op size head0 (r.live + 1)).num = b.num := if_neg hb
      rw [hnum]
      refine ⟨hnum0, Nat.le_succ_of_le hle, ?_⟩
      exact (Ring.cover_cover (r.published r.nextInd id w) hnum0 (Nat.le_succ_of_le hle)).symm

end Batch.Owes

/-! ### The batch (R252 to R255) -/

/-- The register of the doorbells of a QP's send or receive ring (R76). -/
def ringReg (isSend : Bool) : DbReg :=
  match isSend with
  | true => .send
  | false => .recv

/-- The doorbell of a batch on a QP's ring. -/
def batchBell (mode : Mode) (x : Qp) (isSend : Bool) (b : Batch) : Instr :=
  match isSend with
  | true => sendDoorbell mode x b
  | false => recvDoorbell x b

theorem batchBell_setRing (mode : Mode) (x : Qp) (isSend : Bool) {r : Ring} (h : r.shift = (x.ring isSend).shift) (b : Batch) :
    batchBell mode (x.setRing isSend r) isSend b = batchBell mode x isSend b := by
  cases isSend
  · have : (x.setRing false r).rq.shift = x.rq.shift := h
    simp only [batchBell, recvDoorbell, this]
    rfl
  · have : (x.setRing true r).sq.shift = x.sq.shift := h
    cases mode <;> simp only [batchBell, sendDoorbell, this] <;> rfl

/-- Does a post on a ring count its WQEs for a doorbell? In `MEMFREE` a receive post rings none (R255). -/
def ringsBell (mode : Mode) (isSend : Bool) : Bool :=
  match mode with
  | .legacy => true
  | .memfree => isSend

theorem ringsBell_send (mode : Mode) : ringsBell mode true = true := by cases mode <;> rfl

theorem ringsBell_recv_iff {mode : Mode} : ringsBell mode false = true ↔ mode = .legacy := by cases mode <;> simp [ringsBell]

/-- The batch after one more WQE. -/
def Batch.counted (b : Batch) (mode : Mode) (isSend : Bool) (ind : Nat) (fence : Bool) (op : BitVec 6) (size : Nat) (head0 : Word)
    (num : Nat) : Batch :=
  if ringsBell mode isSend then b.add ind fence op size head0 num else b

section

variable (b : Batch) (mode : Mode) (isSend : Bool) (ind : Nat) (fence : Bool) (op : BitVec 6) (size : Nat) (head0 : Word) (num : Nat)

theorem Batch.counted_ring : (b.counted mode isSend ind fence op size head0 num).ring = b.ring := by
  simp only [Batch.counted, Batch.add, Batch.count]
  split_ifs <;> rfl

theorem Batch.counted_cnt :
    (b.counted mode isSend ind fence op size head0 num).cnt = if ringsBell mode isSend then b.cnt + 1 else b.cnt := by
  simp only [Batch.counted, Batch.add, Batch.count]
  split_ifs with _ hc
  · rw [hc]
  · rfl
  · rfl

/-- A WQE counted in a batch that is not empty changes nothing that the doorbell is named by. -/
theorem Batch.counted_of_ne (hc : b.cnt ≠ 0) (c : Nat) :
    { b.counted mode isSend ind fence op size head0 num with cnt := c } = { b with cnt := c } := by
  simp only [Batch.counted, Batch.add, Batch.count, if_neg hc]
  split_ifs <;> rfl

/-- A WQE queued and counted, where its ring rings doorbells. -/
theorem Batch.Owes.counted {b : Batch} {mode : Mode} {r r' : Ring} (h : b.Owes mode r r') (isSend : Bool) (ind : Nat) (fence : Bool)
    (op : BitVec 6) (size : Nat) (head0 : Word) (id : BitVec 64) (w : BitVec 6) :
    (b.counted mode isSend ind fence op size head0 (r.live + 1)).Owes mode (r.queued mode id w) (r'.posted mode id w) := by
  have hadd := h.add ind fence op size head0 id w
  cases mode with
  | legacy => exact hadd
  | memfree => cases isSend <;> exact hadd

end

/-- The `head` a batch notes of its first WQE: a receive doorbell has none. -/
def headBefore (isSend : Bool) (r : Ring) : Word :=
  match isSend with
  | true => r.head
  | false => 0

section

variable {s t : State} {i : Instr} {h : Handle} {ls : List (Lock × Nat)} {b : Batch} {m : List Host.Cell} {l : List BusEvent}
  {q ind prev size : Nat} {x : Qp} {isSend : Bool} {id : BitVec 64} {op : BitVec 6} {fence : Bool}

theorem posting_ring (reg : DbReg) (bell : Instr) : (s.posting i h ls b m l).ring reg bell
    = s.posting i h ls b m (.mmio s.cur (s.regOff reg) (doorbellWords bell).1 (doorbellWords bell).2 :: .wmb s.cur :: l) := rfl

theorem posting_onRing (hx : s.qp? q = some x) (f : Ring → Ring) (g : Srq → Srq) :
    (s.posting i h ls b m l).onRing (qpRing q isSend) f g
      = (s.setQp q (x.setRing isSend (f (x.ring isSend)))).posting i h ls b m l := by
  have hx' : (s.posting i h ls b m l).qp? q = some x := hx
  cases isSend
  · exact State.onRing_rq hx' f g
  · exact State.onRing_sq hx' f g

/-- The doorbell of a batch is rung. -/
theorem ringBatchAct_posting (hx : s.qp? q = some x) (hb : b.ring = some (qpRing q isSend)) :
    ringBatchAct (s.posting i h ls b m l) = .ok 0
      ((s.setQp q (x.setRing isSend ((x.ring isSend).rungFrom s.mode b.num))).posting i h ls { b with cnt := 0 } m
        (.mmio s.cur (s.regOff (ringReg isSend)) (doorbellWords (batchBell s.mode x isSend b)).1
          (doorbellWords (batchBell s.mode x isSend b)).2 :: .wmb s.cur :: l)) := by
  have hx' : (s.posting i h ls b m l).qp? q = some x := hx
  have hrung : ∀ l', (s.posting i h ls { b with cnt := 0 } m l').rung (qpRing q isSend) b.num
      = (s.setQp q (x.setRing isSend ((x.ring isSend).rungFrom s.mode b.num))).posting i h ls { b with cnt := 0 } m l' := by
    intro l'
    rw [State.rung, State.posting_mode]
    cases s.mode
    · exact posting_onRing hx _ _
    · simp only [Ring.rungFrom, Qp.setRing_self, State.setQp_self hx]
  rw [← hrung]
  cases isSend <;>
    simp only [ringBatchAct, State.posting_me, hb, qpRing, withQp_eq hx', posting_ring, State.posting_setBatch, State.posting_mode] <;>
    rfl

/-! ### `PUBLISH` (R222), steps 3 to 9 -/

theorem wridAct_posting (hx : s.qp? q = some x) : wridAct (qpRing q isSend) ind id (s.posting i h ls b m l) = .ok 0
    ((s.setQp q (x.setRing isSend { x.ring isSend with wrid := (x.ring isSend).wrid.set ind (some id) })).posting i h ls b m l) := by
  have hx' : (s.posting i h ls b m l).qp? q = some x := hx
  cases isSend <;> exact withQp_eq hx' _

theorem linkAct_posting (hx : s.qp? q = some x) : linkAct (qpRing q isSend) ind prev op (s.posting i h ls b m l) = .ok 0
    ((s.posting i h ls b m l).memWrite (x.slotAddr isSend prev) 4
      (linkWord (BitVec.ofNat 26 (x.woff isSend ind / 64)) op).toNat) := by
  have hx' : (s.posting i h ls b m l).qp? q = some x := hx
  cases isSend <;> simp only [linkAct, qpRing, State.woff, State.slotAddr, hx', Option.map_some]

/-- The doorbell delimiter of a link on a QP's ring, by the batch (R222). -/
def Batch.delimits (b : Batch) (mode : Mode) (isSend : Bool) : Bool :=
  match isSend, mode with
  | true, .legacy => decide (b.cnt = 0)
  | _, _ => true

theorem dbdOf_posting : (s.posting i h ls b m l).dbdOf (qpRing q isSend) = b.delimits s.mode isSend := by
  cases isSend
  · rfl
  · simp only [State.dbdOf, qpRing, State.posting_me, State.posting_mode]
    cases s.mode <;> rfl

theorem sizeAct_posting (hx : s.qp? q = some x) : sizeAct (qpRing q isSend) ind prev op fence size (s.posting i h ls b m l) = .ok 0
    ((s.setQp q (x.setRing isSend ((x.ring isSend).goLive ind op))).posting i h ls b
      (memPutBytes m (x.slotAddr isSend prev + 4) (beBytes 4 (eeNds (b.delimits s.mode isSend) fence size).toNat))
      (.write s.cur (x.slotAddr isSend prev + 4) (beBytes 4 (eeNds (b.delimits s.mode isSend) fence size).toNat) :: l)) := by
  have hx' : (s.posting i h ls b m l).qp? q = some x := hx
  have haddr : (s.posting i h ls b m l).slotAddr (qpRing q isSend) prev = some (x.slotAddr isSend prev) := by
    cases isSend <;> simp only [qpRing, State.slotAddr, hx', Option.map_some]
  simp only [sizeAct, haddr, dbdOf_posting, State.memWrite, posting_writeBytes, State.goLive, posting_onRing hx]

theorem advanceAct_posting (hx : s.qp? q = some x) : advanceAct (qpRing q isSend) ind (s.posting i h ls b m l) = .ok 0
    ((s.setQp q (x.setRing isSend ((x.ring isSend).advance ind))).posting i h ls b m l) := by
  have hx' : (s.posting i h ls b m l).qp? q = some x := hx
  cases isSend <;> exact withQp_eq hx' _

/-- The work-request id, the link and the size of a WQE; the link's words are written last. -/
theorem runs_publishTail (hm : Memory.wf m = true) (hx : s.qp? q = some x) :
    ∃ m' l', Wrote m m' (x.slotAddr isSend prev) (beBytes 4 (linkWord (BitVec.ofNat 26 (x.woff isSend ind / 64)) op).toNat
        ++ beBytes 4 (eeNds (b.delimits s.mode isSend) fence size).toNat) ∧ Silent l l'
      ∧ ∀ p t, Runs (publishTail (qpRing q isSend) ind prev id op fence size p) (s.posting i h ls b m l) t
        ↔ Runs p ((s.setQp q (x.setRing isSend ((x.ring isSend).published ind id op))).posting i h ls b m' l') t := by
  have hlink := wrote_memPutBytes hm (x.slotAddr isSend prev) (beBytes 4 (linkWord (BitVec.ofNat 26 (x.woff isSend ind / 64)) op).toNat)
  have hsize := wrote_memPutBytes hlink.wf (x.slotAddr isSend prev + 4)
    (beBytes 4 (eeNds (b.delimits s.mode isSend) fence size).toNat)
  refine ⟨_, _, hlink.append (by rwa [beBytes_length]), (Silent.wmb l s.cur).trans
    ((Silent.write _ s.cur (x.slotAddr isSend prev) (beBytes 4 (linkWord (BitVec.ofNat 26 (x.woff isSend ind / 64)) op).toNat)).trans
      ((Silent.wmb _ s.cur).trans (Silent.write _ s.cur (x.slotAddr isSend prev + 4)
        (beBytes 4 (eeNds (b.delimits s.mode isSend) fence size).toNat)))), fun p t => ?_⟩
  rw [publishTail, runs_act_ok (wridAct_posting hx), runs_eff, posting_wmb,
    runs_act_ok (linkAct_posting (State.setQp_qp_self ..)), runs_eff, State.memWrite, posting_writeBytes, posting_wmb,
    runs_act_ok (sizeAct_posting (State.setQp_qp_self ..)), runs_act_ok (advanceAct_posting (State.setQp_qp_self ..))]
  simp only [Qp.setRing_ring, Qp.setRing_setRing, State.setQp_setQp, Qp.setRing_slotAddr, Qp.setRing_woff]
  rfl

end

end Sys2Proof.Machine
end

section
/-! SUPPORT. The post of one request (R217 to R222, R254, R255): from the look at the ring to the count in the batch. -/

namespace Sys2Proof.Machine

open Sys2Proof

/-! ### The doorbell record and the count (R254, R255) -/

section

variable {s : State} {i : Instr} {h : Handle} {ls : List (Lock × Nat)} {b : Batch} {m : List Host.Cell} {l : List BusEvent}
  {q ind prev size : Nat} {x : Qp} {isSend : Bool} {id : BitVec 64} {op : BitVec 6} {fence : Bool}

theorem posting_writeRec0 (hm : Memory.wf m = true) (hmode : s.mode = .memfree) (o : Option Nat) {v : Nat} (hv : v < 256 ^ 4) :
    ∃ m' l', (s.posting i h ls b m l).writeRec0 o v = s.posting i h ls b m' l' ∧ Recorded m m' (s.recAddrs o) v ∧ Silent l l' := by
  cases o with
  | none =>
    have hrecs : s.recAddrs none = [] := by simp only [State.recAddrs, State.recsOf, hmode]; rfl
    rw [hrecs]
    exact ⟨m, l, rfl, ⟨hm, nofun, fun _ _ => rfl⟩, .refl l⟩
  | some r =>
    have hrecs : s.recAddrs (some r) = [s.recAddr r] := by simp only [State.recAddrs, State.recsOf, hmode]; rfl
    have hword := wrote_memPutBytes hm (s.recAddr r) (beBytes 4 v)
    have hread := hword.read
    have hframe := hword.frame
    rw [beBytes_length] at hread hframe
    rw [hrecs]
    refine ⟨_, _, posting_writeBytes _ _, ⟨hword.wf, fun d hd => ?_, fun b hb => hframe b (hb _ (List.mem_singleton_self _))⟩,
      .write ..⟩
    obtain rfl := List.mem_singleton.mp hd
    exact (congrArg beNat hread).trans ((beNat_beBytes 4 v).trans (Nat.mod_eq_of_lt hv))

theorem recorded_legacy (hm : Memory.wf m = true) (hmode : s.mode = .legacy) (o : Option Nat) (v : Nat) :
    Recorded m m (s.recAddrs o) v := by
  have hrecs : s.recAddrs o = [] := by simp only [State.recAddrs, State.recsOf, hmode]; rfl
  rw [hrecs]
  exact ⟨hm, nofun, fun _ _ => rfl⟩

/-- The record, in `MEMFREE`, and the count: `x` is the QP after the steps of R222. -/
theorem dbCountAct_posting (hm : Memory.wf m = true) (hx : s.qp? q = some x) :
    ∃ m' l', Recorded m m' (s.recAddrs (x.ringRec isSend)) ((x.ring isSend).head.toNat % 65536) ∧ Silent l l'
      ∧ dbCountAct (qpRing q isSend) ind fence op size (s.posting i h ls b m l) = .ok 0
        ((s.setQp q (x.setRing isSend (match s.mode with
            | .legacy => x.ring isSend
            | .memfree => (x.ring isSend).cover 1))).posting i h ls
          (b.counted s.mode isSend ind fence op size (match isSend with
            | true => (x.ring isSend).head - 1
            | false => 0) (x.ring isSend).live) m' l') := by
  have hx' : (s.posting i h ls b m l).qp? q = some x := hx
  cases hmode : s.mode with
  | legacy =>
    refine ⟨m, l, recorded_legacy hm hmode _ _, .refl l, ?_⟩
    simp only [Qp.setRing_self, State.setQp_self hx]
    cases isSend <;>
      simp only [dbCountAct, qpRing, withQp_eq hx', State.posting_mode, hmode, State.posting_me, State.posting_setBatch] <;> rfl
  | memfree =>
    obtain ⟨m', l', hrun, hrec, hsilent⟩ := posting_writeRec0 (i := i) (h := h) (ls := ls) (b := b) (l := .wmb s.cur :: l) hm hmode
      (x.ringRec isSend) (v := (x.ring isSend).head.toNat % 65536) (by omega)
    refine ⟨m', l', hrec, (Silent.wmb ..).trans hsilent, ?_⟩
    have hcover : ((s.posting i h ls b m l).wmb.writeRec0 (x.ringRec isSend) ((x.ring isSend).head.toNat % 65536)).covered
        (qpRing q isSend) 1 = (s.setQp q (x.setRing isSend ((x.ring isSend).cover 1))).posting i h ls b m' l' := by
      rw [posting_wmb, hrun]
      exact posting_onRing hx _ _
    cases isSend
    · simp only [dbCountAct, qpRing, withQp_eq hx', State.posting_mode, hmode]
      exact congrArg _ hcover
    · simp only [dbCountAct, qpRing, withQp_eq hx', State.posting_mode, hmode, State.posting_me]
      exact congrArg (ActRes.ok 0) ((congrArg (State.setBatch · _) hcover).trans State.posting_setBatch)

/-- Steps 3 to 9 of R222 and the count, for the WQE in the next slot. -/
theorem runs_publish_count (hm : Memory.wf m = true) (hx : s.qp? q = some x) (hind : (x.ring isSend).nextInd = ind) :
    ∃ m1 m' l', Wrote m m1 (x.slotAddr isSend prev) (beBytes 4 (linkWord (BitVec.ofNat 26 (x.woff isSend ind / 64)) op).toNat
        ++ beBytes 4 (eeNds (b.delimits s.mode isSend) fence size).toNat)
      ∧ Recorded m1 m' (s.recAddrs (x.ringRec isSend)) (((x.ring isSend).head + 1).toNat % 65536) ∧ Silent l l'
      ∧ ∀ p t, Runs (publishTail (qpRing q isSend) ind prev id op fence size
            (dbAfterWqe (qpRing q isSend) ind fence op size p)) (s.posting i h ls b m l) t
        ↔ Runs (.act (dbFullAct (qpRing q isSend)) fun _ => p)
          ((s.setQp q (x.setRing isSend ((x.ring isSend).queued s.mode id op))).posting i h ls
            (b.counted s.mode isSend ind fence op size (headBefore isSend (x.ring isSend)) ((x.ring isSend).live + 1)) m' l') t := by
  obtain ⟨m1, l1, hlink, hsilent1, hrun1⟩ := runs_publishTail (i := i) (h := h) (ls := ls) (b := b) (l := l) (ind := ind)
    (prev := prev) (size := size) (isSend := isSend) (id := id) (op := op) (fence := fence) hm hx
  obtain ⟨m', l', hrec, hsilent2, hrun2⟩ := dbCountAct_posting (i := i) (h := h) (ls := ls) (b := b) (l := l1) (ind := ind)
    (size := size) (isSend := isSend) (op := op) (fence := fence) hlink.wf
    (State.setQp_qp_self s q (x.setRing isSend ((x.ring isSend).published ind id op)))
  have hring : (x.setRing isSend ((x.ring isSend).published ind id op)).ring isSend = (x.ring isSend).published ind id op :=
    Qp.setRing_ring ..
  have hringRec : (x.setRing isSend ((x.ring isSend).published ind id op)).ringRec isSend = x.ringRec isSend := by
    cases isSend <;> rfl
  rw [hring, hringRec] at hrec
  refine ⟨m1, m', l', hlink, hrec, hsilent1.trans hsilent2, fun p t => (hrun1 _ t).trans ((runs_act_ok hrun2).trans (iff_of_eq ?_))⟩
  have hhead : ((x.ring isSend).published ind id op).head - 1 = (x.ring isSend).head := add_sub_cancel_right _ (1 : Word)
  simp only [hring, Qp.setRing_setRing, State.setQp_setQp, State.setQp_mode, hhead]
  subst hind
  cases isSend <;> cases s.mode <;> rfl

end

/-! ### Send requests -/

/-- What a send WQE holds after its header (R217 to R219); inline data is that of the memory `src`, where `clear` says that it is not
overwritten before it is read. -/
def sendBody (mode : Mode) (x : Qp) (wr : SendWr) (src : List Host.Cell) (clear : Prop) (bs : List Byte) : Prop :=
  ∃ data, bs = layout ((4, (sendFlags x wr).toNat) :: (4, (sendImm wr).toNat) :: transportFields mode x wr
      ++ if isInline wr then [(4, (inlineWord wr.sg).toNat)] else dataFields wr.sg) ++ data
    ∧ data.length = (if isInline wr then inlineLen wr.sg else 0) ∧ (isInline wr = true → clear → data = inlineBytes src wr.sg)

section

variable {mode : Mode} {x : Qp} {wr : SendWr} {src : List Host.Cell} {clear : Prop} {bs : List Byte}

/-- A send WQE has the size of R220, apart from the pad after inline data. -/
theorem sendBody_length_le (h : sendBody mode x wr src clear bs) : 8 + bs.length ≤ 16 * sendSize mode x wr := by
  obtain ⟨data, rfl, hlen, -⟩ := h
  have halign := (alignUp_16 (4 + inlineLen wr.sg)).2
  rw [sendSize_bytes]
  split_ifs at hlen ⊢ <;> simp [fieldBytes, fieldBytes_append, dataFields_bytes, hlen] <;> omega

/-- A request with a scatter/gather list: the bytes of the whole WQE. -/
theorem sendBody_plain (h : sendBody mode x wr src clear bs) (hin : isInline wr = false) :
    bs.length = 16 * sendSize mode x wr - 8
    ∧ bs = layout ((4, (sendFlags x wr).toNat) :: (4, (sendImm wr).toNat) :: transportFields mode x wr ++ dataFields wr.sg) := by
  obtain ⟨data, rfl, hlen, -⟩ := h
  rw [sendSize_bytes]
  simp only [hin, Bool.false_eq_true, if_false] at hlen ⊢
  obtain rfl := List.eq_nil_of_length_eq_zero hlen
  refine ⟨?_, List.append_nil _⟩
  simp [fieldBytes, fieldBytes_append, dataFields_bytes]
  omega

/-- An inline request: the bytes up to the pad. -/
theorem sendBody_inline (h : sendBody mode x wr src clear bs) (hin : isInline wr = true) (hclear : clear) :
    bs.length = 8 + fieldBytes (transportFields mode x wr) + 4 + inlineLen wr.sg
    ∧ bs = layout ((4, (sendFlags x wr).toNat) :: (4, (sendImm wr).toNat) :: transportFields mode x wr
        ++ [(4, (inlineWord wr.sg).toNat)]) ++ inlineBytes src wr.sg := by
  obtain ⟨data, rfl, -, hdata⟩ := h
  rw [hdata hin hclear, if_pos hin]
  refine ⟨?_, rfl⟩
  simp [fieldBytes, fieldBytes_append]
  omega

end

section

variable {s : State} {i : Instr} {h : Handle} {ls : List (Lock × Nat)} {b : Batch} {m : List Host.Cell} {l : List BusEvent}
  {q k : Nat} {x : Qp} {isSend : Bool}

/-- The data of an inline request lies outside a range. -/
def dataOutside (wr : SendWr) (r : Nat × Nat) : Prop :=
  ∀ e ∈ wr.sg, ∀ k, k < e.length.toNat → Outside (e.addr.toNat + k) r

/-- The data part of a send WQE, at `a`. -/
theorem sendDataAct_posting (hm : Memory.wf m = true) (hx : s.qp? q = some x) (ind tb : Nat) (wr : SendWr) :
    ∃ m' l' data, Wrote m m' (x.slotAddr true ind + 16 + tb)
        (layout (if isInline wr then [(4, (inlineWord wr.sg).toNat)] else dataFields wr.sg) ++ data)
      ∧ data.length = (if isInline wr then inlineLen wr.sg else 0)
      ∧ (isInline wr = true → dataOutside wr (x.slotAddr true ind + 16 + tb, 4) → data = inlineBytes m wr.sg) ∧ Silent l l'
      ∧ sendDataAct q ind tb wr (s.posting i h ls b m l) = .ok 0 (s.posting i h ls b m' l') := by
  have hx' : (s.posting i h ls b m l).qp? q = some x := hx
  cases hin : isInline wr with
  | true =>
    obtain ⟨m', l', data, hrun, hwrote, hsilent, hlen, hdata⟩ := posting_writeInline (s := s) (i := i) (h := h) (ls := ls) (b := b)
      (l := l) hm (x.slotAddr true ind + 16 + tb) wr.sg
    refine ⟨m', l', data, hwrote, hlen, fun _ => hdata, hsilent, ?_⟩
    simp only [sendDataAct, withQp_eq hx', hin, if_true, hrun]
  | false =>
    obtain ⟨m', l', hrun, hwrote, hsilent⟩ := posting_writeFields (s := s) (i := i) (h := h) (ls := ls) (b := b) (l := l) hm
      (x.slotAddr true ind + 16 + tb) (dataFields wr.sg)
    refine ⟨m', l', [], by simpa using hwrote, rfl, nofun, hsilent, ?_⟩
    simp only [sendDataAct, withQp_eq hx', hin, Bool.false_eq_true, if_false, hrun]

/-- Steps 1 and 2 of R222 for a send: the WQE stands in its slot. -/
theorem runs_sendSegments (hm : Memory.wf m = true) (hx : s.qp? q = some x) (ind prev : Nat) (wr : SendWr) :
    ∃ m' l' bs, Wrote m m' (x.slotAddr true ind) (layout [(4, 0), (4, 0)] ++ bs)
      ∧ sendBody s.mode x wr m (dataOutside wr (x.slotAddr true ind, 16 * sendSize s.mode x wr)) bs ∧ Silent l l'
      ∧ ∀ p t, Runs (publishSend q ind prev wr p) (s.posting i h ls b m l) t ↔
        Runs (publishTail (.sq q) ind prev wr.wrId (wqeOpcode wr.opcode) wr.fence (sendSize s.mode x wr)
          (p (sendSize s.mode x wr))) (s.posting i h ls b m' l') t := by
  obtain ⟨m1, l1, hrun1, hheader, hsilent1⟩ := posting_writeFields (s := s) (i := i) (h := h) (ls := ls) (b := b) (l := l) hm
    (x.slotAddr true ind) (headerFields (sendFlags x wr) (sendImm wr))
  obtain ⟨m2, l2, hrun2, htransport, hsilent2⟩ := posting_writeFields (s := s) (i := i) (h := h) (ls := ls) (b := b) (l := l1)
    hheader.wf (x.slotAddr true ind + 16) (transportFields s.mode x wr)
  have hsegments := hheader.append htransport
  obtain ⟨m3, l3, data, hwrote, hlen, hdata, hsilent3, hrun3⟩ := sendDataAct_posting (s := s) (i := i) (h := h) (ls := ls) (b := b)
    (l := l2) htransport.wf hx ind (fieldBytes (transportFields s.mode x wr)) wr
  have hsum : (layout (headerFields (sendFlags x wr) (sendImm wr)) ++ layout (transportFields s.mode x wr)).length
      = 16 + fieldBytes (transportFields s.mode x wr) := by simp [headerFields, fieldBytes]
  have hall := hsegments.append (by rw [hsum, ← Nat.add_assoc]; exact hwrote)
  refine ⟨m3, l3, _, ?_, ⟨data, rfl, hlen, fun hin hclear => ?_⟩, hsilent1.trans (hsilent2.trans hsilent3), fun p t => ?_⟩
  · have hsplit : ∀ fs ds : List (Nat × Nat), layout (headerFields (sendFlags x wr) (sendImm wr)) ++ layout fs ++ (layout ds ++ data)
        = layout [(4, 0), (4, 0)] ++ (layout ((4, (sendFlags x wr).toNat) :: (4, (sendImm wr).toNat) :: fs ++ ds) ++ data) := by
      intro fs ds
      simp only [headerFields, layout, layout_append, List.append_assoc, List.cons_append, List.append_nil]
    rwa [hsplit] at hall
  · have hsize := sendSize_bytes s.mode x wr
    have halign := (alignUp_16 (4 + inlineLen wr.sg)).2
    rw [if_pos hin] at hsize
    have hdata' := hdata hin fun e he k hk => by
      have := hclear e he k hk
      simp only [Outside] at this ⊢
      omega
    rw [hdata']
    refine inlineBytes_congr _ _ _ fun e he k hk => hsegments.frame _ ?_
    have := hclear e he k hk
    simp only [Outside, hsum] at this ⊢
    omega
  · have hx' : ∀ m l, (s.posting i h ls b m l).qp? q = some x := fun _ _ => hx
    have h1 : sendHeaderAct q ind wr (s.posting i h ls b m l) = .ok 0 (s.posting i h ls b m1 l1) := by
      rw [sendHeaderAct, withQp_eq (hx' ..), hrun1]
    have h2 : transportAct q ind wr (s.posting i h ls b m1 l1)
        = .ok (fieldBytes (transportFields s.mode x wr)) (s.posting i h ls b m2 l2) := by
      rw [transportAct, withQp_eq (hx' ..)]
      simp only [State.posting_mode, hrun2]
    rw [publishSend, runs_act_ok h1, runs_act_ok h2, runs_act_ok hrun3]
    rfl

theorem Qp.slotAddr_apart (x : Qp) (isSend : Bool) {a c : Nat} (hne : a ≠ c) :
    x.slotAddr isSend a + 2 ^ (x.ring isSend).shift ≤ x.slotAddr isSend c
      ∨ x.slotAddr isSend c + 2 ^ (x.ring isSend).shift ≤ x.slotAddr isSend a := by
  have hmul : ∀ {a c sh : Nat}, a < c → a * 2 ^ sh + 2 ^ sh ≤ c * 2 ^ sh := fun {a c sh} hlt => by
    rw [← Nat.succ_mul]
    exact Nat.mul_le_mul_right _ hlt
  cases isSend <;> simp only [Qp.slotAddr, Qp.woff, Qp.ring, Nat.shiftLeft_eq, Bool.false_eq_true, if_false, if_true] <;>
    rcases Nat.lt_or_gt_of_ne hne with hlt | hlt
  · exact .inl (by have := hmul (sh := x.rq.shift) hlt; omega)
  · exact .inr (by have := hmul (sh := x.rq.shift) hlt; omega)
  · exact .inl (by have := hmul (sh := x.sq.shift) hlt; omega)
  · exact .inr (by have := hmul (sh := x.sq.shift) hlt; omega)

/-- Where a slot and a chain tail are, for a WQE that fits. -/
theorem Qp.slotAddr_cases (x : Qp) (isSend : Bool) {n : Nat} (hn : n ≤ 2 ^ (x.ring isSend).shift) (a c : Nat) :
    x.slotAddr isSend a = x.slotAddr isSend c ∨ x.slotAddr isSend a + n ≤ x.slotAddr isSend c
      ∨ x.slotAddr isSend c + n ≤ x.slotAddr isSend a := by
  rcases eq_or_ne a c with rfl | hne
  · exact .inl rfl
  · have := x.slotAddr_apart isSend hne
    omega

/-- A send request that passes its checks, up to the count in its batch. -/
theorem runs_sendLoop_cons {wr : SendWr} {ind prev : Nat} (hm : Memory.wf m = true) (hx : s.qp? q = some x)
    (hroom : x.sq.count < x.sq.capacity) (hpass : s.sendPasses x wr) (hind : x.sq.nextInd = ind) (hprev : x.sq.lastIdx = prev)
    (hsize : 16 * sendSize s.mode x wr ≤ 2 ^ x.sq.shift)
    (hrecs : ∀ d ∈ s.recAddrs x.sqDbRec, ∀ b, Outside b (d, 4)
      ∨ Outside b (x.slotAddr true ind, 16 * sendSize s.mode x wr) ∧ Outside b (x.slotAddr true prev, 8)) :
    ∃ m' l', WqePosted m m' (x.slotAddr true ind) (16 * sendSize s.mode x wr) (x.slotAddr true prev) (s.recAddrs x.sqDbRec)
        (sendBody s.mode x wr m (dataOutside wr (x.slotAddr true ind, 16 * sendSize s.mode x wr)))
        (linkWord (BitVec.ofNat 26 (x.woff true ind / 64)) (wqeOpcode wr.opcode))
        (eeNds (b.delimits s.mode true) wr.fence (sendSize s.mode x wr)) ((x.sq.head + 1).toNat % 65536) ∧ Silent l l'
      ∧ ∀ wrs t, Runs (sendLoop q k (wr :: wrs)) (s.posting i h ls b m l) t ↔
        Runs (.act (dbFullAct (.sq q)) fun _ => sendLoop q (k + 1) wrs)
          ((s.setQp q (x.setRing true (x.sq.queued s.mode wr.wrId (wqeOpcode wr.opcode)))).posting i h ls
            (b.counted s.mode true ind wr.fence (wqeOpcode wr.opcode) (sendSize s.mode x wr) x.sq.head (x.sq.live + 1)) m' l') t := by
  have hx' : (s.posting i h ls b m l).qp? q = some x := hx
  obtain ⟨m1, l1, bs, hslot, hbody, hsilent1, hrun1⟩ := runs_sendSegments (i := i) (h := h) (ls := ls) (b := b) (l := l) hm hx ind
    prev wr
  obtain ⟨m2, m', l', hlink, hrec, hsilent2, hrun2⟩ := runs_publish_count (i := i) (h := h) (ls := ls) (b := b) (l := l1)
    (prev := prev) (size := sendSize s.mode x wr) (isSend := true) (id := wr.wrId) (op := wqeOpcode wr.opcode) (fence := wr.fence)
    hslot.wf hx hind
  refine ⟨m', l', .of_wrote hslot hlink hrec hbody (sendBody_length_le hbody) (x.slotAddr_cases true hsize ind prev) hrecs,
    hsilent1.trans hsilent2, fun wrs t => ?_⟩
  obtain ⟨hop, hsg, hinl⟩ := hpass
  have hcheck : sendCheckAct q wr (s.posting i h ls b m l) = .ok 0 (s.posting i h ls b m l) := by
    rw [sendCheckAct, withQp_eq hx']
    cases hin : isInline wr
    · simp [hop, hsg hin]
    · simp [hop, (hinl hin).1]
  have howned : inlineOwned wr (s.posting i h ls b m l) = true := by
    cases hin : isInline wr
    · simp [inlineOwned, hin]
    · exact (hinl hin).2
  have hnext : (s.posting i h ls b m l).nextInd q true = ind := by simp [State.nextInd, hx, Qp.ring, hind]
  have hlast : (s.posting i h ls b m l).lastIdx (.sq q) = prev := by simp [State.lastIdx, hx, hprev]
  rw [sendLoop, runs_overflow_room (isSend := true) hx' hroom, runs_act_ok hcheck]
  simp only [Nat.zero_ne_one, if_false, show ¬ (0 = 2) by omega, show ¬ (0 = 3) by omega]
  rw [runs_guard, runs_ask, runs_ask, hnext, hlast]
  exact (and_iff_right howned).trans ((hrun1 _ t).trans (hrun2 _ t))

/-! ### Receive requests -/

/-- What a receive WQE holds after its header (R217, R219). -/
def recvBody (mode : Mode) (maxGs : Nat) (wr : RecvWr) (bs : List Byte) : Prop :=
  bs = layout ([(4, 0), (4, 0)] ++ dataFields wr.sg ++ terminatorFields mode wr.sg.length maxGs)

theorem recvBody_length {mode : Mode} {maxGs : Nat} {wr : RecvWr} {bs : List Byte} (h : recvBody mode maxGs wr bs) :
    bs.length = 16 * recvSize mode wr.sg.length maxGs - 8 := by
  have hsize := recvSize_bytes mode wr.sg.length maxGs wr.sg rfl
  rw [h, layout_length, List.append_assoc, fieldBytes_append, hsize]
  simp [fieldBytes]
  omega

/-- A receive request that passes its checks, up to the count in its batch. -/
theorem runs_recvLoop_cons {wr : RecvWr} {ind prev : Nat} (hm : Memory.wf m = true) (hx : s.qp? q = some x)
    (hroom : x.rq.count < x.rq.capacity) (hsg : wr.sg.length ≤ x.rq.maxGs) (hind : x.rq.nextInd = ind) (hprev : x.rq.lastIdx = prev)
    (hsize : 16 * recvSize s.mode wr.sg.length x.rq.maxGs ≤ 2 ^ x.rq.shift)
    (hrecs : ∀ d ∈ s.recAddrs x.rqDbRec, ∀ b, Outside b (d, 4)
      ∨ Outside b (x.slotAddr false ind, 16 * recvSize s.mode wr.sg.length x.rq.maxGs) ∧ Outside b (x.slotAddr false prev, 8)) :
    ∃ m' l', WqePosted m m' (x.slotAddr false ind) (16 * recvSize s.mode wr.sg.length x.rq.maxGs) (x.slotAddr false prev)
        (s.recAddrs x.rqDbRec) (recvBody s.mode x.rq.maxGs wr) (linkWord (BitVec.ofNat 26 (x.woff false ind / 64)) recvLinkOpcode)
        (eeNds true false (recvSize s.mode wr.sg.length x.rq.maxGs)) ((x.rq.head + 1).toNat % 65536) ∧ Silent l l'
      ∧ ∀ wrs t, Runs (recvLoop q k (wr :: wrs)) (s.posting i h ls b m l) t ↔
        Runs (.act (dbFullAct (.rq q)) fun _ => recvLoop q (k + 1) wrs)
          ((s.setQp q (x.setRing false (x.rq.queued s.mode wr.wrId recvLinkOpcode))).posting i h ls
            (b.counted s.mode false ind false recvLinkOpcode (recvSize s.mode wr.sg.length x.rq.maxGs) 0 (x.rq.live + 1)) m' l') t := by
  have hx' : ∀ m l, (s.posting i h ls b m l).qp? q = some x := fun _ _ => hx
  obtain ⟨m1, l1, hrun1, hheader, hsilent1⟩ := posting_writeFields (s := s) (i := i) (h := h) (ls := ls) (b := b) (l := l) hm
    (x.slotAddr false ind) (headerFields 0 0)
  obtain ⟨m2, l2, hrun2, hdata, hsilent2⟩ := posting_writeFields (s := s) (i := i) (h := h) (ls := ls) (b := b) (l := l1)
    hheader.wf (x.slotAddr false ind + 16) (dataFields wr.sg ++ terminatorFields s.mode wr.sg.length x.rq.maxGs)
  have hslot := hheader.append hdata
  rw [← layout_append, show headerFields 0 0 ++ (dataFields wr.sg ++ terminatorFields s.mode wr.sg.length x.rq.maxGs)
    = [(4, 0), (4, 0)] ++ ([(4, 0), (4, 0)] ++ dataFields wr.sg ++ terminatorFields s.mode wr.sg.length x.rq.maxGs) from rfl,
    layout_append] at hslot
  obtain ⟨m3, m', l', hlink, hrec, hsilent3, hrun3⟩ := runs_publish_count (i := i) (h := h) (ls := ls) (b := b) (l := l2)
    (prev := prev) (size := recvSize s.mode wr.sg.length x.rq.maxGs) (isSend := false) (id := wr.wrId) (op := recvLinkOpcode)
    (fence := false) hslot.wf hx hind
  have hlen := recvBody_length (mode := s.mode) (maxGs := x.rq.maxGs) (wr := wr) rfl
  have h16 : 16 ≤ 16 * recvSize s.mode wr.sg.length x.rq.maxGs := by
    rw [recvSize, Nat.add_assoc]
    omega
  refine ⟨m', l', .of_wrote hslot hlink hrec rfl (by omega) (x.slotAddr_cases false hsize ind prev) hrecs,
    hsilent1.trans (hsilent2.trans hsilent3), fun wrs t => ?_⟩
  have hcheck : recvCheckAct q wr (s.posting i h ls b m l) = .ok 0 (s.posting i h ls b m l) := by
    rw [recvCheckAct, withQp_eq (hx' ..)]
    simp [hsg]
  have hnext : (s.posting i h ls b m l).nextInd q false = ind := by simp [State.nextInd, hx, Qp.ring, hind]
  have hlast : (s.posting i h ls b m l).lastIdx (.rq q) = prev := by simp [State.lastIdx, hx, hprev]
  have hmax : ∀ m l, (s.posting i h ls b m l).maxGs (.rq q) = x.rq.maxGs := fun _ _ => by simp [State.maxGs, hx]
  have haddr : ∀ m l, (s.posting i h ls b m l).slotAddr (.rq q) ind = some (x.slotAddr false ind) := fun _ _ => by
    simp [State.slotAddr, hx]
  have h1 : recvHeaderAct (.rq q) ind (s.posting i h ls b m l) = .ok 0 (s.posting i h ls b m1 l1) := by
    simp only [recvHeaderAct, haddr, hrun1]
  have h2 : recvDataAct (.rq q) ind wr (s.posting i h ls b m1 l1) = .ok 0 (s.posting i h ls b m2 l2) := by
    simp only [recvDataAct, haddr, hmax, State.posting_mode, hrun2]
  rw [recvLoop, runs_overflow_room (isSend := false) (hx' ..) hroom, runs_act_ok hcheck]
  simp only [Nat.zero_ne_one, if_false]
  rw [runs_ask, runs_ask, runs_ask, hnext, hlast, hmax, State.posting_mode, publishRecv, runs_act_ok h1, runs_act_ok h2]
  exact hrun3 _ t

end

end Sys2Proof.Machine
end

section
/-! SUPPORT. The doorbells of a post (R252 to R255): the one of its last batch, and the post of a single request (R217 to R222). -/

namespace Sys2Proof.Machine

open Sys2Proof

section

variable {s t : State} {i : Instr} {h : Handle} {ls : List (Lock × Nat)} {b : Batch} {m : List Host.Cell} {l : List BusEvent}
  {q : Nat} {x : Qp} {isSend : Bool} {r' : Ring}

/-- What the bus holds once a batch that is not empty has been rung. -/
def State.afterBell (s : State) (x : Qp) (isSend : Bool) (b : Batch) (l : List BusEvent) : List BusEvent :=
  if b.cnt = 0 then l
  else .mmio s.cur (s.regOff (ringReg isSend)) (doorbellWords (batchBell s.mode x isSend b)).1
    (doorbellWords (batchBell s.mode x isSend b)).2 :: .wmb s.cur :: l

theorem doorbells_afterBell {bell : Instr} (hc : b.cnt ≠ 0) (hbell : batchBell s.mode x isSend b = bell) :
    (s.setBus (s.afterBell x isSend b l)).doorbells = s.bell (ringReg isSend) bell :: (s.setBus l).doorbells := by
  rw [State.afterBell, if_neg hc, hbell]
  rfl

/-- The doorbell of a batch covers what the ring still owes. -/
theorem ringBatchAct_owes {r : Ring} (hr : r.shift = (x.ring isSend).shift) (hb : b.ring = some (qpRing q isSend))
    (ho : b.Owes s.mode r r') (hc : b.cnt ≠ 0) : ringBatchAct ((s.setQp q (x.setRing isSend r)).posting i h ls b m l)
      = .ok 0 ((s.setQp q (x.setRing isSend r')).posting i h ls { b with cnt := 0 } m (s.afterBell x isSend b l)) := by
  rw [ringBatchAct_posting (State.setQp_qp_self ..) hb, State.afterBell, if_neg hc, Qp.setRing_ring, State.setQp_mode,
    ho.rung hc, Qp.setRing_setRing, State.setQp_setQp, batchBell_setRing _ _ _ hr]
  rfl

/-- The doorbell owed at the end of a post. -/
theorem dbEndAct_owes {r : Ring} (hr : r.shift = (x.ring isSend).shift) (hb : b.ring = some (qpRing q isSend))
    (ho : b.Owes s.mode r r') :
    ∃ b', ∀ ls, dbEndAct ((s.setQp q (x.setRing isSend r)).posting i h ls b m l)
      = .ok 0 ((s.setQp q (x.setRing isSend r')).posting i h ls b' m (s.afterBell x isSend b l)) := by
  by_cases hc : b.cnt = 0
  · refine ⟨b, fun ls => ?_⟩
    rw [dbEndAct_owesNone hc, State.afterBell, if_pos hc, ← ho.eq_of_empty hc]
  · refine ⟨{ b with cnt := 0 }, fun ls => ?_⟩
    rw [dbEndAct, State.posting_me, if_neg hc]
    exact ringBatchAct_owes hr hb ho hc

/-- The doorbell of a batch at its limit (R252). -/
theorem dbFullAct_owes {r : Ring} (hr : r.shift = (x.ring isSend).shift) (hb : b.ring = some (qpRing q isSend))
    (ho : b.Owes s.mode r r') (hc : b.cnt ≠ 0) (hfull : b.cnt = s.batchLimit (qpRing q isSend)) :
    dbFullAct (qpRing q isSend) ((s.setQp q (x.setRing isSend r)).posting i h ls b m l)
      = .ok 0 ((s.setQp q (x.setRing isSend r')).posting i h ls { b with cnt := 0 } m (s.afterBell x isSend b l)) := by
  rw [dbFullAct, State.posting_me, if_pos ⟨hc, hfull⟩]
  exact ringBatchAct_owes hr hb ho hc

/-- A batch below its limit is not rung. -/
theorem dbFullAct_open {rr : RingRef} (hb : b.cnt = 0 ∨ b.cnt ≠ s.batchLimit rr) :
    dbFullAct rr (s.posting i h ls b m l) = .ok 0 (s.posting i h ls b m l) := by
  rw [dbFullAct, State.posting_me, if_neg fun hf => hb.elim hf.1 fun hne => hne hf.2]

/-- After the last request the batch is rung once, at its limit or at the end. -/
theorem runs_dbFull_dbEnd {p : Prog} (hx : s.qp? q = some x) (hb : b.ring = some (qpRing q isSend)) :
    Runs (.act (dbFullAct (qpRing q isSend)) fun _ => dbEnd p) (s.posting i h ls b m l) t
      ↔ Runs (dbEnd p) (s.posting i h ls b m l) t := by
  by_cases hc : b.cnt = 0
  · rw [runs_dbNone (by simpa using hc), dbEnd, runs_act_ok (dbEndAct_owesNone hc)]
  · rw [runs_dbLast (by simpa using hc) (ringBatchAct_posting hx hb) (by simp), dbEnd,
      runs_act_ok (a := 0) (by rw [dbEndAct, State.posting_me, if_neg hc]; exact ringBatchAct_posting hx hb)]

/-- The doorbell of a send batch is named by its first request (R252, R254). -/
theorem batchBell_first_send (hb : b.cnt = 0) (wr : SendWr) (n c : Nat) :
    batchBell s.mode x true { b.counted s.mode true x.sq.nextInd wr.fence (wqeOpcode wr.opcode) (sendSize s.mode x wr) x.sq.head n
      with cnt := c } = sendBell s.mode x c wr := by
  cases hmode : s.mode <;> simp [batchBell, sendDoorbell, sendBell, Batch.counted, ringsBell, Batch.add, Batch.count, hb, Qp.woff,
    Nat.add_comm]

/-- The doorbell of a receive batch is named by its first request (R253). -/
theorem batchBell_first_recv (hmode : s.mode = .legacy) (hb : b.cnt = 0) (ind size n c : Nat) (w : BitVec 6) (hd : Word) :
    batchBell s.mode x false { b.counted s.mode false ind false w size hd n with cnt := c }
      = .dbLegacyRecv (BitVec.ofNat 26 (x.woff false ind / 64)) (BitVec.ofNat 6 size) x.qpn (BitVec.ofNat 8 c) := by
  simp [hmode, batchBell, recvDoorbell, Batch.counted, ringsBell, Batch.add, Batch.count, hb, Qp.woff]

end

/-! ### One request -/

theorem State.mem_recAddrs {s : State} {o : Option Nat} {r : Nat} (h : r ∈ s.recsOf [o]) : s.recAddr r ∈ s.recAddrs o :=
  List.mem_map_of_mem h

theorem State.forall_recAddrs {s : State} {o : Option Nat} {P : Nat → Prop} :
    (∀ d ∈ s.recAddrs o, P d) ↔ ∀ r ∈ s.recsOf [o], P (s.recAddr r) := List.forall_mem_map

/-- A batch before its first WQE. -/
theorem Batch.delimits_empty {b : Batch} (hb : b.cnt = 0) (mode : Mode) (isSend : Bool) : b.delimits mode isSend = true := by
  cases isSend <;> cases mode <;> simp [Batch.delimits, hb]

section

variable {s : State} {i : Instr} {h : Handle} {q : Nat} {x : Qp} {ind prev : Nat}

/-- One request is rung for at the end of its post. -/
theorem afterBell_send_one (rr : RingRef) (wr : SendWr) (n : Nat) (l : List BusEvent) :
    s.afterBell x true (Batch.counted { ring := some rr } s.mode true x.sq.nextInd wr.fence (wqeOpcode wr.opcode)
        (sendSize s.mode x wr) x.sq.head n) l
      = .mmio s.cur s.cfg.sendDbOff (doorbellWords (sendBell s.mode x 1 wr)).1 (doorbellWords (sendBell s.mode x 1 wr)).2
        :: .wmb s.cur :: l := by
  have hbell := batchBell_first_send (s := s) (x := x) (b := { ring := some rr }) rfl wr n 1
  have hone : { Batch.counted { ring := some rr } s.mode true x.sq.nextInd wr.fence (wqeOpcode wr.opcode) (sendSize s.mode x wr)
      x.sq.head n with cnt := 1 } = Batch.counted { ring := some rr } s.mode true x.sq.nextInd wr.fence (wqeOpcode wr.opcode)
      (sendSize s.mode x wr) x.sq.head n := by cases s.mode <;> rfl
  rw [hone] at hbell
  rw [State.afterBell, hbell, if_neg (by rw [Batch.counted_cnt, ringsBell_send]; exact one_ne_zero)]
  rfl

/-- A post of one send request, from the hold of its ring's lock to its end. -/
theorem runs_sendLoop_one {wr : SendWr} (hu : s.unlocked) (hm : Memory.wf s.mem = true) (hx : s.qp? q = some x)
    (hroom : x.sq.count < x.sq.capacity) (hpass : s.sendPasses x wr) (hind : x.sq.nextInd = ind) (hprev : x.sq.lastIdx = prev)
    (hsize : 16 * sendSize s.mode x wr ≤ 2 ^ x.sq.shift)
    (hrecs : ∀ d ∈ s.recAddrs x.sqDbRec, ∀ b, Outside b (d, 4)
      ∨ Outside b (x.slotAddr true ind, 16 * sendSize s.mode x wr) ∧ Outside b (x.slotAddr true prev, 8)) :
    ∃ m l, WqePosted s.mem m (x.slotAddr true ind) (16 * sendSize s.mode x wr) (x.slotAddr true prev) (s.recAddrs x.sqDbRec)
        (sendBody s.mode x wr s.mem (dataOutside wr (x.slotAddr true ind, 16 * sendSize s.mode x wr)))
        (linkWord (BitVec.ofNat 26 (x.woff true ind / 64)) (wqeOpcode wr.opcode)) (eeNds true wr.fence (sendSize s.mode x wr))
        ((x.sq.head + 1).toNat % 65536)
      ∧ Runs (sendLoop q 0 [wr]) (s.posting i h [(.sq q, s.cur)] { ring := some (.sq q) } s.mem s.bus)
        ((s.setQp q (x.setRing true (x.sq.posted s.mode wr.wrId (wqeOpcode wr.opcode)))).postEnded m
          (.mmio s.cur s.cfg.sendDbOff (doorbellWords (sendBell s.mode x 1 wr)).1 (doorbellWords (sendBell s.mode x 1 wr)).2
            :: .wmb s.cur :: l) .ok 1) := by
  obtain ⟨m, l, hw, -, hrun⟩ := runs_sendLoop_cons (k := 0) (i := i) (h := h) (ls := [(.sq q, s.cur)])
    (b := { ring := some (.sq q) }) (l := s.bus) hm hx hroom hpass hind hprev hsize hrecs
  rw [Batch.delimits_empty rfl] at hw
  refine ⟨m, l, hw, (hrun [] _).mpr ?_⟩
  subst hind
  have howes := (Batch.Owes.of_empty (b := { ring := some (.sq q) }) (mode := s.mode) (r := x.sq) rfl).counted true x.sq.nextInd
    wr.fence (wqeOpcode wr.opcode) (sendSize s.mode x wr) x.sq.head wr.wrId (wqeOpcode wr.opcode)
  have hbell := afterBell_send_one (s := s) (x := x) (.sq q) wr (x.sq.live + 1) l
  refine (runs_dbFull_dbEnd (isSend := true) (State.setQp_qp_self ..) (Batch.counted_ring ..)).mpr ?_
  obtain ⟨b', hend⟩ := dbEndAct_owes (i := i) (h := h) (m := m) (l := l) (x := x) (q := q) (isSend := true)
    (Ring.queued_shift ..) (Batch.counted_ring ..) howes
  refine (runs_postEnd (st := .ok) hend hu rfl).1.mpr ?_
  rw [hbell]

/-- `POST_SEND` with a list of one and the rows of the work-request opcodes are the same post (notes/assumptions/11.md). -/
theorem exec_postsOne {wr : SendWr} (hpost : postsOne i s.me.op wr) :
    ∃ prog op, exec i s = runCmd i prog s ∧ prog s.me.op = postSendProg op ∧ op.sendWrs = [wr] ∧ op.qp = s.me.op.qp := by
  obtain ⟨rfl, hlist⟩ | ⟨e, he, rfl, rfl⟩ := hpost
  · exact ⟨postSendProg, s.me.op, rfl, rfl, hlist, rfl⟩
  · simp only [wrRows, List.mem_cons, List.not_mem_nil, or_false] at he
    rcases he with rfl | rfl | rfl | rfl | rfl | rfl | rfl <;> exact ⟨_, _, rfl, rfl, rfl, rfl⟩

end

/-- The bytes after the header of a WQE just posted, read as a run of a known length. -/
theorem WqePosted.read {m m' : List Host.Cell} {a n p v len : Nat} {recs : List Nat} {body : List Byte → Prop} {link nds : Word}
    {cs : List Byte} (hw : WqePosted m m' a n p recs body link nds v) (hbody : ∀ bs, body bs → bs.length = len ∧ bs = cs) :
    memGetBytes m' (a + 8) len = cs := by
  obtain ⟨bs, -, hbs, hread⟩ := hw.body
  obtain ⟨rfl, rfl⟩ := hbody bs hbs
  exact hread

/-- Settles O36: every row posts as `POST_SEND` does (`exec_postsOne`); `runs_sendLoop_one` says what the post writes and rings. -/
theorem postSendOne : Obligations.PostSendOne := by
  intro i s op wr q x ind prev a p size code fs bell hs hop hpost hn hx hok hroom hlegal hsg hinl hind hprev ha hp hsize hfits hcode
    hfs hm hrecs hbell
  subst hop hind hprev ha hp hsize hcode hfs
  obtain ⟨prog, op, hexec, hprog, hlist, hqp⟩ := exec_postsOne hpost
  obtain ⟨m, l, hw, hrun⟩ := runs_sendLoop_one (i := i) (h := op.qp) hs.1.2.2 hm hx hroom ⟨hlegal, hsg, hinl⟩ rfl rfl hfits
    (State.forall_recAddrs.mpr hrecs)
  rw [← hqp] at hn
  have hend := (runs_postSend_start (i := i) hs hn hx hok).mpr (hlist ▸ hrun)
  have hbell' : bell = sendBell s.mode x 1 wr := by
    rw [hbell]
    cases s.mode <;> rfl
  refine ⟨_, hexec.trans (hs.runCmd (hprog ▸ hend)), ?_⟩
  refine ⟨fun hne => hw.header fun heq => ?_, fun hin => ?_, fun hin hclear => ?_, hw.link, hw.nds,
    fun r hr => hw.record _ (State.mem_recAddrs hr), fun b hb hb' hbr => hw.frame b hb hb' (State.forall_recAddrs.mpr hbr),
    ⟨l, hbell' ▸ rfl⟩, rfl, rfl⟩
  · have hapart := x.slotAddr_apart true hne
    have := Nat.two_pow_pos (x.ring true).shift
    omega
  · exact hw.read fun bs hbs => sendBody_plain hbs hin
  · exact hw.read fun bs hbs => sendBody_inline hbs hin hclear

end Sys2Proof.Machine
end

section
/-! SUPPORT. The post of a list of requests on a ring of a QP (R222, R252): after each request its WQEs, its ring, its batch and the
doorbells are those of the requests so far. -/

namespace Sys2Proof.Machine

open Sys2Proof

/-! ### Batches (R252) -/

/-- A list falls into full batches and what is left over. -/
theorem batches_eq {limit : Nat} (hpos : 0 < limit) (n : Nat) : batches limit n =
    (List.range (n / limit)).map (fun j => (j * limit, limit))
      ++ if n % limit = 0 then [] else [(n / limit * limit, n % limit)] := by
  have hdiv := Nat.div_add_mod n limit
  have hmod := Nat.mod_lt n hpos
  have hfull : ∀ j ∈ List.range (n / limit), (j * limit, min limit (n - j * limit)) = (j * limit, limit) := by
    intro j hj
    have hle : (j + 1) * limit ≤ n / limit * limit := Nat.mul_le_mul_right limit (List.mem_range.mp hj)
    rw [Nat.succ_mul, Nat.mul_comm (n / limit)] at hle
    rw [min_eq_left (by omega)]
  have hsplit : n + limit - 1 = (n % limit + limit - 1) + limit * (n / limit) := by omega
  rw [batches, hsplit, Nat.add_mul_div_left _ _ hpos]
  split_ifs with h
  · rw [h, Nat.div_eq_of_lt (by omega), Nat.zero_add, List.append_nil, List.map_congr_left hfull]
  · have hone : (n % limit + limit - 1) / limit = 1 := Nat.div_eq_of_lt_le (by omega) (by omega)
    rw [hone, Nat.add_comm 1, List.range_succ, List.map_append, List.map_congr_left hfull, List.map_singleton,
      Nat.mul_comm (n / limit), min_eq_right (by omega), show n - limit * (n / limit) = n % limit by omega]

/-- One more request fills a batch. -/
theorem div_mod_succ_full {k n : Nat} (h : k % n + 1 = n) : (k + 1) / n = k / n + 1 ∧ (k + 1) % n = 0 := by
  have hdiv := Nat.div_add_mod k n
  refine (Nat.div_mod_unique (by omega)).mpr ⟨?_, by omega⟩
  rw [Nat.mul_succ]
  omega

/-- One more request leaves a batch open. -/
theorem div_mod_succ_open {k n : Nat} (hn : 0 < n) (h : k % n + 1 ≠ n) : (k + 1) / n = k / n ∧ (k + 1) % n = k % n + 1 := by
  have hdiv := Nat.div_add_mod k n
  have hmod := Nat.mod_lt k hn
  exact (Nat.div_mod_unique hn).mpr ⟨by omega, by omega⟩

/-! ### A ring after some requests -/

section

variable (r : Ring) (mode : Mode) (l : List (BitVec 64 × BitVec 6))

theorem Ring.filled_succ {k : Nat} {w : BitVec 64 × BitVec 6} (h : l[k]? = some w) :
    r.filled mode (l.take (k + 1)) = (r.filled mode (l.take k)).posted mode w.1 w.2 := by
  rw [List.take_add_one, h, Ring.filled_append]
  rfl

theorem Ring.filled_maxGs : (r.filled mode l).maxGs = r.maxGs := by
  induction l generalizing r with
  | nil => rfl
  | cons w l ih => exact ih _

theorem Ring.filled_tail : (r.filled mode l).tail = r.tail := by
  induction l generalizing r with
  | nil => rfl
  | cons w l ih => exact ih _

theorem Ring.filled_head : (r.filled mode l).head = r.head + BitVec.ofNat 32 l.length := by
  induction l generalizing r with
  | nil => exact (BitVec.add_zero _).symm
  | cons w l ih =>
    have hhead : (r.posted mode w.1 w.2).head = r.head + 1 := rfl
    rw [Ring.filled, ih, hhead, List.length_cons, BitVec.add_assoc]
    congr 1
    apply BitVec.eq_of_toNat_eq
    simp [Nat.add_comm]

/-- The hardware owns one more slot for each request (R33). -/
theorem Ring.filled_count (h : r.count + l.length < 2 ^ 32) : (r.filled mode l).count = r.count + l.length := by
  simp only [Ring.count, Ring.filled_head, Ring.filled_tail] at h ⊢
  bv_omega

/-- The next slot, in a ring whose next slot is in range. -/
theorem Ring.filled_nextInd (h : r.capacity = 0 ∨ r.nextInd < r.capacity) : (r.filled mode l).nextInd = r.slotOf l.length := by
  have hmod : r.nextInd % r.capacity = r.nextInd := by
    rcases h with h | h
    · rw [h, Nat.mod_zero]
    · exact Nat.mod_eq_of_lt h
  induction l using List.reverseRecOn with
  | nil => exact hmod.symm
  | append_singleton l w ih =>
    rw [Ring.filled_append]
    show ((r.filled mode l).nextInd + 1) % (r.filled mode l).capacity = _
    rw [ih, Ring.filled_capacity, List.length_append, List.length_singleton, Ring.slotOf, Nat.mod_add_mod, Ring.slotOf, Nat.add_assoc]

/-- The chain tail, in a ring whose last slot is the one before the next (R211). -/
theorem Ring.filled_lastIdx (h : r.capacity = 0 ∨ r.nextInd < r.capacity)
    (hlast : r.lastIdx = (r.nextInd + r.capacity - 1) % r.capacity) : (r.filled mode l).lastIdx = r.tailOf l.length := by
  induction l using List.reverseRecOn with
  | nil => exact hlast
  | append_singleton l w _ =>
    rw [Ring.filled_append]
    show (r.filled mode l).nextInd = _
    rw [Ring.filled_nextInd _ _ _ h, List.length_append, List.length_singleton, Ring.tailOf_succ]

end

/-! ### After some requests -/

/-- A list of requests on a ring of a QP: the QP, the ring, the plan of the WQEs, their ids and opcodes, the batch limit, and the
doorbell of a batch by the place of its first request and its number of requests. -/
structure PostList where
  qp : Qp
  isSend : Bool
  plan : PostPlan
  wqes : List (BitVec 64 × BitVec 6)
  limit : Nat
  bell : Nat → Nat → Instr

/-- The ring before the list. -/
def PostList.ring (L : PostList) : Ring := L.qp.ring L.isSend

/-- The ring after the first `k` requests. -/
def PostList.ringAt (L : PostList) (mode : Mode) (k : Nat) : Ring := L.ring.filled mode (L.wqes.take k)

/-- What the doorbell record holds after the first `k` requests. -/
def PostList.recordAt (L : PostList) (k : Nat) : Nat := (L.ring.head + BitVec.ofNat 32 k).toNat % 65536

/-- The doorbells of some batches, newest first, as the window gets them. -/
def PostList.rungBells (L : PostList) (s : State) (bs : List (Nat × Nat)) : List (BitVec 8 × Word × Word) :=
  (if ringsBell s.mode L.isSend then bs.map fun e => s.bell (ringReg L.isSend) (L.bell e.1 e.2) else []).reverse

/-- The state of a post after the first `k` requests of a list: `r` is the ring, `b` the batch, `m` the memory, `l` the bus. -/
structure PostList.After (L : PostList) (s : State) (q k : Nat) (b : Batch) (r : Ring) (m : List Host.Cell) (l : List BusEvent) :
    Prop where
  done : L.plan.Done s.mem m k (L.recordAt k)
  owes : b.Owes s.mode r (L.ringAt s.mode k)
  ring : b.ring = some (qpRing q L.isSend)
  cnt : b.cnt = if ringsBell s.mode L.isSend then k % L.limit else 0
  bell : b.cnt ≠ 0 → ∀ c, batchBell s.mode L.qp L.isSend { b with cnt := c } = L.bell (k / L.limit * L.limit) c
  bells : (s.setBus l).doorbells
    = L.rungBells s ((List.range (k / L.limit)).map fun j => (j * L.limit, L.limit)) ++ s.doorbells

/-- The state a post is in after some requests. -/
def PostList.state (L : PostList) (s : State) (i : Instr) (h : Handle) (q : Nat) (b : Batch) (r : Ring) (m : List Host.Cell)
    (l : List BusEvent) : State :=
  (s.setQp q (L.qp.setRing L.isSend r)).posting i h [(ringLock (qpRing q L.isSend), s.cur)] b m l

namespace PostList

variable {L : PostList} {s t : State} {i : Instr} {h : Handle} {q k n : Nat} {b : Batch} {r : Ring} {m m' : List Host.Cell}
  {l l' : List BusEvent} {st : Status}

theorem After.start (hm : Memory.wf s.mem = true) :
    L.After s q 0 { ring := some (qpRing q L.isSend) } L.ring s.mem s.bus where
  done := PostPlan.Done.start hm _
  owes := .of_empty rfl
  ring := rfl
  cnt := by split_ifs <;> simp
  bell := fun hc => absurd rfl hc
  bells := by simp [rungBells]; rfl

/-- The ring in its present state differs from the ring of the statements at most in what the device may read. -/
theorem After.ring_eq (ha : L.After s q k b r m l) : L.ringAt s.mode k = { r with first := (L.ringAt s.mode k).first } :=
  ha.owes.eq_but_first

theorem After.shift (ha : L.After s q k b r m l) : r.shift = L.ring.shift := by
  have hshift : (L.ringAt s.mode k).shift = L.ring.shift := Ring.filled_shift ..
  rw [ha.ring_eq] at hshift
  exact hshift

theorem rungBells_succ (s : State) (j limit : Nat) (hr : ringsBell s.mode L.isSend = true) :
    L.rungBells s ((List.range (j + 1)).map fun j => (j * limit, limit))
      = s.bell (ringReg L.isSend) (L.bell (j * limit) limit) :: L.rungBells s ((List.range j).map fun j => (j * limit, limit)) := by
  simp [rungBells, hr, List.range_succ]

theorem ringAt_succ {mode : Mode} {w : BitVec 64 × BitVec 6} (hw : L.wqes[k]? = some w) :
    L.ringAt mode (k + 1) = (L.ringAt mode k).posted mode w.1 w.2 := Ring.filled_succ _ _ _ hw

/-- The doorbell of a batch is named by its first request, be it this one or one before it. -/
theorem After.bell_counted (ha : L.After s q k b r m l) {ind size num : Nat} {fence : Bool} {op : BitVec 6} {head0 : Word}
    (hbell : ringsBell s.mode L.isSend = true → b.cnt = 0 → ∀ c, batchBell s.mode L.qp L.isSend
      { b.counted s.mode L.isSend ind fence op size head0 num with cnt := c } = L.bell k c)
    (hr : ringsBell s.mode L.isSend = true) (c : Nat) : batchBell s.mode L.qp L.isSend
      { b.counted s.mode L.isSend ind fence op size head0 num with cnt := c } = L.bell (k / L.limit * L.limit) c := by
  by_cases hc : b.cnt = 0
  · have hcnt := ha.cnt
    rw [hr, if_pos rfl] at hcnt
    rw [Nat.div_mul_cancel (Nat.dvd_of_mod_eq_zero (hcnt ▸ hc)), hbell hr hc]
  · rw [Batch.counted_of_ne _ _ _ _ _ _ _ _ _ hc]
    exact ha.bell hc c

/-- The rest of a post after a request: the batch is rung where it is full. -/
theorem After.next (ha : L.After s q k b r m l) (hlimit : s.batchLimit (qpRing q L.isSend) = L.limit) (hpos : 0 < L.limit)
    {w : BitVec 64 × BitVec 6} (hw : L.wqes[k]? = some w) (hdone : L.plan.Done s.mem m' (k + 1) (L.recordAt (k + 1)))
    (hsilent : Silent l l') {ind size : Nat} {fence : Bool} {op : BitVec 6} {head0 : Word}
    (hbell : ringsBell s.mode L.isSend = true → b.cnt = 0 → ∀ c, batchBell s.mode L.qp L.isSend
      { b.counted s.mode L.isSend ind fence op size head0 (r.live + 1) with cnt := c } = L.bell k c) :
    ∃ b' r' l'', L.After s q (k + 1) b' r' m' l'' ∧ ∀ p t,
      Runs (.act (dbFullAct (qpRing q L.isSend)) fun _ => p) (L.state s i h q
          (b.counted s.mode L.isSend ind fence op size head0 (r.live + 1)) (r.queued s.mode w.1 w.2) m' l') t
        ↔ Runs p (L.state s i h q b' r' m' l'') t := by
  have hbells := (hsilent.doorbells s).trans ha.bells
  have howes := ha.owes.counted L.isSend ind fence op size head0 w.1 w.2
  rw [← ringAt_succ hw] at howes
  have hring := (Batch.counted_ring b s.mode L.isSend ind fence op size head0 (r.live + 1)).trans ha.ring
  have hcnt := Batch.counted_cnt b s.mode L.isSend ind fence op size head0 (r.live + 1)
  rw [ha.cnt] at hcnt
  have hbell' := ha.bell_counted hbell
  generalize b.counted s.mode L.isSend ind fence op size head0 (r.live + 1) = b1 at howes hring hcnt hbell'
  cases hr : ringsBell s.mode L.isSend with
  | false =>
    rw [hr] at hcnt
    have hnone : b1.cnt = 0 := hcnt
    refine ⟨b1, _, l', ⟨hdone, howes, hring, by rw [hr]; exact hnone, fun hne => absurd hnone hne, ?_⟩,
      fun p t => runs_act_ok (dbFullAct_open (.inl hnone))⟩
    rw [hbells, rungBells, rungBells, hr]
    rfl
  | true =>
    rw [hr, if_pos rfl, if_pos rfl] at hcnt
    have hne : b1.cnt ≠ 0 := hcnt ▸ Nat.succ_ne_zero _
    by_cases hfull : k % L.limit + 1 = L.limit
    · obtain ⟨hdiv, hmod⟩ := div_mod_succ_full hfull
      have hlim : b1.cnt = L.limit := hcnt.trans hfull
      refine ⟨{ b1 with cnt := 0 }, L.ringAt s.mode (k + 1), s.afterBell L.qp L.isSend b1 l',
        ⟨hdone, .of_empty rfl, hring, by rw [hr, hmod]; rfl, fun hc => absurd rfl hc, ?_⟩, fun p t => runs_act_ok
          (dbFullAct_owes ((Ring.queued_shift ..).trans ha.shift) hring howes hne (hlim.trans hlimit.symm))⟩
      rw [doorbells_afterBell hne (hbell' hr b1.cnt), hbells, hdiv, rungBells_succ _ _ _ hr, hlim]
      rfl
    · obtain ⟨hdiv, hmod⟩ := div_mod_succ_open hpos hfull
      exact ⟨b1, _, l', ⟨hdone, howes, hring, by rw [hr, hmod]; exact hcnt, fun _ c => by rw [hdiv, hbell' hr],
        by rw [hdiv, hbells]⟩, fun p t => runs_act_ok (dbFullAct_open (.inr fun heq => hfull (hcnt.symm.trans (heq.trans hlimit))))⟩

/-- The first `k` requests of a list, one after another. -/
theorem runs_requests {prog : Nat → Prog} (hm : Memory.wf s.mem = true) (hx : s.qp? q = some L.qp)
    (hstep : ∀ k b r m l, k < n → L.After s q k b r m l → ∃ b' r' m' l', L.After s q (k + 1) b' r' m' l'
      ∧ ∀ t, Runs (prog k) (L.state s i h q b r m l) t ↔ Runs (prog (k + 1)) (L.state s i h q b' r' m' l') t) (hk : k ≤ n) :
    ∃ b r m l, L.After s q k b r m l ∧ ∀ t, Runs (prog 0) (s.posting i h [(ringLock (qpRing q L.isSend), s.cur)]
        { ring := some (qpRing q L.isSend) } s.mem s.bus) t ↔ Runs (prog k) (L.state s i h q b r m l) t := by
  induction k with
  | zero =>
    refine ⟨_, _, _, _, .start hm, fun t => ?_⟩
    rw [state, ring, Qp.setRing_self, State.setQp_self hx]
  | succ k ih =>
    obtain ⟨b, r, m, l, ha, hrun⟩ := ih (Nat.le_of_succ_le hk)
    obtain ⟨b', r', m', l', ha', hrun'⟩ := hstep k b r m l hk ha
    exact ⟨b', r', m', l', ha', fun t => (hrun t).trans (hrun' t)⟩

/-- `p`, what is left of a post after `n` requests, ends it with the status `st`: the requests have run out, or the next one fails. -/
def EndsWith (L : PostList) (s : State) (i : Instr) (h : Handle) (q n : Nat) (p : Prog) (st : Status) : Prop :=
  (st = .ok ∧ p = (dbEnd <| release (ringLock (qpRing q L.isSend)) <| respond .ok (some n)))
  ∨ ∀ b r m l, L.After s q n b r m l → ∀ t, Runs p (L.state s i h q b r m l) t ↔
      Runs (raise st (some n)) (L.state s i h q b r m l) t

/-- After its last request a post rings what is left over and ends. -/
theorem After.ends (ha : L.After s q n b r m l) (hu : s.unlocked) (hpos : 0 < L.limit) (hn : L.wqes.length = n) {p : Prog}
    (hp : L.EndsWith s i h q n p st) :
    ∃ l', (s.setBus l').doorbells = L.rungBells s (batches L.limit n) ++ s.doorbells
      ∧ ∀ t, Runs p (L.state s i h q b r m l) t
        ↔ t = (s.setQp q (L.qp.setRing L.isSend (L.ring.filled s.mode L.wqes))).postEnded m l' st n := by
  have hall : L.ringAt s.mode n = L.ring.filled s.mode L.wqes := by rw [ringAt, ← hn, List.take_length]
  obtain ⟨b', hend⟩ := dbEndAct_owes (i := i) (h := h) (m := m) (l := l) (x := L.qp) (isSend := L.isSend) ha.shift ha.ring (hall ▸ ha.owes)
  refine ⟨s.afterBell L.qp L.isSend b l, ?_, fun t => ?_⟩
  · have hbells := ha.bells
    have hcnt := ha.cnt
    rw [State.afterBell, batches_eq hpos]
    cases hr : ringsBell s.mode L.isSend with
    | false =>
      rw [rungBells, hr] at hbells ⊢
      rw [hr] at hcnt
      rw [if_pos (by simpa using hcnt), hbells]
      rfl
    | true =>
      rw [hr, if_pos rfl] at hcnt
      rw [rungBells, hr] at hbells ⊢
      simp only [if_true, List.map_append, List.reverse_append] at hbells ⊢
      split_ifs with hc hmod hmod
      · rw [hbells]; rfl
      · omega
      · omega
      · have hlast := doorbells_afterBell (l := l) hc (ha.bell hc b.cnt)
        rw [State.afterBell, if_neg hc] at hlast
        rw [hlast, hbells, hcnt]
        rfl
  · have hcur : (s.setQp q (L.qp.setRing L.isSend (L.ring.filled s.mode L.wqes))).cur
        = (s.setQp q (L.qp.setRing L.isSend r)).cur := rfl
    obtain ⟨rfl, rfl⟩ | hraise := hp
    · exact (runs_postEnd (st := .ok) hend hu hcur).1
    · exact (hraise b r m l ha t).trans (runs_postEnd hend hu hcur).2

end PostList

end Sys2Proof.Machine
end

section
/-! SUPPORT. Lists of requests on a QP (R222, R230, R232): what is known of the ring at each request, and the post as a whole. -/

namespace Sys2Proof.Machine

open Sys2Proof

namespace PostList

/-- The ring of a list is one between commands, and has room for its requests (R211). -/
structure Roomy (L : PostList) : Prop where
  wf : L.ring.Wf
  word : L.ring.capacity < 2 ^ 32
  last : L.ring.lastIdx = (L.ring.nextInd + L.ring.capacity - 1) % L.ring.capacity
  room : L.ring.count + L.wqes.length ≤ L.ring.capacity

section

variable {L : PostList} {s t : State} {i : Instr} {h : Handle} {q k n : Nat} {b : Batch} {r : Ring} {m : List Host.Cell}
  {l : List BusEvent} {st : Status}

theorem Roomy.nextInd (hr : L.Roomy) : L.ring.capacity = 0 ∨ L.ring.nextInd < L.ring.capacity := by
  obtain ⟨-, hind, -⟩ := hr.wf
  rcases Nat.eq_zero_or_pos L.ring.capacity with hcap | hcap
  · exact .inl hcap
  · exact .inr (hind hcap).1

/-- A field of the ring that the device's reading does not touch. -/
theorem After.field {α : Type} (ha : L.After s q k b r m l) (f : Ring → α) (hf : ∀ r' first, f { r' with first := first } = f r') :
    f r = f (L.ringAt s.mode k) :=
  ((congrArg f ha.ring_eq).trans (hf ..)).symm

theorem After.capacity (ha : L.After s q k b r m l) : r.capacity = L.ring.capacity :=
  (ha.field Ring.capacity fun _ _ => rfl).trans (Ring.filled_capacity ..)

theorem After.maxGs (ha : L.After s q k b r m l) : r.maxGs = L.ring.maxGs :=
  (ha.field Ring.maxGs fun _ _ => rfl).trans (Ring.filled_maxGs ..)

theorem After.head (ha : L.After s q k b r m l) (hk : k ≤ L.wqes.length) : r.head = L.ring.head + BitVec.ofNat 32 k := by
  rw [ha.field Ring.head fun _ _ => rfl, ringAt, Ring.filled_head, List.length_take, min_eq_left hk]

theorem After.count (ha : L.After s q k b r m l) (hr : L.Roomy) (hk : k ≤ L.wqes.length) : r.count = L.ring.count + k := by
  have hlen : (L.wqes.take k).length = k := List.length_take_of_le hk
  have hroom := hr.room
  have hword := hr.word
  rw [ha.field Ring.count fun _ _ => rfl, ringAt, Ring.filled_count _ _ _ (by omega), hlen]

theorem After.nextInd (ha : L.After s q k b r m l) (hr : L.Roomy) (hk : k ≤ L.wqes.length) : r.nextInd = L.ring.slotOf k := by
  rw [ha.field Ring.nextInd fun _ _ => rfl, ringAt, Ring.filled_nextInd _ _ _ hr.nextInd, List.length_take, min_eq_left hk]

theorem After.lastIdx (ha : L.After s q k b r m l) (hr : L.Roomy) (hk : k ≤ L.wqes.length) : r.lastIdx = L.ring.tailOf k := by
  rw [ha.field Ring.lastIdx fun _ _ => rfl, ringAt, Ring.filled_lastIdx _ _ _ hr.nextInd hr.last, List.length_take, min_eq_left hk]

theorem After.hasRoom (ha : L.After s q k b r m l) (hr : L.Roomy) (hk : k < L.wqes.length) : r.count < r.capacity := by
  have hroom := hr.room
  rw [ha.count hr hk.le, ha.capacity]
  omega

/-- What the doorbell record holds after one more request. -/
theorem After.record (ha : L.After s q k b r m l) (hk : k ≤ L.wqes.length) : (r.head + 1).toNat % 65536 = L.recordAt (k + 1) := by
  have hone : BitVec.ofNat 32 (k + 1) = BitVec.ofNat 32 k + 1 := BitVec.ofNat_add ..
  rw [recordAt, ha.head hk, hone, BitVec.add_assoc]

/-- The delimiter of a link: clear in `LEGACY` on all sends but the first of a batch (R222). -/
theorem After.delimits (ha : L.After s q k b r m l) :
    b.delimits s.mode L.isSend = (!L.isSend || decide (s.mode = .memfree ∨ k % L.limit = 0)) := by
  have hcnt := ha.cnt
  cases hsend : L.isSend with
  | false => rfl
  | true =>
    rw [hsend] at hcnt
    cases hmode : s.mode with
    | memfree => rfl
    | legacy =>
      rw [hmode] at hcnt
      simp [Batch.delimits, show b.cnt = k % L.limit from hcnt]

/-- The slots of a ring hold the WQEs of a list, where each fits and none meets a doorbell record. -/
theorem Roomy.fits (hr : L.Roomy) (hring : L.plan.ring = L.ring) (haddr : L.plan.addr = L.qp.slotAddr L.isSend)
    (hbytes : ∀ j < L.wqes.length, 8 ≤ L.plan.bytes j ∧ L.plan.bytes j ≤ 2 ^ L.ring.shift)
    (hrecs : ∀ d ∈ L.plan.recs, ∀ i < L.ring.capacity, ∀ b, Outside b (d, 4) ∨ Outside b (L.qp.slotAddr L.isSend i, 2 ^ L.ring.shift)) :
    L.plan.Fits L.wqes.length where
  room := by
    rw [hring]
    exact (Nat.le_add_left ..).trans hr.room
  bytes := hring ▸ hbytes
  slots := by
    intro i j _ _ hne
    rw [hring, haddr]
    exact L.qp.slotAddr_apart L.isSend hne
  recs := by rwa [hring, haddr]

/-- A post of a list, from the hold of its ring's lock to its end: the requests `hstep` posts one by one, and how it ends. -/
theorem runs_all {prog : Nat → Prog} (hu : s.unlocked) (hm : Memory.wf s.mem = true) (hx : s.qp? q = some L.qp) (hpos : 0 < L.limit)
    (hn : L.wqes.length = n)
    (hstep : ∀ k b r m l, k < n → L.After s q k b r m l → ∃ b' r' m' l', L.After s q (k + 1) b' r' m' l'
      ∧ ∀ t, Runs (prog k) (L.state s i h q b r m l) t ↔ Runs (prog (k + 1)) (L.state s i h q b' r' m' l') t)
    (hend : L.EndsWith s i h q n (prog n) st) :
    ∃ m l, L.plan.Done s.mem m n (L.recordAt n) ∧ (s.setBus l).doorbells = L.rungBells s (batches L.limit n) ++ s.doorbells
      ∧ Runs (prog 0) (s.posting i h [(ringLock (qpRing q L.isSend), s.cur)] { ring := some (qpRing q L.isSend) } s.mem s.bus)
        ((s.setQp q (L.qp.setRing L.isSend (L.ring.filled s.mode L.wqes))).postEnded m l st n) := by
  obtain ⟨b, r, m, l, ha, hrun⟩ := runs_requests hm hx hstep le_rfl
  obtain ⟨l', hbells, hlast⟩ := ha.ends hu hpos hn hend
  exact ⟨m, l', ha.done, hbells, (hrun _).mpr ((hlast _).mpr rfl)⟩

end

end PostList

end Sys2Proof.Machine
end

section
/-! SUPPORT. `POST_SEND` with a list of requests (R217 to R222, R230, R252, R254). -/

namespace Sys2Proof.Machine

open Sys2Proof

section

variable (s : State) (x : Qp) (limit : Nat) (good : List SendWr)

/-- The data of an inline request lies outside the QP's buffer and doorbell record. -/
def State.dataApart (wr : SendWr) : Prop := dataOutside wr x.buffer ∧ ∀ d ∈ s.recAddrs x.sqDbRec, dataOutside wr (d, 4)

/-- What the WQEs of a list of send requests are. -/
def sendPlan : PostPlan where
  ring := x.sq
  addr := x.slotAddr true
  recs := s.recAddrs x.sqDbRec
  bytes j := 16 * sendSize s.mode (x.sent s.mode (good.take j)) (good.getD j {})
  body j := sendBody s.mode (x.sent s.mode (good.take j)) (good.getD j {}) s.mem (s.dataApart x (good.getD j {}))
  link j := linkWord (BitVec.ofNat 26 (x.woff true (x.sq.slotOf j) / 64)) (wqeOpcode (good.getD j {}).opcode)
  nds j := eeNds (decide (s.mode = .memfree ∨ j % limit = 0)) (good.getD j {}).fence
    (sendSize s.mode (x.sent s.mode (good.take j)) (good.getD j {}))

/-- A list of send requests on a QP. -/
def sendList : PostList where
  qp := x
  isSend := true
  plan := sendPlan s x limit good
  wqes := good.map fun wr => (wr.wrId, wqeOpcode wr.opcode)
  limit := limit
  bell j c := sendBell s.mode (x.sent s.mode (good.take j)) c (good.getD j {})

end

section

variable {s : State} {x : Qp} {limit q k : Nat} {good : List SendWr} {i : Instr} {h : Handle} {b : Batch} {r : Ring}
  {m : List Host.Cell} {l : List BusEvent}

theorem getD_of_getElem? {α : Type} {xs : List α} {j : Nat} {a d : α} (h : xs[j]? = some a) : xs.getD j d = a := by
  rw [List.getD_eq_getElem?_getD, h, Option.getD_some]

/-- A body with a weaker condition on the data. -/
theorem sendBody.mono {mode : Mode} {wr : SendWr} {src src' : List Host.Cell} {clear clear' : Prop} {bs : List Byte}
    (hbody : sendBody mode x wr src clear bs) (hclear : clear' → clear ∧ inlineBytes src wr.sg = inlineBytes src' wr.sg) :
    sendBody mode x wr src' clear' bs := by
  obtain ⟨data, hbs, hlen, hdata⟩ := hbody
  exact ⟨data, hbs, hlen, fun hin hc => (hdata hin (hclear hc).1).trans (hclear hc).2⟩

/-- A slot of the send ring lies in the QP's buffer. -/
theorem outside_sendSlot {a j : Nat} (hj : j < x.sq.capacity) (ha : Outside a x.buffer) :
    Outside a (x.slotAddr true j, 2 ^ x.sq.shift) := by
  have hmul : (j + 1) * 2 ^ x.sq.shift ≤ x.sq.capacity * 2 ^ x.sq.shift := Nat.mul_le_mul_right _ hj
  rw [Nat.succ_mul] at hmul
  simp only [Outside, Qp.buffer, Qp.slotAddr, Qp.woff, Nat.shiftLeft_eq, if_true] at ha ⊢
  omega

/-- The QP of the statements differs from the one that runs at most in what the device may read. -/
theorem PostList.After.sent_eq (ha : (sendList s x limit good).After s q k b r m l) : ∃ first, x.sent s.mode (good.take k)
    = x.setRing true { r with first := first } := by
  refine ⟨((sendList s x limit good).ringAt s.mode k).first, ?_⟩
  rw [← ha.ring_eq, PostList.ringAt, sendList, ← List.map_take]
  rfl

/-- Data apart from the QP's buffer and record have been written by none of the requests so far, nor will be by the next. -/
theorem State.dataApart.unwritten {wr : SendWr} {n : Nat} (hd : s.dataApart x wr)
    (hfits : (sendPlan s x limit good).Fits n) (hk : k ≤ n) {v : Nat} (hdone : (sendPlan s x limit good).Done s.mem m k v)
    {j size : Nat} (hj : j < x.sq.capacity) (hsize : size ≤ 2 ^ x.sq.shift) :
    dataOutside wr (x.slotAddr true j, size) ∧ inlineBytes m wr.sg = inlineBytes s.mem wr.sg := by
  obtain ⟨hbuffer, hrecs⟩ := hd
  refine ⟨fun e he i hi => ?_, inlineBytes_congr _ _ _ fun e he i hi => hdone.outside hfits hk
    (fun j hj => outside_sendSlot hj (hbuffer e he i hi)) fun d hd => hrecs d hd e he i hi⟩
  have hslot := outside_sendSlot hj (hbuffer e he i hi)
  simp only [Outside] at hslot ⊢
  omega

theorem WqePosted.imp_body {m' : List Host.Cell} {a n p v : Nat} {recs : List Nat} {body body' : List Byte → Prop} {link nds : Word}
    (hw : WqePosted m m' a n p recs body link nds v) (himp : ∀ bs, body bs → body' bs) :
    WqePosted m m' a n p recs body' link nds v where
  __ := hw
  body := by
    obtain ⟨bs, hlen, hbs, hread⟩ := hw.body
    exact ⟨bs, hlen, himp bs hbs, hread⟩

/-- A doorbell record meets neither the slot of a request nor the header before it. -/
theorem PostPlan.Fits.recs_slots {P : PostPlan} {n d size : Nat} (hfits : P.Fits n) (hk : k < n) (hd : d ∈ P.recs)
    (hsize : P.bytes k = size) (a : Nat) : Outside a (d, 4)
      ∨ Outside a (P.addr (P.ring.slotOf k), size) ∧ Outside a (P.addr (P.ring.tailOf k), 8) := by
  have hcap : 0 < P.ring.capacity := Nat.lt_of_lt_of_le (Nat.zero_lt_of_lt hk) hfits.room
  have hbytes := hfits.bytes k hk
  rcases hfits.recs d hd _ (Ring.slotOf_lt (j := k) hcap) a with hout | hslot
  · exact .inl hout
  · refine (hfits.recs d hd _ (Ring.tailOf_lt (j := k) hcap) a).imp_right fun htail => ?_
    simp only [Outside] at hslot htail ⊢
    omega

/-- The next request of the list, up to the count in its batch: its WQE is that of the plan. -/
theorem sendList_posted {wr : SendWr} (hr : (sendList s x limit good).Roomy) (hfits : (sendPlan s x limit good).Fits good.length)
    (hwr : good[k]? = some wr) (hpass : s.sendPasses x wr) (ha : (sendList s x limit good).After s q k b r m l) :
    ∃ m' l', WqePosted m m' (x.slotAddr true (x.sq.slotOf k)) ((sendPlan s x limit good).bytes k)
        (x.slotAddr true (x.sq.tailOf k)) (s.recAddrs x.sqDbRec) ((sendPlan s x limit good).body k)
        ((sendPlan s x limit good).link k) ((sendPlan s x limit good).nds k) ((sendList s x limit good).recordAt (k + 1))
      ∧ Silent l l' ∧ ∀ wrs t, Runs (sendLoop q k (wr :: wrs)) ((sendList s x limit good).state s i h q b r m l) t ↔
        Runs (.act (dbFullAct (.sq q)) fun _ => sendLoop q (k + 1) wrs) ((sendList s x limit good).state s i h q
          (b.counted s.mode true (x.sq.slotOf k) wr.fence (wqeOpcode wr.opcode) (sendSize s.mode (x.setRing true r) wr) r.head
            (r.live + 1)) (r.queued s.mode wr.wrId (wqeOpcode wr.opcode)) m' l') t := by
  obtain ⟨hk, -⟩ := List.getElem?_eq_some_iff.mp hwr
  have hle : k ≤ (sendList s x limit good).wqes.length := hk.le.trans_eq (List.length_map ..).symm
  have hget : good.getD k {} = wr := getD_of_getElem? hwr
  obtain ⟨first, hsent⟩ := ha.sent_eq
  have hsize : sendSize s.mode (x.sent s.mode (good.take k)) wr = sendSize s.mode (x.setRing true r) wr := by rw [hsent]; rfl
  have hbytes : (sendPlan s x limit good).bytes k = 16 * sendSize s.mode (x.setRing true r) wr := by
    rw [← hsize, ← hget]
    rfl
  obtain ⟨-, hfit⟩ := hbytes ▸ hfits.bytes k hk
  have hslot : ∀ j, (x.setRing true r).slotAddr true j = x.slotAddr true j := Qp.setRing_slotAddr x true r ha.shift
  have hwoff : ∀ j, (x.setRing true r).woff true j = x.woff true j := Qp.setRing_woff x true r ha.shift
  have hdelims : b.delimits s.mode true = decide (s.mode = .memfree ∨ k % limit = 0) := ha.delimits
  have hpass' : (s.setQp q (x.setRing true r)).sendPasses (x.setRing true r) wr := by
    obtain ⟨hop, hsg, hinl⟩ := hpass
    exact ⟨hop, fun hin => (hsg hin).trans_eq ha.maxGs.symm, hinl⟩
  obtain ⟨m', l', hw, hsilent, hrun⟩ := runs_sendLoop_cons (s := s.setQp q (x.setRing true r)) (i := i) (h := h)
    (ls := [(.sq q, s.cur)]) (b := b) (l := l) (k := k) ha.done.wf (State.setQp_qp_self ..)
    (ha.hasRoom hr (hk.trans_eq (List.length_map ..).symm)) hpass' (ha.nextInd hr hle) (ha.lastIdx hr hle)
    (hfit.trans_eq (congrArg (2 ^ ·) ha.shift.symm)) fun d hd a => by
      rw [hslot, hslot]
      exact hfits.recs_slots hk hd hbytes a
  rw [hslot, hslot, hwoff] at hw
  refine ⟨m', l', ?_, hsilent, fun wrs t => (hrun wrs t).trans (iff_of_eq ?_)⟩
  · rw [← ha.record hle, hbytes]
    simp only [sendPlan, hget, hsize, ← hdelims]
    refine hw.imp_body fun bs hbs => ?_
    rw [hsent]
    exact sendBody.mono (x := x.setRing true r) hbs fun hd => hd.unwritten hfits hk.le ha.done
      (Ring.slotOf_lt (Nat.lt_of_lt_of_le (Nat.zero_lt_of_lt hk) hfits.room)) hfit
  · simp only [State.setQp_setQp, Qp.setRing_setRing]
    rfl

/-- The next request of the list is posted. -/
theorem sendList_step {wr : SendWr} {wrs : List SendWr} (hr : (sendList s x limit good).Roomy)
    (hlimit : s.batchLimit (.sq q) = limit) (hpos : 0 < limit) (hfits : (sendPlan s x limit good).Fits good.length)
    (hwr : good[k]? = some wr) (hpass : s.sendPasses x wr) (ha : (sendList s x limit good).After s q k b r m l) :
    ∃ b' r' m' l', (sendList s x limit good).After s q (k + 1) b' r' m' l'
      ∧ ∀ t, Runs (sendLoop q k (wr :: wrs)) ((sendList s x limit good).state s i h q b r m l) t
        ↔ Runs (sendLoop q (k + 1) wrs) ((sendList s x limit good).state s i h q b' r' m' l') t := by
  obtain ⟨hk, -⟩ := List.getElem?_eq_some_iff.mp hwr
  obtain ⟨m', l', hw, hsilent, hrun⟩ := sendList_posted hr hfits hwr hpass ha
  have hbell : b.cnt = 0 → ∀ c, batchBell s.mode x true { b.counted s.mode true (x.sq.slotOf k) wr.fence (wqeOpcode wr.opcode)
      (sendSize s.mode (x.setRing true r) wr) r.head (r.live + 1) with cnt := c } = (sendList s x limit good).bell k c := by
    intro hc c
    obtain ⟨first, hsent⟩ := ha.sent_eq
    have hind : (x.setRing true r).sq.nextInd = x.sq.slotOf k := ha.nextInd hr (hk.le.trans_eq (List.length_map ..).symm)
    have hfirst := batchBell_first_send (s := s) (x := x.setRing true r) hc wr (r.live + 1) c
    rw [hind] at hfirst
    refine (batchBell_setRing s.mode x true ha.shift _).symm.trans (hfirst.trans ?_)
    simp only [sendList, getD_of_getElem? hwr, hsent]
    rfl
  obtain ⟨b', r', l'', hafter, hnext⟩ := ha.next hlimit hpos (w := (wr.wrId, wqeOpcode wr.opcode)) (by simp [sendList, hwr])
    (ha.done.step hfits hk hw) hsilent fun _ => hbell
  exact ⟨b', r', m', l'', hafter, fun t => (hrun wrs t).trans (hnext _ t)⟩

end

end Sys2Proof.Machine
end

section
/-! SUPPORT. `POST_SEND` with a list of requests, from its start to its end (R230). -/

namespace Sys2Proof.Machine

open Sys2Proof

section

variable {s : State} {x : Qp} {limit q : Nat} {good left : List SendWr} {st : Status} {i : Instr} {h : Handle}

/-- The send ring of a QP between commands, with room for the requests that pass. -/
theorem sendList_roomy (hwf : x.sq.Wf) (hword : x.sq.capacity < 2 ^ 32)
    (hlast : x.sq.lastIdx = (x.sq.nextInd + x.sq.capacity - 1) % x.sq.capacity) (hroom : x.sq.count + good.length ≤ x.sq.capacity) :
    (sendList s x limit good).Roomy where
  wf := hwf
  word := hword
  last := hlast
  room := by rwa [show (sendList s x limit good).wqes.length = good.length from List.length_map ..]

theorem sendList_fits (hr : (sendList s x limit good).Roomy)
    (hsize : ∀ j wr, good[j]? = some wr → 16 * sendSize s.mode (x.sent s.mode (good.take j)) wr ≤ 2 ^ x.sq.shift)
    (hrecs : ∀ d ∈ s.recAddrs x.sqDbRec, ∀ b, Outside b (d, 4) ∨ Outside b x.buffer) :
    (sendPlan s x limit good).Fits good.length := by
  have hlen : (sendList s x limit good).wqes.length = good.length := List.length_map ..
  rw [← hlen]
  refine hr.fits rfl rfl (fun j hj => ⟨?_, ?_⟩) fun d hd j hj b => (hrecs d hd b).imp_right (outside_sendSlot hj)
  · have hbytes := sendSize_bytes s.mode (x.sent s.mode (good.take j)) (good.getD j {})
    show 8 ≤ 16 * sendSize s.mode (x.sent s.mode (good.take j)) (good.getD j {})
    split_ifs at hbytes <;> omega
  · refine hsize j (good.getD j {}) ?_
    rw [List.getD_eq_getElem _ _ (hlen ▸ hj), List.getElem?_eq_getElem]

/-- How the list ends: with none left, at a full ring, or at a request that fails a check. -/
theorem sendList_ends (hr : (sendList s x limit good).Roomy) (hends : s.sendEnds x good.length left st) :
    (sendList s x limit good).EndsWith s i h q good.length (sendLoop q good.length left) st := by
  have hlen : (sendList s x limit good).wqes.length = good.length := List.length_map ..
  cases left with
  | nil => exact .inl ⟨hends, rfl⟩
  | cons wr wrs =>
    refine .inr fun b r m l ha t => ?_
    have hcount := ha.count hr hlen.ge
    have hcap := ha.capacity
    obtain ⟨hfull, rfl, c, hc⟩ | ⟨hroom, hf⟩ := hends
    · rw [sendLoop]
      refine runs_overflow_posting (isSend := true) (x := x.setRing true r) (State.setQp_qp_self ..) ?_ hc
        (by rintro y (⟨k, i, rfl⟩ | rfl) <;> exact nofun)
      show r.capacity ≤ r.count
      rw [hcount, hcap]
      exact hfull.ge
    · refine runs_sendLoop_fails (x := x.setRing true r) (State.setQp_qp_self ..) ?_ ?_
      · show r.count < r.capacity
        rw [hcount, hcap]
        exact hroom
      · obtain hop | ⟨hop, hin, hsg, hst⟩ | hlong := hf
        · exact .inl hop
        · exact .inr (.inl ⟨hop, hin, ha.maxGs.trans_lt hsg, hst⟩)
        · exact .inr (.inr hlong)

end

/-- Settles O37: the requests that pass are posted one by one (`sendList_step`), the post ends at the next (`sendList_ends`); what the
memory holds is read off the plan of their WQEs. -/
theorem postSendList : Obligations.PostSendList := by
  intro s op q cap N x good left st hs hop hlist hn hx hok hwf hcap hword hlast hroom hgood hends hlimit hpos hm hrecs
  subst hop hcap
  have hroomy : (sendList s x N good).Roomy := sendList_roomy hwf hword hlast hroom
  have hfits := sendList_fits hroomy (fun j wr hj => (hgood j wr hj).2) (State.forall_recAddrs.mpr hrecs)
  obtain ⟨m, l, hdone, hbells, hrun⟩ := PostList.runs_all (L := sendList s x N good) (i := .postSend) (h := s.me.op.qp) (q := q)
    (prog := fun k => sendLoop q k (good.drop k ++ left)) hs.1.2.2 hm hx hpos (List.length_map ..)
    (fun k b r m l hk ha => by
      rw [List.drop_eq_getElem_cons hk]
      exact sendList_step hroomy hlimit hpos hfits (List.getElem?_eq_getElem hk) (hgood k _ (List.getElem?_eq_getElem hk)).1 ha)
    (by rw [List.drop_length, List.nil_append]; exact sendList_ends hroomy hends)
  have hend := (runs_postSend_start (i := .postSend) hs hn hx hok).mpr (hlist ▸ hrun)
  have hlt : ∀ {j wr}, good[j]? = some wr → j < good.length := fun hj => (List.getElem?_eq_some_iff.mp hj).1
  refine ⟨_, hs.runCmd hend, ?_⟩
  refine ⟨fun j wr hj hopen => ?_, fun j wr hj hin => ?_, fun j wr fs hj hin hfs hclear => ?_, hbells.trans ?_, fun hne r hr => ?_,
    fun b hb hbr => ?_, rfl, rfl⟩
  · have hlinks := hdone.links j (hlt hj) hopen
    simp only [sendList, sendPlan, getD_of_getElem? hj] at hlinks
    exact hlinks
  · obtain ⟨bs, -, hbody, hread⟩ := hdone.body j (hlt hj)
    simp only [sendList, sendPlan, getD_of_getElem? hj] at hbody hread
    obtain ⟨hlen, hbs⟩ := sendBody_plain hbody hin
    rw [hlen] at hread
    exact hread.trans hbs
  · subst hfs
    obtain ⟨bs, -, hbody, hread⟩ := hdone.body j (hlt hj)
    simp only [sendList, sendPlan, getD_of_getElem? hj] at hbody hread
    obtain ⟨hlen, hbs⟩ := sendBody_inline hbody hin ⟨fun e he k hk => (hclear e he k hk).1, State.forall_recAddrs.mpr
      fun r hr e he k hk => (hclear e he k hk).2 r hr⟩
    rw [hlen] at hread
    exact hread.trans hbs
  · rw [PostList.rungBells, show (sendList s x N good).isSend = true from rfl, if_pos (ringsBell_send _), sendBells, List.map_map]
    rfl
  · exact hdone.record (List.length_pos_of_ne_nil hne) _ (State.mem_recAddrs hr)
  · refine hdone.frame b (fun j hj => ?_) (State.forall_recAddrs.mpr hbr)
    have hout := hb j _ (List.getElem?_eq_getElem hj)
    simp only [sendList, sendPlan, getD_of_getElem? (List.getElem?_eq_getElem hj)]
    exact hout

end Sys2Proof.Machine
end

section
/-! SUPPORT. `POST_RECV`: one request, and a list of them (R217, R219, R222, R232, R253, R255). -/

namespace Sys2Proof.Machine

open Sys2Proof

/-! ### One request -/

section

variable {s : State} {i : Instr} {h : Handle} {q : Nat} {x : Qp} {ind prev : Nat}

theorem Silent.commandEnd (l : List BusEvent) (c : Nat) : Silent l (.commandEnd c :: l) := .cons nofun

/-- In `LEGACY` the one request is rung for (R253). -/
theorem afterBell_recv_legacy (hmode : s.mode = .legacy) (ind size n : Nat) (w : BitVec 6) (o : Option RingRef) (l : List BusEvent) :
    s.afterBell x false (Batch.counted { ring := o } s.mode false ind false w size 0 n) l
      = .mmio s.cur s.cfg.recvDbOff
          (doorbellWords (.dbLegacyRecv (BitVec.ofNat 26 (x.woff false ind / 64)) (BitVec.ofNat 6 size) x.qpn 1)).1
          (doorbellWords (.dbLegacyRecv (BitVec.ofNat 26 (x.woff false ind / 64)) (BitVec.ofNat 6 size) x.qpn 1)).2
        :: .wmb s.cur :: l := by
  have hbell := batchBell_first_recv (x := x) (b := { ring := o }) hmode rfl ind size n 1 w 0
  have hone : { Batch.counted { ring := o } s.mode false ind false w size 0 n with cnt := 1 }
      = Batch.counted { ring := o } s.mode false ind false w size 0 n := by
    rw [hmode]
    rfl
  rw [hone] at hbell
  rw [State.afterBell, hbell, if_neg (by rw [hmode]; exact one_ne_zero)]
  rfl

/-- In `MEMFREE` no doorbell is rung (R255). -/
theorem afterBell_recv_memfree (hmode : s.mode = .memfree) (ind size n : Nat) (w : BitVec 6) (o : Option RingRef)
    (l : List BusEvent) : s.afterBell x false (Batch.counted { ring := o } s.mode false ind false w size 0 n) l = l := by
  rw [hmode]
  rfl

/-- A post of one receive request, from the hold of its ring's lock to its end. -/
theorem runs_recvLoop_one {wr : RecvWr} {size : Nat} (hu : s.unlocked) (hm : Memory.wf s.mem = true) (hx : s.qp? q = some x)
    (hroom : x.rq.count < x.rq.capacity) (hsg : wr.sg.length ≤ x.rq.maxGs) (hind : x.rq.nextInd = ind) (hprev : x.rq.lastIdx = prev)
    (hsize : recvSize s.mode wr.sg.length x.rq.maxGs = size) (hfits : 16 * size ≤ 2 ^ x.rq.shift)
    (hrecs : ∀ d ∈ s.recAddrs x.rqDbRec, ∀ b, Outside b (d, 4)
      ∨ Outside b (x.slotAddr false ind, 16 * size) ∧ Outside b (x.slotAddr false prev, 8)) :
    ∃ m l, WqePosted s.mem m (x.slotAddr false ind) (16 * size) (x.slotAddr false prev) (s.recAddrs x.rqDbRec)
        (recvBody s.mode x.rq.maxGs wr) (linkWord (BitVec.ofNat 26 (x.woff false ind / 64)) recvLinkOpcode) (eeNds true false size)
        ((x.rq.head + 1).toNat % 65536)
      ∧ Silent s.bus l
      ∧ Runs (recvLoop q 0 [wr]) (s.posting i h [(.rq q, s.cur)] { ring := some (.rq q) } s.mem s.bus)
        ((s.setQp q (x.setRing false (x.rq.posted s.mode wr.wrId recvLinkOpcode))).postEnded m
          (s.afterBell x false (Batch.counted { ring := some (.rq q) } s.mode false ind false recvLinkOpcode size 0 (x.rq.live + 1)) l)
          .ok 1) := by
  subst hsize
  obtain ⟨m, l, hw, hsilent, hrun⟩ := runs_recvLoop_cons (k := 0) (i := i) (h := h) (ls := [(.rq q, s.cur)])
    (b := { ring := some (.rq q) }) (l := s.bus) hm hx hroom hsg hind hprev hfits hrecs
  refine ⟨m, l, hw, hsilent, (hrun [] _).mpr ?_⟩
  have howes := (Batch.Owes.of_empty (b := { ring := some (.rq q) }) (mode := s.mode) (r := x.rq) rfl).counted false ind false
    recvLinkOpcode (recvSize s.mode wr.sg.length x.rq.maxGs) 0 wr.wrId recvLinkOpcode
  have hring : (Batch.counted { ring := some (.rq q) } s.mode false ind false recvLinkOpcode
      (recvSize s.mode wr.sg.length x.rq.maxGs) 0 (x.rq.live + 1)).ring = some (qpRing q false) := Batch.counted_ring ..
  refine (runs_dbFull_dbEnd (isSend := false) (State.setQp_qp_self ..) hring).mpr ?_
  obtain ⟨b', hend⟩ := dbEndAct_owes (i := i) (h := h) (m := m) (l := l) (x := x) (q := q) (isSend := false)
    (Ring.queued_shift ..) hring howes
  exact (runs_postEnd (st := .ok) hend hu rfl).1.mpr rfl

end

/-! ### A list of requests -/

section

variable (s : State) (x : Qp) (limit : Nat) (good : List RecvWr)

/-- What the WQEs of a list of receive requests are. -/
def recvPlan : PostPlan where
  ring := x.rq
  addr := x.slotAddr false
  recs := s.recAddrs x.rqDbRec
  bytes j := 16 * recvSize s.mode (good.getD j {}).sg.length x.rq.maxGs
  body j := recvBody s.mode x.rq.maxGs (good.getD j {})
  link j := linkWord (BitVec.ofNat 26 (x.woff false (x.rq.slotOf j) / 64)) recvLinkOpcode
  nds j := eeNds true false (recvSize s.mode (good.getD j {}).sg.length x.rq.maxGs)

/-- A list of receive requests on a QP. -/
def recvList : PostList where
  qp := x
  isSend := false
  plan := recvPlan s x good
  wqes := good.map fun wr => (wr.wrId, recvLinkOpcode)
  limit := limit
  bell j c := .dbLegacyRecv (BitVec.ofNat 26 (x.woff false (x.rq.slotOf j) / 64))
    (BitVec.ofNat 6 (recvSize s.mode (good.getD j {}).sg.length x.rq.maxGs)) x.qpn (BitVec.ofNat 8 c)

end

section

variable {s : State} {x : Qp} {limit q k : Nat} {good left : List RecvWr} {st : Status} {i : Instr} {h : Handle} {b : Batch} {r : Ring}
  {m : List Host.Cell} {l : List BusEvent}

/-- The receive ring of a QP between commands, with room for the requests that pass. -/
theorem recvList_roomy (hwf : x.rq.Wf) (hword : x.rq.capacity < 2 ^ 32)
    (hlast : x.rq.lastIdx = (x.rq.nextInd + x.rq.capacity - 1) % x.rq.capacity) (hroom : x.rq.count + good.length ≤ x.rq.capacity) :
    (recvList s x limit good).Roomy where
  wf := hwf
  word := hword
  last := hlast
  room := by rwa [show (recvList s x limit good).wqes.length = good.length from List.length_map ..]

/-- A slot of the receive ring lies in the ring. -/
theorem outside_recvSlot {a j : Nat} (hj : j < x.rq.capacity) (ha : Outside a (x.bufBase.toNat, x.rq.capacity * 2 ^ x.rq.shift)) :
    Outside a (x.slotAddr false j, 2 ^ x.rq.shift) := by
  have hmul : (j + 1) * 2 ^ x.rq.shift ≤ x.rq.capacity * 2 ^ x.rq.shift := Nat.mul_le_mul_right _ hj
  rw [Nat.succ_mul] at hmul
  simp only [Outside, Qp.slotAddr, Qp.woff, Nat.shiftLeft_eq, Bool.false_eq_true, if_false] at ha ⊢
  omega

theorem recvList_fits (hr : (recvList s x limit good).Roomy)
    (hsize : ∀ wr ∈ good, 16 * recvSize s.mode wr.sg.length x.rq.maxGs ≤ 2 ^ x.rq.shift)
    (hrecs : ∀ d ∈ s.recAddrs x.rqDbRec, ∀ b, Outside b (d, 4) ∨ Outside b (x.bufBase.toNat, x.rq.capacity * 2 ^ x.rq.shift)) :
    (recvPlan s x good).Fits good.length := by
  have hlen : (recvList s x limit good).wqes.length = good.length := List.length_map ..
  rw [← hlen]
  refine hr.fits rfl rfl (fun j hj => ⟨?_, ?_⟩) fun d hd j hj b => (hrecs d hd b).imp_right (outside_recvSlot hj)
  · show 8 ≤ 16 * recvSize s.mode (good.getD j {}).sg.length x.rq.maxGs
    rw [recvSize, Nat.add_assoc]
    omega
  · refine hsize (good.getD j {}) ?_
    rw [List.getD_eq_getElem _ _ (hlen ▸ hj)]
    exact List.getElem_mem ..

/-- The next request of the list is posted. -/
theorem recvList_step {wr : RecvWr} {wrs : List RecvWr} (hr : (recvList s x limit good).Roomy)
    (hlimit : s.batchLimit (.rq q) = limit) (hpos : 0 < limit) (hfits : (recvPlan s x good).Fits good.length)
    (hwr : good[k]? = some wr) (hsg : wr.sg.length ≤ x.rq.maxGs) (ha : (recvList s x limit good).After s q k b r m l) :
    ∃ b' r' m' l', (recvList s x limit good).After s q (k + 1) b' r' m' l'
      ∧ ∀ t, Runs (recvLoop q k (wr :: wrs)) ((recvList s x limit good).state s i h q b r m l) t
        ↔ Runs (recvLoop q (k + 1) wrs) ((recvList s x limit good).state s i h q b' r' m' l') t := by
  obtain ⟨hk, -⟩ := List.getElem?_eq_some_iff.mp hwr
  have hlen : (recvList s x limit good).wqes.length = good.length := List.length_map ..
  have hget : good.getD k {} = wr := getD_of_getElem? hwr
  have hmaxGs : (x.setRing false r).rq.maxGs = x.rq.maxGs := ha.maxGs
  have hbytes : (recvPlan s x good).bytes k = 16 * recvSize s.mode wr.sg.length x.rq.maxGs := by
    rw [← hget]
    rfl
  obtain ⟨-, hfit⟩ := hbytes ▸ hfits.bytes k hk
  have hslot : ∀ j, (x.setRing false r).slotAddr false j = x.slotAddr false j := Qp.setRing_slotAddr x false r ha.shift
  have hwoff : ∀ j, (x.setRing false r).woff false j = x.woff false j := Qp.setRing_woff x false r ha.shift
  obtain ⟨m', l', hw, hsilent, hrun⟩ := runs_recvLoop_cons (s := s.setQp q (x.setRing false r)) (x := x.setRing false r) (wr := wr)
    (i := i) (h := h) (ls := [(.rq q, s.cur)]) (b := b) (l := l) (k := k) ha.done.wf (State.setQp_qp_self ..)
    (ha.hasRoom hr (hlen ▸ hk)) (hsg.trans_eq hmaxGs.symm) (ha.nextInd hr (hlen ▸ hk.le)) (ha.lastIdx hr (hlen ▸ hk.le))
    (by rw [hmaxGs]; exact hfit.trans_eq (congrArg (2 ^ ·) ha.shift.symm)) fun d hd a => by
      rw [hslot, hslot, hmaxGs]
      exact hfits.recs_slots hk hd hbytes a
  rw [hslot, hslot, hwoff, hmaxGs] at hw
  have hplan : WqePosted m m' ((recvPlan s x good).addr (x.rq.slotOf k)) ((recvPlan s x good).bytes k)
      ((recvPlan s x good).addr (x.rq.tailOf k)) (recvPlan s x good).recs ((recvPlan s x good).body k)
      ((recvPlan s x good).link k) ((recvPlan s x good).nds k) ((recvList s x limit good).recordAt (k + 1)) := by
    rw [← ha.record (hlen ▸ hk.le), hbytes]
    simp only [recvPlan, hget]
    exact hw
  have hbell : ringsBell s.mode false = true → b.cnt = 0 → ∀ c, batchBell s.mode x false { b.counted s.mode false (x.rq.slotOf k) false
      recvLinkOpcode (recvSize s.mode wr.sg.length x.rq.maxGs) 0 (r.live + 1) with cnt := c }
      = (recvList s x limit good).bell k c := by
    intro hrings hc c
    simp only [recvList, hget]
    exact batchBell_first_recv (ringsBell_recv_iff.mp hrings) hc ..
  obtain ⟨b', r', l'', hafter, hnext⟩ := ha.next (i := i) (h := h) hlimit hpos (w := (wr.wrId, recvLinkOpcode))
    (by simp [recvList, hwr]) (ha.done.step hfits hk hplan) hsilent hbell
  refine ⟨b', r', m', l'', hafter, fun t => (hrun wrs t).trans ((iff_of_eq ?_).trans (hnext _ t))⟩
  simp only [State.setQp_setQp, Qp.setRing_setRing, hmaxGs]
  rfl

/-- The doorbells of the batches of the list. -/
theorem recvList_bells : (recvList s x limit good).rungBells s (batches limit good.length)
    = ((recvBells s.mode x limit good).map (s.bell .recv)).reverse := by
  unfold recvBells
  rw [PostList.rungBells]
  cases hmode : s.mode with
  | memfree => rfl
  | legacy =>
    rw [List.map_map, ← hmode, if_pos (by rw [hmode]; rfl)]
    rfl

/-- How the list ends: with none left, at a full ring, or at a request with too many entries. -/
theorem recvList_ends (hr : (recvList s x limit good).Roomy) (hends : s.recvEnds x good.length left st) :
    (recvList s x limit good).EndsWith s i h q good.length (recvLoop q good.length left) st := by
  have hlen : (recvList s x limit good).wqes.length = good.length := List.length_map ..
  cases left with
  | nil => exact .inl ⟨hends, rfl⟩
  | cons wr wrs =>
    refine .inr fun b r m l ha t => ?_
    have hcount := ha.count hr hlen.ge
    have hcap := ha.capacity
    obtain ⟨hfull, rfl, c, hc⟩ | ⟨hroom, hsg, rfl⟩ := hends
    · rw [recvLoop]
      refine runs_overflow_posting (isSend := false) (x := x.setRing false r) (State.setQp_qp_self ..) ?_ hc
        (by rintro y (⟨k, i, rfl⟩ | rfl) <;> exact nofun)
      show r.capacity ≤ r.count
      rw [hcount, hcap]
      exact hfull.ge
    · refine runs_recvLoop_fails (x := x.setRing false r) (State.setQp_qp_self ..) ?_ (ha.maxGs.trans_lt hsg)
      show r.count < r.capacity
      rw [hcount, hcap]
      exact hroom

end

/-- Settles O38: of one request `runs_recvLoop_one` says what the post writes and rings; of a list, as for sends. -/
theorem postRecvOne : Obligations.PostRecvOne := by
  refine ⟨?_, ?_⟩
  · intro s op wr q x ind prev a p size hs hop hlist hn hx hok hroom hsg hind hprev ha hp hsize hfits hm hrecs
    subst hop ha hp
    obtain ⟨m, l, hw, hsilent, hrun⟩ := runs_recvLoop_one (i := .postRecv) (h := s.me.op.qp) hs.1.2.2 hm hx hroom hsg hind hprev hsize
      hfits (State.forall_recAddrs.mpr hrecs)
    have hend := (runs_postRecv_start (i := .postRecv) hs hn hx hok).mpr (hlist ▸ hrun)
    refine ⟨_, hs.runCmd hend, ?_⟩
    subst hsize hind hprev
    refine ⟨fun hne => hw.header fun heq => ?_, hw.read fun bs hbs => ⟨recvBody_length hbs, hbs⟩,
      hw.link.trans (linkRecv_toNat _), hw.nds, fun r hr => hw.record _ (State.mem_recAddrs hr),
      fun b hb hb' hbr => hw.frame b hb hb' (State.forall_recAddrs.mpr hbr), fun hmode => ⟨l, ?_⟩, fun hmode => ?_, rfl, rfl⟩
    · have hapart := x.slotAddr_apart false hne
      have := Nat.two_pow_pos (x.ring false).shift
      omega
    · exact congrArg (BusEvent.commandEnd s.cur :: ·) (afterBell_recv_legacy hmode ..)
    · obtain ⟨e, hl, he⟩ := hsilent.trans (Silent.commandEnd l s.cur)
      refine ⟨e, ?_, fun off w0 w1 => he s.cur off w0 w1⟩
      rw [← hl]
      exact congrArg (BusEvent.commandEnd s.cur :: ·) (afterBell_recv_memfree hmode ..)
  · intro s op q cap N x good left st hs hop hlist hn hx hok hwf hcap hword hlast hroom hgood hends hlimit hpos hm hrecs
    subst hop hcap
    have hroomy : (recvList s x N good).Roomy := recvList_roomy hwf hword hlast hroom
    have hfits := recvList_fits hroomy (fun wr hwr => (hgood wr hwr).2) (State.forall_recAddrs.mpr hrecs)
    obtain ⟨m, l, hdone, hbells, hrun⟩ := PostList.runs_all (L := recvList s x N good) (i := .postRecv) (h := s.me.op.qp) (q := q)
      (prog := fun k => recvLoop q k (good.drop k ++ left)) hs.1.2.2 hm hx hpos (List.length_map ..)
      (fun k b r m l hk ha => by
        rw [List.drop_eq_getElem_cons hk]
        exact recvList_step hroomy hlimit hpos hfits (List.getElem?_eq_getElem hk) (hgood _ (List.getElem_mem hk)).1 ha)
      (by rw [List.drop_length, List.nil_append]; exact recvList_ends hroomy hends)
    have hend := (runs_postRecv_start (i := .postRecv) hs hn hx hok).mpr (hlist ▸ hrun)
    have hlt : ∀ {j wr}, good[j]? = some wr → j < good.length := fun hj => (List.getElem?_eq_some_iff.mp hj).1
    refine ⟨_, hs.runCmd hend, ?_⟩
    refine ⟨fun j wr hj hopen => ?_, fun j wr hj => ?_, hbells.trans (congrArg (· ++ s.doorbells) recvList_bells),
      fun hne r hr => ?_, fun b hb hbr => ?_, rfl, rfl⟩
    · have hlinks := hdone.links j (hlt hj) hopen
      simp only [recvList, recvPlan, getD_of_getElem? hj, linkRecv_toNat] at hlinks
      exact hlinks
    · obtain ⟨bs, -, hbody, hread⟩ := hdone.body j (hlt hj)
      simp only [recvList, recvPlan, getD_of_getElem? hj] at hbody hread
      rw [recvBody_length hbody] at hread
      exact hread.trans hbody
    · exact hdone.record (List.length_pos_of_ne_nil hne) _ (State.mem_recAddrs hr)
    · refine hdone.frame b (fun j hj => ?_) (State.forall_recAddrs.mpr hbr)
      have hout := hb j _ (List.getElem?_eq_getElem hj)
      simp only [recvList, recvPlan, getD_of_getElem? (List.getElem?_eq_getElem hj)]
      exact hout

end Sys2Proof.Machine
end

section
/-! SUPPORT. `REQ_NOTIFY_CQ` (R262): the fields of an arm as numbers (R128 to R130), the two words of an 8-byte write, the arm under
the lock of its CQ. -/

namespace Sys2Proof.Machine

open Sys2Proof

/-! ### Fields and words as numbers -/

/-- Two fields side by side, as a sum. -/
theorem toNat_append_eq_add {m n : Nat} (x : BitVec m) (y : BitVec n) : (x ++ y).toNat = x.toNat * 2 ^ n + y.toNat := by
  rw [BitVec.toNat_append, ← Nat.shiftLeft_add_eq_or_of_lt y.isLt, Nat.shiftLeft_eq]

/-- The bytes of a number, cut in two. -/
theorem beBytes_add (m n v : Nat) : beBytes (m + n) v = beBytes m (v / 256 ^ n) ++ beBytes n v := by
  induction m with
  | zero => rw [Nat.zero_add]; rfl
  | succ m ih =>
    rw [Nat.succ_add, beBytes, beBytes, ih, Nat.div_div_eq_div_mul, ← Nat.pow_add, Nat.add_comm n m]
    rfl

/-- The two words of an 8-byte write. -/
theorem memRead_memWrite_words {s : State} (hm : Memory.wf s.mem = true) (a v : Nat) :
    (s.memWrite a 8 v).memRead a 4 = v / 2 ^ 32 % 2 ^ 32 ∧ (s.memWrite a 8 v).memRead (a + 4) 4 = v % 2 ^ 32 := by
  have hread := memGetBytes_memPutBytes s.mem a (beBytes 8 v) hm
  rw [beBytes_length, show (8 : Nat) = 4 + 4 from rfl, memGetBytes_add, beBytes_add] at hread
  obtain ⟨hfirst, hsecond⟩ := List.append_inj hread (by simp)
  rw [← beBytes_add] at hfirst hsecond
  exact ⟨(congrArg beNat hfirst).trans (beNat_beBytes ..), (congrArg beNat hsecond).trans (beNat_beBytes ..)⟩

/-! ### The arm of a CQ (R128 to R130, R262) -/

theorem armRecord_toNat (ci : Word) (cqn : Num24) (sn : BitVec 2) (sol : Bool) :
    (armRecord ci cqn sn sol).toNat
      = ci.toNat * 2 ^ 32 + (cqn.toNat * 256 + 2 * 32 + sn.toNat * 8 + if sol then 1 else 2) := by
  have hcmd : (if sol then 1#3 else 2#3).toNat = if sol then 1 else 2 := by cases sol <;> rfl
  rw [armRecord]
  simp only [toNat_append_eq_add, hcmd, BitVec.ofNat_eq_ofNat, BitVec.toNat_ofNat]
  omega

theorem legacyArm_words (sol : Bool) (cqn : Num24) : doorbellWords (.dbLegacyCqArm sol cqn)
    = (BitVec.ofNat 32 ((if sol then 3 else 2) * 2 ^ 24 + cqn.toNat), 0xFFFFFFFF) := by
  have hcmd : (if sol then 3#8 else 2#8).toNat = if sol then 3 else 2 := by cases sol <;> rfl
  refine Prod.ext (eq_ofNat_of_toNat_eq ?_) rfl
  simp only [doorbellWords, toNat_append_eq_add, hcmd, BitVec.ofNat_eq_ofNat]

theorem memfreeArm_words (sn : BitVec 2) (sol : Bool) (cqn : Num24) (ci : Word) : doorbellWords (.dbMemfreeCqArm sn sol cqn ci)
    = (BitVec.ofNat 32 (sn.toNat * 2 ^ 28 + (if sol then 1 else 2) * 2 ^ 24 + cqn.toNat), ci) := by
  have hcmd : (if sol then 1#4 else 2#4).toNat = if sol then 1 else 2 := by cases sol <;> rfl
  refine Prod.ext (eq_ofNat_of_toNat_eq ?_) rfl
  simp only [doorbellWords, toNat_append_eq_add, hcmd, BitVec.ofNat_eq_ofNat, BitVec.toNat_ofNat]
  omega

/-! ### `REQ_NOTIFY_CQ` (R262) -/

theorem State.quietStart.locks {s : State} (h : s.quietStart) : s.locks = [] := by
  obtain ⟨⟨-, -, hu⟩, -⟩ := h
  exact hu

/-- A command that holds one lock releases it and responds. -/
theorem runs_holding_end {s t : State} {i : Instr} {h : Handle} {x : Lock} {st : Status} (hl : s.locks = []) :
    Runs (release x <| respond st none) (s.holding i h x) t ↔ t = s.ended { status := some st } := by
  rw [runs_release_newest (l := []) rfl rfl, runs_respond]
  refine iff_of_eq (congrArg (t = ·) ?_)
  ext1 <;> simp [State.holding, State.ended, hl]

section

variable (s : State) (i j : Instr) (h : Handle) (x : Lock)

@[simp] theorem State.holding_mode : (s.holding i h x).mode = s.mode := rfl
@[simp] theorem State.holding_cqOf (c : Nat) : (s.holding i h x).cq? c = s.cq? c := rfl
@[simp] theorem State.holding_recAddr (r : Nat) : (s.holding i h x).recAddr r = s.recAddr r := rfl
@[simp] theorem State.holding_wmb : (s.holding i h x).wmb = s.wmb.holding i h x := rfl
@[simp] theorem State.holding_memWrite (a n v : Nat) : (s.holding i h x).memWrite a n v = (s.memWrite a n v).holding i h x := rfl
@[simp] theorem State.holding_ring (reg : DbReg) : (s.holding i h x).ring reg j = (s.ring reg j).holding i h x := rfl
@[simp] theorem State.holding_setCq (c : Nat) (y : Cq) : (s.holding i h x).setCq c y = (s.setCq c y).holding i h x := rfl

end

/-- A command on a live object up to the hold of that object's lock. -/
theorem runs_objLocked {s t : State} {kind : Kind} {o : Nat} {h : Handle} (hs : s.quietStart) (hn : s.names kind h o)
    (lock : Nat → Lock) (k : Nat → Prog) (b : Bool) (bad : Option Nat) (fail : Prog) (i : Instr) :
    Runs (precond b bad <| resolve kind h true fail fun o => acquire (lock o) <| k o) (s.beginCmd i) t ↔
      Runs (k o) (s.holding i h (lock o)) t := by
  obtain ⟨⟨-, -, hu⟩, hstarted, hfatal⟩ := hs
  have hfree : ((s.beginCmd i).noteUse true h).holder (lock o) = none := hu.holder _
  rw [runs_precond (by simpa) (by simp [hfatal]),
    runs_resolve_found (by simpa using hn.1) hn.2 (by simp) ((hu.begin _).holder _), runs_acquire, noteUse_locked hu]
  simp only [hfree, true_and]
  rfl

/-- The arm of a CQ whose lock is held. -/
def armOn (sol : Bool) (c : Nat) : Prog :=
  ask (fun s => if s.mode = .memfree then 1 else 0) fun mf =>
  if mf = 0 then .act (legacyArmAct c sol) fun _ => release (.cq c) <| respond .ok none
  else
    .act (armSnAct c) fun sn => .act (consIndexAct c) fun ci =>
    .act (armRecordAct c sol sn ci) fun _ => .act (memfreeArmAct c sol sn ci) fun _ =>
    release (.cq c) <| respond .ok none

theorem reqNotifyCqProg_eq (sol : Bool) (op : Operands) : reqNotifyCqProg sol op
    = (precond true none <| resolve .cq op.cq true (raise .invalidHandle) fun c => acquire (.cq c) <| armOn sol c) := rfl

/-- `REQ_NOTIFY_CQ` of a live CQ is its arm under the CQ's lock. -/
theorem exec_reqNotifyCq {s t : State} {sol : Bool} {c : Nat} (hs : s.quietStart) (hn : s.names .cq s.me.op.cq c)
    (harm : Runs (armOn sol c) (s.holding (.reqNotifyCq sol) s.me.op.cq (.cq c)) t) :
    exec (.reqNotifyCq sol) s = .next t := by
  refine hs.runCmd ?_
  rw [reqNotifyCqProg_eq]
  exact (runs_objLocked hs hn .cq (armOn sol) ..).mpr harm

section

variable {s : State} {c : Nat} {y : Cq} {i : Instr} {h : Handle}

theorem legacyArmAct_holding (hy : s.cq? c = some y) (sol : Bool) : legacyArmAct c sol (s.holding i h (.cq c))
    = .ok 0 (((s.ring .cq (.dbLegacyCqArm sol y.cqn)).setCq c (y.issueArm sol none)).holding i h (.cq c)) := by
  rw [legacyArmAct, withCq_eq (x := y) (by simpa using hy)]
  simp only [State.holding_ring, State.holding_setCq]

theorem armSnAct_holding (hy : s.cq? c = some y) :
    armSnAct c (s.holding i h (.cq c)) = .ok (y.armSn.toNat % 4) (s.holding i h (.cq c)) := by
  rw [armSnAct, withCq_eq (x := y) (by simpa using hy)]

theorem consIndexAct_holding (hy : s.cq? c = some y) :
    consIndexAct c (s.holding i h (.cq c)) = .ok y.consIndex.toNat (s.holding i h (.cq c)) := by
  rw [consIndexAct, withCq_eq (x := y) (by simpa using hy)]

theorem armRecordAct_holding (hy : s.cq? c = some y) {r : Nat} (hr : y.armRec = some r) (sol : Bool) (sn : Nat) (ci : Word) :
    armRecordAct c sol sn ci.toNat (s.holding i h (.cq c)) = .ok 0
      ((s.wmb.memWrite (s.recAddr r) 8 (armRecord ci y.cqn (BitVec.ofNat 2 sn) sol).toNat).holding i h (.cq c)) := by
  rw [armRecordAct, withCq_eq (x := y) (by simpa using hy)]
  simp only [hr, BitVec.ofNat_toNat, BitVec.setWidth_eq, State.holding_wmb, State.holding_recAddr, State.holding_memWrite]

theorem memfreeArmAct_holding (hy : s.cq? c = some y) (sol : Bool) (sn : Nat) (ci : Word) :
    memfreeArmAct c sol sn ci.toNat (s.holding i h (.cq c)) = .ok 0
      (((s.ring .cq (.dbMemfreeCqArm (BitVec.ofNat 2 sn) sol y.cqn ci)).setCq c
        (y.issueArm sol (some (BitVec.ofNat 2 sn)))).holding i h (.cq c)) := by
  rw [memfreeArmAct, withCq_eq (x := y) (by simpa using hy)]
  simp only [BitVec.ofNat_toNat, BitVec.setWidth_eq, State.holding_ring, State.holding_setCq]

end

/-- The arm in `LEGACY`: one doorbell. -/
theorem exec_reqNotifyCq_legacy {s : State} {sol : Bool} {c : Nat} {y : Cq} (hs : s.quietStart)
    (hn : s.names .cq s.me.op.cq c) (hy : s.cq? c = some y) (hm : s.mode = .legacy) :
    exec (.reqNotifyCq sol) s = .next (((s.ring .cq (.dbLegacyCqArm sol y.cqn)).setCq c (y.issueArm sol none)).ended
      { status := some .ok }) := by
  refine exec_reqNotifyCq hs hn ?_
  unfold armOn
  rw [runs_ask]
  simp only [State.holding_mode, hm, reduceCtorEq, if_false, if_true]
  rw [runs_act_ok (legacyArmAct_holding hy sol)]
  exact (runs_holding_end (by simpa using hs.locks)).mpr rfl

/-- The arm in `MEMFREE`: the arm record, then the doorbell, both with the low bits of the sequence number. -/
theorem exec_reqNotifyCq_memfree {s : State} {sol : Bool} {c r : Nat} {y : Cq} (hs : s.quietStart)
    (hn : s.names .cq s.me.op.cq c) (hy : s.cq? c = some y) (hm : s.mode = .memfree) (hr : y.armRec = some r) {sn : BitVec 2}
    (hsn : BitVec.ofNat 2 (y.armSn.toNat % 4) = sn) :
    exec (.reqNotifyCq sol) s = .next
      ((((s.wmb.memWrite (s.recAddr r) 8 (armRecord y.consIndex y.cqn sn sol).toNat).ring .cq
        (.dbMemfreeCqArm sn sol y.cqn y.consIndex)).setCq c (y.issueArm sol (some sn))).ended { status := some .ok }) := by
  refine exec_reqNotifyCq hs hn ?_
  unfold armOn
  rw [runs_ask]
  simp only [State.holding_mode, hm, if_true, Nat.one_ne_zero, if_false]
  rw [runs_act_ok (armSnAct_holding hy), runs_act_ok (consIndexAct_holding hy), runs_act_ok (armRecordAct_holding hy hr ..),
    runs_act_ok (memfreeArmAct_holding (y := y) (by simpa using hy) ..), hsn]
  exact (runs_holding_end (by simpa using hs.locks)).mpr rfl

/-- The memory after an arm: its record, written before the doorbell, and all else as it was. -/
theorem armed_memory {s : State} (hwf : Memory.wf s.mem = true) (a v : Nat) (off : BitVec 8) (w0 w1 : Word) (c : Nat) (y : Cq)
    (r : Response) {t : State} (ht : t = (((s.wmb.memWrite a 8 v).wmb.mmio off w0 w1).setCq c y).ended r) :
    t.memRead a 4 = v / 2 ^ 32 % 2 ^ 32 ∧ t.memRead (a + 4) 4 = v % 2 ^ 32 ∧ SameMemOutside s t a 8 := by
  have hmem : t.mem = (s.memWrite a 8 v).mem := by rw [ht]; simp [State.ended]
  obtain ⟨hfirst, hsecond⟩ := memRead_memWrite_words hwf a v
  simp only [SameMemOutside, State.memRead, hmem]
  exact ⟨hfirst, hsecond, fun b hb => State.memWrite_outside s a 8 v b hb⟩

/-- Settles O48: the arm's doorbell, and in `MEMFREE` its record before it, with their fields as numbers. -/
theorem reqNotify : Obligations.ReqNotify := by
  intro s sol c y hs hn hy
  refine ⟨fun hm => ?_, fun r sn cmd hm hr hsn hcmd hwf => ?_⟩
  · rw [exec_reqNotifyCq_legacy hs hn hy hm, State.ring, legacyArm_words, State.regOff]
  · subst hsn
    have hsn : (BitVec.ofNat 2 (y.armSn.toNat % 4)).toNat = y.armSn.toNat % 4 := by rw [BitVec.toNat_ofNat]; omega
    have hexec := exec_reqNotifyCq_memfree (sol := sol) hs hn hy hm hr rfl
    rw [State.ring, memfreeArm_words, armRecord_toNat, hsn, hcmd] at hexec
    have hcmdlt : cmd ≤ 2 := by rw [← hcmd]; split <;> omega
    have hcqn := y.cqn.isLt
    have hci := y.consIndex.isLt
    obtain ⟨hfirst, hsecond, hframe⟩ := armed_memory hwf (s.recAddr r) _ _ _ _ _ _ _ rfl
    exact ⟨_, hexec, hfirst.trans (by omega), hsecond.trans (by omega), hframe, rfl⟩

end Sys2Proof.Machine
end

section
/-! SUPPORT. The doorbell rows (R126 to R130, R251, R256): what a doorbell that is rung by itself tells the device, and the write of
a doorbell record. -/

namespace Sys2Proof.Machine

open Sys2Proof

/-! ### What a doorbell tells the device -/

theorem State.onQpNum_setMe (s : State) (a : Agent) (n : Num24) (f : Qp → Qp) :
    (s.setMe a).onQpNum n f = (s.onQpNum n f).setMe a := by
  simp only [State.onQpNum, State.setMe_lookupNum, State.setMe_qpOf]
  cases s.lookupNum .qp n with
  | none => rfl
  | some q =>
    dsimp only
    cases s.qp? q <;> rfl

theorem State.onCqNum_setMe (s : State) (a : Agent) (n : Num24) (f : Cq → Cq) :
    (s.setMe a).onCqNum n f = (s.onCqNum n f).setMe a := by
  simp only [State.onCqNum, State.setMe_lookupNum, State.setMe_cqOf]
  cases s.lookupNum .cq n with
  | none => rfl
  | some c =>
    dsimp only
    cases s.cq? c <;> rfl

theorem State.onSrqNum_setMe (s : State) (a : Agent) (n : Num24) (f : Srq → Srq) :
    (s.setMe a).onSrqNum n f = (s.onSrqNum n f).setMe a := by
  simp only [State.onSrqNum, State.setMe_lookupNum, State.setMe_srqOf]
  cases s.lookupNum .srq n with
  | none => rfl
  | some r =>
    dsimp only
    cases s.srq? r <;> rfl

/-- What a doorbell tells the device has nothing to do with the agent that rings it. -/
theorem State.deviceGets_setMe (s : State) (a : Agent) (i : Instr) : (s.setMe a).deviceGets i = (s.deviceGets i).setMe a := by
  cases i with
  | dbLegacySend | dbLegacyRecv => exact s.onQpNum_setMe ..
  | dbLegacySrq => exact s.onSrqNum_setMe ..
  | dbLegacyCqInc | dbLegacyCqArm | dbMemfreeCqArm => exact s.onCqNum_setMe ..
  | _ => rfl

/-! ### The rows (R251, R256) -/

/-- An instruction of an agent that can issue, alone, to its end. -/
theorem State.idle.runCmd {s t : State} (h : s.idle) {i : Instr} {p : Operands → Prog}
    (hr : Runs (p s.me.op) (s.beginCmd i) t) : Machine.runCmd i p s = .next t := by
  obtain ⟨⟨-, hcmd, hslice⟩, halone, -⟩ := h
  exact runCmd_of_runs hcmd hslice (halone.mayIssue i) hr

/-- A doorbell row rings its doorbell where the device is started in the row's mode. -/
theorem runCmd_doorbell {s : State} {m : Mode} (hs : s.idle) (hstarted : s.started = true) (hm : s.mode = m) (reg : DbReg)
    (i : Instr) : runCmd i (doorbellProg m reg i) s = .next (((s.ring reg i).deviceGets i).ended {}) := by
  have hthere : (s.beginCmd i).started = true ∧ (s.beginCmd i).mode = m := ⟨hstarted, hm⟩
  have hend : (((s.beginCmd i).ring reg i).deviceGets i).endCmd = ((s.ring reg i).deviceGets i).ended {} := by
    have hbegin : (s.beginCmd i).ring reg i = (s.ring reg i).beginCmd i := rfl
    rw [hbegin, State.beginCmd, State.deviceGets_setMe, ← State.deviceGets_me (s.ring reg i) i]
    exact beginCmd_endCmd ..
  refine hs.runCmd ?_
  unfold doorbellProg
  rw [runs_ask, if_pos hthere, if_neg Nat.one_ne_zero, runs_eff, runs_done, hend]

/-- A doorbell row does nothing elsewhere. -/
theorem runCmd_doorbell_none {s : State} {m : Mode} (hs : s.idle) (h : s.started = false ∨ s.mode ≠ m) (reg : DbReg)
    (i : Instr) : runCmd i (doorbellProg m reg i) s = .next (s.ended {}) := by
  have hthere : ¬ ((s.beginCmd i).started = true ∧ (s.beginCmd i).mode = m) := fun ⟨hstarted, hm⟩ =>
    h.elim (fun hno => Bool.false_ne_true (hno.symm.trans hstarted)) fun hno => hno hm
  refine hs.runCmd ?_
  unfold doorbellProg
  rw [runs_ask, if_neg hthere, if_pos rfl, runs_done, beginCmd_endCmd]

/-- The state in which both words of a record have been written, the device has read the first, and the row has ended. -/
def State.recordWritten (s : State) (r : Nat) (w0 : Word) (v : Nat) : State :=
  ((s.initRec r w0.toNat v).deviceReads r w0).ended {}

section

variable (s : State) (i : Instr) (r v v' : Nat) (w0 : Word)

theorem State.deviceReads_writeBytes (a : Nat) (bs : List Byte) :
    (s.deviceReads r w0).writeBytes a bs = (s.writeBytes a bs).deviceReads r w0 := rfl

theorem State.beginCmd_writeBytes (a : Nat) (bs : List Byte) :
    (s.beginCmd i).writeBytes a bs = (s.writeBytes a bs).beginCmd i := rfl

/-- The device reads word 0 before word 1 is written; it keeps the same as if both were written before. -/
theorem deviceReads_writeRec1 :
    ((s.wmb.writeRec0 (some r) v).deviceReads r w0).wmb.writeRec1 (some r) v' = (s.initRec r v v').deviceReads r w0 :=
  State.deviceReads_writeBytes (s.wmb.writeRec0 (some r) v).wmb r w0 _ _

theorem initRec_deviceReads_beginCmd :
    ((s.beginCmd i).initRec r v v').deviceReads r w0 = ((s.initRec r v v').deviceReads r w0).beginCmd i := by
  have hinit : (s.beginCmd i).initRec r v v' = (s.initRec r v v').beginCmd i :=
    State.beginCmd_writeBytes (s.wmb.writeRec0 (some r) v).wmb i _ _
  rw [hinit]
  rfl

/-- A record written by its row is its two words in memory and what the device keeps of them. -/
theorem recordWritten_frame :
    (s.recordWritten r w0 v).agents = (s.ended {}).agents
    ∧ s.recordWritten r w0 v = { s with
      qps := (s.deviceReads r w0).qps, cqs := (s.deviceReads r w0).cqs, srqs := (s.deviceReads r w0).srqs
      mem := (s.recordWritten r w0 v).mem, bus := (s.recordWritten r w0 v).bus, agents := (s.recordWritten r w0 v).agents } := by
  obtain ⟨m, l, hinit, -⟩ := writes_initRec s r w0.toNat v
  rw [State.recordWritten, hinit]
  exact ⟨rfl, rfl⟩

theorem recordWritten_mem : (s.recordWritten r w0 v).mem = (s.initRec r w0.toNat v).mem := by
  simp [State.recordWritten, State.ended]

end

/-- The record row writes both words of its record, and the device reads the first. -/
theorem exec_dbrecMemfree {s : State} {r w0 : Word} {num : Num24} {ty : BitVec 3} {low : BitVec 5} (hs : s.idle)
    (hstarted : s.started = true) (hm : s.mode = .memfree) (hr : r.toNat < s.cfg.dbRecCount) :
    exec (.dbrecMemfree r w0 num ty low) s = .next (s.recordWritten r.toNat w0 (num ++ ty ++ low).toNat) := by
  refine hs.runCmd (p := dbrecProg r (.dbrecMemfree r w0 num ty low)) ?_
  have hthere : (s.beginCmd (.dbrecMemfree r w0 num ty low)).started = true
      ∧ (s.beginCmd (.dbrecMemfree r w0 num ty low)).mode = .memfree
      ∧ r.toNat < (s.beginCmd (.dbrecMemfree r w0 num ty low)).cfg.dbRecCount := ⟨hstarted, hm, hr⟩
  unfold dbrecProg
  rw [runs_ask, if_pos hthere, if_neg Nat.one_ne_zero, runs_eff, runs_eff, runs_eff, runs_eff, runs_done,
    deviceReads_writeRec1, initRec_deviceReads_beginCmd, beginCmd_endCmd, State.recordWritten]
  simp only [doorbellWords]

/-- The record row does nothing where the device is not started in `MEMFREE`, and for a record the table does not have. -/
theorem exec_dbrecMemfree_none {s : State} {r w0 : Word} {num : Num24} {ty : BitVec 3} {low : BitVec 5} (hs : s.idle)
    (h : s.started = false ∨ s.mode = .legacy ∨ s.cfg.dbRecCount ≤ r.toNat) :
    exec (.dbrecMemfree r w0 num ty low) s = .next (s.ended {}) := by
  refine hs.runCmd (p := dbrecProg r (.dbrecMemfree r w0 num ty low)) ?_
  have hthere : ¬ ((s.beginCmd (.dbrecMemfree r w0 num ty low)).started = true
      ∧ (s.beginCmd (.dbrecMemfree r w0 num ty low)).mode = .memfree
      ∧ r.toNat < (s.beginCmd (.dbrecMemfree r w0 num ty low)).cfg.dbRecCount) := by
    rintro ⟨hstarted, hm, hr⟩
    rcases h with hno | hno | hno
    · exact Bool.false_ne_true (hno.symm.trans hstarted)
    · exact absurd (hno.symm.trans hm) (by decide)
    · exact absurd hr (Nat.not_lt.mpr hno)
  unfold dbrecProg
  rw [runs_ask, if_neg hthere, if_pos rfl, runs_done, beginCmd_endCmd]

/-- Word 1 of a record, as a number (R130). -/
theorem dbrecWord1_toNat (num : Num24) (ty : BitVec 3) (low : BitVec 5) :
    (num ++ ty ++ low).toNat = num.toNat * 256 + ty.toNat * 32 + low.toNat := by
  simp only [toNat_append_eq_add]
  omega

/-- A row of the table of `Obligations.Doorbells` is run as a doorbell of its mode and register. -/
theorem exec_doorbellRow {m : Mode} {reg : DbReg} {i : Instr} {s : State} (hs : s.idle)
    (h : exec i s = runCmd i (doorbellProg m reg i) s) :
    (s.started = true → s.mode = m →
      exec i s = .next (((s.wmb.mmio (s.regOff reg) (doorbellWords i).1 (doorbellWords i).2).deviceGets i).ended {}))
    ∧ (s.started = false ∨ s.mode ≠ m → exec i s = .next (s.ended {})) :=
  ⟨fun hstarted hm => h.trans (runCmd_doorbell hs hstarted hm reg i),
    fun hno => h.trans (runCmd_doorbell_none hs hno reg i)⟩

/-- Settles O54: every doorbell row is run as a doorbell of its mode and register (`exec_doorbellRow`); the record row writes its
record as an allocation does (`State.initRec`). -/
theorem doorbells : Obligations.Doorbells := by
  intro s hs
  refine ⟨fun e he i hi => ?_, fun r w0 num ty low =>
    ⟨fun hstarted hm hr hwf => ?_, fun hno => exec_dbrecMemfree_none hs hno⟩⟩
  · simp only [List.mem_cons, List.not_mem_nil, or_false] at he
    rcases he with rfl | rfl | rfl | rfl | rfl | rfl | rfl
    · obtain ⟨w, f, o, n, z, rfl⟩ := hi; exact exec_doorbellRow hs rfl
    · obtain ⟨w, z, n, k, rfl⟩ := hi; exact exec_doorbellRow hs rfl
    · obtain ⟨w, n, k, rfl⟩ := hi; exact exec_doorbellRow hs rfl
    · obtain ⟨n, k, rfl⟩ := hi; exact exec_doorbellRow hs rfl
    · obtain ⟨f, n, rfl⟩ := hi; exact exec_doorbellRow hs rfl
    · obtain ⟨k, h, f, o, n, z, rfl⟩ := hi; exact exec_doorbellRow hs rfl
    · obtain ⟨n, f, c, w, rfl⟩ := hi; exact exec_doorbellRow hs rfl
  · have hexec := exec_dbrecMemfree (w0 := w0) (num := num) (ty := ty) (low := low) hs hstarted hm hr
    have hword : (num ++ ty ++ low).toNat % 256 ^ 4 = num.toNat * 256 + ty.toNat * 32 + low.toNat :=
      (Nat.mod_eq_of_lt (num ++ ty ++ low).isLt).trans (dbrecWord1_toNat num ty low)
    generalize (num ++ ty ++ low).toNat = v at hexec hword
    obtain ⟨hword0, hword1⟩ := memRead_initRec s r.toNat w0.toNat v hwf
    obtain ⟨hagents, hframe⟩ := recordWritten_frame s r.toNat v w0
    refine ⟨_, hexec, ?_, ?_, ?_, hagents, hframe⟩
    all_goals simp only [SameMemOutside, State.memRead, recordWritten_mem]
    · exact hword0.trans (Nat.mod_eq_of_lt w0.isLt)
    · exact hword1.trans hword
    · exact fun b hb => (writes_initRec s r.toNat w0.toNat v).outside (not_inRange.mpr hb)

end Sys2Proof.Machine
end

section
/-! SUPPORT. `CREATE_CQ` (R292): its records allocated, the CQ inserted, the owner bytes of its ring set, the firmware called. -/

namespace Sys2Proof.Machine

open Sys2Proof

variable {s t : State} {op : Operands}

/-- The state of a `CREATE_CQ` of the current agent that has taken some doorbell records; `r` and `out` are what it has in its response
record and from the firmware. -/
def State.creatingCq (s : State) (recs : List Nat) (r : Response) (out : List Byte) : State :=
  s.setMe { op := s.me.op, cmd := some .createCq, recs := recs, resp := r, fwOut := out }

/-- The CQ that a create makes (R40). -/
def madeCq (op : Operands) (self : Handle) (recs : List Nat) : Cq :=
  { self, cqn := op.cqn, capacity := cqCapacity op.cqDepth.toNat, bufBase := op.bufBase, consIndex := 0, armSn := 1
    setCiRec := recs[0]?, armRec := recs[1]?, attach := 0, decodeErrors := 0 }

/-- The state in which a create has taken its records and placed its CQ; memory and the bus are given. -/
def State.madeWithCq (s : State) (num : Num24) (y : Cq) (recs : List Nat) (m : List Host.Cell) (l : List BusEvent) : State :=
  { s with
    cqTable := s.cqTable.set (s.indexOf .cq num)
      { gen := (s.entry .cq (s.indexOf .cq num)).gen, occ := some { num, obj := s.nextObj } }
    cqs := assocSet s.cqs s.nextObj y, nextObj := s.nextObj + 1, mem := m, bus := l
    dbRecUsed := recs.foldl insertSorted s.dbRecUsed, dbRecFree := s.dbRecFree - recs.length }

theorem inserted_newCq (op : Operands) (s : State) : s.inserted .cq op.cqn (newCq op) =
    { s with
      cqTable := s.cqTable.set (s.indexOf .cq op.cqn)
        { gen := (s.entry .cq (s.indexOf .cq op.cqn)).gen, occ := some { num := op.cqn, obj := s.nextObj } }
      cqs := assocSet s.cqs s.nextObj (madeCq op (s.freshHandle .cq op.cqn) s.me.recs)
      nextObj := s.nextObj + 1 } := rfl

/-- The insert of a create that has taken its records (R344). -/
theorem runs_createCq_insert {recs : List Nat} {m : List Host.Cell} {l : List BusEvent} {busy : Prog} {k : Nat → Prog} (hu : s.unlocked)
    (hins : s.canInsert .cq op.cqn) (hb : s.bufferOk (createCqBuf op s) = true) :
    Runs (insert .cq op.cqn (createCqBuf op) (newCq op) busy k) ((s.tookThese recs m l).creatingCq recs {} []) t ↔
      Runs (k s.nextObj)
        ((s.madeWithCq op.cqn (madeCq op (s.freshHandle .cq op.cqn) recs) recs m l).creatingCq recs {} []) t := by
  obtain ⟨hempty, -, -, hnext⟩ := hins
  have hrecs : ((s.tookThese recs m l).creatingCq recs {} []).me.recs = recs := by simp [State.creatingCq]
  refine (runs_insert (s := (s.tookThese recs m l).creatingCq recs {} []) (kind := .cq) (num := op.cqn) (buf := createCqBuf op)
    (make := newCq op) hempty hnext hb (fun _ => rfl) (State.unlocked.holder hu _)
    (fun _ _ _ => ⟨rfl, rfl, rfl⟩) (fun _ _ _ _ => rfl)).trans (iff_of_eq (congrArg₂ _ ?_ rfl))
  rw [inserted_newCq, hrecs]
  rfl

/-- The owner bytes of the ring of a CQ of a create (R292): `m'` and `l'` are memory and the bus afterwards. -/
theorem initOwnersAct_made {num : Num24} {y : Cq} {recs : List Nat} {m : List Host.Cell} (l : List BusEvent)
    (hwf : Memory.wf m = true) :
    ∃ m' l', initOwnersAct s.nextObj ((s.madeWithCq num y recs m l).creatingCq recs {} []) =
        .ok 0 ((s.madeWithCq num y recs m' l').creatingCq recs {} [])
      ∧ (∀ j, j < y.capacity → memGet m' (y.bufBase.toNat + 32 * j + 0x1F) = 0x80)
      ∧ ∀ b, (∀ j, j < y.capacity → b ≠ y.bufBase.toNat + 32 * j + 0x1F) → memGet m' b = memGet m b := by
  have hy : ((s.madeWithCq num y recs m l).creatingCq recs {} []).cq? s.nextObj = some y := assocGet_assocSet_self ..
  have hset := fun j hj => initOwners_owner ((s.madeWithCq num y recs m l).creatingCq recs {} []) y.bufBase.toNat y.capacity j hwf hj
  obtain ⟨m', l', howners, -, hsame⟩ :=
    writes_initOwners ((s.madeWithCq num y recs m l).creatingCq recs {} []) y.bufBase.toNat y.capacity
  rw [howners] at hset
  refine ⟨m', l', ?_, hset, fun b hb => hsame b fun ⟨j, hj, hbj⟩ => hb j hj hbj⟩
  rw [initOwnersAct, withCq_eq hy, howners]
  rfl

/-- The end of a create whose call the firmware has answered. -/
theorem runs_createCq_respond {recs : List Nat} {c : Nat} {y : Cq} {out : List Byte} (hy : s.cq? c = some y) :
    Runs (eff (fun s => s.setResp fun r => { r with cq := some (s.cqSelf c), capacity := some (cqCapacity op.cqDepth.toNat) }) <|
      respond .ok none) (s.creatingCq recs { fwStatus := some 0 } out) t ↔
      t = s.ended { status := some .ok, cq := some y.self, capacity := some (cqCapacity op.cqDepth.toNat), fwStatus := some 0 } := by
  have hself : (s.creatingCq recs { fwStatus := some 0 } out).cqSelf c = y.self := by
    have hy' : (s.creatingCq recs { fwStatus := some 0 } out).cq? c = some y := hy
    rw [State.cqSelf, hy']
    rfl
  rw [runs_eff, runs_respond, hself]
  refine iff_of_eq (congrArg (t = ·) ?_)
  ext1 <;> simp [State.ended, State.creatingCq]

/-- The firmware call of a create that succeeds, and the response (R292). -/
theorem runs_createCq_call {recs : List Nat} {c : Nat} {y : Cq} {a : FwAnswer} {rest : List FwAnswer} (fail : Prog)
    (hy : s.cq? c = some y) (hfatal : s.fatal = false) (hfw : s.fw = a :: rest) (hstatus : a.status = 0) :
    Runs (mailbox (sw2hwCqCall c) fun fw => setFwStatus fw <| if fw ≠ 0 then fail else
      eff (fun s => s.setResp fun r => { r with cq := some (s.cqSelf c), capacity := some (cqCapacity op.cqDepth.toNat) }) <|
      respond .ok none) (s.creatingCq recs {} []) t ↔
      t = State.ended { s with
          fw := rest, bus := .mailbox s.cur (.sw2hwCq y.cqn y.capacity y.bufBase y.setCiRec y.armRec) :: .wmb s.cur :: s.bus }
        { status := some .ok, cq := some y.self, capacity := some (cqCapacity op.cqDepth.toNat), fwStatus := some 0 } := by
  have hcall : sw2hwCqCall c (s.creatingCq recs {} []) = .sw2hwCq y.cqn y.capacity y.bufBase y.setCiRec y.armRec := by
    have hy' : (s.creatingCq recs {} []).cq? c = some y := hy
    simp only [sw2hwCqCall, hy']
  rw [runs_mailbox (s := s.creatingCq recs {} []) hfatal hfw, runs_setFwStatus, hcall, hstatus,
    if_neg (not_not_intro (by rfl))]
  refine Iff.trans (iff_of_eq (congrArg₂ _ ?_ rfl)) (runs_createCq_respond (s := { s with
    fw := rest, bus := .mailbox s.cur (.sw2hwCq y.cqn y.capacity y.bufBase y.setCiRec y.armRec) :: .wmb s.cur :: s.bus })
    (recs := recs) (out := a.out) hy)
  ext1 <;> simp [State.creatingCq, State.me, State.agent]

/-- The run of a `CREATE_CQ` that passes its checks and whose call the firmware accepts: `m` and `l` are memory and the bus
afterwards, `m0` is memory after the doorbell records. -/
theorem exec_createCq {recs : List Nat} {a : FwAnswer} {rest : List FwAnswer} (hs : s.quietStart) (hop : s.me.op = op)
    (hbad : createCqBad op s = false) (hb : s.bufferOk (createCqBuf op s) = true) (hins : s.canInsert .cq op.cqn)
    (hrecs : s.takesRecs 2 recs) (hfw : s.fw = a :: rest) (hstatus : a.status = 0) (hwf : Memory.wf s.mem = true) :
    ∃ m0 m l, (∀ b, (∀ r ∈ recs, Outside b (s.recAddr r, 8)) → memGet m0 b = memGet s.mem b)
      ∧ (∀ (k r : Nat), recs[k]? = some r → (s.setMem m0).memRead (s.recAddr r) 4 = 0
          ∧ (s.setMem m0).memRead (s.recAddr r + 4) 4 = op.cqn.toNat * 256 + (if k = 0 then 1 else 5) * 32)
      ∧ (∀ j, j < cqCapacity op.cqDepth.toNat → memGet m (op.bufBase.toNat + 32 * j + 0x1F) = 0x80)
      ∧ (∀ b, (∀ j, j < cqCapacity op.cqDepth.toNat → b ≠ op.bufBase.toNat + 32 * j + 0x1F) → memGet m b = memGet m0 b)
      ∧ exec .createCq s = .next (State.ended
          { s.madeWithCq op.cqn (madeCq op (s.freshHandle .cq op.cqn) recs) recs m l with fw := rest }
          { status := some .ok, cq := some (s.freshHandle .cq op.cqn), capacity := some (cqCapacity op.cqDepth.toNat)
            fwStatus := some 0 }) := by
  subst hop
  have hu : s.unlocked := hs.locks
  obtain ⟨m0, l0, hm0, hout, hwords, halloc⟩ := runs_allocRecs (ag := { op := s.me.op, cmd := some .createCq })
    (spec := [(1, s.me.op.cqn), (5, s.me.op.cqn)]) rfl hrecs hu hwf
  let y := madeCq s.me.op (s.freshHandle .cq s.me.op.cqn) recs
  obtain ⟨m, l, howners, hset, hsame⟩ := initOwnersAct_made (s := s) (num := s.me.op.cqn) (y := y) (recs := recs) l0 hm0
  refine ⟨m0, m, .mailbox s.cur (.sw2hwCq y.cqn y.capacity y.bufBase y.setCiRec y.armRec) :: .wmb s.cur :: l, hout,
    fun k r hr => ?_, hset, hsame, hs.runCmd ?_⟩
  · obtain rfl | rfl := hrecs.index hr
    · exact hwords 0 r 1 s.me.op.cqn hr rfl
    · exact hwords 1 r 5 s.me.op.cqn hr rfl
  obtain ⟨-, hstarted, hfatal⟩ := hs
  have hnobad : createCqBad s.me.op (s.beginCmd .createCq) = false := hbad
  rw [createCqProg, runs_precond (s := s.beginCmd .createCq) hstarted (fun h => absurd (h.symm.trans hfatal) nofun), runs_ask, hnobad,
    if_neg Bool.false_ne_true, if_neg Nat.zero_ne_one, runs_guard]
  refine ⟨hb, (halloc ..).mpr ((runs_createCq_insert hu hins hb).mpr ((runs_act_ok howners).mpr ?_))⟩
  exact (runs_createCq_call (s := s.madeWithCq s.me.op.cqn y recs m l) _ (assocGet_assocSet_self ..) hfatal hfw hstatus).mpr rfl

/-- Settles O21: the run of `exec_createCq`, read field by field; of memory, the owner bytes leave the doorbell records alone. -/
theorem createCq : Obligations.CreateCq := by
  intro s op cap recs a rest hs hop hcap hmax halign hb hins hrecs hfw hstatus hwf hdisjoint
  subst hcap
  have hbad : createCqBad op s = false := by
    simp [createCqBad, halign, hmax]
  obtain ⟨m0, m, l, hout, hwords, hset, hsame, hexec⟩ := exec_createCq hs hop hbad hb hins hrecs hfw hstatus hwf
  refine ⟨_, hexec, lookup_inserted hins rfl rfl, assocGet_assocSet_self .., fun c hc => assocGet_assocSet_ne _ _ hc, hset,
    fun k r hr => ?_, fun b hb hb' => (hsame b hb).trans (hout b hb'), rfl, rfl⟩
  have hapart := hdisjoint r (List.mem_of_getElem? hr)
  have hfield : ∀ o, o + 4 ≤ 8 → (s.setMem m).memRead (s.recAddr r + o) 4 = (s.setMem m0).memRead (s.recAddr r + o) 4 := fun o ho =>
    congrArg beNat (memGetBytes_congr _ _ _ _ fun b hb hb' => hsame b fun j hj => by omega)
  obtain ⟨hzero, hword⟩ := hwords k r hr
  exact ⟨(hfield 0 (by decide)).trans hzero, (hfield 4 (by decide)).trans hword⟩

end Sys2Proof.Machine
end

section
/-! SUPPORT. An accepted `MODIFY_QP` to RESET of a QP in whose CQs CQEs wait (R165, R166, R310 to R312, R376): its CQs are cleaned,
then its rings reset. -/

namespace Sys2Proof.Machine

open Sys2Proof

variable {s t w : State} {i : Instr} {q c1 c2 : Nat} {x : Qp} {r : Response} {out : List Byte} {recs : List Nat}

/-! ### The RESET cleanup (R166) -/

/-- The RESET cleanup of a QP and the end of the command: the cleaning of its CQs leaves the CQs `C`, the SRQs `R` and the memory `m0`;
`m` and `l` are memory and the bus at the end. -/
theorem runs_resetCleanup_cleaned {st : Status} (hu : s.unlocked) (hx : s.qp? q = some x) (hclean : s.cleanable x c1 c2 recs)
    (hsrq : ∀ g, x.srq = some g → ∃ p, s.names .srq g p)
    (hobj : ∀ g p, x.srq = some g → s.names .srq g p → ∃ z, s.srq? p = some z) (hwf : Memory.wf s.mem = true) :
    ∃ C R m0 m l, s.CleanedBoth { s with cqs := C, srqs := R, mem := m0 } x c1 c2
      ∧ (∀ b, (∀ p ∈ s.recsOf [x.sqDbRec, x.rqDbRec], Outside b (s.recAddr p, 4)) → memGet m b = memGet m0 b)
      ∧ Runs (resetCleanup q <| release (.mlock q) <| respond st none) (s.qpCmd i q r out)
          (State.ended { s with qps := assocSet s.qps q x.emptied, cqs := C, srqs := R, mem := m, bus := l }
            { r with status := some st, badIndex := none }) := by
  have hfree : ∀ (z : State) y, y ≠ .mlock q → (z.qpCmd i q r out).holder y = none := fun z y hy => by
    simp [State.holder, State.qpCmd, holderIn, Ne.symm hy]
  obtain ⟨v, hv, hrun⟩ := runs_cleanBoth (s := s.qpCmd i q r out) hx hclean hsrq hobj (fun _ _ => hfree s _ nofun)
    (fun _ => hfree s _ nofun) (fun _ => hfree s _ nofun) hwf
  let w : State := { s with cqs := v.cqs, srqs := v.srqs, mem := v.mem, bus := v.bus }
  have hvw : v = w.qpCmd i q r out := hv.frame
  obtain ⟨m, l, hcleared, -, -, hmem⟩ := clearedRec_two (w.setQp q x.emptied) x.sqDbRec x.rqDbRec
  refine ⟨v.cqs, v.srqs, v.mem, m, l, hv.of_same rfl rfl rfl rfl fun b hb => hb, hmem, ?_⟩
  rw [resetCleanup, hrun, hvw, runs_resetRings (s := w.qpCmd i q r out) hx (hfree w _ nofun) (hfree w _ nofun),
    show (w.qpCmd i q r out).setQp q x.emptied = (w.setQp q x.emptied).qpCmd i q r out from rfl, State.qpCmd_clearedRec,
    State.qpCmd_clearedRec, hcleared]
  exact (runs_qpCmd_end (s := ((w.setQp q x.emptied).setMem m).setBus l) hu).mpr rfl

/-- The run of an accepted `MODIFY_QP` to RESET of a QP whose CQs can be cleaned. -/
theorem exec_modify_reset_cleaned {cur : QpState} {a : FwAnswer} {more rest : List FwAnswer} (hs : s.quietStart)
    (hn : s.names .qp s.me.op.qp q) (hq : s.qp? q = some x) (he : modifyError s.cfg x s.me.op = none)
    (hcur : curState x s.me.op = cur) (hnew : newState x s.me.op = .reset) (hfw : s.fw = a :: (more ++ rest)) (hstatus : a.status = 0)
    (hmore : more.length = if portCall s.cfg (x.commit cur .reset s.me.op) cur .reset = 0 then 0 else 1)
    (hclean : s.cleanable (x.commit cur .reset s.me.op) c1 c2 recs) (hsrq : ∀ g, x.srq = some g → ∃ p, s.names .srq g p)
    (hobj : ∀ g p, x.srq = some g → s.names .srq g p → ∃ z, s.srq? p = some z) (hwf : Memory.wf s.mem = true) :
    ∃ C R m0 m l, s.CleanedBoth { s with cqs := C, srqs := R, mem := m0 } (x.commit cur .reset s.me.op) c1 c2
      ∧ (∀ b, (∀ p ∈ s.recsOf [x.sqDbRec, x.rqDbRec], Outside b (s.recAddr p, 4)) → memGet m b = memGet m0 b)
      ∧ exec .modifyQp s = .next (State.ended { s with
          qps := assocSet s.qps q (x.commit cur .reset s.me.op).emptied, cqs := C, srqs := R, mem := m, bus := l, fw := rest
          quiet := quietAfter .reset x.qpn s.quiet }
          { status := some .ok, fwStatus := some 0, portFwStatus := more.head?.map (·.status) }) := by
  obtain ⟨b, hb⟩ := s.modified_called q x .any2rst cur .reset (more ++ rest) rest
    (portCallOf (portCall s.cfg (x.commit cur .reset s.me.op) cur .reset) (x.commit cur .reset s.me.op).port)
  let u : State := { s with
    qps := assocSet s.qps q (x.commit cur .reset s.me.op), bus := b, fw := rest, quiet := quietAfter .reset x.qpn s.quiet }
  obtain ⟨C, R, m0, m, l, hcleaned, hmem, hrun⟩ := runs_resetCleanup_cleaned (s := u) (i := .modifyQp) (st := .ok)
    (r := { fwStatus := some 0, portFwStatus := more.head?.map (·.status) }) (out := (more.head?.map (·.out)).getD a.out)
    hs.locks (assocGet_assocSet_self ..) hclean hsrq hobj hwf
  refine ⟨C, R, m0, m, l, hcleaned.of_same rfl rfl rfl rfl fun b hb => hb, hmem, hs.runCmd ?_⟩
  rw [runs_modify_commit hs hn hq he hcur hnew rfl hfw hstatus, if_pos rfl]
  obtain ⟨-, -, hfatal⟩ := hs
  rw [runs_portCalls (s := s.modified q x .any2rst cur .reset (more ++ rest)) (x := x.commit cur .reset s.me.op)
    (assocGet_assocSet_self ..) hfatal rfl rfl hmore rfl, show (s.modified q x .any2rst cur .reset (more ++ rest)).cfg = s.cfg from rfl, hb]
  simpa only [u, assocSet_assocSet] using hrun

/-! ### The cleaned CQs, as the obligation says it -/

/-- The rings of the CQs that can be cleaned lie apart from the records. -/
theorem State.cleanable.ring_apart (h : s.cleanable x c1 c2 recs) {c b : Nat} {y : Cq} (hc : c = c1 ∨ c = c2) (hy : s.cq? c = some y)
    (hb : ¬ Outside b y.buffer) {p : Nat} (hp : p ∈ recs) : Outside b (s.recAddr p, 8) := by
  obtain ⟨-, -, -, y1, y2, hc1, hc2, -, -, -, hapart⟩ := h
  refine (hapart p (List.mem_append_left _ hp) b).resolve_right fun ⟨hout1, hout2⟩ => hb ?_
  rcases hc with rfl | rfl
  · cases hc1.symm.trans hy
    exact hout1
  · cases hc2.symm.trans hy
    exact hout2

theorem State.cleanable.pow2 (h : s.cleanable x c1 c2 recs) {c : Nat} {y : Cq} (hc : c = c1 ∨ c = c2) (hy : s.cq? c = some y) :
    y.pow2 := by
  obtain ⟨-, -, -, y1, y2, hc1, hc2, hp1, hp2, -⟩ := h
  rcases hc with rfl | rfl
  · cases hc1.symm.trans hy
    exact hp1
  · cases hc2.symm.trans hy
    exact hp2

/-- A cleaning that is followed by writes outside the rings and by no detach. -/
theorem State.CleanedBoth.cleanedOf_kept (hw : s.CleanedBoth w x c1 c2) (hclean : s.cleanable x c1 c2 recs)
    (hsrq : ∀ g, x.srq = some g → ∃ r, s.names .srq g r) (hcqs : t.cqs = w.cqs) (hsrqs : t.srqs = w.srqs)
    (hmem : ∀ c y b, c = c1 ∨ c = c2 → s.cq? c = some y → ¬ Outside b y.buffer → memGet t.mem b = memGet w.mem b) :
    s.cleanedOf t x c1 c2 0 := by
  obtain ⟨-, -, -, -, y2, -, hc2, -⟩ := id hclean
  have hcq : ∀ c, t.cq? c = w.cq? c := fun c => congrArg (assocGet · c) hcqs
  have hsrq' : ∀ r, t.srq? r = w.srq? r := fun r => congrArg (assocGet · r) hsrqs
  refine ⟨fun c y hy => ?_, fun r z hz => ⟨fun hne => ?_, fun y hr hy => ?_⟩⟩
  · rw [Nat.zero_mul, Nat.sub_zero]
    by_cases hc : c = c1 ∨ c = c2
    · obtain ⟨z, hz, heq, hcqes, hidx⟩ := (hw.cqs c y hc hy).congr (f := id) (hclean.pow2 hc hy)
        ((hcq c).trans Option.map_id'.symm) fun b => hmem c y b hc hy
      exact ⟨z, hz, heq, fun h1 h2 => absurd hc (not_or.mpr ⟨h1, h2⟩), fun _ => ⟨hcqes, hidx⟩⟩
    · obtain ⟨hne1, hne2⟩ := not_or.mp hc
      exact ⟨y, ((hcq c).trans (hw.others c hne1 hne2)).trans hy, rfl, fun _ _ => ⟨rfl, rfl⟩, fun h => absurd h hc⟩
  · have hkeep : ¬ (r = s.srqIndex x ∧ s.srqIndex x ≠ 0) := fun h => hne ((State.srqIndex_eq_iff hsrq r).mp h)
    exact (hsrq' r).trans ((hw.srqs y2 hc2 r).trans (by rw [hz, Option.map_some, if_neg hkeep]))
  · have hfree := (State.srqIndex_eq_iff hsrq r).mpr hr
    have hwr : w.srq? r = some (z.freed ((s.cqes y).filter (isRecvOf x.qpn))) :=
      (hw.srqs y hy r).trans (by rw [hz, Option.map_some, if_pos hfree])
    rw [hsrq', hwr, Nat.sub_zero, ← Srq.freed_attach ((s.cqes y).filter (isRecvOf x.qpn)) z]

/-- Settles O29: the run of `exec_modify_reset_cleaned`; the words of the QP's own records, written after the cleaning, lie outside the
rings. -/
theorem cqCleaned : Obligations.CqCleaned := by
  intro s op q c1 c2 x cur a more rest hs hop hn hq he hcur hnew hfw hstatus hmore hclean hsrq hwf
  subst hop
  have hnames : ∀ g, x.srq = some g → ∃ p, s.names .srq g p := fun g hg => by
    obtain ⟨p, -, hp, -⟩ := hsrq g hg
    exact ⟨p, hp⟩
  have hobj : ∀ g p, x.srq = some g → s.names .srq g p → ∃ z, s.srq? p = some z := fun g p hg hp => by
    obtain ⟨p', z, hp', hz⟩ := hsrq g hg
    obtain rfl : p = p' := Option.some.inj (hp.1.symm.trans hp'.1)
    exact ⟨z, hz⟩
  obtain ⟨C, R, m0, m, l, hcleaned, hmem, hexec⟩ := exec_modify_reset_cleaned hs hn hq he hcur hnew hfw hstatus hmore hclean hnames
    hobj hwf
  refine ⟨_, hexec, hcleaned.cleanedOf_kept hclean hnames rfl rfl fun c y b hc hy hb => ?_, fun b hb hb' =>
    (hmem b hb').trans (hcleaned.outside b hb), rfl⟩
  refine hmem b fun p hp => ?_
  have hring := hclean.ring_apart hc hy hb hp
  simp only [Outside] at *
  omega

end Sys2Proof.Machine
end

section
/-! SUPPORT. `DESTROY_CQ` (R315): the entry is removed, the firmware called, the CQ's doorbell records freed, the object erased. -/

namespace Sys2Proof.Machine

open Sys2Proof

variable {s t : State} {c : Nat} {y : Cq} {h : Handle} {k : Prog}

/-- The records of a CQ given back (R256). -/
theorem runs_freeCqRecs (hy : s.cq? c = some y) (hl : s.holder .dbRec = none) :
    Runs (freeRec (fun s => (s.cq? c).bind (·.setCiRec)) <| freeRec (fun s => (s.cq? c).bind (·.armRec)) k) s t ↔
      Runs k ((s.freedRec y.setCiRec).freedRec y.armRec) t := by
  obtain ⟨m, l, hfreed, -⟩ := freedRec_eq s y.setCiRec
  have hy1 : (s.freedRec y.setCiRec).cq? c = some y := by
    rw [hfreed]
    exact hy
  have hl1 : (s.freedRec y.setCiRec).holder .dbRec = none := by
    rw [hfreed]
    exact hl
  have hci : (s.cq? c).bind (·.setCiRec) = y.setCiRec := by rw [hy]; rfl
  have harm : ((s.freedRec y.setCiRec).cq? c).bind (·.armRec) = y.armRec := by rw [hy1]; rfl
  rw [runs_freeRec hl fun _ _ _ => rfl, hci, runs_freeRec hl1 fun _ _ _ => rfl, harm]

/-- The state of a `DESTROY_CQ` that has removed the entry of its handle and has the firmware's answer. -/
def State.destroyingCq (s : State) (h : Handle) (y : Cq) (a : FwAnswer) (rest : List FwAnswer) : State :=
  { s with
    cqTable := s.cqTable.set h.index.toNat { gen := h.gen + 1, occ := none }
    bus := .mailbox s.cur (.hw2swCq y.cqn) :: .wmb s.cur :: s.bus, fw := rest
    agents := assocSet s.agents s.cur
      { op := s.me.op, cmd := some .destroyCq, destroying := [h], resp := { fwStatus := some a.status }, fwOut := a.out } }

/-- The steps of a `DESTROY_CQ` after the firmware's answer. -/
def destroyCqEnd (c : Nat) : Prog :=
  freeRec (fun s => (s.cq? c).bind (·.setCiRec)) <| freeRec (fun s => (s.cq? c).bind (·.armRec)) <|
  eff (fun s => (s.hold ((s.cq? c).map Cq.buffer)).eraseCq c) <| endWith .ok

/-- A `DESTROY_CQ` until the firmware has answered (R315, R349). -/
theorem runs_destroyCq_call {a : FwAnswer} {rest : List FwAnswer} (hs : s.quietStart) (hn : s.names .cq s.me.op.cq c)
    (hy : s.cq? c = some y) (hattach : y.attach = 0) (hfw : s.fw = a :: rest) :
    Runs (destroyCqProg s.me.op) (s.beginCmd .destroyCq) t ↔
      Runs (destroyCqEnd c) (s.destroyingCq s.me.op.cq y a rest) t := by
  obtain ⟨⟨-, halone, hu⟩, hstarted, hfatal⟩ := hs
  have hfree : ∀ x, (s.beginCmd .destroyCq).holder x = none := (hu.begin _).holder
  have hcount : (s.beginCmd .destroyCq).attachOf .cq c = 0 := by
    have hy' : (s.beginCmd .destroyCq).cq? c = some y := hy
    rw [State.attachOf, hy', Option.map_some, hattach]
    rfl
  have hcall : .hw2swCq (((((s.beginCmd .destroyCq).dropEntry .cq s.me.op.cq).cq? c).map (·.cqn)).getD 0)
      = MailboxCall.hw2swCq y.cqn := by
    have hy' : ((s.beginCmd .destroyCq).dropEntry .cq s.me.op.cq).cq? c = some y := hy
    rw [hy']
    rfl
  rw [destroyCqProg, runs_precond (s := s.beginCmd .destroyCq) hstarted (fun _ => rfl), destroyCqSteps,
    runs_resolve_found (s := s.beginCmd .destroyCq) (use := false) hn.1 hn.2 nofun (hfree _), State.noteUse,
    if_neg Bool.false_ne_true,
    runs_removeUnattached (s := s.beginCmd .destroyCq) hn.1 hcount ((halone.begin _).used _) (hfree _),
    runs_mailbox (s := (s.beginCmd .destroyCq).dropEntry .cq s.me.op.cq) hfatal hfw, hcall, if_pos rfl, runs_setFwStatus]
  refine iff_of_eq (congrArg₂ _ ?_ rfl)
  ext1 <;> simp [State.destroyingCq, State.dropEntry, State.emptyEntry, State.beginCmd, State.setEntry, State.setTable, State.table,
    State.me, State.agent]

/-- The run of a `DESTROY_CQ`: `m` and `l` are memory and the bus afterwards. -/
theorem exec_destroyCq {a : FwAnswer} {rest : List FwAnswer} (hs : s.quietStart) (hn : s.names .cq s.me.op.cq c)
    (hy : s.cq? c = some y) (hattach : y.attach = 0) (hfw : s.fw = a :: rest) :
    ∃ m l, (Memory.wf s.mem = true → ∀ r ∈ s.recsOf [y.setCiRec, y.armRec], (s.setMem m).memRead (s.recAddr r + 4) 4 = 0)
      ∧ (∀ b, (∀ r ∈ s.recsOf [y.setCiRec, y.armRec], Outside b (s.recAddr r + 4, 4)) → memGet m b = memGet s.mem b)
      ∧ exec .destroyCq s = .next { s with
          cqTable := s.cqTable.set s.me.op.cq.index.toNat { gen := s.me.op.cq.gen + 1, occ := none }
          cqs := assocDel s.cqs c, mem := m, bus := l, fw := rest
          dbRecUsed := s.dbRecUsed.filter fun r => decide (r ∉ s.recsOf [y.setCiRec, y.armRec])
          dbRecFree := s.dbRecFree + (s.recsOf [y.setCiRec, y.armRec]).length
          agents := assocSet s.agents s.cur { op := s.me.op, resp := { status := some .ok, fwStatus := some a.status } } } := by
  obtain ⟨m, l, hfreed, hwords, hmem⟩ := freedRec_two (s.destroyingCq s.me.op.cq y a rest) y.setCiRec y.armRec
  have hrecs : (s.destroyingCq s.me.op.cq y a rest).recsOf [y.setCiRec, y.armRec] = s.recsOf [y.setCiRec, y.armRec] := rfl
  rw [hrecs] at hfreed hwords hmem
  have hu : s.unlocked := hs.locks
  refine ⟨m, .commandEnd s.cur :: l, fun hwf => (hwords hwf).2, hmem, hs.runCmd ?_⟩
  rw [runs_destroyCq_call hs hn hy hattach hfw, destroyCqEnd,
    runs_freeCqRecs (s := s.destroyingCq s.me.op.cq y a rest) hy (hu.holder _), hfreed, runs_eff, endWith, if_pos rfl, runs_respond]
  ext1 <;> simp [State.destroyingCq, State.hold, State.eraseCq, State.me, State.agent]

/-- A handle whose entry has been emptied names nothing. -/
theorem lookup_of_emptied {kind : Kind} {e : Entry} (he : e.occ = none) (ht : t.table kind = (s.table kind).set h.index.toNat e) :
    t.lookup kind h = none := by
  refine State.lookup_of_empty ?_
  rw [State.entry, ht, List.getD_eq_getElem?_getD, List.getElem?_set, if_pos rfl]
  split_ifs
  · exact he
  · rfl

/-- Settles O32: the run of `exec_destroyCq`, read field by field. -/
theorem destroyCq : Obligations.DestroyCq := by
  intro s h c y a rest recs hs hh hn hy hattach hfw hrecs hwf
  subst hh hrecs
  obtain ⟨m, l, hwords, hmem, hexec⟩ := exec_destroyCq hs hn hy hattach hfw
  refine ⟨_, hexec, lookup_of_emptied (kind := .cq) rfl rfl, assocGet_assocDel_self .., fun d hd => assocGet_assocDel_ne _ hd, hwords hwf,
    hmem, rfl, rfl⟩

end Sys2Proof.Machine
end

section
/-! SUPPORT. Polls (R300, R301, R303 to R308): a `POLL_CQ` is the loop over the CQEs that wait, the row of a CQE kind one iteration of
it; both end by publishing the consumer index once. -/

namespace Sys2Proof.Machine

open Sys2Proof

variable {s t u v : State} {i : Instr} {c a n : Nat} {y z : Cq} {rec : Option CompRec} {freed : Bool}

theorem State.idle.unlocked (hs : s.idle) : s.unlocked := by
  obtain ⟨-, -, hu⟩ := hs
  exact hu

/-! ### The publication of a consumer index (R260) -/

theorem publishes_zero (hy : s.cq? c = some y) : s.publishes c 0 = s := by
  simp only [State.publishes, hy, if_true]

theorem publishes_legacy (hy : s.cq? c = some y) (hm : s.mode = .legacy) (hn : n ≠ 0) :
    s.publishes c n = (s.setCq c { y with devCons := y.devCons + BitVec.ofNat 32 n }).ring .cq
      (.dbLegacyCqInc y.cqn (BitVec.ofNat 32 (n - 1))) := by
  simp only [State.publishes, hy, hm, hn, if_false]

theorem publishes_memfree (hy : s.cq? c = some y) (hm : s.mode = .memfree) (hn : n ≠ 0) :
    s.publishes c n = (s.setCq c { y with devCons := y.consIndex }).wmb.writeRec0 y.setCiRec y.consIndex.toNat := by
  simp only [State.publishes, hy, hm, hn, if_false]

/-- One slot given back and published. -/
theorem gives_publishes (s : State) (c a : Nat) (y : Cq) :
    (s.gives c a y).publishes c 1 = (s.memWrite (a + 0x1F) 1 0x80).published c y := by
  have hcq : (s.gives c a y).cq? c = some { y with consIndex := y.consIndex + 1 } := assocGet_assocSet_self ..
  cases hm : (s.memWrite (a + 0x1F) 1 0x80).mode with
  | legacy => rw [publishes_legacy hcq hm Nat.one_ne_zero, State.gives, State.setCq_setCq, State.published, hm]; rfl
  | memfree => rw [publishes_memfree hcq hm Nat.one_ne_zero, State.gives, State.setCq_setCq, State.published, hm]

/-! ### The iterations of the loop (R300) -/

theorem State.pollsTo.unlocked (h : s.pollsTo c rec freed u) (hs : s.unlocked) : u.unlocked := by
  obtain ⟨⟨hlocks, -⟩, -⟩ := h.frame
  exact hlocks.trans hs

/-- What some iterations of the loop leave as it is, and the CQ they poll: its consumer index accounts for the slots given back. -/
structure State.Polled (s u : State) (y z : Cq) (given : Nat) : Prop where
  locks : u.locks = s.locks
  cfg : u.cfg = s.cfg
  mode : u.mode = s.mode
  doorbells : u.doorbells = s.doorbells
  recAddr : u.recAddr = s.recAddr
  wf : Memory.wf s.mem = true → Memory.wf u.mem = true
  consIndex : z.consIndex = y.consIndex + BitVec.ofNat 32 given
  cqn : z.cqn = y.cqn
  setCiRec : z.setCiRec = y.setCiRec

theorem State.pollsTo.polled (h : s.pollsTo c rec freed u) (hy : s.cq? c = some y) :
    ∃ z, u.cq? c = some z ∧ s.Polled u y z freed.toNat := by
  obtain ⟨⟨hlocks, -, -, hcfg, hmode, hbells, hbase⟩, hwf, y', z, hy', hz, hcons, hcqn, hrec, -⟩ := h.frame
  cases hy.symm.trans hy'
  refine ⟨z, hz, hlocks, hcfg, hmode, hbells, funext fun r => ?_, hwf, hcons, hcqn, hrec⟩
  rw [State.recAddr, State.recAddr, hbase]

theorem State.pollsAll.polled {l : List (Option CompRec × Bool)} : ∀ {s : State} {y z : Cq}, s.pollsAll c l u → s.cq? c = some y →
    u.cq? c = some z → s.Polled u y z (l.filter (·.2)).length := by
  induction l with
  | nil =>
    rintro s y z rfl hy hz
    cases hy.symm.trans hz
    exact ⟨rfl, rfl, rfl, rfl, rfl, id, (BitVec.add_zero _).symm, rfl, rfl⟩
  | cons e l ih =>
    rintro s y z ⟨v, he, hl⟩ hy hz
    obtain ⟨w, hw, hfirst⟩ := he.polled hy
    have hrest := ih hl hw hz
    have hcount : e.2.toNat + (l.filter (·.2)).length = ((e :: l).filter (·.2)).length := by
      rcases e with ⟨-, _ | _⟩ <;> simp [Nat.add_comm]
    refine ⟨hrest.locks.trans hfirst.locks, hrest.cfg.trans hfirst.cfg, hrest.mode.trans hfirst.mode,
      hrest.doorbells.trans hfirst.doorbells, hrest.recAddr.trans hfirst.recAddr, hrest.wf ∘ hfirst.wf, ?_,
      hrest.cqn.trans hfirst.cqn, hrest.setCiRec.trans hfirst.setCiRec⟩
    rw [hrest.consIndex, hfirst.consIndex, BitVec.add_assoc, ← BitVec.ofNat_add, hcount]

/-! ### The run of a poll -/

/-- The response of a poll that has reported some records and counted `d` decode errors. -/
def polled (recs : List CompRec) (d : Nat) : Response :=
  { status := some .ok, n := some (BitVec.ofNat 32 recs.length), wc := recs, decodeErrors := some (BitVec.ofNat 32 d) }

/-- A `POLL_CQ` that takes the CQEs which `l` lists, one after another, and then has its entries or finds the next slot the
hardware's. -/
theorem exec_pollCq {l : List (Option CompRec × Bool)} (hs : s.idle) (hstarted : s.started = true)
    (hn : s.names .cq s.me.op.cq c) (hy : s.cq? c = some y) (hl : s.pollsAll c l u) (hz : u.cq? c = some z)
    (hbound : l.length ≤ s.me.op.maxEntries.toNat + y.capacity)
    (hroom : ∀ k, k < l.length → ((l.take k).filterMap (·.1)).length < s.me.op.maxEntries.toNat)
    (hend : (l.filterMap (·.1)).length = s.me.op.maxEntries.toNat ∨ u.cqeHwOwned z.headAddr = true) :
    exec .pollCq s = .next ((u.publishes c (l.filter (·.2)).length).ended
      (polled (l.filterMap (·.1)) (l.length - (l.filterMap (·.1)).length))) := by
  have hunlocked : s.unlocked := hs.unlocked
  have hu : u.unlocked := (hl.polled hy hz).locks.trans hunlocked
  have hcap : cqCapacityAct c (polling s .pollCq c) = .ok y.capacity (polling s .pollCq c) := by
    rw [cqCapacityAct, withCq_eq (x := y) (by simpa [polling] using hy)]
  refine hs.runCmd ?_
  rw [pollCqProg, runs_pollOn hunlocked hstarted hn, runs_act_ok hcap,
    runs_pollLoop l hunlocked hl hz (by omega) (by simpa using hroom) (by simpa using hend), runs_pollEnd hu hz]
  simp only [Nat.zero_add, List.nil_append]
  rfl

/-- The row of a CQE kind: it takes the CQE at the head where that waits and is of the kind. -/
theorem runs_cqeProg (hu : s.unlocked) (hstarted : s.started = true) (hn : s.names .cq s.me.op.cq c) (hy : s.cq? c = some y) :
    Runs (cqeProg i s.me.op) (s.beginCmd i) t ↔
      if s.cqeHwOwned y.headAddr = true then Runs (pollEnd c 0 0 0) (polling s i c) t
      else if s.cqeMatches i y.headAddr = true then Runs (pollOne c y.headAddr 0 0 0 (pollEnd c)) (polling s i c).rmb t
      else Runs (pollEnd c 0 0 0) (polling s i c).rmb t := by
  have hhw : (polling s i c).cqeHwOwned y.headAddr = s.cqeHwOwned y.headAddr := by
    simp [polling, State.cqeHwOwned, State.cqeByte]
  have hkind : (polling s i c).rmb.cqeMatches i y.headAddr = s.cqeMatches i y.headAddr := by
    simp [polling, State.cqeMatches, State.cqeByte]
  rw [cqeProg, runs_pollOn hu hstarted hn, runs_head (by simpa [polling] using hy), runs_ask, hhw]
  cases s.cqeHwOwned y.headAddr with
  | true => rfl
  | false =>
    simp only [Bool.false_eq_true, if_false, Nat.zero_ne_one, runs_eff, runs_ask, hkind]
    cases s.cqeMatches i y.headAddr <;> rfl

/-- The row of the kind of the CQE at the head takes that CQE. -/
theorem exec_cqeRow_polls (hs : s.idle) (hstarted : s.started = true) (hn : s.names .cq s.me.op.cq c) (hy : s.cq? c = some y)
    (hrow : cqeRow i = true) (hkind : s.cqeMatches i y.headAddr = true) (hp : s.pollsTo c rec freed u) (hz : u.cq? c = some z) :
    exec i s = .next ((u.publishes c freed.toNat).ended (polled rec.toList rec.isNone.toNat)) := by
  have hunlocked : s.unlocked := hs.unlocked
  have hhw : s.cqeHwOwned y.headAddr = false := by
    obtain ⟨y', a, hy', ha, hhw, -⟩ := hp
    cases hy.symm.trans hy'
    rwa [ha]
  rw [exec_cqeRow hrow]
  refine hs.runCmd ?_
  rw [runs_cqeProg hunlocked hstarted hn hy, if_neg (by simp [hhw]), if_pos hkind, runs_pollsTo hunlocked hy rfl hp,
    runs_pollEnd (hp.unlocked hunlocked) hz]
  simp only [Nat.zero_add, List.nil_append]
  rfl

/-- One iteration of the loop as a poll of its own: by `POLL_CQ` where no second one follows, or by the row of the CQE's kind. -/
theorem exec_polls_once (hs : s.idle) (hstarted : s.started = true) (hn : s.names .cq s.me.op.cq c) (hy : s.cq? c = some y)
    (hp : s.pollsTo c rec freed u) (hz : u.cq? c = some z)
    (hi : (i = .pollCq ∧ s.me.op.maxEntries ≠ 0
        ∧ (rec.toList.length = s.me.op.maxEntries.toNat ∨ u.cqeHwOwned z.headAddr = true))
      ∨ (cqeRow i = true ∧ s.cqeMatches i y.headAddr = true)) :
    exec i s = .next ((u.publishes c freed.toNat).ended (polled rec.toList rec.isNone.toNat)) := by
  rcases hi with ⟨rfl, hmax, hend⟩ | ⟨hrow, hkind⟩
  · have hpos : 0 < s.me.op.maxEntries.toNat :=
      Nat.pos_of_ne_zero fun h => hmax (BitVec.eq_of_toNat_eq h)
    have hrecs : [(rec, freed)].filterMap (·.1) = rec.toList := by cases rec <;> rfl
    have hgiven : ([(rec, freed)].filter (·.2)).length = freed.toNat := by cases freed <;> rfl
    have hexec := exec_pollCq (l := [(rec, freed)]) hs hstarted hn hy ⟨u, hp, rfl⟩ hz (by simp; omega)
      (by simpa using hpos) (by rwa [hrecs])
    rw [hexec, hrecs, hgiven]
    cases rec <;> rfl
  · exact exec_cqeRow_polls hs hstarted hn hy hrow hkind hp hz

/-- A poll of one CQE that it reports. -/
theorem exec_pollsOne {r : CompRec} (hs : s.idle) (hstarted : s.started = true) (hn : s.names .cq s.me.op.cq c)
    (hy : s.cq? c = some y) (hp : s.pollsTo c (some r) freed u) (hi : s.pollsOne i y.headAddr) :
    exec i s = .next ((u.publishes c freed.toNat).ended (polledOne r)) := by
  obtain ⟨z, hz, -⟩ := hp.polled hy
  refine exec_polls_once hs hstarted hn hy hp hz (hi.imp_left fun ⟨hpoll, hmax⟩ => ⟨hpoll, ?_⟩)
  rw [hmax]
  exact ⟨by decide, .inl rfl⟩

/-! ### The obligations -/

/-- Settles O42: without an iteration a `POLL_CQ` ends at once; a row that finds no CQE of its kind does as well. -/
theorem pollEmpty : Obligations.PollEmpty := by
  intro i s c y hs hstarted hn hy
  have hunlocked : s.unlocked := hs.unlocked
  have hpoll : s.me.op.maxEntries = 0 ∨ s.cqeHwOwned y.headAddr = true → exec .pollCq s =
      .next (s.ended { status := some .ok, n := some 0, decodeErrors := some 0 }) := fun h => by
    have hexec := exec_pollCq (l := []) hs hstarted hn hy rfl hy (Nat.zero_le _) (fun k hk => absurd hk (Nat.not_lt_zero k))
      (h.imp_left fun h0 => by rw [h0]; rfl)
    rwa [List.filter_nil, List.length_nil, publishes_zero hy] at hexec
  refine ⟨fun hi hhw => ?_, fun hmax => hpoll (.inl hmax), fun hrow hhw hkind => ?_⟩
  · rcases hi with rfl | hrow
    · exact hpoll (.inr hhw)
    · rw [exec_cqeRow hrow]
      refine hs.runCmd ((runs_cqeProg hunlocked hstarted hn hy).mpr ?_)
      rw [if_pos hhw]
      exact (pollEnd_zero hunlocked).1.mpr rfl
  · rw [exec_cqeRow hrow]
    refine hs.runCmd ((runs_cqeProg hunlocked hstarted hn hy).mpr ?_)
    rw [if_neg (by simp [hhw]), if_neg (by simp [hkind])]
    exact (pollEnd_zero hunlocked).2.mpr rfl

/-- The memory after a poll that has given back the slot at `a` and published the index: the owner byte and the index's record. -/
theorem given_published_frame {b : Nat} {r : Response} (hmem : v.mem = s.mem) (hrecs : v.recsOf = s.recsOf)
    (haddr : v.recAddr = s.recAddr) (hb : b ≠ a + 0x1F) (hb' : ∀ p ∈ s.recsOf [y.setCiRec], Outside b (s.recAddr p, 4)) :
    memGet (((v.memWrite (a + 0x1F) 1 0x80).published c y).ended r).mem b = memGet s.mem b := by
  calc memGet (((v.memWrite (a + 0x1F) 1 0x80).published c y).ended r).mem b
      = memGet ((v.memWrite (a + 0x1F) 1 0x80).published c y).mem b := rfl
    _ = memGet (v.memWrite (a + 0x1F) 1 0x80).mem b := published_frame _ c y b fun p hp => by
        have haddr' : (v.memWrite (a + 0x1F) 1 0x80).recAddr p = s.recAddr p := congrFun haddr p
        rw [haddr']
        exact hb' p (congrFun hrecs _ ▸ hp)
    _ = memGet v.mem b := State.memWrite_outside v (a + 0x1F) 1 0x80 b (by omega)
    _ = memGet s.mem b := by rw [hmem]

/-- The doorbells of a publication (R128, R260). -/
theorem publishes_doorbells (hy : s.cq? c = some y) (n : Nat) : (s.publishes c n).doorbells =
    (if n ≠ 0 ∧ s.mode = .legacy then
      [(s.cfg.cqDbOff, BitVec.ofNat 32 (2 ^ 24 + y.cqn.toNat), BitVec.ofNat 32 (n - 1))] else []) ++ s.doorbells := by
  by_cases hn : n = 0
  · rw [hn, publishes_zero hy, if_neg (fun h => h.1 rfl)]
    rfl
  · cases hm : s.mode with
    | legacy =>
      have hword : (1 : BitVec 8) ++ y.cqn = BitVec.ofNat 32 (2 ^ 24 + y.cqn.toNat) :=
        eq_ofNat_of_toNat_eq (by rw [toNat_append_eq_add]; rfl)
      rw [publishes_legacy hy hm hn, if_pos ⟨hn, rfl⟩, ← hword]
      rfl
    | memfree =>
      rw [publishes_memfree hy hm hn, if_neg (by simp)]
      cases y.setCiRec <;> rfl

/-- Settles O43: a poll of one CQE is one iteration (`exec_pollsOne`), a poll of several the loop over them (`exec_pollCq`). The name
`pollOne` is the model's step of R301. -/
theorem pollOneHolds : Obligations.PollOne := by
  refine ⟨fun i s c q a idx y x w isSend hs hstarted hn hy ha hhw hi hq hq0 hx hsend hsrq hidx hw hdue => ?_,
    fun s u c freed y z l recs hs hstarted hn hy hl hz hrecs hfreed hbound hroom hend => ?_⟩
  · subst ha
    have hp : s.pollsTo c (some (completion s x isSend y.headAddr w)) true
        ((s.rmb.setQp q (x.setRing isSend ((x.ring isSend).retire idx))).gives c y.headAddr y) :=
      ⟨y, _, hy, rfl, hhw, .inl ⟨q, x, isSend, idx, w, hq, hq0, hx, hsend, hsrq, hidx, hw, hdue, rfl, rfl, rfl⟩⟩
    have hexec := exec_pollsOne hs hstarted hn hy hp hi
    rw [Bool.toNat_true, gives_publishes] at hexec
    exact ⟨_, hexec, rfl, fun b hb hb' => given_published_frame rfl rfl rfl hb hb'⟩
  · subst hrecs hfreed
    have hpolled := hl.polled hy hz
    refine ⟨_, exec_pollCq hs hstarted hn hy hl hz hbound hroom hend, rfl, hpolled.consIndex, ?_, fun hn hm hwf r hr => ?_⟩
    · refine (publishes_doorbells hz _).trans ?_
      rw [hpolled.cfg, hpolled.mode, hpolled.cqn, hpolled.doorbells]
    · rw [publishes_memfree hz (hpolled.mode.trans hm) hn, hpolled.setCiRec, hr, ← hpolled.recAddr]
      exact (State.memRead_memWrite _ _ _ _ (hpolled.wf hwf)).trans (Nat.mod_eq_of_lt z.consIndex.isLt)

/-- Settles O44: as `pollOneHolds` for one CQE, of a QP with an SRQ. -/
theorem pollSrq : Obligations.PollSrq := by
  intro i s c q r a idx y x z g w hs hstarted hn hy ha hhw hi hq hq0 hx hsend hg hr hz hidx hw
  subst ha
  have hp : s.pollsTo c (some (completion s x false y.headAddr w)) true
      ((s.rmb.setSrq r (z.freeSlot idx)).gives c y.headAddr y) :=
    ⟨y, _, hy, rfl, hhw, .inr (.inr (.inl
      ⟨q, x, g, r, z, idx, w, hq, hq0, hx, hsend, hg, hr, hz, hidx, hw, rfl, rfl, rfl⟩))⟩
  have hexec := exec_pollsOne hs hstarted hn hy hp hi
  rw [Bool.toNat_true, gives_publishes] at hexec
  exact ⟨_, hexec, rfl, fun b hb hb' => given_published_frame rfl rfl rfl hb hb'⟩

/-- Settles O45: the error CQE that is kept gives no slot back, so nothing is published; at the end of its chain or credit it is taken
as any other. -/
theorem pollErrorLegacy : Obligations.PollErrorLegacy := by
  intro i s c q a h idx nds dbd cnt n y x r w isSend hs hstarted hm hn hy ha hhw hi hq hq0 hx hsend hsrq herr hidx hw hh hnds hdbd hcnt
    hr hnum
  subst ha hr hnum
  have hdue : s.legacyErrDue y.headAddr = 1 := if_pos ⟨herr, hm⟩
  have hchain : s.chainAt x isSend y.headAddr idx h nds dbd cnt := ⟨hh, hnds, hdbd, hcnt⟩
  refine ⟨fun hnext hcredit => ?_, fun hlast => ?_⟩
  · have hp : s.pollsTo c (some (completion s x isSend y.headAddr w)) false
        (s.rmb.keepsErr q x isSend y.headAddr idx h nds dbd cnt) :=
      ⟨y, _, hy, rfl, hhw, .inr (.inl ⟨q, x, isSend, idx, w, h, nds, dbd, cnt, hq, hq0, hx, hsend, hsrq, hidx, hw, hdue, rfl,
        hchain, .inl ⟨hnext, hcredit, rfl, rfl⟩⟩)⟩
    obtain ⟨z, hz, -⟩ := hp.polled hy
    have hexec := exec_pollsOne hs hstarted hn hy hp hi
    rwa [Bool.toNat_false, publishes_zero hz] at hexec
  · have hp : s.pollsTo c (some (completion s x isSend y.headAddr w)) true
        ((s.rmb.endsErr q x isSend idx).gives c y.headAddr y) :=
      ⟨y, _, hy, rfl, hhw, .inr (.inl ⟨q, x, isSend, idx, w, h, nds, dbd, cnt, hq, hq0, hx, hsend, hsrq, hidx, hw, hdue, rfl,
        hchain, .inr ⟨hlast, rfl, rfl⟩⟩)⟩
    have hexec := exec_pollsOne hs hstarted hn hy hp hi
    rwa [Bool.toNat_true, gives_publishes] at hexec

/-- Settles O46: an iteration that makes no record; the next slot is read after the CQE's own has been given back. -/
theorem pollDecodeError : Obligations.PollDecodeError := by
  intro i s c a y hs hstarted hn hy ha hhw hi hbad
  subst ha
  have hp : s.pollsTo c none true (s.rmb.gives c y.headAddr { y with decodeErrors := y.decodeErrors + 1 }) :=
    ⟨y, _, hy, rfl, hhw, .inr (.inr (.inr ⟨hbad, rfl, rfl, rfl⟩))⟩
  have hz : (s.rmb.gives c y.headAddr { y with decodeErrors := y.decodeErrors + 1 }).cq? c =
      some { y with decodeErrors := y.decodeErrors + 1, consIndex := y.consIndex + 1 } := assocGet_assocSet_self ..
  have hexec := exec_polls_once hs hstarted hn hy hp hz (hi.imp_left fun ⟨hpoll, hmax, hnext⟩ => ⟨hpoll, hmax, .inr hnext⟩)
  rwa [Bool.toNat_true, gives_publishes] at hexec

end Sys2Proof.Machine
end

section
/-! SUPPORT. The fields of a completion record (R306), one equation for each kind of CQE, and the tables of R124 and R125. -/

namespace Sys2Proof.Machine

open Sys2Proof

/-! ### The tables (R124, R125) -/

theorem sendMap_other {b : Byte} (h : b ∉ [0x08, 0x09, 0x0A, 0x0B, 0x10, 0x11, 0x12, 0x18]) : sendMap b = (.none, false) := by
  have hne : b.toNat ≠ 0x08 ∧ b.toNat ≠ 0x09 ∧ b.toNat ≠ 0x0A ∧ b.toNat ≠ 0x0B ∧ b.toNat ≠ 0x10 ∧ b.toNat ≠ 0x11 ∧ b.toNat ≠ 0x12
      ∧ b.toNat ≠ 0x18 := by simpa [← BitVec.toNat_inj] using h
  unfold sendMap
  split <;> simp_all

theorem recvMap_recv {b : BitVec 5} (h : b.toNat ∈ [0x03, 0x05]) : recvMap b = (.recv, true) := by
  simp only [List.mem_cons, List.not_mem_nil, or_false] at h
  rcases h with h | h <;> simp only [recvMap, h]

theorem recvMap_recvRdmaWithImm {b : BitVec 5} (h : b.toNat ∈ [0x09, 0x0B]) : recvMap b = (.recvRdmaWithImm, true) := by
  simp only [List.mem_cons, List.not_mem_nil, or_false] at h
  rcases h with h | h <;> simp only [recvMap, h]

theorem recvMap_other {b : BitVec 5} (h : b.toNat ∉ [0x03, 0x05, 0x09, 0x0B]) : recvMap b = (.recv, false) := by
  have hne : b.toNat ≠ 0x03 ∧ b.toNat ≠ 0x05 ∧ b.toNat ≠ 0x09 ∧ b.toNat ≠ 0x0B := by simpa using h
  unfold recvMap
  split <;> simp_all

/-! ### The record of each kind of CQE (R306) -/

variable {s : State} {x : Qp} {a : Nat} {w : BitVec 64} {isSend : Bool}

theorem completion_error (h : isErrOpcode (s.cqeByte a 0x1C) = true) : completion s x isSend a w =
    { wrId := w, qp := x.self, qpn := x.qpn, isSend, status := syndromeStatus s.cfg (s.cqeByte a 0x10)
      vendorErr := s.cqeByte a 0x11, type := .none } := by
  simp only [completion, h, if_true]

/-- The byte count that a send completion reports: of an RDMA read the CQE's, of an atomic 8. -/
def sendByteLen (ty : CompType) (counted : Word) : Word :=
  if ty = .rdmaRead then counted else if ty = .compSwap ∨ ty = .fetchAdd then 8 else 0

theorem completion_send (h : isErrOpcode (s.cqeByte a 0x1C) = false) : completion s x true a w =
    { wrId := w, qp := x.self, qpn := x.qpn, isSend := true, type := (sendMap (s.cqeByte a 0x1C)).1
      immPresent := (sendMap (s.cqeByte a 0x1C)).2
      byteLen := sendByteLen (sendMap (s.cqeByte a 0x1C)).1 (s.cqeWord a 0x14) } := by
  simp only [completion, h, Bool.false_eq_true, if_false, if_true, sendByteLen]

/-- The map entry of a receive CQE (R125). -/
def State.recvEntry (s : State) (a : Nat) : CompType × Bool := recvMap ((s.cqeByte a 0x1C).extractLsb' 0 5)

theorem completion_recv (h : isErrOpcode (s.cqeByte a 0x1C) = false) : completion s x false a w =
    { wrId := w, qp := x.self, qpn := x.qpn, isSend := false, type := (s.recvEntry a).1, immPresent := (s.recvEntry a).2
      byteLen := s.cqeWord a 0x14, imm := if (s.recvEntry a).2 then s.cqeWord a 0x10 else 0
      pkeyIndex := (s.cqeWord a 0x10).extractLsb' 16 16, srcQp := (s.cqeWord a 0x08).setWidth 24
      slid := BitVec.ofNat 16 (s.memRead (a + 0x0E) 2), sl := (s.cqeByte a 0x0C).extractLsb' 4 4
      pathBits := (s.cqeByte a 0x0D).extractLsb' 0 7, grh := (s.cqeByte a 0x0D).getLsbD 7 } :=
  if_neg (by simp [h])

theorem completion_common (s : State) (x : Qp) (isSend : Bool) (a : Nat) (w : BitVec 64) {r : CompRec}
    (hr : completion s x isSend a w = r) : r.wrId = w ∧ r.qp = x.self ∧ r.qpn = x.qpn ∧ r.isSend = isSend := by
  subst hr
  cases herr : isErrOpcode (s.cqeByte a 0x1C) with
  | true =>
    rw [completion_error herr]
    exact ⟨rfl, rfl, rfl, rfl⟩
  | false =>
    cases isSend
    · rw [completion_recv herr]
      exact ⟨rfl, rfl, rfl, rfl⟩
    · rw [completion_send herr]
      exact ⟨rfl, rfl, rfl, rfl⟩

theorem completion_success (herr : isErrOpcode (s.cqeByte a 0x1C) = false) {r : CompRec} (hr : completion s x isSend a w = r) :
    r.status = .success ∧ r.vendorErr = 0 := by
  subst hr
  cases isSend
  · rw [completion_recv herr]
    exact ⟨rfl, rfl⟩
  · rw [completion_send herr]
    exact ⟨rfl, rfl⟩

/-- Only a receive CQE that is no error fills the fields of the path. -/
theorem completion_no_path (h : isErrOpcode (s.cqeByte a 0x1C) = true ∨ isSend = true) {r : CompRec}
    (hr : completion s x isSend a w = r) :
    r.grh = false ∧ r.imm = 0 ∧ r.srcQp = 0 ∧ r.slid = 0 ∧ r.sl = 0 ∧ r.pathBits = 0 ∧ r.pkeyIndex = 0 := by
  subst hr
  cases herr : isErrOpcode (s.cqeByte a 0x1C) with
  | true =>
    rw [completion_error herr]
    exact ⟨rfl, rfl, rfl, rfl, rfl, rfl, rfl⟩
  | false =>
    obtain rfl := h.resolve_left (by simp [herr])
    rw [completion_send herr]
    exact ⟨rfl, rfl, rfl, rfl, rfl, rfl, rfl⟩

/-- The fields that the opcode of a send CQE decides. -/
theorem completion_send_fields {b : Byte} (hb : s.cqeByte a 0x1C = b) (hno : isErrOpcode b = false) :
    (completion s x true a w).type = (sendMap b).1 ∧ (completion s x true a w).immPresent = (sendMap b).2
    ∧ (completion s x true a w).byteLen = sendByteLen (sendMap b).1 (s.cqeWord a 0x14) := by
  subst hb
  rw [completion_send hno]
  exact ⟨rfl, rfl, rfl⟩

/-- A send CQE of an opcode of no row, an error CQE among them. -/
theorem completion_send_other (h : s.cqeByte a 0x1C ∉ [0x08, 0x09, 0x0A, 0x0B, 0x10, 0x11, 0x12, 0x18]) :
    (completion s x true a w).type = .none ∧ (completion s x true a w).immPresent = false
    ∧ (completion s x true a w).byteLen = 0 := by
  cases herr : isErrOpcode (s.cqeByte a 0x1C) with
  | true =>
    rw [completion_error herr]
    exact ⟨rfl, rfl, rfl⟩
  | false =>
    have hfields := completion_send_fields (x := x) (w := w) rfl herr
    rwa [sendMap_other h] at hfields

/-! ### The fields of a receive CQE as numbers (R120, R306) -/

theorem cqeWord_toNat (s : State) (a o : Nat) : (s.cqeWord a o).toNat = s.memRead (a + o) 4 := by
  rw [State.cqeWord, BitVec.toNat_ofNat]
  exact Nat.mod_eq_of_lt (memRead_lt s (a + o) 4)

theorem extractLsb'_toNat_div (b : Byte) : (b.extractLsb' 4 4).toNat = b.toNat / 16 := by
  have hlt := b.isLt
  rw [BitVec.extractLsb'_toNat, Nat.shiftRight_eq_div_pow]
  omega

theorem recvEntry_toNat (s : State) (a : Nat) :
    ((s.cqeByte a 0x1C).extractLsb' 0 5).toNat = (s.cqeByte a 0x1C).toNat % 32 := by
  rw [BitVec.extractLsb'_toNat]; rfl

/-- The path fields of a receive CQE. -/
theorem completion_recv_path (h : isErrOpcode (s.cqeByte a 0x1C) = false) {r : CompRec} (hr : completion s x false a w = r) :
    r.byteLen = s.cqeWord a 0x14 ∧ r.srcQp.toNat = s.memRead (a + 0x08) 4 % 2 ^ 24
    ∧ r.slid.toNat = s.memRead (a + 0x0E) 2 ∧ r.sl.toNat = (s.cqeByte a 0x0C).toNat / 16
    ∧ r.pathBits.toNat = (s.cqeByte a 0x0D).toNat % 128 ∧ r.grh = (s.cqeByte a 0x0D).getLsbD 7
    ∧ r.pkeyIndex.toNat = s.memRead (a + 0x10) 4 / 65536 := by
  have hlt := memRead_lt s (a + 0x10) 4
  rw [completion_recv h] at hr
  subst hr
  refine ⟨rfl, ?_, Nat.mod_eq_of_lt (memRead_lt s (a + 0x0E) 2), extractLsb'_toNat_div _, ?_, rfl, ?_⟩
  · rw [BitVec.toNat_setWidth, cqeWord_toNat]
  · rw [BitVec.extractLsb'_toNat]; rfl
  · rw [BitVec.extractLsb'_toNat, cqeWord_toNat, Nat.shiftRight_eq_div_pow]
    omega

/-- The type and the immediate of a receive CQE, by its map entry. -/
theorem completion_recv_entry (h : isErrOpcode (s.cqeByte a 0x1C) = false) {ty : CompType} {imm : Bool}
    (he : s.recvEntry a = (ty, imm)) : (completion s x false a w).type = ty ∧ (completion s x false a w).immPresent = imm
    ∧ (completion s x false a w).imm = if imm then s.cqeWord a 0x10 else 0 := by
  rw [completion_recv h, he]
  exact ⟨rfl, rfl, rfl⟩

/-- Settles O47: each kind of CQE by its equation, each opcode by its map entry. -/
theorem completionFields : Obligations.CompletionFields := by
  intro s x a w isSend r hr
  refine ⟨completion_common s x isSend a w hr, fun herr => ?_, fun herr => completion_success herr hr,
    fun hno => completion_no_path hno hr, fun hsend => ?_, fun hsend herr => ?_⟩
  · subst hr
    rw [completion_error herr]
    exact ⟨rfl, rfl, rfl, rfl, rfl⟩
  · subst hsend hr
    exact ⟨fun hb => completion_send_fields hb rfl, fun hb => completion_send_fields hb rfl,
      fun hb => completion_send_fields hb rfl, fun hb => completion_send_fields hb rfl,
      fun hb => completion_send_fields hb rfl, fun hb => completion_send_fields hb rfl,
      fun hb => completion_send_fields hb rfl, fun hb => completion_send_fields hb rfl, completion_send_other⟩
  · subst hsend
    have hentry := recvEntry_toNat s a
    have himm : r.immPresent = true → r.imm = s.cqeWord a 0x10 := by
      subst hr
      rw [completion_recv herr]
      exact fun h => if_pos h
    refine ⟨fun hb => ?_, fun hb => ?_, fun hb => ?_, himm, completion_recv_path herr hr⟩
    · obtain ⟨hty, hpresent, -⟩ := completion_recv_entry (x := x) (w := w) herr (recvMap_recv (hentry ▸ hb))
      exact hr ▸ ⟨hty, hpresent⟩
    · obtain ⟨hty, hpresent, -⟩ := completion_recv_entry (x := x) (w := w) herr (recvMap_recvRdmaWithImm (hentry ▸ hb))
      exact hr ▸ ⟨hty, hpresent⟩
    · exact hr ▸ completion_recv_entry (x := x) (w := w) herr (recvMap_other (hentry ▸ hb))

end Sys2Proof.Machine
end

section
/-! SUPPORT. Commands that resolve a handle before anything else (R346, R401): which they are, and how such a command ends where the
handle names no live object. -/

namespace Sys2Proof.Machine

open Sys2Proof

/-- With the operands `op`, an instruction of a requester looks for the object of the handle `h` first, and is `INVALID_HANDLE` where
there is none. -/
def ResolvesFirst (i : Instr) (op : Operands) (kind : Kind) (h : Handle) : Prop :=
  ∃ (p : Operands → Prog) (b : Bool) (bad : Option Nat) (act : State → ActRes) (k : Nat → Prog),
    (∀ s, exec i s = runCmd i p s) ∧ p op = precond b bad (resolveBy kind h act (raise .invalidHandle bad) k)
    ∧ bad.map (BitVec.ofNat 32) = failIndex i ∧ ∀ s, s.lookup kind h = none → act s = .ok 0 s

theorem resolveAct_none {s : State} {kind : Kind} {h : Handle} {use : Bool} (hl : s.lookup kind h = none) :
    resolveAct kind h use s = .ok 0 s := by
  rw [resolveAct, hl]

theorem resolveDestroyAct_none {s : State} {kind : Kind} {h : Handle} (hl : s.lookup kind h = none) :
    resolveDestroyAct kind h s = .ok 0 s := by
  rw [resolveDestroyAct, hl]

variable {i : Instr} {op : Operands} {s : State}

theorem resolvesFirst_qp (hi : i ∈ [.modifyQp, .queryQp, .destroyQp, .postSend, .postRecv]) :
    ResolvesFirst i op .qp op.qp := by
  simp only [List.mem_cons, List.not_mem_nil, or_false] at hi
  rcases hi with rfl | rfl | rfl | rfl | rfl
  · exact ⟨modifyQpProg, _, _, _, _, fun _ => rfl, rfl, rfl, fun _ => resolveAct_none⟩
  · exact ⟨queryQpProg, _, _, _, _, fun _ => rfl, rfl, rfl, fun _ => resolveAct_none⟩
  · exact ⟨destroyQpProg, _, _, _, _, fun _ => rfl, rfl, rfl, fun _ => resolveDestroyAct_none⟩
  · exact ⟨postSendProg, _, _, _, _, fun _ => rfl, rfl, rfl, fun _ => resolveAct_none⟩
  · exact ⟨postRecvProg, _, _, _, _, fun _ => rfl, rfl, rfl, fun _ => resolveAct_none⟩

theorem resolvesFirst_cq (hi : i ∈ [.pollCq, .reqNotifyCq false, .reqNotifyCq true, .destroyCq]) :
    ResolvesFirst i op .cq op.cq := by
  simp only [List.mem_cons, List.not_mem_nil, or_false] at hi
  rcases hi with rfl | rfl | rfl | rfl
  · exact ⟨pollCqProg, _, _, _, _, fun _ => rfl, rfl, rfl, fun _ => resolveAct_none⟩
  · exact ⟨reqNotifyCqProg false, _, _, _, _, fun _ => rfl, rfl, rfl, fun _ => resolveAct_none⟩
  · exact ⟨reqNotifyCqProg true, _, _, _, _, fun _ => rfl, rfl, rfl, fun _ => resolveAct_none⟩
  · exact ⟨destroyCqProg, _, _, _, _, fun _ => rfl, rfl, rfl, fun _ => resolveAct_none⟩

theorem resolvesFirst_srq (hi : i ∈ [.postSrqRecv, .destroySrq]) : ResolvesFirst i op .srq (srqOperand op) := by
  simp only [List.mem_cons, List.not_mem_nil, or_false] at hi
  rcases hi with rfl | rfl
  · exact ⟨postSrqRecvProg, _, _, _, _, fun _ => rfl, rfl, rfl, fun _ => resolveAct_none⟩
  · exact ⟨destroySrqProg, _, _, _, _, fun _ => rfl, rfl, rfl, fun _ => resolveAct_none⟩

theorem resolvesFirst_createQp : ResolvesFirst .createQp op .cq op.sendCq :=
  ⟨createQpProg, _, _, _, _, fun _ => rfl, rfl, rfl, fun _ => resolveAct_none⟩

theorem srqOperand_some {h : Handle} (hop : op.srq = some h) : srqOperand op = h := by rw [srqOperand, hop]; rfl

/-- Such a command changes nothing where its handle names no live object (R346, R401). -/
theorem ResolvesFirst.exec_none {kind : Kind} {h : Handle} (hi : ResolvesFirst i s.me.op kind h) (hs : s.quietStart)
    (hl : s.lookup kind h = none) : exec i s = .next (s.ended { status := some .invalidHandle, badIndex := failIndex i }) := by
  obtain ⟨p, b, bad, act, k, hexec, hp, hbad, hact⟩ := hi
  obtain ⟨⟨-, -, hu⟩, hstarted, hfatal⟩ := id hs
  rw [hexec, ← hbad]
  refine hs.runCmd ?_
  have hnone : act ((s.beginCmd i).lockShard kind h.index.toNat) = .ok 0 ((s.beginCmd i).lockShard kind h.index.toNat) :=
    hact _ ((lockShard_lookup ..).trans hl)
  rw [hp, runs_precond (s := s.beginCmd i) hstarted (fun h => absurd (h.symm.trans hfatal) nofun),
    runs_resolveBy_none ((hu.begin i).holder _) hnone]
  exact (runs_raise_begin hu).mpr rfl

/-- Settles O19: each of the commands resolves its handle before anything else. -/
theorem invalidHandle : Obligations.InvalidHandle := by
  intro i s hs hcase
  obtain ⟨hi, hl⟩ | ⟨hi, hl⟩ | ⟨hi, h, hop, hl⟩ := hcase
  · exact (resolvesFirst_qp hi).exec_none hs hl
  · exact (resolvesFirst_cq hi).exec_none hs hl
  · exact (resolvesFirst_srq hi).exec_none hs (srqOperand_some hop ▸ hl)

end Sys2Proof.Machine
end

section
/-! SUPPORT. What it is for a command to wait (R432), said once: `Waits p s t` says that the program `p`, started in `s`, comes to a step
that waits in `t`. A program with a hole (`Open`) brings the laws of `Runs` to programs that wait: where every run through it goes on in
one state, so does a program that waits further on. -/

namespace Sys2Proof.Machine

open Sys2Proof

/-- The program, started in the first state, comes without a fault to a step that waits in the second. -/
inductive Waits : Prog → State → State → Prop where
  | here {f : State → ActRes} {k : Nat → Prog} {s : State} : f s = .wait → Waits (.act f k) s s
  | act {f : State → ActRes} {k : Nat → Prog} {a : Nat} {s s' t : State} : f s = .ok a s' → Waits (k a) s' t → Waits (.act f k) s t

theorem Waits.run {p : Prog} {s t : State} (h : Waits p s t) : ∀ log, ∃ log', p.run none log s = .next (t.park log') := by
  induction h with
  | here hf => exact fun log => ⟨log, by simp [Prog.run, hf]⟩
  | @act _ _ a _ _ _ hf _ ih =>
    intro log
    obtain ⟨log', hrun⟩ := ih (a :: log)
    exact ⟨log', by simp [Prog.run, hf, hrun]⟩

/-! ### Programs with a hole -/

/-- A program with a hole: some of its paths go on with the rest it is given, which gets a number; the others do not depend on it. -/
inductive Open : ((Nat → Prog) → Prog) → Prop where
  | hole (a : Nat) : Open fun k => k a
  | fixed (p : Prog) : Open fun _ => p
  | act (f : State → ActRes) {C : Nat → (Nat → Prog) → Prog} : (∀ a, Open (C a)) → Open fun k => .act f fun a => C a k

/-- From a state, a program either comes to its hole, whatever the rest, or runs alike with every rest. -/
theorem Open.reaches {C : (Nat → Prog) → Prog} (hC : Open C) (s : State) :
    (∃ b v, (∀ k t, Runs (C k) s t → Runs (k b) v t) ∧ ∀ k t, Waits (k b) v t → Waits (C k) s t)
    ∨ ∀ k k' t, Runs (C k) s t → Runs (C k') s t := by
  induction hC generalizing s with
  | hole a => exact .inl ⟨a, s, fun _ _ => id, fun _ _ => id⟩
  | fixed p => exact .inr fun _ _ _ => id
  | act f _ ih =>
    cases hf : f s with
    | ok a s' =>
      simp only [runs_act_ok hf]
      obtain ⟨b, v, hto, hwait⟩ | hfixed := ih a s'
      · exact .inl ⟨b, v, hto, fun k t hk => .act hf (hwait k t hk)⟩
      · exact .inr hfixed
    | wait => exact .inr fun k k' t h => by simp [runs_act, hf] at h
    | fault e => exact .inr fun k k' t h => by simp [runs_act, hf] at h

/-- A rest that runs in one state and with one number only. -/
def probe (a : Nat) (u : State) (b : Nat) : Prog := .act (fun v => if b = a ∧ v = u then .ok 0 v else .wait) fun _ => .done

theorem runs_probe {a b : Nat} {u v t : State} : Runs (probe a u b) v t ↔ (b = a ∧ v = u) ∧ t = v.endCmd := by
  unfold probe
  rw [runs_act]
  by_cases h : b = a ∧ v = u <;> simp [h, runs_done]

/-- Where the runs of a program with a hole are those of the rest in one state, the program waits where the rest does. -/
theorem Open.waits {C : (Nat → Prog) → Prog} (hC : Open C) {a : Nat} {s u w : State} {k : Nat → Prog}
    (hruns : ∀ k t, Runs (C k) s t ↔ Runs (k a) u t) (hw : Waits (k a) u w) : Waits (C k) s w := by
  obtain ⟨b, v, hto, hwait⟩ | hfixed := hC.reaches s
  · have hprobe : Runs (C (probe a u)) s u.endCmd := (hruns _ _).mpr (runs_probe.mpr ⟨⟨rfl, rfl⟩, rfl⟩)
    obtain ⟨⟨rfl, rfl⟩, -⟩ := runs_probe.mp (hto _ _ hprobe)
    exact hwait _ _ hw
  · have hdone : Runs (C fun _ => .done) s u.endCmd := (hruns _ _).mpr .done
    obtain ⟨h, -⟩ := runs_guard.mp ((hruns _ _).mp (hfixed _ (fun _ => useFault) _ hdone))
    cases h

namespace Open

variable {C D : (Nat → Prog) → Prog} {E : Nat → (Nat → Prog) → Prog} {kind : Kind} {h : Handle}

theorem ite {c : Prop} [Decidable c] (hC : Open C) (hD : Open D) : Open fun k => if c then C k else D k := by
  split
  · exact hC
  · exact hD

theorem ask {f : State → Nat} (hE : ∀ a, Open (E a)) : Open fun k => ask f fun a => E a k := .act _ hE

theorem guard {c : State → Bool} {e : Fault} (hC : Open C) : Open fun k => guard c e (C k) := .act _ fun _ => hC

theorem eff {f : State → State} (hC : Open C) : Open fun k => eff f (C k) := .act _ fun _ => hC

theorem acquire {x : Lock} (hC : Open C) : Open fun k => acquire x (C k) := .act _ fun _ => hC

theorem release {x : Lock} (hC : Open C) : Open fun k => release x (C k) := .act _ fun _ => hC

theorem underShardAt {i : Nat} {f : State → ActRes} (hE : ∀ a, Open (E a)) : Open fun k => underShardAt kind i f fun a => E a k :=
  .act _ fun _ => .act _ fun a => .act _ fun _ => hE a

theorem precond {b : Bool} {bad : Option Nat} (hC : Open C) : Open fun k => precond b bad (C k) :=
  .ask fun _ => .ite (.fixed _) (.ite (.fixed _) hC)

theorem resolveBy {act : State → ActRes} {fail : Prog} (hE : ∀ o, Open (E o)) :
    Open fun k => resolveBy kind h act fail fun o => E o k :=
  .ask fun _ => .ite (.fixed _) (.underShardAt fun o => .ite (.fixed _) (hE o))

theorem resolve {use : Bool} {fail : Prog} (hE : ∀ o, Open (E o)) : Open fun k => resolve kind h use fail fun o => E o k :=
  .resolveBy hE

theorem resolveRef {g : State → Option Handle} {gone : Prog} (hE : ∀ o, Open (E o)) :
    Open fun k => resolveRef kind g gone fun o => E o k :=
  .ask fun _ => .ite (.fixed _) (.underShardAt fun o => .ite (.fixed _) (hE o))

theorem remove (hE : ∀ a, Open (E a)) : Open fun k => remove kind h fun a => E a k := .underShardAt hE

theorem removeUnattached {fail : Status → Prog} (hC : Open C) : Open fun k => removeUnattached kind h fail (C k) :=
  .underShardAt fun _ => .ite (.fixed _) (.ite (.fixed _) hC)

theorem removeQpLocked {q : Nat} {gone : Prog} (hE : ∀ a, Open (E a)) : Open fun k => removeQpLocked q h gone fun a => E a k :=
  .ask fun _ => .resolveRef fun _ => .ite
    (.acquire (.remove fun a => .release (hE a)))
    (.resolveRef fun _ => .acquire (.acquire (.remove fun a => .release (.release (hE a)))))

theorem allocRecs {spec : List (BitVec 3 × Num24)} (hC : Open C) : Open fun k => allocRecs spec (C k) :=
  .ask fun _ => .ite hC (.acquire (.act _ fun _ => .release (.ite (.fixed _) (.eff hC))))

theorem insert {num : Num24} {buf : State → Nat × Nat} {make : State → Handle → Nat → State} {busy : Prog} (hE : ∀ o, Open (E o)) :
    Open fun k => insert kind num buf make busy fun o => E o k :=
  .ask fun _ => .underShardAt fun o => .ite (.fixed _) (hE o)

end Open

/-! ### Where a program waits -/

/-- `Acquire` waits for a lock that another agent holds (R350). -/
theorem waits_acquireAct {x : Lock} {b : Nat} {s : State} (hx : s.holder x = some b) (hb : b ≠ s.cur) : acquireAct x s = .wait := by
  rw [acquireAct, hx]
  exact if_neg hb

theorem waits_acquire {x : Lock} {b : Nat} {k : Prog} {s : State} (hx : s.holder x = some b) (hb : b ≠ s.cur) :
    Waits (acquire x k) s s := .here (waits_acquireAct hx hb)

/-- `RESOLVE` waits for the lock of its shard (R346). -/
theorem waits_resolveBy {kind : Kind} {h : Handle} {act : State → ActRes} {fail : Prog} {k : Nat → Prog} {b : Nat} {s : State}
    (hr : h.index.toNat < Config.entries s.cfg kind) (hx : s.holder (s.shardLock kind h.index.toNat) = some b) (hb : b ≠ s.cur) :
    Waits (resolveBy kind h act fail k) s s := by
  have hask : (ActRes.ok (if h.index.toNat < Config.entries s.cfg kind then 1 else 0) s) = .ok 1 s := by rw [if_pos hr]
  refine .act hask ?_
  rw [if_neg Nat.one_ne_zero]
  exact .here (waits_acquireAct hx hb)

theorem waits_ask {f : State → Nat} {k : Nat → Prog} {s w : State} (hw : Waits (k (f s)) s w) : Waits (ask f k) s w := .act rfl hw

theorem waits_waitFor_ok {c : State → Bool} {k : Prog} {s w : State} (hc : c s = true) (hw : Waits k s w) :
    Waits (waitFor c k) s w := .act (if_pos hc) hw

theorem waits_acquire_free {x : Lock} {k : Prog} {s w : State} (hx : s.holder x = none)
    (hw : Waits k (s.setLocks ((x, s.cur) :: s.locks)) w) : Waits (acquire x k) s w :=
  .act (a := 0) (by rw [acquireAct, hx]) hw

theorem waits_waitFor {c : State → Bool} {k : Prog} {s : State} (hc : c s = false) : Waits (waitFor c k) s s :=
  .here (by rw [hc]; rfl)

/-- A call on the mailbox port waits, after the call, until the firmware has answered (R420). -/
theorem waits_mailboxNoting {note : Nat → State → State} {call : State → MailboxCall} {k : Nat → Prog} {s : State} {c : MailboxCall}
    (hfatal : s.fatal = false) (hfw : s.fw = []) (hc : call s = c) : Waits (mailboxNoting note call k) s (s.wmb.postCall c) := by
  have hissue : mailboxIssue call s = .ok 1 (s.wmb.postCall c) := by rw [mailboxIssue, hfatal, hc]; rfl
  refine .act hissue ?_
  rw [if_neg Nat.one_ne_zero]
  exact .here (by simp only [mailboxAnswer, State.postCall_fw, State.wmb_fw, hfw])

theorem waits_precond {b : Bool} {bad : Option Nat} {k : Prog} {s w : State} (hst : s.started = true) (hf : s.fatal = false)
    (hw : Waits k s w) : Waits (precond b bad k) s w :=
  (Open.precond (.hole 0)).waits (k := fun _ => k) (fun _ _ => runs_precond hst fun h => absurd (h.symm.trans hf) nofun) hw

/-! ### Commands that wait -/

/-- A command of a requester that can issue, where its program waits. -/
theorem State.ready.runCmd_waits {i : Instr} {p : Operands → Prog} {s w : State} {P : State → Prop} (hs : s.ready)
    (hi : s.issueFaults i = false) (hw : Waits (p s.me.op) (s.beginCmd i) w) (hP : ∀ log, P (w.park log)) :
    RunsTo (runCmd i p s) P := by
  obtain ⟨-, hcmd, hslice⟩ := hs
  obtain ⟨log, hrun⟩ := hw.run []
  refine ⟨w.park log, ?_, hP log⟩
  simp [runCmd, hi, runOn, hcmd, hslice, hrun]

/-- An instruction, issued in `s`, waits: it is the agent's command in progress, and but for the agents the state is `u`. -/
def WaitsIn (i : Instr) (s u : State) : Prop :=
  RunsTo (exec i s) fun t => t.me.cmd = some i ∧ t = { u with agents := t.agents }

theorem State.ready.waitsIn {i : Instr} {p : Operands → Prog} {s u w : State} (hs : s.ready) (hexec : exec i s = runCmd i p s)
    (hi : s.issueFaults i = false) (hw : Waits (p s.me.op) (s.beginCmd i) w) (hcmd : w.me.cmd = some i)
    (hu : w = { u with agents := w.agents }) : WaitsIn i s u := by
  rw [WaitsIn, hexec]
  refine hs.runCmd_waits hi hw fun log => ⟨by simp [hcmd], ?_⟩
  calc w.park log = { w with agents := (w.park log).agents } := rfl
    _ = { u with agents := (w.park log).agents } := by rw [hu]

theorem State.quietStart.notFatal {s : State} (hs : s.quietStart) : s.fatal = false := by
  obtain ⟨-, -, hfatal⟩ := hs
  exact hfatal

/-- As `State.ready.waitsIn`, of an agent that is alone. -/
theorem State.quietStart.waitsIn {i : Instr} {p : Operands → Prog} {s u w : State} (hs : s.quietStart)
    (hexec : exec i s = Machine.runCmd i p s) (hw : Waits (p s.me.op) (s.beginCmd i) w) (hcmd : w.me.cmd = some i)
    (hu : w = { u with agents := w.agents }) : WaitsIn i s u := by
  obtain ⟨⟨hready, halone, -⟩, -⟩ := hs
  exact hready.waitsIn hexec (halone.mayIssue i) hw hcmd hu

end Sys2Proof.Machine
end

section
/-! SUPPORT. Commands that wait for a lock (R350, R346, R432): the lock of the object a command works on, or of the shard of its handle. -/

namespace Sys2Proof.Machine

open Sys2Proof

variable {i : Instr} {op : Operands} {kind : Kind} {h : Handle} {s : State} {b : Nat}

/-- An instruction that is no `DEVICE_STOP` may be issued where none runs and no object it names is being destroyed (R430, R441). -/
theorem issueFaults_of_named (hstop : s.stopInProgress = false) (hi : i ≠ .deviceStop)
    (hd : ∀ g ∈ namedHandles i s.me.op, s.beingDestroyed g = false) : s.issueFaults i = false := by
  have hany : (namedHandles i s.me.op).any s.beingDestroyed = false := List.any_eq_false.mpr fun g hg => by simp [hd g hg]
  simp [State.issueFaults, State.overlapsStop, hstop, hi, hany]

/-! ### The lock of a shard (R346) -/

/-- A command that resolves a handle first waits for the lock of the handle's shard. -/
theorem ResolvesFirst.waits (hi : ResolvesFirst i s.me.op kind h) (hs : s.ready) (hissue : s.issueFaults i = false)
    (hstarted : s.started = true) (hfatal : s.fatal = false) (hr : h.index.toNat < Config.entries s.cfg kind)
    (hx : s.holder (s.shardLock kind h.index.toNat) = some b) (hb : b ≠ s.cur) :
    WaitsIn i s s := by
  obtain ⟨p, _, bad, act, k, hexec, hp, -⟩ := hi
  refine hs.waitsIn (hexec s) hissue (w := s.beginCmd i) ?_ (by simp) rfl
  rw [hp]
  exact waits_precond hstarted hfatal (waits_resolveBy (s := s.beginCmd i) hr hx hb)

theorem namedHandles_qp (hi : i ∈ [.modifyQp, .queryQp, .destroyQp, .postSend, .postRecv]) :
    i ≠ .deviceStop ∧ ∀ g ∈ namedHandles i op, g = op.qp := by
  simp only [List.mem_cons, List.not_mem_nil, or_false] at hi
  rcases hi with rfl | rfl | rfl | rfl | rfl <;> simp [namedHandles]

theorem namedHandles_cq (hi : i ∈ [.pollCq, .reqNotifyCq false, .reqNotifyCq true, .destroyCq]) :
    i ≠ .deviceStop ∧ ∀ g ∈ namedHandles i op, g = op.cq := by
  simp only [List.mem_cons, List.not_mem_nil, or_false] at hi
  rcases hi with rfl | rfl | rfl | rfl <;> simp [namedHandles]

theorem namedHandles_srq (hi : i ∈ [.postSrqRecv, .destroySrq]) :
    i ≠ .deviceStop ∧ ∀ g ∈ namedHandles i op, g = srqOperand op := by
  simp only [List.mem_cons, List.not_mem_nil, or_false] at hi
  rcases hi with rfl | rfl
  · exact ⟨nofun, fun g hg => (srqOperand_some (Option.mem_toList.mp hg)).symm⟩
  · exact ⟨nofun, nofun⟩

/-! ### The lock of an object (R350) -/

/-- With the operands `op`, an instruction names one object, that of the handle `h`, which it resolves first; then it takes the lock `L`
gives for the object. -/
def LocksFirst (i : Instr) (op : Operands) (kind : Kind) (h : Handle) (L : Nat → Lock) : Prop :=
  namedHandles i op = [h] ∧ ∃ (p : Operands → Prog) (b : Bool) (bad : Option Nat) (fail : Prog) (k : Nat → Prog),
    (∀ s, exec i s = runCmd i p s) ∧ p op = precond b bad (resolve kind h true fail fun o => acquire (L o) (k o))

/-- Such a command waits for the lock of its object. -/
theorem LocksFirst.waits {L : Nat → Lock} {o : Nat} (hi : LocksFirst i s.me.op kind h L) (hstop : i ≠ .deviceStop) (hs : s.ready)
    (hno : s.stopInProgress = false) (hstarted : s.started = true) (hfatal : s.fatal = false)
    (hfree : ∀ k sh, s.holder (.shard k sh) = none) (hn : s.names kind h o) (hd : s.beingDestroyed h = false)
    (hx : s.holder (L o) = some b) (hb : b ≠ s.cur) :
    WaitsIn i s s := by
  obtain ⟨hnamed, p, _, bad, fail, k, hexec, hp⟩ := hi
  have hissue : s.issueFaults i = false := issueFaults_of_named hno hstop (by simpa [hnamed] using hd)
  refine hs.waitsIn (hexec s) hissue (w := (s.beginCmd i).noteUse true h) ?_ (by simp [State.noteUse]) rfl
  rw [hp]
  refine waits_precond hstarted hfatal ((Open.resolve fun o => .hole o).waits (k := fun o => acquire (L o) (k o)) (fun _ _ =>
    runs_resolve_found (s := s.beginCmd i) hn.1 hn.2 (fun _ => by simp) (hfree ..)) (waits_acquire hx hb))

theorem locksFirst_post {e : Instr × Lock} {q : Nat}
    (he : e ∈ [(Instr.postSend, Lock.sq q), (.postRecv, .rq q), (.modifyQp, .mlock q), (.queryQp, .mlock q), (.wrReserved7, .sq q)]
        ++ wrRows.map (fun e => (e.1, .sq q))) :
    e.1 ≠ .deviceStop ∧ ∃ L, LocksFirst e.1 op .qp op.qp L ∧ L q = e.2 := by
  simp only [wrRows, List.map_cons, List.map_nil, List.cons_append, List.nil_append, List.mem_cons, List.not_mem_nil, or_false] at he
  rcases he with rfl | rfl | rfl | rfl | rfl | rfl | rfl | rfl | rfl | rfl | rfl | rfl
  · exact ⟨nofun, .sq, ⟨rfl, postSendProg, _, _, _, _, fun _ => rfl, rfl⟩, rfl⟩
  · exact ⟨nofun, .rq, ⟨rfl, postRecvProg, _, _, _, _, fun _ => rfl, rfl⟩, rfl⟩
  · exact ⟨nofun, .mlock, ⟨rfl, modifyQpProg, _, _, _, _, fun _ => rfl, rfl⟩, rfl⟩
  · exact ⟨nofun, .mlock, ⟨rfl, queryQpProg, _, _, _, _, fun _ => rfl, rfl⟩, rfl⟩
  all_goals exact ⟨nofun, .sq, ⟨rfl, wrProg _, _, _, _, _, fun _ => rfl, rfl⟩, rfl⟩

theorem namedHandles_cqeRow (hrow : cqeRow i = true) : namedHandles i op = [op.cq] := by
  revert hrow
  cases i <;> simp [cqeRow, namedHandles]

theorem locksFirst_cq (hi : i = .pollCq ∨ cqeRow i = true ∨ ∃ sol, i = .reqNotifyCq sol) :
    i ≠ .deviceStop ∧ LocksFirst i op .cq op.cq .cq := by
  obtain rfl | hrow | ⟨sol, rfl⟩ := hi
  · exact ⟨nofun, rfl, pollCqProg, _, _, _, _, fun _ => rfl, rfl⟩
  · exact ⟨fun h => by simp [h, cqeRow] at hrow, namedHandles_cqeRow hrow, cqeProg i, _, _, _, _, exec_cqeRow hrow, rfl⟩
  · exact ⟨nofun, rfl, reqNotifyCqProg sol, _, _, _, _, fun _ => rfl, rfl⟩

theorem locksFirst_srq (hop : op.srq = some h) : LocksFirst .postSrqRecv op .srq h .srq :=
  ⟨by rw [namedHandles, hop]; rfl, postSrqRecvProg, _, _, _, _, fun _ => rfl, by rw [← srqOperand_some hop]; rfl⟩

end Sys2Proof.Machine
end

section
/-! SUPPORT. Commands that wait for the firmware (R420, R432), and a `DESTROY_QP` that waits for the references to its QP (R348). -/

namespace Sys2Proof.Machine

open Sys2Proof

variable {i : Instr} {s : State}

/-! ### `MODIFY_QP` and `QUERY_QP` (R161, R180) -/

section

variable {q : Nat} {x : Qp}

/-- A command on a QP waits where it does after it has taken the QP's `mlock`. -/
theorem waits_qpLocked {b : Bool} {bad : Option Nat} {fail : Prog} {k : Nat → Prog} {w : State} (hs : s.quietStart)
    (hn : s.names .qp s.me.op.qp q) (hw : Waits (k q) (s.qpCmd i q {} []) w) :
    Waits (precond b bad <| resolve .qp s.me.op.qp true fail fun q => acquire (.mlock q) <| k q) (s.beginCmd i) w := by
  obtain ⟨⟨-, -, hu⟩, hstarted, hfatal⟩ := hs
  exact (Open.precond (.resolve fun o => .acquire (.hole o))).waits (fun k _ => runs_qpLocked (k := k) hu hstarted hfatal hn ..) hw

theorem query_waitsIn (hs : s.quietStart) (hfw : s.fw = []) (hn : s.names .qp s.me.op.qp q) (hx : s.qp? q = some x) :
    WaitsIn .queryQp s { s.wmb.postCall (.queryQp x.qpn) with locks := [(.mlock q, s.cur)] } := by
  have hcall : MailboxCall.queryQp (BitVec.ofNat 24 ((s.qpCmd .queryQp q {} []).qpnOf q)) = .queryQp x.qpn := by
    have hx' : (s.qpCmd .queryQp q {} []).qp? q = some x := hx
    simp [State.qpnOf, hx']
  exact hs.waitsIn (p := queryQpProg) rfl (waits_qpLocked hs hn (waits_mailboxNoting hs.notFatal hfw hcall)) (by simp) rfl

theorem modify_waitsIn {tr : Transition} (hs : s.quietStart) (hfw : s.fw = []) (hn : s.names .qp s.me.op.qp q)
    (hx : s.qp? q = some x) (he : modifyError s.cfg x s.me.op = none)
    (htr : transitionOf (curState x s.me.op) (newState x s.me.op) = some tr) :
    WaitsIn .modifyQp s { s.wmb.postCall (.modifyQp tr x.qpn (some (contextImage s.cfg x tr (newState x s.me.op) s.me.op))) with
      locks := [(.mlock q, s.cur)] } := by
  have hx' : (s.qpCmd .modifyQp q {} []).qp? q = some x := hx
  have hcheck : modifyCheckAct q s.me.op (s.qpCmd .modifyQp q {} []) =
      .ok (8 + 8 * qpStateCode (curState x s.me.op) + qpStateCode (newState x s.me.op)) (s.qpCmd .modifyQp q {} []) := by
    have hcfg : (s.qpCmd .modifyQp q {} []).cfg = s.cfg := rfl
    rw [modifyCheckAct, withQp_eq hx', hcfg, he]
  have hcall : modifyCall q (curState x s.me.op) (newState x s.me.op) s.me.op (s.qpCmd .modifyQp q {} []) =
      .modifyQp tr x.qpn (some (contextImage s.cfg x tr (newState x s.me.op) s.me.op)) := by
    simp only [modifyCall, hx', htr]
    rfl
  refine hs.waitsIn (p := modifyQpProg)
    (w := (s.qpCmd .modifyQp q {} []).wmb.postCall
      (.modifyQp tr x.qpn (some (contextImage s.cfg x tr (newState x s.me.op) s.me.op))))
    rfl (waits_qpLocked hs hn (.act hcheck ?_)) (by simp) rfl
  simp only [code_roundtrip]
  rw [if_neg (by omega), if_neg (by omega), if_neg (by omega), if_neg (by omega)]
  exact waits_mailboxNoting hs.notFatal hfw hcall

end

/-! ### `DESTROY_CQ` and `DESTROY_SRQ` (R315, R378) -/

/-- A destroy of a CQ or an SRQ that nothing is attached to waits where it does after it has removed the entry. -/
theorem waits_destroyRemoved {kind : Kind} {h : Handle} {o : Nat} {fail : Prog} {fin : Status → Prog} {k : Nat → Prog} {w : State}
    (hs : s.quietStart) (hn : s.names kind h o) (ha : s.attachOf kind o = 0)
    (hw : Waits (k o) ((s.beginCmd i).dropEntry kind h) w) :
    Waits (precond false none <| resolve kind h false fail fun o => removeUnattached kind h fin <| k o) (s.beginCmd i) w := by
  obtain ⟨⟨-, halone, hu⟩, hstarted, -⟩ := hs
  have hfree : ∀ x, (s.beginCmd i).holder x = none := (hu.begin _).holder
  have ha' : (s.beginCmd i).attachOf kind o = 0 := by cases kind <;> exact ha
  refine (Open.precond (.resolve fun o => .removeUnattached (.hole o))).waits (fun k _ => ?_) hw
  rw [runs_precond (s := s.beginCmd i) hstarted (fun _ => rfl),
    runs_resolve_found (s := s.beginCmd i) (use := false) hn.1 hn.2 nofun (hfree _), State.noteUse, if_neg Bool.false_ne_true,
    runs_removeUnattached (s := s.beginCmd i) hn.1 ha' ((halone.begin _).used _) (hfree _)]

theorem destroyCq_waitsIn {c : Nat} {y : Cq} (hs : s.quietStart) (hfw : s.fw = []) (hn : s.names .cq s.me.op.cq c)
    (hy : s.cq? c = some y) (ha : y.attach = 0) :
    WaitsIn .destroyCq s { s.wmb.postCall (.hw2swCq y.cqn) with
      cqTable := s.cqTable.set s.me.op.cq.index.toNat { gen := s.me.op.cq.gen + 1, occ := none } } := by
  have hcount : s.attachOf .cq c = 0 := by rw [State.attachOf, hy, Option.map_some, ha]; rfl
  have hcall : MailboxCall.hw2swCq (((((s.beginCmd .destroyCq).dropEntry .cq s.me.op.cq).cq? c).map (·.cqn)).getD 0) =
      .hw2swCq y.cqn := by
    have hy' : ((s.beginCmd .destroyCq).dropEntry .cq s.me.op.cq).cq? c = some y := hy
    rw [hy']
    rfl
  exact hs.waitsIn (p := destroyCqProg) rfl (waits_destroyRemoved hs hn hcount (waits_mailboxNoting hs.notFatal hfw hcall))
    (by simp [State.dropEntry]) rfl

theorem destroySrq_waitsIn {h : Handle} {r : Nat} {y : Srq} (hs : s.quietStart) (hfw : s.fw = []) (hop : s.me.op.srq = some h)
    (hn : s.names .srq h r) (hy : s.srq? r = some y) (ha : y.attach = 0) :
    WaitsIn .destroySrq s { s.wmb.postCall (.hw2swSrq y.srqn) with
      srqTable := s.srqTable.set h.index.toNat { gen := h.gen + 1, occ := none } } := by
  obtain rfl := srqOperand_some hop
  have hcount : s.attachOf .srq r = 0 := by rw [State.attachOf, hy, Option.map_some, ha]; rfl
  have hcall : MailboxCall.hw2swSrq
      (((((s.beginCmd .destroySrq).dropEntry .srq (srqOperand s.me.op)).srq? r).map (·.srqn)).getD 0) = .hw2swSrq y.srqn := by
    have hy' : ((s.beginCmd .destroySrq).dropEntry .srq (srqOperand s.me.op)).srq? r = some y := hy
    rw [hy']
    rfl
  exact hs.waitsIn (p := destroySrqProg) rfl (waits_destroyRemoved hs hn hcount (waits_mailboxNoting hs.notFatal hfw hcall))
    (by simp [State.dropEntry]) rfl

/-! ### `DESTROY_QP` (R182, R348) -/

section

variable {q c1 c2 : Nat} {x : Qp}

/-- The state of a `DESTROY_QP` that has removed the entry of its handle. -/
def State.removedQp (s : State) : State := (s.beginCmd .destroyQp).dropEntry .qp s.me.op.qp

/-- What a `DESTROY_QP` does once it has removed the entry of its QP (R182). -/
def destroyQpRest (q : Nat) : Prog :=
  waitFor (fun s => s.noRefs q) <| acquire (.mlock q) <| finalReset q true <| cleanBoth q <| destroyQpEnd q

/-- A `DESTROY_QP` waits where it does after it has removed the QP's entry. -/
theorem waits_destroyQp {w : State} (hs : s.quietStart) (hn : s.names .qp s.me.op.qp q) (hx : s.qp? q = some x)
    (h1 : s.names .cq x.sendCq c1) (h2 : s.names .cq x.recvCq c2) (hd : x.sendCq ≠ x.recvCq → c1 ≠ c2)
    (hw : Waits (destroyQpRest q) s.removedQp w) : Waits (destroyQpProg s.me.op) (s.beginCmd .destroyQp) w := by
  obtain ⟨⟨-, halone, hu⟩, hstarted, -⟩ := hs
  rw [destroyQpProg_eq]
  refine (Open.precond (.resolveBy fun q => .removeQpLocked fun _ => .ite (.fixed _) (.hole q))).waits (k := destroyQpRest)
    (fun k _ => ?_) hw
  rw [runs_precond (s := s.beginCmd .destroyQp) hstarted (fun _ => rfl),
    runs_resolveDestroy_found (halone.begin _) hn.1 hn.2 ((hu.begin _).holder _),
    runs_removeQpLocked (s := s.beginCmd .destroyQp) hu hx h1 h2 hd hn.1 ((halone.begin _).used _), if_neg Nat.one_ne_zero,
    State.removedQp]

theorem removedQp_noRefs (hx : s.qp? q = some x) : s.removedQp.noRefs q = decide (x.refcount = 0) := by
  have hx' : s.removedQp.qp? q = some x := hx
  rw [State.noRefs, hx']
  rfl

theorem destroyQp_waitsIn_refs (hs : s.quietStart) (hn : s.names .qp s.me.op.qp q) (hx : s.qp? q = some x)
    (h1 : s.names .cq x.sendCq c1) (h2 : s.names .cq x.recvCq c2) (hd : x.sendCq ≠ x.recvCq → c1 ≠ c2) (href : x.refcount ≠ 0) :
    WaitsIn .destroyQp s
      { s with qpTable := s.qpTable.set s.me.op.qp.index.toNat { gen := s.me.op.qp.gen + 1, occ := none } } :=
  hs.waitsIn (p := destroyQpProg) rfl
    (waits_destroyQp hs hn hx h1 h2 hd (waits_waitFor ((removedQp_noRefs hx).trans (decide_eq_false href))))
    (by simp [State.removedQp, State.dropEntry]) rfl

theorem destroyQp_waitsIn_reset (hs : s.quietStart) (hn : s.names .qp s.me.op.qp q) (hx : s.qp? q = some x)
    (h1 : s.names .cq x.sendCq c1) (h2 : s.names .cq x.recvCq c2) (hd : x.sendCq ≠ x.recvCq → c1 ≠ c2) (href : x.refcount = 0)
    (hstate : x.state ≠ .reset) (hfw : s.fw = []) :
    WaitsIn .destroyQp s { s.wmb.postCall (.modifyQp .any2rst x.qpn none) with
      qpTable := s.qpTable.set s.me.op.qp.index.toNat { gen := s.me.op.qp.gen + 1, occ := none }, locks := [(.mlock q, s.cur)] } := by
  have hlocks : s.removedQp.locks = [] := (State.dropEntry_locks ..).trans hs.locks
  have hx' : s.removedQp.qp? q = some x := hx
  have hwait (k : Prog) : Waits (finalReset q true k) (s.removedQp.setLocks ((.mlock q, s.cur) :: s.removedQp.locks))
      ((s.removedQp.setLocks [(.mlock q, s.cur)]).wmb.postCall (.modifyQp .any2rst x.qpn none)) := by
    rw [hlocks]
    refine waits_ask ?_
    simp only [State.setLocks_qpOf, hx', Option.map_some, Option.getD_some, if_neg hstate, if_neg Nat.zero_ne_one]
    exact waits_mailboxNoting hs.notFatal hfw (by simp [State.qpnOf, hx'])
  exact hs.waitsIn (p := destroyQpProg) rfl
    (waits_destroyQp hs hn hx h1 h2 hd (waits_waitFor_ok ((removedQp_noRefs hx).trans (decide_eq_true href))
      (waits_acquire_free (State.unlocked.holder hlocks _) (hwait _))))
    (by simp [State.removedQp, State.dropEntry]) rfl

end

end Sys2Proof.Machine
end

section
/-! SUPPORT. `CREATE_CQ` and `CREATE_SRQ` that wait for the firmware (R292, R372, R420): what they share up to their call, and that no
other call has gone out before it. -/

namespace Sys2Proof.Machine

open Sys2Proof

variable {s t u : State}

/-! ### Writes that make no call -/

/-- `t` is `s` but for memory and the bus, on which no call of the mailbox port has come. -/
def Uncalled (s t : State) : Prop := ∃ m l, t = (s.setMem m).setBus l ∧ (s.setBus l).calls = s.calls

theorem Uncalled.refl (s : State) : Uncalled s s := ⟨s.mem, s.bus, rfl, rfl⟩

theorem Uncalled.trans (h : Uncalled s t) (h' : Uncalled t u) : Uncalled s u := by
  obtain ⟨m, l, rfl, hcalls⟩ := h
  obtain ⟨m', l', rfl, hcalls'⟩ := h'
  exact ⟨m', l', rfl, hcalls'.trans hcalls⟩

theorem Uncalled.keeps (h : Uncalled s t) : t.locks = s.locks ∧ t.fatal = s.fatal ∧ t.fw = s.fw ∧ t.calls = s.calls ∧ t.me = s.me := by
  obtain ⟨m, l, rfl, hcalls⟩ := h
  exact ⟨rfl, rfl, rfl, hcalls, rfl⟩

theorem Uncalled.cqOf (h : Uncalled s t) (c : Nat) : t.cq? c = s.cq? c := by
  obtain ⟨m, l, rfl, -⟩ := h
  rfl

theorem Uncalled.srqOf (h : Uncalled s t) (r : Nat) : t.srq? r = s.srq? r := by
  obtain ⟨m, l, rfl, -⟩ := h
  rfl

theorem State.park_calls (s : State) (log : List Nat) : (s.park log).calls = s.calls := rfl

theorem State.postCall_calls (s : State) (c : MailboxCall) : (s.wmb.postCall c).calls = c :: s.calls := rfl

theorem uncalled_memWrite (s : State) (a n v : Nat) : Uncalled s (s.memWrite a n v) := ⟨_, _, rfl, rfl⟩

theorem uncalled_wmb (s : State) : Uncalled s s.wmb := ⟨s.mem, _, rfl, rfl⟩

theorem uncalled_fill (s : State) (a n : Nat) (v : Byte) : Uncalled s (s.fill a n v) := ⟨_, _, rfl, rfl⟩

theorem uncalled_initRec (s : State) (r w0 w1 : Nat) : Uncalled s (s.initRec r w0 w1) :=
  ((uncalled_wmb s).trans (uncalled_memWrite ..)).trans ((uncalled_wmb _).trans (uncalled_memWrite ..))

theorem uncalled_initRecs (rs : List Nat) (spec : List (BitVec 3 × Num24)) (s : State) : Uncalled s (initRecs rs spec s) := by
  induction rs generalizing spec s with
  | nil => cases spec <;> exact .refl s
  | cons r rs ih =>
    cases spec with
    | nil => exact .refl s
    | cons e spec => exact (uncalled_initRec s r 0 (recWord1 e.1 e.2)).trans (ih ..)

theorem uncalled_initOwners (s : State) (a n : Nat) : Uncalled s (initOwners s a n) := by
  induction n generalizing s a with
  | zero => exact .refl s
  | succ n ih => exact (uncalled_memWrite ..).trans (ih ..)

/-! ### A create up to its call -/

/-- The state in which an instruction of the current agent has taken some doorbell records; memory and the bus are given. -/
def State.taken (s : State) (i : Instr) (recs : List Nat) (m : List Host.Cell) (l : List BusEvent) : State :=
  (s.tookThese recs m l).setMe { op := s.me.op, cmd := some i, recs := recs }

@[simp] theorem State.taken_me (i : Instr) (recs : List Nat) (m : List Host.Cell) (l : List BusEvent) :
    (s.taken i recs m l).me = { op := s.me.op, cmd := some i, recs := recs } := by simp [State.taken]

/-- The allocation of the records of a create (R256), in both modes, makes no call. -/
theorem runs_allocRecs_uncalled {spec : List (BitVec 3 × Num24)} {recs : List Nat} (i : Instr)
    (hr : s.takesRecs spec.length recs) (hu : s.unlocked) :
    ∃ m l, (s.setBus l).calls = s.calls
      ∧ ∀ k t, Runs (allocRecs spec k) (s.beginCmd i) t ↔ Runs k (s.taken i recs m l) t := by
  obtain ⟨hm, rfl⟩ | ⟨hm, hn, rfl⟩ := hr
  · exact ⟨s.mem, s.bus, rfl, fun k t => runs_allocRecs_legacy (s := s.beginCmd i) hm⟩
  · obtain ⟨m, l, hinit, hcalls⟩ := uncalled_initRecs (lowestFree s.dbRecUsed spec.length) spec
      (s.taken i (lowestFree s.dbRecUsed spec.length) s.mem s.bus)
    have htook : (s.beginCmd i).tookRecs spec = s.taken i (lowestFree s.dbRecUsed spec.length) m l := by
      calc (s.beginCmd i).tookRecs spec
          = initRecs (lowestFree s.dbRecUsed spec.length) spec (s.taken i (lowestFree s.dbRecUsed spec.length) s.mem s.bus) := by
            rw [State.tookRecs]
            congr 1
            ext1 <;> simp [State.taken, State.tookThese, lowestFree_length]
        _ = s.taken i (lowestFree s.dbRecUsed spec.length) m l := hinit
    refine ⟨m, l, hcalls, fun k t => ?_⟩
    rw [runs_allocRecs_memfree (s := s.beginCmd i) hm hn ((hu.begin i).holder _), htook]

/-- What makes a create of a CQ or an SRQ: its checks, its buffer and doorbell records, the entry and the object it makes, the first
contents of the object's buffer, its call of the firmware and what it does after that. -/
structure CreatePlan where
  bad : State → Bool
  buf : State → Nat × Nat
  spec : List (BitVec 3 × Num24)
  kind : Kind
  num : Num24
  make : State → Handle → Nat → State
  busy : Prog
  init : Nat → State → ActRes
  call : Nat → State → MailboxCall
  rest : Nat → Nat → Prog

namespace CreatePlan

/-- The create up to the insert of its object. -/
def upTo (C : CreatePlan) (k : Nat → Prog) : Prog :=
  precond true none <| ask (fun s => if C.bad s then 1 else 0) fun bad =>
  if bad = 1 then raise .outOfRange
  else
    guard (fun s => s.bufferOk (C.buf s)) .badBuffer <| allocRecs C.spec <| insert C.kind C.num C.buf C.make C.busy k

def prog (C : CreatePlan) : Prog := C.upTo fun o => .act (C.init o) fun _ => mailbox (C.call o) (C.rest o)

/-- The buffer depends on parameters and mode only, and the object goes to its arena: what a create waits on and what tells of calls
stays as it is. -/
structure Wf (C : CreatePlan) : Prop where
  buf : ∀ s u : State, u.cfg = s.cfg → u.mode = s.mode → C.buf u = C.buf s
  setLocks : ∀ u h o l, C.make (State.setLocks u l) h o = (C.make u h o).setLocks l
  frame : ∀ u h o, ∃ cqs srqs, C.make u h o = { u with cqs := cqs, srqs := srqs }

variable {C : CreatePlan} {i : Instr} {recs : List Nat} {c : MailboxCall}

/-- The insert of a create's object leaves what a create waits on and what tells of its calls. -/
theorem inserted_keeps (hC : C.Wf) (s : State) :
    let v := s.inserted C.kind C.num C.make
    v.locks = s.locks ∧ v.fatal = s.fatal ∧ v.fw = s.fw ∧ v.calls = s.calls ∧ v.me = s.me := by
  obtain ⟨cqs, srqs, hmake⟩ := hC.frame ((s.setEntry C.kind (s.indexOf C.kind C.num)
      { gen := (s.entry C.kind (s.indexOf C.kind C.num)).gen, occ := some { num := C.num, obj := s.nextObj } }).setNextObj (s.nextObj + 1))
    (s.freshHandle C.kind C.num) s.nextObj
  have hplaced : s.inserted C.kind C.num C.make = _ := hmake
  rw [hplaced]
  cases C.kind <;> exact ⟨rfl, rfl, rfl, rfl, rfl⟩

theorem runs_upTo (hC : C.Wf) (hs : s.quietStart) (hbad : C.bad (s.beginCmd i) = false) (hb : s.bufferOk (C.buf s) = true)
    (hrecs : s.takesRecs C.spec.length recs) (hins : s.canInsert C.kind C.num) :
    ∃ m l, (s.setBus l).calls = s.calls
      ∧ ∀ k t, Runs (C.upTo k) (s.beginCmd i) t ↔ Runs (k s.nextObj) ((s.taken i recs m l).inserted C.kind C.num C.make) t := by
  obtain ⟨⟨-, -, hu⟩, hstarted, hfatal⟩ := hs
  obtain ⟨hempty, -, -, hnext⟩ := hins
  obtain ⟨m, l, hcalls, halloc⟩ := runs_allocRecs_uncalled i hrecs hu
  refine ⟨m, l, hcalls, fun k t => ?_⟩
  have hok : (s.beginCmd i).bufferOk (C.buf (s.beginCmd i)) = true := by
    rw [hC.buf s (s.beginCmd i) rfl rfl]
    exact hb
  have hok' : (s.taken i recs m l).bufferOk (C.buf (s.taken i recs m l)) = true := by
    rw [hC.buf s (s.taken i recs m l) rfl rfl]
    exact hb
  have hempty' : ((s.taken i recs m l).entry C.kind ((s.taken i recs m l).indexOf C.kind C.num)).occ = none := by
    rw [← hempty]
    cases C.kind <;> rfl
  have hframe : ∀ u h o, (C.make u h o).locks = u.locks ∧ (C.make u h o).cur = u.cur ∧ (C.make u h o).cfg = u.cfg := fun u h o => by
    obtain ⟨cqs, srqs, hmake⟩ := hC.frame u h o
    rw [hmake]
    exact ⟨rfl, rfl, rfl⟩
  rw [upTo, runs_precond (s := s.beginCmd i) hstarted (fun h => absurd (h.symm.trans hfatal) nofun), runs_ask, hbad,
    if_neg Bool.false_ne_true, if_neg Nat.zero_ne_one, runs_guard, and_iff_right hok, halloc]
  exact runs_insert hempty' hnext hok' (fun l => hC.buf _ _ rfl rfl) (State.unlocked.holder hu _) hframe hC.setLocks

/-- A create waits for the firmware's answer to its call. -/
theorem waits {p : Operands → Prog} (hC : C.Wf) (hs : s.quietStart) (hfw : s.fw = []) (hexec : exec i s = runCmd i p s)
    (hp : C.prog = p s.me.op) (hbad : C.bad (s.beginCmd i) = false) (hb : s.bufferOk (C.buf s) = true)
    (hrecs : s.takesRecs C.spec.length recs) (hins : s.canInsert C.kind C.num)
    (hinit : ∀ m l, ∃ v, C.init s.nextObj ((s.taken i recs m l).inserted C.kind C.num C.make) = .ok 0 v
      ∧ Uncalled ((s.taken i recs m l).inserted C.kind C.num C.make) v ∧ C.call s.nextObj v = c) :
    RunsTo (exec i s) fun t => t.me.cmd = some i ∧ t.locks = [] ∧ t.calls = c :: s.calls := by
  obtain ⟨m, l, hcalls, hruns⟩ := runs_upTo hC hs hbad hb hrecs hins
  obtain ⟨v, hv, huncalled, hc⟩ := hinit m l
  obtain ⟨hlocks, hfatal, hfirm, hbefore, hme⟩ := inserted_keeps hC (s.taken i recs m l)
  obtain ⟨hlocks', hfatal', hfirm', hbefore', hme'⟩ := huncalled.keeps
  obtain ⟨⟨hready, halone, hu⟩, -, hnofatal⟩ := id hs
  have hopen : Open C.upTo := .precond (.ask fun _ => .ite (.fixed _) (.guard (.allocRecs (.insert fun o => .hole o))))
  have hwait : Waits (p s.me.op) (s.beginCmd i) (v.wmb.postCall c) := hp ▸
    hopen.waits (k := fun o => .act (C.init o) fun _ => mailbox (C.call o) (C.rest o)) hruns
      (.act hv (waits_mailboxNoting (hfatal'.trans (hfatal.trans hnofatal)) (hfirm'.trans (hfirm.trans hfw)) hc))
  rw [hexec]
  refine hready.runCmd_waits (halone.mayIssue i) hwait fun log => ⟨?_, hlocks'.trans (hlocks.trans hu), ?_⟩
  · simp [hme', hme]
  · rw [State.park_calls, State.postCall_calls, hbefore', hbefore, ← hcalls]
    rfl

end CreatePlan

/-! ### The two creates -/

/-- `CREATE_CQ` (R292). -/
def createCqPlan (op : Operands) : CreatePlan where
  bad := createCqBad op
  buf := createCqBuf op
  spec := [(1, op.cqn), (5, op.cqn)]
  kind := .cq
  num := op.cqn
  make := newCq op
  busy := freeTaken 2 (raise .busy)
  init := initOwnersAct
  call := sw2hwCqCall
  rest c fw := setFwStatus fw <|
    if fw ≠ 0 then
      removeNew .cq (fun s => s.cqSelf c) <| eff (fun s => s.eraseCq c) <| freeTaken 2 <| raise .mailboxFail
    else
      eff (fun s => s.setResp fun r =>
        { r with cq := some (s.cqSelf c), capacity := some (cqCapacity op.cqDepth.toNat) }) <| respond .ok none

/-- `CREATE_SRQ` (R372). -/
def createSrqPlan (op : Operands) : CreatePlan where
  bad := createSrqBad op
  buf := createSrqBuf op
  spec := [(4, op.srqn)]
  kind := .srq
  num := op.srqn
  make := newSrq op
  busy := freeTaken 1 (raise .busy)
  init := zeroSrqAct
  call := sw2hwSrqCall
  rest r fw := setFwStatus fw <|
    if fw ≠ 0 then
      removeNew .srq (fun s => s.srqSelf r) <| eff (fun s => s.eraseSrq r) <| freeTaken 1 <| raise .mailboxFail
    else
      eff (fun s => s.setResp fun p =>
        { p with srq := some (s.srqSelf r), capacity := some (srqCapacityOf op s), shift := some (srqShiftOf op s) }) <|
      respond .ok none

theorem createCqPlan_prog (op : Operands) : (createCqPlan op).prog = createCqProg op := rfl

theorem createSrqPlan_prog (op : Operands) : (createSrqPlan op).prog = createSrqProg op := rfl

theorem createCqPlan_wf (op : Operands) : (createCqPlan op).Wf where
  buf _ _ _ _ := rfl
  setLocks _ _ _ _ := rfl
  frame _ _ _ := ⟨_, _, rfl⟩

theorem createSrqPlan_wf (op : Operands) : (createSrqPlan op).Wf where
  buf s u hcfg hmode := by
    show createSrqBuf op u = createSrqBuf op s
    simp only [createSrqBuf, srqCapacityOf, srqShiftOf, hcfg, hmode]
  setLocks _ _ _ _ := rfl
  frame _ _ _ := ⟨_, _, rfl⟩

theorem sw2hwCqCall_eq {c : Nat} {y : Cq} (hy : s.cq? c = some y) :
    sw2hwCqCall c s = .sw2hwCq y.cqn y.capacity y.bufBase y.setCiRec y.armRec := by simp only [sw2hwCqCall, hy]

theorem sw2hwSrqCall_eq {r : Nat} {y : Srq} (hy : s.srq? r = some y) :
    sw2hwSrqCall r s = .sw2hwSrq y.srqn y.capacity y.shift y.bufBase y.pd y.dbRec := by simp only [sw2hwSrqCall, hy]

theorem createCq_waits {recs : List Nat} (hs : s.quietStart) (hfw : s.fw = []) (hrecs : s.takesRecs 2 recs)
    (hbad : createCqBad s.me.op s = false) (hb : s.bufferOk (createCqBuf s.me.op s) = true) (hins : s.canInsert .cq s.me.op.cqn) :
    RunsTo (exec .createCq s) fun t => t.me.cmd = some .createCq ∧ t.locks = []
      ∧ t.calls = .sw2hwCq s.me.op.cqn (cqCapacity s.me.op.cqDepth.toNat) s.me.op.bufBase recs[0]? recs[1]? :: s.calls := by
  refine CreatePlan.waits (createCqPlan_wf s.me.op) hs hfw rfl (createCqPlan_prog _) hbad hb hrecs hins fun m l => ?_
  have hy : ((s.taken .createCq recs m l).inserted .cq s.me.op.cqn (newCq s.me.op)).cq? s.nextObj =
      some (madeCq s.me.op ((s.taken .createCq recs m l).freshHandle .cq s.me.op.cqn) recs) := by
    rw [inserted_newCq, State.taken_me]
    exact assocGet_assocSet_self ..
  have huncalled := uncalled_initOwners ((s.taken .createCq recs m l).inserted .cq s.me.op.cqn (newCq s.me.op))
    s.me.op.bufBase.toNat (cqCapacity s.me.op.cqDepth.toNat)
  exact ⟨_, withCq_eq hy _, huncalled, sw2hwCqCall_eq ((huncalled.cqOf _).trans hy)⟩

/-- The SRQ that a create makes (R45). -/
def madeSrq (op : Operands) (self : Handle) (cap sh : Nat) (recs : List Nat) : Srq :=
  { self, srqn := op.srqn, pd := op.pd, capacity := cap, shift := sh, maxGs := op.maxGs.toNat, bufBase := op.bufBase
    freeHead := some 0, freeTail := some (cap - 1), link := (List.range cap).map fun i => if i + 1 < cap then some (i + 1) else none
    lastIdx := cap - 1, outstanding := 0, counter := 0, wrid := List.replicate cap none, posted := List.replicate cap false
    dbRec := recs[0]?, attach := 0 }

theorem inserted_newSrq_srqOf (op : Operands) (s : State) : (s.inserted .srq op.srqn (newSrq op)).srq? s.nextObj =
    some (madeSrq op (s.freshHandle .srq op.srqn) (srqCapacityOf op s) (srqShiftOf op s) s.me.recs) :=
  assocGet_assocSet_self ..

theorem createSrq_waits {recs : List Nat} (hs : s.quietStart) (hfw : s.fw = []) (hrecs : s.takesRecs 1 recs)
    (hbad : createSrqBad s.me.op s = false) (hb : s.bufferOk (createSrqBuf s.me.op s) = true)
    (hins : s.canInsert .srq s.me.op.srqn) :
    RunsTo (exec .createSrq s) fun t => t.me.cmd = some .createSrq ∧ t.locks = []
      ∧ t.calls = .sw2hwSrq s.me.op.srqn (srqCapacityOf s.me.op s) (srqShiftOf s.me.op s) s.me.op.bufBase s.me.op.pd recs[0]?
        :: s.calls := by
  refine CreatePlan.waits (createSrqPlan_wf s.me.op) hs hfw rfl (createSrqPlan_prog _) hbad hb hrecs hins fun m l => ?_
  have hy := inserted_newSrq_srqOf s.me.op (s.taken .createSrq recs m l)
  have huncalled := uncalled_fill ((s.taken .createSrq recs m l).inserted .srq s.me.op.srqn (newSrq s.me.op))
    s.me.op.bufBase.toNat (srqCapacityOf s.me.op s <<< srqShiftOf s.me.op s) 0
  rw [State.taken_me] at hy
  exact ⟨_, withSrq_eq hy _, huncalled, sw2hwSrqCall_eq ((huncalled.srqOf _).trans hy)⟩

/-! ### The obligation -/

/-- Settles O59: the waits at locks, at the reference count and for the firmware, each by the lemma of its command. -/
theorem commandWaits : Obligations.CommandWaits := by
  refine ⟨fun s op b q c r h hs hop hno hstarted hfatal hb hfree => ?_,
    fun s i op kind h b hs hop hno hstarted hfatal hb hi hr hd hx => ?_,
    fun s h q c1 c2 x hs hh hn hx h1 h2 hne => ?_, fun s op hs hop hfw => ?_⟩
  · subst hop
    refine ⟨fun e he hn _ hd hx => ?_, fun i hi hn _ hd hx => ?_, fun hop hn _ hd hx => ?_⟩
    · obtain ⟨hstop, L, hlocks, hL⟩ := locksFirst_post he
      exact hlocks.waits hstop hs hno hstarted hfatal hfree hn hd (hL ▸ hx) hb
    · obtain ⟨hstop, hlocks⟩ := locksFirst_cq hi
      exact hlocks.waits hstop hs hno hstarted hfatal hfree hn hd hx hb
    · exact (locksFirst_srq hop).waits nofun hs hno hstarted hfatal hfree hn hd hx hb
  · subst hop
    have hfirst : ResolvesFirst i s.me.op kind h ∧ i ≠ .deviceStop ∧ ∀ g ∈ namedHandles i s.me.op, s.beingDestroyed g = false := by
      obtain ⟨rfl, rfl, hi⟩ | ⟨rfl, rfl, hi⟩ | ⟨rfl, hop, hi⟩ | ⟨rfl, rfl, rfl, hrecv, hsrq⟩ := hi
      · obtain ⟨hstop, hnamed⟩ := namedHandles_qp hi
        exact ⟨resolvesFirst_qp hi, hstop, fun g hg => hnamed g hg ▸ hd⟩
      · obtain ⟨hstop, hnamed⟩ := namedHandles_cq hi
        exact ⟨resolvesFirst_cq hi, hstop, fun g hg => hnamed g hg ▸ hd⟩
      · obtain rfl := srqOperand_some hop
        obtain ⟨hstop, hnamed⟩ := namedHandles_srq hi
        exact ⟨resolvesFirst_srq hi, hstop, fun g hg => hnamed g hg ▸ hd⟩
      · refine ⟨resolvesFirst_createQp, nofun, fun g hg => ?_⟩
        obtain rfl | rfl | hg : g = s.me.op.sendCq ∨ g = s.me.op.recvCq ∨ s.me.op.srq = some g := by simpa [namedHandles] using hg
        · exact hd
        · exact hrecv
        · exact hsrq g hg
    obtain ⟨hfirst, hstop, hnamed⟩ := hfirst
    exact hfirst.waits hs (issueFaults_of_named hno hstop hnamed) hstarted hfatal hr hx hb
  · subst hh
    exact ⟨destroyQp_waitsIn_refs hs hn hx h1 h2 hne, destroyQp_waitsIn_reset hs hn hx h1 h2 hne⟩
  · subst hop
    refine ⟨fun q x hn hx => ⟨query_waitsIn hs hfw hn hx, fun tr => modify_waitsIn hs hfw hn hx⟩,
      fun c y => destroyCq_waitsIn hs hfw, fun h r y => destroySrq_waitsIn hs hfw,
      fun recs cap hrecs hbad hb hins hcap => ?_, fun recs cap sh hrecs hbad hb hins hcap hsh => ?_⟩
    · subst hcap
      exact createCq_waits hs hfw hrecs hbad hb hins
    · subst hcap hsh
      exact createSrq_waits hs hfw hrecs hbad hb hins

end Sys2Proof.Machine
end

section
/-! SUPPORT. `CREATE_SRQ` (R371, R372): its records allocated, the SRQ inserted with its free list in order, its buffer zeroed, the
firmware called. -/

namespace Sys2Proof.Machine

open Sys2Proof

variable {s t : State} {op : Operands}

/-! ### The free list of a new SRQ (R45, R46) -/

/-- The links of a new SRQ lead from each slot to the next one. -/
theorem linkedFrom_range' {cap n i : Nat} (h : i + n = cap) :
    LinkedFrom ((List.range cap).map fun j => if j + 1 < cap then some (j + 1) else none) (if i < cap then some i else none)
      (List.range' i n) := by
  induction n generalizing i with
  | zero => exact if_neg (by omega)
  | succ n ih =>
    have hi : i < cap := by omega
    have hnext : ((List.range cap).map fun j => if j + 1 < cap then some (j + 1) else none).getD i none
        = if i + 1 < cap then some (i + 1) else none := by simp [List.getD, hi]
    refine ⟨if_pos hi, ?_⟩
    rw [hnext]
    exact ih (by omega)

theorem madeSrq_freeList {op : Operands} {self : Handle} {cap sh : Nat} {recs : List Nat} (hcap : 0 < cap) :
    (madeSrq op self cap sh recs).freeList = List.range cap := by
  have hlinked := linkedFrom_range' (Nat.zero_add cap)
  rw [if_pos hcap, ← List.range_eq_range'] at hlinked
  exact freeList_of_linked hlinked List.length_range.le

/-- Every ring has a slot (R201). -/
theorem ringCapacity_pos (mode : Mode) (d : Nat) : 0 < ringCapacity mode d := by
  cases mode
  · exact Nat.zero_lt_one.trans_le (le_max_right ..)
  · exact Nat.two_pow_pos _

/-! ### The run -/

/-- The state of a `CREATE_SRQ` of the current agent that has taken some doorbell records; `r` and `out` are what it has in its response
record and from the firmware. -/
def State.creatingSrq (s : State) (recs : List Nat) (r : Response) (out : List Byte) : State :=
  s.setMe { op := s.me.op, cmd := some .createSrq, recs := recs, resp := r, fwOut := out }

/-- The state in which a create has taken its records and placed its SRQ; memory and the bus are given. -/
def State.madeWithSrq (s : State) (num : Num24) (y : Srq) (recs : List Nat) (m : List Host.Cell) (l : List BusEvent) : State :=
  { s with
    srqTable := s.srqTable.set (s.indexOf .srq num)
      { gen := (s.entry .srq (s.indexOf .srq num)).gen, occ := some { num, obj := s.nextObj } }
    srqs := assocSet s.srqs s.nextObj y, nextObj := s.nextObj + 1, mem := m, bus := l
    dbRecUsed := recs.foldl insertSorted s.dbRecUsed, dbRecFree := s.dbRecFree - recs.length }

theorem inserted_newSrq (op : Operands) (s : State) : s.inserted .srq op.srqn (newSrq op) =
    { s with
      srqTable := s.srqTable.set (s.indexOf .srq op.srqn)
        { gen := (s.entry .srq (s.indexOf .srq op.srqn)).gen, occ := some { num := op.srqn, obj := s.nextObj } }
      srqs := assocSet s.srqs s.nextObj
        (madeSrq op (s.freshHandle .srq op.srqn) (srqCapacityOf op s) (srqShiftOf op s) s.me.recs)
      nextObj := s.nextObj + 1 } := rfl

/-- The SRQ that a create in `s` makes. -/
def State.srqToMake (s : State) (op : Operands) (recs : List Nat) : Srq :=
  madeSrq op (s.freshHandle .srq op.srqn) (srqCapacityOf op s) (srqShiftOf op s) recs

/-- The insert of a create that has taken its records (R344). -/
theorem runs_createSrq_insert {recs : List Nat} {m : List Host.Cell} {l : List BusEvent} {busy : Prog} {k : Nat → Prog}
    (hu : s.unlocked) (hins : s.canInsert .srq op.srqn) (hb : s.bufferOk (createSrqBuf op s) = true) :
    Runs (insert .srq op.srqn (createSrqBuf op) (newSrq op) busy k) ((s.tookThese recs m l).creatingSrq recs {} []) t ↔
      Runs (k s.nextObj) ((s.madeWithSrq op.srqn (s.srqToMake op recs) recs m l).creatingSrq recs {} []) t := by
  obtain ⟨hempty, -, -, hnext⟩ := hins
  have hrecs : ((s.tookThese recs m l).creatingSrq recs {} []).me.recs = recs := by simp [State.creatingSrq]
  refine (runs_insert (s := (s.tookThese recs m l).creatingSrq recs {} []) (kind := .srq) (num := op.srqn) (buf := createSrqBuf op)
    (make := newSrq op) hempty hnext hb (fun _ => rfl) (State.unlocked.holder hu _)
    (fun _ _ _ => ⟨rfl, rfl, rfl⟩) (fun _ _ _ _ => rfl)).trans (iff_of_eq (congrArg₂ _ ?_ rfl))
  rw [inserted_newSrq, hrecs]
  rfl

/-- The buffer of the new SRQ is zeroed (R372). -/
theorem zeroSrqAct_made {num : Num24} {y : Srq} {recs : List Nat} {m : List Host.Cell} {l : List BusEvent} :
    zeroSrqAct s.nextObj ((s.madeWithSrq num y recs m l).creatingSrq recs {} []) =
      .ok 0 ((s.madeWithSrq num y recs (memFill m y.buffer.1 y.buffer.2 0)
        (.fill s.cur y.buffer.1 y.buffer.2 0 :: l)).creatingSrq recs {} []) := by
  have hy : ((s.madeWithSrq num y recs m l).creatingSrq recs {} []).srq? s.nextObj = some y := assocGet_assocSet_self ..
  rw [zeroSrqAct, withSrq_eq hy]
  rfl

/-- The end of a create whose call the firmware has answered. -/
theorem runs_createSrq_respond {recs : List Nat} {r : Nat} {y : Srq} {out : List Byte} (hy : s.srq? r = some y) :
    Runs (eff (fun s => s.setResp fun p =>
        { p with srq := some (s.srqSelf r), capacity := some (srqCapacityOf op s), shift := some (srqShiftOf op s) }) <|
      respond .ok none) (s.creatingSrq recs { fwStatus := some 0 } out) t ↔
      t = s.ended { status := some .ok, srq := some y.self, capacity := some (srqCapacityOf op s)
                    shift := some (srqShiftOf op s), fwStatus := some 0 } := by
  have hself : (s.creatingSrq recs { fwStatus := some 0 } out).srqSelf r = y.self := by
    have hy' : (s.creatingSrq recs { fwStatus := some 0 } out).srq? r = some y := hy
    rw [State.srqSelf, hy']
    rfl
  rw [runs_eff, runs_respond, hself]
  refine iff_of_eq (congrArg (t = ·) ?_)
  ext1 <;> simp [State.ended, State.creatingSrq, srqCapacityOf, srqShiftOf]

/-- The firmware call of a create that succeeds, and the response (R372). -/
theorem runs_createSrq_call {recs : List Nat} {r : Nat} {y : Srq} {a : FwAnswer} {rest : List FwAnswer} (fail : Prog)
    (hy : s.srq? r = some y) (hfatal : s.fatal = false) (hfw : s.fw = a :: rest) (hstatus : a.status = 0) :
    Runs (mailbox (sw2hwSrqCall r) fun fw => setFwStatus fw <| if fw ≠ 0 then fail else
      eff (fun s => s.setResp fun p =>
        { p with srq := some (s.srqSelf r), capacity := some (srqCapacityOf op s), shift := some (srqShiftOf op s) }) <|
      respond .ok none) (s.creatingSrq recs {} []) t ↔
      t = State.ended { s with
          fw := rest
          bus := .mailbox s.cur (.sw2hwSrq y.srqn y.capacity y.shift y.bufBase y.pd y.dbRec) :: .wmb s.cur :: s.bus }
        { status := some .ok, srq := some y.self, capacity := some (srqCapacityOf op s), shift := some (srqShiftOf op s)
          fwStatus := some 0 } := by
  rw [runs_mailbox (s := s.creatingSrq recs {} []) hfatal hfw, runs_setFwStatus,
    sw2hwSrqCall_eq (s := s.creatingSrq recs {} []) hy, hstatus, if_neg (not_not_intro (by rfl))]
  refine Iff.trans (iff_of_eq (congrArg₂ _ ?_ rfl)) (runs_createSrq_respond (s := { s with
    fw := rest, bus := .mailbox s.cur (.sw2hwSrq y.srqn y.capacity y.shift y.bufBase y.pd y.dbRec) :: .wmb s.cur :: s.bus })
    (recs := recs) (out := a.out) hy)
  ext1 <;> simp [State.creatingSrq, State.me, State.agent]

/-- The one record of a create of an SRQ. -/
theorem State.takesRecs.eq_head {recs : List Nat} {r : Nat} (h : s.takesRecs 1 recs) (hr : r ∈ recs) : recs[0]? = some r := by
  have hlen : recs.length ≤ 1 := by
    rcases h with ⟨-, rfl⟩ | ⟨-, -, rfl⟩
    · exact Nat.zero_le 1
    · exact (lowestFree_length ..).le
  obtain ⟨k, hk, rfl⟩ := List.getElem_of_mem hr
  obtain rfl : k = 0 := by omega
  exact List.getElem?_eq_getElem hk

/-- The run of a `CREATE_SRQ` that passes its checks and whose call the firmware accepts: `m` and `l` are memory after the doorbell
record and the bus at the end. -/
theorem exec_createSrq {recs : List Nat} {a : FwAnswer} {rest : List FwAnswer} (hs : s.quietStart)
    (hbad : createSrqBad s.me.op s = false) (hb : s.bufferOk (createSrqBuf s.me.op s) = true) (hins : s.canInsert .srq s.me.op.srqn)
    (hrecs : s.takesRecs 1 recs) (hfw : s.fw = a :: rest) (hstatus : a.status = 0) (hwf : Memory.wf s.mem = true) :
    ∃ m l, Memory.wf m = true
      ∧ (∀ b, (∀ r ∈ recs, Outside b (s.recAddr r, 8)) → memGet m b = memGet s.mem b)
      ∧ (∀ r ∈ recs, (s.setMem m).memRead (s.recAddr r) 4 = 0
          ∧ (s.setMem m).memRead (s.recAddr r + 4) 4 = s.me.op.srqn.toNat * 256 + 128)
      ∧ exec .createSrq s = .next (State.ended
          { s.madeWithSrq s.me.op.srqn (s.srqToMake s.me.op recs) recs
              (memFill m (createSrqBuf s.me.op s).1 (createSrqBuf s.me.op s).2 0) l with fw := rest }
          { status := some .ok, srq := some (s.freshHandle .srq s.me.op.srqn), capacity := some (srqCapacityOf s.me.op s)
            shift := some (srqShiftOf s.me.op s), fwStatus := some 0 }) := by
  have hu : s.unlocked := hs.locks
  obtain ⟨m, l, hm, hout, hwords, halloc⟩ := runs_allocRecs (ag := { op := s.me.op, cmd := some .createSrq })
    (spec := [(4, s.me.op.srqn)]) rfl hrecs hu hwf
  let y := s.srqToMake s.me.op recs
  refine ⟨m, .mailbox s.cur (.sw2hwSrq y.srqn y.capacity y.shift y.bufBase y.pd y.dbRec) :: .wmb s.cur
      :: .fill s.cur y.buffer.1 y.buffer.2 0 :: l, hm, hout,
    fun r hr => hwords 0 r 4 s.me.op.srqn (hrecs.eq_head hr) rfl, hs.runCmd ?_⟩
  obtain ⟨-, hstarted, hfatal⟩ := hs
  have hnobad : createSrqBad s.me.op (s.beginCmd .createSrq) = false := hbad
  rw [createSrqProg, runs_precond (s := s.beginCmd .createSrq) hstarted (fun h => absurd (h.symm.trans hfatal) nofun), runs_ask, hnobad,
    if_neg Bool.false_ne_true, if_neg Nat.zero_ne_one, runs_guard]
  refine ⟨hb, (halloc ..).mpr ((runs_createSrq_insert hu hins hb).mpr ((runs_act_ok zeroSrqAct_made).mpr ?_))⟩
  exact (runs_createSrq_call (s := s.madeWithSrq s.me.op.srqn y recs (memFill m y.buffer.1 y.buffer.2 0)
    (.fill s.cur y.buffer.1 y.buffer.2 0 :: l)) _ (assocGet_assocSet_self ..) hfatal hfw hstatus).mpr rfl

/-- Settles O22: the run of `exec_createSrq`, read field by field; of memory, the fill leaves the doorbell record alone. -/
theorem createSrq : Obligations.CreateSrq := by
  intro s op cap sh recs a rest hs hop hcap hsh hdepth hgs hbytes halign hb hins hrecs hfw hstatus hwf hdisjoint
  subst hop hcap hsh
  have hbuf : createSrqBuf s.me.op s = (s.me.op.bufBase.toNat,
      ringCapacity s.mode s.me.op.srqDepth.toNat * 2 ^ slotShift s.cfg (16 + 16 * s.me.op.maxGs.toNat)) :=
    congrArg _ (Nat.shiftLeft_eq ..)
  have hbad : createSrqBad s.me.op s = false := by
    have hbase : s.me.op.bufBase.toNat % (1 <<< srqShiftOf s.me.op s) = 0 := by
      rw [Nat.one_shiftLeft]
      exact halign
    simp [createSrqBad, hbase, hdepth, hgs, recvBytes, maxWqeBytes, hbytes]
  obtain ⟨m, l, hm, hout, hwords, hexec⟩ := exec_createSrq hs hbad (hbuf ▸ hb) hins hrecs hfw hstatus hwf
  rw [hbuf] at hexec
  refine ⟨_, hexec, lookup_inserted hins rfl rfl, ⟨_, assocGet_assocSet_self .., rfl, rfl, rfl, rfl, rfl, rfl, rfl, rfl, rfl, rfl, rfl,
    rfl, rfl, rfl, rfl, rfl, rfl, madeSrq_freeList (ringCapacity_pos ..), rfl⟩, fun r hr => assocGet_assocSet_ne _ _ hr,
    fun b hb hb' => memGet_memFill_inside _ _ _ _ _ hm ⟨hb, hb'⟩, fun r hr => ?_,
    fun b hb hb' => (memGet_memFill_outside _ _ _ _ _ hb).trans (hout b hb'), rfl, rfl⟩
  have hapart := hdisjoint r hr
  obtain ⟨hzero, hword⟩ := hwords r hr
  exact ⟨(memRead_memFill_outside s 0 (by omega)).trans hzero, (memRead_memFill_outside s 0 (by omega)).trans hword⟩

end Sys2Proof.Machine
end

section
/-! SUPPORT. `DESTROY_SRQ` (R378): the entry is removed, the firmware called, the SRQ's doorbell record freed, the object erased. -/

namespace Sys2Proof.Machine

open Sys2Proof

variable {s t : State} {r : Nat} {y : Srq} {h : Handle}

/-- The state of a `DESTROY_SRQ` that has removed the entry of its handle and has the firmware's answer. -/
def State.destroyingSrq (s : State) (h : Handle) (y : Srq) (a : FwAnswer) (rest : List FwAnswer) : State :=
  { s with
    srqTable := s.srqTable.set h.index.toNat { gen := h.gen + 1, occ := none }
    bus := .mailbox s.cur (.hw2swSrq y.srqn) :: .wmb s.cur :: s.bus, fw := rest
    agents := assocSet s.agents s.cur
      { op := s.me.op, cmd := some .destroySrq, destroying := [h], resp := { fwStatus := some a.status }, fwOut := a.out } }

@[simp] theorem State.destroyingSrq_me {a : FwAnswer} {rest : List FwAnswer} : (s.destroyingSrq h y a rest).me =
    { op := s.me.op, cmd := some .destroySrq, destroying := [h], resp := { fwStatus := some a.status }, fwOut := a.out } := by
  simp [State.destroyingSrq, State.me, State.agent]

/-- The steps of a `DESTROY_SRQ` after the firmware's answer. -/
def destroySrqEnd (r : Nat) (st : Status) : Prog :=
  freeRec (fun s => (s.srq? r).bind (·.dbRec)) <| eff (fun s => (s.hold ((s.srq? r).map Srq.buffer)).eraseSrq r) <| endWith st

/-- A destroy that holds no lock ends the same way with each status. -/
theorem runs_endWith_free {st : Status} (hb : s.me.batch.cnt = 0) (hu : s.unlocked) :
    Runs (endWith st) s t ↔ t = (s.setResp fun p => { p with status := some st, badIndex := none }).endCmd := by
  unfold endWith
  split_ifs with h
  · rw [h]
    exact runs_respond
  · exact runs_raise_free hb hu.held

/-- A `DESTROY_SRQ` until the firmware has answered (R378, R349). -/
theorem runs_destroySrq_call {a : FwAnswer} {rest : List FwAnswer} (hs : s.quietStart) (hop : s.me.op.srq = some h)
    (hn : s.names .srq h r) (hy : s.srq? r = some y) (hattach : y.attach = 0) (hfw : s.fw = a :: rest) :
    Runs (destroySrqProg s.me.op) (s.beginCmd .destroySrq) t ↔
      Runs (destroySrqEnd r (if a.status = 0 then .ok else .mailboxFail)) (s.destroyingSrq h y a rest) t := by
  obtain ⟨⟨-, halone, hu⟩, hstarted, hfatal⟩ := hs
  have hfree : ∀ x, (s.beginCmd .destroySrq).holder x = none := (hu.begin _).holder
  have hcount : (s.beginCmd .destroySrq).attachOf .srq r = 0 := by
    have hy' : (s.beginCmd .destroySrq).srq? r = some y := hy
    rw [State.attachOf, hy', Option.map_some, hattach]
    rfl
  have hcall : .hw2swSrq (((((s.beginCmd .destroySrq).dropEntry .srq h).srq? r).map (·.srqn)).getD 0) = MailboxCall.hw2swSrq y.srqn := by
    have hy' : ((s.beginCmd .destroySrq).dropEntry .srq h).srq? r = some y := hy
    rw [hy']
    rfl
  have hzero : a.status.toNat = 0 ↔ a.status = 0 := BitVec.toNat_inj (y := 0)
  rw [destroySrqProg, srqOperand_some hop, runs_precond (s := s.beginCmd .destroySrq) hstarted (fun _ => rfl), destroySrqSteps,
    runs_resolve_found (s := s.beginCmd .destroySrq) (use := false) hn.1 hn.2 nofun (hfree _), State.noteUse,
    if_neg Bool.false_ne_true,
    runs_removeUnattached (s := s.beginCmd .destroySrq) hn.1 hcount ((halone.begin _).used _) (hfree _),
    runs_mailbox (s := (s.beginCmd .destroySrq).dropEntry .srq h) hfatal hfw, hcall, if_pos rfl, runs_setFwStatus]
  simp only [hzero]
  refine iff_of_eq (congrArg₂ _ ?_ rfl)
  ext1 <;> simp [State.destroyingSrq, State.dropEntry, State.emptyEntry, State.beginCmd, State.setEntry, State.setTable, State.table,
    State.me, State.agent]

/-- The run of a `DESTROY_SRQ`: `m` and `l` are memory and the bus afterwards. -/
theorem exec_destroySrq {a : FwAnswer} {rest : List FwAnswer} (hs : s.quietStart) (hop : s.me.op.srq = some h)
    (hn : s.names .srq h r) (hy : s.srq? r = some y) (hattach : y.attach = 0) (hfw : s.fw = a :: rest) :
    ∃ m l, (Memory.wf s.mem = true → ∀ p ∈ s.recsOf [y.dbRec], (s.setMem m).memRead (s.recAddr p + 4) 4 = 0)
      ∧ (∀ b, (∀ p ∈ s.recsOf [y.dbRec], Outside b (s.recAddr p + 4, 4)) → memGet m b = memGet s.mem b)
      ∧ exec .destroySrq s = .next { s with
          srqTable := s.srqTable.set h.index.toNat { gen := h.gen + 1, occ := none }
          srqs := assocDel s.srqs r, mem := m, bus := l, fw := rest
          dbRecUsed := s.dbRecUsed.filter fun p => decide (p ∉ s.recsOf [y.dbRec])
          dbRecFree := s.dbRecFree + (s.recsOf [y.dbRec]).length
          agents := assocSet s.agents s.cur
            { op := s.me.op
              resp := { status := some (if a.status = 0 then .ok else .mailboxFail), fwStatus := some a.status } } } := by
  obtain ⟨m, l, hfreed, hwords, hmem⟩ := freedRec_eq (s.destroyingSrq h y a rest) y.dbRec
  have hrecs : (s.destroyingSrq h y a rest).recsOf [y.dbRec] = s.recsOf [y.dbRec] := rfl
  rw [hrecs] at hfreed hwords hmem
  have hu : s.unlocked := hs.locks
  have hrec : ((s.destroyingSrq h y a rest).srq? r).bind (·.dbRec) = y.dbRec := by
    have hy' : (s.destroyingSrq h y a rest).srq? r = some y := hy
    rw [hy', Option.bind_some]
  refine ⟨m, .commandEnd s.cur :: l, fun hwf => (hwords hwf).2, hmem, hs.runCmd ?_⟩
  rw [runs_destroySrq_call hs hop hn hy hattach hfw, destroySrqEnd,
    runs_freeRec (s := s.destroyingSrq h y a rest) (hu.holder _) fun _ _ _ => rfl, hrec, hfreed, runs_eff]
  refine (runs_endWith_free ?_ ?_).mpr ?_
  · simp
  · exact hu
  · ext1 <;> simp [State.destroyingSrq, State.hold, State.eraseSrq, State.me, State.agent]

/-- Settles O33: the run of `exec_destroySrq`, read field by field. -/
theorem destroySrq : Obligations.DestroySrq := by
  intro s h r y a rest recs hs hop hn hy hattach hfw hrecs hwf
  subst hrecs
  obtain ⟨m, l, hwords, hmem, hexec⟩ := exec_destroySrq hs hop hn hy hattach hfw
  refine ⟨_, hexec, lookup_of_emptied (kind := .srq) rfl rfl, assocGet_assocDel_self .., fun d hd => assocGet_assocDel_ne _ hd,
    hwords hwf, hmem, rfl, rfl⟩

end Sys2Proof.Machine
end

section
/-! SUPPORT. What the post of one request does to its SRQ, its batch and the bus (R86, R222, R258, R374). -/

namespace Sys2Proof.Machine

open Sys2Proof

/-! ### The counts of an SRQ (R86, R374) -/

theorem State.setSrq_self {s : State} {r : Nat} {y : Srq} (h : s.srq? r = some y) : s.setSrq r y = s := by
  rw [State.setSrq, assocSet_of_assocGet h]

section

variable {y : Srq}

/-- An SRQ after the pop of R374 and the steps 3 to 9 of R222, for a WQE in the slot at the head of its free list. -/
def Srq.published (y : Srq) (id : BitVec 64) : Srq :=
  (({ y.pop.2 with wrid := y.wrid.set y.pop.1 (some id) }).goLive y.pop.1).advance y.pop.1

/-- An SRQ after one more WQE has been counted in `MEMFREE`, where its record covers all of them (R258, R86). -/
def Srq.recorded (y : Srq) (mode : Mode) : Srq :=
  match mode with
  | .legacy => y
  | .memfree => { y with counter := y.counter + 1 }.cover 1

/-- An SRQ after one more WQE, which in `LEGACY` the doorbell of its batch has yet to cover. -/
def Srq.queued (y : Srq) (mode : Mode) (id : BitVec 64) : Srq := (y.published id).recorded mode

theorem pop_of_empty (h : y.freeHead = none) : y.pop = (0, y) := by rw [Srq.pop, h]

/-- The pop changes the free list only. -/
theorem Srq.pop_eq (y : Srq) : ∃ head tail link, y.pop.2 = { y with freeHead := head, freeTail := tail, link := link } := by
  cases hhead : y.freeHead with
  | none => exact ⟨_, _, _, by rw [pop_of_empty hhead]⟩
  | some ind => exact ⟨_, _, _, by rw [pop_of_head hhead]⟩

/-- The pop does not look at what the device may read. -/
theorem Srq.cover_pop (y : Srq) (n : Nat) : (y.cover n).pop = (y.pop.1, y.pop.2.cover n) := by
  cases hhead : y.freeHead with
  | none => rw [pop_of_empty hhead, pop_of_empty (y := y.cover n) hhead]
  | some ind =>
    rw [pop_of_head hhead, pop_of_head (x := y.cover n) hhead]
    rfl

theorem Srq.published_live (y : Srq) (id : BitVec 64) : (y.published id).live = y.live + 1 := by
  obtain ⟨head, tail, link, hpop⟩ := y.pop_eq
  simp only [Srq.published, hpop]
  rfl

theorem Srq.published_counter (y : Srq) (id : BitVec 64) : (y.published id).counter = y.counter := by
  obtain ⟨head, tail, link, hpop⟩ := y.pop_eq
  simp only [Srq.published, hpop]
  rfl

theorem Srq.cover_published (y : Srq) (n : Nat) (id : BitVec 64) : (y.cover n).published id = (y.published id).cover n := by
  simp only [Srq.published, Srq.cover_pop]
  rfl

/-- A WQE after another one that is covered is covered with it. -/
theorem Srq.cover_cover (y : Srq) {n m : Nat} (h : n ≠ 0) (hm : n ≤ m) : (y.cover n).cover m = y.cover n := by
  have hread : ¬ (m ≠ 0 ∧ ((y.cover n).first = 0 ∨ m < (y.cover n).first)) := by
    simp only [Srq.cover]
    split_ifs <;> omega
  exact congrArg (fun first => { y.cover n with first := first }) (if_neg hread)

theorem Srq.took_legacy (y : Srq) (id : BitVec 64) : y.took .legacy id = (y.published id).cover (y.live + 1) := rfl

theorem Srq.took_memfree (y : Srq) (id : BitVec 64) : y.took .memfree id = y.queued .memfree id := by
  rw [Srq.queued, Srq.recorded, Srq.published_counter]
  rfl

/-- An SRQ after one more post, where its free list has a head. -/
theorem Srq.took_of_head {ind : Nat} (h : y.freeHead = some ind) (mode : Mode) (id : BitVec 64) : y.took mode id =
    { y with
      freeHead := y.link.getD ind none, freeTail := if y.link.getD ind none = none then none else y.freeTail
      link := y.link.set ind none, wrid := y.wrid.set ind (some id), posted := y.posted.set ind true, lastIdx := ind
      outstanding := y.outstanding + 1, live := y.live + 1, first := (y.cover (coveredFrom mode (y.live + 1))).first
      queue := y.queue ++ [(ind, y.live + 1)], counter := if mode = .memfree then y.counter + 1 else y.counter } := by
  cases mode <;> simp only [Srq.took, pop_of_head h] <;> rfl

end

/-! ### What a batch owes (R258) -/

/-- A batch in progress owes a doorbell for the SRQ `z`: once it is rung, `z` is `y`. For an empty batch, as every one in `MEMFREE` is,
`z` is that already. -/
def Batch.OwesSrq (b : Batch) (mode : Mode) (z y : Srq) : Prop :=
  if b.cnt = 0 then z = y else mode = .legacy ∧ b.num ≠ 0 ∧ b.num ≤ z.live ∧ z.cover b.num = y

namespace Batch.OwesSrq

variable {b : Batch} {mode : Mode} {y z : Srq}

theorem of_empty (hb : b.cnt = 0) : b.OwesSrq mode y y := (if_pos hb).mpr rfl

theorem eq_of_empty (h : b.OwesSrq mode z y) (hb : b.cnt = 0) : z = y := (if_pos hb).mp h

theorem of_open (h : b.OwesSrq mode z y) (hb : b.cnt ≠ 0) : mode = .legacy ∧ b.num ≠ 0 ∧ b.num ≤ z.live ∧ z.cover b.num = y :=
  (if_neg hb).mp h

/-- The two SRQs differ at most in what the device may read. -/
theorem eq_but_first (h : b.OwesSrq mode z y) : y = { z with first := y.first } := by
  by_cases hb : b.cnt = 0
  · rw [h.eq_of_empty hb]
  · obtain ⟨-, -, -, rfl⟩ := h.of_open hb
    rfl

/-- One more WQE counted in the batch. -/
theorem counted (h : b.OwesSrq mode z y) (ind size : Nat) (fence : Bool) (op : BitVec 6) (head0 : Word) (id : BitVec 64) :
    (b.counted mode false ind fence op size head0 (z.live + 1)).OwesSrq mode (z.queued mode id) (y.took mode id) := by
  cases mode with
  | memfree =>
    have hb : b.cnt = 0 := by
      by_contra hne
      obtain ⟨hmode, -⟩ := h.of_open hne
      cases hmode
    obtain rfl := h.eq_of_empty hb
    exact (if_pos hb).mpr (z.took_memfree id).symm
  | legacy =>
    have hcnt : (b.counted .legacy false ind fence op size head0 (z.live + 1)).cnt ≠ 0 := by
      rw [Batch.counted_cnt]
      exact Nat.succ_ne_zero _
    have hnum : (b.counted .legacy false ind fence op size head0 (z.live + 1)).num = if b.cnt = 0 then z.live + 1 else b.num := rfl
    have hlive := z.published_live id
    refine (if_neg hcnt).mpr ⟨rfl, ?_⟩
    rw [hnum]
    show _ ∧ _ ≤ (z.published id).live ∧ _
    by_cases hb : b.cnt = 0
    · obtain rfl := h.eq_of_empty hb
      rw [if_pos hb, hlive]
      exact ⟨Nat.succ_ne_zero _, le_rfl, rfl⟩
    · obtain ⟨-, hne, hle, rfl⟩ := h.of_open hb
      rw [if_neg hb, hlive, Srq.took_legacy, Srq.cover_published]
      exact ⟨hne, Nat.le_succ_of_le hle, (Srq.cover_cover (z.published id) hne (Nat.le_succ_of_le hle)).symm⟩

end Batch.OwesSrq

section

variable {s t : State} {i : Instr} {h : Handle} {ls : List (Lock × Nat)} {b : Batch} {m : List Host.Cell} {l : List BusEvent}
  {r ind prev size : Nat} {y z : Srq} {id : BitVec 64} {op : BitVec 6} {fence : Bool}

theorem posting_onSrq (hy : s.srq? r = some y) (f : Ring → Ring) (g : Srq → Srq) :
    (s.posting i h ls b m l).onRing (.srq r) f g = (s.setSrq r (g y)).posting i h ls b m l :=
  State.onRing_srq (s := s.posting i h ls b m l) hy f g

/-! ### The doorbell of a batch (R258) -/

/-- What the bus holds once a batch on an SRQ that is not empty has been rung. -/
def State.afterSrqBell (s : State) (y : Srq) (b : Batch) (l : List BusEvent) : List BusEvent :=
  if b.cnt = 0 then l
  else .mmio s.cur (s.regOff .recv) (doorbellWords (srqDoorbell y b)).1 (doorbellWords (srqDoorbell y b)).2 :: .wmb s.cur :: l

theorem doorbells_afterSrqBell (hc : b.cnt ≠ 0) :
    (s.setBus (s.afterSrqBell y b l)).doorbells = s.bell .recv (srqDoorbell y b) :: (s.setBus l).doorbells := by
  rw [State.afterSrqBell, if_neg hc]
  rfl

/-- The doorbell of a batch covers what the SRQ still owes. -/
theorem ringBatchAct_owesSrq (hb : b.ring = some (.srq r)) (ho : b.OwesSrq s.mode z y) (hc : b.cnt ≠ 0) :
    ringBatchAct ((s.setSrq r z).posting i h ls b m l)
      = .ok 0 ((s.setSrq r y).posting i h ls { b with cnt := 0 } m (s.afterSrqBell z b l)) := by
  obtain ⟨hmode, -, -, rfl⟩ := ho.of_open hc
  have hz : ((s.setSrq r z).posting i h ls b m l).srq? r = some z := State.setSrq_srq_self ..
  have hcovered : ∀ l', ((s.setSrq r z).posting i h ls { b with cnt := 0 } m l').rung (.srq r) b.num
      = (s.setSrq r (z.cover b.num)).posting i h ls { b with cnt := 0 } m l' := by
    intro l'
    rw [State.rung, State.posting_mode, State.setSrq_mode, hmode]
    refine (posting_onSrq (State.setSrq_srq_self ..) _ _).trans ?_
    rw [State.setSrq_setSrq]
  rw [State.afterSrqBell, if_neg hc, ← hcovered]
  simp only [ringBatchAct, State.posting_me, hb, withSrq_eq hz, posting_ring, State.posting_setBatch]
  rfl

/-- The doorbell owed at the end of a post. -/
theorem dbEndAct_owesSrq (hb : b.ring = some (.srq r)) (ho : b.OwesSrq s.mode z y) :
    ∃ b', ∀ ls, dbEndAct ((s.setSrq r z).posting i h ls b m l)
      = .ok 0 ((s.setSrq r y).posting i h ls b' m (s.afterSrqBell z b l)) := by
  by_cases hc : b.cnt = 0
  · refine ⟨b, fun ls => ?_⟩
    rw [dbEndAct_owesNone hc, State.afterSrqBell, if_pos hc, ho.eq_of_empty hc]
  · refine ⟨{ b with cnt := 0 }, fun ls => ?_⟩
    rw [dbEndAct, State.posting_me, if_neg hc]
    exact ringBatchAct_owesSrq hb ho hc

/-- The doorbell of a batch at its limit. -/
theorem dbFullAct_owesSrq (hb : b.ring = some (.srq r)) (ho : b.OwesSrq s.mode z y) (hc : b.cnt ≠ 0)
    (hfull : b.cnt = s.batchLimit (.srq r)) : dbFullAct (.srq r) ((s.setSrq r z).posting i h ls b m l)
      = .ok 0 ((s.setSrq r y).posting i h ls { b with cnt := 0 } m (s.afterSrqBell z b l)) := by
  rw [dbFullAct, State.posting_me, if_pos ⟨hc, hfull⟩]
  exact ringBatchAct_owesSrq hb ho hc

/-- After the last request the batch is rung once, at its limit or at the end. -/
theorem runs_dbFull_dbEnd_srq {p : Prog} (hb : b.ring = some (.srq r)) (ho : b.OwesSrq s.mode z y) :
    Runs (.act (dbFullAct (.srq r)) fun _ => dbEnd p) ((s.setSrq r z).posting i h ls b m l) t
      ↔ Runs (dbEnd p) ((s.setSrq r z).posting i h ls b m l) t := by
  by_cases hc : b.cnt = 0
  · rw [runs_dbNone (by simpa using hc), dbEnd, runs_act_ok (dbEndAct_owesNone hc)]
  · have hring := ringBatchAct_owesSrq (i := i) (h := h) (ls := ls) (m := m) (l := l) hb ho hc
    rw [runs_dbLast (by simpa using hc) hring (by simp), dbEnd,
      runs_act_ok (a := 0) (by rw [dbEndAct, State.posting_me, if_neg hc]; exact hring)]

/-! ### The steps of a post (R222, R258, R374) -/

theorem wridAct_srq (hy : s.srq? r = some y) : wridAct (.srq r) ind id (s.posting i h ls b m l)
    = .ok 0 ((s.setSrq r { y with wrid := y.wrid.set ind (some id) }).posting i h ls b m l) :=
  withSrq_eq (s := s.posting i h ls b m l) hy _

theorem linkAct_srq (hy : s.srq? r = some y) : linkAct (.srq r) ind prev op (s.posting i h ls b m l)
    = .ok 0 ((s.posting i h ls b m l).memWrite (y.slotAddr prev) 4 (linkWord (BitVec.ofNat 26 (y.woff ind / 64)) op).toNat) := by
  have hy' : (s.posting i h ls b m l).srq? r = some y := hy
  simp only [linkAct, State.woff, State.slotAddr, hy', Option.map_some]

theorem sizeAct_srq (hy : s.srq? r = some y) : sizeAct (.srq r) ind prev op fence size (s.posting i h ls b m l)
    = .ok 0 ((s.setSrq r (y.goLive ind)).posting i h ls b
      (memPutBytes m (y.slotAddr prev + 4) (beBytes 4 (eeNds true fence size).toNat))
      (.write s.cur (y.slotAddr prev + 4) (beBytes 4 (eeNds true fence size).toNat) :: l)) := by
  have haddr : (s.posting i h ls b m l).slotAddr (.srq r) prev = some (y.slotAddr prev) := by
    simp only [State.slotAddr, State.posting_srq, hy, Option.map_some]
  have hdbd : (s.posting i h ls b m l).dbdOf (.srq r) = true := rfl
  simp only [sizeAct, haddr, hdbd, State.memWrite, posting_writeBytes, State.goLive, posting_onSrq hy]

theorem advanceAct_srq (hy : s.srq? r = some y) : advanceAct (.srq r) ind (s.posting i h ls b m l)
    = .ok 0 ((s.setSrq r (y.advance ind)).posting i h ls b m l) :=
  withSrq_eq (s := s.posting i h ls b m l) hy _

/-- The work-request id, the link and the size of a WQE; the link's words are written last. -/
theorem runs_publishTail_srq (hm : Memory.wf m = true) (hy : s.srq? r = some y) :
    ∃ m' l', Wrote m m' (y.slotAddr prev) (beBytes 4 (linkWord (BitVec.ofNat 26 (y.woff ind / 64)) op).toNat
        ++ beBytes 4 (eeNds true fence size).toNat) ∧ Silent l l'
      ∧ ∀ p t, Runs (publishTail (.srq r) ind prev id op fence size p) (s.posting i h ls b m l) t ↔ Runs p ((s.setSrq r
          ((({ y with wrid := y.wrid.set ind (some id) }).goLive ind).advance ind)).posting i h ls b m' l') t := by
  have hlink := wrote_memPutBytes hm (y.slotAddr prev) (beBytes 4 (linkWord (BitVec.ofNat 26 (y.woff ind / 64)) op).toNat)
  have hsize := wrote_memPutBytes hlink.wf (y.slotAddr prev + 4) (beBytes 4 (eeNds true fence size).toNat)
  refine ⟨_, _, hlink.append (by rwa [beBytes_length]), (Silent.wmb l s.cur).trans
    ((Silent.write _ s.cur (y.slotAddr prev) (beBytes 4 (linkWord (BitVec.ofNat 26 (y.woff ind / 64)) op).toNat)).trans
      ((Silent.wmb _ s.cur).trans (Silent.write _ s.cur (y.slotAddr prev + 4) (beBytes 4 (eeNds true fence size).toNat)))),
    fun p t => ?_⟩
  rw [publishTail, runs_act_ok (wridAct_srq hy), runs_eff, posting_wmb, runs_act_ok (linkAct_srq (State.setSrq_srq_self ..)), runs_eff,
    State.memWrite, posting_writeBytes, posting_wmb, runs_act_ok (sizeAct_srq (State.setSrq_srq_self ..)),
    runs_act_ok (advanceAct_srq (State.setSrq_srq_self ..))]
  simp only [State.setSrq_setSrq]
  rfl

/-- The record, in `MEMFREE`, and the count: `y` is the SRQ after the steps of R222. -/
theorem dbCountAct_srq (hm : Memory.wf m = true) (hy : s.srq? r = some y) :
    ∃ m' l', Recorded m m' (s.recAddrs y.dbRec) (y.counter + 1).toNat ∧ Silent l l'
      ∧ dbCountAct (.srq r) ind fence op size (s.posting i h ls b m l) = .ok 0 ((s.setSrq r (y.recorded s.mode)).posting i h ls
          (b.counted s.mode false ind fence op size 0 y.live) m' l') := by
  have hy' : (s.posting i h ls b m l).srq? r = some y := hy
  cases hmode : s.mode with
  | legacy =>
    refine ⟨m, l, recorded_legacy hm hmode _ _, .refl l, ?_⟩
    rw [Srq.recorded, State.setSrq_self hy]
    simp only [dbCountAct, withSrq_eq hy', State.posting_mode, hmode, State.posting_me, State.posting_setBatch]
    rfl
  | memfree =>
    obtain ⟨m', l', hrun, hrec, hsilent⟩ := posting_writeRec0 (s := s.setSrq r { y with counter := y.counter + 1 }) (i := i) (h := h)
      (ls := ls) (b := b) (l := .wmb s.cur :: l) hm hmode y.dbRec (v := (y.counter + 1).toNat)
      ((y.counter + 1).isLt.trans (by norm_num))
    refine ⟨m', l', hrec, (Silent.wmb ..).trans hsilent, ?_⟩
    have hcover : (((s.setSrq r { y with counter := y.counter + 1 }).posting i h ls b m l).wmb.writeRec0 y.dbRec
        (y.counter + 1).toNat).covered (.srq r) 1 = (s.setSrq r (y.recorded .memfree)).posting i h ls b m' l' := by
      rw [posting_wmb, State.setSrq_cur, hrun]
      refine (posting_onSrq (State.setSrq_srq_self ..) _ _).trans ?_
      rw [State.setSrq_setSrq]
      rfl
    simp only [dbCountAct, withSrq_eq hy', State.posting_mode, hmode]
    exact congrArg (ActRes.ok 0) hcover

/-- Steps 1 and 2 of R222 for a receive, on any ring: the WQE stands in its slot, at `a`. -/
theorem runs_recvSegments {rr : RingRef} {a gs : Nat} (hm : Memory.wf m = true) (wr : RecvWr)
    (haddr : ∀ m l, (s.posting i h ls b m l).slotAddr rr ind = some a) (hgs : ∀ m l, (s.posting i h ls b m l).maxGs rr = gs) :
    ∃ m' l' bs, Wrote m m' a (layout [(4, 0), (4, 0)] ++ bs) ∧ recvBody s.mode gs wr bs ∧ Silent l l'
      ∧ ∀ p t, Runs (publishRecv rr ind prev size wr p) (s.posting i h ls b m l) t ↔
        Runs (publishTail rr ind prev wr.wrId recvLinkOpcode false size p) (s.posting i h ls b m' l') t := by
  obtain ⟨m1, l1, hrun1, hheader, hsilent1⟩ := posting_writeFields (s := s) (i := i) (h := h) (ls := ls) (b := b) (l := l) hm
    a (headerFields 0 0)
  obtain ⟨m2, l2, hrun2, hdata, hsilent2⟩ := posting_writeFields (s := s) (i := i) (h := h) (ls := ls) (b := b) (l := l1)
    hheader.wf (a + 16) (dataFields wr.sg ++ terminatorFields s.mode wr.sg.length gs)
  have hslot := hheader.append hdata
  rw [← layout_append, show headerFields 0 0 ++ (dataFields wr.sg ++ terminatorFields s.mode wr.sg.length gs)
    = [(4, 0), (4, 0)] ++ ([(4, 0), (4, 0)] ++ dataFields wr.sg ++ terminatorFields s.mode wr.sg.length gs) from rfl,
    layout_append] at hslot
  refine ⟨m2, l2, _, hslot, rfl, hsilent1.trans hsilent2, fun p t => ?_⟩
  have h1 : recvHeaderAct rr ind (s.posting i h ls b m l) = .ok 0 (s.posting i h ls b m1 l1) := by
    simp only [recvHeaderAct, haddr, hrun1]
  have h2 : recvDataAct rr ind wr (s.posting i h ls b m1 l1) = .ok 0 (s.posting i h ls b m2 l2) := by
    simp only [recvDataAct, haddr, hgs, State.posting_mode, hrun2]
  rw [publishRecv, runs_act_ok h1, runs_act_ok h2]

end

end Sys2Proof.Machine
end

section
/-! SUPPORT. The post of one request on an SRQ (R217 to R222, R258, R374), from its check to the count in its batch, and the whole post
of a list of one. -/

namespace Sys2Proof.Machine

open Sys2Proof

section

variable {y : Srq}

theorem Srq.slotAddr_apart (y : Srq) {a c : Nat} (hne : a ≠ c) :
    y.slotAddr a + 2 ^ y.shift ≤ y.slotAddr c ∨ y.slotAddr c + 2 ^ y.shift ≤ y.slotAddr a := by
  have hmul : ∀ {a c : Nat}, a < c → a * 2 ^ y.shift + 2 ^ y.shift ≤ c * 2 ^ y.shift := fun {a c} hlt => by
    rw [← Nat.succ_mul]
    exact Nat.mul_le_mul_right _ hlt
  simp only [Srq.slotAddr, Srq.woff, Nat.shiftLeft_eq]
  rcases Nat.lt_or_gt_of_ne hne with hlt | hlt
  · exact .inl (by have := hmul hlt; omega)
  · exact .inr (by have := hmul hlt; omega)

/-- `z` has the number, the slots and the doorbell record of `y`. -/
structure Srq.LaidOutAs (z y : Srq) : Prop where
  srqn : z.srqn = y.srqn
  shift : z.shift = y.shift
  bufBase : z.bufBase = y.bufBase
  maxGs : z.maxGs = y.maxGs
  dbRec : z.dbRec = y.dbRec

namespace Srq.LaidOutAs

variable {x y z : Srq}

theorem trans (h : z.LaidOutAs y) (h' : y.LaidOutAs x) : z.LaidOutAs x where
  srqn := h.srqn.trans h'.srqn
  shift := h.shift.trans h'.shift
  bufBase := h.bufBase.trans h'.bufBase
  maxGs := h.maxGs.trans h'.maxGs
  dbRec := h.dbRec.trans h'.dbRec

theorem woff (h : z.LaidOutAs y) (i : Nat) : z.woff i = y.woff i := by rw [Srq.woff, h.shift]; rfl

theorem slotAddr (h : z.LaidOutAs y) (i : Nat) : z.slotAddr i = y.slotAddr i := by rw [Srq.slotAddr, h.bufBase, h.woff]; rfl

/-- The doorbell depends on the number of the SRQ and on where its slots are. -/
theorem doorbell (h : z.LaidOutAs y) (b : Batch) : srqDoorbell z b = srqDoorbell y b := by
  rw [srqDoorbell, h.shift, h.srqn]
  rfl

theorem pop (y : Srq) : y.pop.2.LaidOutAs y := by
  obtain ⟨head, tail, link, hpop⟩ := y.pop_eq
  rw [hpop]
  exact ⟨rfl, rfl, rfl, rfl, rfl⟩

theorem published (y : Srq) (id : BitVec 64) : (y.published id).LaidOutAs y :=
  trans (y := y.pop.2) ⟨rfl, rfl, rfl, rfl, rfl⟩ (pop y)

theorem queued (y : Srq) (mode : Mode) (id : BitVec 64) : (y.queued mode id).LaidOutAs y := by
  refine trans ?_ (published y id)
  cases mode <;> exact ⟨rfl, rfl, rfl, rfl, rfl⟩

end Srq.LaidOutAs

/-- Where a slot and a chain tail are, for a WQE that fits. -/
theorem Srq.slotAddr_cases (y : Srq) {n : Nat} (hn : n ≤ 2 ^ y.shift) (a c : Nat) :
    y.slotAddr a = y.slotAddr c ∨ y.slotAddr a + n ≤ y.slotAddr c ∨ y.slotAddr c + n ≤ y.slotAddr a := by
  rcases eq_or_ne a c with rfl | hne
  · exact .inl rfl
  · have := y.slotAddr_apart hne
    omega

/-- A receive WQE has a header. -/
theorem recvSize_pos (mode : Mode) (n maxGs : Nat) : 1 ≤ recvSize mode n maxGs := by
  rw [recvSize, Nat.add_assoc]
  omega

end

section

variable {s : State} {i : Instr} {h : Handle} {ls : List (Lock × Nat)} {b : Batch} {m : List Host.Cell} {l : List BusEvent}
  {r k ind prev : Nat} {y : Srq} {wr : RecvWr}

/-- Steps 3 to 9 of R222 and the count, after the pop of the slot `ind`. -/
theorem runs_publish_count_srq {size : Nat} (hm : Memory.wf m = true) (hhead : y.freeHead = some ind) (id : BitVec 64) :
    ∃ m1 m' l', Wrote m m1 (y.slotAddr prev) (beBytes 4 (linkWord (BitVec.ofNat 26 (y.woff ind / 64)) recvLinkOpcode).toNat
        ++ beBytes 4 (eeNds true false size).toNat)
      ∧ Recorded m1 m' (s.recAddrs y.dbRec) (y.counter + 1).toNat ∧ Silent l l'
      ∧ ∀ p t, Runs (publishTail (.srq r) ind prev id recvLinkOpcode false size (dbAfterWqe (.srq r) ind false recvLinkOpcode size p))
            ((s.setSrq r y.pop.2).posting i h ls b m l) t
        ↔ Runs (.act (dbFullAct (.srq r)) fun _ => p) ((s.setSrq r (y.queued s.mode id)).posting i h ls
            (b.counted s.mode false ind false recvLinkOpcode size 0 (y.live + 1)) m' l') t := by
  obtain ⟨m1, l1, hlink, hsilent1, hrun1⟩ := runs_publishTail_srq (i := i) (h := h) (ls := ls) (b := b) (l := l) (ind := ind)
    (prev := prev) (size := size) (id := id) (op := recvLinkOpcode) (fence := false) hm (State.setSrq_srq_self s r y.pop.2)
  obtain ⟨m', l', hrec, hsilent2, hrun2⟩ := dbCountAct_srq (i := i) (h := h) (ls := ls) (b := b) (l := l1) (ind := ind)
    (size := size) (op := recvLinkOpcode) (fence := false) hlink.wf (State.setSrq_srq_self s r (y.published id))
  have hpublished : (({ y.pop.2 with wrid := y.pop.2.wrid.set ind (some id) }).goLive ind).advance ind = y.published id := by
    rw [Srq.published, pop_of_head hhead]
  have hlaid := Srq.LaidOutAs.pop y
  rw [hlaid.slotAddr, hlaid.woff] at hlink
  rw [(Srq.LaidOutAs.published y id).dbRec, y.published_counter] at hrec
  rw [y.published_live] at hrun2
  refine ⟨m1, m', l', hlink, hrec, hsilent1.trans hsilent2, fun p t => (hrun1 _ t).trans ?_⟩
  rw [State.setSrq_setSrq, hpublished, dbAfterWqe, runs_act_ok hrun2, State.setSrq_setSrq]
  rfl

/-- A request that finds a slot and passes its check, up to the count in its batch. -/
theorem runs_srqLoop_cons (hm : Memory.wf m = true) (hy : s.srq? r = some y) (hhead : y.freeHead = some ind)
    (hsg : wr.sg.length ≤ y.maxGs) (hprev : y.lastIdx = prev) (hsize : 16 * recvSize s.mode wr.sg.length y.maxGs ≤ 2 ^ y.shift)
    (hrecs : ∀ d ∈ s.recAddrs y.dbRec, ∀ b, Outside b (d, 4)
      ∨ Outside b (y.slotAddr ind, 16 * recvSize s.mode wr.sg.length y.maxGs) ∧ Outside b (y.slotAddr prev, 8)) :
    ∃ m' l', WqePosted m m' (y.slotAddr ind) (16 * recvSize s.mode wr.sg.length y.maxGs) (y.slotAddr prev) (s.recAddrs y.dbRec)
        (recvBody s.mode y.maxGs wr) (linkWord (BitVec.ofNat 26 (y.woff ind / 64)) recvLinkOpcode)
        (eeNds true false (recvSize s.mode wr.sg.length y.maxGs)) (y.counter + 1).toNat ∧ Silent l l'
      ∧ ∀ wrs t, Runs (srqLoop r k (wr :: wrs)) (s.posting i h ls b m l) t ↔
        Runs (.act (dbFullAct (.srq r)) fun _ => srqLoop r (k + 1) wrs)
          ((s.setSrq r (y.queued s.mode wr.wrId)).posting i h ls
            (b.counted s.mode false ind false recvLinkOpcode (recvSize s.mode wr.sg.length y.maxGs) 0 (y.live + 1)) m' l') t := by
  have hy' : (s.posting i h ls b m l).srq? r = some y := hy
  have hz : ∀ m l, ((s.setSrq r y.pop.2).posting i h ls b m l).srq? r = some y.pop.2 := fun _ _ => State.setSrq_srq_self ..
  have hlaid := Srq.LaidOutAs.pop y
  have haddr : ∀ m l, ((s.setSrq r y.pop.2).posting i h ls b m l).slotAddr (.srq r) ind = some (y.slotAddr ind) := fun m l => by
    rw [State.slotAddr, hz m l, Option.map_some, hlaid.slotAddr]
  have hgs : ∀ m l, ((s.setSrq r y.pop.2).posting i h ls b m l).maxGs (.srq r) = y.maxGs := fun m l => by
    rw [State.maxGs, hz m l, Option.map_some, hlaid.maxGs, Option.getD_some]
  have hlast : ((s.setSrq r y.pop.2).posting i h ls b m l).lastIdx (.srq r) = prev := by
    rw [State.lastIdx, hz m l, pop_of_head hhead]
    exact hprev
  obtain ⟨m1, l1, bs, hslot, hbody, hsilent1, hrun1⟩ := runs_recvSegments (prev := prev)
    (size := recvSize s.mode wr.sg.length y.maxGs) hm wr haddr hgs
  obtain ⟨m2, m', l', hlink, hrec, hsilent2, hrun2⟩ := runs_publish_count_srq (s := s) (i := i) (h := h) (ls := ls) (b := b) (l := l1)
    (r := r) (prev := prev) (size := recvSize s.mode wr.sg.length y.maxGs) hslot.wf hhead wr.wrId
  have hlen := recvBody_length hbody
  have hpos := recvSize_pos s.mode wr.sg.length y.maxGs
  refine ⟨m', l', .of_wrote hslot hlink hrec hbody (by rw [hlen]; simp; omega) (y.slotAddr_cases hsize ind prev) hrecs,
    hsilent1.trans hsilent2, fun wrs t => ?_⟩
  have hcheck : srqCheckAct r wr (s.posting i h ls b m l) = .ok 0 (s.posting i h ls b m l) := by
    rw [srqCheckAct, withSrq_eq hy']
    simp [hhead, hsg]
  have hpop : srqPopAct r (s.posting i h ls b m l) = .ok ind ((s.setSrq r y.pop.2).posting i h ls b m l) := by
    rw [srqPopAct, withSrq_eq hy', pop_of_head hhead]
    rfl
  rw [srqLoop, runs_act_ok hcheck]
  simp only [Nat.zero_ne_one, if_false, show ¬ (0 = 2) by omega]
  rw [runs_act_ok hpop, runs_ask, runs_ask, hlast, hgs, State.posting_mode, State.setSrq_mode]
  exact (hrun1 _ t).trans (hrun2 _ t)

/-- A post of one request on an SRQ, from the hold of its lock to its end. -/
theorem runs_srqLoop_one (hu : s.unlocked) (hm : Memory.wf s.mem = true) (hy : s.srq? r = some y) (hhead : y.freeHead = some ind)
    (hsg : wr.sg.length ≤ y.maxGs) (hprev : y.lastIdx = prev) (hsize : 16 * recvSize s.mode wr.sg.length y.maxGs ≤ 2 ^ y.shift)
    (hrecs : ∀ d ∈ s.recAddrs y.dbRec, ∀ b, Outside b (d, 4)
      ∨ Outside b (y.slotAddr ind, 16 * recvSize s.mode wr.sg.length y.maxGs) ∧ Outside b (y.slotAddr prev, 8)) :
    ∃ m l, WqePosted s.mem m (y.slotAddr ind) (16 * recvSize s.mode wr.sg.length y.maxGs) (y.slotAddr prev) (s.recAddrs y.dbRec)
        (recvBody s.mode y.maxGs wr) (linkWord (BitVec.ofNat 26 (y.woff ind / 64)) recvLinkOpcode)
        (eeNds true false (recvSize s.mode wr.sg.length y.maxGs)) (y.counter + 1).toNat
      ∧ Silent s.bus l
      ∧ Runs (srqLoop r 0 [wr]) (s.posting i h [(.srq r, s.cur)] { ring := some (.srq r) } s.mem s.bus)
        ((s.setSrq r (y.took s.mode wr.wrId)).postEnded m
          (match s.mode with
            | .legacy => .mmio s.cur s.cfg.recvDbOff (doorbellWords (.dbLegacySrq (BitVec.ofNat 26 (y.woff ind / 64)) y.srqn 1)).1
                (doorbellWords (.dbLegacySrq (BitVec.ofNat 26 (y.woff ind / 64)) y.srqn 1)).2 :: .wmb s.cur :: l
            | .memfree => l) .ok 1) := by
  obtain ⟨m, l, hw, hsilent, hrun⟩ := runs_srqLoop_cons (k := 0) (i := i) (h := h) (ls := [(.srq r, s.cur)])
    (b := { ring := some (.srq r) }) (l := s.bus) hm hy hhead hsg hprev hsize hrecs
  refine ⟨m, l, hw, hsilent, (hrun [] _).mpr ?_⟩
  have howes := (Batch.OwesSrq.of_empty (b := { ring := some (.srq r) }) (mode := s.mode) (y := y) rfl).counted ind
    (recvSize s.mode wr.sg.length y.maxGs) false recvLinkOpcode 0 wr.wrId
  have hring := Batch.counted_ring { ring := some (.srq r) } s.mode false ind false recvLinkOpcode
    (recvSize s.mode wr.sg.length y.maxGs) 0 (y.live + 1)
  refine (runs_dbFull_dbEnd_srq hring howes).mpr ?_
  obtain ⟨b', hend⟩ := dbEndAct_owesSrq (i := i) (h := h) (m := m) (l := l) hring howes
  refine (runs_postEnd (st := .ok) hend hu rfl).1.mpr (congrArg (State.postEnded _ m · .ok 1) ?_)
  rw [State.afterSrqBell, (Srq.LaidOutAs.queued y s.mode wr.wrId).doorbell]
  cases s.mode <;> rfl

end

end Sys2Proof.Machine
end

section
/-! SUPPORT. An SRQ after some posts (R374), and what a list of receive requests writes to its slots (R217 to R222). -/

namespace Sys2Proof.Machine

open Sys2Proof

/-! ### An SRQ after some posts -/

section

variable {y : Srq} {mode : Mode} {l : List Nat} {ids : List (BitVec 64)}

/-- A post of the head of the free list leaves the rest. -/
theorem Srq.FreeIs.took {ind : Nat} (h : y.FreeIs (ind :: l)) (mode : Mode) (id : BitVec 64) : (y.took mode id).FreeIs l := by
  have hpost := h.post
  rw [pop_of_head h.linked.1] at hpost
  rw [Srq.took_of_head h.linked.1]
  exact ⟨hpost.posted, hpost.link, hpost.nodup, hpost.mem, hpost.last, hpost.linked, hpost.outstanding⟩

/-- After some posts the free list has lost as many slots. -/
theorem Srq.FreeIs.filled (h : y.FreeIs l) (hlen : ids.length ≤ l.length) : (y.filled mode ids).FreeIs (l.drop ids.length) := by
  induction ids generalizing y l with
  | nil => exact h
  | cons id ids ih =>
    cases l with
    | nil => exact absurd hlen (Nat.not_succ_le_zero _)
    | cons ind l => exact ih (h.took mode id) (Nat.le_of_succ_le_succ hlen)

/-- The chain tail after some posts: the slot of the last one. -/
theorem Srq.FreeIs.filled_lastIdx (h : y.FreeIs l) (hlen : ids.length ≤ l.length) :
    (y.lastIdx :: l)[ids.length]? = some (y.filled mode ids).lastIdx := by
  induction ids generalizing y l with
  | nil => rfl
  | cons id ids ih =>
    cases l with
    | nil => exact absurd hlen (Nat.not_succ_le_zero _)
    | cons ind l =>
      have hlast : (y.took mode id).lastIdx = ind := by rw [Srq.took_of_head h.linked.1]
      rw [Srq.filled, ← ih (h.took mode id) (Nat.le_of_succ_le_succ hlen), hlast]
      rfl

theorem Srq.LaidOutAs.took (y : Srq) (mode : Mode) (id : BitVec 64) : (y.took mode id).LaidOutAs y := by
  refine trans ?_ (published y id)
  cases mode <;> exact ⟨rfl, rfl, rfl, rfl, rfl⟩

/-- Posts leave the slots and the doorbell record of the SRQ. -/
theorem Srq.LaidOutAs.filled (y : Srq) (mode : Mode) (ids : List (BitVec 64)) : (y.filled mode ids).LaidOutAs y := by
  induction ids generalizing y with
  | nil => exact ⟨rfl, rfl, rfl, rfl, rfl⟩
  | cons id ids ih => exact (ih (y.took mode id)).trans (.took y mode id)

/-- In `MEMFREE` the counter goes up by one for each post (R258). -/
theorem Srq.filled_counter (y : Srq) (ids : List (BitVec 64)) :
    (y.filled .memfree ids).counter = y.counter + BitVec.ofNat 16 ids.length := by
  induction ids generalizing y with
  | nil => exact (BitVec.add_zero _).symm
  | cons id ids ih =>
    have hone : (y.took .memfree id).counter = y.counter + 1 := rfl
    rw [Srq.filled, ih, hone, List.length_cons, BitVec.add_assoc, Nat.add_comm ids.length 1, BitVec.ofNat_add]
    rfl

theorem Srq.filled_succ {k : Nat} {id : BitVec 64} (h : ids[k]? = some id) :
    y.filled mode (ids.take (k + 1)) = (y.filled mode (ids.take k)).took mode id := by
  rw [List.take_add_one, h, Srq.filled_append]
  rfl

end

/-! ### The slots of the requests -/

/-- The slot of the request `j` places after the next one. -/
def Srq.slotOf (y : Srq) (j : Nat) : Nat := y.freeList.getD j 0

/-- The slot of the chain tail that the link of that request is written to. -/
def Srq.tailOf (y : Srq) (j : Nat) : Nat := (y.lastIdx :: y.freeList).getD j 0

theorem Srq.tailOf_succ (y : Srq) (j : Nat) : y.tailOf (j + 1) = y.slotOf j := rfl

section

variable {y : Srq} {j k : Nat}

theorem Srq.freeList_getElem? (h : j < y.freeList.length) : y.freeList[j]? = some (y.slotOf j) := by
  rw [Srq.slotOf, List.getD_eq_getElem _ _ h, List.getElem?_eq_getElem]

theorem Srq.Wf.slotOf_lt (h : y.Wf) (hj : j < y.freeList.length) : y.slotOf j < y.capacity := by
  refine h.freeIs.lt_capacity ?_
  rw [Srq.slotOf, List.getD_eq_getElem _ _ hj]
  exact List.getElem_mem ..

/-- Each slot is on the free list once. -/
theorem Srq.Wf.slotOf_ne (h : y.Wf) (hj : j < y.freeList.length) (hk : k < y.freeList.length) (hne : j ≠ k) :
    y.slotOf j ≠ y.slotOf k := by
  rw [Srq.slotOf, Srq.slotOf, List.getD_eq_getElem _ _ hj, List.getD_eq_getElem _ _ hk]
  exact fun heq => hne ((h.freeIs.nodup.getElem_inj_iff).mp heq)

theorem Srq.Wf.tailOf_lt (h : y.Wf) (hlast : y.lastIdx < y.capacity) (hj : j < y.freeList.length) : y.tailOf j < y.capacity := by
  cases j with
  | zero => exact hlast
  | succ j => exact h.slotOf_lt (Nat.lt_of_succ_lt hj)

/-- A slot of an SRQ lies in its buffer. -/
theorem Srq.outside_slot {a : Nat} (hj : j < y.capacity) (ha : Outside a y.buffer) : Outside a (y.slotAddr j, 2 ^ y.shift) := by
  have hmul : (j + 1) * 2 ^ y.shift ≤ y.capacity * 2 ^ y.shift := Nat.mul_le_mul_right _ hj
  rw [Nat.succ_mul] at hmul
  simp only [Outside, Srq.buffer, Srq.slotAddr, Srq.woff, Nat.shiftLeft_eq] at ha ⊢
  omega

end

/-! ### The WQEs of a list -/

/-- A list of receive requests on an SRQ: the SRQ before it, the requests and the batch limit. -/
structure SrqList where
  srq : Srq
  reqs : List RecvWr
  limit : Nat

namespace SrqList

/-- The bytes of the WQE of a request. -/
def bytes (L : SrqList) (mode : Mode) (j : Nat) : Nat := 16 * recvSize mode (L.reqs.getD j {}).sg.length L.srq.maxGs

/-- What the doorbell record holds after the first `k` requests. -/
def recordAt (L : SrqList) (k : Nat) : Nat := (L.srq.counter + BitVec.ofNat 16 k).toNat

/-- What holds of the SRQ before the list, and of the requests: each has a slot that its WQE fits in, apart from the doorbell
records. -/
structure Fits (L : SrqList) (s : State) : Prop where
  wf : L.srq.Wf
  last : L.srq.lastIdx < L.srq.capacity
  room : L.reqs.length ≤ L.srq.freeList.length
  fit : ∀ wr ∈ L.reqs, wr.sg.length ≤ L.srq.maxGs ∧ 16 * recvSize s.mode wr.sg.length L.srq.maxGs ≤ 2 ^ L.srq.shift
  recs : ∀ d ∈ s.recAddrs L.srq.dbRec, ∀ b, Outside b (d, 4) ∨ Outside b L.srq.buffer

/-- The request at a place of the list has been posted from `m` to `m'`; the doorbell records hold `v`. -/
def Posted (L : SrqList) (s : State) (k : Nat) (m m' : List Host.Cell) (v : Nat) : Prop :=
  WqePosted m m' (L.srq.slotAddr (L.srq.slotOf k)) (L.bytes s.mode k) (L.srq.slotAddr (L.srq.tailOf k)) (s.recAddrs L.srq.dbRec)
    (recvBody s.mode L.srq.maxGs (L.reqs.getD k {})) (linkWord (BitVec.ofNat 26 (L.srq.woff (L.srq.slotOf k) / 64)) recvLinkOpcode)
    (eeNds true false (recvSize s.mode (L.reqs.getD k {}).sg.length L.srq.maxGs)) v

/-- `m` is the memory after the first `k` requests. A link that a later WQE of the list overwrites is not claimed: the slot of the first
chain tail may be free again, and on the list. -/
structure Done (L : SrqList) (s : State) (m : List Host.Cell) (k : Nat) : Prop where
  wf : Memory.wf m = true
  body : ∀ j < k, ∃ bs, recvBody s.mode L.srq.maxGs (L.reqs.getD j {}) bs
    ∧ memGetBytes m (L.srq.slotAddr (L.srq.slotOf j) + 8) bs.length = bs
  links : ∀ j < k, (j + 1 = k ∨ ∀ i, j ≤ i → i < k → L.srq.slotOf i ≠ L.srq.tailOf j) →
    beNat (memGetBytes m (L.srq.slotAddr (L.srq.tailOf j)) 4)
        = (linkWord (BitVec.ofNat 26 (L.srq.woff (L.srq.slotOf j) / 64)) recvLinkOpcode).toNat
      ∧ beNat (memGetBytes m (L.srq.slotAddr (L.srq.tailOf j) + 4) 4)
        = (eeNds true false (recvSize s.mode (L.reqs.getD j {}).sg.length L.srq.maxGs)).toNat
  record : 0 < k → ∀ d ∈ s.recAddrs L.srq.dbRec, beNat (memGetBytes m d 4) = L.recordAt k
  frame : ∀ b, (∀ j < k, Outside b (L.srq.slotAddr (L.srq.slotOf j), L.bytes s.mode j)) →
    Outside b (L.srq.slotAddr L.srq.lastIdx, 8) → (∀ d ∈ s.recAddrs L.srq.dbRec, Outside b (d, 4)) → memGet m b = memGet s.mem b

variable {L : SrqList} {s : State} {m m' : List Host.Cell} {k v : Nat}

theorem Done.start (hm : Memory.wf s.mem = true) : L.Done s s.mem 0 := ⟨hm, nofun, nofun, nofun, fun _ _ _ _ => rfl⟩

theorem Fits.bytes (hf : L.Fits s) (hk : k < L.reqs.length) : 16 ≤ L.bytes s.mode k ∧ L.bytes s.mode k ≤ 2 ^ L.srq.shift := by
  have hpos := recvSize_pos s.mode (L.reqs.getD k {}).sg.length L.srq.maxGs
  refine ⟨Nat.mul_le_mul_left 16 hpos, (hf.fit (L.reqs.getD k {}) ?_).2⟩
  rw [List.getD_eq_getElem _ _ hk]
  exact List.getElem_mem ..

theorem Fits.slotOf_lt (hf : L.Fits s) (hk : k < L.reqs.length) : L.srq.slotOf k < L.srq.capacity :=
  hf.wf.slotOf_lt (hk.trans_le hf.room)

theorem Fits.tailOf_lt (hf : L.Fits s) (hk : k < L.reqs.length) : L.srq.tailOf k < L.srq.capacity :=
  hf.wf.tailOf_lt hf.last (hk.trans_le hf.room)

/-- A doorbell record meets neither the slot of a request nor the chain tail's header. -/
theorem Fits.recs_slots (hf : L.Fits s) (hk : k < L.reqs.length) {d : Nat} (hd : d ∈ s.recAddrs L.srq.dbRec) (a : Nat) :
    Outside a (d, 4) ∨ Outside a (L.srq.slotAddr (L.srq.slotOf k), L.bytes s.mode k)
      ∧ Outside a (L.srq.slotAddr (L.srq.tailOf k), 8) := by
  have hbytes := hf.bytes hk
  refine (hf.recs d hd a).imp_right fun hout => ?_
  have hslot := Srq.outside_slot (hf.slotOf_lt hk) hout
  have htail := Srq.outside_slot (hf.tailOf_lt hk) hout
  simp only [Outside] at *
  omega

/-- What stands in a slot, and in its first 8 bytes, is left alone by the post of a WQE into another slot, linked to from a slot that
is another one too, or whose first 8 bytes are not meant. -/
theorem Posted.read (hw : L.Posted s k m m' v) (hf : L.Fits s) (hk : k < L.reqs.length) {c off len : Nat} (hc : c < L.srq.capacity)
    (hslot : c ≠ L.srq.slotOf k) (htail : c ≠ L.srq.tailOf k ∨ 8 ≤ off) (hoff : off + len ≤ 2 ^ L.srq.shift) :
    memGetBytes m' (L.srq.slotAddr c + off) len = memGetBytes m (L.srq.slotAddr c + off) len := by
  obtain ⟨h16, hle⟩ := hf.bytes hk
  refine memGetBytes_congr _ _ _ _ fun b hb hb' => hw.frame b ?_ ?_ fun d hd => (hf.recs d hd b).resolve_right fun hout => ?_
  · have := L.srq.slotAddr_apart hslot
    simp only [Outside]
    omega
  · rcases eq_or_ne c (L.srq.tailOf k) with heq | hne
    · have := htail.resolve_left (not_not_intro heq)
      rw [← heq]
      simp only [Outside]
      omega
    · have := L.srq.slotAddr_apart hne
      simp only [Outside]
      omega
  · have := Srq.outside_slot hc hout
    simp only [Outside] at this
    omega

/-- One more request. -/
theorem Done.step (h : L.Done s m k) (hf : L.Fits s) (hk : k < L.reqs.length) (hw : L.Posted s k m m' v)
    (hv : ∀ d ∈ s.recAddrs L.srq.dbRec, v = L.recordAt (k + 1)) : L.Done s m' (k + 1) := by
  have hroom := hf.room
  obtain ⟨h16, hle⟩ := hf.bytes hk
  refine ⟨hw.wf, fun j hj => ?_, fun j hj hlink => ?_, fun _ d hd => (hw.record d hd).trans (hv d hd), fun b hb hlast hbr => ?_⟩
  · rcases Nat.lt_succ_iff_lt_or_eq.mp hj with hj | rfl
    · obtain ⟨bs, hbody, hstands⟩ := h.body j hj
      have hfit := hf.bytes (hj.trans hk)
      have hlen : bs.length = L.bytes s.mode j - 8 := recvBody_length hbody
      refine ⟨bs, hbody, (hw.read hf hk (hf.slotOf_lt (hj.trans hk)) (hf.wf.slotOf_ne (by omega) (by omega) hj.ne) (.inr le_rfl)
        (by omega)).trans hstands⟩
    · obtain ⟨bs, -, hbody⟩ := hw.body
      exact ⟨bs, hbody⟩
  · rcases Nat.lt_succ_iff_lt_or_eq.mp hj with hj | rfl
    · have hlater := hlink.resolve_left (by omega)
      have hslot : L.srq.tailOf j ≠ L.srq.slotOf k := (hlater k hj.le (Nat.lt_succ_self k)).symm
      have htail : L.srq.tailOf j ≠ L.srq.tailOf k := by
        obtain ⟨k, rfl⟩ : ∃ i, k = i + 1 := ⟨k - 1, by omega⟩
        rw [L.srq.tailOf_succ k]
        exact (hlater k (by omega) (by omega)).symm
      obtain ⟨hl, hn⟩ := h.links j hj (.inr fun i hji hik => hlater i hji (Nat.lt_succ_of_lt hik))
      have hread : ∀ off, off + 4 ≤ 8 → memGetBytes m' (L.srq.slotAddr (L.srq.tailOf j) + off) 4
          = memGetBytes m (L.srq.slotAddr (L.srq.tailOf j) + off) 4 :=
        fun off hoff => hw.read hf hk (hf.tailOf_lt (hj.trans hk)) hslot (.inl htail) (by omega)
      exact ⟨(congrArg beNat (hread 0 (by omega))).trans hl, (congrArg beNat (hread 4 le_rfl)).trans hn⟩
    · exact ⟨hw.link, hw.nds⟩
  · have htail : Outside b (L.srq.slotAddr (L.srq.tailOf k), 8) := by
      cases k with
      | zero => exact hlast
      | succ k =>
        have hslot := hb k (by omega)
        have hfit := hf.bytes (Nat.lt_of_succ_lt hk)
        rw [L.srq.tailOf_succ k]
        simp only [Outside] at hslot ⊢
        omega
    exact (hw.frame b (hb k (Nat.lt_succ_self k)) htail hbr).trans
      (h.frame b (fun j hj => hb j (Nat.lt_succ_of_lt hj)) hlast hbr)

end SrqList

end Sys2Proof.Machine
end

section
/-! SUPPORT. `POST_SRQ_RECV` (R374): after each request of a list its WQEs, its SRQ, its batch and the doorbells are those of the
requests so far. -/

namespace Sys2Proof.Machine

open Sys2Proof

/-- A receive batch is named by its first request. -/
theorem Batch.counted_firstInd {b : Batch} {mode : Mode} (hr : ringsBell mode false = true) (ind size num : Nat) (fence : Bool)
    (op : BitVec 6) (head0 : Word) :
    (b.counted mode false ind fence op size head0 num).firstInd = if b.cnt = 0 then ind else b.firstInd := by
  simp only [Batch.counted, hr, if_true, Batch.add, Batch.count]
  split_ifs <;> rfl

/-- Only in `MEMFREE` has a post doorbell records to write (R256). -/
theorem State.memfree_of_mem_recAddrs {s : State} {o : Option Nat} {d : Nat} (h : d ∈ s.recAddrs o) : s.mode = .memfree := by
  cases hmode : s.mode with
  | legacy =>
    rw [State.recAddrs, State.recsOf, hmode] at h
    exact absurd h List.not_mem_nil
  | memfree => rfl

/-- The state of a post on SRQ `r`, which is `z` by then. -/
def State.postingSrq (s : State) (i : Instr) (h : Handle) (r : Nat) (b : Batch) (z : Srq) (m : List Host.Cell) (l : List BusEvent) :
    State :=
  (s.setSrq r z).posting i h [(.srq r, s.cur)] b m l

namespace SrqList

/-- The SRQ after the first `k` requests. -/
def srqAt (L : SrqList) (mode : Mode) (k : Nat) : Srq := L.srq.filled mode ((L.reqs.take k).map (·.wrId))

/-- The doorbell of a batch of `c` requests of which the first is at place `j` of the list (R258). -/
def bell (L : SrqList) (j c : Nat) : Instr :=
  .dbLegacySrq (BitVec.ofNat 26 (L.srq.woff (L.srq.slotOf j) / 64)) L.srq.srqn (BitVec.ofNat 8 c)

/-- The doorbells of some batches, newest first, as the window gets them. -/
def rungBells (L : SrqList) (s : State) (bs : List (Nat × Nat)) : List (BitVec 8 × Word × Word) :=
  (if ringsBell s.mode false then bs.map fun e => s.bell .recv (L.bell e.1 e.2) else []).reverse

/-- The state of a post after the first `k` requests of a list: `z` is the SRQ, `b` the batch, `m` the memory, `l` the bus. -/
structure After (L : SrqList) (s : State) (r k : Nat) (b : Batch) (z : Srq) (m : List Host.Cell) (l : List BusEvent) : Prop where
  done : L.Done s m k
  owes : b.OwesSrq s.mode z (L.srqAt s.mode k)
  ring : b.ring = some (.srq r)
  cnt : b.cnt = if ringsBell s.mode false then k % L.limit else 0
  firstInd : b.cnt ≠ 0 → b.firstInd = L.srq.slotOf (k / L.limit * L.limit)
  bells : (s.setBus l).doorbells
    = L.rungBells s ((List.range (k / L.limit)).map fun j => (j * L.limit, L.limit)) ++ s.doorbells

variable {L : SrqList} {s : State} {i : Instr} {h : Handle} {r k n : Nat} {b : Batch} {z : Srq} {m m' : List Host.Cell}
  {l l' : List BusEvent} {st : Status} {wr : RecvWr}

theorem srqAt_succ {mode : Mode} (hwr : L.reqs[k]? = some wr) : L.srqAt mode (k + 1) = (L.srqAt mode k).took mode wr.wrId := by
  rw [srqAt, List.map_take, Srq.filled_succ (id := wr.wrId) (by rw [List.getElem?_map, hwr, Option.map_some]), ← List.map_take]
  rfl

theorem ids_length (hk : k ≤ L.reqs.length) : ((L.reqs.take k).map (·.wrId)).length = k := by
  rw [List.length_map, List.length_take_of_le hk]

theorem Fits.freeIs (hf : L.Fits s) (mode : Mode) (hk : k ≤ L.reqs.length) :
    (L.srqAt mode k).FreeIs (L.srq.freeList.drop k) := by
  have hfilled := hf.wf.freeIs.filled (mode := mode) (ids := (L.reqs.take k).map (·.wrId))
    ((ids_length hk).trans_le (hk.trans hf.room))
  rwa [ids_length hk] at hfilled

/-! ### The SRQ in progress -/

theorem After.start (hm : Memory.wf s.mem = true) : L.After s r 0 { ring := some (.srq r) } L.srq s.mem s.bus where
  done := .start hm
  owes := .of_empty rfl
  ring := rfl
  cnt := by split_ifs <;> simp
  firstInd := fun hc => absurd rfl hc
  bells := by simp [rungBells]; rfl

/-- A field that the device's reading does not touch is that of the SRQ of the statements. -/
theorem After.field {α : Type} (ha : L.After s r k b z m l) (f : Srq → α) (hf : ∀ y first, f { y with first := first } = f y) :
    f z = f (L.srqAt s.mode k) :=
  ((congrArg f ha.owes.eq_but_first).trans (hf ..)).symm

theorem After.laidOut (ha : L.After s r k b z m l) : z.LaidOutAs L.srq := by
  refine Srq.LaidOutAs.trans ?_ (.filled L.srq s.mode ((L.reqs.take k).map (·.wrId)))
  exact ⟨ha.field _ fun _ _ => rfl, ha.field _ fun _ _ => rfl, ha.field _ fun _ _ => rfl, ha.field _ fun _ _ => rfl,
    ha.field _ fun _ _ => rfl⟩

theorem After.freeHead (ha : L.After s r k b z m l) (hf : L.Fits s) (hk : k ≤ L.reqs.length) :
    z.freeHead = (L.srq.freeList.drop k).head? :=
  (ha.field _ fun _ _ => rfl).trans (hf.freeIs s.mode hk).linked.head?.symm

/-- The next request has a slot. -/
theorem After.freeHead_some (ha : L.After s r k b z m l) (hf : L.Fits s) (hk : k < L.srq.freeList.length) (hk' : k ≤ L.reqs.length) :
    z.freeHead = some (L.srq.slotOf k) := by
  rw [ha.freeHead hf hk', List.head?_drop, Srq.freeList_getElem? hk]

theorem After.lastIdx (ha : L.After s r k b z m l) (hf : L.Fits s) (hk : k ≤ L.reqs.length) : z.lastIdx = L.srq.tailOf k := by
  have hlast := hf.wf.freeIs.filled_lastIdx (mode := s.mode) (ids := (L.reqs.take k).map (·.wrId))
    ((ids_length hk).trans_le (hk.trans hf.room))
  rw [ids_length hk] at hlast
  rw [Srq.tailOf, getD_of_getElem? hlast]
  exact ha.field Srq.lastIdx fun _ _ => rfl

/-- What the doorbell record holds after one more request. -/
theorem After.record (ha : L.After s r k b z m l) (hk : k ≤ L.reqs.length) (hmode : s.mode = .memfree) :
    (z.counter + 1).toNat = L.recordAt (k + 1) := by
  have hcounter : z.counter = L.srq.counter + BitVec.ofNat 16 k := by
    rw [ha.field Srq.counter fun _ _ => rfl, hmode, srqAt, Srq.filled_counter, ids_length hk]
  have hone : BitVec.ofNat 16 (k + 1) = BitVec.ofNat 16 k + 1 := BitVec.ofNat_add ..
  rw [recordAt, hcounter, hone, BitVec.add_assoc]

/-! ### One more request -/

/-- The next request of the list, up to the count in its batch: its WQE stands in its slot. -/
theorem After.posted {wrs : List RecvWr} (ha : L.After s r k b z m l) (hf : L.Fits s) (hwr : L.reqs[k]? = some wr) :
    ∃ m' l', L.Done s m' (k + 1) ∧ Silent l l' ∧ ∀ t, Runs (srqLoop r k (wr :: wrs)) (s.postingSrq i h r b z m l) t ↔
      Runs (.act (dbFullAct (.srq r)) fun _ => srqLoop r (k + 1) wrs) (s.postingSrq i h r
        (b.counted s.mode false (L.srq.slotOf k) false recvLinkOpcode (recvSize s.mode wr.sg.length L.srq.maxGs) 0 (z.live + 1))
        (z.queued s.mode wr.wrId) m' l') t := by
  obtain ⟨hk, -⟩ := List.getElem?_eq_some_iff.mp hwr
  have hget : L.reqs.getD k {} = wr := getD_of_getElem? hwr
  obtain ⟨hsg, hfit⟩ := hf.fit wr (List.mem_of_getElem? hwr)
  have hlaid := ha.laidOut
  have hrecs : s.recAddrs z.dbRec = s.recAddrs L.srq.dbRec := by rw [hlaid.dbRec]
  have hbytes : L.bytes s.mode k = 16 * recvSize s.mode wr.sg.length z.maxGs := by rw [hlaid.maxGs, ← hget]; rfl
  obtain ⟨m', l', hw, hsilent, hrun⟩ := runs_srqLoop_cons (s := s.setSrq r z) (i := i) (h := h) (ls := [(.srq r, s.cur)]) (b := b)
    (l := l) (k := k) (y := z) (wr := wr) ha.done.wf (State.setSrq_srq_self ..) (ha.freeHead_some hf (hk.trans_le hf.room) hk.le)
    (by rw [hlaid.maxGs]; exact hsg) (ha.lastIdx hf hk.le) (by rw [hlaid.maxGs, hlaid.shift]; exact hfit) fun d hd a => by
      rw [hlaid.slotAddr, hlaid.slotAddr, State.setSrq_mode, ← hbytes]
      exact hf.recs_slots hk (hrecs ▸ hd) a
  have hposted : L.Posted s k m m' (z.counter + 1).toNat := by
    rw [hlaid.slotAddr, hlaid.slotAddr, hlaid.woff, State.setSrq_mode, ← hbytes, hlaid.maxGs] at hw
    rw [Posted, hget, ← hrecs]
    exact hw
  refine ⟨m', l', ha.done.step hf hk hposted fun d hd => ha.record hk.le (State.memfree_of_mem_recAddrs hd), hsilent,
    fun t => (hrun wrs t).trans (iff_of_eq ?_)⟩
  rw [State.setSrq_setSrq, State.setSrq_mode, hlaid.maxGs]
  rfl

theorem bell_eq (hz : z.LaidOutAs L.srq) {j : Nat} (hfirst : b.firstInd = L.srq.slotOf j) : srqDoorbell z b = L.bell j b.cnt := by
  rw [hz.doorbell, srqDoorbell, hfirst]
  rfl

theorem rungBells_succ (s : State) (j limit : Nat) (hr : ringsBell s.mode false = true) :
    L.rungBells s ((List.range (j + 1)).map fun j => (j * limit, limit))
      = s.bell .recv (L.bell (j * limit) limit) :: L.rungBells s ((List.range j).map fun j => (j * limit, limit)) := by
  simp [rungBells, hr, List.range_succ]

/-- The batch is named by its first request, be it this one or one before it. -/
theorem After.firstInd_counted (ha : L.After s r k b z m l) (hr : ringsBell s.mode false = true) (size num : Nat) :
    (b.counted s.mode false (L.srq.slotOf k) false recvLinkOpcode size 0 num).firstInd
      = L.srq.slotOf (k / L.limit * L.limit) := by
  rw [Batch.counted_firstInd hr]
  split_ifs with hc
  · have hcnt := ha.cnt
    rw [hr, if_pos rfl] at hcnt
    rw [Nat.div_mul_cancel (Nat.dvd_of_mod_eq_zero (hcnt ▸ hc))]
  · exact ha.firstInd hc

/-- The rest of a post after a request: the batch is rung where it is full. -/
theorem After.next (ha : L.After s r k b z m l) (hlimit : s.batchLimit (.srq r) = L.limit) (hpos : 0 < L.limit)
    (hwr : L.reqs[k]? = some wr) (hdone : L.Done s m' (k + 1)) (hsilent : Silent l l') (size : Nat) :
    ∃ b' z' l'', L.After s r (k + 1) b' z' m' l'' ∧ ∀ p t,
      Runs (.act (dbFullAct (.srq r)) fun _ => p) (s.postingSrq i h r
          (b.counted s.mode false (L.srq.slotOf k) false recvLinkOpcode size 0 (z.live + 1)) (z.queued s.mode wr.wrId) m' l') t
        ↔ Runs p (s.postingSrq i h r b' z' m' l'') t := by
  have hbells := (hsilent.doorbells s).trans ha.bells
  have howes := ha.owes.counted (L.srq.slotOf k) size false recvLinkOpcode 0 wr.wrId
  rw [← srqAt_succ hwr] at howes
  have hring := (Batch.counted_ring b s.mode false (L.srq.slotOf k) false recvLinkOpcode size 0 (z.live + 1)).trans ha.ring
  have hcnt := Batch.counted_cnt b s.mode false (L.srq.slotOf k) false recvLinkOpcode size 0 (z.live + 1)
  rw [ha.cnt] at hcnt
  have hfirst := fun hr => ha.firstInd_counted hr size (z.live + 1)
  have hlaid : (z.queued s.mode wr.wrId).LaidOutAs L.srq := (Srq.LaidOutAs.queued z s.mode wr.wrId).trans ha.laidOut
  generalize b.counted s.mode false (L.srq.slotOf k) false recvLinkOpcode size 0 (z.live + 1) = b1 at howes hring hcnt hfirst
  cases hr : ringsBell s.mode false with
  | false =>
    rw [hr] at hcnt
    have hnone : b1.cnt = 0 := hcnt
    refine ⟨b1, _, l', ⟨hdone, howes, hring, by rw [hr]; exact hnone, fun hne => absurd hnone hne, ?_⟩,
      fun p t => runs_act_ok (dbFullAct_open (.inl hnone))⟩
    rw [hbells, rungBells, rungBells, hr]
    rfl
  | true =>
    rw [hr, if_pos rfl, if_pos rfl] at hcnt
    have hne : b1.cnt ≠ 0 := hcnt ▸ Nat.succ_ne_zero _
    by_cases hfull : k % L.limit + 1 = L.limit
    · obtain ⟨hdiv, hmod⟩ := div_mod_succ_full hfull
      have hlim : b1.cnt = L.limit := hcnt.trans hfull
      refine ⟨{ b1 with cnt := 0 }, L.srqAt s.mode (k + 1), s.afterSrqBell (z.queued s.mode wr.wrId) b1 l',
        ⟨hdone, .of_empty rfl, hring, by rw [hr, hmod]; rfl, fun hc => absurd rfl hc, ?_⟩,
        fun p t => runs_act_ok (dbFullAct_owesSrq hring howes hne (hlim.trans hlimit.symm))⟩
      rw [doorbells_afterSrqBell hne, bell_eq hlaid (hfirst hr), hbells, hdiv, rungBells_succ _ _ _ hr, hlim]
      rfl
    · obtain ⟨hdiv, hmod⟩ := div_mod_succ_open hpos hfull
      exact ⟨b1, _, l', ⟨hdone, howes, hring, by rw [hr, hmod]; exact hcnt, fun _ => by rw [hdiv]; exact hfirst hr,
        by rw [hdiv, hbells]⟩, fun p t => runs_act_ok (dbFullAct_open (.inr fun heq => hfull (hcnt.symm.trans (heq.trans hlimit))))⟩

/-! ### The whole list -/

/-- The first `k` requests of a list, one after another. -/
theorem runs_requests (left : List RecvWr) (hm : Memory.wf s.mem = true) (hy : s.srq? r = some L.srq) (hf : L.Fits s)
    (hlimit : s.batchLimit (.srq r) = L.limit) (hpos : 0 < L.limit) (hk : k ≤ L.reqs.length) :
    ∃ b z m l, L.After s r k b z m l ∧ ∀ t, Runs (srqLoop r 0 (L.reqs ++ left)) (s.posting i h [(.srq r, s.cur)]
        { ring := some (.srq r) } s.mem s.bus) t ↔ Runs (srqLoop r k (L.reqs.drop k ++ left)) (s.postingSrq i h r b z m l) t := by
  induction k with
  | zero =>
    refine ⟨_, _, _, _, .start hm, fun t => ?_⟩
    rw [State.postingSrq, State.setSrq_self hy]
    rfl
  | succ k ih =>
    obtain ⟨b, z, m, l, ha, hrun⟩ := ih (Nat.le_of_succ_le hk)
    have hwr := List.getElem?_eq_getElem hk
    obtain ⟨m', l', hdone, hsilent, hposted⟩ := ha.posted (i := i) (h := h) (wrs := L.reqs.drop (k + 1) ++ left) hf hwr
    obtain ⟨b', z', l'', ha', hnext⟩ := ha.next (i := i) (h := h) hlimit hpos hwr hdone hsilent
      (recvSize s.mode L.reqs[k].sg.length L.srq.maxGs)
    refine ⟨b', z', m', l'', ha', fun t => (hrun t).trans ?_⟩
    rw [List.drop_eq_getElem_cons hk]
    exact (hposted t).trans (hnext _ t)

/-- The end of a post whose requests have run out, or of which the next one fails. -/
theorem After.ends {left : List RecvWr} {t : State} (ha : L.After s r n b z m l) (hf : L.Fits s) (hn : L.reqs.length = n)
    (hu : s.unlocked) (hends : L.srq.postEnds n left st) {b' : Batch}
    (hd : ∀ ls, dbEndAct ((s.setSrq r z).posting i h ls b m l) = .ok 0 ((s.setSrq r (L.srqAt s.mode n)).posting i h ls b' m l')) :
    Runs (srqLoop r n left) (s.postingSrq i h r b z m l) t ↔ t = (s.setSrq r (L.srqAt s.mode n)).postEnded m l' st n := by
  have hcur : (s.setSrq r (L.srqAt s.mode n)).cur = (s.setSrq r z).cur := rfl
  cases left with
  | nil =>
    obtain rfl : st = .ok := hends
    exact (runs_postEnd (st := .ok) hd hu hcur).1
  | cons wr wrs =>
    refine (runs_srqLoop_fails (y := z) (State.setSrq_srq_self ..) (hends.imp (fun ⟨hempty, hst⟩ => ⟨?_, hst⟩)
      fun ⟨hlt, hsg, hst⟩ => ⟨?_, ha.laidOut.maxGs.trans_lt hsg, hst⟩)).trans (runs_postEnd hd hu hcur).2
    · rw [ha.freeHead hf hn.ge, List.drop_of_length_le hempty.ge]
      rfl
    · rw [ha.freeHead_some hf hlt hn.ge]
      exact Option.some_ne_none _

/-- The doorbells of the post, once the last batch is rung. -/
theorem After.allBells (ha : L.After s r n b z m l) (hpos : 0 < L.limit) :
    (s.setBus (s.afterSrqBell z b l)).doorbells = L.rungBells s (batches L.limit n) ++ s.doorbells := by
  have hbells := ha.bells
  have hcnt := ha.cnt
  rw [batches_eq hpos]
  cases hr : ringsBell s.mode false with
  | false =>
    rw [rungBells, hr] at hbells ⊢
    rw [hr] at hcnt
    rw [State.afterSrqBell, if_pos (by simpa using hcnt), hbells]
    rfl
  | true =>
    rw [hr, if_pos rfl] at hcnt
    rw [rungBells, hr] at hbells ⊢
    simp only [if_true, List.map_append, List.reverse_append] at hbells ⊢
    by_cases hc : b.cnt = 0
    · rw [State.afterSrqBell, if_pos hc, hbells, if_pos (hcnt.symm.trans hc)]
      rfl
    · rw [doorbells_afterSrqBell hc, bell_eq ha.laidOut (ha.firstInd hc), hbells, hcnt, if_neg (hcnt ▸ hc)]
      rfl

/-- A post of a list, from the hold of the SRQ's lock to its end. -/
theorem runs_all {left : List RecvWr} (hu : s.unlocked) (hm : Memory.wf s.mem = true) (hy : s.srq? r = some L.srq) (hf : L.Fits s)
    (hlimit : s.batchLimit (.srq r) = L.limit) (hpos : 0 < L.limit) (hends : L.srq.postEnds L.reqs.length left st) :
    ∃ m l, L.Done s m L.reqs.length
      ∧ (s.setBus l).doorbells = L.rungBells s (batches L.limit L.reqs.length) ++ s.doorbells
      ∧ Runs (srqLoop r 0 (L.reqs ++ left)) (s.posting i h [(.srq r, s.cur)] { ring := some (.srq r) } s.mem s.bus)
        ((s.setSrq r (L.srq.filled s.mode (L.reqs.map (·.wrId)))).postEnded m l st L.reqs.length) := by
  obtain ⟨b, z, m, l, ha, hrun⟩ := runs_requests (i := i) (h := h) left hm hy hf hlimit hpos le_rfl
  obtain ⟨b', hd⟩ := dbEndAct_owesSrq (i := i) (h := h) (m := m) (l := l) ha.ring ha.owes
  have hall : L.srqAt s.mode L.reqs.length = L.srq.filled s.mode (L.reqs.map (·.wrId)) := by rw [srqAt, List.take_length]
  refine ⟨m, _, ha.done, ha.allBells hpos, (hrun _).mpr ?_⟩
  rw [List.drop_length, List.nil_append, ← hall]
  exact (ha.ends hf rfl hu hends hd).mpr rfl

/-- The doorbells of the batches of a list. -/
theorem rungBells_batches (n : Nat) :
    L.rungBells s (batches L.limit n) = ((srqBells s.mode L.srq L.limit n).map (s.bell .recv)).reverse := by
  unfold rungBells srqBells
  cases s.mode with
  | memfree => rfl
  | legacy =>
    rw [List.map_map]
    rfl

end SrqList

/-- Settles O39: of one request `runs_srqLoop_one` says what the post writes and rings; of a list, `SrqList.runs_all`, whose memory is
read off slot by slot. -/
theorem postSrqRecvOne : Obligations.PostSrqRecvOne := by
  refine ⟨?_, ?_⟩
  · intro s op h wr r y ind prev a p size next hs hop hlist hsrq hn hy hhead hnext hsg hprev ha hp hsize hfits hm hrecs
    subst hop ha hp hsize hnext
    obtain ⟨m, l, hw, hsilent, hrun⟩ := runs_srqLoop_one (i := .postSrqRecv) (h := h) hs.locks hm hy hhead hsg hprev hfits
      (State.forall_recAddrs.mpr hrecs)
    have hend := (runs_postSrqRecv_start (i := .postSrqRecv) hs hsrq hn).mpr (hlist ▸ hrun)
    rw [Srq.took_of_head hhead] at hend
    refine ⟨_, hs.runCmd hend, fun hne => hw.header fun heq => ?_, hw.read fun bs hbs => ⟨recvBody_length hbs, hbs⟩,
      hw.link.trans (linkRecv_toNat _), hw.nds, fun r hr => hw.record _ (State.mem_recAddrs hr),
      fun b hb hb' hbr => hw.frame b hb hb' (State.forall_recAddrs.mpr hbr), fun hmode => ⟨l, ?_⟩, fun hmode => ?_, rfl, rfl⟩
    · have hapart := y.slotAddr_apart hne
      have := Nat.two_pow_pos y.shift
      omega
    · rw [hmode]
      rfl
    · obtain ⟨e, hl, he⟩ := hsilent.trans (Silent.commandEnd l s.cur)
      refine ⟨e, ?_, fun off w0 w1 => he s.cur off w0 w1⟩
      rw [← hl, hmode]
      rfl
  · intro s op h r N y good left st hs hop hlist hsrq hn hy hwf hlast hroom hgood hends hlimit hpos hm hrecs
    subst hop
    have hfits : SrqList.Fits ⟨y, good, N⟩ s := ⟨hwf, hlast, hroom, hgood, State.forall_recAddrs.mpr hrecs⟩
    obtain ⟨m, l, hdone, hbells, hrun⟩ := SrqList.runs_all (L := ⟨y, good, N⟩) (i := .postSrqRecv) (h := h) hs.locks hm hy hfits
      hlimit hpos hends
    have hend := (runs_postSrqRecv_start (i := .postSrqRecv) hs hsrq hn).mpr (hlist ▸ hrun)
    have hlt : ∀ {j wr}, good[j]? = some wr → j < good.length := fun hj => (List.getElem?_eq_some_iff.mp hj).1
    have hslot : ∀ {j ind}, y.freeList[j]? = some ind → y.slotOf j = ind := getD_of_getElem?
    refine ⟨_, hs.runCmd hend, fun j wr ind prev hj hind hprev hopen => ?_, fun j wr ind hj hind => ?_,
      hbells.trans (congrArg (· ++ s.doorbells) (SrqList.rungBells_batches _)), fun hne r hr => ?_, fun b hb htail hbr => ?_, rfl, rfl⟩
    · have htail : y.tailOf j = prev := getD_of_getElem? hprev
      have hlater : j + 1 = good.length ∨ ∀ k, j ≤ k → k < good.length → y.slotOf k ≠ y.tailOf j :=
        hopen.imp_right fun hne k hjk hk heq =>
          hne k hjk hk ((Srq.freeList_getElem? (hk.trans_le hroom)).trans (congrArg some (heq.trans htail)))
      have hlinks := hdone.links j (hlt hj) hlater
      simp only [hslot hind, htail, getD_of_getElem? hj, linkRecv_toNat] at hlinks
      exact hlinks
    · obtain ⟨bs, hbody, hread⟩ := hdone.body j (hlt hj)
      simp only [hslot hind, getD_of_getElem? hj] at hbody hread
      rw [recvBody_length hbody] at hread
      exact hread.trans hbody
    · exact hdone.record (List.length_pos_of_ne_nil hne) _ (State.mem_recAddrs hr)
    · refine hdone.frame b (fun j hj => ?_) htail (State.forall_recAddrs.mpr hbr)
      have hj' := List.getElem?_eq_getElem hj
      have hout := hb j _ _ hj' (Srq.freeList_getElem? (hj.trans_le hroom))
      simp only [SrqList.bytes, getD_of_getElem? hj']
      exact hout

end Sys2Proof.Machine
end

section
/-! SUPPORT. Steps 2 and 3 of the common preconditions (R401): which commands test them first, and how such a command ends where one
fails. -/

namespace Sys2Proof.Machine

open Sys2Proof

variable {i : Instr} {s : State} {b : Bool}

/-- An instruction of a requester tests the common preconditions before anything else; `b` says that it is in the list of step 3. -/
def TestsFirst (i : Instr) (b : Bool) : Prop :=
  ∃ (p : Operands → Prog) (bad : Option Nat) (k : Operands → Prog),
    (∀ s, exec i s = runCmd i p s) ∧ (∀ op, p op = precond b bad (k op)) ∧ bad.map (BitVec.ofNat 32) = failIndex i

/-- The commands of R401 step 3. -/
theorem testsFirst_fatal (hi : i ∈ [.createQp, .modifyQp, .queryQp, .postSend, .postRecv, .createCq, .createSrq, .postSrqRecv]
    ∨ ∃ sol, i = .reqNotifyCq sol) : TestsFirst i true := by
  simp only [List.mem_cons, List.not_mem_nil, or_false] at hi
  rcases hi with (rfl | rfl | rfl | rfl | rfl | rfl | rfl | rfl) | ⟨sol, rfl⟩
  · exact ⟨createQpProg, none, _, fun _ => rfl, fun _ => rfl, rfl⟩
  · exact ⟨modifyQpProg, none, _, fun _ => rfl, fun _ => rfl, rfl⟩
  · exact ⟨queryQpProg, none, _, fun _ => rfl, fun _ => rfl, rfl⟩
  · exact ⟨postSendProg, some 0, _, fun _ => rfl, fun _ => rfl, rfl⟩
  · exact ⟨postRecvProg, some 0, _, fun _ => rfl, fun _ => rfl, rfl⟩
  · exact ⟨createCqProg, none, _, fun _ => rfl, fun _ => rfl, rfl⟩
  · exact ⟨createSrqProg, none, _, fun _ => rfl, fun _ => rfl, rfl⟩
  · exact ⟨postSrqRecvProg, some 0, _, fun _ => rfl, fun _ => rfl, rfl⟩
  · exact ⟨reqNotifyCqProg sol, none, _, fun _ => rfl, fun _ => rfl, rfl⟩

/-- The commands that go on after a fatal failure (R401 step 3). -/
theorem testsFirst_notFatal (hi : i ∈ [.deviceStop, .destroyQp, .pollCq, .destroyCq, .destroySrq]) : TestsFirst i false := by
  simp only [List.mem_cons, List.not_mem_nil, or_false] at hi
  rcases hi with rfl | rfl | rfl | rfl | rfl
  · exact ⟨deviceStopProg, none, _, fun _ => rfl, fun _ => rfl, rfl⟩
  · exact ⟨destroyQpProg, none, _, fun _ => rfl, fun _ => rfl, rfl⟩
  · exact ⟨pollCqProg, none, _, fun _ => rfl, fun _ => rfl, rfl⟩
  · exact ⟨destroyCqProg, none, _, fun _ => rfl, fun _ => rfl, rfl⟩
  · exact ⟨destroySrqProg, none, _, fun _ => rfl, fun _ => rfl, rfl⟩

/-- Where a precondition fails, the command raises at once, having changed nothing. -/
theorem TestsFirst.exec_fails {st : Status} (hi : TestsFirst i b) (hs : s.idle)
    (hfails : ∀ bad k t, Runs (precond b bad k) (s.beginCmd i) t ↔ Runs (raise st bad) (s.beginCmd i) t) :
    exec i s = .next (s.ended { status := some st, badIndex := failIndex i }) := by
  obtain ⟨p, bad, k, hexec, hp, hbad⟩ := hi
  rw [hexec, ← hbad]
  refine hs.runCmd ?_
  rw [hp, hfails]
  exact (runs_raise_begin hs.unlocked).mpr rfl

/-- Settles O17: all fourteen commands test step 2 first. -/
theorem notStarted : Obligations.NotStarted := by
  intro i s hs hstopped hi
  have htests : ∃ b, TestsFirst i b := by
    by_cases hfatal : i ∈ [.createQp, .modifyQp, .queryQp, .postSend, .postRecv, .createCq, .createSrq, .postSrqRecv]
        ∨ ∃ sol, i = .reqNotifyCq sol
    · exact ⟨true, testsFirst_fatal hfatal⟩
    · refine ⟨false, testsFirst_notFatal ?_⟩
      simp only [List.mem_cons, List.not_mem_nil, or_false] at hi hfatal ⊢
      tauto
  obtain ⟨b, hb⟩ := htests
  exact hb.exec_fails hs fun _ _ _ => runs_precond_notStarted (s := s.beginCmd i) hstopped

/-- Settles O18: the nine commands test step 3 before anything else but step 2. -/
theorem deviceFatal : Obligations.DeviceFatal := fun i s hs hstarted hfatal hi =>
  (testsFirst_fatal hi).exec_fails hs fun _ _ _ => runs_precond_fatal (s := s.beginCmd i) hstarted hfatal

end Sys2Proof.Machine
end

section
/-! SUPPORT. The events that are handled (R423): a completion event of a live CQ (R424), a QP event of a live QP (R426), a fatal failure
(R427). -/

namespace Sys2Proof.Machine

open Sys2Proof

variable {s t u : State} {q : Nat} {x y z : Qp}

/-! ### The run of an event -/

/-- An event whose program ends in `u`, but for the record of the event agent, leaves `u` and the mark of the event's end. -/
theorem runEvent_of_runs_end {i : Instr} {p : Operands → Prog} (he : s.eventIdle)
    (h : ∀ op, Runs (p op) ((s.setCur eventAgent).beginCmd i) (u.beginCmd i).endCmd) : runEvent i p s = .next (u.ended {}) := by
  obtain ⟨hcmd, hslice, -⟩ := he
  rw [← beginCmd_endCmd u i]
  exact runEvent_of_runs hcmd hslice (h _)

theorem State.eventIdle.unlocked (he : s.eventIdle) (i : Instr) : ((s.setCur eventAgent).beginCmd i).unlocked := by
  obtain ⟨-, -, hlocks⟩ := he
  exact hlocks

/-! ### Completion events (R424) -/

/-- A completion event for the number of a live CQ counts the CQ's arm and emits its handle, under the lock of its shard. -/
theorem runs_eventCompletion {num : Num24} {c : Nat} {y : Cq} (op : Operands) (hu : s.unlocked) (hstarted : s.started = true)
    (hn : s.lookupNum .cq num = some c) (hc : c ≠ 0) (hy : s.cq? c = some y) :
    Runs (eventCompletionProg num op) s t ↔
      t = ((s.setCq c { y with armSn := y.armSn + 1 }).emit (.completion (s.handleOf .cq (s.indexOf .cq num)))).endCmd := by
  have hfree := hu.holder (s.shardLock .cq (s.indexOf .cq num))
  let u := (s.setCq c { y with armSn := y.armSn + 1 }).emit (.completion (s.handleOf .cq (s.indexOf .cq num)))
  have hcount : armSnNextAct num (s.lockShard .cq (s.indexOf .cq num)) =
      .ok c ((s.setCq c { y with armSn := y.armSn + 1 }).lockShard .cq (s.indexOf .cq num)) := by
    have hn' : (s.lockShard .cq (s.indexOf .cq num)).lookupNum .cq num = some c := hn
    rw [armSnNextAct, hn']
    exact withCq_eq (s := s.lockShard .cq (s.indexOf .cq num)) hy _
  have hrelease : releaseAct (u.shardLock .cq (u.indexOf .cq num)) (u.lockShard .cq (u.indexOf .cq num)) = .ok 0 u :=
    releaseAct_shardLock hfree
  unfold eventCompletionProg
  rw [runs_whileStarted hstarted,
    runs_act_ok (f := fun s => acquireAct (s.shardLock .cq (s.indexOf .cq num)) s) (acquireAct_shardLock hfree),
    runs_act_ok hcount]
  simp only [if_neg hc]
  rw [runs_eff]
  exact (runs_act_ok (f := fun s => releaseAct (s.shardLock .cq (s.indexOf .cq num)) s) (k := fun _ => .done) hrelease).trans runs_done

/-- Settles O49: the run of `runs_eventCompletion`. -/
theorem eventCompletion : Obligations.EventCompletion := fun _ _ _ _ he hstarted hn hc hy =>
  runEvent_of_runs_end he fun op => (runs_eventCompletion op (he.unlocked _) hstarted hn hc hy).mpr rfl

/-! ### The delivery of an event to a QP (R348) -/

/-- A step of a delivery on its QP, under the QP's modify lock. -/
theorem runs_delivery {step : State → State} {k : Prog} (hu : s.unlocked)
    (hstep : ∀ l, step ((s.setQp q y).setLocks l) = (s.setQp q z).setLocks l) :
    Runs (acquire (.mlock q) <| eff step <| release (.mlock q) k) (s.setQp q y) t ↔ Runs k (s.setQp q z) t := by
  have hlocks : s.locks = [] := hu
  rw [runs_acquire, and_iff_right (State.unlocked.holder (s := s.setQp q y) hu _), runs_eff, hstep,
    runs_release_newest (l := []) (by simp [hlocks]) rfl]
  refine iff_of_eq (congrArg₂ _ ?_ rfl)
  ext1 <;> simp [hlocks]

/-- `UNREF` (R348). -/
theorem runs_unref {i : Nat} {k : Prog} (hu : s.unlocked) :
    Runs (unref q i k) (s.setQp q y) t ↔ Runs k (s.setQp q { y with refcount := y.refcount - 1 }) t := by
  unfold unref
  rw [runs_underShardAt (a := 0) (s1 := s.setQp q { y with refcount := y.refcount - 1 })
    (State.unlocked.holder (s := s.setQp q y) hu _) ?_ rfl rfl rfl]
  have hy : ((s.setQp q y).lockShard .qp i).qp? q = some y := assocGet_assocSet_self ..
  refine congrArg (ActRes.ok 0) ?_
  rw [onQp, hy]
  ext1 <;> simp [State.lockShard]

/-! ### QP events (R426) -/

theorem drained_setQp {ty : Byte} (l : List (Lock × Nat)) : drained q ty ((s.setQp q y).setLocks l) =
    (s.setQp q { y with state := if ty = 2 ∧ y.state = .draining then .sqd else y.state }).setLocks l := by
  have hy : ((s.setQp q y).setLocks l).qp? q = some y := assocGet_assocSet_self ..
  rw [drained, onQp, hy]
  simp only
  split_ifs with h
  · ext1 <;> simp
  · rfl

/-- A QP event of an assigned type for the number of a live QP. -/
theorem runs_eventQp {num : Num24} {ty : Byte} (op : Operands) (hu : s.unlocked) (hstarted : s.started = true)
    (hty : ty.toNat ≤ 6) (hn : s.lookupNum .qp num = some q) (hq : q ≠ 0) (hx : s.qp? q = some x) :
    Runs (eventQpProg num ty op) s t ↔
      t = ((s.setQp q { x with state := if ty = 2 ∧ x.state = .draining then .sqd else x.state }).emit
        (.qpEvent x.self ty)).endCmd := by
  have href : refNumAct num (s.lockShard .qp (s.indexOf .qp num)) =
      .ok q ((s.setQp q { x with refcount := x.refcount + 1 }).lockShard .qp (s.indexOf .qp num)) := by
    have hn' : (s.lockShard .qp (s.indexOf .qp num)).lookupNum .qp num = some q := hn
    rw [refNumAct, hn']
    exact withQp_eq (s := s.lockShard .qp (s.indexOf .qp num)) hx _
  let y : Qp := { x with refcount := x.refcount + 1, state := if ty = 2 ∧ x.state = .draining then .sqd else x.state }
  have hemit : onQp q (fun s x => s.emit (.qpEvent x.self ty)) (s.setQp q y) = (s.emit (.qpEvent x.self ty)).setQp q y := by
    have hy : (s.setQp q y).qp? q = some y := assocGet_assocSet_self ..
    rw [onQp, hy]
    rfl
  unfold eventQpProg
  rw [if_neg (Nat.not_lt.mpr hty), runs_whileStarted hstarted, runs_ask,
    runs_underShardAt (s1 := s.setQp q { x with refcount := x.refcount + 1 }) (hu.holder _) href rfl rfl rfl, if_neg hq,
    runs_delivery (z := y) hu drained_setQp, runs_eff, hemit, runs_unref (s := s.emit (.qpEvent x.self ty)) hu, runs_done]
  rfl

/-- Settles O50: the run of `runs_eventQp`, read field by field. -/
theorem eventQp : Obligations.EventQp := fun s _ ty q x he hstarted hty hn hq hx =>
  ⟨_, runEvent_of_runs_end (u := ((s.setCur eventAgent).setQp q
      { x with state := if ty = 2 ∧ x.state = .draining then .sqd else x.state }).emit (.qpEvent x.self ty)) he
      fun op => (runs_eventQp op (he.unlocked _) hstarted hty hn hq hx).mpr rfl,
    assocGet_assocSet_self .., fun _ hp => assocGet_assocSet_ne _ _ hp, rfl, rfl⟩

/-! ### A fatal failure (R427) -/

/-- The lookup entry `i` names the QP at the arena index `q`. -/
def State.entryNames (s : State) (i q : Nat) : Prop := ∃ o, (s.entry .qp i).occ = some o ∧ o.obj = q

/-- A QP after a fatal failure. -/
def Qp.failed (x : Qp) : Qp := { x with state := .err }

/-- `u` is `s` with the QPs that the entries below `n` name in ERR. -/
structure State.FailedBelow (s u : State) (n : Nat) : Prop where
  frame : u = { s with qps := u.qps }
  named : ∀ i q, i < n → s.entryNames i q → u.qp? q = (s.qp? q).map Qp.failed
  others : ∀ q, (∀ i, i < n → ¬ s.entryNames i q) → u.qp? q = s.qp? q

namespace State.FailedBelow

variable {n : Nat}

theorem zero (s : State) : s.FailedBelow s 0 := ⟨rfl, fun _ _ h => absurd h (Nat.not_lt_zero _), fun _ _ => rfl⟩

/-- A QP that was there is there, in ERR or as it was. -/
theorem qp_eq_some (h : s.FailedBelow u n) (hx : s.qp? q = some x) : ∃ y, u.qp? q = some y ∧ y.failed = x.failed := by
  by_cases hq : ∃ i, i < n ∧ s.entryNames i q
  · obtain ⟨i, hi, hiq⟩ := hq
    exact ⟨x.failed, by rw [h.named i q hi hiq, hx, Option.map_some], rfl⟩
  · exact ⟨x, (h.others q fun i hi hiq => hq ⟨i, hi, hiq⟩).trans hx, rfl⟩

/-- One entry more, which is empty. -/
theorem succ_empty (h : s.FailedBelow u n) (he : (s.entry .qp n).occ = none) : s.FailedBelow u (n + 1) := by
  have hnone : ∀ q, ¬ s.entryNames n q := fun q ⟨o, ho, _⟩ => by rw [he] at ho; cases ho
  refine ⟨h.frame, fun i q hi hiq => h.named i q ?_ hiq, fun q hq => h.others q fun i hi => hq i (hi.trans (Nat.lt_succ_self n))⟩
  exact lt_of_le_of_ne (Nat.le_of_lt_succ hi) fun hin => hnone q (hin ▸ hiq)

/-- One entry more, whose QP is set to ERR. -/
theorem succ_live (h : s.FailedBelow u n) (hq : s.entryNames n q) (hx : s.qp? q = some x) (hy : y.failed = x.failed) :
    s.FailedBelow (u.setQp q y.failed) (n + 1) := by
  refine ⟨by rw [h.frame]; rfl, fun i p hi hip => ?_, fun p hp => ?_⟩
  · by_cases hpq : p = q
    · subst hpq
      rw [State.setQp_qp_self, hx, hy, Option.map_some]
    · have hin : i ≠ n := by
        rintro rfl
        obtain ⟨o, ho, rfl⟩ := hip
        obtain ⟨o', ho', rfl⟩ := hq
        cases ho.symm.trans ho'
        exact hpq rfl
      rw [State.setQp_qp_ne _ _ hpq]
      exact h.named i p (lt_of_le_of_ne (Nat.le_of_lt_succ hi) hin) hip
  · have hpq : p ≠ q := fun hpq => hp n (Nat.lt_succ_self n) (hpq ▸ hq)
    rw [State.setQp_qp_ne _ _ hpq]
    exact h.others p fun i hi => hp i (hi.trans (Nat.lt_succ_self n))

end State.FailedBelow

theorem setErr_setQp (l : List (Lock × Nat)) : setErr q ((s.setQp q y).setLocks l) = (s.setQp q y.failed).setLocks l := by
  have hy : ((s.setQp q y).setLocks l).qp? q = some y := assocGet_assocSet_self ..
  rw [setErr, onQp, hy]
  ext1 <;> simp [Qp.failed]

/-- One entry of the loop, which is empty. -/
theorem runs_fatalLoop_empty {todo i : Nat} {k : Prog} (hu : s.unlocked) (he : (s.entry .qp i).occ = none) :
    Runs (fatalLoop (todo + 1) i k) s t ↔ Runs (fatalLoop todo (i + 1) k) s t := by
  have href : refEntryAct i (s.lockShard .qp i) = .ok 0 (s.lockShard .qp i) := by
    have he' : ((s.lockShard .qp i).entry .qp i).occ = none := he
    rw [refEntryAct, he']
  rw [fatalLoop, runs_underShardAt (hu.holder _) href rfl rfl rfl, if_pos rfl]

/-- One entry of the loop, whose QP is set to ERR. -/
theorem runs_fatalLoop_live {todo i : Nat} {k : Prog} {o : Occupant} (hu : s.unlocked) (he : (s.entry .qp i).occ = some o)
    (ho : o.obj ≠ 0) (hx : s.qp? o.obj = some x) :
    Runs (fatalLoop (todo + 1) i k) s t ↔ Runs (fatalLoop todo (i + 1) k) (s.setQp o.obj x.failed) t := by
  have href : refEntryAct i (s.lockShard .qp i) =
      .ok o.obj ((s.setQp o.obj { x with refcount := x.refcount + 1 }).lockShard .qp i) := by
    have he' : ((s.lockShard .qp i).entry .qp i).occ = some o := he
    rw [refEntryAct, he']
    exact withQp_eq (s := s.lockShard .qp i) hx _
  rw [fatalLoop, runs_underShardAt (s1 := s.setQp o.obj { x with refcount := x.refcount + 1 }) (hu.holder _) href rfl rfl rfl,
    if_neg ho, runs_delivery hu setErr_setQp, runs_unref hu]
  rfl

/-- The loop of a fatal failure over `todo` entries, from the `i`th on. -/
theorem runs_fatalLoop (hu : s.unlocked)
    (hlive : ∀ i o, (s.entry .qp i).occ = some o → o.obj ≠ 0 ∧ (s.qp? o.obj).isSome) (todo : Nat) :
    ∀ i u, s.FailedBelow u i → ∃ v, s.FailedBelow v (i + todo) ∧ ∀ k t, Runs (fatalLoop todo i k) u t ↔ Runs k v t := by
  induction todo with
  | zero => exact fun i u h => ⟨u, h, fun _ _ => Iff.rfl⟩
  | succ todo ih =>
    intro i u h
    have hentry : u.entry .qp i = s.entry .qp i := by rw [h.frame]; rfl
    have hunlocked : u.unlocked := by rw [h.frame]; exact hu
    rw [show i + (todo + 1) = i + 1 + todo by omega]
    cases he : (s.entry .qp i).occ with
    | none =>
      obtain ⟨v, hv, hrun⟩ := ih (i + 1) u (h.succ_empty he)
      exact ⟨v, hv, fun k t => (runs_fatalLoop_empty hunlocked (hentry ▸ he)).trans (hrun k t)⟩
    | some o =>
      obtain ⟨ho, hsome⟩ := hlive i o he
      obtain ⟨x, hx⟩ := Option.isSome_iff_exists.mp hsome
      obtain ⟨y, hy, hyx⟩ := h.qp_eq_some hx
      obtain ⟨v, hv, hrun⟩ := ih (i + 1) _ (h.succ_live ⟨o, he, rfl⟩ hx hyx)
      exact ⟨v, hv, fun k t => (runs_fatalLoop_live hunlocked (hentry ▸ he) ho hy).trans (hrun k t)⟩

/-- Settles O51: the loop passes every entry of the table, so that every live QP is in ERR after it. -/
theorem eventFatal : Obligations.EventFatal := by
  intro s he hstarted htables hlive
  let b := ((s.setCur eventAgent).beginCmd .eventFatal).setFatal true
  obtain ⟨v, hv, hrun⟩ := runs_fatalLoop (s := b) (he.unlocked .eventFatal) hlive s.cfg.numQps 0 b (.zero b)
  rw [Nat.zero_add] at hv
  let u : State := { s with cur := eventAgent, fatal := true, qps := v.qps, eventOut := s.eventOut ++ [.fatal] }
  have hend : (u.beginCmd .eventFatal).endCmd = (v.emit .fatal).endCmd := by
    rw [hv.frame]
    rfl
  have hexec : exec .eventFatal s = .next (u.ended {}) := by
    refine runEvent_of_runs_end (i := .eventFatal) he fun op => ?_
    rw [eventFatalProg, runs_whileStarted (s := (s.setCur eventAgent).beginCmd .eventFatal) hstarted, runs_eff, runs_ask]
    refine (hrun _ _).mpr ?_
    rw [runs_eff, runs_done]
    exact hend
  have hbelow : ∀ i o, (s.entry .qp i).occ = some o → i < s.cfg.numQps := fun i o ho => by
    by_contra hi
    have hempty : s.entry .qp i = {} := List.getD_eq_default _ _ ((table_length htables .qp).trans_le (Nat.le_of_not_lt hi))
    rw [hempty] at ho
    cases ho
  refine ⟨_, hexec, fun i o x ho hx => ?_, fun q hq => ?_, rfl, rfl⟩
  · refine (hv.named i o.obj (hbelow i o ho) ⟨o, ho, rfl⟩).trans ?_
    exact congrArg (Option.map Qp.failed) hx
  · exact hv.others q fun i _ ⟨o, ho, hoq⟩ => hq i o ho hoq

end Sys2Proof.Machine
end

section
/-! SUPPORT. Where the machine stops (R430, R431). `StopsAt p s e` says that the program `p`, started in `s`, comes to a step that
faults with `e`; as for waits, a program with a hole (`Open`) brings the laws of `Runs` to programs that stop. -/

namespace Sys2Proof.Machine

open Sys2Proof

/-- The program, started in the state, comes to a step that stops the machine. -/
inductive StopsAt : Prog → State → Fault → Prop where
  | here {f : State → ActRes} {k : Nat → Prog} {s : State} {e : Fault} : f s = .fault e → StopsAt (.act f k) s e
  | act {f : State → ActRes} {k : Nat → Prog} {a : Nat} {s s' : State} {e : Fault} :
      f s = .ok a s' → StopsAt (k a) s' e → StopsAt (.act f k) s e

theorem StopsAt.run {p : Prog} {s : State} {e : Fault} (h : StopsAt p s e) : ∀ log, p.run none log s = .fault e := by
  induction h with
  | here hf => exact fun log => by simp [Prog.run, hf]
  | @act _ _ a _ _ _ hf _ ih => exact fun log => by simp [Prog.run, hf, ih (a :: log)]

/-! ### Programs with a hole -/

/-- As `Open.reaches`, of a rest that stops. -/
theorem Open.reaches_stop {C : (Nat → Prog) → Prog} (hC : Open C) (s : State) :
    (∃ b v, (∀ k t, Runs (C k) s t → Runs (k b) v t) ∧ ∀ k e, StopsAt (k b) v e → StopsAt (C k) s e)
    ∨ ∀ k k' t, Runs (C k) s t → Runs (C k') s t := by
  induction hC generalizing s with
  | hole a => exact .inl ⟨a, s, fun _ _ => id, fun _ _ => id⟩
  | fixed p => exact .inr fun _ _ _ => id
  | act f _ ih =>
    cases hf : f s with
    | ok a s' =>
      simp only [runs_act_ok hf]
      obtain ⟨b, v, hto, hstop⟩ | hfixed := ih a s'
      · exact .inl ⟨b, v, hto, fun k e hk => .act hf (hstop k e hk)⟩
      · exact .inr hfixed
    | wait => exact .inr fun k k' t h => by simp [runs_act, hf] at h
    | fault e => exact .inr fun k k' t h => by simp [runs_act, hf] at h

/-- Where the runs of a program with a hole are those of the rest in one state, the program stops where the rest does. -/
theorem Open.stops {C : (Nat → Prog) → Prog} (hC : Open C) {a : Nat} {s u : State} {e : Fault} {k : Nat → Prog}
    (hruns : ∀ k t, Runs (C k) s t ↔ Runs (k a) u t) (hk : StopsAt (k a) u e) : StopsAt (C k) s e := by
  obtain ⟨b, v, hto, hstop⟩ | hfixed := hC.reaches_stop s
  · have hprobe : Runs (C (probe a u)) s u.endCmd := (hruns _ _).mpr (runs_probe.mpr ⟨⟨rfl, rfl⟩, rfl⟩)
    obtain ⟨⟨rfl, rfl⟩, -⟩ := runs_probe.mp (hto _ _ hprobe)
    exact hstop _ _ hk
  · have hdone : Runs (C fun _ => .done) s u.endCmd := (hruns _ _).mpr .done
    obtain ⟨h, -⟩ := runs_guard.mp ((hruns _ _).mp (hfixed _ (fun _ => useFault) _ hdone))
    cases h

/-! ### Steps -/

section
variable {f : State → ActRes} {s s1 u : State} {k : Nat → Prog} {p : Prog} {a : Nat} {e : Fault}

theorem stopsAt_ask {g : State → Nat} (h : StopsAt (k (g s)) s e) : StopsAt (ask g k) s e := .act rfl h

theorem stopsAt_eff {g : State → State} (h : StopsAt p (g s) e) : StopsAt (eff g p) s e := .act rfl h

theorem stopsAt_guard {c : State → Bool} (hc : c s = false) : StopsAt (guard c e p) s e :=
  .here (if_neg (Bool.eq_false_iff.mp hc))

/-- The work on an entry goes on as its runs do. -/
theorem stopsAt_underShard {kind : Kind} {i : State → Nat} (hk : s.holder (s.shardLock kind (i s)) = none)
    (hf : f (s.lockShard kind (i s)) = .ok a (s.lockShard kind (i s))) (h : StopsAt (k a) s e) :
    StopsAt (underShard kind i f k) s e :=
  stopsAt_ask ((Open.underShardAt .hole).stops (fun _ _ => runs_underShardAt (s1 := s) hk hf rfl rfl rfl) h)

/-- The work on an entry stops where it does under the lock of the entry's shard. -/
theorem stopsAt_underShardAt {kind : Kind} {i : Nat} (hk : s.holder (s.shardLock kind i) = none)
    (hf : f (s.lockShard kind i) = .fault e) : StopsAt (underShardAt kind i f k) s e :=
  .act (acquireAct_shardLock hk) (.here hf)

end

/-! ### Commands -/

/-- A command of a requester that can issue, where its program stops. -/
theorem State.ready.runCmd_stops {i : Instr} {p : Operands → Prog} {s : State} {e : Fault} (hs : s.ready)
    (hi : s.issueFaults i = false) (h : StopsAt (p s.me.op) (s.beginCmd i) e) : runCmd i p s = .fault e := by
  obtain ⟨-, hcmd, hslice⟩ := hs
  simp [runCmd, hi, runOn, hcmd, hslice, h.run []]

/-- Every instruction but an event is a requester's command. -/
theorem exec_eq_runCmd {i : Instr} (hi : (encode i).1 ≠ .event) : ∃ p, ∀ s, exec i s = runCmd i p s := by
  cases i
  case eventCompletion => exact absurd rfl hi
  case eventQp => exact absurd rfl hi
  case eventFatal => exact absurd rfl hi
  case eventOther => exact absurd rfl hi
  all_goals exact ⟨_, fun _ => rfl⟩

end Sys2Proof.Machine
end

section
/-! SUPPORT. The breaches of the usage rules that stop the machine (R430, R431), and the inputs that are refused. -/

namespace Sys2Proof.Machine

open Sys2Proof

variable {s : State} {i : Instr} {kind : Kind} {h : Handle} {o : Nat}

/-! ### Issues (R430, R441) -/

/-- A command that overlaps a `DEVICE_STOP`, or names an object that is being destroyed. -/
theorem State.ready.exec_issueFaults (hs : s.ready) (hi : (encode i).1 ≠ .event) (h : s.issueFaults i = true) :
    exec i s = .fault .useDuringDestroy := by
  obtain ⟨p, hexec⟩ := exec_eq_runCmd hi
  obtain ⟨-, hcmd, -⟩ := hs
  rw [hexec, runCmd, if_pos ⟨hcmd, h⟩]

theorem issueFaults_iff : s.issueFaults i = true ↔ s.stopInProgress = true ∨ (i = .deviceStop ∧ s.othersIdle = false)
    ∨ ∃ h ∈ namedHandles i s.me.op, s.beingDestroyed h = true := by
  simp [State.issueFaults, State.overlapsStop, or_assoc]

/-! ### Destroys (R430, R182) -/

/-- The destroy of a CQ or an SRQ that another command uses. -/
theorem stopsAt_destroyUsed {fail : Prog} {fin : Status → Prog} {k : Nat → Prog} (hst : s.started = true)
    (hn : s.names kind h o) (ha : s.attachOf kind o = 0) (hfree : ∀ sh, s.holder (.shard kind sh) = none)
    (hu : s.usedByOther h = true) :
    StopsAt (precond false none <| resolve kind h false fail fun o => removeUnattached kind h fin <| k o) (s.beginCmd i)
      .useDuringDestroy := by
  have ha' : ((s.beginCmd i).lockShard kind h.index.toNat).attachOf kind o = 0 := by cases kind <;> exact ha
  have hlookup : ((s.beginCmd i).lockShard kind h.index.toNat).lookup kind h = some o := by simpa using hn.1
  have hu' : (s.beginCmd i).usedByOther h = true := by simpa [State.usedByOther] using hu
  have hremove : removeUnattachedAct kind h ((s.beginCmd i).lockShard kind h.index.toNat) = .fault .useDuringDestroy := by
    simp only [removeUnattachedAct, hlookup, ha']
    exact if_pos hu'
  refine (Open.precond (.resolve .hole)).stops (u := s.beginCmd i) (a := o) (fun k _ => ?_)
    (stopsAt_underShardAt (s := s.beginCmd i) (hfree _) hremove)
  rw [runs_precond (s := s.beginCmd i) hst (fun _ => rfl),
    runs_resolve_found (s := s.beginCmd i) (use := false) hn.1 hn.2 nofun (hfree _), State.noteUse, if_neg Bool.false_ne_true]

theorem exec_destroyCq_used {c : Nat} {y : Cq} (hs : s.ready) (hstop : s.stopInProgress = false) (hst : s.started = true)
    (hn : s.names .cq s.me.op.cq c) (hy : s.cq? c = some y) (ha : y.attach = 0) (hfree : ∀ sh, s.holder (.shard .cq sh) = none)
    (hu : s.usedByOther s.me.op.cq = true) : exec .destroyCq s = .fault .useDuringDestroy :=
  hs.runCmd_stops (p := destroyCqProg) (issueFaults_of_named hstop nofun nofun)
    (stopsAt_destroyUsed hst hn (by simpa [State.attachOf, hy] using ha) hfree hu)

theorem exec_destroySrq_used {r : Nat} {y : Srq} (hs : s.ready) (hstop : s.stopInProgress = false) (hst : s.started = true)
    (hop : s.me.op.srq = some h) (hn : s.names .srq h r) (hy : s.srq? r = some y) (ha : y.attach = 0)
    (hfree : ∀ sh, s.holder (.shard .srq sh) = none) (hu : s.usedByOther h = true) :
    exec .destroySrq s = .fault .useDuringDestroy := by
  refine hs.runCmd_stops (p := destroySrqProg) (issueFaults_of_named hstop nofun nofun) ?_
  rw [destroySrqProg, srqOperand_some hop]
  exact stopsAt_destroyUsed hst hn (by simpa [State.attachOf, hy] using ha) hfree hu

theorem exec_destroyQp_used {q : Nat} (hs : s.ready) (hstop : s.stopInProgress = false) (hst : s.started = true)
    (hn : s.names .qp s.me.op.qp q) (hfree : ∀ sh, s.holder (.shard .qp sh) = none) (hu : s.usedByOther s.me.op.qp = true) :
    exec .destroyQp s = .fault .useDuringDestroy := by
  let b := s.beginCmd .destroyQp
  have hrange : s.me.op.qp.index.toNat < Config.entries b.cfg .qp := (lookup_inRange hn.1).2
  have hlookup : (b.lockShard .qp s.me.op.qp.index.toNat).lookup .qp s.me.op.qp = some q := by simpa [b] using hn.1
  have hu' : b.usedByOther s.me.op.qp = true := by simpa [b, State.usedByOther] using hu
  have hresolve : resolveDestroyAct .qp s.me.op.qp (b.lockShard .qp s.me.op.qp.index.toNat) = .fault .useDuringDestroy := by
    rw [resolveDestroyAct, hlookup]
    exact if_pos hu'
  refine hs.runCmd_stops (p := destroyQpProg) (issueFaults_of_named hstop nofun nofun) ?_
  refine (Open.precond (.hole 0)).stops (u := b) (a := 0) (fun k _ => runs_precond (s := b) hst fun _ => rfl)
    (k := fun _ => destroyQpSteps s.me.op.qp true endWith) (stopsAt_ask ?_)
  rw [if_pos hrange, if_neg Nat.one_ne_zero]
  exact stopsAt_underShardAt (hfree _) hresolve

/-! ### Buffers of creates (R430) -/

section
variable {op : Operands}

/-- A create without handles whose operands are in range, on a buffer it may not take. -/
theorem stopsAt_createBuffer {bad : State → Bool} {out p : Prog} {buf : State → Nat × Nat} (hs : s.quietStart)
    (hbad : bad (s.beginCmd i) = false) (hbuf : (s.beginCmd i).bufferOk (buf (s.beginCmd i)) = false) :
    StopsAt (precond true none <| ask (fun s => if bad s then 1 else 0) fun b =>
      if b = 1 then out else guard (fun s => s.bufferOk (buf s)) .badBuffer p)
      (s.beginCmd i) .badBuffer := by
  obtain ⟨-, hst, hfatal⟩ := hs
  refine (Open.precond (.hole 0)).stops (u := s.beginCmd i) (a := 0)
    (fun k _ => runs_precond (s := s.beginCmd i) hst fun h => absurd (h.symm.trans hfatal) nofun)
    (k := fun _ => ask _ _) (stopsAt_ask ?_)
  rw [hbad]
  exact stopsAt_guard hbuf

theorem exec_createCq_badBuffer (hs : s.quietStart) (hop : s.me.op = op) (hbad : createCqBad op s = false)
    (hbuf : s.bufferOk (createCqBuf op s) = false) : exec .createCq s = .fault .badBuffer := by
  obtain ⟨⟨hready, halone, -⟩, -⟩ := id hs
  refine hready.runCmd_stops (p := createCqProg) (halone.mayIssue _) ?_
  rw [hop]
  exact stopsAt_createBuffer hs hbad hbuf

theorem exec_createSrq_badBuffer (hs : s.quietStart) (hop : s.me.op = op) (hbad : createSrqBad op s = false)
    (hbuf : s.bufferOk (createSrqBuf op s) = false) : exec .createSrq s = .fault .badBuffer := by
  obtain ⟨⟨hready, halone, -⟩, -⟩ := id hs
  refine hready.runCmd_stops (p := createSrqProg) (halone.mayIssue _) ?_
  rw [hop]
  exact stopsAt_createBuffer hs hbad hbuf

theorem Open.resolveSrqOperand {C : (Nat → Prog) → Prog} (hC : Open C) : Open fun k => resolveSrqOperand op (C k) := by
  unfold Machine.resolveSrqOperand
  cases op.srq with
  | none => exact hC
  | some h => exact .resolve fun _ => hC

theorem exec_createQp_badBuffer {c1 c2 : Nat} (hs : s.quietStart) (hop : s.me.op = op) (h1 : s.names .cq op.sendCq c1)
    (h2 : s.names .cq op.recvCq c2) (hsrq : ∀ h, op.srq = some h → ∃ r, s.names .srq h r) (hbad : createQpBad op s = false)
    (hbuf : s.bufferOk (createQpBuf op s) = false) : exec .createQp s = .fault .badBuffer := by
  obtain ⟨⟨hready, halone, -⟩, -⟩ := id hs
  obtain ⟨uses, hresolves⟩ := runs_createQp_resolves hs h1 h2 hsrq
  refine hready.runCmd_stops (p := createQpProg) (halone.mayIssue _) ?_
  rw [hop]
  refine (Open.precond (.resolve fun _ => .resolve fun _ => .resolveSrqOperand (.hole 0))).stops (a := 0)
    (fun k t => hresolves _ _ (k 0) t) (k := fun _ => ask _ _) (stopsAt_ask ?_)
  have hbad' : createQpBad op (s.creating uses []) = false := hbad
  rw [hbad']
  exact stopsAt_guard hbuf

end

/-! ### Unset work-request ids (R34) -/

section
variable {c q a idx : Nat} {y : Cq} {x : Qp} {isSend : Bool}

/-- `POLL_ONE` of a CQE whose WQE has no work-request id. -/
theorem stopsAt_pollOne_unset {n f d : Nat} {next : Nat → Nat → Nat → Prog}
    (hq : s.lookupNum .qp (s.cqeQpn a) = some q) (hq0 : q ≠ 0) (hx : s.qp? q = some x) (hsnd : s.cqeIsSend a = isSend)
    (hsrq : isSend = false → x.srq = none) (hidx : x.wqeIndex isSend (s.cqeWord a 0x18).toNat = some idx)
    (hw : (x.ring isSend).wrid.getD idx none = none) :
    StopsAt (pollOne c a n f d next) (polling s i c).rmb .readUnset := by
  let u := (polling s i c).rmb
  have hqpn : u.cqeQpn a = s.cqeQpn a := by simp [u, polling, State.cqeQpn, State.cqeWord, State.memRead]
  have hsend : u.cqeIsSend a = isSend := by simp [u, ← hsnd, polling, State.cqeIsSend, State.cqeByte]
  have hwqe : u.cqeWord a 0x18 = s.cqeWord a 0x18 := by simp [u, polling, State.cqeWord, State.memRead]
  have hqp : u.qp? q = some x := by simpa [u, polling] using hx
  have hown : ¬ (isSend = false ∧ (u.srqHandle q).isSome) := by
    rintro ⟨h1, h2⟩
    simp [State.srqHandle, hqp, hsrq h1] at h2
  have hindex : qpIndexAct q isSend (s.cqeWord a 0x18).toNat u = .ok (idx + 1) u := by
    rw [qpIndexAct, withQp_eq hqp, hidx]
  have hwrid : qpWridAct q isSend idx u = .fault .readUnset := by
    rw [qpWridAct, withQp_eq hqp, readWrid, hw]
  unfold pollOne
  refine stopsAt_ask (stopsAt_ask (stopsAt_ask ?_))
  simp only [hqpn, hsend, hwqe, ofNat_isSend, BitVec.ofNat_toNat, BitVec.setWidth_eq, u]
  refine stopsAt_underShard (a := q) (by simp [polling, State.holder, holderIn, State.shardLock]) ?_ ?_
  · simp [polling, State.lockShard, hq]
  · rw [if_neg hq0]
    refine stopsAt_ask ?_
    rw [if_neg hown, if_neg Nat.zero_ne_one]
    exact .act hindex (.here hwrid)

/-- A poll of one CQE stops where `POLL_ONE` of the CQE at the head does. -/
theorem exec_pollsOne_stops {e : Fault} (hs : s.idle) (hst : s.started = true) (hn : s.names .cq s.me.op.cq c)
    (hy : s.cq? c = some y) (hhw : s.cqeHwOwned y.headAddr = false) (hp : s.pollsOne i y.headAddr)
    (hstops : ∀ next, StopsAt (pollOne c y.headAddr 0 0 0 next) (polling s i c).rmb e) : exec i s = .fault e := by
  obtain ⟨hready, halone, hu⟩ := hs
  have hpoll : ∀ k, StopsAt (k c) (polling s i c) e → StopsAt (pollOn s.me.op k) (s.beginCmd i) e := fun _ =>
    (Open.precond (.resolve fun c => .acquire (.hole c))).stops fun _ _ => runs_pollOn hu hst hn
  have hy' : (polling s i c).cq? c = some y := by simpa [polling] using hy
  have hhead : headAddrAct c (polling s i c) = .ok y.headAddr (polling s i c) := by rw [headAddrAct, withCq_eq hy']
  have hsw : ¬ (polling s i c).cqeHwOwned y.headAddr = true := by simpa [polling, State.cqeHwOwned, State.cqeByte] using hhw
  rcases hp with ⟨rfl, hmax⟩ | ⟨hrow, hkind⟩
  · have hcap : cqCapacityAct c (polling s .pollCq c) = .ok y.capacity (polling s .pollCq c) := by
      rw [cqCapacityAct, withCq_eq hy']
    refine hready.runCmd_stops (p := pollCqProg) (halone.mayIssue _) (hpoll _ (.act hcap ?_))
    rw [hmax]
    refine .act hhead (stopsAt_ask ?_)
    rw [if_neg hsw, if_neg Nat.zero_ne_one]
    exact stopsAt_eff (hstops _)
  · rw [exec_cqeRow hrow]
    have hmatch : (polling s i c).rmb.cqeMatches i y.headAddr = true := by
      simpa [polling, State.cqeMatches, State.cqeByte] using hkind
    refine hready.runCmd_stops (halone.mayIssue _) (hpoll _ (.act hhead (stopsAt_ask ?_)))
    rw [if_neg hsw, if_neg Nat.zero_ne_one]
    refine stopsAt_eff (stopsAt_ask ?_)
    rw [hmatch]
    exact hstops _

end

/-! ### Inputs (R431, R444, R103, R140) -/

theorem outsideMapped_of_overlaps {r b : Nat × Nat} (hb : b ∈ s.liveBuffers ∨ ∃ e ∈ s.agents, b ∈ e.2.freed)
    (hr : overlaps r b = true) : s.outsideMapped r = false := by
  refine List.all_eq_false.mpr ⟨b, ?_, by simp [hr]⟩
  rw [State.mappedBuffers, List.mem_append, List.mem_flatMap]
  exact hb

theorem step_mapped {x : Input} {rest : List Input} {r : Nat × Nat} (hin : s.inbox = x :: rest)
    (hx : x = .unmapRegion r.1 r.2 ∨ ∃ bytes, x = .hostWrite r.1 bytes ∧ bytes.length = r.2) (hr : s.outsideMapped r = false) :
    step s = .fault .badBuffer := by
  have hr' : ¬ (s.setInbox rest).outsideMapped r = true := Bool.eq_false_iff.mp hr
  rw [step_cons hin]
  rcases hx with rfl | ⟨bytes, rfl, hlen⟩
  · exact if_neg hr'
  · refine if_neg fun ⟨_, hout⟩ => hr' ?_
    rwa [hlen] at hout

/-- Settles O60, breach by breach. -/
theorem stops : Obligations.Stops := by
  refine ⟨fun s c y => exec_destroyCq_used, fun s h r y => exec_destroySrq_used,
    fun i s hs hi h => hs.exec_issueFaults hi (issueFaults_iff.mpr h), fun s q => exec_destroyQp_used,
    fun s op hs hop => ⟨exec_createCq_badBuffer hs hop, exec_createSrq_badBuffer hs hop,
      fun c1 c2 h1 h2 hsrq => exec_createQp_badBuffer hs hop h1 h2 hsrq⟩, ?_,
    fun s x rest r b hin hx hb hr => step_mapped hin hx (outsideMapped_of_overlaps hb hr),
    fun s a f bytes op sl rest hin => ?_⟩
  · intro i s c q a idx y x isSend hs hst hn hy ha hhw hp hq hq0 hx hsnd hsrq hidx hw
    subst ha
    exact exec_pollsOne_stops hs hst hn hy hhw hp fun _ => stopsAt_pollOne_unset hq hq0 hx hsnd hsrq hidx hw
  · rw [step_cons hin]
    refine ⟨fun hbusy => if_pos (.inr hbusy), fun ha hidle hop => ?_, fun ha hidle hop hf => ?_⟩
    · exact (if_neg (not_or.mpr ⟨ha, by simp [hidle]⟩)).trans (if_neg (by simp [hop]))
    · exact (if_neg (not_or.mpr ⟨ha, by simp [hidle]⟩)).trans ((if_pos hop).trans (if_pos hf))

end Sys2Proof.Machine
end

section
/-! SUPPORT. Doorbell records that a create took and gives back (R256): the table is as it was, and both words of each record are 0. -/

namespace Sys2Proof.Machine

open Sys2Proof

variable {s t : State} {recs : List Nat} {n : Nat} {ag : Agent}

/-! ### The free records -/

theorem filter_insertSorted {p : Nat → Bool} {r : Nat} (hr : p r = false) (l : List Nat) : (insertSorted l r).filter p = l.filter p := by
  induction l with
  | nil => simp [insertSorted, hr]
  | cons x l ih =>
    rw [insertSorted]
    split_ifs
    · simp [hr]
    · rfl
    · simp [List.filter_cons, ih]

theorem filter_foldl_insertSorted {p : Nat → Bool} {rs : List Nat} (hrs : ∀ r ∈ rs, p r = false) (l : List Nat) :
    (rs.foldl insertSorted l).filter p = l.filter p := by
  induction rs generalizing l with
  | nil => rfl
  | cons r rs ih =>
    rw [List.foldl_cons, ih fun x hx => hrs x (List.mem_cons_of_mem r hx), filter_insertSorted (hrs r List.mem_cons_self)]

theorem not_mem_of_mem_lowestFree {used : List Nat} {k r : Nat} (hr : r ∈ lowestFree used k) : r ∉ used := by
  simpa using (List.mem_filter.mp (List.mem_of_mem_take hr)).2

namespace State.takesRecs

theorem length_le (h : s.takesRecs n recs) : recs.length ≤ n := by
  obtain ⟨-, rfl⟩ | ⟨-, -, rfl⟩ := h
  · exact Nat.zero_le n
  · exact (lowestFree_length ..).le

theorem length_le_free (h : s.takesRecs n recs) : recs.length ≤ s.dbRecFree := by
  obtain ⟨-, rfl⟩ | ⟨-, hn, rfl⟩ := h
  · exact Nat.zero_le _
  · exact (lowestFree_length ..).le.trans hn

theorem memfree (h : s.takesRecs n recs) (hne : recs ≠ []) : s.mode = .memfree := by
  obtain ⟨-, rfl⟩ | ⟨hm, -⟩ := h
  · exact absurd rfl hne
  · exact hm

/-- The records in use, when those a create took are taken out again. -/
theorem used_restored (h : s.takesRecs n recs) :
    (recs.foldl insertSorted s.dbRecUsed).filter (fun r => decide (r ∉ recs)) = s.dbRecUsed := by
  rw [filter_foldl_insertSorted fun r hr => by simpa using hr, List.filter_eq_self]
  intro r hr
  obtain ⟨-, rfl⟩ | ⟨-, -, rfl⟩ := h
  · simp
  · exact decide_eq_true fun hmem => not_mem_of_mem_lowestFree hmem hr

end State.takesRecs

/-! ### The release of some records -/

/-- The state after the release of some doorbell records, one after another. -/
def State.freedRecs (s : State) (rs : List Nat) : State := rs.foldl (fun u r => u.freedRec (some r)) s

theorem State.freedRecs_append (s : State) (rs rs' : List Nat) : s.freedRecs (rs ++ rs') = (s.freedRecs rs).freedRecs rs' :=
  List.foldl_append

theorem freedRec_keeps (s : State) (o : Option Nat) : (s.freedRec o).locks = s.locks ∧ (s.freedRec o).me = s.me := by
  obtain ⟨m, l, heq, -⟩ := freedRec_eq s o
  rw [heq]
  exact ⟨rfl, rfl⟩

theorem freedRecs_keeps (s : State) (rs : List Nat) : (s.freedRecs rs).locks = s.locks ∧ (s.freedRecs rs).me = s.me := by
  induction rs generalizing s with
  | nil => exact ⟨rfl, rfl⟩
  | cons r rs ih =>
    obtain ⟨hlocks, hme⟩ := freedRec_keeps s (some r)
    obtain ⟨hlocks', hme'⟩ := ih (s.freedRec (some r))
    exact ⟨hlocks'.trans hlocks, hme'.trans hme⟩

/-- A create gives back the records it took, the first one first. -/
theorem runs_freeTaken (hu : s.unlocked) (n : Nat) (k : Prog) :
    Runs (freeTaken n k) s t ↔ Runs k (s.freedRecs (s.me.recs.take n)) t := by
  induction n generalizing k with
  | zero => rfl
  | succ n ih =>
    obtain ⟨hlocks, hme⟩ := freedRecs_keeps s (s.me.recs.take n)
    have hunlocked : (s.freedRecs (s.me.recs.take n)).unlocked := hlocks.trans hu
    rw [freeTaken, ih, runs_freeRec (hunlocked.holder _) fun _ _ _ => rfl, hme, List.take_add_one, State.freedRecs_append]
    cases s.me.recs[n]? with
    | none => simp [State.freedRec, State.freedRecs]
    | some r => rfl

/-- What the release of some records does. -/
theorem freedRecs_eq (s : State) (rs : List Nat) (hm : rs ≠ [] → s.mode = .memfree) :
    ∃ m l, s.freedRecs rs = ((s.setMem m).setBus l).setRecs (s.dbRecUsed.filter fun r => decide (r ∉ rs)) (s.dbRecFree + rs.length)
      ∧ (Memory.wf s.mem = true → Memory.wf m = true ∧ ∀ r ∈ rs, (s.setMem m).memRead (s.recAddr r + 4) 4 = 0)
      ∧ ∀ b, (∀ r ∈ rs, Outside b (s.recAddr r + 4, 4)) → memGet m b = memGet s.mem b := by
  induction rs generalizing s with
  | nil => exact ⟨s.mem, s.bus, by ext1 <;> simp [State.freedRecs], fun h => ⟨h, by simp⟩, fun _ _ => rfl⟩
  | cons r rs ih =>
    have hmode : s.mode = .memfree := hm (List.cons_ne_nil r rs)
    have hone : s.recsOf [some r] = [r] := by simp [State.recsOf, hmode]
    obtain ⟨m1, l1, heq1, hwf1, hout1⟩ := freedRec_eq s (some r)
    rw [hone] at heq1 hwf1 hout1
    obtain ⟨m2, l2, heq2, hwf2, hout2⟩ := ih (s.freedRec (some r)) fun _ => by rw [heq1]; exact hmode
    have haddr : ∀ p, (s.freedRec (some r)).recAddr p = s.recAddr p := fun p => by rw [heq1]; rfl
    have hmem : (s.freedRec (some r)).mem = m1 := by rw [heq1]; rfl
    simp only [haddr, hmem] at hwf2 hout2
    refine ⟨m2, l2, ?_, fun hwf => ?_, fun b hb => ?_⟩
    · rw [State.freedRecs, List.foldl_cons]
      refine heq2.trans ?_
      rw [heq1]
      ext1 <;> simp [List.filter_filter, Nat.add_comm, Nat.add_left_comm, Bool.and_comm]
    · obtain ⟨hm1, hzero1⟩ := hwf1 hwf
      obtain ⟨hm2, hzero2⟩ := hwf2 hm1
      refine ⟨hm2, fun p hp => ?_⟩
      by_cases hprs : p ∈ rs
      · exact hzero2 p hprs
      · obtain rfl : p = r := (List.mem_cons.mp hp).resolve_right hprs
        refine (congrArg beNat (memGetBytes_congr _ _ _ _ fun b hb hb' => hout2 b fun p' hp' => ?_)).trans
          (hzero1 p (List.mem_singleton_self p))
        have hne : p' ≠ p := fun h => hprs (h ▸ hp')
        simp only [Outside, State.recAddr] at *
        omega
    · rw [hout2 b fun p hp => hb p (List.mem_cons_of_mem r hp),
        hout1 b fun p hp => hb p (List.mem_singleton.mp hp ▸ List.mem_cons_self)]

/-- A create that gives the records it took back leaves the table of the records as it was, and both words of each 0. -/
theorem runs_giveBack {m : List Host.Cell} {l : List BusEvent} (hrecs : s.takesRecs n recs) (hu : s.unlocked) (hag : ag.recs = recs)
    (hwf : Memory.wf m = true) (hzero : ∀ r ∈ recs, (s.setMem m).memRead (s.recAddr r) 4 = 0) :
    ∃ m' l', (∀ r ∈ recs, (s.setMem m').memRead (s.recAddr r) 4 = 0 ∧ (s.setMem m').memRead (s.recAddr r + 4) 4 = 0)
      ∧ (∀ b, (∀ r ∈ recs, Outside b (s.recAddr r, 8)) → memGet m' b = memGet m b)
      ∧ ∀ k t, Runs (freeTaken n k) ((s.tookThese recs m l).setMe ag) t ↔ Runs k (((s.setMem m').setBus l').setMe ag) t := by
  let u := (s.tookThese recs m l).setMe ag
  have htake : u.me.recs.take n = recs := by
    rw [State.setMe_me, hag]
    exact List.take_of_length_le hrecs.length_le
  obtain ⟨m', l', heq, hwords, hout⟩ := freedRecs_eq u recs hrecs.memfree
  obtain ⟨-, hone⟩ := hwords hwf
  refine ⟨m', l', fun r hr => ⟨?_, hone r hr⟩, fun b hb => hout b fun r hr => ?_, fun k t => ?_⟩
  · refine (congrArg beNat (memGetBytes_congr _ _ _ _ fun b hb hb' => hout b fun p _ => ?_)).trans (hzero r hr)
    have hbase : u.dbRecBase = s.dbRecBase := rfl
    simp only [Outside, State.recAddr, hbase] at hb hb' ⊢
    omega
  · have hb' := hb r hr
    have haddr : u.recAddr r = s.recAddr r := rfl
    simp only [haddr, Outside] at *
    omega
  · rw [runs_freeTaken (s := u) hu, htake, heq]
    refine iff_of_eq (congrArg₂ _ ?_ rfl)
    have hused : u.dbRecUsed.filter (fun r => decide (r ∉ recs)) = s.dbRecUsed := hrecs.used_restored
    have hfree : u.dbRecFree + recs.length = s.dbRecFree := Nat.sub_add_cancel hrecs.length_le_free
    rw [hused, hfree]
    rfl

/-- In `LEGACY` there is nothing to give back. -/
theorem runs_freeTaken_legacy (hm : s.mode = .legacy) (n : Nat) (k : Prog) : Runs (freeTaken n k) s t ↔ Runs k s t := by
  induction n generalizing k with
  | zero => rfl
  | succ n ih => rw [freeTaken, ih, runs_freeRec_legacy hm]

/-- The allocation of the records of a create, as far as one that gives them back needs it: the first word of each is 0. -/
theorem runs_allocRecs_zero {spec : List (BitVec 3 × Num24)} (hag : ag.recs = []) (hrecs : s.takesRecs spec.length recs)
    (hu : s.unlocked) (hwf : Memory.wf s.mem = true) :
    ∃ m l, Memory.wf m = true ∧ (∀ b, (∀ r ∈ recs, Outside b (s.recAddr r, 8)) → memGet m b = memGet s.mem b)
      ∧ (∀ r ∈ recs, (s.setMem m).memRead (s.recAddr r) 4 = 0)
      ∧ ∀ k t, Runs (allocRecs spec k) (s.setMe ag) t ↔ Runs k ((s.tookThese recs m l).setMe { ag with recs := recs }) t := by
  obtain ⟨m, l, hm, hout, hwords, halloc⟩ := runs_allocRecs hag hrecs hu hwf
  refine ⟨m, l, hm, hout, fun r hr => ?_, halloc⟩
  obtain ⟨j, hj, rfl⟩ := List.getElem_of_mem hr
  have hspec := List.getElem?_eq_getElem (hj.trans_le hrecs.length_le)
  exact (hwords j _ _ _ (List.getElem?_eq_getElem hj) hspec).1

end Sys2Proof.Machine
end

section
/-! SUPPORT. The creates that fail before they have made an object (R403): operands out of range, too few doorbell records, an
occupied entry; and a `CREATE_QP` a handle of which names nothing (R170). -/

namespace Sys2Proof.Machine

open Sys2Proof

variable {s t u : State} {i : Instr} {op : Operands} {uses : List Handle} {recs : List Nat} {ag : Agent}

/-- The state of a command of the current agent that has resolved some handles. -/
def State.underway (s : State) (i : Instr) (uses : List Handle) : State := s.setMe { op := s.me.op, cmd := some i, uses := uses }

/-- `raise` of a command that has changed the agent's own record only. -/
theorem runs_raise_setMe {st : Status} (hu : s.unlocked) (hbatch : ag.batch.cnt = 0) (hop : ag.op = s.me.op) :
    Runs (raise st) (s.setMe ag) t ↔ t = s.ended { ag.resp with status := some st, badIndex := none } := by
  rw [runs_raise_free (s := s.setMe ag) (by simpa using hbatch) (State.unlocked.held (s := s.setMe ag) hu)]
  refine iff_of_eq (congrArg (t = ·) ?_)
  ext1 <;> simp [State.ended, State.endCmd, State.setResp, hop]

theorem runs_raise_underway {st : Status} (hu : s.unlocked) :
    Runs (raise st) (s.underway i uses) t ↔ t = s.ended { status := some st } :=
  runs_raise_setMe (ag := { op := s.me.op, cmd := some i, uses := uses }) hu rfl rfl

/-! ### A create after its handles -/

/-- What tells the creates apart in their checks, the records they take and the entry they fill. -/
structure CreateHead where
  bad : State → Bool
  buf : State → Nat × Nat
  spec : List (BitVec 3 × Num24)
  kind : Kind
  num : Num24
  make : State → Handle → Nat → State

namespace CreateHead

/-- The steps of a create after its handles: it checks its operands and its buffer, takes doorbell records and inserts its object. -/
def steps (C : CreateHead) (k : Nat → Prog) : Prog :=
  ask (fun s => if C.bad s then 1 else 0) fun bad =>
  if bad = 1 then raise .outOfRange
  else
    guard (fun s => s.bufferOk (C.buf s)) .badBuffer <| allocRecs C.spec <|
    insert C.kind C.num C.buf C.make (freeTaken C.spec.length (raise .busy)) k

/-- The instruction, issued in the state, comes to these steps, and nothing has changed but what its agent uses. -/
def StartsIn (C : CreateHead) (i : Instr) (s : State) : Prop :=
  ∃ p uses k, (∀ s, exec i s = runCmd i p s)
    ∧ ∀ t, Runs (p s.me.op) (s.beginCmd i) t ↔ Runs (C.steps k) (s.underway i uses) t

variable {C : CreateHead}

theorem StartsIn.exec (h : C.StartsIn i s) (hs : s.quietStart) (hruns : ∀ uses k, Runs (C.steps k) (s.underway i uses) t) :
    exec i s = .next t := by
  obtain ⟨p, uses, k, hexec, hp⟩ := h
  rw [hexec]
  exact hs.runCmd ((hp t).mpr (hruns uses k))

theorem runs_steps_bad {k : Nat → Prog} (hbad : C.bad s = true) : Runs (C.steps k) s t ↔ Runs (raise .outOfRange) s t := by
  rw [steps, runs_ask, hbad, if_pos rfl, if_pos rfl]

theorem runs_steps {k : Nat → Prog} (hbad : C.bad s = false) (hbuf : s.bufferOk (C.buf s) = true) :
    Runs (C.steps k) s t ↔
      Runs (allocRecs C.spec <| insert C.kind C.num C.buf C.make (freeTaken C.spec.length (raise .busy)) k) s t := by
  rw [steps, runs_ask, hbad, if_neg Bool.false_ne_true, if_neg Nat.zero_ne_one, runs_guard, and_iff_right hbuf]

/-- A create with an operand out of range. -/
theorem StartsIn.exec_outOfRange (h : C.StartsIn i s) (hs : s.quietStart) (hbad : ∀ uses, C.bad (s.underway i uses) = true) :
    Machine.exec i s = .next (s.ended { status := some .outOfRange }) := by
  refine h.exec hs fun uses k => (runs_steps_bad (hbad uses)).mpr ?_
  exact (runs_raise_underway hs.locks).mpr rfl

/-- An allocation for which too few records are free (R256). -/
theorem runs_allocRecs_short {spec : List (BitVec 3 × Num24)} {k : Prog} (hm : s.mode = .memfree) (hn : s.dbRecFree < spec.length)
    (hu : s.unlocked) : Runs (allocRecs spec k) s t ↔ Runs (raise .noResources) s t := by
  have halloc : allocAct spec.length (s.setLocks ((.dbRec, s.cur) :: s.locks)) = .ok 0 (s.setLocks ((.dbRec, s.cur) :: s.locks)) :=
    if_pos hn
  unfold allocRecs
  rw [runs_ask, if_pos hm, if_neg Nat.one_ne_zero, runs_acquire, and_iff_right (hu.holder _), runs_act_ok halloc,
    runs_release_newest (l := s.locks) rfl (hu.holder _), if_pos rfl]
  rfl

/-- A create for which too few doorbell records are free. -/
theorem StartsIn.exec_noResources (h : C.StartsIn i s) (hs : s.quietStart) (hm : s.mode = .memfree) (hn : s.dbRecFree < C.spec.length)
    (hbad : ∀ uses, C.bad (s.underway i uses) = false)
    (hbuf : ∀ uses, (s.underway i uses).bufferOk (C.buf (s.underway i uses)) = true) :
    Machine.exec i s = .next (s.ended { status := some .noResources }) := by
  refine h.exec hs fun uses k => (runs_steps (hbad uses) (hbuf uses)).mpr ?_
  exact (runs_allocRecs_short (s := s.underway i uses) hm hn hs.locks).mpr ((runs_raise_underway hs.locks).mpr rfl)

/-- A create in `LEGACY` whose entry is occupied. -/
theorem StartsIn.exec_busy_legacy {o : Occupant} (h : C.StartsIn i s) (hs : s.quietStart) (hm : s.mode = .legacy)
    (hbad : ∀ uses, C.bad (s.underway i uses) = false)
    (hbuf : ∀ uses, (s.underway i uses).bufferOk (C.buf (s.underway i uses)) = true)
    (ho : (s.entry C.kind (s.indexOf C.kind C.num)).occ = some o) :
    Machine.exec i s = .next (s.ended { status := some .busy }) := by
  refine h.exec hs fun uses k => (runs_steps (hbad uses) (hbuf uses)).mpr ?_
  have ho' : ((s.underway i uses).entry C.kind ((s.underway i uses).indexOf C.kind C.num)).occ = some o := by
    simpa [State.underway] using ho
  rw [runs_allocRecs_legacy (s := s.underway i uses) hm, runs_insert_busy ho' (State.unlocked.holder hs.locks _),
    runs_freeTaken_legacy (s := s.underway i uses) hm]
  exact (runs_raise_underway hs.locks).mpr rfl

/-- A create whose entry is occupied, in both modes. -/
theorem StartsIn.exec_busy {o : Occupant} (h : C.StartsIn i s) (hs : s.quietStart) (hrecs : s.takesRecs C.spec.length recs)
    (hwf : Memory.wf s.mem = true) (hbad : ∀ uses, C.bad (s.underway i uses) = false)
    (hbuf : ∀ uses, (s.underway i uses).bufferOk (C.buf (s.underway i uses)) = true)
    (ho : (s.entry C.kind (s.indexOf C.kind C.num)).occ = some o) :
    RunsTo (Machine.exec i s) (RecordsZeroed recs (s.ended { status := some .busy })) := by
  obtain ⟨p, uses, k, hexec, hp⟩ := h
  have hu : s.unlocked := hs.locks
  let ag : Agent := { op := s.me.op, cmd := some i, uses := uses, recs := recs }
  obtain ⟨m, l, hm, hout, hzero, halloc⟩ := runs_allocRecs_zero (ag := { op := s.me.op, cmd := some i, uses := uses }) rfl hrecs hu hwf
  obtain ⟨m', l', hzeroed, hsame, hgive⟩ := runs_giveBack (ag := ag) (l := l) hrecs hu rfl hm hzero
  let v := (s.setMem m').setBus l'
  have ho' : (((s.tookThese recs m l).setMe ag).entry C.kind (((s.tookThese recs m l).setMe ag).indexOf C.kind C.num)).occ = some o := by
    rw [← ho]
    cases C.kind <;> rfl
  refine ⟨v.ended { status := some .busy }, ?_, hzeroed, fun b hb => (hsame b hb).trans (hout b hb), rfl⟩
  rw [hexec]
  refine hs.runCmd ((hp _).mpr ((runs_steps (hbad uses) (hbuf uses)).mpr ((halloc ..).mpr ?_)))
  refine (runs_insert_busy (s := (s.tookThese recs m l).setMe ag) ho' (State.unlocked.holder hu _)).mpr ((hgive ..).mpr ?_)
  exact (runs_raise_setMe (s := v) (ag := ag) hu rfl rfl).mpr rfl

end CreateHead

/-! ### The three creates -/

/-- `CREATE_CQ` (R292). -/
def createCqHead (op : Operands) : CreateHead where
  bad := createCqBad op
  buf := createCqBuf op
  spec := [(1, op.cqn), (5, op.cqn)]
  kind := .cq
  num := op.cqn
  make := newCq op

/-- `CREATE_SRQ` (R372). -/
def createSrqHead (op : Operands) : CreateHead where
  bad := createSrqBad op
  buf := createSrqBuf op
  spec := [(4, op.srqn)]
  kind := .srq
  num := op.srqn
  make := newSrq op

/-- `CREATE_QP` after its handles (R170). -/
def createQpHead (op : Operands) : CreateHead where
  bad := createQpBad op
  buf := createQpBuf op
  spec := [(3, op.qpn), (2, op.qpn)]
  kind := .qp
  num := op.qpn
  make := newQp op

/-- What a create without handles does first (R401). -/
theorem State.quietStart.runs_precond_begin {k : Prog} (hs : s.quietStart) :
    Runs (precond true none k) (s.beginCmd i) t ↔ Runs k (s.underway i []) t := by
  obtain ⟨-, hstarted, hfatal⟩ := hs
  exact runs_precond (s := s.beginCmd i) hstarted fun h => absurd (h.symm.trans hfatal) nofun

theorem createCq_startsIn (hs : s.quietStart) : (createCqHead s.me.op).StartsIn .createCq s :=
  ⟨createCqProg, [], _, fun _ => rfl, fun _ => hs.runs_precond_begin⟩

theorem createSrq_startsIn (hs : s.quietStart) : (createSrqHead s.me.op).StartsIn .createSrq s :=
  ⟨createSrqProg, [], _, fun _ => rfl, fun _ => hs.runs_precond_begin⟩

theorem createQp_startsIn {c1 c2 : Nat} (hs : s.quietStart) (h1 : s.names .cq s.me.op.sendCq c1) (h2 : s.names .cq s.me.op.recvCq c2)
    (hsrq : ∀ h, s.me.op.srq = some h → ∃ r, s.names .srq h r) : (createQpHead s.me.op).StartsIn .createQp s := by
  obtain ⟨uses, hresolves⟩ := runs_createQp_resolves hs h1 h2 hsrq
  exact ⟨createQpProg, uses, _, fun _ => rfl, fun t => hresolves _ _ _ t⟩

/-! ### A `CREATE_QP` with a handle of no live object (R170) -/

/-- The rest of a `CREATE_QP` that answers `INVALID_HANDLE`, whatever handles it has used. -/
def InvalidHandleEnd (s : State) (p : Prog) : Prop :=
  ∀ uses, Runs p (s.underway .createQp uses) (s.ended { status := some .invalidHandle })

theorem invalidHandleEnd_raise (hu : s.unlocked) : InvalidHandleEnd s (raise .invalidHandle) := fun _ =>
  (runs_raise_underway hu).mpr rfl

theorem invalidHandleEnd_resolve_none {kind : Kind} {h : Handle} {k : Nat → Prog} (hu : s.unlocked) (hl : s.lookup kind h = none) :
    InvalidHandleEnd s (resolve kind h true (raise .invalidHandle) k) := fun uses =>
  (runs_resolve_none (s := s.underway .createQp uses) (by simpa [State.underway] using hl) (State.unlocked.holder hu _)).mpr
    (invalidHandleEnd_raise hu uses)

/-- A handle before the one that names nothing: either it names nothing too, or the create goes on. -/
theorem invalidHandleEnd_resolve {kind : Kind} {h : Handle} {k : Nat → Prog} (hu : s.unlocked) (hk : ∀ o, InvalidHandleEnd s (k o)) :
    InvalidHandleEnd s (resolve kind h true (raise .invalidHandle) k) := fun uses => by
  cases hl : s.lookup kind h with
  | none => exact invalidHandleEnd_resolve_none hu hl uses
  | some o =>
    let v := s.underway .createQp uses
    have hlv : v.lookup kind h = some o := by simpa [v, State.underway] using hl
    have hact : resolveAct kind h true (v.lockShard kind h.index.toNat) =
        .ok o ((s.underway .createQp (h :: uses)).setLocks ((v.shardLock kind h.index.toNat, v.cur) :: v.locks)) := by
      have hrace : ¬ (v.lockShard kind h.index.toNat).me.racing.contains h = true := by simp [v, State.underway, State.lockShard]
      rw [resolveAct, lockShard_lookup, hlv]
      refine (if_pos rfl).trans ((if_neg hrace).trans (congrArg _ ?_))
      ext1 <;> simp [v, State.underway, State.lockShard]
    refine runs_ask.mpr ?_
    rw [if_pos (lookup_inRange hlv).2, if_neg Nat.one_ne_zero]
    refine (runs_underShardAt (s := v) (s1 := s.underway .createQp (h :: uses)) (State.unlocked.holder hu _) hact rfl rfl rfl).mpr ?_
    split_ifs
    · exact invalidHandleEnd_raise hu _
    · exact hk o _

theorem exec_createQp_invalidHandle (hs : s.quietStart)
    (h : s.lookup .cq s.me.op.sendCq = none ∨ s.lookup .cq s.me.op.recvCq = none
      ∨ ∃ g, s.me.op.srq = some g ∧ s.lookup .srq g = none) :
    exec .createQp s = .next (s.ended { status := some .invalidHandle }) := by
  have hu : s.unlocked := hs.locks
  refine hs.runCmd (p := createQpProg) ((hs.runs_precond_begin).mpr ?_)
  obtain h1 | h2 | ⟨g, hg, h3⟩ := h
  · exact invalidHandleEnd_resolve_none hu h1 []
  · exact invalidHandleEnd_resolve hu (fun _ => invalidHandleEnd_resolve_none hu h2) []
  · refine invalidHandleEnd_resolve hu (fun _ => invalidHandleEnd_resolve hu fun _ => ?_) []
    rw [resolveSrqOperand, hg]
    exact invalidHandleEnd_resolve_none hu h3

/-! ### The destroy of an attached CQ or SRQ (R349) -/

theorem runs_destroyAttached {kind : Kind} {h : Handle} {o : Nat} {fail : Prog} {k : Nat → Prog} (hs : s.quietStart)
    (hn : s.names kind h o) (ha : s.attachOf kind o ≠ 0) :
    Runs (precond false none <| resolve kind h false fail fun o => removeUnattached kind h endWith <| k o) (s.beginCmd i)
      (s.ended { status := some .busy }) := by
  obtain ⟨⟨-, -, hu⟩, hstarted, -⟩ := hs
  have ha' : (s.beginCmd i).attachOf kind o ≠ 0 := by cases kind <;> exact ha
  rw [runs_precond (s := s.beginCmd i) hstarted (fun _ => rfl),
    runs_resolve_found (s := s.beginCmd i) (use := false) hn.1 hn.2 nofun ((hu.begin i).holder _), State.noteUse,
    if_neg Bool.false_ne_true, runs_removeUnattached_busy (s := s.beginCmd i) hn.1 ha' ((hu.begin i).holder _)]
  exact (runs_raise_begin hu).mpr rfl

theorem exec_destroyCq_attached {c : Nat} {y : Cq} (hs : s.quietStart) (hn : s.names .cq s.me.op.cq c) (hy : s.cq? c = some y)
    (ha : y.attach ≠ 0) : exec .destroyCq s = .next (s.ended { status := some .busy }) :=
  hs.runCmd (p := destroyCqProg) (runs_destroyAttached hs hn (by simpa [State.attachOf, hy] using ha))

theorem exec_destroySrq_attached {h : Handle} {r : Nat} {y : Srq} (hs : s.quietStart) (hop : s.me.op.srq = some h)
    (hn : s.names .srq h r) (hy : s.srq? r = some y) (ha : y.attach ≠ 0) :
    exec .destroySrq s = .next (s.ended { status := some .busy }) := by
  refine hs.runCmd (p := destroySrqProg) ?_
  rw [destroySrqProg, srqOperand_some hop]
  exact runs_destroyAttached hs hn (by simpa [State.attachOf, hy] using ha)

end Sys2Proof.Machine
end

section
/-! SUPPORT. A `CREATE_CQ` and a `CREATE_SRQ` whose firmware call fails (R292, R372): the entry is emptied, the object erased, the doorbell
records are given back. -/

namespace Sys2Proof.Machine

open Sys2Proof

variable {s t : State} {op : Operands} {recs : List Nat} {a : FwAnswer} {rest : List FwAnswer}

/-- The removal of an entry that a create has filled. -/
theorem runs_removeNew {kind : Kind} {h : State → Handle} {g : Handle} {k : Prog} {o : Nat} (hh : ∀ l, h (s.setLocks l) = g)
    (hl : s.lookup kind g = some o) (hu : s.unlocked) : Runs (removeNew kind h k) s t ↔ Runs k (s.emptyEntry kind g) t := by
  have hremove : removeNewAct kind (h (s.lockShard kind (h s).index.toNat)) (s.lockShard kind (h s).index.toNat) =
      .ok 1 ((s.emptyEntry kind g).setLocks ((s.shardLock kind (h s).index.toNat, s.cur) :: s.locks)) := by
    have hg : h (s.lockShard kind (h s).index.toNat) = g := hh _
    rw [hg, removeNewAct, lockShard_lookup, hl]
    cases kind <;> rfl
  exact runs_underShard (f := fun s => removeNewAct kind (h s) s) (hu.holder _) hremove (by cases kind <;> rfl)
    (by cases kind <;> rfl) (by cases kind <;> rfl)

/-- The index of a new handle is that of its entry. -/
theorem freshHandle_index (s : State) (k : Kind) (num : Num24) : (s.freshHandle k num).index.toNat = s.indexOf k num :=
  (BitVec.toNat_ofNat ..).trans (Nat.mod_eq_of_lt (indexOf_lt s k num))

/-- A table in which the entry of a new handle has been filled and emptied again. -/
theorem set_freshHandle (s : State) (k : Kind) (num : Num24) (e e' : Entry) (l : List Entry) :
    (l.set (s.indexOf k num) e).set (s.freshHandle k num).index.toNat e' = l.set (s.indexOf k num) e' := by
  rw [freshHandle_index, List.set_set]

/-- A firmware call whose status the response keeps. -/
theorem runs_mailbox_keep {call : State → MailboxCall} {k : Nat → Prog} {ag : Agent} (hfatal : s.fatal = false)
    (hfw : s.fw = a :: rest) : Runs (mailbox call fun fw => setFwStatus fw (k fw)) (s.setMe ag) t ↔
      Runs (k a.status.toNat) (State.setMe { s with fw := rest, bus := .mailbox s.cur (call (s.setMe ag)) :: .wmb s.cur :: s.bus }
        { ag with resp := { ag.resp with fwStatus := some a.status }, fwOut := a.out }) t := by
  rw [runs_mailbox (s := s.setMe ag) hfatal hfw, runs_setFwStatus]
  refine iff_of_eq (congrArg₂ _ ?_ rfl)
  ext1 <;> simp [State.me, State.agent]

/-- The state after a create in the entry of `num` that failed, but for its arena, memory, the bus and the agent. -/
def State.undone (s : State) (k : Kind) (num : Num24) (rest : List FwAnswer) : State :=
  (s.setEntry k (s.indexOf k num) { gen := (s.entry k (s.indexOf k num)).gen + 1, occ := none }).setNextObj (s.nextObj + 1) |>.setFw rest

/-- The handle of a create that failed names nothing. -/
theorem lookup_undone {k : Kind} {num : Num24} (ht : t.table k = (s.undone k num rest).table k) :
    t.lookup k (s.freshHandle k num) = none := by
  refine lookup_of_emptied (s := s) (e := { gen := (s.entry k (s.indexOf k num)).gen + 1, occ := none }) rfl ?_
  rw [ht, freshHandle_index]
  cases k <;> rfl

/-- The firmware call of a create that fails, and the removal of what it made: `l` is the bus afterwards. -/
theorem runs_create_fails {kind : Kind} {g : Handle} {o : Nat} {call : State → MailboxCall} {self : State → Handle}
    {erase : State → State} {ag : Agent} (hfatal : s.fatal = false) (hfw : s.fw = a :: rest) (hstatus : a.status ≠ 0) (hu : s.unlocked)
    (hself : ∀ l b ag', self ((State.setMe { s with fw := rest, bus := b } ag').setLocks l) = g) (hl : s.lookup kind g = some o) :
    ∃ l, ∀ (k ok : Prog) (t : State),
      Runs (mailbox call fun fw => setFwStatus fw <| if fw ≠ 0 then removeNew kind self <| eff erase k else ok) (s.setMe ag) t ↔
      Runs k (erase ((State.setMe { s with fw := rest, bus := l }
        { ag with resp := { ag.resp with fwStatus := some a.status }, fwOut := a.out }).emptyEntry kind g)) t := by
  let v : State := { s with fw := rest, bus := .mailbox s.cur (call (s.setMe ag)) :: .wmb s.cur :: s.bus }
  let w := v.setMe { ag with resp := { ag.resp with fwStatus := some a.status }, fwOut := a.out }
  have hfails : a.status.toNat ≠ 0 := fun h => hstatus (BitVec.eq_of_toNat_eq h)
  have hl' : w.lookup kind g = some o := by cases kind <;> exact hl
  refine ⟨v.bus, fun k ok t => (runs_mailbox_keep hfatal hfw).trans ?_⟩
  rw [if_pos hfails]
  exact (runs_removeNew (s := w) (fun l => hself l _ _) hl' hu).trans runs_eff

/-! ### `CREATE_CQ` -/

theorem initOwnersAct_wf {c n : Nat} {u v : State} (h : initOwnersAct c u = .ok n v) (hwf : Memory.wf u.mem = true) :
    Memory.wf v.mem = true := by
  unfold initOwnersAct withCq at h
  split at h
  · cases h
    exact (writes_initOwners ..).mem_wf hwf
  · cases h

/-- The run of a `CREATE_CQ` that passes its checks and whose call the firmware refuses: `m` and `l` are memory and the bus afterwards. -/
theorem exec_createCq_fails (hs : s.quietStart) (hop : s.me.op = op) (hbad : createCqBad op s = false)
    (hb : s.bufferOk (createCqBuf op s) = true) (hins : s.canInsert .cq op.cqn) (hrecs : s.takesRecs 2 recs) (hfw : s.fw = a :: rest)
    (hstatus : a.status ≠ 0) (hwf : Memory.wf s.mem = true)
    (hapart : ∀ r ∈ recs, s.recAddr r + 8 ≤ op.bufBase.toNat
      ∨ op.bufBase.toNat + 32 * cqCapacity op.cqDepth.toNat ≤ s.recAddr r) :
    ∃ y m l, (∀ r ∈ recs, (s.setMem m).memRead (s.recAddr r) 4 = 0 ∧ (s.setMem m).memRead (s.recAddr r + 4) 4 = 0)
      ∧ (∀ b, (∀ j, j < cqCapacity op.cqDepth.toNat → b ≠ op.bufBase.toNat + 32 * j + 0x1F) →
          (∀ r ∈ recs, Outside b (s.recAddr r, 8)) → memGet m b = memGet s.mem b)
      ∧ exec .createCq s = .next (State.ended
          { s.undone .cq op.cqn rest with cqs := assocDel (assocSet s.cqs s.nextObj y) s.nextObj, mem := m, bus := l }
          { status := some .mailboxFail, fwStatus := some a.status }) := by
  subst hop
  have hu : s.unlocked := hs.locks
  let y := madeCq s.me.op (s.freshHandle .cq s.me.op.cqn) recs
  obtain ⟨m0, l0, hm0, hout, hzero0, halloc⟩ := runs_allocRecs_zero (ag := { op := s.me.op, cmd := some .createCq })
    (spec := [(1, s.me.op.cqn), (5, s.me.op.cqn)]) rfl hrecs hu hwf
  obtain ⟨m1, l1, howners, -, hsame⟩ := initOwnersAct_made (s := s) (num := s.me.op.cqn) (y := y) (recs := recs) l0 hm0
  have hm1 : Memory.wf m1 = true := initOwnersAct_wf howners hm0
  have hzero1 : ∀ r ∈ recs, (s.setMem m1).memRead (s.recAddr r) 4 = 0 := fun r hr => by
    refine (congrArg beNat (memGetBytes_congr _ _ _ _ fun b hb hb' => hsame b fun j (hj : j < cqCapacity _) => ?_)).trans (hzero0 r hr)
    have hbelow := hapart r hr
    have hbase : y.bufBase = s.me.op.bufBase := rfl
    rw [hbase]
    omega
  let u := s.madeWithCq s.me.op.cqn y recs m1 l1
  have hself : ∀ l b ag, ((State.setMe { u with fw := rest, bus := b } ag).setLocks l).cqSelf s.nextObj = s.freshHandle .cq s.me.op.cqn :=
    fun l b ag => by
      have hy : ((State.setMe { u with fw := rest, bus := b } ag).setLocks l).cq? s.nextObj = some y := assocGet_assocSet_self ..
      rw [State.cqSelf, hy]
      rfl
  obtain ⟨l2, hfails⟩ := runs_create_fails (s := u) (kind := .cq) (call := sw2hwCqCall s.nextObj)
    (self := fun u => u.cqSelf s.nextObj) (erase := fun u => u.eraseCq s.nextObj)
    (ag := { op := s.me.op, cmd := some .createCq, recs := recs }) hs.notFatal hfw hstatus hu hself (lookup_inserted hins rfl rfl)
  let v : State := { s.undone .cq s.me.op.cqn rest with cqs := assocDel (assocSet s.cqs s.nextObj y) s.nextObj }
  let ag : Agent :=
    { op := s.me.op, cmd := some .createCq, recs := recs, resp := { fwStatus := some a.status }, fwOut := a.out }
  have hundone : ((State.setMe { u with fw := rest, bus := l2 } ag).emptyEntry .cq (s.freshHandle .cq s.me.op.cqn)).eraseCq s.nextObj =
      (v.tookThese recs m1 l2).setMe ag := by
    ext1
    case cqTable => exact set_freshHandle s .cq s.me.op.cqn _ _ s.cqTable
    all_goals rfl
  obtain ⟨m, l, hzero, hgiven, hgive⟩ := runs_giveBack (s := v) (ag := ag) (l := l2) hrecs hu rfl hm1 hzero1
  refine ⟨y, m, l, hzero, fun b hb hb' => (hgiven b hb').trans ((hsame b hb).trans (hout b hb')),
    hs.runCmd (p := createCqProg) (hs.runs_precond_begin.mpr ?_)⟩
  refine (CreateHead.runs_steps (C := createCqHead s.me.op) (s := s.underway .createCq []) hbad hb).mpr ((halloc ..).mpr ?_)
  refine (runs_createCq_insert hu hins hb).mpr ((runs_act_ok howners).mpr ((hfails ..).mpr (hundone ▸ (hgive ..).mpr ?_)))
  exact (runs_raise_setMe (s := (v.setMem m).setBus l) (ag := ag) hu rfl rfl).mpr rfl

/-! ### `CREATE_SRQ` -/

/-- The run of a `CREATE_SRQ` that passes its checks and whose call the firmware refuses: `m` and `l` are memory and the bus afterwards. -/
theorem exec_createSrq_fails (hs : s.quietStart) (hop : s.me.op = op) (hbad : createSrqBad op s = false)
    (hb : s.bufferOk (createSrqBuf op s) = true) (hins : s.canInsert .srq op.srqn) (hrecs : s.takesRecs 1 recs) (hfw : s.fw = a :: rest)
    (hstatus : a.status ≠ 0) (hwf : Memory.wf s.mem = true)
    (hapart : ∀ r ∈ recs, s.recAddr r + 8 ≤ (createSrqBuf op s).1
      ∨ (createSrqBuf op s).1 + (createSrqBuf op s).2 ≤ s.recAddr r) :
    ∃ y m l, (∀ r ∈ recs, (s.setMem m).memRead (s.recAddr r) 4 = 0 ∧ (s.setMem m).memRead (s.recAddr r + 4) 4 = 0)
      ∧ (∀ b, Outside b (createSrqBuf op s) → (∀ r ∈ recs, Outside b (s.recAddr r, 8)) → memGet m b = memGet s.mem b)
      ∧ exec .createSrq s = .next (State.ended
          { s.undone .srq op.srqn rest with srqs := assocDel (assocSet s.srqs s.nextObj y) s.nextObj, mem := m, bus := l }
          { status := some .mailboxFail, fwStatus := some a.status }) := by
  subst hop
  have hu : s.unlocked := hs.locks
  let y := s.srqToMake s.me.op recs
  obtain ⟨m0, l0, hm0, hout, hzero0, halloc⟩ := runs_allocRecs_zero (ag := { op := s.me.op, cmd := some .createSrq })
    (spec := [(4, s.me.op.srqn)]) rfl hrecs hu hwf
  let m1 := memFill m0 (createSrqBuf s.me.op s).1 (createSrqBuf s.me.op s).2 0
  have hm1 : Memory.wf m1 = true := memFill_wf _ _ _ _ hm0
  have hzero1 : ∀ r ∈ recs, (s.setMem m1).memRead (s.recAddr r) 4 = 0 := fun r hr => by
    have hbelow := hapart r hr
    exact (memRead_memFill_outside s 0 (by omega)).trans (hzero0 r hr)
  let u := s.madeWithSrq s.me.op.srqn y recs m1 (.fill s.cur y.buffer.1 y.buffer.2 0 :: l0)
  have hself : ∀ l b ag, ((State.setMe { u with fw := rest, bus := b } ag).setLocks l).srqSelf s.nextObj =
      s.freshHandle .srq s.me.op.srqn := fun l b ag => by
    have hy : ((State.setMe { u with fw := rest, bus := b } ag).setLocks l).srq? s.nextObj = some y := assocGet_assocSet_self ..
    rw [State.srqSelf, hy]
    rfl
  obtain ⟨l2, hfails⟩ := runs_create_fails (s := u) (kind := .srq) (call := sw2hwSrqCall s.nextObj)
    (self := fun u => u.srqSelf s.nextObj) (erase := fun u => u.eraseSrq s.nextObj)
    (ag := { op := s.me.op, cmd := some .createSrq, recs := recs }) hs.notFatal hfw hstatus hu hself (lookup_inserted hins rfl rfl)
  let v : State := { s.undone .srq s.me.op.srqn rest with srqs := assocDel (assocSet s.srqs s.nextObj y) s.nextObj }
  let ag : Agent :=
    { op := s.me.op, cmd := some .createSrq, recs := recs, resp := { fwStatus := some a.status }, fwOut := a.out }
  have hundone : ((State.setMe { u with fw := rest, bus := l2 } ag).emptyEntry .srq (s.freshHandle .srq s.me.op.srqn)).eraseSrq
      s.nextObj = (v.tookThese recs m1 l2).setMe ag := by
    ext1
    case srqTable => exact set_freshHandle s .srq s.me.op.srqn _ _ s.srqTable
    all_goals rfl
  obtain ⟨m, l, hzero, hgiven, hgive⟩ := runs_giveBack (s := v) (ag := ag) (l := l2) hrecs hu rfl hm1 hzero1
  refine ⟨y, m, l, hzero,
    fun b hb hb' => (hgiven b hb').trans ((memGet_memFill_outside _ _ _ _ _ hb).trans (hout b hb')),
    hs.runCmd (p := createSrqProg) (hs.runs_precond_begin.mpr ?_)⟩
  refine (CreateHead.runs_steps (C := createSrqHead s.me.op) (s := s.underway .createSrq []) hbad hb).mpr ((halloc ..).mpr ?_)
  refine (runs_createSrq_insert hu hins hb).mpr ((runs_act_ok zeroSrqAct_made).mpr ((hfails ..).mpr (hundone ▸ (hgive ..).mpr ?_)))
  exact (runs_raise_setMe (s := (v.setMem m).setBus l) (ag := ag) hu rfl rfl).mpr rfl

/-! ### The bounds of the operands (R292, R202, R371, R372, R170) -/

theorem createCqBad_iff (op : Operands) (s : State) : createCqBad op s = true ↔
    s.cfg.maxCqes < cqCapacity op.cqDepth.toNat ∨ op.bufBase.toNat % 32 ≠ 0 := by
  simp [createCqBad]

theorem createSrqBad_iff (op : Operands) (s : State) : createSrqBad op s = true ↔
    s.cfg.maxSrqWqes < op.srqDepth.toNat ∨ s.cfg.maxSrqSge < op.maxGs.toNat ∨ 1008 < recvBytes op.maxGs.toNat
      ∨ op.bufBase.toNat % 2 ^ slotShift s.cfg (recvBytes op.maxGs.toNat) ≠ 0 := by
  simp [createSrqBad, maxWqeBytes, srqShiftOf, Nat.one_shiftLeft, or_assoc]

theorem createQpBad_iff (op : Operands) (s : State) : createQpBad op s = true ↔
    s.cfg.maxWqes < op.sqDepth.toNat ∨ s.cfg.maxWqes < rqDepthOf op ∨ s.cfg.maxSge < op.sqMaxGs.toNat ∨ s.cfg.maxSge < rqMaxGsOf op
      ∨ s.cfg.maxInline < op.maxInline.toNat ∨ 1008 < sendBytes op.transport op.sqMaxGs.toNat op.maxInline.toNat
      ∨ 1008 < recvBytes (rqMaxGsOf op)
      ∨ op.bufBase.toNat % 2 ^ max (slotShift s.cfg (sendBytes op.transport op.sqMaxGs.toNat op.maxInline.toNat))
          (slotShift s.cfg (recvBytes (rqMaxGsOf op))) ≠ 0 := by
  simp [createQpBad, qpGeometry, maxWqeBytes, Nat.one_shiftLeft, or_assoc]

/-! ### The obligation -/

/-- Settles O34: each create and each destroy, by the runs above. -/
theorem busy : Obligations.Busy := by
  refine ⟨fun s op hs hop => ?_, fun s op hs hop => ?_, fun s op recs a rest hs hop hfw hstatus hwf => ?_,
    fun s op => createCqBad_iff op s, ?_, ?_⟩
  · subst hop
    refine ⟨fun o recs hrecs hwf hbad hb ho => (createCq_startsIn hs).exec_busy hs hrecs hwf (fun _ => hbad) (fun _ => hb) ho,
      fun o recs hrecs hwf hbad hb ho => (createSrq_startsIn hs).exec_busy hs hrecs hwf (fun _ => hbad) (fun _ => hb) ho,
      fun o recs c1 c2 hrecs hwf hbad hb h1 h2 hsrq ho =>
        (createQp_startsIn hs h1 h2 hsrq).exec_busy hs hrecs hwf (fun _ => hbad) (fun _ => hb) ho,
      fun hm => ⟨fun o hbad hb ho => (createCq_startsIn hs).exec_busy_legacy hs hm (fun _ => hbad) (fun _ => hb) ho,
        fun o c1 c2 hbad hb h1 h2 hsrq ho =>
          (createQp_startsIn hs h1 h2 hsrq).exec_busy_legacy hs hm (fun _ => hbad) (fun _ => hb) ho,
        fun o hbad hb ho => (createSrq_startsIn hs).exec_busy_legacy hs hm (fun _ => hbad) (fun _ => hb) ho⟩,
      fun c y hn hy ha => exec_destroyCq_attached hs hn hy ha,
      fun h r y hop hn hy ha => exec_destroySrq_attached hs hop hn hy ha⟩
  · subst hop
    refine ⟨fun hbad => (createCq_startsIn hs).exec_outOfRange hs fun _ => hbad,
      fun hbad => (createSrq_startsIn hs).exec_outOfRange hs fun _ => hbad, exec_createQp_invalidHandle hs,
      fun hm => ⟨fun hn hbad hb => (createCq_startsIn hs).exec_noResources hs hm hn (fun _ => hbad) fun _ => hb,
        fun hn hbad hb => (createSrq_startsIn hs).exec_noResources hs hm hn (fun _ => hbad) fun _ => hb⟩,
      fun c1 c2 h1 h2 hsrq => ⟨fun hbad => (createQp_startsIn hs h1 h2 hsrq).exec_outOfRange hs fun _ => hbad,
        fun hm hn hbad hb => (createQp_startsIn hs h1 h2 hsrq).exec_noResources hs hm hn (fun _ => hbad) fun _ => hb⟩⟩
  · refine ⟨?_, ?_⟩
    · rintro cap rfl hbad hb hins hrecs hapart
      obtain ⟨y, m, l, hzero, hmem, hexec⟩ := exec_createCq_fails hs hop hbad hb hins hrecs hfw hstatus hwf hapart
      exact ⟨_, hexec, lookup_undone (k := .cq) (rest := rest) rfl, assocGet_assocDel_self ..,
        fun c hc => (assocGet_assocDel_ne _ hc).trans (assocGet_assocSet_ne _ _ hc), hzero, hmem, rfl, rfl⟩
    · rintro cap sh rfl rfl hbad hb hins hrecs hapart
      have hbuf : createSrqBuf op s = (op.bufBase.toNat,
          ringCapacity s.mode op.srqDepth.toNat * 2 ^ slotShift s.cfg (16 + 16 * op.maxGs.toNat)) := congrArg _ (Nat.shiftLeft_eq ..)
      obtain ⟨y, m, l, hzero, hmem, hexec⟩ := exec_createSrq_fails hs hop hbad hb hins hrecs hfw hstatus hwf (hbuf ▸ hapart)
      exact ⟨_, hexec, lookup_undone (k := .srq) (rest := rest) rfl, assocGet_assocDel_self ..,
        fun c hc => (assocGet_assocDel_ne _ hc).trans (assocGet_assocSet_ne _ _ hc), hzero, hbuf ▸ hmem, rfl, rfl⟩
  · rintro s op bytes sh rfl rfl
    exact createSrqBad_iff op s
  · rintro s op rd rg sb rb rfl rfl rfl rfl
    exact createQpBad_iff op s

end Sys2Proof.Machine
end

section
/-! SUPPORT. `DEVICE_START` (R440): its two rejections, and the start itself, which in `MEMFREE` writes every record of the table
with zeros. -/

namespace Sys2Proof.Machine

open Sys2Proof

variable {s t : State} {b i n : Nat} {k : Prog}

/-! ### The checks -/

theorem deviceStartCheck_started (op : Operands) (hs : s.started = true) : deviceStartCheck op s = 1 := if_pos hs

theorem deviceStartCheck_misaligned {op : Operands} (hs : s.started = false) (hm : op.mode = .memfree)
    (hbase : op.dbRecBase.toNat % 8 ≠ 0) : deviceStartCheck op s = 2 := by
  simp [deviceStartCheck, hs, hm, hbase]

theorem deviceStartCheck_ok {op : Operands} (hs : s.started = false) (hbase : op.mode = .memfree → op.dbRecBase.toNat % 8 = 0) :
    deviceStartCheck op s = 0 := by
  have haligned : ¬ (op.mode = .memfree ∧ op.dbRecBase.toNat % 8 ≠ 0) := fun h => h.2 (hbase h.1)
  rw [deviceStartCheck, if_neg (by simp [hs]), if_neg haligned]

/-- Settles O14: the check of R440 comes first, so the command raises in the state it was issued in. -/
theorem deviceStartRejected : Obligations.DeviceStartRejected := by
  intro s hs
  refine ⟨fun hstarted => ?_, fun hstopped hm hbase => ?_⟩
  · refine hs.runCmd (p := deviceStartProg) ?_
    rw [deviceStartProg, runs_ask, deviceStartCheck_started (s := s.beginCmd .deviceStart) _ hstarted, if_pos rfl]
    exact (runs_raise_begin hs.unlocked).mpr rfl
  · refine hs.runCmd (p := deviceStartProg) ?_
    rw [deviceStartProg, runs_ask, deviceStartCheck_misaligned (s := s.beginCmd .deviceStart) hstopped hm hbase,
      if_neg (by decide), if_pos rfl]
    exact (runs_raise_begin hs.unlocked).mpr rfl

/-! ### The record table -/

theorem mem_beBytes_zero {v : Byte} (n : Nat) (h : v ∈ beBytes n 0) : v = 0 := by
  induction n with
  | zero => cases h
  | succ n ih =>
    obtain rfl | h := List.mem_cons.mp h
    · simp
    · exact ih h

theorem memGet_memWrite_zero {a : Nat} (hwf : Memory.wf s.mem = true) (hb : InRange a n b) : memGet (s.memWrite a n 0).mem b = 0 := by
  obtain ⟨j, rfl⟩ := Nat.exists_eq_add_of_le hb.1
  have hj : j < (beBytes n 0).length := by
    rw [beBytes_length]
    exact Nat.lt_of_add_lt_add_left hb.2
  rw [State.memWrite_mem, memGet_memPutBytes_inside s.mem a (beBytes n 0) j hwf hj]
  exact mem_beBytes_zero n (List.getElem_mem hj)

/-- Both words of a record, written with zeros. -/
theorem memGet_initRec_zero (hwf : Memory.wf s.mem = true) (hb : InRange (s.recAddr i) 8 b) :
    memGet (s.initRec i 0 0).mem b = 0 := by
  let u := (s.wmb.memWrite (s.recAddr i) 4 0).wmb
  have hu : Memory.wf u.mem = true := (writes_memWrite s.wmb (s.recAddr i) 4 0).mem_wf hwf
  have haddr : u.recAddr i = s.recAddr i := s.wmb.memWrite_recAddr (s.recAddr i) 4 0 i
  have hinit : s.initRec i 0 0 = u.memWrite (s.recAddr i + 4) 4 0 := haddr ▸ rfl
  rw [hinit]
  by_cases hword : InRange (s.recAddr i + 4) 4 b
  · exact memGet_memWrite_zero hu hword
  · have hfirst : InRange (s.recAddr i) 4 b := by
      unfold InRange at *
      omega
    rw [(writes_memWrite u (s.recAddr i + 4) 4 0).outside hword, State.wmb_mem]
    exact memGet_memWrite_zero (s := s.wmb) hwf hfirst

/-- The records from `i` on, `n` of them, zeroed: where the memory afterwards is `m`. -/
theorem runs_zeroRecords (n : Nat) : ∀ (i : Nat) (s : State), Memory.wf s.mem = true →
    ∃ m l, (∀ b, InRange (s.recAddr i) (8 * n) b → memGet m b = 0)
      ∧ (∀ b, ¬ InRange (s.recAddr i) (8 * n) b → memGet m b = memGet s.mem b)
      ∧ ∀ k t, Runs (zeroRecords n i k) s t ↔ Runs k ((s.setMem m).setBus l) t := by
  induction n with
  | zero =>
    intro i s _
    exact ⟨s.mem, s.bus, fun b hb => by unfold InRange at hb; omega, fun _ _ => rfl, fun _ _ => Iff.rfl⟩
  | succ n ih =>
    intro i s hwf
    have hsplit : ∀ b, InRange (s.recAddr i) (8 * (n + 1)) b ↔ InRange (s.recAddr i) 8 b ∨ InRange (s.recAddr (i + 1)) (8 * n) b :=
      fun b => by unfold InRange State.recAddr; omega
    obtain ⟨m, l, hzero, hout, hrun⟩ := ih (i + 1) (s.initRec i 0 0) ((writes_initRec s i 0 0).mem_wf hwf)
    rw [State.initRec_recAddr] at hzero hout
    refine ⟨m, l, fun b hb => ?_, fun b hb => ?_, fun k t => ?_⟩
    · by_cases hlater : InRange (s.recAddr (i + 1)) (8 * n) b
      · exact hzero b hlater
      · exact (hout b hlater).trans (memGet_initRec_zero hwf (((hsplit b).mp hb).resolve_right hlater))
    · obtain ⟨hnow, hlater⟩ := not_or.mp fun h => hb ((hsplit b).mpr h)
      exact (hout b hlater).trans ((writes_initRec s i 0 0).outside hnow)
    · rw [zeroRecords, runs_eff, runs_eff]
      refine (hrun k t).trans (iff_of_eq (congrArg (Runs k · t) ?_))
      obtain ⟨m', l', heq, -⟩ := writes_initRec s i 0 0
      rw [heq]
      rfl

theorem runs_freeAllRecords (hu : s.unlocked) : Runs (freeAllRecords k) s t ↔ Runs k (s.setRecs [] s.cfg.dbRecCount) t := by
  rw [freeAllRecords, runs_acquire, and_iff_right (hu.holder _), runs_eff, runs_release_newest (l := s.locks) rfl (hu.holder _)]
  rfl

/-! ### The start -/

/-- The last steps of a start. -/
theorem runs_startEnd (s : State) : Runs (eff (fun s => s.setFatal false) <| eff (fun s => s.setStarted true) <| respond .ok none)
    (s.beginCmd .deviceStart) (((s.setFatal false).setStarted true).ended { status := some .ok }) := by
  rw [runs_eff, runs_eff, runs_respond]
  ext1 <;> simp [State.ended]

/-- A start that passes its checks, up to the record table. -/
theorem runs_deviceStart (hs : s.started = false) (hbase : s.me.op.mode = .memfree → s.me.op.dbRecBase.toNat % 8 = 0) :
    Runs (deviceStartProg s.me.op) (s.beginCmd .deviceStart) t ↔
      Runs (startRecords s.me.op <| eff (fun s => s.setFatal false) <| eff (fun s => s.setStarted true) <| respond .ok none)
        ((s.setMode s.me.op.mode).beginCmd .deviceStart) t := by
  rw [deviceStartProg, runs_ask, deviceStartCheck_ok (s := s.beginCmd .deviceStart) hs hbase, if_neg (by decide), if_neg (by decide),
    runs_eff]
  rfl

/-- The record table of a start in `MEMFREE`: where the memory afterwards is `m`. -/
theorem runs_startRecords {op : Operands} (hm : op.mode = .memfree)
    (howns : s.owns (op.dbRecBase.toNat, 8 * s.cfg.dbRecCount) = true) (hu : s.unlocked) (hwf : Memory.wf s.mem = true) :
    ∃ m l, (∀ b, InRange op.dbRecBase.toNat (8 * s.cfg.dbRecCount) b → memGet m b = 0)
      ∧ (∀ b, ¬ InRange op.dbRecBase.toNat (8 * s.cfg.dbRecCount) b → memGet m b = memGet s.mem b)
      ∧ ∀ k t, Runs (startRecords op k) s t ↔
          Runs k ((((s.setRecBase op.dbRecBase).setMem m).setBus l).setRecs [] s.cfg.dbRecCount) t := by
  obtain ⟨m, l, hzero, hout, hrun⟩ := runs_zeroRecords s.cfg.dbRecCount 0 (s.setRecBase op.dbRecBase) hwf
  refine ⟨m, l, hzero, hout, fun k t => ?_⟩
  simp only [startRecords, hm]
  rw [runs_guard, and_iff_right howns, runs_eff, runs_ask, State.setRecBase_cfg, hrun]
  exact runs_freeAllRecords (s := ((s.setRecBase op.dbRecBase).setMem m).setBus l) hu

/-- Settles O13: in `LEGACY` no record is touched; in `MEMFREE` the whole table is written with zeros before the start. -/
theorem deviceStart : Obligations.DeviceStart := by
  intro s hs hstopped
  refine ⟨fun hm => hs.runCmd (p := deviceStartProg) ?_, fun base hm hbase haligned howns hwf => ?_⟩
  · refine (runs_deviceStart hstopped fun h => absurd (hm.symm.trans h) nofun).mpr ?_
    simp only [startRecords, hm]
    exact runs_startEnd (s.setMode .legacy)
  · subst hbase
    obtain ⟨m, l, hzero, hout, hrun⟩ := runs_startRecords (s := (s.setMode .memfree).beginCmd .deviceStart) hm howns hs.unlocked hwf
    let u := ((((s.setMode .memfree).setRecBase s.me.op.dbRecBase).setMem m).setBus l).setRecs [] s.cfg.dbRecCount
    have hruns : Runs (deviceStartProg s.me.op) (s.beginCmd .deviceStart)
        (((u.setFatal false).setStarted true).ended { status := some .ok }) := by
      rw [runs_deviceStart hstopped fun _ => haligned, hm, hrun]
      exact runs_startEnd u
    refine ⟨_, hs.runCmd hruns, fun b hb hb' => hzero b ⟨hb, hb'⟩, fun b hb => hout b (not_inRange.mpr hb), rfl, rfl⟩

end Sys2Proof.Machine
end

section
/-! SUPPORT. `DEVICE_STOP` (R441): the loops over the lookup tables where no object is live, and the steps after the last destroy. -/

namespace Sys2Proof.Machine

open Sys2Proof

variable {s t : State} {kind : Kind} {i n : Nat} {k : Prog}

theorem State.idle.requester (hs : s.idle) : s.cur ≠ eventAgent := by
  obtain ⟨⟨hcur, -⟩, -⟩ := hs
  exact hcur

/-! ### Events dropped (R442) -/

/-- The record of an agent after the events have been dropped (R442). -/
def quieted (e : Nat × Agent) : Nat × Agent := if e.1 = eventAgent then (e.1, { op := e.2.op, resp := e.2.resp }) else e

theorem quieted_fst (e : Nat × Agent) : (quieted e).1 = e.1 := by
  unfold quieted
  split_ifs <;> rfl

theorem State.dropEvents_eq (hu : s.unlocked) : s.dropEvents = { s with eventQ := [], agents := s.agents.map quieted } := by
  have hlocks : s.locks.filter (fun e => decide (e.2 ≠ eventAgent)) = s.locks := by
    rw [show s.locks = [] from hu]
    rfl
  unfold State.dropEvents
  rw [hlocks]
  rfl

theorem State.dropEvents_unlocked (hu : s.unlocked) : s.dropEvents.unlocked := by
  rw [State.dropEvents_eq hu]
  exact hu

theorem assocGet_map_quieted (l : List (Nat × Agent)) (a : Nat) :
    assocGet (l.map quieted) a = (assocGet l a).map fun x => (quieted (a, x)).2 := by
  induction l with
  | nil => rfl
  | cons e l ih =>
    obtain ⟨j, x⟩ := e
    have hkey : quieted (j, x) = (j, (quieted (j, x)).2) := Prod.ext (quieted_fst _) rfl
    rw [List.map_cons, hkey, assocGet, assocGet, ih]
    by_cases h : j = a
    · subst h
      simp
    · simp [h]

theorem map_quieted_assocSet {a : Nat} (ha : a ≠ eventAgent) (l : List (Nat × Agent)) (x : Agent) :
    (assocSet l a x).map quieted = assocSet (l.map quieted) a x := by
  have hself : quieted (a, x) = (a, x) := if_neg ha
  induction l with
  | nil => simp [assocSet, hself]
  | cons e l ih =>
    obtain ⟨j, y⟩ := e
    have hkey : quieted (j, y) = (j, (quieted (j, y)).2) := Prod.ext (quieted_fst _) rfl
    rw [assocSet, List.map_cons, hkey, assocSet]
    by_cases h : j = a
    · simp [h, hself]
    · simp only [h, if_false, List.map_cons, ih]
      rw [← hkey]

theorem State.dropEvents_agent_ne {a : Nat} (ha : a ≠ eventAgent) : s.dropEvents.agent a = s.agent a := by
  have hid : (fun x => (quieted (a, x)).2) = id := funext fun x => congrArg Prod.snd (if_neg ha)
  have hget : assocGet (s.agents.map quieted) a = assocGet s.agents a := by
    rw [assocGet_map_quieted, hid, Option.map_id, id]
  exact congrArg (fun x => x.getD ({} : Agent)) hget

theorem State.dropEvents_eventAgent : (s.dropEvents.agent eventAgent).cmd = none := by
  have hget : s.dropEvents.agent eventAgent = ((assocGet s.agents eventAgent).map fun x => (quieted (eventAgent, x)).2).getD {} :=
    congrArg (fun x => x.getD ({} : Agent)) (assocGet_map_quieted ..)
  rw [hget]
  cases assocGet s.agents eventAgent <;> rfl

/-! ### After the last destroy -/

/-- The steps of a stop after the last destroy, up to its response. -/
def stopEnd (k : Prog) : Prog :=
  eff (fun s => s.dropEvents.setStarted false) <| eff (fun s => s.setFatal false) <| freeAllRecords k

/-- The state after the last step of a stop but the response. -/
def State.stopped (s : State) : State := ((s.dropEvents.setStarted false).setFatal false).setRecs [] s.cfg.dbRecCount

theorem State.setMe_stopped (hcur : s.cur ≠ eventAgent) (a : Agent) : (s.setMe a).stopped = s.stopped.setMe a := by
  have hagents : ((s.setMe a).agents).map quieted = assocSet (s.agents.map quieted) s.cur a := map_quieted_assocSet hcur ..
  ext1
  case agents => exact hagents
  all_goals rfl

theorem runs_stopEnd (hu : s.unlocked) : Runs (stopEnd k) s t ↔ Runs k s.stopped t := by
  rw [stopEnd, runs_eff, runs_eff,
    runs_freeAllRecords (s := (s.dropEvents.setStarted false).setFatal false) (State.dropEvents_unlocked hu)]
  rfl

/-! ### No live object -/

/-- The read of an entry under the lock of its shard. -/
theorem runs_readGen {rest : Nat → Prog} (hu : s.unlocked) :
    Runs (underShardAt kind i (fun s => .ok (s.liveGen kind i) s) rest) s t ↔ Runs (rest (s.liveGen kind i)) s t :=
  runs_underShardAt (hu.holder _) (by cases kind <;> rfl) rfl rfl rfl

theorem runs_stopLoop_empty (hu : s.unlocked) (he : ∀ i, (s.entry kind i).occ = none) :
    Runs (stopLoop kind n i k) s t ↔ Runs k s t := by
  induction n generalizing i with
  | zero => rfl
  | succ n ih =>
    have hgen : s.liveGen kind i = 0 := by
      rw [State.liveGen, he]
      rfl
    rw [stopLoop, runs_readGen hu, hgen, if_pos rfl, ih]

theorem runs_stopKind_empty (hu : s.unlocked) (he : ∀ i, (s.entry kind i).occ = none) : Runs (stopKind kind k) s t ↔ Runs k s t := by
  rw [stopKind, runs_ask, runs_stopLoop_empty hu he]

theorem deviceStopProg_eq (op : Operands) :
    deviceStopProg op = precond false none (stopKind .qp <| stopKind .srq <| stopKind .cq <| stopEnd <| respond .ok none) := rfl

/-- Settles O15: every loop finds its table empty. -/
theorem deviceStopEmpty : Obligations.DeviceStopEmpty := by
  intro s hs hstarted he
  have hu : s.unlocked := hs.unlocked
  have hcur := hs.requester
  have he' : ∀ kind i, ((s.beginCmd .deviceStop).entry kind i).occ = none := fun kind i => by
    rw [State.beginCmd_entry]
    exact he kind i
  refine ⟨hs.runCmd (p := deviceStopProg) ?_, ?_, State.dropEvents_eventAgent, fun a => State.dropEvents_agent_ne, ?_⟩
  · rw [deviceStopProg_eq, runs_precond (s := s.beginCmd .deviceStop) hstarted fun _ => rfl, runs_stopKind_empty (hu.begin _) (he' _),
      runs_stopKind_empty (hu.begin _) (he' _), runs_stopKind_empty (hu.begin _) (he' _), runs_stopEnd (hu.begin _), runs_respond]
    have hbegin : (s.beginCmd .deviceStop).stopped = s.stopped.beginCmd .deviceStop := by
      have hme : s.stopped.me = s.me := State.dropEvents_agent_ne hcur
      rw [State.beginCmd, State.beginCmd, hme, State.setMe_stopped hcur]
    rw [hbegin]
    ext1 <;> simp [State.ended, State.stopped]
  · rw [State.dropEvents_eq hu]
  · rw [State.dropEvents_eq hu]

end Sys2Proof.Machine
end

section
/-! SUPPORT. What it is for a command in progress to come to its end: `Finishes p s t` says that its agent, who has the program `p` to
run in `s`, ends it in `t`. A run that has to wait leaves its command in progress, so it does not finish; where every run of a
program with a hole (`Open`) goes on in one state, so does a command that finishes. -/

namespace Sys2Proof.Machine

open Sys2Proof

variable {s t u : State} {f : State → ActRes} {k : Nat → Prog} {a : Nat} {x : Lock} {C : (Nat → Prog) → Prog}

/-- The program, which an agent in the middle of a command has come to in `s`, ends the command in `t`. -/
def Finishes (p : Prog) (s t : State) : Prop := s.me.cmd ≠ none ∧ t.me.cmd = none ∧ ∃ log, p.run none log s = .next t

/-! ### Steps -/

/-- A step of a command that finishes has answered, neither waited nor faulted. -/
theorem Finishes.act (h : Finishes (.act f k) s t) : ∃ a u, f s = .ok a u ∧ (u.me.cmd = s.me.cmd → Finishes (k a) u t) := by
  obtain ⟨hbusy, hdone, log, hrun⟩ := h
  rw [Prog.run, if_neg nofun] at hrun
  cases hf : f s with
  | ok a u =>
    rw [hf] at hrun
    exact ⟨a, u, rfl, fun hcmd => ⟨hcmd ▸ hbusy, hdone, _, hrun⟩⟩
  | wait =>
    rw [hf] at hrun
    obtain rfl := Host.Outcome.next.inj hrun
    rw [State.park_me] at hdone
    exact absurd hdone hbusy
  | fault e =>
    rw [hf] at hrun
    cases hrun

theorem Finishes.act_ok (h : Finishes (.act f k) s t) (hf : f s = .ok a u) (hcmd : u.me.cmd = s.me.cmd) : Finishes (k a) u t := by
  obtain ⟨b, v, hf', hk⟩ := h.act
  cases hf.symm.trans hf'
  exact hk hcmd

theorem Finishes.eff {g : State → State} {k : Prog} (h : Finishes (eff g k) s t) (hcmd : (g s).me.cmd = s.me.cmd) :
    Finishes k (g s) t := h.act_ok rfl hcmd

theorem Finishes.ask {g : State → Nat} (h : Finishes (ask g k) s t) : Finishes (k (g s)) s t := h.act_ok rfl rfl

theorem Finishes.done (h : Finishes .done s t) : t = s.endCmd := by
  obtain ⟨-, -, log, hrun⟩ := h
  exact (Host.Outcome.next.inj hrun).symm

theorem Finishes.respond {st : Status} {bad : Option Nat} (h : Finishes (respond st bad) s t) :
    t = (s.setResp fun r => { r with status := some st, badIndex := bad.map (BitVec.ofNat 32) }).endCmd :=
  (h.eff (by rw [State.setResp_me])).done

/-- A breach of R430 finishes no command. -/
theorem not_finishes_useFault : ¬ Finishes useFault s t := fun h => by
  obtain ⟨a, u, hf, -⟩ := h.act
  cases hf

theorem Finishes.waitFor {c : State → Bool} {k : Prog} (h : Finishes (waitFor c k) s t) : Finishes k s t := by
  obtain ⟨a, u, hf, hk⟩ := h.act
  split at hf
  · cases hf
    exact hk rfl
  · cases hf

/-! ### Locks -/

theorem acquireAct_ok (h : acquireAct x s = .ok a u) : s.holder x = none ∧ u = s.setLocks ((x, s.cur) :: s.locks) := by
  unfold acquireAct at h
  split at h
  · cases h
    exact ⟨‹_›, rfl⟩
  · split at h <;> cases h

theorem releaseAct_ok (h : releaseAct x s = .ok a u) : u = s.setLocks (s.locks.filter fun e => decide (e.1 ≠ x)) := by
  unfold releaseAct at h
  split at h <;> cases h
  rfl

theorem Finishes.acquire {k : Prog} (h : Finishes (acquire x k) s t) : Finishes k (s.setLocks ((x, s.cur) :: s.locks)) t := by
  obtain ⟨a, u, hf, hk⟩ := h.act
  obtain ⟨-, rfl⟩ := acquireAct_ok hf
  exact hk rfl

theorem Finishes.release {k : Prog} (h : Finishes (release x k) s t) :
    Finishes k (s.setLocks (s.locks.filter fun e => decide (e.1 ≠ x))) t := by
  obtain ⟨a, u, hf, hk⟩ := h.act
  obtain rfl := releaseAct_ok hf
  exact hk rfl

/-! ### Programs with a hole -/

/-- From a state, a program either comes to its hole, whatever the rest, or its runs are alike with every rest. -/
theorem Open.comes (hC : Open C) (s : State) :
    (∃ b v, ∀ k, (∀ t, Runs (C k) s t → Runs (k b) v t) ∧ ∀ log, ∃ log', (C k).run none log s = (k b).run none log' v)
    ∨ ∀ k k' t, Runs (C k) s t → Runs (C k') s t := by
  induction hC generalizing s with
  | hole a => exact .inl ⟨a, s, fun k => ⟨fun _ => id, fun log => ⟨log, rfl⟩⟩⟩
  | fixed p => exact .inr fun _ _ _ => id
  | act f _ ih =>
    cases hf : f s with
    | ok a s' =>
      simp only [runs_act_ok hf]
      obtain ⟨b, v, hcomes⟩ | hfixed := ih a s'
      · refine .inl ⟨b, v, fun k => ⟨(hcomes k).1, fun log => ?_⟩⟩
        obtain ⟨log', hrun⟩ := (hcomes k).2 (a :: log)
        refine ⟨log', ?_⟩
        rw [Prog.run, if_neg nofun, hf]
        exact hrun
      · exact .inr hfixed
    | wait => exact .inr fun k k' t h => by simp [runs_act, hf] at h
    | fault e => exact .inr fun k k' t h => by simp [runs_act, hf] at h

/-- Where the runs of a program with a hole are those of the rest in one state, a command that finishes goes on in that state. -/
theorem Open.finishes (hC : Open C) (hruns : ∀ k t, Runs (C k) s t ↔ Runs (k a) u t) (hcmd : u.me.cmd = s.me.cmd)
    (h : Finishes (C k) s t) : Finishes (k a) u t := by
  obtain ⟨hbusy, hdone, log, hrun⟩ := h
  obtain ⟨b, v, hcomes⟩ | hfixed := hC.comes s
  · have hprobe : Runs (C (probe a u)) s u.endCmd := (hruns _ _).mpr (runs_probe.mpr ⟨⟨rfl, rfl⟩, rfl⟩)
    obtain ⟨⟨rfl, rfl⟩, -⟩ := runs_probe.mp ((hcomes _).1 _ hprobe)
    obtain ⟨log', hrun'⟩ := (hcomes k).2 log
    exact ⟨hcmd ▸ hbusy, hdone, log', hrun'.symm.trans hrun⟩
  · have hdone : Runs (C fun _ => .done) s u.endCmd := (hruns _ _).mpr .done
    obtain ⟨h, -⟩ := runs_guard.mp ((hruns _ _).mp (hfixed _ (fun _ => useFault) _ hdone))
    cases h

/-- A command of an idle agent that has ended. -/
theorem State.idle.finishes {i : Instr} {p : Operands → Prog} (hs : s.idle) (h : Machine.runCmd i p s = .next t) (ht : t.me.cmd = none) :
    Finishes (p s.me.op) (s.beginCmd i) t := by
  obtain ⟨⟨-, hcmd, hslice⟩, halone, -⟩ := hs
  rw [Machine.runCmd, if_neg (by simp [halone.mayIssue]), runOn, hcmd, hslice] at h
  exact ⟨by simp, ht, [], h⟩

end Sys2Proof.Machine
end

section
/-! SUPPORT. What the steps of a destroy between the removal of its entry and the detaches leave alone, whatever CQEs wait and whatever
the firmware answers: `s.Spares u` says that `u` has the lookup tables, the QPs, the locks and the `attach` counts of `s`. -/

namespace Sys2Proof.Machine

open Sys2Proof

/-- Is there no object at an arena index? -/
def State.gone (s : State) (k : Kind) (o : Nat) : Prop :=
  match k with
  | .qp => s.qp? o = none
  | .cq => s.cq? o = none
  | .srq => s.srq? o = none

/-- The lookup tables, the QPs and the locks are as before, the command is in progress, and no object has come. -/
structure State.Steady (s u : State) : Prop where
  cfg : u.cfg = s.cfg
  cur : u.cur = s.cur
  locks : u.locks = s.locks
  cmd : u.me.cmd = s.me.cmd
  resp : u.me.resp = s.me.resp
  alone : s.alone → u.alone
  table : ∀ k, u.table k = s.table k
  qps : u.qps = s.qps
  gone : ∀ k o, s.gone k o → u.gone k o

/-- As `Steady`, and the `attach` counts are as before. -/
structure State.Spares (s u : State) : Prop extends s.Steady u where
  attach : ∀ k o, u.attachOf k o = s.attachOf k o

variable {s t u v : State} {C : (Nat → Prog) → Prog} {E : Nat → (Nat → Prog) → Prog} {c r q n : Nat}

/-! ### States that are spared -/

theorem State.Steady.refl (s : State) : s.Steady s := ⟨rfl, rfl, rfl, rfl, rfl, id, fun _ => rfl, rfl, fun _ _ => id⟩

theorem State.Steady.trans (h : s.Steady u) (h' : u.Steady v) : s.Steady v where
  cfg := h'.cfg.trans h.cfg
  cur := h'.cur.trans h.cur
  locks := h'.locks.trans h.locks
  cmd := h'.cmd.trans h.cmd
  resp := h'.resp.trans h.resp
  alone := h'.alone ∘ h.alone
  table k := (h'.table k).trans (h.table k)
  qps := h'.qps.trans h.qps
  gone k o := h'.gone k o ∘ h.gone k o

/-- Work between the acquire and the release of a lock. -/
theorem State.Steady.of_locked {l : List (Lock × Nat)} (h : (s.setLocks l).Steady u) : s.Steady (u.setLocks s.locks) where
  cfg := h.cfg
  cur := h.cur
  locks := rfl
  cmd := h.cmd
  resp := h.resp
  alone := h.alone
  table k := by
    have ht := h.table k
    cases k <;> exact ht
  qps := h.qps
  gone k o := by
    have hg := h.gone k o
    cases k <;> exact hg

theorem State.Spares.refl (s : State) : s.Spares s := ⟨.refl s, fun _ _ => rfl⟩

theorem State.Spares.trans (h : s.Spares u) (h' : u.Spares v) : s.Spares v :=
  ⟨h.toSteady.trans h'.toSteady, fun k o => (h'.attach k o).trans (h.attach k o)⟩

theorem State.Spares.of_locked {l : List (Lock × Nat)} (h : (s.setLocks l).Spares u) : s.Spares (u.setLocks s.locks) :=
  ⟨h.toSteady.of_locked, fun k o => by
    have ha := h.attach k o
    cases k <;> exact ha⟩

/-- The fields that a stop does not depend on. -/
theorem State.spares_fields (s : State) (m : List Host.Cell) (l : List BusEvent) (fw : List FwAnswer) (quiet : List Num24)
    (used : List Nat) (free : Nat) :
    s.Spares { s with mem := m, bus := l, fw := fw, quiet := quiet, dbRecUsed := used, dbRecFree := free } where
  __ := State.Steady.refl s
  table k := by cases k <;> rfl
  gone k o h := by cases k <;> exact h
  attach k o := by cases k <;> rfl

theorem Writes.spares {S : Nat → Prop} (h : Writes S s u) : s.Spares u := by
  obtain ⟨m, l, rfl, -⟩ := h
  exact s.spares_fields m l s.fw s.quiet s.dbRecUsed s.dbRecFree

theorem State.spares_setMe {ag : Agent} (hcmd : ag.cmd = s.me.cmd) (hresp : ag.resp = s.me.resp) : s.Spares (s.setMe ag) where
  cfg := rfl
  cur := rfl
  locks := rfl
  cmd := (congrArg Agent.cmd (s.setMe_me ag)).trans hcmd
  resp := (congrArg Agent.resp (s.setMe_me ag)).trans hresp
  alone := State.alone_congr fun p => s.setMe_otherBusy ag p
  table k := by cases k <;> rfl
  qps := rfl
  gone k o h := by cases k <;> exact h
  attach k o := by cases k <;> rfl

theorem State.spares_setCq {x y : Cq} (hx : s.cq? c = some x) (hy : y.attach = x.attach) : s.Spares (s.setCq c y) := by
  have hget : ∀ d, (s.setCq c y).cq? d = if d = c then some y else s.cq? d := fun d => by
    split_ifs with hd
    · rw [hd, State.setCq_cq_self]
    · exact State.setCq_cq_ne _ _ hd
  have hattach : ∀ d, (s.setCq c y).attachOf .cq d = s.attachOf .cq d := fun d => by
    rw [State.attachOf, State.attachOf, hget]
    split_ifs with hd
    · rw [hd, hx, Option.map_some, Option.map_some, hy]
    · rfl
  have hgone : ∀ d, s.cq? d = none → (s.setCq c y).cq? d = none := fun d hd => by
    rw [hget, if_neg, hd]
    rintro rfl
    exact absurd (hx.symm.trans hd) nofun
  exact
    { State.Steady.refl s with
      table := fun k => by cases k <;> rfl
      gone := fun k o h => by cases k; exacts [h, hgone o h, h]
      attach := fun k o => by cases k; exacts [rfl, hattach o, rfl] }

theorem State.spares_setSrq {x y : Srq} (hx : s.srq? r = some x) (hy : y.attach = x.attach) : s.Spares (s.setSrq r y) := by
  have hget : ∀ p, (s.setSrq r y).srq? p = if p = r then some y else s.srq? p := fun p => by
    split_ifs with hp
    · rw [hp, State.setSrq_srq_self]
    · exact State.setSrq_srq_ne _ _ hp
  have hattach : ∀ p, (s.setSrq r y).attachOf .srq p = s.attachOf .srq p := fun p => by
    rw [State.attachOf, State.attachOf, hget]
    split_ifs with hp
    · rw [hp, hx, Option.map_some, Option.map_some, hy]
    · rfl
  have hgone : ∀ p, s.srq? p = none → (s.setSrq r y).srq? p = none := fun p hp => by
    rw [hget, if_neg, hp]
    rintro rfl
    exact absurd (hx.symm.trans hp) nofun
  exact
    { State.Steady.refl s with
      table := fun k => by cases k <;> rfl
      gone := fun k o h => by cases k; exacts [h, h, hgone o h]
      attach := fun k o => by cases k; exacts [rfl, rfl, hattach o] }

/-! ### Programs that spare the state -/

/-- A command that finishes comes through the program to its hole, in a state that spares the one it started in. -/
def Passes (C : (Nat → Prog) → Prog) : Prop := ∀ k s t, Finishes (C k) s t → ∃ a u, s.Spares u ∧ Finishes (k a) u t

theorem passes_hole (a : Nat) : Passes fun k => k a := fun _ s _ h => ⟨a, s, .refl s, h⟩

theorem passes_useFault : Passes fun _ => useFault := fun _ _ _ h => absurd h not_finishes_useFault

namespace Passes

theorem ite {D : (Nat → Prog) → Prog} {p : Prop} [Decidable p] (hC : Passes C) (hD : Passes D) :
    Passes fun k => if p then C k else D k := by
  split
  · exact hC
  · exact hD

theorem comp (hC : Passes C) (hE : ∀ a, Passes (E a)) : Passes fun k => C fun a => E a k := fun k s t h => by
  obtain ⟨a, u, hu, h⟩ := hC _ s t h
  obtain ⟨b, v, hv, h⟩ := hE a k u t h
  exact ⟨b, v, hu.trans hv, h⟩

/-! ### Steps -/

theorem act {f : State → ActRes} (hf : ∀ s a u, f s = .ok a u → s.Spares u) (hE : ∀ a, Passes (E a)) :
    Passes fun k => .act f fun a => E a k :=
  comp (C := fun k => .act f k) (fun k s t h => by
    obtain ⟨a, u, hfa, hk⟩ := h.act
    have hu := hf s a u hfa
    exact ⟨a, u, hu, hk hu.cmd⟩) hE

theorem ask {f : State → Nat} (hE : ∀ a, Passes (E a)) : Passes fun k => ask f fun a => E a k :=
  act (fun s a u h => by cases h; exact .refl s) hE

theorem eff {f : State → State} (hf : ∀ s : State, s.Spares (f s)) (hC : Passes C) : Passes fun k => eff f (C k) :=
  act (fun s a u h => by cases h; exact hf s) fun _ => hC

theorem waitFor {c : State → Bool} (hC : Passes C) : Passes fun k => waitFor c (C k) := fun k s t h => hC k s t h.waitFor

theorem withCq {f : State → Cq → ActRes} (hf : ∀ s x a u, s.cq? c = some x → f s x = .ok a u → s.Spares u)
    (hE : ∀ a, Passes (E a)) : Passes fun k => .act (fun s => withCq c s (f s)) fun a => E a k :=
  act (fun s a u h => by
    unfold Machine.withCq at h
    split at h
    · exact hf s _ a u ‹_› h
    · cases h) hE

theorem withSrq {f : State → Srq → ActRes} (hf : ∀ s x a u, s.srq? r = some x → f s x = .ok a u → s.Spares u)
    (hE : ∀ a, Passes (E a)) : Passes fun k => .act (fun s => withSrq r s (f s)) fun a => E a k :=
  act (fun s a u h => by
    unfold Machine.withSrq at h
    split at h
    · exact hf s _ a u ‹_› h
    · cases h) hE

/-- Work under a lock that depends on the parameters only. -/
theorem locked {L : State → Lock} (hL : ∀ s u : State, u.cfg = s.cfg → L u = L s) (hC : Passes C) (hE : ∀ a, Passes (E a)) :
    Passes fun k => .act (fun s => acquireAct (L s) s) fun _ => C fun a => .act (fun s => releaseAct (L s) s) fun _ => E a k := by
  refine comp (C := fun k => .act (fun s => acquireAct (L s) s) fun _ => C fun a => .act (fun s => releaseAct (L s) s) fun _ => k a)
    (fun k s t h => ?_) hE
  obtain ⟨_, s1, hacquire, h⟩ := h.act
  obtain ⟨hfree, rfl⟩ := acquireAct_ok hacquire
  obtain ⟨a, v, hv, h⟩ := hC _ _ t (h rfl)
  obtain ⟨_, w, hrelease, h⟩ := h.act
  obtain rfl := releaseAct_ok hrelease
  have hfilter : v.locks.filter (fun e => decide (e.1 ≠ L v)) = s.locks := by
    have hlocks : v.locks = (L s, s.cur) :: s.locks := hv.locks
    have hlock : L v = L s := hL s v hv.cfg
    rw [hlocks, hlock, List.filter_cons_of_neg (by simp)]
    exact filter_free hfree
  rw [hfilter] at h
  exact ⟨a, v.setLocks s.locks, hv.of_locked, h rfl⟩

theorem underShardAt {kind : Kind} {i : Nat} {f : State → ActRes} (hf : ∀ s a u, f s = .ok a u → s.Spares u)
    (hE : ∀ a, Passes (E a)) : Passes fun k => underShardAt kind i f fun a => E a k :=
  locked (L := fun s => s.shardLock kind i) (fun s u h => by rw [State.shardLock, State.shardLock, h]) (act hf passes_hole) hE

/-- A handle that an object holds, resolved; it is a fault where it names nothing. -/
theorem resolveRef {kind : Kind} {h : State → Option Handle} (hE : ∀ a, Passes (E a)) :
    Passes fun k => resolveRef kind h useFault fun a => E a k :=
  ask fun _ => passes_useFault.ite <| underShardAt (fun s a u h => by cases h; exact .refl s) fun o => passes_useFault.ite (hE o)

/-! ### Cleaning (R310) -/

theorem srqFree {idx : Srq → Nat} (hC : Passes C) : Passes fun k => srqFree r idx (C k) :=
  locked (L := fun _ => .srq r) (fun _ _ _ => rfl)
    (withSrq (fun s x a u hx h => by
      cases h
      exact State.spares_setSrq hx (x.freeSlot_attach _)) passes_hole) fun _ => hC

theorem cleanLoop {qpn : Num24} (todo : Nat) (hE : ∀ a, Passes (E a)) :
    ∀ nfreed, Passes fun k => cleanLoop c r qpn todo nfreed fun a => E a k := by
  induction todo with
  | zero => exact hE
  | succ j ih =>
    intro nfreed
    refine withCq (fun s x a u _ h => ?_) fun a => ite (ite (ih nfreed) (withCq (fun s x a u _ h => ?_) fun _ => ih nfreed))
      (ite (ih (nfreed + 1)) (srqFree (ih (nfreed + 1))))
    · dsimp only at h
      split at h <;> cases h <;> exact .refl s
    · cases h
      exact (writes_writeBytes ..).spares

end Passes

theorem giveSlots_spares (x : Cq) (n : Nat) : ∀ (j : Nat) (s : State), s.Spares (giveSlots s x j n) := by
  induction n with
  | zero => exact fun _ s => .refl s
  | succ n ih => exact fun j s => (writes_memWrite ..).spares.trans (ih (j + 1) _)

theorem State.spares_wmb (s : State) : s.Spares s.wmb := (writes_wmb s (S := fun _ => True)).spares

theorem State.spares_rmb (s : State) : s.Spares s.rmb := (writes_rmb s (S := fun _ => True)).spares

theorem noteTransition_spares (q : Nat) (new : QpState) (fw : Nat) (s : State) : s.Spares (noteTransition q new fw s) := by
  unfold noteTransition
  split
  · exact s.spares_fields s.mem s.bus s.fw _ s.dbRecUsed s.dbRecFree
  · exact .refl s

namespace Passes

theorem ciPublish (hC : Passes C) : Passes fun k => ciPublish c n (C k) := by
  refine ite hC (act (fun s a u h => ?_) fun _ => hC)
  cases hc : s.cq? c with
  | none =>
    rw [ciPublishAct, Machine.withCq, hc] at h
    cases h
  | some y =>
    obtain ⟨v, z, hv, hz, hwrites⟩ := ciPublishAct_writes n hc
    cases hv.symm.trans h
    exact (State.spares_setCq hc (by rw [hz])).trans hwrites.spares

/-- `CQ_CLEAN`, whatever is in the CQ. -/
theorem cqCleanOn {qpn : Num24} (hC : Passes C) : Passes fun k => cqCleanOn c r qpn (C k) := by
  have hend : ∀ nf, Passes fun k => if nf = 0 then k 0
      else .act (giveSlotsAct c nf) fun _ => Machine.eff State.wmb <| .act (advanceConsAct c nf) fun _ =>
        Machine.ciPublish c nf (k 0) := fun nf => by
    refine ite (passes_hole 0) (withCq (fun s x a u _ h => ?_) fun _ => eff State.spares_wmb
      (withCq (fun s x a u hx h => ?_) fun _ => ciPublish (passes_hole 0)))
    · cases h
      exact giveSlots_spares ..
    · cases h
      exact State.spares_setCq hx rfl
  have hscan := act (f := cleanScanAct c) (fun s a u h => ?_) fun m =>
    eff State.spares_rmb (cleanLoop (c := c) (r := r) (qpn := qpn) m hend 0)
  · exact locked (L := fun _ => .cq c) (fun _ _ _ => rfl) hscan fun _ => hC
  · unfold cleanScanAct Machine.withCq at h
    split at h <;> cases h
    exact .refl s

theorem cqClean {isSend withSrq : Bool} (hC : Passes C) : Passes fun k => cqClean q isSend withSrq (C k) :=
  ask fun _ => resolveRef fun _ => ask fun _ => ite (cqCleanOn hC) (resolveRef fun _ => cqCleanOn hC)

theorem cleanBoth (hC : Passes C) : Passes fun k => cleanBoth q (C k) := cqClean (ask fun _ => ite hC (cqClean hC))

/-! ### The firmware and the doorbell records -/

theorem mailboxNoting {note : Nat → State → State} {call : State → MailboxCall}
    (hnote : ∀ (fw : Nat) (s : State), s.Spares (note fw s)) (hE : ∀ a, Passes (E a)) :
    Passes fun k => mailboxNoting note call fun a => E a k := by
  refine act (fun s a u h => ?_) fun _ => ite (hE 255) (act (fun s a u h => ?_) hE)
  · unfold mailboxIssue at h
    split at h <;> cases h
    · exact s.spares_wmb
    · exact s.spares_wmb.trans (writes_postCall _ _ (S := fun _ => True)).spares
  · unfold mailboxAnswer at h
    split at h <;> cases h
    rename_i b rest _
    have hfw : s.Spares (s.setFw rest) := s.spares_fields s.mem s.bus rest s.quiet s.dbRecUsed s.dbRecFree
    have hme : (s.setFw rest).Spares ((s.setFw rest).setMe { s.me with fwOut := b.out }) := State.spares_setMe rfl rfl
    exact (hfw.trans hme).trans (hnote _ _)

theorem mailbox {call : State → MailboxCall} (hE : ∀ a, Passes (E a)) : Passes fun k => mailbox call fun a => E a k :=
  mailboxNoting (fun _ s => .refl s) hE

theorem finalReset (hC : Passes C) : Passes fun k => finalReset q false (C k) :=
  ask fun _ => ite hC (mailboxNoting (noteTransition_spares _ _) fun _ => hC)

theorem freeRec {rec : State → Option Nat} (hC : Passes C) : Passes fun k => freeRec rec (C k) := by
  refine ask fun _ => ite hC (eff (fun s => ?_) (locked (L := fun _ => .dbRec) (fun _ _ _ => rfl)
    (eff (fun s => ?_) (passes_hole 0)) fun _ => hC))
  · exact s.spares_wmb.trans (writes_writeRec1 s.wmb (rec s) 0).spares
  · exact s.spares_fields s.mem s.bus s.fw s.quiet _ _

end Passes

end Sys2Proof.Machine
end

section
/-! SUPPORT. The lookup tables and the references of a device whose objects fit together (`linked`), and the removal of one object
with its entry: what is left fits together again (R345, R349). -/

namespace Sys2Proof.Machine

open Sys2Proof

variable {s u v : State} {kind k : Kind} {h g : Handle} {x : Qp} {i o p q c1 c2 n : Nat}

/-! ### Entries and handles -/

theorem State.lookup_eq_some (hl : s.lookup kind h = some o) : h.kind = kind ∧ (s.entry kind h.index.toNat).gen = h.gen
    ∧ ∃ e, (s.entry kind h.index.toNat).occ = some e ∧ e.obj = o := by
  obtain ⟨hkind, -⟩ := lookup_inRange hl
  unfold State.lookup at hl
  split at hl
  · split at hl
    · split at hl
      · exact ⟨hkind, ‹_›, _, ‹_›, Option.some.inj hl⟩
      · cases hl
    · cases hl
  · cases hl

theorem State.lookup_congr (hcfg : u.cfg = s.cfg) (htable : u.table k = s.table k) : u.lookup k = s.lookup k := by
  funext g
  rw [State.lookup, State.lookup, State.entry, State.entry, hcfg, htable]

theorem State.emptyEntry_table (s : State) (kind : Kind) (h : Handle) (k : Kind) : (s.emptyEntry kind h).table k =
    if k = kind then (s.table kind).set h.index.toNat { gen := h.gen + 1, occ := none } else s.table k := by
  cases k <;> cases kind <;> rfl

theorem State.entry_of_emptied (ht : u.table k = (s.emptyEntry kind h).table k) (hne : ¬ (k = kind ∧ i = h.index.toNat)) :
    u.entry k i = s.entry k i := by
  rw [State.entry, ht, State.emptyEntry_table]
  split_ifs with hk
  · subst hk
    have hi : h.index.toNat ≠ i := fun hi => hne ⟨rfl, hi.symm⟩
    rw [List.getD_eq_getElem?_getD, List.getElem?_set_ne hi, ← List.getD_eq_getElem?_getD]
    rfl
  · rfl

theorem State.entry_emptied (ht : u.table kind = (s.emptyEntry kind h).table kind) (hi : h.index.toNat < (s.table kind).length) :
    u.entry kind h.index.toNat = { gen := h.gen + 1, occ := none } := by
  rw [State.entry, ht, State.emptyEntry_table, if_pos rfl, List.getD_eq_getElem?_getD, List.getElem?_set_self hi]
  rfl

theorem State.entry_live_lt {e : Occupant} (he : (s.entry k i).occ = some e) : i < (s.table k).length := by
  by_contra hi
  rw [State.entry, List.getD_eq_getElem?_getD, List.getElem?_eq_none (not_lt.mp hi)] at he
  cases he

/-! ### References (R349) -/

/-- How often a QP names the CQ or SRQ at an arena index. -/
def State.refsOf (s : State) (x : Qp) (k : Kind) (o : Nat) : Nat :=
  match k with
  | .qp => 0
  | .cq => (if s.lookup .cq x.sendCq = some o then 1 else 0) + (if s.lookup .cq x.recvCq = some o then 1 else 0)
  | .srq => if x.srq.bind (s.lookup .srq) = some o then 1 else 0

/-- How often the QP of an entry, if one is live, names the CQ or SRQ at an arena index. -/
def State.refsAt (s : State) (k : Kind) (o i : Nat) : Nat :=
  (((s.entry .qp i).occ.bind fun e => s.qp? e.obj).map fun x => s.refsOf x k o).getD 0

theorem State.refs_eq (s : State) (k : Kind) (o : Nat) :
    s.refs k o = ((List.range (Config.entries s.cfg .qp)).map (s.refsAt k o)).sum := by
  refine congrArg List.sum (List.map_congr_left fun i _ => ?_)
  unfold State.refsAt
  cases (s.entry .qp i).occ.bind fun e => s.qp? e.obj with
  | none => rfl
  | some x => cases k <;> rfl

theorem State.refsAt_empty (he : (s.entry .qp i).occ = none) : s.refsAt k o i = 0 := by
  rw [State.refsAt, he]
  rfl

theorem State.refs_zero (he : ∀ i, (s.entry .qp i).occ = none) : s.refs k o = 0 := by
  rw [State.refs_eq, List.sum_eq_zero_iff]
  intro a ha
  obtain ⟨i, -, rfl⟩ := List.mem_map.mp ha
  exact State.refsAt_empty (he i)

theorem State.refsOf_congr (hcq : u.lookup .cq = s.lookup .cq) (hsrq : u.lookup .srq = s.lookup .srq) :
    u.refsOf x k o = s.refsOf x k o := by
  cases k
  · rfl
  · rw [State.refsOf, State.refsOf, hcq]
  · rw [State.refsOf, State.refsOf, hsrq]

/-- A sum in which one term has become 0. -/
theorem sum_range_dropped {f g : Nat → Nat} (hi : i < n) (hzero : g i = 0) (hsame : ∀ j, j ≠ i → g j = f j) :
    ((List.range n).map f).sum = ((List.range n).map g).sum + f i := by
  induction n with
  | zero => cases hi
  | succ n ih =>
    rw [range_succ_map, range_succ_map, List.sum_append, List.sum_append, List.sum_singleton, List.sum_singleton]
    by_cases hin : i = n
    · subst hin
      have hbelow : (List.range i).map g = (List.range i).map f :=
        List.map_congr_left fun j hj => hsame j (List.mem_range.mp hj).ne
      rw [hbelow, hzero, Nat.add_zero]
    · rw [ih (by omega), hsame n (Ne.symm hin)]
      omega

/-- The detaches of a QP take its references away. -/
theorem State.bumpRefs_attachOf (h1 : s.lookup .cq x.sendCq = some c1) (h2 : s.lookup .cq x.recvCq = some c2) (hk : k ≠ .qp) :
    (s.bumpRefs c1 c2 x.srq (· - 1)).attachOf k o = s.attachOf k o - s.refsOf x k o := by
  cases k with
  | qp => exact absurd rfl hk
  | cq =>
    rw [State.attachOf, State.attachOf, State.refsOf, State.bumpRefs_cqOf, h1, h2]
    cases s.cq? o with
    | none => simp
    | some y =>
      simp only [Option.map_some, Option.getD_some, Option.some.injEq, @eq_comm Nat o]
      split_ifs <;> simp [Nat.sub_sub]
  | srq =>
    rw [State.attachOf, State.attachOf, State.refsOf, State.bumpRefs_srqOf]
    cases s.srq? o with
    | none => simp
    | some y =>
      simp only [Option.map_some, Option.getD_some]
      split_ifs <;> rfl

/-! ### Objects that fit together -/

namespace State.linked

theorem length (hs : s.linked) (k : Kind) : (s.table k).length = Config.entries s.cfg k := by
  obtain ⟨⟨hqp, hcq, hsrq⟩, -⟩ := hs
  cases k
  · exact hqp
  · exact hcq
  · exact hsrq

theorem live_ne_zero (hs : s.linked) (hl : s.lookup kind h = some o) : o ≠ 0 := by
  obtain ⟨-, -, hne, -⟩ := hs
  obtain ⟨-, -, e, he, rfl⟩ := State.lookup_eq_some hl
  exact hne _ _ _ he

/-- An object has one handle. -/
theorem handle_inj (hs : s.linked) (hl : s.lookup kind h = some o) (hl' : s.lookup kind g = some o) : h = g := by
  obtain ⟨-, -, -, hinj, -⟩ := hs
  obtain ⟨hkind, hgen, e, he, hobj⟩ := State.lookup_eq_some hl
  obtain ⟨hkind', hgen', e', he', hobj'⟩ := State.lookup_eq_some hl'
  have hindex : h.index.toNat = g.index.toNat := hinj _ _ _ _ _ he he' (hobj.trans hobj'.symm)
  obtain ⟨kh, ih, gh⟩ := h
  obtain ⟨kg, ig, gg⟩ := g
  obtain rfl : ih = ig := BitVec.eq_of_toNat_eq hindex
  rw [Handle.mk.injEq]
  exact ⟨hkind.trans hkind'.symm, rfl, hgen.symm.trans hgen'⟩

theorem names (hs : s.linked) (hg : (s.lookup k g).isSome) : ∃ o, s.names k g o := by
  obtain ⟨o, ho⟩ := Option.isSome_iff_exists.mp hg
  exact ⟨o, ho, hs.live_ne_zero ho⟩

/-- A live QP, and what it names. -/
theorem qp (hs : s.linked) (hl : s.lookup .qp h = some q) : ∃ x c1 c2, s.qp? q = some x ∧ s.names .cq x.sendCq c1
    ∧ s.names .cq x.recvCq c2 ∧ (x.sendCq ≠ x.recvCq → c1 ≠ c2) ∧ ∀ g, x.srq = some g → ∃ r, s.names .srq g r := by
  have ⟨_, _, _, _, hqps, _⟩ := hs
  obtain ⟨-, -, e, he, rfl⟩ := State.lookup_eq_some hl
  obtain ⟨x, hx, hsend, hrecv, hsrq⟩ := hqps _ _ he
  obtain ⟨c1, h1⟩ := hs.names hsend
  obtain ⟨c2, h2⟩ := hs.names hrecv
  refine ⟨x, c1, c2, hx, h1, h2, fun hne hc => hne ?_, fun g hg => hs.names (hsrq g hg)⟩
  subst hc
  exact hs.handle_inj h1.1 h2.1

/-- Where no QP is live, nothing is attached. -/
theorem attachOf_zero (hs : s.linked) (hqps : ∀ i, (s.entry .qp i).occ = none) (hk : kind ≠ .qp) (hl : s.lookup kind h = some o) :
    s.attachOf kind o = 0 := by
  obtain ⟨-, -, -, -, -, hattach⟩ := hs
  obtain ⟨-, -, e, he, rfl⟩ := State.lookup_eq_some hl
  exact (hattach _ _ _ hk he).trans (State.refs_zero hqps)

end State.linked

/-! ### The state between two destroys of a stop -/

/-- No lock is held, no other agent has a command in progress, and the objects fit together. -/
structure State.Stoppable (s : State) : Prop where
  unlocked : s.unlocked
  alone : s.alone
  linked : s.linked

/-- What some destroys of a stop do: each entry is as it was, or it is empty, its object is gone. -/
structure State.StopsTo (s u : State) : Prop where
  cfg : u.cfg = s.cfg
  cur : u.cur = s.cur
  resp : u.me.resp = s.me.resp
  stoppable : u.Stoppable
  entry : ∀ k i, u.entry k i = s.entry k i
    ∨ ∃ e, (s.entry k i).occ = some e ∧ u.entry k i = { gen := (s.entry k i).gen + 1, occ := none } ∧ u.gone k e.obj
  gone : ∀ k o, s.gone k o → u.gone k o

theorem State.Stoppable.stopsTo_self (hs : s.Stoppable) : s.StopsTo s :=
  ⟨rfl, rfl, rfl, hs, fun _ _ => .inl rfl, fun _ _ => id⟩

theorem State.StopsTo.empty (hu : s.StopsTo u) (he : (s.entry k i).occ = none) : (u.entry k i).occ = none := by
  obtain hsame | ⟨e, he', -⟩ := hu.entry k i
  · rw [hsame, he]
  · exact absurd (he.symm.trans he') nofun

theorem State.StopsTo.trans (hu : s.StopsTo u) (hv : u.StopsTo v) : s.StopsTo v where
  cfg := hv.cfg.trans hu.cfg
  cur := hv.cur.trans hu.cur
  resp := hv.resp.trans hu.resp
  stoppable := hv.stoppable
  entry k i := by
    obtain hsame | ⟨e, he, hempty, hgone⟩ := hu.entry k i
    · rw [← hsame]
      exact hv.entry k i
    · obtain hsame' | ⟨e', he', -⟩ := hv.entry k i
      · exact .inr ⟨e, he, hsame'.trans hempty, hv.gone _ _ hgone⟩
      · rw [hempty] at he'
        cases he'
  gone k o h := hv.gone k o (hu.gone k o h)

/-! ### The removal of an object -/

/-- The object at an arena index, taken out of its arena. -/
def State.eraseObj (s : State) (k : Kind) (o : Nat) : State :=
  match k with
  | .qp => s.eraseQp o
  | .cq => s.eraseCq o
  | .srq => s.eraseSrq o

theorem State.eraseObj_qp_ne (hne : ¬ (k = .qp ∧ p = o)) : (s.eraseObj k o).qp? p = s.qp? p := by
  cases k
  · exact assocGet_assocDel_ne _ fun hp => hne ⟨rfl, hp⟩
  · rfl
  · rfl

theorem State.eraseObj_attachOf_ne (hne : ¬ (k = kind ∧ p = o)) : (s.eraseObj kind o).attachOf k p = s.attachOf k p := by
  have herase : k = kind → p ≠ o := fun hk hp => hne ⟨hk, hp⟩
  cases kind with
  | qp => cases k <;> rfl
  | cq => cases k; exacts [rfl, congrArg (fun y => (Option.map _ y).getD 0) (assocGet_assocDel_ne _ (herase rfl)), rfl]
  | srq => cases k; exacts [rfl, rfl, congrArg (fun y => (Option.map _ y).getD 0) (assocGet_assocDel_ne _ (herase rfl))]

theorem State.eraseObj_gone (s : State) (k : Kind) (o : Nat) : (s.eraseObj k o).gone k o := by
  cases k <;> exact assocGet_assocDel_self ..

theorem assocGet_assocDel_none {α : Type} {l : List (Nat × α)} (hl : assocGet l p = none) : assocGet (assocDel l o) p = none := by
  by_cases hp : p = o
  · rw [hp, assocGet_assocDel_self]
  · rw [assocGet_assocDel_ne _ hp, hl]

theorem State.gone_eraseObj (hs : s.gone k p) : (s.eraseObj kind o).gone k p := by
  cases kind with
  | qp => cases k; exacts [assocGet_assocDel_none hs, hs, hs]
  | cq => cases k; exacts [hs, assocGet_assocDel_none hs, hs]
  | srq => cases k; exacts [hs, hs, assocGet_assocDel_none hs]

theorem State.steady_bumpRefs (s : State) (c1 c2 : Nat) (g : Option Handle) (f : Nat → Nat) : s.Steady (s.bumpRefs c1 c2 g f) := by
  have hcq := s.bumpRefs_cqOf c1 c2 g f
  have hsrq := s.bumpRefs_srqOf c1 c2 g f
  rw [State.bumpRefs_frame] at hcq hsrq ⊢
  exact
    { State.Steady.refl s with
      table := fun k => by cases k <;> rfl
      gone := fun k o h => by
        cases k
        · exact h
        · exact (hcq o).trans (Option.map_eq_none_iff.mpr h)
        · exact (hsrq o).trans (Option.map_eq_none_iff.mpr h) }

/-- How often an object that is destroyed names the CQ or SRQ at an arena index. -/
def State.lostRefs (s : State) (kind : Kind) (o : Nat) (k : Kind) (p : Nat) : Nat :=
  match kind with
  | .qp => ((s.qp? o).map fun x => s.refsOf x k p).getD 0
  | _ => 0

/-- What a destroy of the object at `o`, whose handle is `h`, does to the tables and the arenas. -/
structure State.Removed (s u : State) (kind : Kind) (h : Handle) (o : Nat) : Prop where
  cfg : u.cfg = s.cfg
  table : ∀ k, u.table k = (s.emptyEntry kind h).table k
  qp : ∀ q, ¬ (kind = .qp ∧ q = o) → u.qp? q = s.qp? q
  attach : ∀ k p, k ≠ .qp → ¬ (k = kind ∧ p = o) → u.attachOf k p = s.attachOf k p - s.lostRefs kind o k p

namespace State.Removed

theorem lookup (hu : s.Removed u kind h o) (hk : k ≠ kind) : u.lookup k = s.lookup k :=
  State.lookup_congr hu.cfg ((hu.table k).trans ((s.emptyEntry_table kind h k).trans (if_neg hk)))

/-- What is left is live in an entry that was live, and is another object. -/
theorem live (hu : s.Removed u kind h o) (hs : s.linked) (hl : s.lookup kind h = some o) {e : Occupant}
    (he : (u.entry k i).occ = some e) :
    (s.entry k i).occ = some e ∧ ¬ (k = kind ∧ i = h.index.toNat) ∧ ¬ (k = kind ∧ e.obj = o) := by
  have hne : ¬ (k = kind ∧ i = h.index.toNat) := by
    rintro ⟨rfl, rfl⟩
    rw [State.entry_emptied (hu.table k) ((hs.length k).symm ▸ (lookup_inRange hl).2)] at he
    cases he
  rw [State.entry_of_emptied (hu.table k) hne] at he
  refine ⟨he, hne, ?_⟩
  rintro ⟨rfl, hobj⟩
  obtain ⟨-, -, -, hinj, -⟩ := hs
  obtain ⟨-, -, e', he', hobj'⟩ := State.lookup_eq_some hl
  exact hne ⟨rfl, hinj _ _ _ _ _ he he' (hobj.trans hobj'.symm)⟩

/-- The references to a CQ or SRQ that are left. -/
theorem refs (hu : s.Removed u kind h o) (hs : s.linked) (hl : s.lookup kind h = some o)
    (hqps : kind ≠ .qp → ∀ i, (s.entry .qp i).occ = none) : s.refs k p = u.refs k p + s.lostRefs kind o k p := by
  by_cases hkind : kind = .qp
  · subst hkind
    obtain ⟨-, -, e, he, rfl⟩ := State.lookup_eq_some hl
    have hempty : (u.entry .qp h.index.toNat).occ = none := by
      rw [State.entry_emptied (hu.table .qp) (State.entry_live_lt he)]
    have hothers : ∀ j, j ≠ h.index.toNat → u.refsAt k p j = s.refsAt k p j := fun j hj => by
      have hentry : u.entry .qp j = s.entry .qp j := State.entry_of_emptied (hu.table .qp) fun hij => hj hij.2
      rw [State.refsAt, State.refsAt, hentry]
      cases hocc : (s.entry .qp j).occ with
      | none => rfl
      | some d =>
        obtain ⟨-, -, hobj⟩ := hu.live hs hl (hentry ▸ hocc)
        simp only [Option.bind_some, hu.qp _ fun h => hobj ⟨rfl, h.2⟩, State.refsOf_congr (hu.lookup nofun) (hu.lookup nofun)]
    have hlost : s.refsAt k p h.index.toNat = s.lostRefs .qp e.obj k p := by
      rw [State.refsAt, he]
      rfl
    rw [State.refs_eq, State.refs_eq, hu.cfg, ← hlost]
    exact sum_range_dropped (lookup_inRange hl).2 (State.refsAt_empty hempty) hothers
  · have hempty : ∀ i, (u.entry .qp i).occ = none := fun i => by
      rw [State.entry_of_emptied (hu.table .qp) fun h => hkind h.1.symm]
      exact hqps hkind i
    have hlost : s.lostRefs kind o k p = 0 := by
      cases kind
      · exact absurd rfl hkind
      · rfl
      · rfl
    rw [State.refs_zero (hqps hkind), State.refs_zero hempty, hlost]

/-- The objects that are left fit together. -/
theorem linked (hu : s.Removed u kind h o) (hs : s.linked) (hl : s.lookup kind h = some o)
    (hqps : kind ≠ .qp → ∀ i, (s.entry .qp i).occ = none) : u.linked := by
  have ⟨_, hsize, hne, hinj, hlive, hattach⟩ := hs
  have hlength : ∀ k, (u.table k).length = Config.entries u.cfg k := fun k => by
    rw [hu.table, State.emptyEntry_table, hu.cfg, ← hs.length]
    split_ifs with hk
    · rw [List.length_set, hk]
    · rfl
  refine ⟨⟨hlength .qp, hlength .cq, hlength .srq⟩, fun k => hu.cfg ▸ hsize k, fun k i e he => ?_, fun k i j e d he hd hobj => ?_,
    fun i e he => ?_, fun k i e hk he => ?_⟩
  · obtain ⟨he, -⟩ := hu.live hs hl he
    exact hne k i e he
  · obtain ⟨he, -⟩ := hu.live hs hl he
    obtain ⟨hd, -⟩ := hu.live hs hl hd
    exact hinj k i j e d he hd hobj
  · obtain ⟨he, -, hobj⟩ := hu.live hs hl he
    by_cases hkind : kind = .qp
    · subst hkind
      rw [hu.qp _ fun h => hobj ⟨rfl, h.2⟩, hu.lookup (k := .cq) nofun, hu.lookup (k := .srq) nofun]
      exact hlive i e he
    · exact absurd (he.symm.trans (hqps hkind i)) nofun
  · obtain ⟨he, -, hobj⟩ := hu.live hs hl he
    rw [hu.attach k e.obj hk hobj, hattach k i e hk he, hu.refs hs hl hqps, Nat.add_sub_cancel]

end State.Removed

theorem State.spares_hold (s : State) (b : Option (Nat × Nat)) : s.Spares (s.hold b) := State.spares_setMe rfl rfl

/-- The removal of an entry changes that entry only. -/
theorem State.steady_dropEntry (s : State) (kind : Kind) (h : Handle) : (s.emptyEntry kind h).Steady (s.dropEntry kind h) := by
  have hme : (s.emptyEntry kind h).me = s.me := by cases kind <;> rfl
  exact (State.spares_setMe (by rw [hme]) (by rw [hme])).toSteady

theorem State.eraseObj_frame (s : State) (k : Kind) (o : Nat) : s.eraseObj k o =
    { s with qps := (s.eraseObj k o).qps, cqs := (s.eraseObj k o).cqs, srqs := (s.eraseObj k o).srqs } := by
  cases k <;> rfl

theorem State.eraseObj_table (s : State) (k : Kind) (o : Nat) : (s.eraseObj k o).table = s.table := by
  funext j
  cases k <;> cases j <;> rfl

/-- The destroy of an object: its entry is removed, what it names is detached, and the object is taken out of its arena. -/
theorem State.Stoppable.destroys {b : Option (Nat × Nat)} (hs : s.Stoppable) (hl : s.lookup kind h = some o)
    (hqps : kind ≠ .qp → ∀ i, (s.entry .qp i).occ = none) (hv : (s.dropEntry kind h).Steady v)
    (hattach : ∀ k p, k ≠ .qp → v.attachOf k p = s.attachOf k p - s.lostRefs kind o k p) :
    s.StopsTo ((v.hold b).eraseObj kind o) ∧ (((v.hold b).eraseObj kind o).entry kind h.index.toNat).occ = none := by
  obtain ⟨hu, halone, hlinked⟩ := hs
  have hw : (s.emptyEntry kind h).Steady (v.hold b) := ((s.steady_dropEntry kind h).trans hv).trans (v.spares_hold b).toSteady
  have hempty : (s.emptyEntry kind h).cfg = s.cfg ∧ (s.emptyEntry kind h).cur = s.cur ∧ (s.emptyEntry kind h).locks = s.locks
      ∧ (s.emptyEntry kind h).me = s.me ∧ (s.emptyEntry kind h).qps = s.qps ∧ ((s.emptyEntry kind h).alone ↔ s.alone)
      ∧ ∀ k p, s.gone k p → (s.emptyEntry kind h).gone k p := by
    cases kind <;> exact ⟨rfl, rfl, rfl, rfl, rfl, Iff.rfl, fun k p hp => by cases k <;> exact hp⟩
  obtain ⟨hcfg, hcur, hlocks, hme, hqp, hal, hgone⟩ := hempty
  have hremoved : s.Removed ((v.hold b).eraseObj kind o) kind h o :=
    { cfg := by rw [State.eraseObj_frame]; exact hw.cfg.trans hcfg
      table := fun k => by rw [State.eraseObj_table, hw.table]
      qp := fun q hq => (State.eraseObj_qp_ne hq).trans (congrArg (assocGet · q) (hw.qps.trans hqp))
      attach := fun k p hk hp =>
        (State.eraseObj_attachOf_ne hp).trans (((v.spares_hold b).attach k p).trans (hattach k p hk)) }
  obtain ⟨-, hgen, e, he, hobj⟩ := State.lookup_eq_some hl
  have hentry := State.entry_emptied (hremoved.table kind) (State.entry_live_lt he)
  refine ⟨?_, by rw [hentry]⟩
  exact
    { cfg := hremoved.cfg
      cur := by rw [State.eraseObj_frame]; exact hw.cur.trans hcur
      resp := by rw [State.eraseObj_frame]; exact hw.resp.trans (congrArg Agent.resp hme)
      stoppable :=
        { unlocked := by rw [State.eraseObj_frame]; exact (hw.locks.trans hlocks).trans hu
          alone := by rw [State.eraseObj_frame]; exact hw.alone (hal.mpr halone)
          linked := hremoved.linked hlinked hl hqps }
      entry := fun k i => by
        by_cases hki : k = kind ∧ i = h.index.toNat
        · obtain ⟨rfl, rfl⟩ := hki
          exact .inr ⟨e, he, hgen ▸ hentry, hobj ▸ State.eraseObj_gone ..⟩
        · exact .inl (State.entry_of_emptied (hremoved.table k) hki)
      gone := fun k p hp => State.gone_eraseObj (hw.gone k p (hgone k p hp)) }

end Sys2Proof.Machine
end

section
/-! SUPPORT. `DEVICE_STOP` of a device with live objects (R441): a stop that ends has destroyed every QP, then every SRQ, then every
CQ, each in the state that the destroys before it have left. -/

namespace Sys2Proof.Machine

open Sys2Proof

variable {s t : State} {kind : Kind} {h : Handle} {k : Prog} {i n o q c r : Nat}

/-! ### The destroy of one object -/

theorem Open.detach {kind : Kind} {h : State → Option Handle} {C : (Nat → Prog) → Prog} (hC : Open C) :
    Open fun k => detach kind h (C k) := .ask fun _ => .underShardAt fun _ => hC

theorem Open.detachSrq {C : (Nat → Prog) → Prog} (hC : Open C) : Open fun k => detachSrq q (C k) := .ask fun _ => .ite hC (.detach hC)

theorem State.dropEntry_cmd (s : State) (kind : Kind) (h : Handle) : (s.dropEntry kind h).me.cmd = s.me.cmd := by
  rw [State.dropEntry, State.setMe_me]

theorem State.dropEntry_attachOf (s : State) (kind : Kind) (h : Handle) (k : Kind) (o : Nat) :
    (s.dropEntry kind h).attachOf k o = s.attachOf k o := by
  cases kind <;> cases k <;> rfl

theorem State.eraseObj_hold_cmd (s : State) (b : Option (Nat × Nat)) (kind : Kind) (o : Nat) :
    ((s.hold b).eraseObj kind o).me.cmd = s.me.cmd := by
  rw [State.eraseObj_frame]
  exact (s.spares_hold b).cmd

/-- `RESOLVE` and `REMOVE` of a live CQ or SRQ to which nothing is attached (R346, R349). -/
theorem Finishes.removed {fail : Status → Prog} {rest : Nat → Prog} (hs : s.Stoppable) (hl : s.lookup kind h = some o)
    (hattach : s.attachOf kind o = 0)
    (hf : Finishes (resolve kind h false (fail .invalidHandle) fun o => removeUnattached kind h fail (rest o)) s t) :
    Finishes (rest o) (s.dropEntry kind h) t := by
  have hfree := hs.unlocked.holder
  have hresolved := (Open.resolve Open.hole).finishes (u := s)
    (fun k t => runs_resolve_found (use := false) hl (hs.linked.live_ne_zero hl) nofun (hfree _)) rfl hf
  exact (Open.removeUnattached (.hole 0)).finishes (k := fun _ => rest o)
    (fun k t => runs_removeUnattached hl hattach (hs.alone.used h) (hfree _)) (s.dropEntry_cmd kind h) hresolved

/-- The steps of the destroy of a CQ or SRQ after the removal of its entry: `C` are those before the removal of the object. -/
theorem Finishes.erased {C : (Nat → Prog) → Prog} {b : State → Option (Nat × Nat)} (hC : Passes C) (hs : s.Stoppable)
    (hqps : ∀ i, (s.entry .qp i).occ = none) (hkind : kind ≠ .qp) (hl : s.lookup kind h = some o)
    (hf : Finishes (C fun _ => Machine.eff (fun s => (s.hold (b s)).eraseObj kind o) k) (s.dropEntry kind h) t) :
    ∃ u, s.StopsTo u ∧ (u.entry kind h.index.toNat).occ = none ∧ Finishes k u t := by
  obtain ⟨_, v, hv, hf⟩ := hC _ _ _ hf
  have hlost : ∀ k p, s.lostRefs kind o k p = 0 := fun k p => by
    cases kind
    · exact absurd rfl hkind
    · rfl
    · rfl
  obtain ⟨hstops, hempty⟩ := hs.destroys (b := b v) hl (fun _ => hqps) hv.toSteady fun k p _ => by
    rw [hv.attach, State.dropEntry_attachOf, hlost, Nat.sub_zero]
  exact ⟨_, hstops, hempty, hf.eff (v.eraseObj_hold_cmd _ _ _)⟩

/-- The steps of the destroy of a CQ, where no QP is live. -/
theorem Finishes.destroyCq (hs : s.Stoppable) (hqps : ∀ i, (s.entry .qp i).occ = none) (hl : s.lookup .cq h = some c)
    (hf : Finishes (destroyCqSteps h false fun _ => k) s t) :
    ∃ u, s.StopsTo u ∧ (u.entry .cq h.index.toNat).occ = none ∧ Finishes k u t :=
  have hremoved := hf.removed hs hl (hs.linked.attachOf_zero hqps (by decide) hl)
  hremoved.erased (kind := .cq) (Passes.mailbox fun _ => Passes.freeRec (Passes.freeRec (passes_hole 0))) hs hqps (by decide) hl

/-- The steps of the destroy of an SRQ, where no QP is live. -/
theorem Finishes.destroySrq (hs : s.Stoppable) (hqps : ∀ i, (s.entry .qp i).occ = none) (hl : s.lookup .srq h = some r)
    (hf : Finishes (destroySrqSteps h false fun _ => k) s t) :
    ∃ u, s.StopsTo u ∧ (u.entry .srq h.index.toNat).occ = none ∧ Finishes k u t :=
  have hremoved := hf.removed hs hl (hs.linked.attachOf_zero hqps (by decide) hl)
  hremoved.erased (kind := .srq) (Passes.mailbox fun _ => Passes.freeRec (passes_hole 0)) hs hqps (by decide) hl

/-- The steps of the destroy of a QP from its detaches on, under its `mlock`: `v` is the state after the cleaning of its CQs. -/
theorem Finishes.destroyQpEnd {x : Qp} {c1 c2 : Nat} {v : State} (hs : s.Stoppable) (hl : s.lookup .qp h = some q) (hx : s.qp? q = some x)
    (h1 : s.names .cq x.sendCq c1) (h2 : s.names .cq x.recvCq c2) (hsrq : ∀ g, x.srq = some g → ∃ r, s.names .srq g r)
    (hv : ((s.dropEntry .qp h).setLocks ((.mlock q, (s.dropEntry .qp h).cur) :: (s.dropEntry .qp h).locks)).Spares v)
    (hf : Finishes (detach .cq (fun s => s.cqHandle q true) <| detach .cq (fun s => s.cqHandle q false) <| detachSrq q <|
      Machine.release (.mlock q) <| Machine.eff (fun s => (s.hold ((s.qp? q).map Qp.buffer)).eraseQp q) k) v t) :
    ∃ u, s.StopsTo u ∧ (u.entry .qp h.index.toNat).occ = none ∧ Finishes k u t := by
  let l := (s.dropEntry .qp h).locks
  let w := v.bumpRefs c1 c2 x.srq (· - 1)
  have hnone : l = [] := hs.unlocked
  have hvx : v.qp? q = some x := (congrArg (assocGet · q) hv.qps).trans hx
  have hlookup : ∀ j, j ≠ .qp → v.lookup j = s.lookup j := fun j hj => by
    refine State.lookup_congr hv.cfg ((hv.table j).trans ?_)
    cases j
    · exact absurd rfl hj
    · rfl
    · rfl
  have hnames : ∀ j g p, j ≠ .qp → s.names j g p → v.names j g p := fun j g p hj hn => by rwa [State.names, hlookup j hj]
  have hlocks : v.locks = (.mlock q, (s.dropEntry .qp h).cur) :: l := hv.locks
  have hfree : ∀ j i, v.holder (.shard j i) = none := fun j i => by
    rw [State.holder, hlocks, hnone]
    rfl
  have hw : v.Steady w := v.steady_bumpRefs ..
  have hdetached := (Open.detach (Open.detach (Open.detachSrq (.hole 0)))).finishes (u := w) (k := fun _ => _)
    (fun k t => runs_detachRefs hvx (hnames _ _ _ (by decide) h1) (hnames _ _ _ (by decide) h2)
      (fun g hg => (hsrq g hg).imp fun r => hnames _ _ _ (by decide)) hfree) hw.cmd hf
  have hreleased := hdetached.release
  have hfilter : w.locks.filter (fun e => decide (e.1 ≠ .mlock q)) = l := by
    rw [hw.locks, hlocks, hnone, List.filter_cons_of_neg (by simp)]
    rfl
  rw [hfilter] at hreleased
  have hlost : ∀ j p, v.refsOf x j p = s.lostRefs .qp q j p := fun j p => by
    rw [State.refsOf_congr (hlookup .cq (by decide)) (hlookup .srq (by decide)), State.lostRefs, hx]
    rfl
  have hattach : ∀ j p, j ≠ .qp → (w.setLocks l).attachOf j p = s.attachOf j p - s.lostRefs .qp q j p := fun j p hj => by
    have hbump : w.attachOf j p = v.attachOf j p - v.refsOf x j p := State.bumpRefs_attachOf
      ((congrFun (hlookup .cq (by decide)) _).trans h1.1) ((congrFun (hlookup .cq (by decide)) _).trans h2.1) hj
    have hbefore : v.attachOf j p = s.attachOf j p := (hv.attach j p).trans (by cases j <;> rfl)
    rw [← hlost, ← hbefore, ← hbump]
    cases j <;> rfl
  obtain ⟨hstops, hempty⟩ := hs.destroys (b := ((w.setLocks l).qp? q).map Qp.buffer) hl (fun h => absurd rfl h)
    (hv.toSteady.trans hw).of_locked hattach
  exact ⟨_, hstops, hempty, hreleased.eff ((w.setLocks l).eraseObj_hold_cmd _ .qp q)⟩

/-- The steps of the destroy of a QP (R182). -/
theorem Finishes.destroyQp (hs : s.Stoppable) (hl : s.lookup .qp h = some q)
    (hf : Finishes (destroyQpSteps h false fun _ => k) s t) :
    ∃ u, s.StopsTo u ∧ (u.entry .qp h.index.toNat).occ = none ∧ Finishes k u t := by
  obtain ⟨x, c1, c2, hx, h1, h2, hd, hsrq⟩ := hs.linked.qp hl
  have hresolved := (Open.resolveBy Open.hole).finishes (u := s)
    (fun k t => runs_resolveDestroy_found hs.alone hl (hs.linked.live_ne_zero hl) (hs.unlocked.holder _)) rfl hf
  have hremoved := (Open.removeQpLocked Open.hole).finishes
    (fun k t => runs_removeQpLocked hs.unlocked hx h1 h2 hd hl (hs.alone.used h)) (s.dropEntry_cmd .qp h) hresolved
  rw [if_neg Nat.one_ne_zero] at hremoved
  obtain ⟨_, v, hv, hcleaned⟩ := Passes.finalReset (Passes.cleanBoth (Passes.freeRec (Passes.freeRec (passes_hole 0))))
    (fun _ => _) _ _ hremoved.waitFor.acquire
  exact hcleaned.destroyQpEnd hs hl hx h1 h2 hsrq hv

theorem Finishes.destroy (hs : s.Stoppable) (hqps : kind ≠ .qp → ∀ i, (s.entry .qp i).occ = none) (hl : s.lookup kind h = some o)
    (hf : Finishes (destroySteps kind h fun _ => k) s t) :
    ∃ u, s.StopsTo u ∧ (u.entry kind h.index.toNat).occ = none ∧ Finishes k u t := by
  cases kind
  · exact hf.destroyQp hs hl
  · exact hf.destroyCq hs (hqps nofun) hl
  · exact hf.destroySrq hs (hqps nofun) hl

/-! ### The loops over the tables -/

theorem Finishes.stopLoop (n : Nat) : ∀ (i : Nat) (s : State), s.Stoppable → (kind ≠ .qp → ∀ i, (s.entry .qp i).occ = none) →
    i + n = Config.entries s.cfg kind → Finishes (stopLoop kind n i k) s t →
    ∃ u, s.StopsTo u ∧ (∀ j, i ≤ j → j < i + n → (u.entry kind j).occ = none) ∧ Finishes k u t := by
  induction n with
  | zero => exact fun i s hs _ _ hf => ⟨s, hs.stopsTo_self, fun j _ _ => by omega, hf⟩
  | succ n ih =>
    intro i s hs hqps hn hf
    have hread := (Open.underShardAt Open.hole).finishes (u := s) (fun k t => runs_readGen hs.unlocked) rfl hf
    suffices hone : ∃ u, s.StopsTo u ∧ (u.entry kind i).occ = none ∧ Finishes (Machine.stopLoop kind n (i + 1) k) u t by
      obtain ⟨u, hu, hempty, hf⟩ := hone
      obtain ⟨v, hv, hrest, hf⟩ := ih (i + 1) u hu.stoppable (fun hk j => hu.empty (hqps hk j)) (by rw [hu.cfg]; omega) hf
      refine ⟨v, hu.trans hv, fun j hj hj' => ?_, hf⟩
      obtain rfl | hlater := hj.eq_or_lt
      · exact hv.empty hempty
      · exact hrest j hlater (by omega)
    cases hocc : (s.entry kind i).occ with
    | none =>
      have hgen : s.liveGen kind i = 0 := by
        rw [State.liveGen, hocc]
        rfl
      rw [hgen, if_pos rfl] at hread
      exact ⟨s, hs.stopsTo_self, hocc, hread⟩
    | some e =>
      have hgen : s.liveGen kind i = (s.entry kind i).gen.toNat + 1 := by
        rw [State.liveGen, hocc]
        rfl
      obtain ⟨-, hsize, -⟩ := hs.linked
      have hindex : (BitVec.ofNat 24 i).toNat = i := by
        have := hsize kind
        rw [BitVec.toNat_ofNat, Nat.mod_eq_of_lt (by omega)]
      rw [hgen, if_neg (Nat.succ_ne_zero _), Nat.add_sub_cancel, BitVec.ofNat_toNat, BitVec.setWidth_eq] at hread
      have hlookup : s.lookup kind { kind, index := BitVec.ofNat 24 i, gen := (s.entry kind i).gen } = some e.obj := by
        rw [State.lookup, if_pos ⟨rfl, hindex.trans_lt (by omega)⟩]
        simp only [hindex, hocc, if_true]
      obtain ⟨u, hu, hempty, hf⟩ := hread.destroy hs hqps hlookup
      exact ⟨u, hu, hindex ▸ hempty, hf⟩

/-- The objects of a kind, destroyed: QPs, or others where no QP is live. -/
theorem Finishes.stopKind (hs : s.Stoppable) (hqps : kind ≠ .qp → ∀ i, (s.entry .qp i).occ = none)
    (hf : Finishes (stopKind kind k) s t) : ∃ u, s.StopsTo u ∧ (∀ i, (u.entry kind i).occ = none) ∧ Finishes k u t := by
  obtain ⟨u, hu, hempty, hf⟩ := hf.ask.stopLoop _ 0 s hs hqps (Nat.zero_add _)
  refine ⟨u, hu, fun i => ?_, hf⟩
  cases hocc : (u.entry kind i).occ with
  | none => rfl
  | some e =>
    have hi := State.entry_live_lt hocc
    rw [hu.stoppable.linked.length, hu.cfg] at hi
    exact absurd ((hempty i (Nat.zero_le i) (by omega)).symm.trans hocc) nofun

/-- All objects, destroyed. -/
theorem Finishes.stopAll (hs : s.Stoppable) (hf : Finishes (Machine.stopKind .qp <| Machine.stopKind .srq <| Machine.stopKind .cq k) s t) :
    ∃ u, s.StopsTo u ∧ (∀ k i, (u.entry k i).occ = none) ∧ Finishes k u t := by
  obtain ⟨u1, hu1, hqp, hf⟩ := hf.stopKind hs fun h => absurd rfl h
  obtain ⟨u2, hu2, hsrq, hf⟩ := hf.stopKind hu1.stoppable fun _ => hqp
  obtain ⟨u3, hu3, hcq, hf⟩ := hf.stopKind hu2.stoppable fun _ i => hu2.empty (hqp i)
  refine ⟨u3, (hu1.trans hu2).trans hu3, fun k i => ?_, hf⟩
  cases k
  · exact hu3.empty (hu2.empty (hqp i))
  · exact hcq i
  · exact hu3.empty (hsrq i)

/-! ### The obligation -/

theorem Open.stopEnd {C : (Nat → Prog) → Prog} (hC : Open C) : Open fun k => stopEnd (C k) :=
  .eff (.eff (.acquire (.eff (.release hC))))

theorem State.stopped_me (hcur : s.cur ≠ eventAgent) : s.stopped.me = s.me := State.dropEvents_agent_ne hcur

theorem State.idle.stoppable (hs : s.idle) (hlinked : s.linked) : (s.beginCmd .deviceStop).Stoppable := by
  obtain ⟨-, halone, hu⟩ := hs
  exact ⟨hu.begin _, halone.begin _, hlinked⟩

/-- What some destroys have left of the entries, where nothing is live any more. -/
theorem State.StopsTo.all_empty {u : State} (hu : s.StopsTo u) (hempty : ∀ k i, (u.entry k i).occ = none) :
    (∀ k i, u.entry k i =
      { gen := if (s.entry k i).occ.isSome then (s.entry k i).gen + 1 else (s.entry k i).gen, occ := none })
    ∧ ∀ k i e, (s.entry k i).occ = some e → u.gone k e.obj := by
  refine ⟨fun k i => ?_, fun k i e he => ?_⟩
  · obtain hsame | ⟨e, he, hentry, -⟩ := hu.entry k i
    · have hocc := hempty k i
      rw [hsame] at hocc ⊢
      rw [hocc]
      exact congrArg (Entry.mk _) hocc
    · rw [hentry, he]
      rfl
  · obtain hsame | ⟨e', he', -, hgone⟩ := hu.entry k i
    · exact absurd ((hsame ▸ hempty k i).symm.trans he) nofun
    · cases he.symm.trans he'
      exact hgone

/-- Settles O16: `Finishes.stopAll`, and the steps after the last destroy. -/
theorem deviceStop : Obligations.DeviceStop := by
  intro s t hs hstarted hlinked hexec hdone
  have hprog := (Open.precond (.hole 0)).finishes (k := fun _ => _) (u := s.beginCmd .deviceStop)
    (fun k t => runs_precond (s := s.beginCmd .deviceStop) hstarted fun _ => rfl) rfl (hs.finishes (p := deviceStopProg) hexec hdone)
  obtain ⟨u, hu, hempty, hf⟩ := hprog.stopAll (hs.stoppable hlinked)
  have hcur' : u.cur ≠ eventAgent := hu.cur ▸ hs.requester
  have hend := (Open.stopEnd (.hole 0)).finishes (k := fun _ => _) (fun k t => runs_stopEnd hu.stoppable.unlocked)
    (congrArg Agent.cmd (State.stopped_me hcur')) hf
  obtain rfl := hend.respond
  have hunlocked : u.dropEvents.locks = [] := State.dropEvents_unlocked hu.stoppable.unlocked
  have hresp : u.me.resp = {} := hu.resp.trans (by rw [State.beginCmd_me])
  obtain ⟨hentries, hgone⟩ := hu.all_empty hempty
  simp only [State.beginCmd_entry] at hentries hgone
  refine ⟨fun k i => ?_, fun k h => State.lookup_of_empty ?_, fun i o => hgone .qp i o, fun i o => hgone .cq i o,
    fun i o => hgone .srq i o, rfl, rfl, rfl, congrArg Config.dbRecCount hu.cfg, hunlocked, rfl, ?_, ?_⟩
  · rw [← hentries]
    cases k <;> rfl
  · refine Eq.trans ?_ (hempty k h.index.toNat)
    cases k <;> rfl
  · have hother : ∀ (v : State) ag b, v.cur = u.cur → ((v.setMe ag).setMe b).agent eventAgent = v.agent eventAgent :=
        fun v ag b hv => by
          rw [State.setMe_setMe, State.setMe_agent_ne _ _ (hv ▸ hcur'.symm)]
    exact (congrArg Agent.cmd (hother u.stopped _ _ rfl)).trans State.dropEvents_eventAgent
  · rw [State.response, State.endCmd_me, State.setResp_me, State.stopped_me hcur', hresp]
    rfl

end Sys2Proof.Machine
end
